-- ==== Sys2Proof/Word.lean ====
section
/-! DEFINITION. The word types of the Shurraud OZ-9416 (spec 00 R5, 01 R12, 02 R42, 18 R285-R286). -/

namespace Sys2Proof

/-- One byte of memory, of the folio or of an operand-folio slot. -/
abbrev Byte := BitVec 8
/-- A scalar or address register, a control register, an address (R42). -/
abbrev Word := BitVec 64
/-- An instruction word or a literal word (R12, R17). -/
abbrev Word128 := BitVec 128
/-- A vector register of 512 bytes; byte `i` is bits `8i+7 .. 8i` (R5, R285). -/
abbrev VecWord := BitVec 4096
/-- A mask register of 1,024 lane bits (R286). -/
abbrev MaskWord := BitVec 1024

end Sys2Proof
end

