-- ==== Sys2Proof/Syntax.lean ====
section
/-! DEFINITION. The instructions and events of the OZ-9416, one constructor of `Instr` per row of the opcode table. -/

namespace Sys2Proof

/-- Scalar register number s0-s31 (R19). -/
abbrev SReg := Fin 32
/-- Address register number a0-a15 (R19). -/
abbrev AReg := Fin 16
/-- Predicate number p0-p7 (R19). -/
abbrev PReg := Fin 8
/-- Loop counter number lc0-lc3 (R19). -/
abbrev LReg := Fin 4
/-- Vector register number v0-v63 (R20). -/
abbrev VNum := Fin 64
/-- Mask register number m0-m7 (R289). -/
abbrev MNum := Fin 8

/-- A strand-side operand that may name a scalar or an address register (R113, "s/a"). -/
inductive SaReg where
  | s (r : SReg)
  | a (r : AReg)
  deriving DecidableEq, Repr

/-- Compare conditions, codes 0-9 of R52. -/
inductive Cond where
  | eq | ne | lt | le | gt | ge | ltu | leu | gtu | geu
  deriving DecidableEq, Repr

/-- Element types, codes 0x00-0x14 of R30. -/
inductive ETy where
  | i4 | i8 | i16 | i32 | n4 | n8 | n16 | n32 | f32 | bf16 | f16
  | e4m3 | e5m2 | ta8 | ta6 | e8m0 | e3m2 | e2m3 | e2m1 | i64 | n64
  deriving DecidableEq, Repr

/-- Scopes, codes 0-6 of R32 (R11). -/
inductive Scope where
  | strand | ctx | core | quad | die | pkg | dom
  deriving DecidableEq, Repr

/-- The flavour field FL of R114. -/
inductive Flavour where
  | none | acq | rel | full
  deriving DecidableEq, Repr

/-- The address, class, flavour and scope of an instruction of the memory-access class (R114-R116). -/
structure MemOp where
  base : AReg
  disp : BitVec 32
  oc : Fin 16
  fl : Flavour
  scope : Scope
  deriving DecidableEq, Repr

/-- A `MemOp` with the folio flag SP and the lane mask of a vector access (R114, R120). -/
structure VMemOp where
  mem : MemOp
  folio : Bool
  mask : Option MNum
  deriving DecidableEq, Repr

/-- Operations of ATOM and ATOMN, VAR 0-7 of R128. -/
inductive AtomOp where
  | add | min | max | and | or | xor | swap | fadd
  deriving DecidableEq, Repr

/-- Prefetch kinds, VAR 0-2 of R126. -/
inductive PrefKind where
  | rd | near | wr
  deriving DecidableEq, Repr

/-- Where DCOL writes its result (R133). -/
inductive DcolDst where
  | s (r : SReg)
  | v (r : VNum)
  deriving DecidableEq, Repr

/-- Bank fields of BKR and BKW, VAR 0-4 of R142. -/
inductive BankField where
  | cause | ret | addr | guard | level
  deriving DecidableEq, Repr

/-- A semaphore count: a register (VAR 0) or an immediate (VAR 1) (R200). -/
inductive SemCount where
  | reg (r : SReg)
  | imm (k : BitVec 24)
  deriving DecidableEq, Repr

/-- Conditions of WADDR, VAR 0-5 of R210. -/
inductive WaitCond where
  | eq | ne | ltu | geu | lt | ge
  deriving DecidableEq, Repr

/-- The three engines of a core (R247). -/
inductive Engine where
  | le | ve | ce
  deriving DecidableEq, Repr

/-- The task word of R248. -/
structure TaskWord where
  budget : BitVec 32
  tickets : BitVec 32
  scount : BitVec 24
  ssem : BitVec 8
  wcount : BitVec 24
  wsem : BitVec 8
  deriving DecidableEq, Repr

/-- Directions of CPY, VAR 0-3 of R253. -/
inductive CpyDir where
  | m2f | f2m | m2m | f2f
  deriving DecidableEq, Repr

/-- The operands of a CHAIN command (R300). -/
structure ChainCmd where
  a : SReg
  list : VNum
  c : SReg
  d : SReg
  oc : Fin 16
  bar : Bool
  crc : Bool
  task : TaskWord
  deriving DecidableEq, Repr

/-- The operands of an MMA or QMMA command, with the epilogue CHAIN it carries when EPI = 1 (R307, R308, R321). -/
structure MatCmd where
  a : SReg
  b : SReg
  c : SReg
  d : SReg
  oc : Fin 16
  bar : Bool
  chk : Bool
  zero : Bool
  ka : Bool
  task : TaskWord
  epi : Option ChainCmd
  deriving DecidableEq, Repr

/-- The matrix command that follows a copy with FO = 1; `tag` is present for a QMMA (R257). -/
structure FollowOn where
  cmd : MatCmd
  tag : Option (Fin 16)
  deriving DecidableEq, Repr

/-- The operands of a CPY (R251, R253). -/
structure CpyCmd where
  a : SReg
  b : SReg
  c : SReg
  d : SReg
  dir : CpyDir
  ch : Fin 4
  oc : Fin 16
  bar : Bool
  crc : Bool
  task : TaskWord
  fo : Option FollowOn
  deriving DecidableEq, Repr

/-- The operands of a CPYO (R251, R255); `fol` is the folio source of VAR 1. -/
structure CpyoCmd where
  a : SReg
  b : SReg
  c : SReg
  fol : Bool
  ch : Fin 4
  oc : Fin 16
  bar : Bool
  task : TaskWord
  fo : Option FollowOn
  deriving DecidableEq, Repr

/-- A vector shift count: a register (VAR 0) or an immediate (VAR 1) (R293). -/
inductive VCount where
  | reg (v : VNum)
  | imm (k : Fin 64)
  deriving DecidableEq, Repr

/-- Forms of VFMA, VAR 0-3 of R291. -/
inductive FmaForm where
  | fma | ms | nma | nms
  deriving DecidableEq, Repr

/-- Functions of VBIT, VAR 0-3 of R293. -/
inductive BitFn where
  | popc | clz | ctz | brev
  deriving DecidableEq, Repr

/-- Special functions of VSF, VAR 0-6 of R298. -/
inductive SpecFn where
  | rcp | rsqrt | sqrt | exp2 | log2 | tanh | sigm
  deriving DecidableEq, Repr

/-- Overflow policies, codes 0-3 of R278. -/
inductive Pol where
  | sat | inf | nan | trap
  deriving DecidableEq, Repr

/-- The operands of VCVT (R296). -/
structure VcvtOp where
  d : VNum
  a : VNum
  scale : VNum
  td : ETy
  ts : ETy
  xd : Bool
  xs : Bool
  pol : Pol
  sm : Bool
  pn : PReg
  k : Fin 4
  mask : Option MNum
  deriving DecidableEq, Repr

/-- The slot arguments of LPACK and LEXT, with the slot width SW (R308). -/
structure LigOp where
  first : Fin 1024
  stride : Fin 512
  count : BitVec 11
  sw : BitVec 7
  deriving DecidableEq, Repr

/-- A strand: package-wide core number, context slot, strand number (R68, R149). -/
structure StrandRef where
  core : Nat
  slot : Nat
  strand : Nat
  deriving DecidableEq, Repr

/-- A resident or shadowed context of a core (R149). -/
inductive CtxRef where
  | resident (core slot : Nat)
  | shadow (core slot : Nat)
  deriving DecidableEq, Repr

/-- Cause codes of class A and D that an engine phase can meet (R163). -/
inductive EngineCause where
  | accessFault (stage : BitVec 2)
  | xlateMiss (stage : BitVec 2)
  | xlatePerm (stage : BitVec 2)
  | memUe
  | memIntegrity
  | fwqUnderflow
  | pageAbsent
  | traceMismatch
  | mathSdc
  | storeSdc
  | frameStarved
  deriving DecidableEq, Repr

/-- Kill causes of class K (R163). -/
inductive KillCause where
  | nest (code : BitVec 8)
  | grace
  | hyp
  | orphan (code : BitVec 8)
  deriving DecidableEq, Repr

/-- What happens to one strand, engine, owner, host or package in one step: an instruction or an event of the table. -/
inductive Instr where
  -- control subset (02 R45-R71)
  | nop
  | add (d a b : SReg) (w sat : Bool)
  | sub (d a b : SReg) (w sat : Bool)
  | addi (d a : SReg) (imm : Word) (w sat : Bool)
  | min (d a b : SReg) (w u : Bool)
  | max (d a b : SReg) (w u : Bool)
  | abs (d a : SReg) (w sat : Bool)
  | and (d a b : SReg)
  | or (d a b : SReg)
  | xor (d a b : SReg)
  | andi (d a : SReg) (imm : Word)
  | ori (d a : SReg) (imm : Word)
  | xori (d a : SReg) (imm : Word)
  | shl (d a b : SReg) (w : Bool)
  | shr (d a b : SReg) (w : Bool)
  | sar (d a b : SReg) (w : Bool)
  | shli (d a : SReg) (count : Fin 64) (w : Bool)
  | shri (d a : SReg) (count : Fin 64) (w : Bool)
  | sari (d a : SReg) (count : Fin 64) (w : Bool)
  | mul (d a b : SReg) (w : Bool)
  | mulh (d a b : SReg) (w : Bool)
  | mulhu (d a b : SReg) (w : Bool)
  | div (d a b : SReg) (w : Bool)
  | divu (d a b : SReg) (w : Bool)
  | rem (d a b : SReg) (w : Bool)
  | remu (d a b : SReg) (w : Bool)
  | bext (d a : SReg) (pos : Fin 64) (width : BitVec 7) (sx : Bool)
  | bins (d a : SReg) (pos : Fin 64) (width : BitVec 7)
  | clz (d a : SReg) (w : Bool)
  | ctz (d a : SReg) (w : Bool)
  | popc (d a : SReg) (w : Bool)
  | brev (d a : SReg) (w : Bool)
  | cmp (p : PReg) (a b : SReg) (c : Cond)
  | cmpi (p : PReg) (a : SReg) (imm : Word) (c : Cond)
  | cmpW (p : PReg) (a b : SReg) (c : Cond)
  | cmpiW (p : PReg) (a : SReg) (imm : BitVec 32) (c : Cond)
  | pand (d a b : PReg) (ia ib : Bool)
  | por (d a b : PReg) (ia ib : Bool)
  | pxor (d a b : PReg) (ia ib : Bool)
  | pget (d : SReg)
  | pput (a : SReg) (mask : BitVec 7)
  | sel (d : SReg) (p : PReg) (inv : Bool) (a b : SReg)
  | mova (d : AReg) (a : SReg)
  | movs (d : SReg) (a : AReg)
  | li (d : SReg) (imm : Word)
  | lia (d : AReg) (imm : Word)
  | lit (d : SReg) (l : Word128)
  | lita (d : AReg) (l : Word128)
  | adr (d : AReg) (disp : Word)
  | aadd (d a : AReg) (b : SReg)
  | aaddi (d a : AReg) (imm : Word)
  | asub (d : SReg) (a b : AReg)
  | aidx (d a : AReg) (b : SReg) (sh : Fin 16)
  | awrap (d a : AReg) (stp : BitVec 32) (k : Fin 64)
  | abnd (d a b : AReg) (stp len : BitVec 32)
  | aalign (d a : AReg) (k : Fin 64) (up : Bool)
  | acmp (p : PReg) (a b : AReg) (c : Cond)
  | br (disp : Word)
  | brr (a : AReg)
  | call (d : AReg) (disp : Word)
  | callr (d a : AReg)
  | ret (a : AReg)
  | loop (d : LReg) (a : SReg) (last : BitVec 32)
  | loopi (d : LReg) (last count : BitVec 32)
  | lcget (d : SReg) (a : LReg)
  | lcset (d : LReg) (a : SReg)
  | lbreak (a : LReg)
  | fld (d : SReg) (a : AReg) (disp : BitVec 32) (oc : Fin 16) (size : Fin 4) (sx : Bool)
  | fst (a : AReg) (b : SReg) (disp : BitVec 32) (oc : Fin 16) (size : Fin 4)
  | fldx (d : SReg) (a : AReg) (b : SReg) (disp : BitVec 32) (oc : Fin 16) (size : Fin 4) (sx : Bool)
  | fstx (d : SReg) (a : AReg) (b : SReg) (disp : BitVec 32) (oc : Fin 16) (size : Fin 4)
  | crr (d : SReg) (num : BitVec 16)
  | crw (a : SReg) (num : BitVec 16)
  | crs (d a : SReg) (num : BitVec 16)
  | crc (d a : SReg) (num : BitVec 16)
  | stop
  | yield
  | sbar (mask : BitVec 4)
  -- control-register writes that the table lists by themselves (03 R72-R75, 05 R106-R108, 04 R89)
  | folioDiagWrite (a : SReg)
  | repairPut (a : SReg)
  | repairTableClear (a : SReg)
  | summaryClear (a : SReg)
  | folioInjectWrite (a : SReg)
  | hintModeWrite (a : SReg)
  -- memory access (06 R113-R134)
  | ld (d : SaReg) (ty : ETy) (m : MemOp)
  | st (b : SaReg) (ty : ETy) (m : MemOp)
  | vld (d : VNum) (ty : ETy) (sz : Fin 3) (m : VMemOp)
  | vst (b : VNum) (ty : ETy) (sz : Fin 3) (m : VMemOp)
  | vlds (d : VNum) (b : SReg) (ty : ETy) (m : VMemOp)
  | vsts (b : SReg) (c : VNum) (ty : ETy) (m : VMemOp)
  | vgath (d b : VNum) (ty : ETy) (scl : Bool) (m : VMemOp)
  | vscat (b c : VNum) (ty : ETy) (scl : Bool) (m : VMemOp)
  | tldv (d : VNum) (sz : Fin 3) (m : MemOp) (mask : Option MNum)
  | tsta (b : VNum) (sz : Fin 3) (m : MemOp) (mask : Option MNum)
  | pref (kind : PrefKind) (a : AReg) (disp : BitVec 32)
  | cmoWb (a : AReg) (disp : BitVec 32) (oc : Fin 16)
  | cmoWbinv (a : AReg) (disp : BitVec 32) (oc : Fin 16)
  | cmoZero (a : AReg) (disp : BitVec 32) (oc : Fin 16)
  | fence (scope : Scope) (fl : Flavour) (mask : BitVec 16)
  | atom (op : AtomOp) (d b : SReg) (ty : ETy) (m : MemOp)
  | atomn (op : AtomOp) (b : SReg) (ty : ETy) (m : MemOp)
  | cas (d b c : SReg) (ty : ETy) (m : MemOp)
  | duct (tag : Fin 16) (a : AReg) (b : VNum) (n1 h1 : Fin 8) (lc : Fin 5) (oc : Fin 16)
  | dcol (dst : DcolDst) (tag : Fin 16)
  -- system (07 R137-R149)
  | trap (code : BitVec 16)
  | tret
  | bkr (d : SReg) (f : BankField)
  | bkw (a : SReg) (f : BankField)
  | pgsvcTouch (d : SReg) (a : AReg)
  | pgsvcAlloc (d : SReg) (a : AReg)
  | pgsvcPin (d : SReg) (a : AReg)
  | pgsvcUnpin (d : SReg) (a : AReg)
  | pgsvcQuery (d : SReg) (a : AReg)
  | hset (d : SReg) (a : AReg) (b : SReg) (rights : Fin 4) (idx : BitVec 12)
  | hfree (a : SReg)
  | hqry (d a : SReg)
  | tkset (a : SReg)
  | curset (a b : SReg)
  | rseed (a : SReg)
  | kzero (d a : SReg)
  | blot (d : SReg) (a : AReg)
  | blwait (d a b : SReg)
  | wfe (d a : SReg)
  | ctxctlSoft (d a : SReg)
  | ctxctlHalt (d a : SReg)
  | ctxctlKill (d a : SReg)
  | ctxctlResume (d a : SReg)
  | ctxsv (d : SReg) (a : AReg) (b : SReg) (oc : Fin 16)
  | ctxld (d : SReg) (a : AReg) (b : SReg) (oc : Fin 16)
  -- traps, phases, translation (09, 10)
  | xlateInval (a : SReg)
  | frameSelect (a : SReg)
  -- synchronisation (12 R200-R215, 15)
  | semsig (d : SReg) (sem : BitVec 8) (k : SemCount)
  | semwait (sem : BitVec 8) (k : SemCount)
  | semtry (p : PReg) (sem : BitVec 8) (k : SemCount)
  | semset (d b : SReg) (sem : BitVec 8)
  | barr (d a : SReg)
  | bwait (d a : SReg)
  | btry (d a : SReg)
  | bmembJoin (d a : SReg) (scope : Scope)
  | bmembLeave (d a : SReg)
  | waddr (c : WaitCond) (wide : Bool) (d b e : SReg) (m : MemOp)
  | wake (wide : Bool) (d b : SReg) (m : MemOp)
  | qbind (d a b : SReg) (q : Fin 8) (depth1 : Fin 32)
  | qunbind (d : SReg) (q : Fin 8)
  | qdepth (d : SReg) (q : Fin 8)
  -- tasks, copies, work objects (16)
  | tsem (eng : Engine) (ch : Fin 4) (oc : Fin 16) (bar : Bool) (task : TaskWord)
  | cpy (c : CpyCmd)
  | cpyo (c : CpyoCmd)
  | cwptrLand (d : SReg) (ch : Fin 4)
  | cwptrIss (d : SReg) (ch : Fin 4)
  | fwput (a : SReg)
  | bswapOpen (d : SReg) (v : VNum) (n : BitVec 6)
  | bswap (d : SReg)
  | bswapClose (d : SReg)
  | launch (d : SReg) (a : AReg) (disp : BitVec 32) (oc : Fin 16)
  | graphOpen (d a b : SReg)
  | graphClose (d a : SReg)
  | wphaseOpen (d a : SReg)
  | wphaseClose (d a : SReg)
  | cntr (d a : SReg)
  | cancel (d a : SReg)
  -- vector register instructions (18 R288-R299)
  | vadd (d a b : VNum) (ty : ETy) (sat : Bool) (m : Option MNum)
  | vsub (d a b : VNum) (ty : ETy) (sat : Bool) (m : Option MNum)
  | vmul (d a b : VNum) (ty : ETy) (m : Option MNum)
  | vmulh (d a b : VNum) (ty : ETy) (m : Option MNum)
  | vdiv (d a b : VNum) (ty : ETy) (m : Option MNum)
  | vmin (d a b : VNum) (ty : ETy) (m : Option MNum)
  | vmax (d a b : VNum) (ty : ETy) (m : Option MNum)
  | vabs (d a : VNum) (ty : ETy) (sat : Bool) (m : Option MNum)
  | vneg (d a : VNum) (ty : ETy) (sat : Bool) (m : Option MNum)
  | vfma (form : FmaForm) (d a b c : VNum) (ty : ETy) (m : Option MNum)
  | vaddw (d a b : VNum) (ty : ETy) (m : Option MNum)
  | vmulw (d a b : VNum) (ty : ETy) (m : Option MNum)
  | vand (d a b : VNum) (ty : ETy) (m : Option MNum)
  | vor (d a b : VNum) (ty : ETy) (m : Option MNum)
  | vxor (d a b : VNum) (ty : ETy) (m : Option MNum)
  | vshl (d a : VNum) (n : VCount) (ty : ETy) (m : Option MNum)
  | vshr (d a : VNum) (n : VCount) (ty : ETy) (m : Option MNum)
  | vsar (d a : VNum) (n : VCount) (ty : ETy) (m : Option MNum)
  | vbit (f : BitFn) (d a : VNum) (ty : ETy) (m : Option MNum)
  | vcmp (c : Cond) (d : MNum) (a b : VNum) (ty : ETy) (m : Option MNum)
  | vsel (d a b : VNum) (ty : ETy) (m : MNum)
  | mand (d a b : MNum) (ia ib : Bool)
  | mor (d a b : MNum) (ia ib : Bool)
  | mxor (d a b : MNum) (ia ib : Bool)
  | mpop (d : SReg) (a : MNum) (ty : ETy)
  | mfirst (d : SReg) (a : MNum) (ty : ETy)
  | mset (d : MNum) (a : SReg)
  | vcvt (o : VcvtOp)
  | vrsum (d : SReg) (a : VNum) (ty : ETy) (m : Option MNum)
  | vrmax (d : SReg) (a : VNum) (ty : ETy) (m : Option MNum)
  | vrmin (d : SReg) (a : VNum) (ty : ETy) (m : Option MNum)
  | vsf (f : SpecFn) (d a : VNum) (ty : ETy) (m : Option MNum)
  | vperm (d a b : VNum) (ty : ETy) (m : Option MNum)
  | vslide (d a b : VNum) (c : SReg) (ty : ETy) (m : Option MNum)
  | vbcast (d : VNum) (a : SReg) (ty : ETy) (m : Option MNum)
  | vins (d : VNum) (b : SReg) (ty : ETy) (k : Fin 1024)
  | vext (d : SReg) (a : VNum) (ty : ETy) (k : Fin 1024)
  | vzip (d a b : VNum) (ty : ETy)
  | vunzip (d a : VNum) (ty : ETy) (odd : Bool)
  | vrev (d a : VNum) (ty : ETy) (m : Option MNum)
  | vcmpr (d a : VNum) (ty : ETy) (m : MNum)
  | vmov (d a : VNum) (sz : Fin 3)
  | chain (c : ChainCmd)
  | chpop (d : SReg) (port : Fin 4)
  -- ligature and matrix (19)
  | lpack (d a : VNum) (ty : ETy) (rev : Bool) (o : LigOp)
  | ladd (d a b : VNum) (sub : Bool)
  | lmul (d a b : VNum) (signed : Bool) (sw : BitVec 7)
  | lext (d a : VNum) (ty : ETy) (sat pair : Bool) (o : LigOp)
  | lgw (sw : BitVec 7)
  | mma (c : MatCmd)
  | qmma (c : MatCmd) (tag : Fin 16)
  -- residency and pre-emption (22)
  | leafPin (a : SReg)
  | leafUnpin (a : SReg)
  | poolBlockSet (a : SReg)
  | preCtlWrite (a : SReg)
  | planeLoad (a : SReg)
  | viLogWrite (a : SReg)
  -- scheduler and security registers (21 R352, 27 R426)
  | tduCtlWrite (a : SReg)
  | currencyCreate (a : SReg)
  | currencyRateWrite (a : SReg)
  | currencyDelete (a : SReg)
  | keyLoad (a : SReg)
  | powerLimitWrite (a : SReg)
  | thermLimitWrite (a : SReg)
  -- EVENTS: steps of engines, owners, the host and firmware. They stand last: no meaning builds one.
  | tldvRetry (r : StrandRef)
  | ductusStepServe (owner : Nat)
  | ductusResultAccept (idx : Nat)
  | ductusLost (c : CtxRef) (tag : Fin 16)
  | contextKill (c : CtxRef) (cause : KillCause)
  | classDDelivery (c : CtxRef)
  | phaseAbort (c : CtxRef) (queue pos : Nat) (cause : EngineCause) (addr : Word)
  | traceMismatch (r : StrandRef)
  | pageMadeResident (owner : Nat) (asid : BitVec 12) (off : BitVec 48)
  | frameStarvationNotice (owner : Nat) (asid : BitVec 12) (off : BitVec 48)
  | placementEpochEnd (owner : Nat)
  | barrierCompletionArrival (r : StrandRef)
  | phaseCommit (c : CtxRef)
  | unitPlacement (core : Nat)
  | unitComplete (c : CtxRef)
  | taskDraw (core : Nat) (eng : Engine)
  | overdueSlot (core : Nat) (eng : Engine)
  | taskComplete (core slot queue : Nat) (pos : Nat)
  | taskBudgetRelease (core slot queue : Nat) (pos : Nat)
  | taskStallRelease (core slot queue : Nat) (pos : Nat)
  | jointQmmaStart (quad : Nat)
  | jointWriteInstant (quad : Nat)
  | leafSpill (core leaf : Nat)
  | inverseDrawRetry (core : Nat)
  | leafReload (c : CtxRef) (leaf : Nat)
  | softBoundary (core slot : Nat)
  | graceExpiry (core slot : Nat)
  | haltComplete (core slot : Nat)
  | killTimerExpiry (core slot : Nat)
  | swapOut (core slot : Nat)
  | swapIn (core : Nat)
  | blotterUnitComplete (owner : Nat)
  | blotterResume (owner : Nat)
  | hbmScrub (owner : Nat)
  | powerOnReset
  | packageReset
  | coreReset (core : Nat)
  | zeroisationComplete (core : Nat)
  | hbmTrainingComplete
  | bootMarchTimeout
  | launchWindowSubmit (vi slot : Nat) (record : List Byte)
  | hostSemaphoreAdd (vi entry : Nat) (k : BitVec 32)
  | viStop (vi : Nat)
  | viEnableWrite (vi : Nat) (vctl : Word)
  | hostLinkWindow (port : Nat)
  | partitionQuadsWrite (q : Nat) (high : Bool) (v : Word)
  | partitionWaysWrite (q : Nat) (v : Word)
  | partitionResetStart (q : Nat)
  | partitionResetComplete (q : Nat)
  | bgrpAlloc (q : Nat) (group : BitVec 12)
  | bgrpRelease (q : Nat) (group : BitVec 12)
  | jobrel (job : BitVec 16)
  | flitReceive (port : Nat) (authentic : Bool) (flit : List Byte)
  | laneFailure (port lane : Nat)
  | portRetrainComplete (port : Nat)
  | keyCounterWarning (port : Nat) (ingress : Bool)
  | keyExhausted (port : Nat) (ingress : Bool)
  | keySwitchFlit (port : Nat) (ingress : Bool)
  | spdmRequest (port : Nat) (vi : Option Nat) (code : Nat) (nonce : List Byte)
  | thermalStepUp (die region : Nat)
  | thermalStepDown (die region : Nat)
  | powerLimitExceeded
  | ttripReached (die region : Nat)
  | thermalTrip
  | wfeTimeout (r : StrandRef)
  | blwaitTimeout (r : StrandRef)
  | minimumSvnRaise (kind : Fin 4)
  deriving DecidableEq, Repr

/-- The scheduling field [127:96] of a word (R13); bit 96 is required to be zero and is not kept. -/
structure Sched where
  stall : Fin 16
  wsb : Fin 8
  rsb : Fin 8
  wait : BitVec 7
  reuse : BitVec 4
  sync : Bool
  acc : Bool
  tok : BitVec 4
  guardInv : Bool
  guardP : PReg
  deriving DecidableEq, Repr

/-- The field of an unguarded, unannotated instruction, 0x0000_000E (R34, R35). -/
def Sched.plain : Sched :=
  { stall := 0, wsb := 0, rsb := 0, wait := 0, reuse := 0, sync := false, acc := false, tok := 0, guardInv := false, guardP := 7 }

end Sys2Proof
end

