-- ==== Sys2Proof/Machine/Types.lean ====
section
/-! DEFINITION. Widths, lane counts and codes of the shared fields (01 R30-R32, 18 R285). -/

namespace Sys2Proof

/-- Code of a type in the 5-bit field T (R30). -/
def ETy.code : ETy → BitVec 5
  | .i4 => 0x00 | .i8 => 0x01 | .i16 => 0x02 | .i32 => 0x03 | .n4 => 0x04 | .n8 => 0x05 | .n16 => 0x06 | .n32 => 0x07
  | .f32 => 0x08 | .bf16 => 0x09 | .f16 => 0x0A | .e4m3 => 0x0B | .e5m2 => 0x0C | .ta8 => 0x0D | .ta6 => 0x0E
  | .e8m0 => 0x0F | .e3m2 => 0x10 | .e2m3 => 0x11 | .e2m1 => 0x12 | .i64 => 0x13 | .n64 => 0x14

/-- Type named by a code, none for the reserved codes 0x15-0x1F (R30). -/
def ETy.ofCode (c : BitVec 5) : Option ETy :=
  match c.toNat with
  | 0 => some .i4 | 1 => some .i8 | 2 => some .i16 | 3 => some .i32 | 4 => some .n4 | 5 => some .n8 | 6 => some .n16
  | 7 => some .n32 | 8 => some .f32 | 9 => some .bf16 | 10 => some .f16 | 11 => some .e4m3 | 12 => some .e5m2
  | 13 => some .ta8 | 14 => some .ta6 | 15 => some .e8m0 | 16 => some .e3m2 | 17 => some .e2m3 | 18 => some .e2m1
  | 19 => some .i64 | 20 => some .n64 | _ => none

/-- Element width in bits (R285). -/
def ETy.width : ETy → Nat
  | .i4 | .n4 | .e2m1 => 4
  | .ta6 | .e3m2 | .e2m3 => 6
  | .i8 | .n8 | .e4m3 | .e5m2 | .ta8 | .e8m0 => 8
  | .i16 | .n16 | .bf16 | .f16 => 16
  | .i32 | .n32 | .f32 => 32
  | .i64 | .n64 => 64

/-- Lane count of a register at a type (R285). -/
def ETy.lanes (t : ETy) : Nat := if t.width = 6 then 640 else 4096 / t.width

/-- Signed integer types. -/
def ETy.isSigned : ETy → Bool
  | .i4 | .i8 | .i16 | .i32 | .i64 => true
  | _ => false

/-- Integer types, signed or unsigned. -/
def ETy.isInteger : ETy → Bool
  | .i4 | .i8 | .i16 | .i32 | .i64 | .n4 | .n8 | .n16 | .n32 | .n64 => true
  | _ => false

/-- The set I of R288: the 8- to 64-bit integers. -/
def ETy.inI (t : ETy) : Bool := t.isInteger && t.width ≥ 8

/-- The set F of R288. -/
def ETy.inF : ETy → Bool
  | .f32 | .bf16 | .f16 => true
  | _ => false

/-- The set N of R288. -/
def ETy.inN : ETy → Bool
  | .i8 | .n8 | .i16 | .n16 | .bf16 | .f16 => true
  | _ => false

/-- The set P of R288. -/
def ETy.inP (t : ETy) : Bool := t.width ≠ 6

/-- "Element" of R113: every type but the 6-bit ones and E8M0. -/
def ETy.inElement (t : ETy) : Bool := t.width ≠ 6 && t ≠ .e8m0

/-- The types that R31 allows with X = 1. -/
def ETy.scalable : ETy → Bool
  | .e4m3 | .e5m2 | .e3m2 | .e2m3 | .e2m1 | .i8 | .ta8 | .ta6 => true
  | _ => false

/-- Condition code of R52. -/
def Cond.code : Cond → BitVec 4
  | .eq => 0 | .ne => 1 | .lt => 2 | .le => 3 | .gt => 4 | .ge => 5 | .ltu => 6 | .leu => 7 | .gtu => 8 | .geu => 9

/-- Condition of a code; none for 10-15 (R52). -/
def Cond.ofCode (c : BitVec 4) : Option Cond :=
  match c.toNat with
  | 0 => some .eq | 1 => some .ne | 2 => some .lt | 3 => some .le | 4 => some .gt | 5 => some .ge
  | 6 => some .ltu | 7 => some .leu | 8 => some .gtu | 9 => some .geu | _ => none

/-- Scope code of R32. -/
def Scope.code : Scope → BitVec 3
  | .strand => 0 | .ctx => 1 | .core => 2 | .quad => 3 | .die => 4 | .pkg => 5 | .dom => 6

/-- Scope of a code; none for 0b111 (R32). -/
def Scope.ofCode (c : BitVec 3) : Option Scope :=
  match c.toNat with
  | 0 => some .strand | 1 => some .ctx | 2 => some .core | 3 => some .quad | 4 => some .die | 5 => some .pkg
  | 6 => some .dom | _ => none

/-- FL code of R114. -/
def Flavour.code : Flavour → BitVec 2
  | .none => 0 | .acq => 1 | .rel => 2 | .full => 3

/-- Flavour of an FL code. -/
def Flavour.ofCode (c : BitVec 2) : Flavour :=
  match c.toNat with
  | 0 => .none | 1 => .acq | 2 => .rel | _ => .full

/-- VAR code of an atomic operation (R128). -/
def AtomOp.code : AtomOp → BitVec 4
  | .add => 0 | .min => 1 | .max => 2 | .and => 3 | .or => 4 | .xor => 5 | .swap => 6 | .fadd => 7

/-- Atomic operation of a VAR; none for 8-15 (R128). -/
def AtomOp.ofCode (c : BitVec 4) : Option AtomOp :=
  match c.toNat with
  | 0 => some .add | 1 => some .min | 2 => some .max | 3 => some .and | 4 => some .or | 5 => some .xor
  | 6 => some .swap | 7 => some .fadd | _ => none

/-- VAR code of a bank field (R142). -/
def BankField.code : BankField → BitVec 4
  | .cause => 0 | .ret => 1 | .addr => 2 | .guard => 3 | .level => 4

/-- Bank field of a VAR (R142). -/
def BankField.ofCode (c : BitVec 4) : Option BankField :=
  match c.toNat with
  | 0 => some .cause | 1 => some .ret | 2 => some .addr | 3 => some .guard | 4 => some .level | _ => none

/-- VAR code of a WADDR condition (R210). -/
def WaitCond.code : WaitCond → BitVec 4
  | .eq => 0 | .ne => 1 | .ltu => 2 | .geu => 3 | .lt => 4 | .ge => 5

/-- WADDR condition of a VAR (R210). -/
def WaitCond.ofCode (c : BitVec 4) : Option WaitCond :=
  match c.toNat with
  | 0 => some .eq | 1 => some .ne | 2 => some .ltu | 3 => some .geu | 4 => some .lt | 5 => some .ge | _ => none

/-- ENG code of R251. -/
def Engine.code : Engine → BitVec 2
  | .le => 0 | .ve => 1 | .ce => 2

/-- Engine of an ENG code; 3 is reserved (R252). -/
def Engine.ofCode (c : BitVec 2) : Option Engine :=
  match c.toNat with
  | 0 => some .le | 1 => some .ve | 2 => some .ce | _ => none

/-- Direction code of R253. -/
def CpyDir.code : CpyDir → BitVec 4
  | .m2f => 0 | .f2m => 1 | .m2m => 2 | .f2f => 3

/-- Direction of a VAR (R253). -/
def CpyDir.ofCode (c : BitVec 4) : Option CpyDir :=
  match c.toNat with
  | 0 => some .m2f | 1 => some .f2m | 2 => some .m2m | 3 => some .f2f | _ => none

/-- VAR code of a special function (R298). -/
def SpecFn.code : SpecFn → BitVec 4
  | .rcp => 0 | .rsqrt => 1 | .sqrt => 2 | .exp2 => 3 | .log2 => 4 | .tanh => 5 | .sigm => 6

/-- Special function of a VAR (R298). -/
def SpecFn.ofCode (c : BitVec 4) : Option SpecFn :=
  match c.toNat with
  | 0 => some .rcp | 1 => some .rsqrt | 2 => some .sqrt | 3 => some .exp2 | 4 => some .log2 | 5 => some .tanh
  | 6 => some .sigm | _ => none

/-- POL code of R278. -/
def Pol.code : Pol → BitVec 2
  | .sat => 0 | .inf => 1 | .nan => 2 | .trap => 3

/-- Policy of a POL code (R278). -/
def Pol.ofCode (c : BitVec 2) : Pol :=
  match c.toNat with
  | 0 => .sat | 1 => .inf | 2 => .nan | _ => .trap

/-- VAR code of VFMA (R291). -/
def FmaForm.code : FmaForm → BitVec 4
  | .fma => 0 | .ms => 1 | .nma => 2 | .nms => 3

/-- Form of a VFMA VAR (R291). -/
def FmaForm.ofCode (c : BitVec 4) : Option FmaForm :=
  match c.toNat with
  | 0 => some .fma | 1 => some .ms | 2 => some .nma | 3 => some .nms | _ => none

/-- VAR code of VBIT (R293). -/
def BitFn.code : BitFn → BitVec 4
  | .popc => 0 | .clz => 1 | .ctz => 2 | .brev => 3

/-- Function of a VBIT VAR (R293). -/
def BitFn.ofCode (c : BitVec 4) : Option BitFn :=
  match c.toNat with
  | 0 => some .popc | 1 => some .clz | 2 => some .ctz | 3 => some .brev | _ => none

/-- VAR code of PREF (R126). -/
def PrefKind.code : PrefKind → BitVec 4
  | .rd => 0 | .near => 1 | .wr => 2

/-- Kind of a PREF VAR (R126). -/
def PrefKind.ofCode (c : BitVec 4) : Option PrefKind :=
  match c.toNat with
  | 0 => some .rd | 1 => some .near | 2 => some .wr | _ => none

/-- Operand-lane group of a conversion between widths: g registers on the wide side (R287). -/
def groupSize (wide narrow : ETy) : Nat :=
  if wide.width = narrow.width then 1 else Nat.min 4 (wide.width / narrow.width)

end Sys2Proof
end

