-- ==== Sys2Proof/Machine/Creg.lean ====
section
/-! DEFINITION. The control registers, their numbers and the privilege each needs (02 R67-R68 and the owning chapters). -/

namespace Sys2Proof.Machine

/-- The control registers of the part, one name per assigned number. -/
inductive CReg where
  | arith | time | idStrand | idStrands | idCore | idPackage | idUnit | idUnits | idLaunch | idLeaves
  | loopStart (i : Fin 4) | loopEnd (i : Fin 4)
  | trapEntry | cause (bank : Fin 2) | ret (bank : Fin 2) | addr (bank : Fin 2) | guard (bank : Fin 2) | trapLevel
  | phaseStat | phaseLimit | priv
  | folioOob | folioDiag | repairPut | repairGet | bootSummary | repairCtl | folioInject | resetCause
  | hintMode | hintMisses | tok | sb | tracerCmp
  | tduCtl | tduSeed | tduLat | tduCnt (e : Engine) | curSel | curDef | curRepay
  | ctxSel | leafPin | leafPool | preCtl | preStat | planeLoad | planeStat | viSel | viLog | viLogptr
  | xlateAsid | xlateInval | xlateTarget | xlateAsdbase | handleBase | placeCtl | xlateFrame
  | blotProgress | rasCe | rasUe | rasSdc | keyCtl | keySrc | therm | powerLimit | thermLim
  | ligMode | ligGw | ligFetch
  deriving DecidableEq, Repr

/-- The register an assigned number names; none means ILLEGAL_OP (R67). -/
def CReg.ofNum (n : BitVec 16) : Option CReg :=
  match n.toNat with
  | 0x000 => some .arith | 0x001 => some .time | 0x002 => some .idStrand | 0x003 => some .idStrands
  | 0x004 => some .idCore | 0x005 => some .idPackage | 0x006 => some .idUnit | 0x007 => some .idUnits
  | 0x008 => some .idLaunch | 0x009 => some .idLeaves
  | 0x010 => some (.loopStart 0) | 0x011 => some (.loopStart 1) | 0x012 => some (.loopStart 2) | 0x013 => some (.loopStart 3)
  | 0x014 => some (.loopEnd 0) | 0x015 => some (.loopEnd 1) | 0x016 => some (.loopEnd 2) | 0x017 => some (.loopEnd 3)
  | 0x100 => some .trapEntry | 0x101 => some (.cause 0) | 0x102 => some (.ret 0) | 0x103 => some (.addr 0)
  | 0x104 => some (.guard 0) | 0x105 => some (.cause 1) | 0x106 => some (.ret 1) | 0x107 => some (.addr 1)
  | 0x108 => some (.guard 1) | 0x109 => some .trapLevel | 0x110 => some .phaseStat | 0x111 => some .phaseLimit
  | 0x180 => some .priv
  | 0x200 => some .folioOob | 0x210 => some .folioDiag | 0x211 => some .repairPut | 0x212 => some .repairGet
  | 0x213 => some .bootSummary | 0x214 => some .repairCtl | 0x218 => some .folioInject | 0x220 => some .resetCause
  | 0x300 => some .hintMode | 0x301 => some .hintMisses | 0x302 => some .tok | 0x303 => some .sb | 0x304 => some .tracerCmp
  | 0x400 => some .tduCtl | 0x401 => some .tduSeed | 0x402 => some .tduLat | 0x403 => some (.tduCnt .le)
  | 0x404 => some (.tduCnt .ve) | 0x405 => some (.tduCnt .ce) | 0x410 => some .curSel | 0x411 => some .curDef
  | 0x412 => some .curRepay | 0x420 => some .ctxSel | 0x421 => some .leafPin | 0x422 => some .leafPool
  | 0x423 => some .preCtl | 0x424 => some .preStat | 0x425 => some .planeLoad | 0x426 => some .planeStat
  | 0x430 => some .viSel | 0x431 => some .viLog | 0x432 => some .viLogptr
  | 0x500 => some .xlateAsid | 0x501 => some .xlateInval | 0x502 => some .xlateTarget | 0x503 => some .xlateAsdbase
  | 0x504 => some .handleBase | 0x505 => some .placeCtl | 0x506 => some .xlateFrame
  | 0x600 => some .blotProgress | 0x601 => some .rasCe | 0x602 => some .rasUe | 0x603 => some .rasSdc
  | 0x604 => some .keyCtl | 0x605 => some .keySrc | 0x606 => some .therm | 0x607 => some .powerLimit | 0x608 => some .thermLim
  | 0x700 => some .ligMode | 0x701 => some .ligGw | 0x702 => some .ligFetch
  | _ => none

/-- The CRW numbers that the opcode table lists as rows of their own whatever the value written. -/
def crwRow (n : BitVec 16) (a : SReg) : Option Instr :=
  match n.toNat with
  | 0x210 => some (.folioDiagWrite a) | 0x211 => some (.repairPut a) | 0x218 => some (.folioInjectWrite a)
  | 0x300 => some (.hintModeWrite a) | 0x400 => some (.tduCtlWrite a) | 0x423 => some (.preCtlWrite a)
  | 0x425 => some (.planeLoad a) | 0x431 => some (.viLogWrite a) | 0x501 => some (.xlateInval a)
  | 0x506 => some (.frameSelect a) | 0x607 => some (.powerLimitWrite a) | 0x608 => some (.thermLimitWrite a)
  | _ => none

/-- Privilege that R28 step 4 checks for an access: the level named in the owning chapter's table.
`write` tells CRW, CRS and CRC from CRR. cr.handle.base and cr.leaf.pin need HYP only to write (R189, R370);
cr.pre.stat is checked by its own meaning, since the level depends on the selected context (R370). -/
def CReg.level (r : CReg) (write : Bool) : Nat :=
  match r with
  | .folioDiag | .repairPut | .repairGet | .bootSummary | .repairCtl | .folioInject | .resetCause | .planeLoad
  | .xlateAsdbase | .powerLimit | .thermLim => 2
  | .tduCtl | .curSel | .curDef | .curRepay | .ctxSel | .leafPool | .preCtl | .planeStat | .viSel | .viLog | .viLogptr
  | .xlateTarget | .placeCtl | .xlateFrame | .blotProgress | .rasCe | .rasUe | .rasSdc | .keyCtl | .keySrc => 1
  | .handleBase | .leafPin => if write then 1 else 0
  | _ => 0

end Sys2Proof.Machine
end

