-- ==== Sys2Proof/Machine/Check.lean ====
section
/-! DEFINITION. The checks of R28 step 3 that an instruction's own operands must pass. -/

namespace Sys2Proof.Machine

/-- A pair or quad base of `2^sz` registers (R21). -/
def baseOk (v : VNum) (sz : Nat) : Bool := v.val % 2 ^ sz == 0

/-- SCOPE is zero when FL is (R114). -/
def flavourOk (fl : Flavour) (sc : Scope) : Bool := fl ≠ .none || sc = .strand

/-- Address operand of a load: FL 0 or 1 (R113). -/
def loadOk (m : MemOp) : Bool := (m.fl = .none || m.fl = .acq) && flavourOk m.fl m.scope
/-- Address operand of a store: FL 0 or 2 (R113). -/
def storeOk (m : MemOp) : Bool := (m.fl = .none || m.fl = .rel) && flavourOk m.fl m.scope
/-- Address operand of an atomic: any FL (R116). -/
def atomicOk (m : MemOp) : Bool := flavourOk m.fl m.scope

/-- Types of LD and ST (R113). -/
def scalarTy (t : ETy) : Bool := t.inI
/-- Types of the strided forms (R119). -/
def stridedTy (t : ETy) : Bool := t.inElement && t.width ≥ 8
/-- Types of gather and scatter (R121). -/
def gatherTy (t : ETy) : Bool := t.width ≥ 16
/-- Types of ATOM, ATOMN (R128) by operation. -/
def atomTy (op : AtomOp) (t : ETy) : Bool :=
  if op = .fadd then t = .f32 else t.isInteger && t.width ≥ 32
/-- Slot width field SW of R308. -/
def swOk (sw : BitVec 7) : Bool := sw = 0 || (8 ≤ sw.toNat && sw.toNat ≤ 64)
/-- Types of LEXT and, with the 4-bit ones and without 64 bits, of LPACK (R307). -/
def lpackTy (t : ETy) : Bool := t.isInteger && t.width ≤ 32
/-- Count of LPACK and LEXT lies from 1 to the lane count (R310, R313). -/
def countOk (t : ETy) (o : LigOp) : Bool := 1 ≤ o.count.toNat && o.count.toNat ≤ t.lanes

/-- A number of a CR instruction is assigned (R67). -/
def crOk (n : BitVec 16) : Bool := (CReg.ofNum n).isSome

/-- Base rule of the index group of VPERM (R299). -/
def permBaseOk (t : ETy) (b : VNum) : Bool :=
  if t.lanes ≤ 256 then true else if t.lanes ≤ 512 then baseOk b 1 else baseOk b 2

/-- log2 of a group of 1, 2 or 4 registers. -/
def groupSz (g : Nat) : Nat := if g = 4 then 2 else if g = 2 then 1 else 0

/-- VCVT (R296, R287): types, scales, slice and group bases. A group of three registers cannot arise:
every ratio of widths gives g of 1, 2 or 4 (6-bit against 16 bits gives g = 2). -/
def vcvtOk (o : VcvtOp) : Bool :=
  let wide := if o.td.width ≥ o.ts.width then o.td else o.ts
  let narrow := if o.td.width ≥ o.ts.width then o.ts else o.td
  let g := groupSize wide narrow
  let e := g * wide.lanes
  let gd := if o.td.width > o.ts.width then groupSz g else 0
  let ga := if o.ts.width > o.td.width then groupSz g else 0
  !(o.xd && o.xs) && (!o.xd || o.td.scalable) && (!o.xs || o.ts.scalable)
    && (o.xd || o.xs || o.scale.val == 0) && (!o.xd || o.mask.isNone)
    && (o.pol = .trap || o.pn.val == 0) && o.k.val < narrow.lanes / e && baseOk o.d gd && baseOk o.a ga

/-- CPY's own rules (R254, R257). -/
def cpyOk (c : CpyCmd) : Bool :=
  (!c.crc || c.dir = .f2m || c.dir = .m2m) && (c.fo.isNone || c.dir = .m2f || c.dir = .f2f)

/-- The operand checks of R28 step 3, by instruction. Events pass. -/
def checkInstr (i : Instr) : Bool :=
  match i with
  | .addi _ _ imm w _ => !w || imm.toNat < 2 ^ 32
  | .shli _ _ n w | .shri _ _ n w | .sari _ _ n w => !w || n.val < 32
  | .bext _ _ pos width _ => width ≠ 0 && pos.val + width.toNat ≤ 64
  | .bins _ _ pos width => width ≠ 0 && pos.val + width.toNat ≤ 64
  | .lit d _ => d.val % 2 == 0
  | .lita d _ => d.val % 2 == 0
  | .awrap _ _ _ k => 4 ≤ k.val && k.val ≤ 48
  | .abnd _ _ _ _ len => len ≠ 0
  | .loop _ _ last => last ≠ 0
  | .loopi _ last _ => last ≠ 0
  | .fld _ _ _ _ size sx => !(size.val == 3 && sx)
  | .fldx _ _ _ _ _ size sx => !(size.val == 3 && sx)
  | .crr _ n | .crs _ _ n | .crc _ _ n => crOk n
  | .crw a n => crOk n && (crwRow n a).isNone
  | .ld _ ty m => scalarTy ty && loadOk m
  | .st _ ty m => scalarTy ty && storeOk m
  | .vld d ty sz m => ty.inElement && loadOk m.mem && baseOk d sz.val
  | .vst b ty sz m => ty.inElement && storeOk m.mem && baseOk b sz.val
  | .vlds _ _ ty m => stridedTy ty && loadOk m.mem
  | .vsts _ _ ty m => stridedTy ty && storeOk m.mem
  | .vgath _ b ty _ m => gatherTy ty && loadOk m.mem && (ty.width ≠ 16 || baseOk b 1)
  | .vscat b _ ty _ m => gatherTy ty && storeOk m.mem && (ty.width ≠ 16 || baseOk b 1)
  | .tldv d sz m _ => loadOk m && baseOk d sz.val
  | .tsta b sz m _ => storeOk m && baseOk b sz.val
  | .fence _ fl mask => fl ≠ .none && mask ≠ 0
  | .atom op _ _ ty m => atomTy op ty && atomicOk m
  | .atomn op _ ty m => atomTy op ty && atomicOk m
  | .cas _ _ _ ty m => ty.isInteger && ty.width ≥ 32 && atomicOk m
  | .dcol (.s d) _ => d.val % 2 == 0
  | .bkw _ f => f = .ret || f = .guard
  | .hset _ _ _ rights _ => rights ≠ 0
  | .bmembJoin _ _ sc => sc ≠ .strand && sc ≠ .ctx
  | .waddr _ _ d _ _ m => d.val % 2 == 0 && loadOk m
  | .wake _ _ _ m => storeOk m
  | .qbind _ _ _ _ depth1 => depth1.val < 16
  | .tsem eng ch _ _ _ => eng = .ce || ch = 0
  | .cpy c => cpyOk c
  | .vadd _ _ _ ty sat _ | .vsub _ _ _ ty sat _ => ty.inI || (ty.inF && !sat)
  | .vmul _ _ _ ty _ | .vmin _ _ _ ty _ | .vmax _ _ _ ty _ => ty.inI || ty.inF
  | .vmulh _ _ _ ty _ => ty.inI
  | .vdiv _ _ _ ty _ => ty.inF
  | .vabs _ _ ty sat _ | .vneg _ _ ty sat _ => ty.inI || (ty.inF && !sat)
  | .vfma _ _ _ _ _ ty _ => ty.inI || ty.inF
  | .vaddw d _ _ ty _ | .vmulw d _ _ ty _ => ty.inN && baseOk d 1
  | .vand _ _ _ ty _ | .vor _ _ _ ty _ | .vxor _ _ _ ty _ => ty.inI
  | .vshl _ _ n ty _ | .vshr _ _ n ty _ | .vsar _ _ n ty _ =>
    ty.inI && (match n with | .imm k => k.val < ty.width | .reg _ => true)
  | .vbit _ _ _ ty _ => ty.inI
  | .vcmp c _ _ _ ty _ => ty.inI || (ty.inF && c.code.toNat ≤ 5)
  | .vsel _ _ _ ty _ => ty.inP
  | .vcvt o => vcvtOk o
  | .vrsum _ _ ty _ | .vrmax _ _ ty _ | .vrmin _ _ ty _ => ty.inI || ty.inF
  | .vsf _ _ _ ty _ => ty.inF
  | .vperm _ _ b ty _ => ty.inP && permBaseOk ty b
  | .vslide _ _ _ _ ty _ => ty.inP
  | .vbcast _ _ ty _ => ty.inP
  | .vins _ _ ty k => ty.inP && k.val < ty.lanes
  | .vext _ _ ty k => ty.inP && k.val < ty.lanes
  | .vzip d _ _ ty => ty.inP && baseOk d 1
  | .vunzip _ a ty _ => ty.inP && baseOk a 1
  | .vrev _ _ ty _ => ty.inP
  | .vcmpr _ _ ty _ => ty.inP
  | .vmov d a sz => baseOk d sz.val && baseOk a sz.val
  | .lpack _ _ ty _ o => lpackTy ty && countOk ty o && swOk o.sw
  | .lmul d _ _ _ sw => baseOk d 1 && swOk sw
  | .lext _ a ty _ pair o => ty.inI && countOk ty o && swOk o.sw && (!pair || baseOk a 1)
  | .lgw sw => 8 ≤ sw.toNat && sw.toNat ≤ 64
  | _ => true

/-- A register named by a source slot or written as a destination: its kind and number. -/
inductive RegRef where
  | s (r : SReg)
  | a (r : AReg)
  | p (r : PReg)
  | l (r : LReg)
  | v (r : VNum)
  | m (r : MNum)
  deriving DecidableEq, Repr

def countRef : SemCount → List RegRef
  | .reg r => [.s r]
  | .imm _ => []
def saRef : SaReg → RegRef
  | .s r => .s r
  | .a r => .a r
def vcountRef : VCount → List RegRef
  | .reg v => [.v v]
  | .imm _ => []

/-- The register sources of an instruction in the order its assembly form writes them (R14, log 7). -/
def sources (i : Instr) : List RegRef :=
  match i with
  | .add _ a b _ _ | .sub _ a b _ _ | .min _ a b _ _ | .max _ a b _ _ => [.s a, .s b]
  | .and _ a b | .or _ a b | .xor _ a b => [.s a, .s b]
  | .shl _ a b _ | .shr _ a b _ | .sar _ a b _ | .mul _ a b _ | .mulh _ a b _ | .mulhu _ a b _ | .div _ a b _ | .divu _ a b _
  | .rem _ a b _ | .remu _ a b _ => [.s a, .s b]
  | .addi _ a _ _ _ | .abs _ a _ _ | .andi _ a _ | .ori _ a _ | .xori _ a _ | .shli _ a _ _ | .shri _ a _ _ | .sari _ a _ _
  | .bext _ a _ _ _ | .clz _ a _ | .ctz _ a _ | .popc _ a _ | .brev _ a _ => [.s a]
  | .bins d a _ _ => [.s a, .s d]
  | .cmp _ a b _ | .cmpW _ a b _ => [.s a, .s b]
  | .cmpi _ a _ _ | .cmpiW _ a _ _ | .pput a _ | .mova _ a => [.s a]
  | .pand _ a b _ _ | .por _ a b _ _ | .pxor _ a b _ _ => [.p a, .p b]
  | .sel _ p _ a b => [.p p, .s a, .s b]
  | .movs _ a | .aaddi _ a _ | .awrap _ a _ _ | .aalign _ a _ _ | .brr a | .callr _ a | .ret a => [.a a]
  | .aadd _ a b | .aidx _ a b _ => [.a a, .s b]
  | .asub _ a b | .abnd _ a b _ _ | .acmp _ a b _ => [.a a, .a b]
  | .loop _ a _ | .lcset _ a => [.s a]
  | .lcget _ a | .lbreak a => [.l a]
  | .fld _ a _ _ _ _ => [.a a]
  | .fst a b _ _ _ => [.a a, .s b]
  | .fldx _ a b _ _ _ _ => [.a a, .s b]
  | .fstx d a b _ _ _ => [.a a, .s b, .s d]
  | .crw a _ | .crs _ a _ | .crc _ a _ => [.s a]
  | .folioDiagWrite a | .repairPut a | .repairTableClear a | .summaryClear a | .folioInjectWrite a | .hintModeWrite a
  | .xlateInval a | .frameSelect a | .leafPin a | .leafUnpin a | .poolBlockSet a | .preCtlWrite a | .planeLoad a
  | .viLogWrite a | .tduCtlWrite a | .currencyCreate a | .currencyRateWrite a | .currencyDelete a | .keyLoad a
  | .powerLimitWrite a | .thermLimitWrite a => [.s a]
  | .ld _ _ m => [.a m.base]
  | .vld _ _ _ m => [.a m.mem.base]
  | .tldv _ _ m _ => [.a m.base]
  | .pref _ a _ | .cmoWb a _ _ | .cmoWbinv a _ _ | .cmoZero a _ _ => [.a a]
  | .st b _ m => [.a m.base, saRef b]
  | .vst b _ _ m => [.a m.mem.base, .v b]
  | .vlds _ b _ m => [.a m.mem.base, .s b]
  | .vgath _ b _ _ m => [.a m.mem.base, .v b]
  | .tsta b _ m _ => [.a m.base, .v b]
  | .atom _ _ b _ m | .atomn _ b _ m => [.a m.base, .s b]
  | .duct _ a b _ _ _ _ => [.a a, .v b]
  | .vsts b c _ m => [.a m.mem.base, .s b, .v c]
  | .vscat b c _ _ m => [.a m.mem.base, .v b, .v c]
  | .cas _ b c _ m => [.a m.base, .s b, .s c]
  | .bkw a _ | .hfree a | .hqry _ a | .tkset a | .rseed a | .kzero _ a | .wfe _ a | .ctxctlSoft _ a | .ctxctlHalt _ a
  | .ctxctlKill _ a | .ctxctlResume _ a => [.s a]
  | .pgsvcTouch _ a | .pgsvcAlloc _ a | .pgsvcPin _ a | .pgsvcUnpin _ a | .pgsvcQuery _ a | .blot _ a => [.a a]
  | .hset _ a b _ _ | .ctxsv _ a b _ | .ctxld _ a b _ => [.a a, .s b]
  | .curset a b | .blwait _ a b => [.s a, .s b]
  | .semsig _ _ k | .semwait _ k | .semtry _ _ k => countRef k
  | .semset _ b _ => [.s b]
  | .barr _ a | .bwait _ a | .btry _ a | .bmembJoin _ a _ | .bmembLeave _ a => [.s a]
  | .waddr _ _ _ b e m => [.a m.base, .s b, .s e]
  | .wake _ _ b m => [.a m.base, .s b]
  | .qbind _ a b _ _ => [.s a, .s b]
  | .cpy c => [.s c.a, .s c.b, .s c.c]
  | .cpyo c => [.s c.a, .s c.b, .s c.c]
  | .fwput a | .graphClose _ a | .wphaseOpen _ a | .wphaseClose _ a | .cntr _ a | .cancel _ a => [.s a]
  | .bswapOpen _ v _ => [.v v]
  | .launch _ a _ _ => [.a a]
  | .graphOpen _ a b => [.s a, .s b]
  | .vadd _ a b _ _ _ | .vsub _ a b _ _ _ => [.v a, .v b]
  | .vmul _ a b _ _ | .vmulh _ a b _ _ | .vdiv _ a b _ _ | .vmin _ a b _ _ | .vmax _ a b _ _ | .vaddw _ a b _ _ | .vmulw _ a b _ _
  | .vand _ a b _ _ | .vor _ a b _ _ | .vxor _ a b _ _ | .vcmp _ _ a b _ _ | .vsel _ a b _ _ | .vperm _ a b _ _ => [.v a, .v b]
  | .vzip _ a b _ => [.v a, .v b]
  | .mand _ a b _ _ | .mor _ a b _ _ | .mxor _ a b _ _ => [.m a, .m b]
  | .vshl _ a n _ _ | .vshr _ a n _ _ | .vsar _ a n _ _ => .v a :: vcountRef n
  | .vabs _ a _ _ _ | .vneg _ a _ _ _ => [.v a]
  | .vbit _ _ a _ _ | .vsf _ _ a _ _ => [.v a]
  | .vrsum _ a _ _ | .vrmax _ a _ _ | .vrmin _ a _ _ | .vrev _ a _ _ | .vcmpr _ a _ _ => [.v a]
  | .mpop _ a _ | .mfirst _ a _ => [.m a]
  | .mset _ a => [.s a]
  | .vbcast _ a _ _ => [.s a]
  | .vins _ b _ _ => [.s b]
  | .vext _ a _ _ | .vunzip _ a _ _ => [.v a]
  | .vmov _ a _ => [.v a]
  | .vcvt o => if o.xs then [.v o.a, .v o.scale] else [.v o.a]
  | .vfma _ _ a b c _ _ => [.v a, .v b, .v c]
  | .vslide _ a b c _ _ => [.v a, .v b, .s c]
  | .chain c => [.s c.a, .v c.list, .s c.c]
  | .lpack _ a _ _ _ | .lext _ a _ _ _ _ => [.v a]
  | .ladd _ a b _ | .lmul _ a b _ _ => [.v a, .v b]
  | .mma c | .qmma c _ => [.s c.a, .s c.b, .s c.c]
  | .nop | .pget _ | .li .. | .lia .. | .lit .. | .lita .. | .adr .. | .br _ | .call .. | .loopi .. | .crr .. | .stop | .yield
  | .sbar _ | .fence .. | .dcol .. | .trap _ | .tret | .bkr .. | .qunbind .. | .qdepth .. | .tsem .. | .cwptrLand .. | .cwptrIss ..
  | .bswap _ | .bswapClose _ | .chpop .. | .lgw _ => []
  | _ => []

/-- Slot of source `n`: A, B, C, D are 0 to 3. In an engine-private instruction the field gives the slot, so a source in field B is slot B
where nothing stands in field A (R20). -/
def slotOf (i : Instr) (n : Nat) : Nat :=
  match i with
  | .vins .. | .semsig .. | .semwait .. | .semtry .. | .semset .. => n + 1
  | .vcvt _ => 2 * n
  | _ => n

/-- The reuse slots of an instruction with their registers (R14, R20). -/
def slots (i : Instr) : List (Nat × RegRef) := (sources i).zipIdx.map fun e => (slotOf i e.2, e.1)

/-- The registers of a CHAIN command, field D with them (R24, R300). -/
def chainCarries (c : ChainCmd) : List RegRef := [.s c.a, .v c.list, .s c.c, .s c.d]
/-- The registers of a matrix command and its epilogue (R24, R308, R321). -/
def matrixCarries (c : MatCmd) : List RegRef := [.s c.a, .s c.b, .s c.c, .s c.d] ++ (c.epi.map chainCarries).getD []
/-- Every register whose value an instruction, or a command of its pair, carries: its reuse slots, a field D, the registers of the commands that
follow it (R20, R24, R257, R321). -/
def carried (i : Instr) : List RegRef :=
  match i with
  | .cpy c => [.s c.a, .s c.b, .s c.c, .s c.d] ++ (c.fo.map fun f => matrixCarries f.cmd).getD []
  | .cpyo c => [.s c.a, .s c.b, .s c.c] ++ (c.fo.map fun f => matrixCarries f.cmd).getD []
  | .mma c | .qmma c _ => matrixCarries c
  | .chain c => chainCarries c
  | i => sources i

/-- The queue an instruction is routed to (R90). -/
inductive Queue where
  | access | compute | store
  deriving DecidableEq, Repr

/-- Routing by opcode and ACC (R90); a routed store counts as the store queue. -/
def queueOf (i : Instr) (acc : Bool) : Queue :=
  if !acc then .compute else
  match i with
  | .fld .. | .fldx .. | .ld .. | .vld .. | .vlds .. | .vgath .. | .tldv .. | .pref .. | .duct .. => .access
  | .fst .. | .fstx .. | .st .. | .vst .. | .vsts .. | .vscat .. | .tsta .. => .store
  | .lia .. | .lita .. | .adr .. | .mova .. | .aadd .. | .aaddi .. | .aidx .. | .awrap .. | .abnd .. | .aalign .. | .acmp .. => .access
  | _ => .compute

/-- REUSE names only slots the instruction has (R14); bit 3 of the field is slot A. -/
def reuseOk (i : Instr) (r : BitVec 4) : Bool :=
  (List.range 4).all fun n => !r.getLsbD (3 - n) || (slots i).any fun e => e.1 == n

/-- TOK names only queues that exist (R15). -/
def tokOk (i : Instr) (acc : Bool) (t : BitVec 4) : Bool :=
  match queueOf i acc with
  | .access => t &&& 0b1010 = 0
  | .compute => true
  | .store => t &&& 0b0101 = 0

end Sys2Proof.Machine
end

