-- ==== Sys2Proof/WellFormed.lean ====
section
/-! DEFINITION. Well-formed instructions: those whose operands pass the checks of R28 step 3. -/

namespace Sys2Proof

/-- An instruction whose operands an encoding of the spec may carry. -/
def Instr.wellFormed (i : Instr) : Bool := Machine.checkInstr i

/-- An instruction together with the scheduling field of its word (R14, R15). -/
def Instr.wellFormedWith (i : Instr) (sc : Sched) : Bool :=
  i.wellFormed && Machine.reuseOk i sc.reuse && Machine.tokOk i sc.acc sc.tok

end Sys2Proof
end

