-- ==== Sys2Proof/Decode.lean ====
section
/-! DEFINITION. Decoding of instruction words, total and rejecting by name, and the encoder beside it (01 R12-R32). -/

namespace Sys2Proof

/-- Why a word is no instruction; every one of them is ILLEGAL_OP at R28 step 3. -/
inductive Reject where
  | bit96 | reservedOpcode | literal | nonzeroField | registerKind | code | operand | reuse | tok | pairing | short
  deriving DecidableEq, Repr

abbrev Dec := Except Reject

/-! ## Field layouts (R18-R20) -/

/-- The operation field of a control-subset word (R18, R19). -/
structure CtlFields where
  lit : Bool := false
  op : BitVec 11
  d : BitVec 5 := 0
  a : BitVec 5 := 0
  b : BitVec 5 := 0
  f : BitVec 4 := 0
  imm : BitVec 64 := 0
  deriving DecidableEq, Repr

/-- The operation field of an engine-private word (R18, R20). -/
structure EngFields where
  lit : Bool := false
  cls : BitVec 3
  op : BitVec 8
  d : BitVec 6 := 0
  a : BitVec 6 := 0
  b : BitVec 6 := 0
  c : BitVec 6 := 0
  t : BitVec 5 := 0
  x : Bool := false
  oc : BitVec 4 := 0
  msel : BitVec 3 := 0
  men : Bool := false
  spec : BitVec 45 := 0
  deriving DecidableEq, Repr

/-- The operation field [95:0], by opcode half. -/
inductive OpFields where
  | ctl (c : CtlFields)
  | eng (u : EngFields)
  deriving DecidableEq, Repr

/-- A bounded number as a bit field of the width that holds it. -/
def bf2 (x : Fin 4) : BitVec 2 := BitVec.ofFin x
def bf3 (x : Fin 8) : BitVec 3 := BitVec.ofFin x
def bf4 (x : Fin 16) : BitVec 4 := BitVec.ofFin x
def bf5 (x : Fin 32) : BitVec 5 := BitVec.ofFin x
def bf6 (x : Fin 64) : BitVec 6 := BitVec.ofFin x
def bf9 (x : Fin 512) : BitVec 9 := BitVec.ofFin x
def bf10 (x : Fin 1024) : BitVec 10 := BitVec.ofFin x

/-- Bits [95:0] of a word. -/
def OpFields.pack : OpFields → BitVec 96
  | .ctl c => BitVec.ofBool c.lit ++ 0#1 ++ c.op ++ c.d ++ c.a ++ c.b ++ c.f ++ c.imm
  | .eng u => BitVec.ofBool u.lit ++ 1#1 ++ u.cls ++ u.op ++ u.d ++ u.a ++ u.b ++ u.c ++ u.t ++ BitVec.ofBool u.x ++ u.oc
      ++ u.msel ++ BitVec.ofBool u.men ++ u.spec

/-- The fields of bits [95:0]. -/
def OpFields.unpack (w : BitVec 96) : OpFields :=
  if w.getLsbD 94 then
    .eng { lit := w.getLsbD 95, cls := w.extractLsb' 91 3, op := w.extractLsb' 83 8, d := w.extractLsb' 77 6,
           a := w.extractLsb' 71 6, b := w.extractLsb' 65 6, c := w.extractLsb' 59 6, t := w.extractLsb' 54 5,
           x := w.getLsbD 53, oc := w.extractLsb' 49 4, msel := w.extractLsb' 46 3, men := w.getLsbD 45,
           spec := w.extractLsb' 0 45 }
  else
    .ctl { lit := w.getLsbD 95, op := w.extractLsb' 83 11, d := w.extractLsb' 78 5, a := w.extractLsb' 73 5,
           b := w.extractLsb' 68 5, f := w.extractLsb' 64 4, imm := w.extractLsb' 0 64 }

/-- The scheduling field [127:96] (R13). -/
def Sched.pack (s : Sched) : BitVec 32 :=
  bf4 s.stall ++ bf3 s.wsb ++ bf3 s.rsb ++ s.wait ++ s.reuse ++ BitVec.ofBool s.sync
    ++ BitVec.ofBool s.acc ++ s.tok ++ BitVec.ofBool s.guardInv ++ bf3 s.guardP ++ 0#1

/-- The scheduling field of bits [127:97]; bit 96 is checked by `decodeSlots`. -/
def Sched.unpack (w : BitVec 32) : Sched :=
  { stall := (w.extractLsb' 28 4).toFin, wsb := (w.extractLsb' 25 3).toFin, rsb := (w.extractLsb' 22 3).toFin,
    wait := w.extractLsb' 15 7, reuse := w.extractLsb' 11 4, sync := w.getLsbD 10, acc := w.getLsbD 9,
    tok := w.extractLsb' 5 4, guardInv := w.getLsbD 4, guardP := (w.extractLsb' 1 3).toFin }

/-- The scheduling field of a word. -/
def schedOf (w : Word128) : Sched := Sched.unpack (w.extractLsb' 96 32)
/-- The operation field of a word. -/
def opFieldsOf (w : Word128) : OpFields := OpFields.unpack (w.extractLsb' 0 96)
/-- The literal flag L (R17). -/
def hasLiteral (w : Word128) : Bool := w.getLsbD 95

/-! ## Operand codes -/

/-- A field that must be zero. -/
def zero {n : Nat} (x : BitVec n) : Dec Unit := if x = 0 then .ok () else .error .nonzeroField
/-- A condition that must hold. -/
def need (b : Bool) (r : Reject) : Dec Unit := if b then .ok () else .error r
/-- A code that must name something. -/
def code {α : Type} (x : Option α) : Dec α :=
  match x with
  | some v => .ok v
  | none => .error .code

/-- Scalar register of a 5-bit control field. -/
def cS (x : BitVec 5) : SReg := x.toFin
/-- Address register of a 5-bit control field (R19). -/
def cA (x : BitVec 5) : Dec AReg := if x.extractLsb' 4 1 = 0 then .ok (x.extractLsb' 0 4).toFin else .error .registerKind
/-- Predicate of a 5-bit control field (R19). -/
def cP (x : BitVec 5) : Dec PReg := if x.extractLsb' 3 2 = 0 then .ok (x.extractLsb' 0 3).toFin else .error .registerKind
/-- Loop counter of a 5-bit control field (R19). -/
def cL (x : BitVec 5) : Dec LReg := if x.extractLsb' 2 3 = 0 then .ok (x.extractLsb' 0 2).toFin else .error .registerKind

def eS (r : SReg) : BitVec 5 := bf5 r
def eA (r : AReg) : BitVec 5 := 0#1 ++ bf4 r
def eP (r : PReg) : BitVec 5 := 0#2 ++ bf3 r
def eL (r : LReg) : BitVec 5 := 0#3 ++ bf2 r

/-- Strand-side code naming a scalar register (R20). -/
def uS (x : BitVec 6) : Dec SReg := if x.extractLsb' 5 1 = 0 then .ok (x.extractLsb' 0 5).toFin else .error .registerKind
/-- Strand-side code naming an address register (R20). -/
def uA (x : BitVec 6) : Dec AReg := if x.extractLsb' 4 2 = 0b10 then .ok (x.extractLsb' 0 4).toFin else .error .registerKind
/-- Strand-side code naming a predicate (R20). -/
def uP (x : BitVec 6) : Dec PReg := if x.extractLsb' 3 3 = 0b110 then .ok (x.extractLsb' 0 3).toFin else .error .registerKind
/-- Strand-side code naming a scalar or an address register. -/
def uSA (x : BitVec 6) : Dec SaReg :=
  if x.extractLsb' 5 1 = 0 then .ok (.s (x.extractLsb' 0 5).toFin)
  else if x.extractLsb' 4 2 = 0b10 then .ok (.a (x.extractLsb' 0 4).toFin) else .error .registerKind
/-- Mask code (R289). -/
def uM (x : BitVec 6) : Dec MNum := if x.extractLsb' 3 3 = 0 then .ok (x.extractLsb' 0 3).toFin else .error .registerKind
/-- Vector code. -/
def uV (x : BitVec 6) : VNum := x.toFin

def gS (r : SReg) : BitVec 6 := 0#1 ++ bf5 r
def gA (r : AReg) : BitVec 6 := 0b10#2 ++ bf4 r
def gP (r : PReg) : BitVec 6 := 0b110#3 ++ bf3 r
def gSA : SaReg → BitVec 6
  | .s r => gS r
  | .a r => gA r
def gM (r : MNum) : BitVec 6 := 0#3 ++ bf3 r
def gV (r : VNum) : BitVec 6 := bf6 r

/-- A one-bit field as a truth value. -/
def bit (x : BitVec 1) : Bool := x.getLsbD 0

/-! ## The control subset (R45) -/

/-- Width and second modifier bits F[1:0], with F[3:2] zero. -/
def fPair (f : BitVec 4) : Dec (Bool × Bool) := do
  zero (f.extractLsb' 2 2)
  return (f.getLsbD 0, f.getLsbD 1)

/-- The single modifier F[0], with F[3:1] zero. -/
def fOne (f : BitVec 4) : Dec Bool := do
  zero (f.extractLsb' 1 3)
  return f.getLsbD 0

def eF (f0 f1 : Bool) : BitVec 4 := 0#2 ++ BitVec.ofBool f1 ++ BitVec.ofBool f0

/-- D, A, B scalar with F[1:0]. -/
def cDABF (c : CtlFields) (k : SReg → SReg → SReg → Bool → Bool → Instr) : Dec Instr := do
  zero c.imm
  let (w, x) ← fPair c.f
  return k (cS c.d) (cS c.a) (cS c.b) w x

/-- D, A, B scalar with the width bit. -/
def cDABW (c : CtlFields) (k : SReg → SReg → SReg → Bool → Instr) : Dec Instr := do
  zero c.imm
  let w ← fOne c.f
  return k (cS c.d) (cS c.a) (cS c.b) w

/-- D, A, B scalar without a modifier. -/
def cDAB (c : CtlFields) (k : SReg → SReg → SReg → Instr) : Dec Instr := do
  zero c.imm; zero c.f
  return k (cS c.d) (cS c.a) (cS c.b)

/-- D, A scalar with a 64-bit immediate. -/
def cDAI (c : CtlFields) (k : SReg → SReg → Word → Instr) : Dec Instr := do
  zero c.b; zero c.f
  return k (cS c.d) (cS c.a) c.imm

/-- D, A scalar with the width bit and no immediate. -/
def cDAW (c : CtlFields) (k : SReg → SReg → Bool → Instr) : Dec Instr := do
  zero c.b; zero c.imm
  let w ← fOne c.f
  return k (cS c.d) (cS c.a) w

/-- Shift by immediate: D, A, count in IMM[5:0], width bit. -/
def cShI (c : CtlFields) (k : SReg → SReg → Fin 64 → Bool → Instr) : Dec Instr := do
  zero c.b; zero (c.imm.extractLsb' 6 58)
  let w ← fOne c.f
  return k (cS c.d) (cS c.a) (c.imm.extractLsb' 0 6).toFin w

/-- Predicate logic: three predicates with inversions. -/
def cPPP (c : CtlFields) (k : PReg → PReg → PReg → Bool → Bool → Instr) : Dec Instr := do
  zero c.imm
  let (ia, ib) ← fPair c.f
  return k (← cP c.d) (← cP c.a) (← cP c.b) ia ib

/-- A control-register number in IMM[15:0] (R65). -/
def cNum (c : CtlFields) : Dec (BitVec 16) := do
  zero c.b; zero c.f; zero (c.imm.extractLsb' 16 48)
  return c.imm.extractLsb' 0 16

/-- Folio displacement and class (R63). -/
def cFol (c : CtlFields) : Dec (BitVec 32 × Fin 16) := do
  zero (c.imm.extractLsb' 36 28)
  return (c.imm.extractLsb' 0 32, (c.imm.extractLsb' 32 4).toFin)

def eFol (disp : BitVec 32) (oc : Fin 16) : BitVec 64 := 0#28 ++ bf4 oc ++ disp
def eSx (size : Fin 4) (sx : Bool) : BitVec 4 := 0#1 ++ BitVec.ofBool sx ++ bf2 size
def eNum (n : BitVec 16) : BitVec 64 := 0#48 ++ n
def eCount (k : Fin 64) : BitVec 64 := 0#58 ++ bf6 k

/-- Decode a control-subset operation field; `lit` is the literal word when L = 1 (R45). -/
def decodeCtl (c : CtlFields) (lit : Option Word128) : Dec Instr :=
  match lit with
  | some l =>
    match c.op.toNat with
    | 0x0A5 => do zero c.a; zero c.b; zero c.f; zero c.imm; return .lit (cS c.d) l
    | 0x0A6 => do zero c.a; zero c.b; zero c.f; zero c.imm; return .lita (← cA c.d) l
    | _ => .error .literal
  | none =>
    match c.op.toNat with
    | 0x000 => do zero c.d; zero c.a; zero c.b; zero c.f; zero c.imm; return .nop
    | 0x001 => cDABF c .add
    | 0x002 => cDABF c .sub
    | 0x003 => do zero c.b; let (w, x) ← fPair c.f; return .addi (cS c.d) (cS c.a) c.imm w x
    | 0x004 => cDABF c .min
    | 0x005 => cDABF c .max
    | 0x006 => do zero c.b; zero c.imm; let (w, x) ← fPair c.f; return .abs (cS c.d) (cS c.a) w x
    | 0x020 => cDAB c .and
    | 0x021 => cDAB c .or
    | 0x022 => cDAB c .xor
    | 0x023 => cDAI c .andi
    | 0x024 => cDAI c .ori
    | 0x025 => cDAI c .xori
    | 0x026 => cDABW c .shl
    | 0x027 => cDABW c .shr
    | 0x028 => cDABW c .sar
    | 0x029 => cShI c .shli
    | 0x02A => cShI c .shri
    | 0x02B => cShI c .sari
    | 0x040 => cDABW c .mul
    | 0x041 => cDABW c .mulh
    | 0x042 => cDABW c .mulhu
    | 0x043 => cDABW c .div
    | 0x044 => cDABW c .divu
    | 0x045 => cDABW c .rem
    | 0x046 => cDABW c .remu
    | 0x060 => do
      zero c.b; zero (c.f.extractLsb' 0 2); zero (c.f.extractLsb' 3 1); zero (c.imm.extractLsb' 13 51)
      return .bext (cS c.d) (cS c.a) (c.imm.extractLsb' 0 6).toFin (c.imm.extractLsb' 6 7) (c.f.getLsbD 2)
    | 0x061 => do
      zero c.b; zero c.f; zero (c.imm.extractLsb' 13 51)
      return .bins (cS c.d) (cS c.a) (c.imm.extractLsb' 0 6).toFin (c.imm.extractLsb' 6 7)
    | 0x062 => cDAW c .clz
    | 0x063 => cDAW c .ctz
    | 0x064 => cDAW c .popc
    | 0x065 => cDAW c .brev
    | 0x080 => do zero c.imm; return .cmp (← cP c.d) (cS c.a) (cS c.b) (← code (Cond.ofCode c.f))
    | 0x081 => do zero c.b; return .cmpi (← cP c.d) (cS c.a) c.imm (← code (Cond.ofCode c.f))
    | 0x082 => do zero c.imm; return .cmpW (← cP c.d) (cS c.a) (cS c.b) (← code (Cond.ofCode c.f))
    | 0x083 => do
      zero c.b; zero (c.imm.extractLsb' 32 32)
      return .cmpiW (← cP c.d) (cS c.a) (c.imm.extractLsb' 0 32) (← code (Cond.ofCode c.f))
    | 0x084 => cPPP c .pand
    | 0x085 => cPPP c .por
    | 0x086 => cPPP c .pxor
    | 0x087 => do zero c.a; zero c.b; zero c.f; zero c.imm; return .pget (cS c.d)
    | 0x088 => do zero c.d; zero c.b; zero c.f; zero (c.imm.extractLsb' 7 57); return .pput (cS c.a) (c.imm.extractLsb' 0 7)
    | 0x0A0 => do zero c.imm; return .sel (cS c.d) (c.f.extractLsb' 0 3).toFin (c.f.getLsbD 3) (cS c.a) (cS c.b)
    | 0x0A1 => do zero c.b; zero c.f; zero c.imm; return .mova (← cA c.d) (cS c.a)
    | 0x0A2 => do zero c.b; zero c.f; zero c.imm; return .movs (cS c.d) (← cA c.a)
    | 0x0A3 => do zero c.a; zero c.b; zero c.f; return .li (cS c.d) c.imm
    | 0x0A4 => do zero c.a; zero c.b; zero c.f; return .lia (← cA c.d) c.imm
    | 0x0A5 => .error .literal
    | 0x0A6 => .error .literal
    | 0x0A7 => do zero c.a; zero c.b; zero c.f; return .adr (← cA c.d) c.imm
    | 0x0C0 => do zero c.f; zero c.imm; return .aadd (← cA c.d) (← cA c.a) (cS c.b)
    | 0x0C1 => do zero c.b; zero c.f; return .aaddi (← cA c.d) (← cA c.a) c.imm
    | 0x0C2 => do zero c.f; zero c.imm; return .asub (cS c.d) (← cA c.a) (← cA c.b)
    | 0x0C3 => do zero c.imm; return .aidx (← cA c.d) (← cA c.a) (cS c.b) c.f.toFin
    | 0x0C4 => do
      zero c.b; zero c.f; zero (c.imm.extractLsb' 38 26)
      return .awrap (← cA c.d) (← cA c.a) (c.imm.extractLsb' 0 32) (c.imm.extractLsb' 32 6).toFin
    | 0x0C5 => do
      zero c.f
      return .abnd (← cA c.d) (← cA c.a) (← cA c.b) (c.imm.extractLsb' 0 32) (c.imm.extractLsb' 32 32)
    | 0x0C6 => do
      zero c.b; zero (c.imm.extractLsb' 6 58)
      let up ← fOne c.f
      return .aalign (← cA c.d) (← cA c.a) (c.imm.extractLsb' 0 6).toFin up
    | 0x0C7 => do zero c.imm; return .acmp (← cP c.d) (← cA c.a) (← cA c.b) (← code (Cond.ofCode c.f))
    | 0x0E0 => do zero c.d; zero c.a; zero c.b; zero c.f; return .br c.imm
    | 0x0E1 => do zero c.d; zero c.b; zero c.f; zero c.imm; return .brr (← cA c.a)
    | 0x0E2 => do zero c.a; zero c.b; zero c.f; return .call (← cA c.d) c.imm
    | 0x0E3 => do zero c.b; zero c.f; zero c.imm; return .callr (← cA c.d) (← cA c.a)
    | 0x0E4 => do zero c.d; zero c.b; zero c.f; zero c.imm; return .ret (← cA c.a)
    | 0x100 => do
      zero c.b; zero c.f; zero (c.imm.extractLsb' 32 32)
      return .loop (← cL c.d) (cS c.a) (c.imm.extractLsb' 0 32)
    | 0x101 => do
      zero c.a; zero c.b; zero c.f
      return .loopi (← cL c.d) (c.imm.extractLsb' 0 32) (c.imm.extractLsb' 32 32)
    | 0x102 => do zero c.b; zero c.f; zero c.imm; return .lcget (cS c.d) (← cL c.a)
    | 0x103 => do zero c.b; zero c.f; zero c.imm; return .lcset (← cL c.d) (cS c.a)
    | 0x104 => do zero c.d; zero c.b; zero c.f; zero c.imm; return .lbreak (← cL c.a)
    | 0x120 => do
      zero c.b; zero (c.f.extractLsb' 3 1)
      let (disp, oc) ← cFol c
      return .fld (cS c.d) (← cA c.a) disp oc (c.f.extractLsb' 0 2).toFin (c.f.getLsbD 2)
    | 0x121 => do
      zero c.d; zero (c.f.extractLsb' 2 2)
      let (disp, oc) ← cFol c
      return .fst (← cA c.a) (cS c.b) disp oc (c.f.extractLsb' 0 2).toFin
    | 0x122 => do
      zero (c.f.extractLsb' 3 1)
      let (disp, oc) ← cFol c
      return .fldx (cS c.d) (← cA c.a) (cS c.b) disp oc (c.f.extractLsb' 0 2).toFin (c.f.getLsbD 2)
    | 0x123 => do
      zero (c.f.extractLsb' 2 2)
      let (disp, oc) ← cFol c
      return .fstx (cS c.d) (← cA c.a) (cS c.b) disp oc (c.f.extractLsb' 0 2).toFin
    | 0x140 => do zero c.a; return .crr (cS c.d) (← cNum c)
    | 0x141 => do
      zero c.d
      let n ← cNum c
      return (Machine.crwRow n (cS c.a)).getD (.crw (cS c.a) n)
    | 0x142 => do return .crs (cS c.d) (cS c.a) (← cNum c)
    | 0x143 => do return .crc (cS c.d) (cS c.a) (← cNum c)
    | 0x160 => do zero c.d; zero c.a; zero c.b; zero c.f; zero c.imm; return .stop
    | 0x161 => do zero c.d; zero c.a; zero c.b; zero c.f; zero c.imm; return .yield
    | 0x162 => do zero c.d; zero c.a; zero c.b; zero c.imm; return .sbar c.f
    | _ => .error .reservedOpcode

/-- Number of a dedicated CRW row. -/
def crwNum : Instr → Option (SReg × BitVec 16)
  | .folioDiagWrite a => some (a, 0x210) | .repairPut a => some (a, 0x211) | .folioInjectWrite a => some (a, 0x218)
  | .hintModeWrite a => some (a, 0x300) | .tduCtlWrite a => some (a, 0x400) | .preCtlWrite a => some (a, 0x423)
  | .planeLoad a => some (a, 0x425) | .viLogWrite a => some (a, 0x431) | .xlateInval a => some (a, 0x501)
  | .frameSelect a => some (a, 0x506) | .powerLimitWrite a => some (a, 0x607) | .thermLimitWrite a => some (a, 0x608)
  | .crw a n => some (a, n)
  | _ => none

/-- The control fields and literal of an instruction of the control subset. -/
def encodeCtl (i : Instr) : Option (CtlFields × Option Word128) :=
  match i with
  | .nop => some ({ op := 0x000 }, none)
  | .add d a b w x => some ({ op := 0x001, d := eS d, a := eS a, b := eS b, f := eF w x }, none)
  | .sub d a b w x => some ({ op := 0x002, d := eS d, a := eS a, b := eS b, f := eF w x }, none)
  | .addi d a imm w x => some ({ op := 0x003, d := eS d, a := eS a, f := eF w x, imm := imm }, none)
  | .min d a b w x => some ({ op := 0x004, d := eS d, a := eS a, b := eS b, f := eF w x }, none)
  | .max d a b w x => some ({ op := 0x005, d := eS d, a := eS a, b := eS b, f := eF w x }, none)
  | .abs d a w x => some ({ op := 0x006, d := eS d, a := eS a, f := eF w x }, none)
  | .and d a b => some ({ op := 0x020, d := eS d, a := eS a, b := eS b }, none)
  | .or d a b => some ({ op := 0x021, d := eS d, a := eS a, b := eS b }, none)
  | .xor d a b => some ({ op := 0x022, d := eS d, a := eS a, b := eS b }, none)
  | .andi d a imm => some ({ op := 0x023, d := eS d, a := eS a, imm := imm }, none)
  | .ori d a imm => some ({ op := 0x024, d := eS d, a := eS a, imm := imm }, none)
  | .xori d a imm => some ({ op := 0x025, d := eS d, a := eS a, imm := imm }, none)
  | .shl d a b w => some ({ op := 0x026, d := eS d, a := eS a, b := eS b, f := eF w false }, none)
  | .shr d a b w => some ({ op := 0x027, d := eS d, a := eS a, b := eS b, f := eF w false }, none)
  | .sar d a b w => some ({ op := 0x028, d := eS d, a := eS a, b := eS b, f := eF w false }, none)
  | .shli d a n w => some ({ op := 0x029, d := eS d, a := eS a, f := eF w false, imm := eCount n }, none)
  | .shri d a n w => some ({ op := 0x02A, d := eS d, a := eS a, f := eF w false, imm := eCount n }, none)
  | .sari d a n w => some ({ op := 0x02B, d := eS d, a := eS a, f := eF w false, imm := eCount n }, none)
  | .mul d a b w => some ({ op := 0x040, d := eS d, a := eS a, b := eS b, f := eF w false }, none)
  | .mulh d a b w => some ({ op := 0x041, d := eS d, a := eS a, b := eS b, f := eF w false }, none)
  | .mulhu d a b w => some ({ op := 0x042, d := eS d, a := eS a, b := eS b, f := eF w false }, none)
  | .div d a b w => some ({ op := 0x043, d := eS d, a := eS a, b := eS b, f := eF w false }, none)
  | .divu d a b w => some ({ op := 0x044, d := eS d, a := eS a, b := eS b, f := eF w false }, none)
  | .rem d a b w => some ({ op := 0x045, d := eS d, a := eS a, b := eS b, f := eF w false }, none)
  | .remu d a b w => some ({ op := 0x046, d := eS d, a := eS a, b := eS b, f := eF w false }, none)
  | .bext d a pos width sx =>
    some ({ op := 0x060, d := eS d, a := eS a, f := 0#1 ++ BitVec.ofBool sx ++ 0#2, imm := 0#51 ++ width ++ bf6 pos }, none)
  | .bins d a pos width => some ({ op := 0x061, d := eS d, a := eS a, imm := 0#51 ++ width ++ bf6 pos }, none)
  | .clz d a w => some ({ op := 0x062, d := eS d, a := eS a, f := eF w false }, none)
  | .ctz d a w => some ({ op := 0x063, d := eS d, a := eS a, f := eF w false }, none)
  | .popc d a w => some ({ op := 0x064, d := eS d, a := eS a, f := eF w false }, none)
  | .brev d a w => some ({ op := 0x065, d := eS d, a := eS a, f := eF w false }, none)
  | .cmp p a b c => some ({ op := 0x080, d := eP p, a := eS a, b := eS b, f := c.code }, none)
  | .cmpi p a imm c => some ({ op := 0x081, d := eP p, a := eS a, f := c.code, imm := imm }, none)
  | .cmpW p a b c => some ({ op := 0x082, d := eP p, a := eS a, b := eS b, f := c.code }, none)
  | .cmpiW p a imm c => some ({ op := 0x083, d := eP p, a := eS a, f := c.code, imm := 0#32 ++ imm }, none)
  | .pand d a b ia ib => some ({ op := 0x084, d := eP d, a := eP a, b := eP b, f := eF ia ib }, none)
  | .por d a b ia ib => some ({ op := 0x085, d := eP d, a := eP a, b := eP b, f := eF ia ib }, none)
  | .pxor d a b ia ib => some ({ op := 0x086, d := eP d, a := eP a, b := eP b, f := eF ia ib }, none)
  | .pget d => some ({ op := 0x087, d := eS d }, none)
  | .pput a m => some ({ op := 0x088, a := eS a, imm := 0#57 ++ m }, none)
  | .sel d p inv a b => some ({ op := 0x0A0, d := eS d, a := eS a, b := eS b, f := BitVec.ofBool inv ++ bf3 p }, none)
  | .mova d a => some ({ op := 0x0A1, d := eA d, a := eS a }, none)
  | .movs d a => some ({ op := 0x0A2, d := eS d, a := eA a }, none)
  | .li d imm => some ({ op := 0x0A3, d := eS d, imm := imm }, none)
  | .lia d imm => some ({ op := 0x0A4, d := eA d, imm := imm }, none)
  | .lit d l => some ({ op := 0x0A5, d := eS d, lit := true }, some l)
  | .lita d l => some ({ op := 0x0A6, d := eA d, lit := true }, some l)
  | .adr d imm => some ({ op := 0x0A7, d := eA d, imm := imm }, none)
  | .aadd d a b => some ({ op := 0x0C0, d := eA d, a := eA a, b := eS b }, none)
  | .aaddi d a imm => some ({ op := 0x0C1, d := eA d, a := eA a, imm := imm }, none)
  | .asub d a b => some ({ op := 0x0C2, d := eS d, a := eA a, b := eA b }, none)
  | .aidx d a b sh => some ({ op := 0x0C3, d := eA d, a := eA a, b := eS b, f := bf4 sh }, none)
  | .awrap d a stp k => some ({ op := 0x0C4, d := eA d, a := eA a, imm := 0#26 ++ bf6 k ++ stp }, none)
  | .abnd d a b stp len => some ({ op := 0x0C5, d := eA d, a := eA a, b := eA b, imm := len ++ stp }, none)
  | .aalign d a k up => some ({ op := 0x0C6, d := eA d, a := eA a, f := eF up false, imm := eCount k }, none)
  | .acmp p a b c => some ({ op := 0x0C7, d := eP p, a := eA a, b := eA b, f := c.code }, none)
  | .br disp => some ({ op := 0x0E0, imm := disp }, none)
  | .brr a => some ({ op := 0x0E1, a := eA a }, none)
  | .call d disp => some ({ op := 0x0E2, d := eA d, imm := disp }, none)
  | .callr d a => some ({ op := 0x0E3, d := eA d, a := eA a }, none)
  | .ret a => some ({ op := 0x0E4, a := eA a }, none)
  | .loop d a last => some ({ op := 0x100, d := eL d, a := eS a, imm := 0#32 ++ last }, none)
  | .loopi d last count => some ({ op := 0x101, d := eL d, imm := count ++ last }, none)
  | .lcget d a => some ({ op := 0x102, d := eS d, a := eL a }, none)
  | .lcset d a => some ({ op := 0x103, d := eL d, a := eS a }, none)
  | .lbreak a => some ({ op := 0x104, a := eL a }, none)
  | .fld d a disp oc size sx => some ({ op := 0x120, d := eS d, a := eA a, f := eSx size sx, imm := eFol disp oc }, none)
  | .fst a b disp oc size => some ({ op := 0x121, a := eA a, b := eS b, f := eSx size false, imm := eFol disp oc }, none)
  | .fldx d a b disp oc size sx =>
    some ({ op := 0x122, d := eS d, a := eA a, b := eS b, f := eSx size sx, imm := eFol disp oc }, none)
  | .fstx d a b disp oc size =>
    some ({ op := 0x123, d := eS d, a := eA a, b := eS b, f := eSx size false, imm := eFol disp oc }, none)
  | .crr d n => some ({ op := 0x140, d := eS d, imm := eNum n }, none)
  | .crs d a n => some ({ op := 0x142, d := eS d, a := eS a, imm := eNum n }, none)
  | .crc d a n => some ({ op := 0x143, d := eS d, a := eS a, imm := eNum n }, none)
  | .stop => some ({ op := 0x160 }, none)
  | .yield => some ({ op := 0x161 }, none)
  | .sbar m => some ({ op := 0x162, f := m }, none)
  | i => (crwNum i).map fun an => ({ op := 0x141, a := eS an.1, imm := eNum an.2 }, none)

/-! ## Memory access (R113, R114) -/

/-- The SPEC fields of R114. -/
structure MemSpec where
  scope : BitVec 3
  fl : BitVec 2
  sp : Bool
  var : BitVec 4
  sz : BitVec 3
  disp : BitVec 32

def MemSpec.of (x : BitVec 45) : MemSpec :=
  { scope := x.extractLsb' 42 3, fl := x.extractLsb' 40 2, sp := x.getLsbD 39, var := x.extractLsb' 35 4,
    sz := x.extractLsb' 32 3, disp := x.extractLsb' 0 32 }

def eMem (scope : BitVec 3) (fl : BitVec 2) (sp : Bool) (var : BitVec 4) (sz : BitVec 3) (disp : BitVec 32) : BitVec 45 :=
  scope ++ fl ++ BitVec.ofBool sp ++ var ++ sz ++ disp

/-- The lane mask (R20). -/
def maskOf (u : EngFields) : Dec (Option MNum) :=
  if u.men then .ok (some u.msel.toFin) else if u.msel = 0 then .ok none else .error .nonzeroField

def eMsel : Option MNum → BitVec 3
  | some m => bf3 m
  | none => 0
def eMen : Option MNum → Bool
  | some _ => true
  | none => false

/-- Neither mask nor X. -/
def noMask (u : EngFields) : Dec Unit := do
  zero u.msel; need (!u.men) .nonzeroField

/-- Address operand of a memory instruction. -/
def memOpOf (u : EngFields) : Dec MemOp := do
  let m := MemSpec.of u.spec
  return { base := ← uA u.a, disp := m.disp, oc := u.oc.toFin, fl := Flavour.ofCode m.fl, scope := ← code (Scope.ofCode m.scope) }

def eMemOp (m : MemOp) (sp : Bool) (var : BitVec 4) (sz : BitVec 3) : BitVec 45 :=
  eMem m.scope.code m.fl.code sp var sz m.disp

/-- Register count field SZ of 0-2 (R114). -/
def szOf (x : BitVec 3) : Dec (Fin 3) :=
  match x.toNat with
  | 0 => .ok 0 | 1 => .ok 1 | 2 => .ok 2 | _ => .error .code

def eSz (x : Fin 3) : BitVec 3 := BitVec.ofNat 3 x.val

/-- The final load size field of DUCT (R131). -/
def lcOf (x : BitVec 3) : Dec (Fin 5) :=
  match x.toNat with
  | 0 => .ok 0 | 1 => .ok 1 | 2 => .ok 2 | 3 => .ok 3 | 4 => .ok 4 | _ => .error .code

/-- Decode the memory-access class (R113). -/
def decodeMem (u : EngFields) : Dec Instr := do
  need (!u.x) .nonzeroField
  let m := MemSpec.of u.spec
  match u.op.toNat with
  | 0x00 =>
    noMask u; zero u.b; zero u.c; need (!m.sp) .nonzeroField; zero m.var; zero m.sz
    return .ld (← uSA u.d) (← code (ETy.ofCode u.t)) (← memOpOf u)
  | 0x01 =>
    noMask u; zero u.d; zero u.c; need (!m.sp) .nonzeroField; zero m.var; zero m.sz
    return .st (← uSA u.b) (← code (ETy.ofCode u.t)) (← memOpOf u)
  | 0x02 =>
    zero u.b; zero u.c; zero m.var
    return .vld (uV u.d) (← code (ETy.ofCode u.t)) (← szOf m.sz) { mem := ← memOpOf u, folio := m.sp, mask := ← maskOf u }
  | 0x03 =>
    zero u.d; zero u.c; zero m.var
    return .vst (uV u.b) (← code (ETy.ofCode u.t)) (← szOf m.sz) { mem := ← memOpOf u, folio := m.sp, mask := ← maskOf u }
  | 0x04 =>
    zero u.c; zero m.var; zero m.sz
    return .vlds (uV u.d) (← uS u.b) (← code (ETy.ofCode u.t)) { mem := ← memOpOf u, folio := m.sp, mask := ← maskOf u }
  | 0x05 =>
    zero u.d; zero m.var; zero m.sz
    return .vsts (← uS u.b) (uV u.c) (← code (ETy.ofCode u.t)) { mem := ← memOpOf u, folio := m.sp, mask := ← maskOf u }
  | 0x06 =>
    zero u.c; zero (m.var.extractLsb' 1 3); zero m.sz
    return .vgath (uV u.d) (uV u.b) (← code (ETy.ofCode u.t)) (m.var.getLsbD 0)
      { mem := ← memOpOf u, folio := m.sp, mask := ← maskOf u }
  | 0x07 =>
    zero u.d; zero (m.var.extractLsb' 1 3); zero m.sz
    return .vscat (uV u.b) (uV u.c) (← code (ETy.ofCode u.t)) (m.var.getLsbD 0)
      { mem := ← memOpOf u, folio := m.sp, mask := ← maskOf u }
  | 0x08 =>
    zero u.t; zero u.b; zero u.c; need (!m.sp) .nonzeroField; zero m.var
    return .tldv (uV u.d) (← szOf m.sz) (← memOpOf u) (← maskOf u)
  | 0x09 =>
    zero u.t; zero u.d; zero u.c; need (!m.sp) .nonzeroField; zero m.var
    return .tsta (uV u.b) (← szOf m.sz) (← memOpOf u) (← maskOf u)
  | 0x0A =>
    noMask u; zero u.t; zero u.oc; zero u.d; zero u.b; zero u.c; zero m.scope; zero m.fl; need (!m.sp) .nonzeroField; zero m.sz
    return .pref (← code (PrefKind.ofCode m.var)) (← uA u.a) m.disp
  | 0x0B =>
    noMask u; zero u.t; zero u.d; zero u.b; zero u.c; zero m.scope; zero m.fl; need (!m.sp) .nonzeroField; zero m.sz
    match m.var.toNat with
    | 0 => return .cmoWb (← uA u.a) m.disp u.oc.toFin
    | 1 => return .cmoWbinv (← uA u.a) m.disp u.oc.toFin
    | 2 => return .cmoZero (← uA u.a) m.disp u.oc.toFin
    | _ => .error .code
  | 0x0C =>
    noMask u; zero u.t; zero u.oc; zero u.d; zero u.a; zero u.b; zero u.c; need (!m.sp) .nonzeroField; zero m.var; zero m.sz
    zero (m.disp.extractLsb' 16 16)
    return .fence (← code (Scope.ofCode m.scope)) (Flavour.ofCode m.fl) (m.disp.extractLsb' 0 16)
  | 0x0D =>
    noMask u; zero u.c; need (!m.sp) .nonzeroField; zero m.sz
    return .atom (← code (AtomOp.ofCode m.var)) (← uS u.d) (← uS u.b) (← code (ETy.ofCode u.t)) (← memOpOf u)
  | 0x0E =>
    noMask u; zero u.d; zero u.c; need (!m.sp) .nonzeroField; zero m.sz
    return .atomn (← code (AtomOp.ofCode m.var)) (← uS u.b) (← code (ETy.ofCode u.t)) (← memOpOf u)
  | 0x0F =>
    noMask u; need (!m.sp) .nonzeroField; zero m.var; zero m.sz
    return .cas (← uS u.d) (← uS u.b) (← uS u.c) (← code (ETy.ofCode u.t)) (← memOpOf u)
  | 0x10 =>
    noMask u; zero u.t; zero u.d; zero u.c; zero m.scope; zero m.fl; need (!m.sp) .nonzeroField; zero m.var
    zero (m.disp.extractLsb' 12 20); zero (m.disp.extractLsb' 7 1); zero (m.disp.extractLsb' 3 1)
    return .duct (m.disp.extractLsb' 8 4).toFin (← uA u.a) (uV u.b) (m.disp.extractLsb' 0 3).toFin
      (m.disp.extractLsb' 4 3).toFin (← lcOf m.sz) u.oc.toFin
  | 0x11 =>
    noMask u; zero u.t; zero u.oc; zero u.a; zero u.b; zero u.c; zero m.scope; zero m.fl; need (!m.sp) .nonzeroField; zero m.sz
    zero (m.disp.extractLsb' 4 28)
    match m.var.toNat with
    | 0 => return .dcol (.s (← uS u.d)) (m.disp.extractLsb' 0 4).toFin
    | 1 => return .dcol (.v (uV u.d)) (m.disp.extractLsb' 0 4).toFin
    | _ => .error .code
  | _ => .error .reservedOpcode

/-- A field record of the memory class. -/
def memF (op : BitVec 8) (m : MemOp) : EngFields :=
  { cls := 1, op := op, a := gA m.base, oc := bf4 m.oc, spec := eMemOp m false 0 0 }

/-- A field record of a vector form of the memory class. -/
def vmemF (op : BitVec 8) (ty : ETy) (m : VMemOp) (var : BitVec 4) (sz : BitVec 3) : EngFields :=
  { cls := 1, op := op, a := gA m.mem.base, t := ty.code, oc := bf4 m.mem.oc, msel := eMsel m.mask, men := eMen m.mask,
    spec := eMemOp m.mem m.folio var sz }

def encodeMem (i : Instr) : Option EngFields :=
  match i with
  | .ld d ty m => some { memF 0x00 m with d := gSA d, t := ty.code }
  | .st b ty m => some { memF 0x01 m with b := gSA b, t := ty.code }
  | .vld d ty sz m => some { vmemF 0x02 ty m 0 (eSz sz) with d := gV d }
  | .vst b ty sz m => some { vmemF 0x03 ty m 0 (eSz sz) with b := gV b }
  | .vlds d b ty m => some { vmemF 0x04 ty m 0 0 with d := gV d, b := gS b }
  | .vsts b c ty m => some { vmemF 0x05 ty m 0 0 with b := gS b, c := gV c }
  | .vgath d b ty scl m => some { vmemF 0x06 ty m (0#3 ++ BitVec.ofBool scl) 0 with d := gV d, b := gV b }
  | .vscat b c ty scl m => some { vmemF 0x07 ty m (0#3 ++ BitVec.ofBool scl) 0 with b := gV b, c := gV c }
  | .tldv d sz m mask => some { memF 0x08 m with d := gV d, msel := eMsel mask, men := eMen mask, spec := eMemOp m false 0 (eSz sz) }
  | .tsta b sz m mask => some { memF 0x09 m with b := gV b, msel := eMsel mask, men := eMen mask, spec := eMemOp m false 0 (eSz sz) }
  | .pref k a disp => some { cls := 1, op := 0x0A, a := gA a, spec := eMem 0 0 false k.code 0 disp }
  | .cmoWb a disp oc => some { cls := 1, op := 0x0B, a := gA a, oc := bf4 oc, spec := eMem 0 0 false 0 0 disp }
  | .cmoWbinv a disp oc => some { cls := 1, op := 0x0B, a := gA a, oc := bf4 oc, spec := eMem 0 0 false 1 0 disp }
  | .cmoZero a disp oc => some { cls := 1, op := 0x0B, a := gA a, oc := bf4 oc, spec := eMem 0 0 false 2 0 disp }
  | .fence sc fl mask => some { cls := 1, op := 0x0C, spec := eMem sc.code fl.code false 0 0 (0#16 ++ mask) }
  | .atom op d b ty m => some { memF 0x0D m with d := gS d, b := gS b, t := ty.code, spec := eMemOp m false op.code 0 }
  | .atomn op b ty m => some { memF 0x0E m with b := gS b, t := ty.code, spec := eMemOp m false op.code 0 }
  | .cas d b c ty m => some { memF 0x0F m with d := gS d, b := gS b, c := gS c, t := ty.code }
  | .duct tag a b n1 h1 lc oc =>
    some { cls := 1, op := 0x10, a := gA a, b := gV b, oc := bf4 oc,
           spec := eMem 0 0 false 0 (BitVec.ofNat 3 lc.val)
             (0#20 ++ bf4 tag ++ 0#1 ++ bf3 h1 ++ 0#1 ++ bf3 n1) }
  | .dcol (.s d) tag => some { cls := 1, op := 0x11, d := gS d, spec := eMem 0 0 false 0 0 (0#28 ++ bf4 tag) }
  | .dcol (.v d) tag => some { cls := 1, op := 0x11, d := gV d, spec := eMem 0 0 false 1 0 (0#28 ++ bf4 tag) }
  | _ => none

/-! ## System (R137) -/

def decodeSys (u : EngFields) : Dec Instr := do
  need (!u.x) .nonzeroField; noMask u; zero u.c; zero u.t; zero (u.spec.extractLsb' 36 9)
  let var : BitVec 4 := u.spec.extractLsb' 32 4
  let imm : BitVec 32 := u.spec.extractLsb' 0 32
  match u.op.toNat with
  | 0x00 => zero u.oc; zero u.d; zero u.a; zero u.b; zero var; zero (imm.extractLsb' 16 16); return .trap (imm.extractLsb' 0 16)
  | 0x01 => zero u.oc; zero u.d; zero u.a; zero u.b; zero var; zero imm; return .tret
  | 0x02 => zero u.oc; zero u.a; zero u.b; zero imm; return .bkr (← uS u.d) (← code (BankField.ofCode var))
  | 0x03 => zero u.oc; zero u.d; zero u.b; zero imm; return .bkw (← uS u.a) (← code (BankField.ofCode var))
  | 0x04 =>
    zero u.oc; zero u.b; zero imm
    match var.toNat with
    | 0 => return .pgsvcTouch (← uS u.d) (← uA u.a)
    | 1 => return .pgsvcAlloc (← uS u.d) (← uA u.a)
    | 2 => return .pgsvcPin (← uS u.d) (← uA u.a)
    | 3 => return .pgsvcUnpin (← uS u.d) (← uA u.a)
    | 4 => return .pgsvcQuery (← uS u.d) (← uA u.a)
    | _ => .error .code
  | 0x05 =>
    zero u.oc; zero (imm.extractLsb' 12 20); zero (var.extractLsb' 2 2)
    return .hset (← uS u.d) (← uA u.a) (← uS u.b) (var.extractLsb' 0 2).toFin (imm.extractLsb' 0 12)
  | 0x06 => zero u.oc; zero u.d; zero u.b; zero var; zero imm; return .hfree (← uS u.a)
  | 0x07 => zero u.oc; zero u.b; zero var; zero imm; return .hqry (← uS u.d) (← uS u.a)
  | 0x08 => zero u.oc; zero u.d; zero u.b; zero var; zero imm; return .tkset (← uS u.a)
  | 0x09 => zero u.oc; zero u.d; zero var; zero imm; return .curset (← uS u.a) (← uS u.b)
  | 0x0A => zero u.oc; zero u.d; zero u.b; zero var; zero imm; return .rseed (← uS u.a)
  | 0x0B => zero u.oc; zero u.b; zero var; zero imm; return .kzero (← uS u.d) (← uS u.a)
  | 0x0C => zero u.oc; zero u.b; zero var; zero imm; return .blot (← uS u.d) (← uA u.a)
  | 0x0D => zero u.oc; zero var; zero imm; return .blwait (← uS u.d) (← uS u.a) (← uS u.b)
  | 0x0E => zero u.oc; zero u.b; zero var; zero imm; return .wfe (← uS u.d) (← uS u.a)
  | 0x0F =>
    zero u.oc; zero u.b; zero imm
    match var.toNat with
    | 0 => return .ctxctlSoft (← uS u.d) (← uS u.a)
    | 1 => return .ctxctlHalt (← uS u.d) (← uS u.a)
    | 2 => return .ctxctlKill (← uS u.d) (← uS u.a)
    | 3 => return .ctxctlResume (← uS u.d) (← uS u.a)
    | _ => .error .code
  | 0x10 => zero var; zero imm; return .ctxsv (← uS u.d) (← uA u.a) (← uS u.b) u.oc.toFin
  | 0x11 => zero var; zero imm; return .ctxld (← uS u.d) (← uA u.a) (← uS u.b) u.oc.toFin
  | _ => .error .reservedOpcode

/-- A field record of the system class. -/
def sysF (op : BitVec 8) (d a b : BitVec 6) (var : BitVec 4) (imm : BitVec 32) : EngFields :=
  { cls := 0, op := op, d := d, a := a, b := b, spec := 0#9 ++ var ++ imm }

def encodeSys (i : Instr) : Option EngFields :=
  match i with
  | .trap c => some (sysF 0x00 0 0 0 0 (0#16 ++ c))
  | .tret => some (sysF 0x01 0 0 0 0 0)
  | .bkr d f => some (sysF 0x02 (gS d) 0 0 f.code 0)
  | .bkw a f => some (sysF 0x03 0 (gS a) 0 f.code 0)
  | .pgsvcTouch d a => some (sysF 0x04 (gS d) (gA a) 0 0 0)
  | .pgsvcAlloc d a => some (sysF 0x04 (gS d) (gA a) 0 1 0)
  | .pgsvcPin d a => some (sysF 0x04 (gS d) (gA a) 0 2 0)
  | .pgsvcUnpin d a => some (sysF 0x04 (gS d) (gA a) 0 3 0)
  | .pgsvcQuery d a => some (sysF 0x04 (gS d) (gA a) 0 4 0)
  | .hset d a b rights idx => some (sysF 0x05 (gS d) (gA a) (gS b) (0#2 ++ bf2 rights) (0#20 ++ idx))
  | .hfree a => some (sysF 0x06 0 (gS a) 0 0 0)
  | .hqry d a => some (sysF 0x07 (gS d) (gS a) 0 0 0)
  | .tkset a => some (sysF 0x08 0 (gS a) 0 0 0)
  | .curset a b => some (sysF 0x09 0 (gS a) (gS b) 0 0)
  | .rseed a => some (sysF 0x0A 0 (gS a) 0 0 0)
  | .kzero d a => some (sysF 0x0B (gS d) (gS a) 0 0 0)
  | .blot d a => some (sysF 0x0C (gS d) (gA a) 0 0 0)
  | .blwait d a b => some (sysF 0x0D (gS d) (gS a) (gS b) 0 0)
  | .wfe d a => some (sysF 0x0E (gS d) (gS a) 0 0 0)
  | .ctxctlSoft d a => some (sysF 0x0F (gS d) (gS a) 0 0 0)
  | .ctxctlHalt d a => some (sysF 0x0F (gS d) (gS a) 0 1 0)
  | .ctxctlKill d a => some (sysF 0x0F (gS d) (gS a) 0 2 0)
  | .ctxctlResume d a => some (sysF 0x0F (gS d) (gS a) 0 3 0)
  | .ctxsv d a b oc => some { sysF 0x10 (gS d) (gA a) (gS b) 0 0 with oc := bf4 oc }
  | .ctxld d a b oc => some { sysF 0x11 (gS d) (gA a) (gS b) 0 0 with oc := bf4 oc }
  | _ => none

/-! ## Synchronisation (R200) -/

/-- The count operand of SEMSIG, SEMWAIT and SEMTRY (R200). -/
def semCount (u : EngFields) : Dec SemCount := do
  let var : BitVec 4 := u.spec.extractLsb' 36 4
  match var.toNat with
  | 0 => zero (u.spec.extractLsb' 8 24); return .reg (← uS u.b)
  | 1 => zero u.b; return .imm (u.spec.extractLsb' 8 24)
  | _ => .error .code

/-- Address operand of WADDR and WAKE. -/
def syncMem (u : EngFields) : Dec MemOp := do
  return { base := ← uA u.a, disp := u.spec.extractLsb' 0 32, oc := u.oc.toFin, fl := Flavour.ofCode (u.spec.extractLsb' 40 2),
           scope := ← code (Scope.ofCode (u.spec.extractLsb' 42 3)) }

/-- The word size of WADDR and WAKE: n32 or n64. -/
def wideOf (t : BitVec 5) : Dec Bool :=
  match t.toNat with
  | 0x07 => .ok false
  | 0x14 => .ok true
  | _ => .error .code

def eWide (w : Bool) : BitVec 5 := if w then 0x14 else 0x07

/-- SCOPE, FL and T unused. -/
def syncPlain (u : EngFields) : Dec Unit := do
  zero u.t; zero u.oc; zero (u.spec.extractLsb' 40 5)

def decodeSync (u : EngFields) : Dec Instr := do
  need (!u.x) .nonzeroField; noMask u; zero (u.spec.extractLsb' 32 4)
  let var : BitVec 4 := u.spec.extractLsb' 36 4
  let imm : BitVec 32 := u.spec.extractLsb' 0 32
  match u.op.toNat with
  | 0x00 => syncPlain u; zero u.a; zero u.c; return .semsig (← uS u.d) (imm.extractLsb' 0 8) (← semCount u)
  | 0x01 => syncPlain u; zero u.d; zero u.a; zero u.c; return .semwait (imm.extractLsb' 0 8) (← semCount u)
  | 0x02 => syncPlain u; zero u.a; zero u.c; return .semtry (← uP u.d) (imm.extractLsb' 0 8) (← semCount u)
  | 0x03 => syncPlain u; zero u.a; zero u.c; zero var; zero (imm.extractLsb' 8 24); return .semset (← uS u.d) (← uS u.b) (imm.extractLsb' 0 8)
  | 0x04 => syncPlain u; zero u.b; zero u.c; zero var; zero imm; return .barr (← uS u.d) (← uS u.a)
  | 0x05 => syncPlain u; zero u.b; zero u.c; zero var; zero imm; return .bwait (← uS u.d) (← uS u.a)
  | 0x06 => syncPlain u; zero u.b; zero u.c; zero var; zero imm; return .btry (← uS u.d) (← uS u.a)
  | 0x07 =>
    zero u.t; zero u.oc; zero u.b; zero u.c; zero imm; zero (u.spec.extractLsb' 40 2)
    match var.toNat with
    | 0 => return .bmembJoin (← uS u.d) (← uS u.a) (← code (Scope.ofCode (u.spec.extractLsb' 42 3)))
    | 1 => zero (u.spec.extractLsb' 42 3); return .bmembLeave (← uS u.d) (← uS u.a)
    | _ => .error .code
  | 0x08 =>
    return .waddr (← code (WaitCond.ofCode var)) (← wideOf u.t) (← uS u.d) (← uS u.b) (← uS u.c) (← syncMem u)
  | 0x09 => zero u.c; zero var; return .wake (← wideOf u.t) (← uS u.d) (← uS u.b) (← syncMem u)
  | 0x0A =>
    syncPlain u; zero u.c; zero var; zero (imm.extractLsb' 3 5); zero (imm.extractLsb' 13 19)
    return .qbind (← uS u.d) (← uS u.a) (← uS u.b) (imm.extractLsb' 0 3).toFin (imm.extractLsb' 8 5).toFin
  | 0x0B => syncPlain u; zero u.a; zero u.b; zero u.c; zero var; zero (imm.extractLsb' 3 29); return .qunbind (← uS u.d) (imm.extractLsb' 0 3).toFin
  | 0x0C => syncPlain u; zero u.a; zero u.b; zero u.c; zero var; zero (imm.extractLsb' 3 29); return .qdepth (← uS u.d) (imm.extractLsb' 0 3).toFin
  | _ => .error .reservedOpcode

def eSync (scope : BitVec 3) (fl : BitVec 2) (var : BitVec 4) (imm : BitVec 32) : BitVec 45 := scope ++ fl ++ var ++ 0#4 ++ imm

/-- Operand B, VAR and IMM of a semaphore count. -/
def eCnt (sem : BitVec 8) (k : SemCount) : BitVec 6 × BitVec 45 :=
  match k with
  | .reg r => (gS r, eSync 0 0 0 (0#24 ++ sem))
  | .imm n => (0, eSync 0 0 1 (n ++ sem))

def syncF (op : BitVec 8) (d a b : BitVec 6) (spec : BitVec 45) : EngFields := { cls := 6, op := op, d := d, a := a, b := b, spec := spec }

def encodeSync (i : Instr) : Option EngFields :=
  match i with
  | .semsig d sem k => some (syncF 0x00 (gS d) 0 (eCnt sem k).1 (eCnt sem k).2)
  | .semwait sem k => some (syncF 0x01 0 0 (eCnt sem k).1 (eCnt sem k).2)
  | .semtry p sem k => some (syncF 0x02 (gP p) 0 (eCnt sem k).1 (eCnt sem k).2)
  | .semset d b sem => some (syncF 0x03 (gS d) 0 (gS b) (eSync 0 0 0 (0#24 ++ sem)))
  | .barr d a => some (syncF 0x04 (gS d) (gS a) 0 0)
  | .bwait d a => some (syncF 0x05 (gS d) (gS a) 0 0)
  | .btry d a => some (syncF 0x06 (gS d) (gS a) 0 0)
  | .bmembJoin d a sc => some (syncF 0x07 (gS d) (gS a) 0 (eSync sc.code 0 0 0))
  | .bmembLeave d a => some (syncF 0x07 (gS d) (gS a) 0 (eSync 0 0 1 0))
  | .waddr c w d b e m =>
    some { syncF 0x08 (gS d) (gA m.base) (gS b) (eSync m.scope.code m.fl.code c.code m.disp) with
           c := gS e, t := eWide w, oc := bf4 m.oc }
  | .wake w d b m =>
    some { syncF 0x09 (gS d) (gA m.base) (gS b) (eSync m.scope.code m.fl.code 0 m.disp) with t := eWide w, oc := bf4 m.oc }
  | .qbind d a b q depth1 => some (syncF 0x0A (gS d) (gS a) (gS b) (eSync 0 0 0 (0#19 ++ bf5 depth1 ++ 0#5 ++ bf3 q)))
  | .qunbind d q => some (syncF 0x0B (gS d) 0 0 (eSync 0 0 0 (0#29 ++ bf3 q)))
  | .qdepth d q => some (syncF 0x0C (gS d) 0 0 (eSync 0 0 0 (0#29 ++ bf3 q)))
  | _ => none

/-! ## Tasks: literals, copies, matrix commands and chains (R248, R251, R300, R307) -/

def TaskWord.pack (t : TaskWord) : Word128 := t.budget ++ t.tickets ++ t.scount ++ t.ssem ++ t.wcount ++ t.wsem

def TaskWord.unpack (l : Word128) : TaskWord :=
  { budget := l.extractLsb' 96 32, tickets := l.extractLsb' 64 32, scount := l.extractLsb' 40 24, ssem := l.extractLsb' 32 8,
    wcount := l.extractLsb' 8 24, wsem := l.extractLsb' 0 8 }

/-- A word as fetched: the word and, when L = 1, its literal. -/
structure Slot where
  word : Word128
  lit : Option Word128
  deriving DecidableEq, Repr

/-- An unguarded, legal following word of a pair (R257, R321): bit 96 zero and GUARD = 0b0111. -/
def followOk (s : Slot) : Bool :=
  !s.word.getLsbD 96 && !(schedOf s.word).guardInv && (schedOf s.word).guardP == 7

/-- The CHAIN fields of a word (R300). -/
def chainOf (u : EngFields) (lit : Option Word128) : Dec ChainCmd := do
  need (u.cls == 3 && u.op == 0x00) .pairing
  need (!u.x) .nonzeroField; noMask u; zero u.t; zero (u.spec.extractLsb' 0 43)
  match lit with
  | none => .error .literal
  | some l =>
    return { a := ← uS u.a, list := uV u.b, c := ← uS u.c, d := ← uS u.d, oc := u.oc.toFin, bar := u.spec.getLsbD 44,
             crc := u.spec.getLsbD 43, task := TaskWord.unpack l }

def chainF (c : ChainCmd) : EngFields :=
  { lit := true, cls := 3, op := 0x00, d := gS c.d, a := gS c.a, b := gV c.list, c := gS c.c, oc := bf4 c.oc,
    spec := BitVec.ofBool c.bar ++ BitVec.ofBool c.crc ++ 0#43 }

/-- Following words must be legal themselves: their own REUSE and TOK are checked with them (R14, R15). -/
def followSched (i : Instr) (s : Slot) : Dec Unit := do
  need (followOk s) .pairing
  need (Machine.reuseOk i (schedOf s.word).reuse) .pairing
  need (Machine.tokOk i (schedOf s.word).acc (schedOf s.word).tok) .pairing

/-- The epilogue CHAIN in the word after a matrix command (R321). -/
def epilogueOf (rest : List Slot) : Dec ChainCmd :=
  match rest with
  | [] => .error .pairing
  | s :: _ =>
    match opFieldsOf s.word with
    | .ctl _ => .error .pairing
    | .eng u => do
      let c ← chainOf u s.lit
      followSched (.chain c) s
      return c

/-- The fields shared by MMA and QMMA, with the epilogue from the following word (R307, R308). -/
def matOf (u : EngFields) (lit : Option Word128) (rest : List Slot) : Dec MatCmd := do
  need (!u.x) .nonzeroField; noMask u; zero u.t; zero (u.spec.extractLsb' 30 10); zero (u.spec.extractLsb' 4 26)
  match lit with
  | none => .error .literal
  | some l =>
    let epi ← if u.spec.getLsbD 43 then (epilogueOf rest).map some else pure none
    return { a := ← uS u.a, b := ← uS u.b, c := ← uS u.c, d := ← uS u.d, oc := u.oc.toFin, bar := u.spec.getLsbD 44,
             chk := u.spec.getLsbD 42, zero := u.spec.getLsbD 41, ka := u.spec.getLsbD 40, task := TaskWord.unpack l, epi := epi }

def matF (op : BitVec 8) (c : MatCmd) (tag : BitVec 4) : EngFields :=
  { lit := true, cls := 4, op := op, d := gS c.d, a := gS c.a, b := gS c.b, c := gS c.c, oc := bf4 c.oc,
    spec := BitVec.ofBool c.bar ++ BitVec.ofBool c.epi.isSome ++ BitVec.ofBool c.chk ++ BitVec.ofBool c.zero ++ BitVec.ofBool c.ka
      ++ 0#2 ++ 0#7 ++ 0#1 ++ 0#26 ++ tag }

/-- The matrix command in the word after a copy (R257). -/
def followOnOf (rest : List Slot) : Dec FollowOn :=
  match rest with
  | [] => .error .pairing
  | s :: rest' =>
    match opFieldsOf s.word with
    | .ctl _ => .error .pairing
    | .eng u => do
      need (u.cls == 4) .pairing
      match u.op.toNat with
      | 0x08 =>
        zero (u.spec.extractLsb' 0 4)
        let c ← matOf u s.lit rest'
        followSched (.mma c) s
        return { cmd := c, tag := none }
      | 0x09 =>
        let c ← matOf u s.lit rest'
        followSched (.qmma c (u.spec.extractLsb' 0 4).toFin) s
        return { cmd := c, tag := some (u.spec.extractLsb' 0 4).toFin }
      | _ => .error .pairing

/-- Decode the copy and task class (R251). -/
def decodeTask (u : EngFields) (lit : Option Word128) (rest : List Slot) : Dec Instr := do
  need (!u.x) .nonzeroField; noMask u; zero u.t; zero (u.spec.extractLsb' 34 2)
  let var : BitVec 4 := u.spec.extractLsb' 36 4
  let imm : BitVec 32 := u.spec.extractLsb' 0 32
  let ch : Fin 4 := (u.spec.extractLsb' 40 2).toFin
  let eng : BitVec 2 := u.spec.extractLsb' 32 2
  let bar := u.spec.getLsbD 44
  let fo := u.spec.getLsbD 43
  let crc := u.spec.getLsbD 42
  match lit with
  | some l =>
    match u.op.toNat with
    | 0x00 =>
      zero u.d; zero u.a; zero u.b; zero u.c; zero var; zero imm; need (!fo) .nonzeroField; need (!crc) .nonzeroField
      return .tsem (← code (Engine.ofCode eng)) ch u.oc.toFin bar (TaskWord.unpack l)
    | 0x01 =>
      zero imm; zero eng
      let f ← if fo then (followOnOf rest).map some else pure none
      return .cpy { a := ← uS u.a, b := ← uS u.b, c := ← uS u.c, d := ← uS u.d, dir := ← code (CpyDir.ofCode var), ch := ch,
                    oc := u.oc.toFin, bar := bar, crc := crc, task := TaskWord.unpack l, fo := f }
    | 0x02 =>
      zero u.d; zero imm; zero eng; need (!crc) .nonzeroField; zero (var.extractLsb' 1 3)
      let f ← if fo then (followOnOf rest).map some else pure none
      return .cpyo { a := ← uS u.a, b := ← uS u.b, c := ← uS u.c, fol := var.getLsbD 0, ch := ch, oc := u.oc.toFin, bar := bar,
                     task := TaskWord.unpack l, fo := f }
    | _ => .error .literal
  | none => do
    need (!bar) .nonzeroField; need (!fo) .nonzeroField; need (!crc) .nonzeroField; zero eng
    match u.op.toNat with
    | 0x03 =>
      zero u.oc; zero u.a; zero u.b; zero u.c; zero imm
      match var.toNat with
      | 0 => return .cwptrLand (← uS u.d) ch
      | 1 => return .cwptrIss (← uS u.d) ch
      | _ => .error .code
    | 0x04 => zero u.oc; zero u.d; zero u.b; zero u.c; zero var; zero imm; need (ch == 0) .nonzeroField; return .fwput (← uS u.a)
    | 0x05 =>
      zero u.oc; zero u.b; zero u.c; need (ch == 0) .nonzeroField
      match var.toNat with
      | 0 => zero u.a; zero imm; return .bswap (← uS u.d)
      | 1 => zero (imm.extractLsb' 6 26); return .bswapOpen (← uS u.d) (uV u.a) (imm.extractLsb' 0 6)
      | 2 => zero u.a; zero imm; return .bswapClose (← uS u.d)
      | _ => .error .code
    | 0x06 => zero u.b; zero u.c; zero var; need (ch == 0) .nonzeroField; return .launch (← uS u.d) (← uA u.a) imm u.oc.toFin
    | 0x07 =>
      zero u.oc; zero u.c; zero imm; need (ch == 0) .nonzeroField
      match var.toNat with
      | 0 => return .graphOpen (← uS u.d) (← uS u.a) (← uS u.b)
      | 1 => zero u.b; return .graphClose (← uS u.d) (← uS u.a)
      | _ => .error .code
    | 0x08 =>
      zero u.oc; zero u.b; zero u.c; zero imm; need (ch == 0) .nonzeroField
      match var.toNat with
      | 0 => return .wphaseOpen (← uS u.d) (← uS u.a)
      | 1 => return .wphaseClose (← uS u.d) (← uS u.a)
      | _ => .error .code
    | 0x09 => zero u.oc; zero u.b; zero u.c; zero var; zero imm; need (ch == 0) .nonzeroField; return .cntr (← uS u.d) (← uS u.a)
    | 0x0A => zero u.oc; zero u.b; zero u.c; zero var; zero imm; need (ch == 0) .nonzeroField; return .cancel (← uS u.d) (← uS u.a)
    | 0x00 => .error .literal
    | 0x01 => .error .literal
    | 0x02 => .error .literal
    | _ => .error .reservedOpcode

def eTask (bar fo crc : Bool) (ch : Fin 4) (var : BitVec 4) (eng : BitVec 2) (imm : BitVec 32) : BitVec 45 :=
  BitVec.ofBool bar ++ BitVec.ofBool fo ++ BitVec.ofBool crc ++ bf2 ch ++ var ++ 0#2 ++ eng ++ imm

def taskF (op : BitVec 8) (d a b c : BitVec 6) (spec : BitVec 45) : EngFields :=
  { cls := 5, op := op, d := d, a := a, b := b, c := c, spec := spec }

/-! ## Vector (R288, R289) -/

/-- The SPEC fields of R289. -/
structure VecSpec where
  pol : BitVec 2
  sm : Bool
  var : BitVec 4
  ts : BitVec 5
  xs : Bool
  imm : BitVec 32

def VecSpec.of (x : BitVec 45) : VecSpec :=
  { pol := x.extractLsb' 43 2, sm := x.getLsbD 42, var := x.extractLsb' 38 4, ts := x.extractLsb' 33 5, xs := x.getLsbD 32,
    imm := x.extractLsb' 0 32 }

def eVec (pol : BitVec 2) (sm : Bool) (var : BitVec 4) (ts : BitVec 5) (xs : Bool) (imm : BitVec 32) : BitVec 45 :=
  pol ++ BitVec.ofBool sm ++ var ++ ts ++ BitVec.ofBool xs ++ imm

/-- The conversion fields, unused outside VCVT. -/
def vecPlain (u : EngFields) : Dec Unit := do
  need (!u.x) .nonzeroField
  let s := VecSpec.of u.spec
  zero s.pol; need (!s.sm) .nonzeroField; zero s.ts; need (!s.xs) .nonzeroField

/-- D, A, B vectors with a type and a mask, no VAR. -/
def vDAB (u : EngFields) (k : VNum → VNum → VNum → ETy → Option MNum → Instr) : Dec Instr := do
  vecPlain u; zero u.c; zero (VecSpec.of u.spec).var; zero (VecSpec.of u.spec).imm
  return k (uV u.d) (uV u.a) (uV u.b) (← code (ETy.ofCode u.t)) (← maskOf u)

/-- D, A, B vectors with the `.sat` variant. -/
def vDABs (u : EngFields) (k : VNum → VNum → VNum → ETy → Bool → Option MNum → Instr) : Dec Instr := do
  vecPlain u; zero u.c; zero ((VecSpec.of u.spec).var.extractLsb' 1 3); zero (VecSpec.of u.spec).imm
  return k (uV u.d) (uV u.a) (uV u.b) (← code (ETy.ofCode u.t)) ((VecSpec.of u.spec).var.getLsbD 0) (← maskOf u)

/-- D, A vectors with the `.sat` variant. -/
def vDAs (u : EngFields) (k : VNum → VNum → ETy → Bool → Option MNum → Instr) : Dec Instr := do
  vecPlain u; zero u.b; zero u.c; zero ((VecSpec.of u.spec).var.extractLsb' 1 3); zero (VecSpec.of u.spec).imm
  return k (uV u.d) (uV u.a) (← code (ETy.ofCode u.t)) ((VecSpec.of u.spec).var.getLsbD 0) (← maskOf u)

/-- D, A vectors, no VAR. -/
def vDA (u : EngFields) (k : VNum → VNum → ETy → Option MNum → Instr) : Dec Instr := do
  vecPlain u; zero u.b; zero u.c; zero (VecSpec.of u.spec).var; zero (VecSpec.of u.spec).imm
  return k (uV u.d) (uV u.a) (← code (ETy.ofCode u.t)) (← maskOf u)

/-- Vector shifts: count from B (VAR 0) or IMM[5:0] (VAR 1). -/
def vShift (u : EngFields) (k : VNum → VNum → VCount → ETy → Option MNum → Instr) : Dec Instr := do
  vecPlain u; zero u.c
  let s := VecSpec.of u.spec
  match s.var.toNat with
  | 0 => zero s.imm; return k (uV u.d) (uV u.a) (.reg (uV u.b)) (← code (ETy.ofCode u.t)) (← maskOf u)
  | 1 =>
    zero u.b; zero (s.imm.extractLsb' 6 26)
    return k (uV u.d) (uV u.a) (.imm (s.imm.extractLsb' 0 6).toFin) (← code (ETy.ofCode u.t)) (← maskOf u)
  | _ => .error .code

/-- Mask logic: D, A, B masks with inversions in VAR[1:0]. -/
def vMMM (u : EngFields) (k : MNum → MNum → MNum → Bool → Bool → Instr) : Dec Instr := do
  vecPlain u; noMask u; zero u.t; zero u.c
  let s := VecSpec.of u.spec
  zero (s.var.extractLsb' 2 2); zero s.imm
  return k (← uM u.d) (← uM u.a) (← uM u.b) (s.var.getLsbD 0) (s.var.getLsbD 1)

/-- Reductions: D scalar, A vector. -/
def vRed (u : EngFields) (k : SReg → VNum → ETy → Option MNum → Instr) : Dec Instr := do
  vecPlain u; zero u.b; zero u.c; zero (VecSpec.of u.spec).var; zero (VecSpec.of u.spec).imm
  return k (← uS u.d) (uV u.a) (← code (ETy.ofCode u.t)) (← maskOf u)

/-- Decode the vector class (R288). -/
def decodeVec (u : EngFields) : Dec Instr := do
  zero u.oc
  let s := VecSpec.of u.spec
  match u.op.toNat with
  | 0x00 => vDABs u .vadd
  | 0x01 => vDABs u .vsub
  | 0x02 => vDAB u .vmul
  | 0x03 => vDAB u .vmulh
  | 0x04 => vDAB u .vdiv
  | 0x05 => vDAB u .vmin
  | 0x06 => vDAB u .vmax
  | 0x07 => vDAs u .vabs
  | 0x08 => vDAs u .vneg
  | 0x09 =>
    vecPlain u; zero s.imm
    return .vfma (← code (FmaForm.ofCode s.var)) (uV u.d) (uV u.a) (uV u.b) (uV u.c) (← code (ETy.ofCode u.t)) (← maskOf u)
  | 0x0A => vDAB u .vaddw
  | 0x0B => vDAB u .vmulw
  | 0x10 => vDAB u .vand
  | 0x11 => vDAB u .vor
  | 0x12 => vDAB u .vxor
  | 0x13 => vShift u .vshl
  | 0x14 => vShift u .vshr
  | 0x15 => vShift u .vsar
  | 0x16 =>
    vecPlain u; zero u.b; zero u.c; zero s.imm
    return .vbit (← code (BitFn.ofCode s.var)) (uV u.d) (uV u.a) (← code (ETy.ofCode u.t)) (← maskOf u)
  | 0x20 =>
    vecPlain u; zero u.c; zero s.imm
    return .vcmp (← code (Cond.ofCode s.var)) (← uM u.d) (uV u.a) (uV u.b) (← code (ETy.ofCode u.t)) (← maskOf u)
  | 0x21 =>
    vecPlain u; zero u.c; zero s.var; zero s.imm; need u.men .code
    return .vsel (uV u.d) (uV u.a) (uV u.b) (← code (ETy.ofCode u.t)) u.msel.toFin
  | 0x22 => vMMM u .mand
  | 0x23 => vMMM u .mor
  | 0x24 => vMMM u .mxor
  | 0x25 => vecPlain u; noMask u; zero u.b; zero u.c; zero s.var; zero s.imm; return .mpop (← uS u.d) (← uM u.a) (← code (ETy.ofCode u.t))
  | 0x26 => vecPlain u; noMask u; zero u.b; zero u.c; zero s.var; zero s.imm; return .mfirst (← uS u.d) (← uM u.a) (← code (ETy.ofCode u.t))
  | 0x27 => vecPlain u; noMask u; zero u.t; zero u.b; zero u.c; zero s.var; zero s.imm; return .mset (← uM u.d) (← uS u.a)
  | 0x30 =>
    zero u.b; zero s.var; zero (s.imm.extractLsb' 2 2); zero (s.imm.extractLsb' 7 25)
    return .vcvt { d := uV u.d, a := uV u.a, scale := uV u.c, td := ← code (ETy.ofCode u.t), ts := ← code (ETy.ofCode s.ts),
                   xd := u.x, xs := s.xs, pol := Pol.ofCode s.pol, sm := s.sm, pn := (s.imm.extractLsb' 4 3).toFin,
                   k := (s.imm.extractLsb' 0 2).toFin, mask := ← maskOf u }
  | 0x40 => vRed u .vrsum
  | 0x41 => vRed u .vrmax
  | 0x42 => vRed u .vrmin
  | 0x50 =>
    vecPlain u; zero u.b; zero u.c; zero s.imm
    return .vsf (← code (SpecFn.ofCode s.var)) (uV u.d) (uV u.a) (← code (ETy.ofCode u.t)) (← maskOf u)
  | 0x60 => vDAB u .vperm
  | 0x61 =>
    vecPlain u; zero s.var; zero s.imm
    return .vslide (uV u.d) (uV u.a) (uV u.b) (← uS u.c) (← code (ETy.ofCode u.t)) (← maskOf u)
  | 0x62 => vecPlain u; zero u.b; zero u.c; zero s.var; zero s.imm; return .vbcast (uV u.d) (← uS u.a) (← code (ETy.ofCode u.t)) (← maskOf u)
  | 0x63 =>
    vecPlain u; noMask u; zero u.a; zero u.c; zero s.var; zero (s.imm.extractLsb' 10 22)
    return .vins (uV u.d) (← uS u.b) (← code (ETy.ofCode u.t)) (s.imm.extractLsb' 0 10).toFin
  | 0x64 =>
    vecPlain u; noMask u; zero u.b; zero u.c; zero s.var; zero (s.imm.extractLsb' 10 22)
    return .vext (← uS u.d) (uV u.a) (← code (ETy.ofCode u.t)) (s.imm.extractLsb' 0 10).toFin
  | 0x65 => vecPlain u; noMask u; zero u.c; zero s.var; zero s.imm; return .vzip (uV u.d) (uV u.a) (uV u.b) (← code (ETy.ofCode u.t))
  | 0x66 =>
    vecPlain u; noMask u; zero u.b; zero u.c; zero (s.var.extractLsb' 1 3); zero s.imm
    return .vunzip (uV u.d) (uV u.a) (← code (ETy.ofCode u.t)) (s.var.getLsbD 0)
  | 0x67 => vDA u .vrev
  | 0x68 =>
    vecPlain u; zero u.b; zero u.c; zero s.var; zero s.imm; need u.men .code
    return .vcmpr (uV u.d) (uV u.a) (← code (ETy.ofCode u.t)) u.msel.toFin
  | 0x69 =>
    vecPlain u; noMask u; zero u.t; zero u.b; zero u.c; zero s.var; zero (s.imm.extractLsb' 2 30)
    return .vmov (uV u.d) (uV u.a) (← szOf (0#1 ++ s.imm.extractLsb' 0 2))
  | _ => .error .reservedOpcode

def vecF (op : BitVec 8) (d a b c : BitVec 6) (ty : ETy) (m : Option MNum) (var : BitVec 4) (imm : BitVec 32) : EngFields :=
  { cls := 2, op := op, d := d, a := a, b := b, c := c, t := ty.code, msel := eMsel m, men := eMen m, spec := eVec 0 false var 0 false imm }

/-- As `vecF` with T zero. -/
def vecN (op : BitVec 8) (d a b : BitVec 6) (var : BitVec 4) (imm : BitVec 32) : EngFields :=
  { cls := 2, op := op, d := d, a := a, b := b, spec := eVec 0 false var 0 false imm }

def eVar1 (x : Bool) : BitVec 4 := 0#3 ++ BitVec.ofBool x

def eVcount (op : BitVec 8) (d a : VNum) (n : VCount) (ty : ETy) (m : Option MNum) : EngFields :=
  match n with
  | .reg b => vecF op (gV d) (gV a) (gV b) 0 ty m 0 0
  | .imm k => vecF op (gV d) (gV a) 0 0 ty m 1 (0#26 ++ bf6 k)

def encodeVec (i : Instr) : Option EngFields :=
  match i with
  | .vadd d a b ty s m => some (vecF 0x00 (gV d) (gV a) (gV b) 0 ty m (eVar1 s) 0)
  | .vsub d a b ty s m => some (vecF 0x01 (gV d) (gV a) (gV b) 0 ty m (eVar1 s) 0)
  | .vmul d a b ty m => some (vecF 0x02 (gV d) (gV a) (gV b) 0 ty m 0 0)
  | .vmulh d a b ty m => some (vecF 0x03 (gV d) (gV a) (gV b) 0 ty m 0 0)
  | .vdiv d a b ty m => some (vecF 0x04 (gV d) (gV a) (gV b) 0 ty m 0 0)
  | .vmin d a b ty m => some (vecF 0x05 (gV d) (gV a) (gV b) 0 ty m 0 0)
  | .vmax d a b ty m => some (vecF 0x06 (gV d) (gV a) (gV b) 0 ty m 0 0)
  | .vabs d a ty s m => some (vecF 0x07 (gV d) (gV a) 0 0 ty m (eVar1 s) 0)
  | .vneg d a ty s m => some (vecF 0x08 (gV d) (gV a) 0 0 ty m (eVar1 s) 0)
  | .vfma f d a b c ty m => some (vecF 0x09 (gV d) (gV a) (gV b) (gV c) ty m f.code 0)
  | .vaddw d a b ty m => some (vecF 0x0A (gV d) (gV a) (gV b) 0 ty m 0 0)
  | .vmulw d a b ty m => some (vecF 0x0B (gV d) (gV a) (gV b) 0 ty m 0 0)
  | .vand d a b ty m => some (vecF 0x10 (gV d) (gV a) (gV b) 0 ty m 0 0)
  | .vor d a b ty m => some (vecF 0x11 (gV d) (gV a) (gV b) 0 ty m 0 0)
  | .vxor d a b ty m => some (vecF 0x12 (gV d) (gV a) (gV b) 0 ty m 0 0)
  | .vshl d a n ty m => some (eVcount 0x13 d a n ty m)
  | .vshr d a n ty m => some (eVcount 0x14 d a n ty m)
  | .vsar d a n ty m => some (eVcount 0x15 d a n ty m)
  | .vbit f d a ty m => some (vecF 0x16 (gV d) (gV a) 0 0 ty m f.code 0)
  | .vcmp c d a b ty m => some (vecF 0x20 (gM d) (gV a) (gV b) 0 ty m c.code 0)
  | .vsel d a b ty m => some (vecF 0x21 (gV d) (gV a) (gV b) 0 ty (some m) 0 0)
  | .mand d a b ia ib => some (vecN 0x22 (gM d) (gM a) (gM b) (eF ia ib) 0)
  | .mor d a b ia ib => some (vecN 0x23 (gM d) (gM a) (gM b) (eF ia ib) 0)
  | .mxor d a b ia ib => some (vecN 0x24 (gM d) (gM a) (gM b) (eF ia ib) 0)
  | .mpop d a ty => some (vecF 0x25 (gS d) (gM a) 0 0 ty none 0 0)
  | .mfirst d a ty => some (vecF 0x26 (gS d) (gM a) 0 0 ty none 0 0)
  | .mset d a => some (vecN 0x27 (gM d) (gS a) 0 0 0)
  | .vcvt o =>
    some { cls := 2, op := 0x30, d := gV o.d, a := gV o.a, c := gV o.scale, t := o.td.code, x := o.xd, msel := eMsel o.mask,
           men := eMen o.mask,
           spec := eVec o.pol.code o.sm 0 o.ts.code o.xs (0#25 ++ bf3 o.pn ++ 0#2 ++ bf2 o.k) }
  | .vrsum d a ty m => some (vecF 0x40 (gS d) (gV a) 0 0 ty m 0 0)
  | .vrmax d a ty m => some (vecF 0x41 (gS d) (gV a) 0 0 ty m 0 0)
  | .vrmin d a ty m => some (vecF 0x42 (gS d) (gV a) 0 0 ty m 0 0)
  | .vsf f d a ty m => some (vecF 0x50 (gV d) (gV a) 0 0 ty m f.code 0)
  | .vperm d a b ty m => some (vecF 0x60 (gV d) (gV a) (gV b) 0 ty m 0 0)
  | .vslide d a b c ty m => some (vecF 0x61 (gV d) (gV a) (gV b) (gS c) ty m 0 0)
  | .vbcast d a ty m => some (vecF 0x62 (gV d) (gS a) 0 0 ty m 0 0)
  | .vins d b ty k => some (vecF 0x63 (gV d) 0 (gS b) 0 ty none 0 (0#22 ++ bf10 k))
  | .vext d a ty k => some (vecF 0x64 (gS d) (gV a) 0 0 ty none 0 (0#22 ++ bf10 k))
  | .vzip d a b ty => some (vecF 0x65 (gV d) (gV a) (gV b) 0 ty none 0 0)
  | .vunzip d a ty odd => some (vecF 0x66 (gV d) (gV a) 0 0 ty none (eVar1 odd) 0)
  | .vrev d a ty m => some (vecF 0x67 (gV d) (gV a) 0 0 ty m 0 0)
  | .vcmpr d a ty m => some (vecF 0x68 (gV d) (gV a) 0 0 ty (some m) 0 0)
  | .vmov d a sz => some (vecN 0x69 (gV d) (gV a) 0 0 (0#29 ++ eSz sz))
  | _ => none

/-! ## Ligature and matrix (R307, R308) -/

def ligOpOf (u : EngFields) : LigOp :=
  { first := (u.spec.extractLsb' 20 10).toFin, stride := (u.spec.extractLsb' 11 9).toFin, count := u.spec.extractLsb' 0 11,
    sw := u.spec.extractLsb' 31 7 }

def decodeLig (u : EngFields) (lit : Option Word128) (rest : List Slot) : Dec Instr :=
  match lit with
  | some _ =>
    match u.op.toNat with
    | 0x08 => do zero (u.spec.extractLsb' 0 4); return .mma (← matOf u lit rest)
    | 0x09 => do return .qmma (← matOf u lit rest) (u.spec.extractLsb' 0 4).toFin
    | _ => .error .literal
  | none => do
    need (!u.x) .nonzeroField; noMask u; zero u.oc; zero (u.spec.extractLsb' 40 5); zero (u.spec.extractLsb' 30 1)
    match u.op.toNat with
    | 0x00 =>
      zero u.b; zero u.c; zero (u.spec.extractLsb' 39 1)
      return .lpack (uV u.d) (uV u.a) (← code (ETy.ofCode u.t)) (u.spec.getLsbD 38) (ligOpOf u)
    | 0x01 =>
      zero u.c; zero u.t; zero (u.spec.extractLsb' 39 1); zero (u.spec.extractLsb' 31 7); zero (u.spec.extractLsb' 0 30)
      return .ladd (uV u.d) (uV u.a) (uV u.b) (u.spec.getLsbD 38)
    | 0x02 =>
      zero u.c; zero u.t; zero (u.spec.extractLsb' 39 1); zero (u.spec.extractLsb' 0 30)
      return .lmul (uV u.d) (uV u.a) (uV u.b) (u.spec.getLsbD 38) (u.spec.extractLsb' 31 7)
    | 0x03 =>
      zero u.b; zero u.c
      return .lext (uV u.d) (uV u.a) (← code (ETy.ofCode u.t)) (u.spec.getLsbD 38) (u.spec.getLsbD 39) (ligOpOf u)
    | 0x04 =>
      zero u.d; zero u.a; zero u.b; zero u.c; zero u.t; zero (u.spec.extractLsb' 38 2); zero (u.spec.extractLsb' 0 30)
      return .lgw (u.spec.extractLsb' 31 7)
    | 0x08 => .error .literal
    | 0x09 => .error .literal
    | _ => .error .reservedOpcode

def eLig (v1 v0 : Bool) (sw : BitVec 7) (imm : BitVec 30) : BitVec 45 :=
  0#5 ++ BitVec.ofBool v1 ++ BitVec.ofBool v0 ++ sw ++ 0#1 ++ imm
def eLigImm (o : LigOp) : BitVec 30 := bf10 o.first ++ bf9 o.stride ++ o.count

def encodeLig (i : Instr) : Option EngFields :=
  match i with
  | .lpack d a ty rev o => some { cls := 4, op := 0x00, d := gV d, a := gV a, t := ty.code, spec := eLig false rev o.sw (eLigImm o) }
  | .ladd d a b s => some { cls := 4, op := 0x01, d := gV d, a := gV a, b := gV b, spec := eLig false s 0 0 }
  | .lmul d a b s sw => some { cls := 4, op := 0x02, d := gV d, a := gV a, b := gV b, spec := eLig false s sw 0 }
  | .lext d a ty sat pair o => some { cls := 4, op := 0x03, d := gV d, a := gV a, t := ty.code, spec := eLig pair sat o.sw (eLigImm o) }
  | .lgw sw => some { cls := 4, op := 0x04, spec := eLig false false sw 0 }
  | _ => none

/-! ## Whole instructions -/

/-- Decode an engine-private operation field with its literal and the following words (R26). -/
def decodeEng (u : EngFields) (lit : Option Word128) (rest : List Slot) : Dec Instr :=
  match u.cls.toNat with
  | 4 => decodeLig u lit rest
  | 5 => decodeTask u lit rest
  | 3 =>
    match lit with
    | some _ => do
      need (u.op == 0x00) .literal
      return .chain (← chainOf u lit)
    | none =>
      match u.op.toNat with
      | 0x00 => .error .literal
      | 0x01 => do
        need (!u.x) .nonzeroField; noMask u; zero u.t; zero u.oc; zero u.a; zero u.b; zero u.c; zero (u.spec.extractLsb' 2 43)
        return .chpop (← uS u.d) (u.spec.extractLsb' 0 2).toFin
      | _ => .error .reservedOpcode
  | 7 => .error .reservedOpcode
  | n =>
    match lit with
    | some _ => .error .literal
    | none =>
      match n with
      | 0 => decodeSys u
      | 1 => decodeMem u
      | 2 => decodeVec u
      | _ => decodeSync u

/-- Decode the fields of a word (R18). -/
def decodeFields (f : OpFields) (lit : Option Word128) (rest : List Slot) : Dec Instr :=
  match f with
  | .ctl c => decodeCtl c lit
  | .eng u => decodeEng u lit rest

/-- Decode a fetched word with its literal and the words that follow it: all of R28 step 3 but the checks that need the
strand's state (SBAR's own bit, a pair at an active loop end). -/
def decodeSlots (s : Slot) (rest : List Slot) : Dec (Sched × Instr) := do
  need (!s.word.getLsbD 96) .bit96
  let sc := schedOf s.word
  let i ← decodeFields (opFieldsOf s.word) s.lit rest
  need (Machine.checkInstr i) .operand
  need (Machine.reuseOk i sc.reuse) .reuse
  need (Machine.tokOk i sc.acc sc.tok) .tok
  return (sc, i)

/-- A copy with FO, which a matrix command must follow (R28 step 2, R257). -/
def wantsMatrix (w : Word128) : Bool :=
  w.getLsbD 94 && w.getLsbD 43 && ((w.extractLsb' 83 11 == 0x501#11) || (w.extractLsb' 83 11 == 0x502#11))

/-- An MMA or QMMA with EPI, which a CHAIN must follow (R28 step 2, R321). -/
def wantsEpilogue (w : Word128) : Bool :=
  w.getLsbD 94 && w.getLsbD 43 && ((w.extractLsb' 83 11 == 0x408#11) || (w.extractLsb' 83 11 == 0x409#11))

/-- Group a stream of words into words with their literals. -/
def slotsOf : List Word128 → List Slot
  | [] => []
  | w :: ws =>
    if hasLiteral w then
      match ws with
      | [] => []
      | l :: ws' => { word := w, lit := some l } :: slotsOf ws'
    else { word := w, lit := none } :: slotsOf ws

/-- Decode the instruction at the head of a stream of words. -/
def decode (ws : List Word128) : Dec (Sched × Instr) :=
  match slotsOf ws with
  | [] => .error .short
  | s :: rest => decodeSlots s rest

/-- The fields and literals of an instruction, first word first; none for events and for the rows that a CRW's value selects. -/
def encodeFields (i : Instr) : Option (List (OpFields × Option Word128)) :=
  match i with
  | .chain c => some [(.eng (chainF c), some c.task.pack)]
  | .chpop d p => some [(.eng { cls := 3, op := 0x01, d := gS d, spec := 0#43 ++ bf2 p }, none)]
  | .mma c => some ((.eng (matF 0x08 c 0), some c.task.pack) :: epi c)
  | .qmma c tag => some ((.eng (matF 0x09 c (bf4 tag)), some c.task.pack) :: epi c)
  | .tsem eng ch oc bar t =>
    some [(.eng { taskF 0x00 0 0 0 0 (eTask bar false false ch 0 eng.code 0) with lit := true, oc := bf4 oc }, some t.pack)]
  | .cpy c =>
    some ((.eng { taskF 0x01 (gS c.d) (gS c.a) (gS c.b) (gS c.c) (eTask c.bar c.fo.isSome c.crc c.ch c.dir.code 0 0) with
                  lit := true, oc := bf4 c.oc }, some c.task.pack) :: follow c.fo)
  | .cpyo c =>
    some ((.eng { taskF 0x02 0 (gS c.a) (gS c.b) (gS c.c) (eTask c.bar c.fo.isSome false c.ch (eVar1 c.fol) 0 0) with
                  lit := true, oc := bf4 c.oc }, some c.task.pack) :: follow c.fo)
  | .cwptrLand d ch => some [(.eng (taskF 0x03 (gS d) 0 0 0 (eTask false false false ch 0 0 0)), none)]
  | .cwptrIss d ch => some [(.eng (taskF 0x03 (gS d) 0 0 0 (eTask false false false ch 1 0 0)), none)]
  | .fwput a => some [(.eng (taskF 0x04 0 (gS a) 0 0 0), none)]
  | .bswap d => some [(.eng (taskF 0x05 (gS d) 0 0 0 0), none)]
  | .bswapOpen d v n => some [(.eng (taskF 0x05 (gS d) (gV v) 0 0 (eTask false false false 0 1 0 (0#26 ++ n))), none)]
  | .bswapClose d => some [(.eng (taskF 0x05 (gS d) 0 0 0 (eTask false false false 0 2 0 0)), none)]
  | .launch d a disp oc => some [(.eng { taskF 0x06 (gS d) (gA a) 0 0 (eTask false false false 0 0 0 disp) with oc := bf4 oc }, none)]
  | .graphOpen d a b => some [(.eng (taskF 0x07 (gS d) (gS a) (gS b) 0 0), none)]
  | .graphClose d a => some [(.eng (taskF 0x07 (gS d) (gS a) 0 0 (eTask false false false 0 1 0 0)), none)]
  | .wphaseOpen d a => some [(.eng (taskF 0x08 (gS d) (gS a) 0 0 0), none)]
  | .wphaseClose d a => some [(.eng (taskF 0x08 (gS d) (gS a) 0 0 (eTask false false false 0 1 0 0)), none)]
  | .cntr d a => some [(.eng (taskF 0x09 (gS d) (gS a) 0 0 0), none)]
  | .cancel d a => some [(.eng (taskF 0x0A (gS d) (gS a) 0 0 0), none)]
  | i =>
    match encodeCtl i with
    | some (c, l) => some [(.ctl c, l)]
    | none =>
      match encodeMem i <|> encodeSys i <|> encodeSync i <|> encodeVec i <|> encodeLig i with
      | some u => some [(.eng u, none)]
      | none => none
where
  /-- The epilogue's word. -/
  epi (c : MatCmd) : List (OpFields × Option Word128) :=
    match c.epi with
    | some k => [(.eng (chainF k), some k.task.pack)]
    | none => []
  /-- The follow-on matrix word and its epilogue. -/
  follow (f : Option FollowOn) : List (OpFields × Option Word128) :=
    match f with
    | some f =>
      (.eng (match f.tag with
        | some t => matF 0x09 f.cmd (bf4 t)
        | none => matF 0x08 f.cmd 0), some f.cmd.task.pack) :: epi f.cmd
    | none => []

/-- Words of field records: the first under a scheduling field, the following words of a pair unannotated. -/
def layWords (sc : Sched) : List (OpFields × Option Word128) → List Word128
  | [] => []
  | (f, l) :: rest => (sc.pack ++ f.pack) :: (l.toList ++ layWords Sched.plain rest)

/-- The words of a well-formed instruction under a scheduling field. -/
def encode (sc : Sched) (i : Instr) : Option (List Word128) := (encodeFields i).map (layWords sc)

/-- The words of a number whose bits count on from the first word's bit 0: six words are the longest instruction
(a copy, its matrix command and that one's epilogue, each with a literal). -/
def wordsOfNat (w : Nat) : List Word128 := (List.range 6).map fun k => BitVec.ofNat 128 (w >>> (128 * k))

/-- What the decoder reads from an instruction whose bits are `w`; the bits above `nbits` are taken as zero. -/
def decodeTableWord (nbits w : Nat) : Option Instr :=
  match decode (wordsOfNat (w % 2 ^ nbits)) with
  | .ok (_, i) => some i
  | .error _ => none

/-! ## Words written out from the spec's encodings, one for every constructor that a word decodes to -/

/-- Words written out from the encoding tables of R18, R19, R45. -/
theorem word_control_1 :
    ([0xE000000000000000000000000,
      0xE0008C2230000000000000000,
      0xE0017C2210000000000000000,
      0xE0018C202FFFFFFFFFFFFFFF8,
      0xE0020C2220000000000000000,
      0xE0028C2210000000000000000,
      0xE0030C2020000000000000000,
      0xE0100C2200000000000000000,
      0xE0108C2200000000000000000,
      0xE0110C2200000000000000000,
      0xE0118C20000000000000000FF,
      0xE0120C20000000000000000FF,
      0xE0128C20000000000000000FF,
      0xE0130C2210000000000000000,
      0xE0138C2200000000000000000,
      0xE0140C2210000000000000000,
      0xE0148C200000000000000003F,
      0xE0150C2010000000000000005,
      0xE0158C2000000000000000005,
      0xE0200C2210000000000000000,
      0xE0208C2200000000000000000,
      0xE0210C2200000000000000000,
      0xE0218C2200000000000000000,
      0xE0220C2210000000000000000,
      0xE0228C2200000000000000000,
      0xE0230C2200000000000000000,
      0xE0300C2040000000000000408,
      0xE0308C2000000000000000408,
      0xE0310C2010000000000000000,
      0xE0318C2000000000000000000].map (decodeTableWord 768)) =
    [some (.nop),
      some (.add 3 1 2 true true),
      some (.sub 31 1 2 true false),
      some (.addi 3 1 0xFFFFFFFFFFFFFFF8 false true),
      some (.min 3 1 2 false true),
      some (.max 3 1 2 true false),
      some (.abs 3 1 false true),
      some (.and 3 1 2),
      some (.or 3 1 2),
      some (.xor 3 1 2),
      some (.andi 3 1 0xFF),
      some (.ori 3 1 0xFF),
      some (.xori 3 1 0xFF),
      some (.shl 3 1 2 true),
      some (.shr 3 1 2 false),
      some (.sar 3 1 2 true),
      some (.shli 3 1 63 false),
      some (.shri 3 1 5 true),
      some (.sari 3 1 5 false),
      some (.mul 3 1 2 true),
      some (.mulh 3 1 2 false),
      some (.mulhu 3 1 2 false),
      some (.div 3 1 2 false),
      some (.divu 3 1 2 true),
      some (.rem 3 1 2 false),
      some (.remu 3 1 2 false),
      some (.bext 3 1 8 16 true),
      some (.bins 3 1 8 16),
      some (.clz 3 1 true),
      some (.ctz 3 1 false)] := by decide +kernel

/-- Words written out from the encoding tables of R18, R19, R45. -/
theorem word_control_2 :
    ([0xE0320C2000000000000000000,
      0xE0328C2010000000000000000,
      0xE040182220000000000000000,
      0xE040982000000000000000007,
      0xE041182290000000000000000,
      0xE041982040000000000000007,
      0xE042044310000000000000000,
      0xE042844320000000000000000,
      0xE043044300000000000000000,
      0xE0438C0000000000000000000,
      0xE04400200000000000000007F,
      0xE0500C22A0000000000000000,
      0xE0508C2000000000000000000,
      0xE0510C2000000000000000000,
      0xE0518C000123456789ABCDEF0,
      0xE0520C0000000000000001000,
      0x111122223333444455556666777788880000000E852900000000000000000000,
      0x111122223333444455556666777788880000000E853100000000000000000000,
      0xE0538C000FFFFFFFFFFFFFFE0,
      0xE0600C2200000000000000000,
      0xE0608C2000000000000000010,
      0xE0610C2200000000000000000,
      0xE0618C2240000000000000000,
      0xE0620C2000000000C00000040,
      0xE0628C2200000100000000040,
      0xE0630C201000000000000000C,
      0xE063982260000000000000000,
      0xE07000000FFFFFFFFFFFFFFF0,
      0xE070806000000000000000000,
      0xE0713C0000000000000000100].map (decodeTableWord 768)) =
    [some (.popc 3 1 false),
      some (.brev 3 1 true),
      some (.cmp 6 1 2 .lt),
      some (.cmpi 6 1 7 .eq),
      some (.cmpW 6 1 2 .geu),
      some (.cmpiW 6 1 7 .gt),
      some (.pand 1 2 3 true false),
      some (.por 1 2 3 false true),
      some (.pxor 1 2 3 false false),
      some (.pget 3),
      some (.pput 1 0x7F),
      some (.sel 3 2 true 1 2),
      some (.mova 3 1),
      some (.movs 3 1),
      some (.li 3 0x123456789ABCDEF0),
      some (.lia 3 0x1000),
      some (.lit 4 0x11112222333344445555666677778888),
      some (.lita 4 0x11112222333344445555666677778888),
      some (.adr 3 0xFFFFFFFFFFFFFFE0),
      some (.aadd 3 1 2),
      some (.aaddi 3 1 16),
      some (.asub 3 1 2),
      some (.aidx 3 1 2 4),
      some (.awrap 3 1 0x40 12),
      some (.abnd 3 1 2 0x40 0x1000),
      some (.aalign 3 1 12 true),
      some (.acmp 6 1 2 .ltu),
      some (.br 0xFFFFFFFFFFFFFFF0),
      some (.brr 3),
      some (.call 15 0x100)] := by decide +kernel

/-- Words written out from the encoding tables of R18, R19, R45. -/
theorem word_control_3 :
    ([0xE071BC6000000000000000000,
      0xE07201E000000000000000000,
      0xE080046000000000000000030,
      0xE080840000000000800000030,
      0xE0810C4000000000000000000,
      0xE081886000000000000000000,
      0xE082004000000000000000000,
      0xE0900C2060000000900000020,
      0xE090802230000000900000020,
      0xE0910C2210000000000000020,
      0xE0918C2200000000000000020,
      0xE0A00C0000000000000000101,
      0xE0A0802000000000000000100,
      0xE0A10C2000000000000000100,
      0xE0A18C2000000000000000100,
      0xE0B0000000000000000000000,
      0xE0B0800000000000000000000,
      0xE0B10000E0000000000000000].map (decodeTableWord 768)) =
    [some (.callr 15 3),
      some (.ret 15),
      some (.loop 1 3 0x30),
      some (.loopi 1 0x30 8),
      some (.lcget 3 2),
      some (.lcset 2 3),
      some (.lbreak 2),
      some (.fld 3 1 0x20 9 2 true),
      some (.fst 1 2 0x20 9 3),
      some (.fldx 3 1 2 0x20 0 1 false),
      some (.fstx 3 1 2 0x20 0 0),
      some (.crr 3 0x101),
      some (.crw 1 0x100),
      some (.crs 3 1 0x100),
      some (.crc 3 1 0x100),
      some (.stop),
      some (.yield),
      some (.sbar 0xE)] := by decide +kernel

/-- Words written out from the encoding tables of R65, R72, R352. -/
theorem word_controlRegister :
    ([0xE0A0802000000000000000210,
      0xE0A0802000000000000000211,
      0xE0A0802000000000000000218,
      0xE0A0802000000000000000300,
      0xE0A0802000000000000000400,
      0xE0A0802000000000000000423,
      0xE0A0802000000000000000425,
      0xE0A0802000000000000000431,
      0xE0A0802000000000000000501,
      0xE0A0802000000000000000506,
      0xE0A0802000000000000000607,
      0xE0A0802000000000000000608].map (decodeTableWord 768)) =
    [some (.folioDiagWrite 1),
      some (.repairPut 1),
      some (.folioInjectWrite 1),
      some (.hintModeWrite 1),
      some (.tduCtlWrite 1),
      some (.preCtlWrite 1),
      some (.planeLoad 1),
      some (.viLogWrite 1),
      some (.xlateInval 1),
      some (.frameSelect 1),
      some (.powerLimitWrite 1),
      some (.thermLimitWrite 1)] := by decide +kernel

/-- Words written out from the encoding tables of R113, R114. -/
theorem word_memory :
    ([0xE4804910001CA110000000040,
      0xE4808110604CA0A0000000040,
      0xE48151100020AE08200000040,
      0xE48181150004A000100000040,
      0xE48251106008A608000000040,
      0xE48281107408A000000000040,
      0xE4835115200CA000800000040,
      0xE4838115354CBE08000000040,
      0xE48451100000A150200000040,
      0xE48481150000A1A0000000040,
      0xE485011000000001000000040,
      0xE48581100000A000000000040,
      0xE48581100000A000800000040,
      0xE48581100000A001000000040,
      0xE4860000000000F0000000021,
      0xE4868710800CA130800000040,
      0xE48701108020A003800000040,
      0xE487871082D0A060000000040,
      0xE48801150000A000300000925,
      0xE488880000000000000000009,
      0xE488D00000000000800000009].map (decodeTableWord 768)) =
    [some (.ld (.a 4) .n32 { base := 2, disp := 0x40, oc := 5, fl := .acq, scope := .die }),
      some (.st (.s 3) .i64 { base := 2, disp := 0x40, oc := 5, fl := .rel, scope := .core }),
      some (.vld 40 .f32 2 { mem := { base := 2, disp := 0x40, oc := 5, fl := .none, scope := .strand }, folio := true, mask := some 3 }),
      some (.vst 40 .i8 1 { mem := { base := 2, disp := 0x40, oc := 5, fl := .none, scope := .strand }, folio := false, mask := none }),
      some (.vlds 40 3 .i16 { mem := { base := 2, disp := 0x40, oc := 5, fl := .none, scope := .strand }, folio := true, mask := some 1 }),
      some (.vsts 3 40 .i16 { mem := { base := 2, disp := 0x40, oc := 5, fl := .none, scope := .strand }, folio := false, mask := none }),
      some (.vgath 40 41 .i32 true { mem := { base := 2, disp := 0x40, oc := 5, fl := .none, scope := .strand }, folio := false, mask := none }),
      some (.vscat 41 42 .i64 false { mem := { base := 2, disp := 0x40, oc := 5, fl := .none, scope := .strand }, folio := true, mask := some 7 }),
      some (.tldv 40 2 { base := 2, disp := 0x40, oc := 5, fl := .acq, scope := .pkg } none),
      some (.tsta 40 0 { base := 2, disp := 0x40, oc := 5, fl := .rel, scope := .dom } none),
      some (.pref .wr 2 0x40),
      some (.cmoWb 2 0x40 5),
      some (.cmoWbinv 2 0x40 5),
      some (.cmoZero 2 0x40 5),
      some (.fence .quad .full 0x21),
      some (.atom .min 3 4 .i32 { base := 2, disp := 0x40, oc := 5, fl := .full, scope := .die }),
      some (.atomn .fadd 4 .f32 { base := 2, disp := 0x40, oc := 5, fl := .none, scope := .strand }),
      some (.cas 3 4 5 .n64 { base := 2, disp := 0x40, oc := 5, fl := .rel, scope := .ctx }),
      some (.duct 9 2 40 5 2 3 5),
      some (.dcol (.s 4) 9),
      some (.dcol (.v 40) 9)] := by decide +kernel

/-- Words written out from the encoding tables of R137. -/
theorem word_system :
    ([0xE400000000000000000001234,
      0xE400800000000000000000000,
      0xE401060000000000200000000,
      0xE401801800000000100000000,
      0xE402072000000000000000000,
      0xE402072000000000100000000,
      0xE402072000000000200000000,
      0xE402072000000000300000000,
      0xE402072000000000400000000,
      0xE4028720A0000000300000ABC,
      0xE403001800000000000000000,
      0xE403862000000000000000000,
      0xE404001800000000000000000,
      0xE404801880000000000000000,
      0xE405001800000000000000000,
      0xE405862000000000000000000,
      0xE406072000000000000000000,
      0xE4068620A0000000000000000,
      0xE407062000000000000000000,
      0xE407862000000000000000000,
      0xE407862000000000100000000,
      0xE407862000000000200000000,
      0xE407862000000000300000000,
      0xE4080720A000E000000000000,
      0xE4088720A000E000000000000].map (decodeTableWord 768)) =
    [some (.trap 0x1234),
      some (.tret),
      some (.bkr 3 .addr),
      some (.bkw 3 .ret),
      some (.pgsvcTouch 3 4),
      some (.pgsvcAlloc 3 4),
      some (.pgsvcPin 3 4),
      some (.pgsvcUnpin 3 4),
      some (.pgsvcQuery 3 4),
      some (.hset 3 4 5 3 0xABC),
      some (.hfree 3),
      some (.hqry 3 4),
      some (.tkset 3),
      some (.curset 3 4),
      some (.rseed 3),
      some (.kzero 3 4),
      some (.blot 3 4),
      some (.blwait 3 4 5),
      some (.wfe 3 4),
      some (.ctxctlSoft 3 4),
      some (.ctxctlHalt 3 4),
      some (.ctxctlKill 3 4),
      some (.ctxctlResume 3 4),
      some (.ctxsv 3 4 5 7),
      some (.ctxld 3 4 5 7)] := by decide +kernel

/-- Words written out from the encoding tables of R200. -/
theorem word_synchronisation :
    ([0xE700060080000000000000011,
      0xE700800000000001000000511,
      0xE701640080000000000000011,
      0xE701860080000000000000011,
      0xE702062000000000000000000,
      0xE702862000000000000000000,
      0xE703062000000000000000000,
      0xE703862000000140000000000,
      0xE703862000000001000000000,
      0xE7040910C3D0A113000000040,
      0xE7048910C01CA120000000040,
      0xE7050620A0000000000000F06,
      0xE705860000000000000000006,
      0xE706060000000000000000006].map (decodeTableWord 768)) =
    [some (.semsig 3 0x11 (.reg 4)),
      some (.semwait 0x11 (.imm 5)),
      some (.semtry 2 0x11 (.reg 4)),
      some (.semset 3 4 0x11),
      some (.barr 3 4),
      some (.bwait 3 4),
      some (.btry 3 4),
      some (.bmembJoin 3 4 .pkg),
      some (.bmembLeave 3 4),
      some (.waddr .geu true 4 6 7 { base := 2, disp := 0x40, oc := 5, fl := .acq, scope := .die }),
      some (.wake false 4 6 { base := 2, disp := 0x40, oc := 5, fl := .rel, scope := .die }),
      some (.qbind 3 4 5 6 15),
      some (.qunbind 3 6),
      some (.qdepth 3 6)] := by decide +kernel

/-- Words written out from the encoding tables of R251, R300, R307. -/
theorem word_task :
    ([0x400000006400000701000005020000000EE8000000000A130200000000,
      0x400000006400000701000005020000000EE8088084180A121000000000,
      0x400000006400000701000005020000000EE8100084180A031000000000,
      0x400000006400000701000005020000000EE0408084180A140000000000000000400000006400000701000005020000000EE8100084180A0B1000000000,
      0x400000006400000701000005020000000ED80143504006080000000000000000400000006400000701000005020000000EE0488084180A1C000000000B000000400000006400000701000005020000000EE8088084180A1A3000000000,
      0xE681860000000020000000000,
      0xE681860000000021000000000,
      0xE682001800000000000000000,
      0xE682860000000000000000000,
      0xE682874000000001000000011,
      0xE682860000000002000000000,
      0xE68307200000A000000000040,
      0xE6838620A0000000000000000,
      0xE683862000000001000000000,
      0xE684062000000000000000000,
      0xE684062000000001000000000,
      0xE684862000000000000000000,
      0xE685062000000000000000000,
      0x400000006400000701000005020000000ED80143504006080000000000,
      0xE580860000000000000000002,
      0x400000006400000701000005020000000EE0408084180A140000000000,
      0x400000006400000701000005020000000ED80143504006080000000000000000400000006400000701000005020000000EE0488084180A1C000000000B].map (decodeTableWord 768)) =
    [some (.tsem .ce 3 5 true { budget := 64, tickets := 100, scount := 7, ssem := 1, wcount := 5, wsem := 2 }),
      some (.cpy { a := 1, b := 2, c := 3, d := 4, dir := .f2m, ch := 2, oc := 5, bar := true, crc := false, task := { budget := 64, tickets := 100, scount := 7, ssem := 1, wcount := 5, wsem := 2 }, fo := none }),
      some (.cpyo { a := 1, b := 2, c := 3, fol := true, ch := 3, oc := 5, bar := false, task := { budget := 64, tickets := 100, scount := 7, ssem := 1, wcount := 5, wsem := 2 }, fo := none }),
      some (.cpyo { a := 1, b := 2, c := 3, fol := true, ch := 3, oc := 5, bar := false, task := { budget := 64, tickets := 100, scount := 7, ssem := 1, wcount := 5, wsem := 2 }, fo := some { cmd := { a := 1, b := 2, c := 3, d := 4, oc := 5, bar := true, chk := true, zero := false, ka := false, task := { budget := 64, tickets := 100, scount := 7, ssem := 1, wcount := 5, wsem := 2 }, epi := none }, tag := none } }),
      some (.cpy { a := 1, b := 2, c := 3, d := 4, dir := .f2f, ch := 2, oc := 5, bar := true, crc := false, task := { budget := 64, tickets := 100, scount := 7, ssem := 1, wcount := 5, wsem := 2 }, fo := some { cmd := { a := 1, b := 2, c := 3, d := 4, oc := 5, bar := true, chk := true, zero := false, ka := false, task := { budget := 64, tickets := 100, scount := 7, ssem := 1, wcount := 5, wsem := 2 }, epi := some { a := 6, list := 40, c := 8, d := 10, oc := 3, bar := false, crc := true, task := { budget := 64, tickets := 100, scount := 7, ssem := 1, wcount := 5, wsem := 2 } } }, tag := some 11 } }),
      some (.cwptrLand 3 2),
      some (.cwptrIss 3 2),
      some (.fwput 3),
      some (.bswap 3),
      some (.bswapOpen 3 40 17),
      some (.bswapClose 3),
      some (.launch 3 4 0x40 5),
      some (.graphOpen 3 4 5),
      some (.graphClose 3 4),
      some (.wphaseOpen 3 4),
      some (.wphaseClose 3 4),
      some (.cntr 3 4),
      some (.cancel 3 4),
      some (.chain { a := 6, list := 40, c := 8, d := 10, oc := 3, bar := false, crc := true, task := { budget := 64, tickets := 100, scount := 7, ssem := 1, wcount := 5, wsem := 2 } }),
      some (.chpop 3 2),
      some (.mma { a := 1, b := 2, c := 3, d := 4, oc := 5, bar := true, chk := true, zero := false, ka := false, task := { budget := 64, tickets := 100, scount := 7, ssem := 1, wcount := 5, wsem := 2 }, epi := none }),
      some (.qmma { a := 1, b := 2, c := 3, d := 4, oc := 5, bar := true, chk := true, zero := false, ka := false, task := { budget := 64, tickets := 100, scount := 7, ssem := 1, wcount := 5, wsem := 2 }, epi := some { a := 6, list := 40, c := 8, d := 10, oc := 3, bar := false, crc := true, task := { budget := 64, tickets := 100, scount := 7, ssem := 1, wcount := 5, wsem := 2 } } } 11)] := by decide +kernel

/-- Words written out from the encoding tables of R288, R289. -/
theorem word_vector_1 :
    ([0xE500514D40040E04000000000,
      0xE500D14D40200000000000000,
      0xE501514D40200E00000000000,
      0xE501D14D400C0E00000000000,
      0xE502514D40200E00000000000,
      0xE502D14D40200E00000000000,
      0xE503514D40200E00000000000,
      0xE503D14800040E04000000000,
      0xE504514800200E00000000000,
      0xE504D14D55A00E08000000000,
      0xE505514D40040E00000000000,
      0xE505D14D40140E00000000000,
      0xE508514D40040E00000000000,
      0xE508D14D40040E00000000000,
      0xE509514D40040E00000000000,
      0xE509D14D400C0E00000000000,
      0xE50A5148000C0E0400000001F,
      0xE50AD14D400C0E00000000000,
      0xE50B5148000C0E04000000000,
      0xE5100B4D40200E08000000000,
      0xE510D14D40200E00000000000,
      0xE511021060000004000000000,
      0xE511821060000008000000000,
      0xE512021060000000000000000,
      0xE5128C1000200000000000000,
      0xE5130C1000200000000000000,
      0xE513843000000000000000000,
      0xE5185360184A01C1000000051,
      0xE5200D4800200E00000000000,
      0xE5208D4800200E00000000000].map (decodeTableWord 768)) =
    [some (.vadd 40 41 42 .i8 true (some 3)),
      some (.vsub 40 41 42 .f32 false none),
      some (.vmul 40 41 42 .f32 (some 3)),
      some (.vmulh 40 41 42 .i32 (some 3)),
      some (.vdiv 40 41 42 .f32 (some 3)),
      some (.vmin 40 41 42 .f32 (some 3)),
      some (.vmax 40 41 42 .f32 (some 3)),
      some (.vabs 40 41 .i8 true (some 3)),
      some (.vneg 40 41 .f32 false (some 3)),
      some (.vfma .nma 40 41 42 43 .f32 (some 3)),
      some (.vaddw 40 41 42 .i8 (some 3)),
      some (.vmulw 40 41 42 .n8 (some 3)),
      some (.vand 40 41 42 .i8 (some 3)),
      some (.vor 40 41 42 .i8 (some 3)),
      some (.vxor 40 41 42 .i8 (some 3)),
      some (.vshl 40 41 (.reg 42) .i32 (some 3)),
      some (.vshr 40 41 (.imm 31) .i32 (some 3)),
      some (.vsar 40 41 (.reg 42) .i32 (some 3)),
      some (.vbit .clz 40 41 .i32 (some 3)),
      some (.vcmp .lt 5 41 42 .f32 (some 3)),
      some (.vsel 40 41 42 .f32 3),
      some (.mand 1 2 3 true false),
      some (.mor 1 2 3 false true),
      some (.mxor 1 2 3 false false),
      some (.mpop 6 2 .f32),
      some (.mfirst 6 2 .f32),
      some (.mset 2 6),
      some (.vcvt { d := 41, a := 44, scale := 48, td := .e2m1, ts := .f32, xd := true, xs := false, pol := .trap, sm := true, pn := 5, k := 1, mask := none }),
      some (.vrsum 6 41 .f32 (some 3)),
      some (.vrmax 6 41 .f32 (some 3))] := by decide +kernel

/-- Words written out from the encoding tables of R288, R289. -/
theorem word_vector_2 :
    ([0xE5210D4800200E00000000000,
      0xE528514800200E0C000000000,
      0xE530514D40200E00000000000,
      0xE530D14D43A00E00000000000,
      0xE531503000200E00000000000,
      0xE531D000C020000000000007F,
      0xE5320D480020000000000007F,
      0xE532D14D40200000000000000,
      0xE533515000200004000000000,
      0xE533D14800200E00000000000,
      0xE534514800200E00000000000,
      0xE534D16000000000000000002].map (decodeTableWord 768)) =
    [some (.vrmin 6 41 .f32 (some 3)),
      some (.vsf .exp2 40 41 .f32 (some 3)),
      some (.vperm 40 41 42 .f32 (some 3)),
      some (.vslide 40 41 42 7 .f32 (some 3)),
      some (.vbcast 40 6 .f32 (some 3)),
      some (.vins 40 6 .f32 127),
      some (.vext 6 41 .f32 127),
      some (.vzip 40 41 42 .f32),
      some (.vunzip 40 42 .f32 true),
      some (.vrev 40 41 .f32 (some 3)),
      some (.vcmpr 40 41 .f32 3),
      some (.vmov 40 44 2)] := by decide +kernel

/-- Words written out from the encoding tables of R307, R308. -/
theorem word_ligature :
    ([0xE6005148000C0004800501809,
      0xE600D14D40000004000000000,
      0xE601514D40000005000000000,
      0xE601D150000C0008800501809,
      0xE602000000000000C00000000].map (decodeTableWord 768)) =
    [some (.lpack 40 41 .i32 true { first := 5, stride := 3, count := 9, sw := 16 }),
      some (.ladd 40 41 42 true),
      some (.lmul 40 41 42 true 32),
      some (.lext 40 42 .i32 false true { first := 5, stride := 3, count := 9, sw := 16 }),
      some (.lgw 24)] := by decide +kernel

end Sys2Proof
end

