-- ==== Sys2Proof/Config.lean ====
section
/-! DEFINITION. What the spec leaves open: constants with no body, so that no proof can use a value of them.
Each is applied to the model's step counter `tick`, or to the operands its value may depend on. -/

namespace Sys2Proof.Config

/-- Cycles of cr.time that one step takes; the spec fixes no cycle counts (R87, log 3). -/
opaque cycles : Nat → Nat
/-- A choice between two behaviours the spec allows both of, at a step (log 4). -/
opaque choice : Nat → Nat → Bool
/-- Which of the machine's own moves a step makes where nothing in the agenda says: the spec orders agents only where a rule does (log 2). -/
opaque pick : Nat → Nat
/-- An undefined value of R8, at a step and a place within it (log 4). -/
opaque undefWord : Nat → Nat → BitVec 64
/-- Which entry of a group that differs a translation uses, at a step, for the entry walked to (R178, log 28). -/
opaque groupEntry : Nat → Nat → Nat
/-- Whether ATS refuses a host-tier machine address, at a step: the host's page tables are outside (R180, R394, log 74). -/
opaque atsRefuses : Nat → Nat → Bool
/-- The port by which traffic for another package leaves: the spec gives no routing (R407, log 14). -/
opaque route : Nat → Nat
/-- A field of the request in the payload of a flit of kind 1 to 4 or 7, whose layout the spec does not give (R407, log 62): by number, from the payload. -/
opaque flitField : Nat → List (BitVec 8) → BitVec 64
/-- The bytes that a write flit carries (R407, log 62). -/
opaque flitData : List (BitVec 8) → List (BitVec 8)
/-- Payload of the response to a request flit: the request's payload, its cause code or 0, the data (R407, log 62). -/
opaque flitReply : List (BitVec 8) → Nat → List (BitVec 8) → List (BitVec 8)
/-- Payload of a barrier flit: the group and what is told of it (R244, R407, log 62). -/
opaque flitBarrier : Nat → List Nat → List (BitVec 8)
/-- What the MSI-X pending bits of a virtual interface or port read as, which the spec does not lay out (R395, log 75). -/
opaque msixPending : Nat → Nat → BitVec 64
/-- A byte left undefined by an overlapping transfer (R253, R304). -/
opaque undefByte : Nat → Nat → BitVec 8
/-- The data address of a fault that has escalated, where only its code is given (log 114). -/
opaque nestAddr : Nat → BitVec 64
/-- FP32 result of a special function where R298 gives only an error bound. -/
opaque specFn : SpecFn → BitVec 32 → BitVec 32
/-- KMAC256 under the context-image key, which no agent can read (R364, R420). -/
opaque imageTag : List (BitVec 8) → BitVec 256
/-- The key-wrap key of the root of trust, which no agent can read (R415, R420). -/
opaque wrapKey : BitVec 256
/-- The tag that a write of a page without encryption leaves with a sector: MA[51:6] and the 64 bytes (R412, R414, log 67). -/
opaque plainTag : Nat → List (BitVec 8) → BitVec 64
/-- Mean link-queue depth Q from die h to die x over an epoch (R186). -/
opaque linkDepth : Nat → Nat → Nat → BitVec 8
/-- Whether a non-volatile image of a kind passes every check of R419. -/
opaque imageAccepted : BitVec 8 → Bool
/-- Security version of the running image of a kind (R419). -/
opaque runningSvn : BitVec 8 → BitVec 32
/-- Body digest of the image of a kind (R419, R420). -/
opaque imageDigest : BitVec 8 → BitVec 512
/-- SHAKE256 digest of the repair store (R420). -/
opaque repairDigest : List (BitVec 64) → BitVec 512
/-- Reply of the SPDM responder to a request (R420). -/
opaque spdmReply : Nat → List (BitVec 8) → List (BitVec 8) → List (BitVec 8)
/-- Entry address of the boot march code in the housekeeping image (R76, R111). -/
opaque marchEntry : BitVec 64
/-- Machine address of a backing block that firmware reserves for a core and pool entry (R111, R354). -/
opaque poolBlock : Nat → Nat → BitVec 64

end Sys2Proof.Config
end

