-- ==== Sys2Proof/Machine/Store.lean ====
section
/-! DEFINITION. Sparse stores: lists of (key, value) pairs with keys strictly rising.
`put` keeps the canonical form (no entry equal to the default); `set` keeps the order only. -/

namespace Sys2Proof.Machine

/-- A sparse store: keys strictly rising. -/
abbrev SMap (α : Type) := List (Nat × α)

namespace SMap

/-- The value at a key, the default where no entry names it. -/
def get {α : Type} (d : α) : SMap α → Nat → α
  | [], _ => d
  | (k, v) :: m, i => if i = k then v else get d m i

/-- The entry at a key. -/
def find {α : Type} : SMap α → Nat → Option α
  | [], _ => none
  | (k, v) :: m, i => if i = k then some v else find m i

/-- Remove a key, wherever it stands. -/
def erase {α : Type} : SMap α → Nat → SMap α
  | [], _ => []
  | (k, v) :: m, i => if i = k then erase m i else (k, v) :: erase m i

/-- Set a key, keeping the keys in order. -/
def set {α : Type} : SMap α → Nat → α → SMap α
  | [], i, x => [(i, x)]
  | (k, v) :: m, i, x => if i < k then (i, x) :: (k, v) :: m else if i = k then (k, x) :: m else (k, v) :: set m i x

/-- Write a value; the default removes the entry. -/
def put {α : Type} [DecidableEq α] (d : α) (m : SMap α) (i : Nat) (x : α) : SMap α := if x = d then erase m i else set m i x

/-- Keys strictly rising from a lower bound, no value equal to the default. -/
def wfFrom {α : Type} [DecidableEq α] (d : α) : Nat → SMap α → Bool
  | _, [] => true
  | lo, (k, v) :: m => decide (lo ≤ k) && decide (v ≠ d) && wfFrom d (k + 1) m

/-- The canonical form of a store. -/
def wf {α : Type} [DecidableEq α] (d : α) (m : SMap α) : Bool := wfFrom d 0 m

/-- Apply a function to every value. -/
def mapVals {α : Type} (f : α → α) (m : SMap α) : SMap α := m.map fun e => (e.1, f e.2)

end SMap

end Sys2Proof.Machine
end

