-- ==== Sys2Proof/Machine/State.lean ====
section
/-! DEFINITION. The state of the OZ-9416: everything the spec gives the machine, as plain data. -/

namespace Sys2Proof.Machine

/-- Reasons the machine stops with a fault. There is none on this hardware: strand faults are next states (R154), and a part without
core power takes steps that only a power-on reset ends (R423). -/
inductive Fault where
  /-- Raised by no meaning: kept so that a stop of the spec's own would have a name. Safe. -/
  | stuck
  deriving DecidableEq, Repr

/-- Reasons the model refuses. -/
inductive Refusal where
  /-- Raised by an arm of `exec` whose instruction has no meaning yet. Safe: nothing can be proved of it. -/
  | notModelled (mnemonic : String)
  deriving DecidableEq, Repr

/-! ## Strands -/

/-- One bank of the trap-level stack (R154-R157). -/
structure Bank where
  cause : Word := 0
  ret : Word := 0
  addr : Word := 0
  force : Bool := false
  out : Bool := false
  deriving DecidableEq, Repr

/-- Why a strand does not issue, with what the wait needs to complete (R81, R201). -/
inductive Wait where
  /-- Held without effect; the instruction is tried again (a full queue, a page or leaf not resident, a held byte). -/
  | retry
  | sbar (mask : BitVec 4)
  | sem (sem k : Nat)
  | barrier (d : SReg) (group : Nat) (gen : BitVec 32)
  | addr (owner : Nat) (stamp : Nat) (d : SReg)
  | event (d : SReg) (deadline : Option Nat)
  | blot (d : SReg) (job : Nat) (deadline : Option Nat)
  /-- TLDV between attempts: its operands, the attempts made, the version seen and when (R124). -/
  | tldv (d : VNum) (sz : Fin 3) (t : Word) (mask : Option MNum) (attempt : Nat) (seen : Word) (since : Nat)
  | swap (d : SReg) (reopen : Bool)
  | chpop (d : SReg) (port : Fin 4)
  | unbind (d : SReg) (q : Fin 8)
  deriving DecidableEq, Repr

/-- An operand-reuse latch: slot, the register it was read from and its value (R86). -/
structure Latch where
  slot : Nat
  reg : RegRef
  val : VecWord
  deriving DecidableEq, Repr

/-- An issued instruction whose result may not have landed (R85, R87, R88): what it reads and writes, its queue and write scoreboard,
the cycle by which its bound has passed, and the step that issued it. In trusted mode `vals` are the 32-bit elements it writes, which the
register file does not hold yet; in checked mode nothing can see a result late, and the file holds it. -/
structure Flight where
  reads : List RegRef
  writes : List RegRef
  vals : List (RegRef × Nat × BitVec 32) := []
  sb : Nat
  due : Option Nat
  queue : Queue
  at_ : Nat
  deriving DecidableEq, Repr

/-- How far an instruction ahead of its turn has come (R92-R94): begun, its results and effects kept back for its turn, since an older instruction may
still trap; issued, with all its effects; or, of a routed store, only its address generated. -/
inductive AheadKind where
  | held | made | address
  deriving DecidableEq, Repr

/-- A younger instruction of a queue that runs ahead of another (R90, R92): how many instructions of program order stand before it, the elements
it writes when its turn comes, or for an address those it was generated from, the token bits to withdraw, the step it issued in. -/
structure Ahead where
  dist : Nat
  kind : AheadKind
  vals : List (RegRef × Nat × BitVec 32)
  tok : BitVec 4
  at_ : Nat
  deriving DecidableEq, Repr

/-- The tracer core's copy of a strand's registers (R98), as its difference (exclusive or) from them: zero where the two agree. -/
structure Tracer where
  s : Vector Word 32 := Vector.replicate 32 0
  a : Vector Word 16 := Vector.replicate 16 0
  p : BitVec 7 := 0
  lc : Vector (BitVec 32) 4 := Vector.replicate 4 0
  pc : Word := 0
  deriving DecidableEq, Repr

/-- The state of one strand (R42, R50, R60, R71, R85, R86, R91, R148, R154, R158). -/
structure Strand where
  present : Bool := false
  s : Vector Word 32 := Vector.replicate 32 0
  a : Vector Word 16 := Vector.replicate 16 0
  p : BitVec 7 := 0
  lc : Vector (BitVec 32) 4 := Vector.replicate 4 0
  loopStart : Vector Word 4 := Vector.replicate 4 0
  loopEnd : Vector Word 4 := Vector.replicate 4 0
  loopAge : Vector Nat 4 := Vector.replicate 4 0
  pc : Word := 0
  satf : Bool := false
  dof : Bool := false
  dzf : Bool := false
  dz : Bool := false
  level : Fin 3 := 0
  entry : Word := 0
  bank1 : Bank := {}
  bank2 : Bank := {}
  forced : Option Bool := none
  wait : Option Wait := none
  /-- Spilled leaves that the access it is to try again needs (R357). -/
  wants : List Nat := []
  stopped : Bool := false
  sbarCount : Nat := 0
  sbarArrived : Bool := false
  latch : Bool := false
  reasons : BitVec 4 := 0
  sb : Vector (BitVec 4) 7 := Vector.replicate 7 0
  ac : BitVec 4 := 0
  ca : BitVec 4 := 0
  cs : BitVec 4 := 0
  sc : BitVec 4 := 0
  latches : List Latch := []
  /-- Results in flight, oldest first, and the instructions issued last, newest first. -/
  flight : List Flight := []
  recent : List Flight := []
  /-- The first cycle of cr.time in which the next instruction may issue (R81 condition 3, R84). -/
  clock : Nat := 0
  /-- A YIELD has given up the next turn (R80). -/
  yielded : Bool := false
  /-- Tokens of a wait instruction that has issued and not completed: its pops are made, its pushes are not (R91). -/
  owed : Option (Queue × BitVec 4) := none
  /-- A wait instruction that is an acquire at domain scope has issued and not completed (R234). -/
  domAcquire : Bool := false
  /-- Instructions issued ahead, in program order (R92). -/
  ahead : List Ahead := []
  /-- The tracer's copy of the registers (R98). -/
  tracer : Tracer := {}
  mismatchAt : Option Word := none
  xlateTarget : BitVec 12 := 0
  curSel : BitVec 12 := 0
  ctxSelV : Bool := false
  ctxSel : BitVec 16 := 0
  viSel : BitVec 9 := 0
  keySel : BitVec 11 := 0
  keyProt : Bool := false
  keyBad : Bool := false
  keySrc : Word := 0
  deriving DecidableEq, Repr

/-! ## Tasks, phases, queues -/

/-- A memory endpoint resolved through its handle, or a folio offset (R253). -/
inductive Place where
  | mem (va : Word) (index : Nat) (gen : BitVec 8)
  | fol (off : Word)
  deriving DecidableEq, Repr

/-- The command of a task with the operand values it was accepted with (R248, R301). -/
inductive Cmd where
  | null
  | copy (src dst : Place) (dstOperand : Word) (rowLen rows srcStride dstStride : Nat) (crc : Bool)
  | copyO (src : Place) (slot len : Nat)
  | matrix (a : Place) (aPort : Option Nat) (slot : Nat) (c : Word) (stride : Nat) (chk zero : Bool) (tag : Option (Fin 16))
  | chain (list : VecWord) (a b d : Place) (crc : Bool)
  deriving DecidableEq, Repr

/-- Task states of R249. -/
inductive TaskState where
  | queued | waiting | ready | running | done
  deriving DecidableEq, Repr

/-- A translated byte (R181): its machine key, the key slot of an encrypted page, the owner die and address space, the keys
of the two leaf entries with their values, and whether the page is resident or host-direct. -/
structure Xl where
  key : Nat
  enc : Option Nat
  owner : Nat
  asid : BitVec 12
  off : Nat
  hkey : Nat
  hent : Word
  tkey : Nat
  tent : Word
  resident : Bool
  /-- The die whose margin cache may hold a copy of the byte's line: for a read-mostly page of another package, the agent's (R234); the access
  reads at the home all the same (R124, R130, R210); the partition it is made for (R404). -/
  via : Option Nat := none
  home : Bool := false
  part : Option (Fin 16) := none
  deriving DecidableEq, Repr

/-- What an abort holds the tasks of a phase for: a class D event not delivered yet, the TRET of the strand it was delivered to
(R162), a page to become resident, with the task whose access missed it (R168, R170), or a leaf (R357). -/
inductive Hold where
  | pending
  | strand (i : Nat)
  | page (va : Word) (task : Nat)
  | leaf (l : Nat)
  deriving DecidableEq, Repr

/-- A phase of a context: one that BSWAP opened, or a task's own (R165, R250). -/
inductive PhaseId where
  | opened (n : Nat)
  | own (num : Nat)
  deriving DecidableEq, Repr

/-- The operand bytes that a matrix command has taken into its engine, row by row: A, the scales of A, the columns of B, their scales (R379). -/
structure Stage where
  a : List (List Byte)
  sa : List (List Byte)
  b : List (List Byte)
  sb : List (List Byte)
  deriving DecidableEq, Repr

/-- An entry of an engine queue (R247-R250). `num` counts acceptances in the context. A done task stays listed until its
signal is performed and its phase has committed; it no longer occupies a place (log 15). -/
structure Task where
  num : Nat
  strand : Nat
  cmd : Cmd
  /-- The command as issued with its operand values A, B, C, D, for the queue entries of a context image (R363). -/
  op : Instr := .nop
  vals : List Word := []
  oc : Fin 16
  word : TaskWord
  bar : Bool
  st : TaskState := .queued
  /-- The open phase the task belongs to; none for a phase of its own (R250). -/
  phase : Option Nat := none
  /-- The command whose own phase it belongs to: itself, or the first of its pair (R250, R257, R321). -/
  lead : Nat := 0
  /-- Its phase has committed or been discarded. -/
  committed : Bool := false
  /-- For a phase of its own: what holds it, and its consecutive aborts (R171). -/
  hold : Option Hold := none
  run : Nat := 0
  waited : Bool := false
  signalled : Bool := false
  /-- A started task keeps its progress through a release (R344). -/
  started : Bool := false
  stalled : Bool := false
  /-- The command it follows: its copy, or its matrix product (R257, R321). -/
  after : Option Nat := none
  fmt : Option Word := none
  /-- The value popped from a bound queue by this run (R213, R327). -/
  popped : Option Word := none
  /-- The port it pushes to was bound when it started (R215). -/
  pushes : Bool := false
  since : Nat := 0
  startAt : Nat := 0
  /-- Compensation numerator and denominator pending for the next win (R345). -/
  comp : Option (Nat × Nat) := none
  /-- It won its draw with a value doubled by its tenant's repayment account (R345). -/
  repaid : Bool := false
  /-- Memory bytes held until the phase commits (R166): translated byte and value, oldest first. -/
  stores : List (Xl × Byte) := []
  /-- Frames the transfer holds: die, frame base, size code; the translations it started with, by 4 KiB (R188). -/
  holds : List (Nat × Nat × Nat) := []
  pages : List (Word × Xl) := []
  /-- Logical leaves in flight for the task (R355). -/
  leafs : List Nat := []
  /-- A joint product past its write instant completes at once when replayed (R385). -/
  written : Bool := false
  /-- Progress of WP made by this transfer before an abort (R256). -/
  landed : Nat := 0
  /-- What this run has done, as its release points count it: bytes landed, rows of a chain, blocks of the K loop (R256, R344); when it last moved on. -/
  progress : Nat := 0
  movedAt : Nat := 0
  /-- Values of the rows a chain has done, as FP32, and the operands a matrix command has taken in (R304, R344, R379). -/
  acc : List (BitVec 32) := []
  stage : Option Stage := none
  /-- Budget cap and stall limit in cycles, as they stood at the draw it won (R344, R352). -/
  cap : Nat := 65536
  lim : Nat := 4096
  /-- CRCs of the rows it holds: place in `stores`, bytes, CRC-32C of the row as read (R254). -/
  sums : List (Nat × Nat × BitVec 32) := []
  /-- Bit errors that strike bytes of rows yet to be formed, by place in `stores` (R381). -/
  hits : List (Nat × Byte) := []
  /-- It has won the draw of this step, or its joint has, and starts in a later cycle (R334, R349). -/
  won : Option Nat := none
  /-- cr.time at which an abort stopped it while it ran (R164). -/
  stoppedAt : Option Nat := none
  deriving DecidableEq, Repr

/-- A front and back leaf with the back leaf's mode (R165, R259). -/
structure LeafPair where
  front : Nat
  back : Nat
  copy : Bool
  deriving DecidableEq, Repr

/-- The open phase of a context (R165, R259). -/
structure Phase where
  num : Nat
  pairs : List LeafPair
  /-- A swap or close that waits for the commit: its strand, and whether a new phase opens. -/
  committing : Option (Nat × Bool) := none
  hold : Option Hold := none
  /-- Consecutive aborts (R171). -/
  run : Nat := 0
  deriving DecidableEq, Repr

/-- States of a bound-queue entry (R213). -/
inductive EntryState where
  | held | ready | taken
  deriving DecidableEq, Repr

/-- An entry of a bound queue: value, state, and the context and phase that holds or has taken it. -/
structure QEntry where
  val : Word
  st : EntryState
  who : Nat × PhaseId
  deriving DecidableEq, Repr

/-- An endpoint of a bound queue (R212). -/
structure EndPt where
  core : Nat
  slot : Nat
  eng : Fin 3
  port : Fin 4
  deriving DecidableEq, Repr

/-- A bound operand queue (R212-R215). -/
structure BoundQ where
  prod : EndPt
  cons : EndPt
  depth : Nat
  entries : List QEntry := []
  closing : Bool := false
  deriving DecidableEq, Repr

/-- A result element in a vector result port (R305); `held` names the phase that has not committed. -/
structure PortElem where
  val : Word
  held : Option Nat := none
  deriving DecidableEq, Repr

/-- A ductus slot (R133, R134, R194): the core and slot its chain was issued from, and the final load's length. -/
structure DuctSlot where
  busy : Bool := false
  core : Nat := 0
  slot : Nat := 0
  len : Nat := 0
  result : Bool := false
  seq : BitVec 16 := 0
  start : Word := 0
  at_ : Nat := 0
  strand : Nat := 0
  oc : Fin 16 := 0
  /-- An acquire of the issuing strand has come after it: no later access performs before it returns (R116, R204, R209). -/
  fenced : Bool := false
  p : Word := 0
  status : Word := 0
  data : List Byte := []
  deriving DecidableEq, Repr

/-- A class D event that waits for delivery (R162). -/
structure PendD where
  strand : Nat
  cause : Word
  addr : Word
  phase : PhaseId
  deriving DecidableEq, Repr

/-! ## Contexts -/

/-- One logical leaf: its physical leaf, or spilled to its backing; pinned (R353-R355). -/
structure Leaf where
  phys : Option Nat
  pinned : Bool := false
  deriving DecidableEq, Repr

/-- Rungs of the ladder, as STATE of cr.pre.stat reads them (R370). -/
inductive Rung where
  | running | soft | halting | halted | shadowed
  deriving DecidableEq, Repr

/-- Intents in rising rank (R358). -/
inductive Intent where
  | preempt | halt | cancel | kill
  deriving DecidableEq, Repr

/-- How a sector of HBM was last written (R412, R414). -/
structure Sector where
  clean : Bool := false
  /-- Keys the sector was written under; none for plain. -/
  keys : Option (BitVec 768) := none
  badTag : Bool := false
  deriving DecidableEq, Repr

/-- The state of one context, resident or shadowed. -/
structure Ctx where
  uid : Nat
  strands : Vector Strand 4 := Vector.replicate 4 {}
  v : SMap VecWord := []
  m : SMap MaskWord := []
  sem : SMap (BitVec 32) := []
  /-- Strand waiters in arrival order: semaphore, strand, count (R203). -/
  semq : List (Nat × Nat × Nat) := []
  /-- Counters that a store of the diagnostic view has changed last, with the tasks that waited on each: it wakes no waiter (R73). -/
  quiet : List (Nat × List Nat) := []
  /-- Corrected errors of the semaphore file still to be counted at the die (R105). -/
  fixed : Nat := 0
  /-- Memory as its launch record was acquired, which its fetches read (R40). -/
  code : Option (SMap Byte × SMap Sector) := none
  launch : Nat := 0
  unit : Nat := 0
  units : Nat := 1
  nstrands : Nat := 1
  priv : Fin 3 := 0
  part : Fin 16 := 0
  asid : BitVec 12 := 0
  job : Nat := 0
  vi : Option Nat := none
  prot : Bool := false
  housekeeping : Bool := false
  currency : BitVec 12 := 1
  tickets : BitVec 32 := 1
  budget : BitVec 32 := 65536
  seed : Word := 0
  admitted : Bool := false
  refused : Bool := false
  bound : BitVec 32 := 0
  /-- Share of an admitted context on the ligature and vector engines and on the copy engine, in 1/256 (R347). -/
  share : Nat × Nat := (0, 0)
  oob : Word := 0
  /-- The cycle of the access that cr.folio.oob records, and its place in the order of that cycle (R104). -/
  oobAt : Nat × Nat := (0, 0)
  diag : Bool := false
  trusted : Bool := false
  tokm : BitVec 32 := 0
  regm : BitVec 32 := 0
  tracerCmp : Word := 0
  seqNo : BitVec 32 := 0
  last : BitVec 8 := 0
  run : BitVec 4 := 0
  failed : Bool := false
  aborts : BitVec 16 := 0
  limit : BitVec 4 := 4
  handleBase : Word := 0
  ligTrap : Bool := true
  ligGf : Bool := false
  ligGw : BitVec 7 := 16
  fetchV : Bool := false
  fetchRows : BitVec 8 := 0
  /-- Rows kept by a remote fetch, and the task they belong to (R322). -/
  fetchTask : Nat := 0
  fetchBytes : List Byte := []
  leaves : List Leaf := []
  opslots : List Nat := []
  block : Word := 0
  plane : Bool := false
  /-- Engine queues LE, VE, copy channels 0-3, oldest first (R247). -/
  queues : Vector (List Task) 6 := Vector.replicate 6 []
  nextTask : Nat := 0
  fwq : List Word := []
  it : Vector Word 4 := Vector.replicate 4 0
  wp : Vector Word 4 := Vector.replicate 4 0
  phase : Option Phase := none
  nextPhase : Nat := 0
  ports : Vector (List PortElem) 4 := Vector.replicate 4 []
  popq : List (Nat × Nat) := []
  boundQs : SMap BoundQ := []
  ducts : Vector DuctSlot 16 := Vector.replicate 16 {}
  pendD : List PendD := []
  /-- The abort that struck last: time, phase, code, class D (R164). -/
  struck : Option (Nat × PhaseId × Nat × Bool) := none
  rung : Rung := .running
  intent : Option Intent := none
  graceAt : Option Nat := none
  killAt : Option Nat := none
  swaps : BitVec 16 := 0
  haltab : BitVec 16 := 0
  /-- Vector and mask registers, and 64-bit words of the semaphore file (two counters each), with an uncorrectable error (R413). -/
  vPoison : List Nat := []
  mPoison : List Nat := []
  semPoison : List Nat := []
  /-- Single-bit errors that ECC corrects in those files: place of the byte and bit (R105, R411). -/
  flips : List (Nat × Nat) := []
  /-- Order of swap-out, for the swap-in of R362. -/
  swapOrder : Nat := 0
  deriving DecidableEq, Repr

/-! ## Cores -/

/-- State of a backing-pool entry (R354). -/
inductive PoolState where
  | empty | free | inuse
  deriving DecidableEq, Repr

/-- A backing-pool entry. -/
structure PoolEntry where
  st : PoolState := .empty
  ma : Word := 0
  deriving DecidableEq, Repr

/-- A task draw unit (R339, R346). -/
structure Tdu where
  x : Word
  y : Word
  cnt : Word := 0
  deriving DecidableEq, Repr

/-- Who asks for physical leaves (R356): a unit that is to be placed, a spilled leaf of a context that is to come back, or a strand's
CTXLD or pin. -/
inductive LeafReq where
  | place (launch unit : Nat)
  | reload (uid leaf : Nat)
  | load (uid strand : Nat)
  deriving DecidableEq, Repr

/-- A physical leaf drawn for a spill whose contents have not reached their backing yet: the block and logical leaf they belong to, and the request it was
drawn for (R356, R357). -/
structure Spill where
  phys : Nat
  block : Word
  leaf : Nat
  who : Option LeafReq := none
  deriving DecidableEq, Repr

/-- What a killed protected context left, held for the blotter (R388). -/
structure HeldCtx where
  slot : Nat
  shadow : Option Nat
  leaves : List Nat
  opslots : List Nat
  block : Word
  /-- A blotter unit has scrubbed it (R389). -/
  scrubbed : Bool := false
  deriving DecidableEq, Repr

/-- The state of one core. -/
structure Core where
  /-- The slot each issue cluster served last (R80); at reset 3, so that slot 0 comes first (log 97). -/
  served : Vector Nat 4 := Vector.replicate 4 3
  slots : SMap Ctx := []
  shadows : SMap Ctx := []
  /-- Vector registers of empty slots, seen by the diagnostic view: slot × 64 + register (R73). -/
  idleV : SMap VecWord := []
  /-- Counters of empty slots, seen by the diagnostic view: slot × 256 + semaphore. -/
  idleSem : SMap (BitVec 32) := []
  /-- Folio bytes by bank-linear offset (R101, R102). -/
  folio : SMap Byte := []
  /-- Folio words with an uncorrectable error, by bank-linear offset / 8 (R413). -/
  folioPoison : List Nat := []
  /-- Folio bits that an error has inverted, which ECC corrects one of in a word: bank-linear offset and bit (R105, R106, R411). -/
  flips : List (Nat × Nat) := []
  /-- Operand-folio bytes by physical slot × 8192 + byte (R378). -/
  opfolio : SMap Byte := []
  /-- Operand-folio words with an uncorrectable error, by byte / 8 (R411, R413). -/
  opPoison : List Nat := []
  inject : Word := 0
  repair : List Word := []
  remap : List Word := []
  applied : BitVec 8 := 0
  unrep : Bool := false
  repairSel : BitVec 4 := 0
  done : Bool := false
  fail : Bool := false
  ovf : Bool := false
  semok : Bool := false
  vecok : Bool := false
  folok : Bool := false
  resetCause : BitVec 3 := 1
  zeroising : Bool := true
  fenced : Bool := false
  tdu : Vector Tdu 3 := Vector.replicate 3 { x := 0x9E3779B97F4A7C15, y := 0xD1B54A32D192ED03 }
  stall : BitVec 16 := 64
  bcap : BitVec 32 := 65536
  shlim : BitVec 8 := 224
  lanes : BitVec 3 := 1
  pool : Vector PoolEntry 12 := Vector.replicate 12 {}
  poolSel : BitVec 4 := 0
  grace : BitVec 32 := 40000
  killt : BitVec 32 := 400000
  planeA : SMap Word := []
  planeB : SMap Word := []
  activeB : Bool := false
  planeGen : BitVec 32 := 0
  planeStatus : BitVec 2 := 0
  held : List HeldCtx := []
  spills : List Spill := []
  rasSdcTrace : BitVec 16 := 0
  rasSdcMath : BitVec 16 := 0
  rasSdcStore : BitVec 16 := 0
  /-- Leaf requests that wait because the inverse draw had no candidate (R356), and physical leaves given to a request that has not taken them (R357). -/
  drawWaits : List LeafReq := []
  given : List (Nat × LeafReq) := []
  deriving DecidableEq, Repr

/-! ## Dies: translation, synchronisation engine, blotter, heat -/

/-- A frame table entry (R182, R189): backing address, pins and holds, keyed by frame base; the size code of the page it was held for. -/
structure Frame where
  size : Nat := 0
  backing : Option Word := none
  pin : BitVec 16 := 0
  hold : BitVec 16 := 0
  deriving DecidableEq, Repr

/-- A page of the placement tracker (R186). -/
structure Tracked where
  asid : BitVec 12
  off : Word
  counts : Vector Nat 4
  deriving DecidableEq, Repr

/-- A waiter on a memory word (R210, R238, R239), at the owner of its address. `slot` is its wait-table entry, none for a record in memory. -/
structure Waiter where
  asid : BitVec 12
  ea : Word
  owner : Nat
  wide : Bool
  mask : Word
  expected : Word
  cond : WaitCond
  stamp : Nat
  who : StrandRef
  uid : Nat
  d : SReg
  slot : Option Nat
  /-- The virtual interface and the partition of its context (R394, R404). -/
  vi : Option Nat := none
  part : Fin 16 := 0
  deriving DecidableEq, Repr

/-- A ductus request packet at a step unit (R190). -/
structure Packet where
  part : Fin 16
  rgen : BitVec 8
  oc : Fin 16
  urg : BitVec 3
  priv : Fin 3
  k : Nat
  n : Nat
  lc : Fin 5
  h : Nat
  hops : Nat
  asid : BitVec 12
  rpkg : Nat
  rdie : Nat
  rcore : Nat
  rslot : Nat
  uid : Nat
  tag : Fin 16
  seq : BitVec 16
  p : Word
  steps : List (Word × BitVec 32)
  deriving DecidableEq, Repr

/-- A ductus result on its way to the requester (R191). -/
structure DuctResult where
  part : Fin 16
  rgen : BitVec 8
  rpkg : Nat
  rcore : Nat
  rslot : Nat
  uid : Nat
  tag : Fin 16
  seq : BitVec 16
  p : Word
  status : Word
  data : List Byte
  deriving DecidableEq, Repr

/-- The release of a waiter, on its way to the strand (R239, R240). -/
structure Release where
  uid : Nat
  strand : Nat
  owner : Nat
  stamp : Nat
  d : SReg
  val : Word
  how : Word
  /-- The partition it is made for and that partition's reset generation (R404). -/
  part : Fin 16 := 0
  rgen : BitVec 8 := 0
  deriving DecidableEq, Repr

/-- An entry of a blotter descriptor (R421). -/
inductive Extent where
  | ctx (core slot : Nat)
  | mem (ma : Word) (count : Nat)
  deriving DecidableEq, Repr

/-- A blotter job with its own copy of the descriptor (R392). -/
structure BlotJob where
  num : BitVec 8
  extents : List Extent
  deriving DecidableEq, Repr

/-- A line of the L2 of its die: number, way, the partition charged for it, and whether HBM still holds older bytes (R405, R413). -/
structure L2Line where
  line : Nat
  way : Nat
  part : Fin 16
  dirty : Bool
  deriving DecidableEq, Repr

/-- The state of one compute die. -/
structure Die where
  asdbase : Word := 0
  placeEn : Bool := false
  thresh : BitVec 16 := 256
  reserve : BitVec 16 := 4
  epoch : BitVec 16 := 64
  frameSel : Word := 0
  frameHere : Bool := true
  frames : SMap Frame := []
  /-- Near-pool record table of firmware, by size code: free frame bases (R183). -/
  nearPool : SMap (List Word) := []
  tracked : List Tracked := []
  /-- Keys of the pages that a write has reached in the present epoch (R186). -/
  written : List Nat := []
  /-- Margin-cache copies of lines of other packages' read-mostly pages, by address space and virtual line: machine line and bytes (R174, R234). -/
  margin : SMap (Nat × List Byte) := []
  /-- Copies among them with an uncorrectable error (R411). -/
  marginBad : List Nat := []
  /-- Lines of the L2 by slice and set, in each set the one used last first (R404, R405). -/
  l2 : SMap (List L2Line) := []
  replicas : List (Word × Nat × Word) := []
  /-- Pages being made resident: ASID and OFF of the page (R182). -/
  fetching : List (BitVec 12 × Word) := []
  /-- When the starvation of a page was last reported to the hypervisor (R182). -/
  starved : List (BitVec 12 × Word × Nat) := []
  /-- When the present placement epoch began (R186). -/
  epochAt : Nat := 0
  stamp : Nat := 0
  waiters : List Waiter := []
  packets : List Packet := []
  blotNext : BitVec 8 := 0
  blotJobs : List BlotJob := []
  blotJob : BitVec 8 := 0
  blotRun : Bool := false
  /-- A reset cut the running job off; it resumes once HBM is trained (R392). -/
  blotCut : Bool := false
  blotTotal : BitVec 24 := 0
  blotDone : BitVec 24 := 0
  ceHbm : BitVec 32 := 0
  ceL2 : BitVec 16 := 0
  ceFolio : BitVec 16 := 0
  ueUe : BitVec 16 := 0
  ueInt : BitVec 16 := 0
  throttle : Vector (Fin 8) 6 := Vector.replicate 6 0
  /-- Poisoned HBM sectors with an uncorrectable error, by sector number (R412). -/
  hbmPoison : List Nat := []
  /-- Poisoned L2 lines whose HBM copy is clean, by line number (R413). -/
  l2Poison : List Nat := []
  /-- Sectors that held a corrected error, for the scrub (R411). -/
  corrected : List Nat := []
  deriving DecidableEq, Repr

/-! ## The package -/

/-- States of a key slot (R415). -/
inductive KeyState where
  | empty | live | zeroised
  deriving DecidableEq, Repr

/-- A key slot of the eight memory controllers (R415). -/
structure KeySlot where
  st : KeyState := .empty
  prot : Bool := false
  keys : BitVec 768 := 0
  deriving DecidableEq, Repr

/-- A barrier-group member (R207): a strand of a context; which of C and C+1 it has arrived in; leave pending. -/
structure Member where
  uid : Nat
  strand : Nat
  inC : Bool := false
  inC1 : Bool := false
  leaving : Bool := false
  deriving DecidableEq, Repr

/-- What another package's record of a domain-scope group has forwarded to the root: members in force, arrivals in C and C + 1, and whether
they all leave, their package having been reset (R244). -/
structure Remote where
  members : Nat
  inC : Nat := 0
  inC1 : Nat := 0
  leaving : Bool := false
  deriving DecidableEq, Repr

/-- A barrier group's home record (R241). `root` is the package of the first join; where that is another package C is taken from it, until a
reset of that package loses it; at the root `remote` holds the counts of other packages (R244). -/
structure Group where
  owner : Option (Fin 16) := none
  c : BitVec 32 := 0
  scope : Scope := .core
  agent : Nat := 0
  root : Nat := 0
  members : List Member := []
  joins : List (Nat × Nat) := []
  elsewhere : Bool := false
  lost : Bool := false
  remote : SMap Remote := []
  deriving DecidableEq, Repr

/-- A currency node (R336). -/
structure Currency where
  level : Fin 4
  parent : BitVec 12
  rate : BitVec 32
  deriving DecidableEq, Repr

/-- A unit of a launch that has not started: core and unit index (R261). -/
structure WaitUnit where
  launch : Nat
  unit : Nat
  core : Nat
  deriving DecidableEq, Repr

/-- What a launch record gives each unit (R260). -/
structure LaunchSpec where
  cores : List Nat
  nstrands : Nat
  leaves : Nat
  opslots : Nat
  tickets : BitVec 32
  currency : BitVec 12
  latency : BitVec 32
  budget : BitVec 32
  seedv : Bool
  seed : Word
  entries : List Word
  inits : List (Nat × Word)
  sems : List (Nat × BitVec 32)
  preds : List Nat
  priv : Fin 3
  part : Fin 16
  asid : BitVec 12
  job : Nat
  vi : Option Nat
  prot : Bool
  housekeeping : Bool
  /-- Memory and the keys of its sectors as the record was acquired: what the units' fetches read (R40). -/
  code : Option (SMap Byte × SMap Sector) := none
  deriving DecidableEq, Repr

/-- A work object (R260-R264). `level` is 1 launch, 2 graph, 3 work phase, 4 job. -/
structure Work where
  level : Nat
  parent : Option Nat := none
  job : Nat := 0
  cancelled : Bool := false
  sealed_ : Bool := false
  total : Nat := 0
  ndone : Nat := 0
  nfailed : Nat := 0
  notice : Option (Nat × Nat × Nat) := none
  reported : Bool := false
  released : Bool := false
  spec : Option LaunchSpec := none
  /-- Units not yet placed. -/
  unplaced : List Nat := []
  /-- Of a job: the address spaces of its launches (R265, R403). -/
  asids : List (BitVec 12) := []
  deriving DecidableEq, Repr

/-- An event queue of a VI or a PF (R395, R399, R400). -/
structure EvQueue where
  base : Word := 0
  head : BitVec 24 := 0
  tail : BitVec 24 := 0
  lost : BitVec 16 := 0
  deriving DecidableEq, Repr

/-- A slot of a launch window (R397). -/
structure WinSlot where
  valid : Bool := false
  pend : Bool := false
  status : BitVec 16 := 0
  id : BitVec 32 := 0
  bytes : List Byte := []
  deriving DecidableEq, Repr

/-- A virtual interface (R369, R395-R403). -/
structure Vi where
  en : Bool := false
  stop : Bool := false
  part : Fin 16 := 0
  job : BitVec 16 := 0
  asid : BitVec 12 := 0
  pasid : BitVec 20 := 0
  tdisp : Bool := false
  qosrd : BitVec 32 := 0
  qoswr : BitVec 32 := 0
  qosxl : BitVec 16 := 0
  remrd : Int := 0
  remwr : Int := 0
  remxl : Int := 0
  drb : Word := 0
  drop : BitVec 32 := 0
  stopped : Bool := false
  stopGen : BitVec 32 := 0
  stopping : Bool := false
  window : Vector WinSlot 8 := Vector.replicate 8 {}
  bind : SMap Word := []
  evq : EvQueue := {}
  logRes : Bool := false
  logOrd : BitVec 4 := 0
  logBase : Word := 0
  logHead : BitVec 24 := 0
  logTail : BitVec 24 := 0
  logLost : BitVec 16 := 0
  /-- MSI-X vectors signalled and not yet taken by the host, oldest first. -/
  msix : List Nat := []
  /-- Words of the MSI-X table, by word number (R395). -/
  msixTable : SMap Word := []
  /-- Records for the event queue that wait for the write budget, oldest first: vector and bytes (R402). -/
  outbox : List (Nat × List Byte) := []
  deriving DecidableEq, Repr

/-- A partition block of the PFs (R406, R410). Its occupancy counts are those of the dies' L2 lines (R405). -/
structure Part where
  quads : BitVec 96 := 0
  ways : Word := 0
  busy : Bool := false
  gen : BitVec 8 := 0
  bgrp : BitVec 12 := 0
  taken : Bool := false
  nonempty : Bool := false
  err : Bool := false
  deriving DecidableEq, Repr

/-- Lane states of a Krytnudal port (R408). -/
inductive LaneState where
  | full | erased | half | down
  deriving DecidableEq, Repr

/-- One direction of a port: its flit counters and key states (R409). -/
structure Direction where
  counter : BitVec 48 := 0
  newKey : Bool := false
  exhausted : Bool := false
  keyGen : Nat := 0
  /-- Flit counter of the management key (R409). -/
  mgmt : BitVec 48 := 0
  deriving DecidableEq, Repr

/-- A Krytnudal port (R407-R409). -/
structure Port where
  lanes : LaneState := .full
  failedLanes : List Nat := []
  retraining : Bool := false
  egress : Direction := {}
  ingress : Direction := {}
  authFails : Nat := 0
  /-- Flits waiting to leave, oldest first: bytes 0 to 239, the tag being made as a flit is sent (R407, R409). -/
  out : List (List Byte) := []
  /-- Authenticated requests from other packages that have not performed yet, oldest first (R407). -/
  handed : List (List Byte) := []
  /-- The housekeeping core has requested a retrain at full width (R408). -/
  wide : Bool := false
  /-- Flits sent that the other end has not acknowledged, oldest first (R409). -/
  replay : List (List Byte) := []
  deriving DecidableEq, Repr

/-- Where the boot sequence of R111 stands: number of the step in progress, 7 when booted. -/
abbrev BootStep := Nat

/-- A register file of a context that an error strikes (R411, R413). -/
inductive RegFile where
  | vector | mask | sem
  deriving DecidableEq, Repr

/-- The parts of an image that its units start with (R40, R187): bytes of .folio and .opfolio, and the words of the handle table. -/
structure Sections where
  folio : List Byte := []
  opfolio : List Byte := []
  handles : List Word := []
  deriving DecidableEq, Repr

/-- Input to the machine, taken by `step` before any strand issues: an event of the table, a strand named by a test,
a launch by the housekeeping core, host accesses that the table lists no row for, an error that strikes storage, or a
line of the spec's free choices. -/
inductive Act where
  | event (i : Instr)
  | strand (r : StrandRef)
  | firmwareLaunch (part : Fin 16) (asid : BitVec 12) (job : Nat) (record : List Byte)
  | hypervisorLaunch (part : Fin 16) (asid : BitVec 12) (job : Nat) (record : List Byte)
  | barWrite (vi : Nat) (off : Nat) (v : Word)
  | pfWrite (port : Nat) (off : Nat) (v : Word)
  | barRead (vi : Nat) (off : Nat)
  | pfRead (port : Nat) (off : Nat)
  | tdisp (vi : Nat) (on : Bool)
  | retrain (port : Nat)
  | flitSent (port : Nat)
  /-- The other end of a port acknowledges its oldest flit, or has discarded it (R409); the IDE state of a PCIe port changes (R394). -/
  | flitAck (port : Nat)
  | flitRefused (port : Nat)
  | ide (port : Fin 2) (secure : Bool)
  | newKey (port : Nat) (ingress : Bool)
  | nearFrame (owner size : Nat) (ma : Word)
  | memError (key : Nat) (l2 uncorrectable integrity : Bool)
  | folioError (core word : Nat)
  | bitError (core off : Nat) (bit : Fin 8)
  | fileBit (core slot off : Nat) (bit : Fin 8)
  | storeError (core slot : Nat) (queue : Fin 6) (pos idx : Nat) (v : Byte)
  | sections (launch : Nat) (img : Sections)
  | load (owner : Nat) (ma : Word) (bytes : List Byte)
  | cutTsta (r : StrandRef)
  /-- Counts that another package's record of a group forwards to the root here; C of a group whose root is another package; a reset of
  another package (R244). -/
  | remoteGroup (g pkg members inC inC1 : Nat)
  | rootGeneration (g root : Nat) (c : BitVec 32)
  | packageReset (pkg : Nat)
  | tracerError (r : StrandRef) (reg : RegRef) (v : Word)
  | fileError (core slot : Nat) (file : RegFile) (n : Nat)
  | opError (core word : Nat)
  | marginError (die line : Nat)
  deriving DecidableEq, Repr

/-- The state of the machine. -/
structure State where
  /-- Package-wide and model-level counters: cr.time, the free-value counter (the model's own), the next fresh number. -/
  time : Nat
  tick : Nat
  fresh : Nat
  /-- Whose turn it is: the strand that `exec` acts on, and the rotation of the next issue (R80). -/
  focus : StrandRef
  turn : Nat
  agenda : List Act
  poweredOff : Bool
  /-- The last package reset was a power-on (R111). -/
  powerUp : Bool
  boot : BootStep
  /-- When R111 step 5 began to wait for the boot march launch. -/
  marchAt : Nat
  package : Nat
  domain : List Nat
  mem : SMap Byte
  sectors : SMap Sector
  cores : SMap Core
  dies : SMap Die
  keys : SMap KeySlot
  groups : SMap Group
  currencies : SMap Currency
  repay : SMap Nat
  works : SMap Work
  /-- Image sections of launches, as loaded from outside (R40, log 39). -/
  sections : SMap Sections
  waitUnits : List WaitUnit
  vis : SMap Vi
  pfq : Vector EvQueue 2
  pfAttached : Bool
  /-- MSI-X vectors of each PF signalled and not yet taken by the host, oldest first (R400). -/
  pfMsix : Vector (List Nat) 2
  /-- Words that hosts have read through a BAR, oldest first (R395-R401, R406). -/
  hostReads : List Word
  parts : SMap Part
  ports : SMap Port
  results : List DuctResult
  releases : List Release
  powerLimit : BitVec 16
  thot : BitVec 8
  ttripHold : Bool
  ttripAt : Option Nat
  /-- Die and region of each region at TTRIP (R423). -/
  ttripIn : List (Nat × Nat)
  /-- Number of the host-link window each PCIe port stands in (R402). -/
  windows : Vector Nat 2
  /-- The IDE state of each PCIe port is secure (R394). -/
  ide : Vector Bool 2
  repairStore : SMap (List Word)
  minSvn : SMap (BitVec 32)
  health : List (List Byte)
  healthCores : List Nat
  /-- Cores whose boot march has been run a second time (R112). -/
  retested : List Nat
  /-- Interrupts taken by the housekeeping core (R408, R409, R423). -/
  hkInterrupts : Nat
  spdmOut : List (Nat × List Byte)
  hypLoaded : Bool
  /-- Contexts saved by CTXSV, under their image's tag: what a valid image stands for (R363, R364). -/
  images : List (BitVec 256 × Ctx)
  deriving DecidableEq, Repr

/-- The machine at the end of a power-on reset (R109, R111, R112): cr.time at 0, every core zeroising, HBM not yet trained,
the housekeeping image verified (log 9), no context, no partition, no VI enabled, memory with nothing listed.
Every register of a core, die or package that is not listed stands at its reset value, which its structure's default is. -/
def State.reset : State :=
  { time := 0, tick := 0, fresh := 1, focus := { core := 0, slot := 0, strand := 0 }, turn := 0, agenda := [],
    poweredOff := false, powerUp := true, boot := 2, marchAt := 0, package := 0, domain := [0], mem := [], sectors := [], cores := [],
    dies := [], keys := [], groups := [], currencies := [], repay := [], works := [], sections := [], waitUnits := [], vis := [],
    pfq := Vector.replicate 2 {}, pfAttached := true, pfMsix := Vector.replicate 2 [], hostReads := [], parts := [], ports := [], results := [], releases := [], powerLimit := 2800,
    thot := 95, ttripHold := false, ttripAt := none, ttripIn := [], windows := Vector.replicate 2 0, ide := Vector.replicate 2 false, repairStore := [], minSvn := [], health := [], healthCores := [], retested := [],
    hkInterrupts := 0, spdmOut := [], hypLoaded := false, images := [] }

end Sys2Proof.Machine
end

