-- ==== Sys2Proof/Machine/Access.lean ====
section
/-! DEFINITION. Reading and updating the parts of the state: cores, contexts, strands, registers, and the advance of the pc. -/

namespace Sys2Proof.Machine

/-- An outcome of a step of this machine. -/
abbrev Out := Host.Outcome State Fault Refusal

/-- Number of cores of a package (R3). -/
def coreCount : Nat := 384

/-- The context of an empty slot. -/
def noCtx : Ctx := { uid := 0 }

/-! ## Cores and dies -/

def State.core (s : State) (c : Nat) : Core := SMap.get {} s.cores c
def State.setCore (s : State) (c : Nat) (k : Core) : State := { s with cores := SMap.set s.cores c k }
def State.modCore (s : State) (c : Nat) (f : Core → Core) : State := s.setCore c (f (s.core c))

/-- A die by its owner number, package × 4 + die. -/
def State.die (s : State) (o : Nat) : Die := SMap.get {} s.dies o
def State.setDie (s : State) (o : Nat) (d : Die) : State := { s with dies := SMap.set s.dies o d }
def State.modDie (s : State) (o : Nat) (f : Die → Die) : State := s.setDie o (f (s.die o))

/-- Owner number of the die that holds a core of this package. -/
def State.dieOf (s : State) (core : Nat) : Nat := s.package * 4 + core / 96

/-! ## Contexts -/

/-- Where a context is kept. -/
def State.ctx (s : State) (core slot : Nat) : Ctx := SMap.get noCtx (s.core core).slots slot
def State.setCtx (s : State) (core slot : Nat) (x : Ctx) : State :=
  s.modCore core fun k => { k with slots := SMap.set k.slots slot x }
def State.modCtx (s : State) (core slot : Nat) (f : Ctx → Ctx) : State := s.setCtx core slot (f (s.ctx core slot))

/-- The context a slot or shadow slot holds, if any. -/
def State.findCtx (s : State) : CtxRef → Option Ctx
  | .resident c i => SMap.find (s.core c).slots i
  | .shadow c i => SMap.find (s.core c).shadows i

/-- Store a context in its slot or shadow slot. -/
def State.putCtx (s : State) (r : CtxRef) (x : Ctx) : State :=
  match r with
  | .resident c i => s.setCtx c i x
  | .shadow c i => s.modCore c fun k => { k with shadows := SMap.set k.shadows i x }

/-- Empty a slot or shadow slot. -/
def State.dropCtx (s : State) (r : CtxRef) : State :=
  match r with
  | .resident c i => s.modCore c fun k => { k with slots := SMap.erase k.slots i }
  | .shadow c i => s.modCore c fun k => { k with shadows := SMap.erase k.shadows i }

/-- The core a context is held on. -/
def refCore : CtxRef → Nat
  | .resident c _ => c
  | .shadow c _ => c

/-- Every context held on a core, resident first. -/
def Core.contexts (k : Core) (c : Nat) : List (CtxRef × Ctx) :=
  k.slots.map (fun e => (CtxRef.resident c e.1, e.2)) ++ k.shadows.map (fun e => (CtxRef.shadow c e.1, e.2))

/-- Every context of the package. -/
def State.contexts (s : State) : List (CtxRef × Ctx) := s.cores.flatMap fun e => e.2.contexts e.1

/-- The context with a unique number. -/
def State.findUid (s : State) (uid : Nat) : Option (CtxRef × Ctx) := s.contexts.find? fun e => e.2.uid == uid

/-- Update a context wherever it is held. -/
def State.modRef (s : State) (r : CtxRef) (f : Ctx → Ctx) : State :=
  match s.findCtx r with
  | some x => s.putCtx r (f x)
  | none => s

/-- Update the context with a unique number. -/
def State.modUid (s : State) (uid : Nat) (f : Ctx → Ctx) : State :=
  match s.findUid uid with
  | some (r, x) => s.putCtx r (f x)
  | none => s

/-! ## Strands -/

/-- Strand number within its context. -/
def strandIx (r : StrandRef) : Fin 4 := Fin.ofNat 4 r.strand
/-- The context of a strand. -/
def strandCtx (r : StrandRef) : CtxRef := .resident r.core r.slot

def State.strandAt (s : State) (r : StrandRef) : Strand := (s.ctx r.core r.slot).strands[strandIx r]
def Ctx.modStrand (x : Ctx) (i : Fin 4) (f : Strand → Strand) : Ctx := { x with strands := x.strands.set i (f x.strands[i]) }
def State.modStrandAt (s : State) (r : StrandRef) (f : Strand → Strand) : State :=
  s.modCtx r.core r.slot fun x => x.modStrand (strandIx r) f

/-! ## The executing strand -/

def State.st (s : State) : Strand := s.strandAt s.focus
def State.modSt (s : State) (f : Strand → Strand) : State := s.modStrandAt s.focus f
def State.cx (s : State) : Ctx := s.ctx s.focus.core s.focus.slot
def State.modCx (s : State) (f : Ctx → Ctx) : State := s.modCtx s.focus.core s.focus.slot f
def State.co (s : State) : Core := s.core s.focus.core
def State.modCo (s : State) (f : Core → Core) : State := s.modCore s.focus.core f
/-- Owner number of the executing strand's die. -/
def State.here (s : State) : Nat := s.dieOf s.focus.core
def State.di (s : State) : Die := s.die s.here
def State.modDi (s : State) (f : Die → Die) : State := s.modDie s.here f

/-! ## Registers of a strand (R42) -/

/-- s0 reads as zero. -/
def Strand.getS (t : Strand) (r : SReg) : Word := if r = 0 then 0 else t.s[r]
/-- A write to s0 is discarded. -/
def Strand.setS (t : Strand) (r : SReg) (v : Word) : Strand := if r = 0 then t else { t with s := t.s.set r v }
def Strand.getA (t : Strand) (r : AReg) : Word := t.a[r]
def Strand.setA (t : Strand) (r : AReg) (v : Word) : Strand := { t with a := t.a.set r v }
/-- p7 reads as true. -/
def Strand.getP (t : Strand) (r : PReg) : Bool := if r = 7 then true else t.p.getLsbD r.val
/-- A write to p7 is discarded. -/
def Strand.setP (t : Strand) (r : PReg) (v : Bool) : Strand :=
  if r = 7 then t else { t with p := (t.p &&& ~~~(1#7 <<< r.val)) ||| ((BitVec.ofBool v).setWidth 7 <<< r.val) }
def Strand.getL (t : Strand) (r : LReg) : BitVec 32 := t.lc[r]
def Strand.setL (t : Strand) (r : LReg) (v : BitVec 32) : Strand := { t with lc := t.lc.set r v }
/-- A pair of scalar registers, low half in the even one; with s0 the low half is discarded (R55). -/
def Strand.setS2 (t : Strand) (r : SReg) (v : Word128) : Strand :=
  (t.setS r (v.extractLsb' 0 64)).setS (r + 1) (v.extractLsb' 64 64)
def Strand.setA2 (t : Strand) (r : AReg) (v : Word128) : Strand :=
  (t.setA r (v.extractLsb' 0 64)).setA (r + 1) (v.extractLsb' 64 64)

def State.getS (s : State) (r : SReg) : Word := s.st.getS r
def State.setS (s : State) (r : SReg) (v : Word) : State := s.modSt (·.setS r v)
def State.getA (s : State) (r : AReg) : Word := s.st.getA r
def State.setA (s : State) (r : AReg) (v : Word) : State := s.modSt (·.setA r v)
def State.getP (s : State) (r : PReg) : Bool := s.st.getP r
def State.setP (s : State) (r : PReg) (v : Bool) : State := s.modSt (·.setP r v)
def State.getSA (s : State) : SaReg → Word
  | .s r => s.getS r
  | .a r => s.getA r
def State.setSA (s : State) (r : SaReg) (v : Word) : State :=
  match r with
  | .s r => s.setS r v
  | .a r => s.setA r v

/-! ## Vector and mask registers (R285, R286) -/

def Ctx.getV (x : Ctx) (r : Nat) : VecWord := SMap.get 0 x.v r
def Ctx.setV (x : Ctx) (r : Nat) (v : VecWord) : Ctx := { x with v := SMap.put 0 x.v r v }
def Ctx.getM (x : Ctx) (r : Nat) : MaskWord := SMap.get 0 x.m r
def Ctx.setM (x : Ctx) (r : Nat) (v : MaskWord) : Ctx := { x with m := SMap.put 0 x.m r v }
def Ctx.getSem (x : Ctx) (k : Nat) : BitVec 32 := SMap.get 0 x.sem k
def Ctx.setSem (x : Ctx) (k : Nat) (v : BitVec 32) : Ctx := { x with sem := SMap.put 0 x.sem k v }

def State.getV (s : State) (r : VNum) : VecWord := s.cx.getV r.val
def State.setV (s : State) (r : VNum) (v : VecWord) : State := s.modCx (·.setV r.val v)
def State.getM (s : State) (r : MNum) : MaskWord := s.cx.getM r.val
def State.setM (s : State) (r : MNum) (v : MaskWord) : State := s.modCx (·.setM r.val v)

/-- Register `r + k` of a group. -/
def vplus (r : VNum) (k : Nat) : VNum := Fin.ofNat 64 (r.val + k)

/-- A free value of R8 at this step. -/
def State.undef (s : State) (k : Nat) : Word := Config.undefWord s.tick k

/-! ## The pc (R22, R44, R61) -/

/-- Words an instruction occupies: its own, its literal, and the words of the second instruction of a pair (R22, R257, R321). -/
def matWords (c : MatCmd) : Nat := 2 + (if c.epi.isSome then 2 else 0)
def wordCount (i : Instr) : Nat :=
  match i with
  | .lit .. | .lita .. | .tsem .. | .chain _ => 2
  | .cpy c => 2 + (match c.fo with | some f => matWords f.cmd | none => 0)
  | .cpyo c => 2 + (match c.fo with | some f => matWords f.cmd | none => 0)
  | .mma c => matWords c
  | .qmma c _ => matWords c
  | _ => 1

/-- An address names an instruction of `n` words at `pc`: the instruction's own word or its literal's (R23). -/
def covers (pc : Word) (n : Nat) (a : Word) : Bool := (List.range n).any fun k => a == pc + BitVec.ofNat 64 (16 * k)

/-- Active loops that end at an instruction of `n` words at `pc`, youngest first: the scan of R61 over a list of loop numbers. -/
def loopScan (t : Strand) (pc : Word) (n : Nat) (next : Word) : List (Fin 4) → Strand × Word
  | [] => (t, next)
  | j :: rest =>
    if t.lc[j] ≠ 0 ∧ covers pc n t.loopEnd[j] then
      if t.lc[j] > 1 then ({ t with lc := t.lc.set j (t.lc[j] - 1) }, t.loopStart[j])
      else loopScan { t with lc := t.lc.set j 0 } pc n next rest
    else loopScan t pc n next rest

/-- Loop numbers, youngest age first (R60, R61). A greater age stamp is a later start. -/
def loopOrder (t : Strand) : List (Fin 4) :=
  ([0, 1, 2, 3] : List (Fin 4)).insertionSort fun i j => t.loopAge[j] ≤ t.loopAge[i]

/-- Leave issue at the pc without a taken transfer and without a trap: the repeat rule of R61 after `n` words. -/
def Strand.retire (t : Strand) (n : Nat) : Strand :=
  let r := loopScan t t.pc n (t.pc + BitVec.ofNat 64 (16 * n)) (loopOrder t)
  { r.1 with pc := r.2, forced := none }

/-- Take a control transfer. -/
def Strand.jump (t : Strand) (target : Word) : Strand := { t with pc := target, forced := none }

/-- The executing strand's instruction of `n` words completes. -/
def State.retireN (s : State) (n : Nat) : State := s.modSt (·.retire n)
/-- A one-word instruction completes. -/
def State.retire (s : State) : State := s.modSt (·.retire 1)
/-- The executing strand transfers control. -/
def State.jump (s : State) (target : Word) : State := s.modSt (·.jump target)

/-- The instruction has no effect yet and is tried again (R81 condition 7, R64, R117). -/
def State.hold (s : State) : State := s.modSt fun t => { t with wait := some .retry }
/-- It is held for spilled leaves (R64, R357). -/
def State.holdLeaves (s : State) (ls : List Nat) : State := s.modSt fun t => { t with wait := some .retry, wants := ls }

/-- A fresh number. -/
def State.freshen (s : State) : State := { s with fresh := s.fresh + 1 }

end Sys2Proof.Machine
end

