-- ==== Sys2Proof/Machine/Events.lean ====
section
/-! DEFINITION. What reaches a strand from outside its own stream: event latches, semaphore service, releases of memory waits. -/

namespace Sys2Proof.Machine

/-! ## Tokens (R91) -/

/-- A token bit as a count. -/
def tokBit (tok : BitVec 4) (n : Nat) : BitVec 4 := (BitVec.ofBool (tok.getLsbD n)).setWidth 4

/-- The pops of an instruction, made at issue. -/
def Strand.popTokens (t : Strand) (q : Queue) (tok : BitVec 4) : Strand :=
  match q with
  | .access => { t with ca := t.ca - tokBit tok 2 }
  | .compute => { t with ac := t.ac - tokBit tok 3, sc := t.sc - tokBit tok 2 }
  | .store => { t with cs := t.cs - tokBit tok 3 }
/-- The pushes of an instruction, made when it completes. -/
def Strand.pushTokens (t : Strand) (q : Queue) (tok : BitVec 4) : Strand :=
  match q with
  | .access => { t with ac := t.ac + tokBit tok 0 }
  | .compute => { t with ca := t.ca + tokBit tok 1, cs := t.cs + tokBit tok 0 }
  | .store => { t with sc := t.sc + tokBit tok 1 }
/-- The pops of an instruction that has had no effect are taken back: it issues again. -/
def Strand.unpopTokens (t : Strand) (q : Queue) (tok : BitVec 4) : Strand :=
  match q with
  | .access => { t with ca := t.ca + tokBit tok 2 }
  | .compute => { t with ac := t.ac + tokBit tok 3, sc := t.sc + tokBit tok 2 }
  | .store => { t with cs := t.cs + tokBit tok 3 }
/-- A wait instruction that ends without effect gives back its pops and owes no push (R91, R201). -/
def Strand.unwind (t : Strand) : Strand :=
  match t.owed with
  | some (q, tok) => { t.unpopTokens q tok with owed := none, domAcquire := false }
  | none => { t with domAcquire := false }
/-- A wait instruction that has completed makes its pushes. -/
def Strand.payTokens (t : Strand) : Strand :=
  match t.owed, t.wait with
  | some (q, tok), none => { t.pushTokens q tok with owed := none }
  | _, _ => t

/-- Saturating decrement of a token counter. -/
def tokDown (c : BitVec 4) (tok : BitVec 4) (n : Nat) : BitVec 4 := if c = 0 then 0 else c - tokBit tok n
/-- Instructions issued ahead are cancelled before they write a register; their tokens are withdrawn (R94). -/
def Strand.cancelAhead (t : Strand) : Strand :=
  { t.ahead.foldl (fun (t : Strand) e => { t with ac := tokDown t.ac e.tok 0, ca := t.ca + tokBit e.tok 2 }) t with
    ahead := [], flight := t.flight.filter fun f => !t.ahead.any fun e => e.kind == .held && e.at_ == f.at_ }

/-- A one-word wait instruction completes. -/
def Strand.finishWait (t : Strand) : Strand := { t with wait := none }.retire 1

/-- An event of R148: a waiting WFE completes with the accumulated reasons, else the latch is set. -/
def Strand.event (t : Strand) (bit : Nat) : Strand :=
  let reasons := t.reasons ||| (1#4 <<< bit)
  match t.wait with
  | some (.event d _) => ({ t with latch := false, reasons := 0 }.setS d (reasons.setWidth 64)).finishWait
  | _ => { t with latch := true, reasons := reasons }

/-- An event for every strand of a context. -/
def Ctx.eventAll (x : Ctx) (bit : Nat) : Ctx := { x with strands := x.strands.map (·.event bit) }

/-! ## Semaphores (R202, R203) -/

/-- min(x, 2^32 - 1) of R202. -/
def satCount (n : Nat) : BitVec 32 := if n < 2 ^ 32 then BitVec.ofNat 32 n else BitVec.allOnes 32

/-- A use of a counter corrects a single-bit error of its word, and the write makes fresh check bits; the correction is still to be counted (R105). -/
def Ctx.correctSem (x : Ctx) (k : Nat) : Ctx :=
  if x.flips.any (fun f => f.1 / 8 == 0x1000 + k / 2) && !x.semPoison.contains (k / 2) then
    { x with flips := x.flips.filter fun f => f.1 / 8 != 0x1000 + k / 2, fixed := x.fixed + 1 }
  else x

/-- A counter changed last by a store of the diagnostic view, which wakes nobody (R73). -/
def Ctx.hushed (x : Ctx) (k : Nat) : Bool := x.quiet.any fun e => e.1 == k
/-- Serve the waiters of a semaphore from the head of its queue (R203), by recursion on the whole list of waiters. -/
def serveList (sem : Nat) : List (Nat × Nat × Nat) → Ctx → Ctx × List (Nat × Nat × Nat)
  | [], x => (x, [])
  | w :: ws, x =>
    if w.1 = sem then
      if w.2.2 ≤ (x.getSem sem).toNat then
        serveList sem ws
          (((x.correctSem sem).setSem sem (BitVec.ofNat 32 ((x.getSem sem).toNat - w.2.2))).modStrand (Fin.ofNat 4 w.2.1) (·.finishWait))
      else (x, w :: ws)
    else let r := serveList sem ws x; (r.1, w :: r.2)

/-- Serve a semaphore's queue (R203). -/
def Ctx.serveSem (x : Ctx) (sem : Nat) : Ctx := let r := serveList sem x.semq x; { r.1 with semq := r.2 }

/-- Set a counter: the queue is served, and any change sets the event latch of every strand (R202, R203, R148). -/
def Ctx.writeSem (x : Ctx) (sem : Nat) (v : BitVec 32) : Ctx :=
  let z := ({ x.correctSem sem with quiet := x.quiet.filter (·.1 ≠ sem) }.setSem sem v).serveSem sem
  if x.getSem sem ≠ v ∨ z.getSem sem ≠ v then z.eventAll 1 else z

/-- SEMSIG's effect on the file (R202): add with saturation, then serve. -/
def Ctx.addSem (x : Ctx) (sem : Nat) (k : Nat) : Ctx := x.writeSem sem (satCount ((x.getSem sem).toNat + k))

/-- Serve every queue: a withdrawn head leaves a waiter behind it that may fit, and no task's wait is checked before it is served (R203, log 78); not one that a diagnostic store has changed last (R73). -/
def Ctx.serveAll (x : Ctx) : Ctx :=
  ((x.semq.map (·.1)).dedup.filter fun n => !x.hushed n).foldl (fun x n => let y := x.serveSem n; if x.getSem n ≠ y.getSem n then y.eventAll 1 else y) x

/-- Whether a strand waiter is queued on a semaphore. -/
def Ctx.semBusy (x : Ctx) (sem : Nat) : Bool := x.semq.any fun w => w.1 == sem

/-! ## Waits on memory words (R210, R239) -/

/-- The condition of R210 at a width of 32 or 64 bits. -/
def waitCond (c : WaitCond) (wide : Bool) (v mask expected : Word) : Bool :=
  let x := v &&& mask
  let y := expected &&& mask
  let x := if wide then x else (x.setWidth 32).signExtend 64
  let y := if wide then y else (y.setWidth 32).signExtend 64
  match c with
  | .eq => x == y
  | .ne => x != y
  | .ltu => x.ult y
  | .geu => y.ule x
  | .lt => x.slt y
  | .ge => y.sle x

/-- Release a waiter: a message goes to its strand with the word's value and how it was released (R239, R240). -/
def releaseWaiter (s : State) (w : Waiter) (v : Word) (how : Word) : State :=
  { s with releases := s.releases ++
      [{ uid := w.uid, strand := (strandIx w.who).val, owner := w.owner, stamp := w.stamp, d := w.d, val := v, how := how
         part := w.part, rgen := (SMap.get {} s.parts w.part.val).gen }] }

/-- A release reaches a strand: the WADDR it releases completes; where that has been withdrawn the message is discarded. Either way it is a wake
event of the strand (R148, R240). -/
def Strand.released (t : Strand) (r : Release) : Strand :=
  (match t.wait with
   | some (.addr o n _) => if o = r.owner ∧ n = r.stamp then ((t.setS r.d r.val).setS (r.d + 1) r.how).finishWait else t
   | _ => t).event 0

/-- A release message arrives, wherever its context is held now. -/
def arriveRelease (i : Nat) (s : State) : State :=
  match s.releases[i]? with
  | none => s
  | some r => { s with releases := s.releases.eraseIdx i }.modUid r.uid fun x => x.modStrand (Fin.ofNat 4 r.strand) (·.released r)

/-- A withdrawn swap leaves no effect (R201): tasks given to the phase it would have opened belong to the open one. -/
def Ctx.dropCommit (i : Nat) (x : Ctx) : Ctx :=
  match x.phase with
  | some h =>
    if h.committing.map (·.1) = some i then
      { x with phase := some { h with committing := none }
               queues := x.queues.map fun q => q.map fun t : Task => if t.phase = some x.nextPhase then { t with phase := some h.num } else t }
    else x
  | none => x

/-- A withdrawn QUNBIND leaves no effect: its queue takes pushes again, unless another strand waits to unbind it (R201, R215). -/
def Ctx.reopenQueue (i : Fin 4) (x : Ctx) : Ctx :=
  match x.strands[i].wait with
  | some (.unbind _ q) =>
    match SMap.find x.boundQs q.val with
    | some b =>
      if ([0, 1, 2, 3] : List (Fin 4)).any fun j => j != i && (match x.strands[j].wait with | some (.unbind _ p) => p == q | _ => false) then x
      else { x with boundQs := SMap.set x.boundQs q.val { b with closing := false } }
    | none => x
  | _ => x

/-- Withdraw every wait of a strand from the tables that hold it (R201); the wait instruction issues again. SBAR keeps its arrival. -/
def withdrawWaits (s : State) (r : StrandRef) : State :=
  let s := { s with dies := SMap.mapVals (fun d => { d with waiters := d.waiters.filter fun w => w.who ≠ r }) s.dies }
  s.modCtx r.core r.slot fun x =>
    { (x.dropCommit (strandIx r).val).reopenQueue (strandIx r) with
      semq := x.semq.filter (fun w => w.2.1 ≠ (strandIx r).val)
      popq := x.popq.filter (fun w => w.2 ≠ (strandIx r).val) }.modStrand (strandIx r) fun t =>
      match t.wait with
      | some (.sbar _) => t
      | _ => { t with wait := none }.unwind

end Sys2Proof.Machine
end

