-- ==== Sys2Proof/Machine/Timing.lean ====
section
/-! DEFINITION. Latency bounds of the instructions that write a register (02 R45, 06 R113, 07 R137, 12 R200, 16 R251, 18 R288, R300, 19 R307). -/

namespace Sys2Proof.Machine

/-- The bound in cycles by which an instruction's register result has landed; none where the table says var (R87). -/
def latencyBound (i : Instr) : Option Nat :=
  match i with
  | .mul .. => some 4
  | .mulh .. | .mulhu .. => some 5
  | .div _ _ _ w | .divu _ _ _ w | .rem _ _ _ w | .remu _ _ _ w => some (if w then 20 else 36)
  | .pand .. | .por .. | .pxor .. | .pget _ | .pput .. | .mova .. | .movs .. | .li .. | .lia .. | .lit .. | .lita .. | .adr ..
  | .call .. | .callr .. | .loop .. | .loopi .. | .lcget .. | .lcset .. => some 1
  | .abnd .. => some 3
  | .fld .. | .fst .. | .fldx .. | .fstx .. => some 12
  | .crr .. | .crw .. | .crs .. | .crc .. | .bkr .. | .bkw .. | .hset .. | .hfree _ | .hqry .. | .tkset _ | .rseed _ => some 8
  | .semsig .. | .semtry .. | .semset .. | .qdepth .. | .cwptrLand .. | .cwptrIss .. => some 8
  | .vld _ _ _ m | .vst _ _ _ m => if m.folio then some 16 else none
  | .vlds _ _ _ m | .vsts _ _ _ m => if m.folio then some 24 else none
  | .vgath _ _ _ _ m | .vscat _ _ _ _ m => if m.folio then some 32 else none
  | .pref .. => some 5
  | .duct .. | .fwput _ => some 6
  | .vmul .. | .vmulh .. | .vfma .. | .vaddw .. | .vmulw .. => some 10
  | .vdiv .. | .vsf .. => some 24
  | .vadd .. | .vsub .. | .vmin .. | .vmax .. | .vabs .. | .vneg .. | .vand .. | .vor .. | .vxor .. | .vshl .. | .vshr .. | .vsar ..
  | .vbit .. | .vcmp .. | .vsel .. | .mand .. | .mor .. | .mxor .. | .mpop .. | .mfirst .. | .mset .. | .vbcast .. | .vins ..
  | .vext .. => some 8
  | .vcvt o => some (if groupSize (if o.td.width ≥ o.ts.width then o.td else o.ts) (if o.td.width ≥ o.ts.width then o.ts else o.td) = 4 then 16 else 12)
  | .vrsum .. | .vrmax .. | .vrmin .. => some 16
  | .vperm .. | .vslide .. | .vzip .. | .vunzip .. | .vrev .. | .vcmpr .. => some 12
  | .vmov _ _ sz => some (if sz.val = 2 then 10 else 8)
  | .lpack .. => some 12
  | .ladd .. | .lgw _ => some 8
  | .lmul .. => some 40
  | .lext .. => some 16
  | .add .. | .sub .. | .addi .. | .min .. | .max .. | .abs .. | .and .. | .or .. | .xor .. | .andi .. | .ori .. | .xori .. | .shl ..
  | .shr .. | .sar .. | .shli .. | .shri .. | .sari .. | .bext .. | .bins .. | .clz .. | .ctz .. | .popc .. | .brev .. | .cmp ..
  | .cmpi .. | .cmpW .. | .cmpiW .. | .sel .. | .aadd .. | .aaddi .. | .asub .. | .aidx .. | .awrap .. | .aalign .. | .acmp .. => some 2
  | _ => none

/-- Level that step 4 of R28 checks before issue (R135, R137; 02 R67). -/
def instrLevel (i : Instr) : Nat :=
  match i with
  | .crr _ n => ((CReg.ofNum n).map fun r => r.level false).getD 0
  | .crw _ n | .crs _ _ n | .crc _ _ n => ((CReg.ofNum n).map fun r => r.level true).getD 0
  | .folioDiagWrite _ | .repairPut _ | .repairTableClear _ | .summaryClear _ | .folioInjectWrite _ | .planeLoad _
  | .powerLimitWrite _ | .thermLimitWrite _ => 2
  | .frameSelect _ | .leafPin _ | .leafUnpin _ | .poolBlockSet _ | .preCtlWrite _ | .viLogWrite _ | .tduCtlWrite _
  | .currencyCreate _ | .currencyRateWrite _ | .currencyDelete _ | .keyLoad _ => 1
  | .kzero .. | .blot .. | .blwait .. | .ctxctlSoft .. | .ctxctlHalt .. | .ctxctlKill .. | .ctxctlResume .. | .ctxsv .. | .ctxld .. => 1
  | _ => 0

/-- An upper-half instruction: a command the tracer compares (R98, R99). -/
def upperHalf (i : Instr) : Bool :=
  match i with
  | .nop | .add .. | .sub .. | .addi .. | .min .. | .max .. | .abs .. | .and .. | .or .. | .xor .. | .andi .. | .ori .. | .xori ..
  | .shl .. | .shr .. | .sar .. | .shli .. | .shri .. | .sari .. | .mul .. | .mulh .. | .mulhu .. | .div .. | .divu .. | .rem ..
  | .remu .. | .bext .. | .bins .. | .clz .. | .ctz .. | .popc .. | .brev .. | .cmp .. | .cmpi .. | .cmpW .. | .cmpiW .. | .pand ..
  | .por .. | .pxor .. | .pget _ | .pput .. | .sel .. | .mova .. | .movs .. | .li .. | .lia .. | .lit .. | .lita .. | .adr ..
  | .aadd .. | .aaddi .. | .asub .. | .aidx .. | .awrap .. | .abnd .. | .aalign .. | .acmp .. | .br _ | .brr _ | .call .. | .callr ..
  | .ret _ | .loop .. | .loopi .. | .lcget .. | .lcset .. | .lbreak _ | .fld .. | .fst .. | .fldx .. | .fstx .. | .crr .. | .crw ..
  | .crs .. | .crc .. | .stop | .yield | .sbar _ => false
  | .folioDiagWrite _ | .repairPut _ | .repairTableClear _ | .summaryClear _ | .folioInjectWrite _ | .hintModeWrite _ | .xlateInval _
  | .frameSelect _ | .leafPin _ | .leafUnpin _ | .poolBlockSet _ | .preCtlWrite _ | .planeLoad _ | .viLogWrite _ | .tduCtlWrite _
  | .currencyCreate _ | .currencyRateWrite _ | .currencyDelete _ | .keyLoad _ | .powerLimitWrite _ | .thermLimitWrite _ => false
  | _ => true

/-- Upper-half commands of a word or pair (R99, R257, R321). -/
def commandCount (i : Instr) : Nat :=
  let mat := fun c : MatCmd => if c.epi.isSome then 2 else 1
  match i with
  | .cpy c => 1 + (match c.fo with | some f => mat f.cmd | none => 0)
  | .cpyo c => 1 + (match c.fo with | some f => mat f.cmd | none => 0)
  | .mma c | .qmma c _ => mat c
  | i => if upperHalf i then 1 else 0

/-- A copy with its matrix command, or a matrix command with its epilogue (R257, R321). -/
def isPair (i : Instr) : Bool := commandCount i ≥ 2

/-- Leave issue after an instruction: a pair counts as one instruction per command toward a loop repeat (R61, R257, R321). -/
def Strand.retireI (t : Strand) (i : Instr) : Strand :=
  if isPair i then (List.range (commandCount i)).foldl (fun t _ => t.retire 2) t else t.retire (wordCount i)

/-- A control-register or system instruction, which issues only after every earlier instruction has completed (R66, R138). -/
def serialises (i : Instr) : Bool :=
  match i with
  | .crr .. | .crw .. | .crs .. | .crc .. | .stop => true
  | .folioDiagWrite _ | .repairPut _ | .repairTableClear _ | .summaryClear _ | .folioInjectWrite _ | .hintModeWrite _ | .xlateInval _
  | .frameSelect _ | .leafPin _ | .leafUnpin _ | .poolBlockSet _ | .preCtlWrite _ | .planeLoad _ | .viLogWrite _ | .tduCtlWrite _
  | .currencyCreate _ | .currencyRateWrite _ | .currencyDelete _ | .keyLoad _ | .powerLimitWrite _ | .thermLimitWrite _ => true
  | .lgw _ | .trap _ | .tret | .bkr .. | .bkw .. | .pgsvcTouch .. | .pgsvcAlloc .. | .pgsvcPin .. | .pgsvcUnpin .. | .pgsvcQuery .. | .hset ..
  | .hfree _ | .hqry .. | .tkset _ | .curset .. | .rseed _ | .kzero .. | .blot .. | .blwait .. | .wfe .. | .ctxctlSoft ..
  | .ctxctlHalt .. | .ctxctlKill .. | .ctxctlResume .. | .ctxsv .. | .ctxld .. => true
  | .bswap _ | .bswapOpen .. | .bswapClose _ | .launch .. | .graphOpen .. | .graphClose .. | .wphaseOpen .. | .wphaseClose ..
  | .cntr .. | .cancel .. => true
  | _ => false

/-- The classes a flavour is ordered behind: its own, or every class for a release or full one (R114, R116). -/
def flavourMask (oc : Fin 16) (fl : Flavour) : BitVec 16 :=
  match fl with
  | .rel | .full => BitVec.allOnes 16
  | _ => 1#16 <<< oc.val
/-- The classes an instruction's accesses by its strand are ordered behind (R114, R116, R125, R132, R222): its own, every class for a release, a
fence's mask. Accesses of engine tasks are in no order of their class with the strand's (R227). -/
def classMask (i : Instr) : BitVec 16 :=
  match i with
  | .ld _ _ m | .st _ _ m | .tldv _ _ m _ | .tsta _ _ m _ | .atom _ _ _ _ m | .atomn _ _ _ m | .cas _ _ _ _ m
  | .waddr _ _ _ _ _ m | .wake _ _ _ m => flavourMask m.oc m.fl
  | .vld _ _ _ m | .vst _ _ _ m | .vlds _ _ _ m | .vsts _ _ _ m | .vgath _ _ _ _ m | .vscat _ _ _ _ m => flavourMask m.mem.oc m.mem.fl
  | .fld _ _ _ oc _ _ | .fst _ _ _ oc _ | .fldx _ _ _ _ oc _ _ | .fstx _ _ _ _ oc _ | .cmoWb _ _ oc | .cmoWbinv _ _ oc
  | .cmoZero _ _ oc | .duct _ _ _ _ _ _ oc | .ctxsv _ _ _ oc | .ctxld _ _ _ oc | .launch _ _ _ oc => 1#16 <<< oc.val
  | .blot .. => 1
  | .fence _ _ mask => mask
  | .sbar _ | .semsig .. | .semset .. | .barr .. => BitVec.allOnes 16
  | _ => 0

/-- Vector and mask registers an instruction writes. -/
def vectorDests (i : Instr) : List Nat × List Nat :=
  let grp := fun (d : VNum) (n : Nat) => ((List.range n).map fun k => (vplus d k).val, ([] : List Nat))
  match i with
  | .vld d _ sz _ => grp d (2 ^ sz.val)
  | .tldv d sz _ _ => grp d (2 ^ sz.val)
  | .vlds d _ _ _ | .vgath d _ _ _ _ => grp d 1
  | .dcol (.v d) _ => grp d 1
  | .vadd d .. | .vsub d .. | .vmul d .. | .vmulh d .. | .vdiv d .. | .vmin d .. | .vmax d .. | .vabs d .. | .vneg d .. | .vand d ..
  | .vor d .. | .vxor d .. | .vshl d .. | .vshr d .. | .vsar d .. | .vsel d .. | .vperm d .. | .vslide d .. | .vbcast d .. | .vins d ..
  | .vunzip d .. | .vrev d .. | .vcmpr d .. | .lpack d .. | .ladd d .. | .lext d .. => grp d 1
  | .vfma _ d .. => grp d 1
  | .vbit _ d .. => grp d 1
  | .vsf _ d .. => grp d 1
  | .vaddw d .. | .vmulw d .. | .vzip d .. | .lmul d .. => grp d 2
  | .vmov d _ sz => grp d (2 ^ sz.val)
  | .vcvt o => let g := grp o.d (if o.td.width > o.ts.width then groupSize o.td o.ts else 1); (g.1 ++ if o.xd then [o.scale.val] else [], [])
  | .vcmp _ d .. => ([], [d.val])
  | .mand d .. | .mor d .. | .mxor d .. | .mset d _ => ([], [d.val])
  | _ => ([], [])

/-- The lane mask of an instruction (R120, R287). -/
def laneMask (i : Instr) : Option MNum :=
  match i with
  | .vld _ _ _ m | .vst _ _ _ m | .vlds _ _ _ m | .vsts _ _ _ m | .vgath _ _ _ _ m | .vscat _ _ _ _ m => m.mask
  | .tldv _ _ _ m | .tsta _ _ _ m => m
  | .vadd _ _ _ _ _ m | .vsub _ _ _ _ _ m | .vabs _ _ _ _ m | .vneg _ _ _ _ m => m
  | .vmul _ _ _ _ m | .vmulh _ _ _ _ m | .vdiv _ _ _ _ m | .vmin _ _ _ _ m | .vmax _ _ _ _ m | .vaddw _ _ _ _ m | .vmulw _ _ _ _ m
  | .vand _ _ _ _ m | .vor _ _ _ _ m | .vxor _ _ _ _ m | .vshl _ _ _ _ m | .vshr _ _ _ _ m | .vsar _ _ _ _ m | .vbit _ _ _ _ m
  | .vsf _ _ _ _ m | .vperm _ _ _ _ m => m
  | .vfma _ _ _ _ _ _ m | .vcmp _ _ _ _ _ m | .vslide _ _ _ _ _ m => m
  | .vrsum _ _ _ m | .vrmax _ _ _ m | .vrmin _ _ _ m | .vbcast _ _ _ m | .vrev _ _ _ m => m
  | .vsel _ _ _ _ m | .vcmpr _ _ _ m => some m
  | .vcvt o => o.mask
  | _ => none

/-- Registers of a source group beyond its first. -/
def groupReads (i : Instr) : List Nat :=
  let grp := fun (a : VNum) (n : Nat) => (List.range n).map fun k => (vplus a k).val
  match i with
  | .vst b _ sz _ => grp b (2 ^ sz.val)
  | .tsta b sz _ _ => grp b (2 ^ sz.val)
  | .vmov _ a sz => grp a (2 ^ sz.val)
  | .vperm _ _ b ty _ => grp b (if ty.lanes ≤ 256 then 1 else ty.lanes / 256)
  | .vgath _ b ty _ _ | .vscat b _ ty _ _ => grp b (if ty.width = 16 then 2 else 1)
  | .vunzip _ a _ _ => grp a 2
  | .lext _ a .. => grp a 2
  | .vcvt o => if o.ts.width > o.td.width then grp o.a (groupSize o.ts o.td) else []
  | _ => []

/-- A word of a vector register has an uncorrectable error (R413). -/
def Ctx.vecBad (x : Ctx) (r : Nat) : Bool := x.vPoison.any fun w => w / 64 == r

/-- A mask register has a single-bit error. -/
def Ctx.maskFlipped (x : Ctx) (r : Nat) : Bool := x.flips.any fun f => decide (0x8400 ≤ f.1) && (f.1 - 0x8400) / 128 == r

/-- An instruction reads a register with a single-bit error, or one of a counter's word that its own write has not corrected yet, which ECC corrects and
counts (R105): `x` is the context before, `y` after. -/
def readsFlip (x y : Ctx) (i : Instr) : Bool :=
  !x.flips.isEmpty && (((sources i).any fun r => match r with
      | .v r => x.flips.any fun f => f.1 / 512 == r.val
      | .m r => x.maskFlipped r.val
      | _ => false)
    || (groupReads i).any (fun r => x.flips.any fun f => f.1 / 512 == r) || (match laneMask i with | some m => x.maskFlipped m.val | none => false)
    || (match i with
        | .semsig _ k _ | .semwait k _ | .semtry _ k _ | .semset _ _ k => y.flips.any fun f => f.1 / 8 == 0x1000 + k.toNat / 2
        | _ => false))

/-- An instruction reads a register or counter that holds an uncorrectable error (R413). -/
def readsPoison (x : Ctx) (i : Instr) : Bool :=
  ((sources i).any fun r => match r with
    | .v r => x.vecBad r.val
    | .m r => x.mPoison.contains r.val
    | _ => false)
  || (groupReads i).any x.vecBad
  || (match laneMask i with | some m => x.mPoison.contains m.val | none => false)
  || (match i with
      | .semsig _ k _ | .semwait k _ | .semtry _ k _ | .semset _ _ k => x.semPoison.contains (k.toNat / 2)
      | _ => false)

/-- Vector and mask registers written whole hold no error any longer (R413). -/
def Ctx.cure (x : Ctx) (d : List Nat × List Nat) : Ctx :=
  { x with vPoison := x.vPoison.filter (fun w => !d.1.contains (w / 64)), mPoison := x.mPoison.filter (fun r => !d.2.contains r)
           flips := x.flips.filter fun f => !(decide (f.1 < 0x8000) && d.1.contains (f.1 / 512)) && !(decide (0x8400 ≤ f.1) && d.2.contains ((f.1 - 0x8400) / 128)) }
/-- Words `lo` to `lo + n - 1` of a vector register are written whole. -/
def Ctx.cureWords (x : Ctx) (d lo n : Nat) : Ctx :=
  let mine := fun w : Nat => w / 64 == d && decide (lo ≤ w % 64) && decide (w % 64 < lo + n)
  { x with vPoison := x.vPoison.filter fun w => !mine w, flips := x.flips.filter fun f => !(decide (f.1 < 0x8000) && mine (f.1 / 8)) }
/-- A completed instruction's writes end the errors of the words that they cover whole (R413). -/
def Ctx.curePoison (x : Ctx) (i : Instr) : Ctx :=
  if (laneMask i).isSome then x
  else match i with
  | .vins d _ ty k => if ty.width = 64 then x.cureWords d.val k.val 1 else x
  | .vcvt o =>
    let g := groupSize o.ts o.td
    if o.ts.width > o.td.width then x.cureWords o.d.val (o.k.val * (64 / g)) (64 / g) else x.cure ((vectorDests (.vcvt { o with xd := false })).1, [])
  | i => x.cure (vectorDests i)

/-- Words of a register file that a step has changed hold no single-bit error any longer (R105). -/
def Ctx.cureFlips (before x : Ctx) : Ctx :=
  if x.flips.isEmpty then x
  else { x with flips := x.flips.filter fun f =>
    if f.1 < 0x8000 then (before.getV (f.1 / 512)).extractLsb' (f.1 % 512 / 8 * 64) 64 == (x.getV (f.1 / 512)).extractLsb' (f.1 % 512 / 8 * 64) 64
    else if 0x8400 ≤ f.1 then before.getM ((f.1 - 0x8400) / 128) == x.getM ((f.1 - 0x8400) / 128)
    else let c := (f.1 - 0x8000) / 8 * 2; before.getSem c == x.getSem c && before.getSem (c + 1) == x.getSem (c + 1) }

end Sys2Proof.Machine
end

