-- ==== Sys2Proof/Machine/Flight.lean ====
section
/-! DEFINITION. Results in flight: the registers an instruction writes, the 32-bit elements of registers, landing and what a read of
trusted mode finds (04 R84-R89). -/

namespace Sys2Proof.Machine

/-! ## Registers an instruction writes -/

/-- A pair of registers. -/
def pairS (d : SReg) : List RegRef := [.s d, .s (d + 1)]
def saDest : SaReg → List RegRef
  | .s d => [.s d]
  | .a d => [.a d]

/-- Scalar, address, predicate and loop registers an instruction writes at issue; a wait instruction that does not complete then writes when its wait
ends. -/
def strandDests (i : Instr) : List RegRef :=
  match i with
  | .add d .. | .sub d .. | .addi d .. | .min d .. | .max d .. | .abs d .. | .and d .. | .or d .. | .xor d .. | .andi d .. | .ori d ..
  | .xori d .. | .shl d .. | .shr d .. | .sar d .. | .shli d .. | .shri d .. | .sari d .. | .mul d .. | .mulh d .. | .mulhu d ..
  | .div d .. | .divu d .. | .rem d .. | .remu d .. | .bext d .. | .bins d .. | .clz d .. | .ctz d .. | .popc d .. | .brev d ..
  | .pget d | .sel d .. | .movs d _ | .li d _ | .asub d .. | .lcget d _ | .fld d .. | .fldx d .. => [.s d]
  | .cmp p .. | .cmpi p .. | .cmpW p .. | .cmpiW p .. | .pand p .. | .por p .. | .pxor p .. | .acmp p .. => [.p p]
  | .pput _ m => ((List.finRange 7).filter fun k => m.getLsbD k.val).map fun k => .p (k.castLE (by decide))
  | .mova d _ | .lia d _ | .adr d _ | .aadd d .. | .aaddi d .. | .aidx d .. | .awrap d .. | .abnd d .. | .aalign d ..
  | .call d _ | .callr d _ => [.a d]
  | .lit d _ => pairS d
  | .lita d _ => [.a d, .a (d + 1)]
  | .loop d .. | .loopi d .. | .lcset d _ => [.l d]
  | .crr d _ | .crs d .. | .crc d .. | .bkr d _ | .hset d .. | .hqry d _ | .kzero d _ | .pgsvcTouch d _ | .pgsvcAlloc d _ | .pgsvcPin d _
  | .pgsvcUnpin d _ | .pgsvcQuery d _ | .blot d _ | .ctxctlSoft d _ | .ctxctlHalt d _ | .ctxctlKill d _ | .ctxctlResume d _
  | .ctxsv d .. | .ctxld d .. | .bswapOpen d .. | .launch d .. | .graphOpen d .. | .graphClose d _ | .wphaseOpen d _ | .wphaseClose d _
  | .cntr d _ | .cancel d _ => [.s d]
  | .ld d .. => saDest d
  | .atom _ d .. | .cas d .. => [.s d]
  | .dcol (.s d) _ => pairS d
  | .waddr _ _ d .. => pairS d
  | .semsig d .. | .semset d .. | .barr d _ | .btry d _ | .bmembJoin d .. | .bmembLeave d _ | .wake _ d .. | .qbind d .. | .qdepth d _
  | .cwptrLand d _ | .cwptrIss d _ => [.s d]
  | .semtry p .. => [.p p]
  | .mpop d .. | .mfirst d .. | .vrsum d .. | .vrmax d .. | .vrmin d .. | .vext d .. => [.s d]
  | .vcvt o => if o.pol = .trap then [.p o.pn] else []
  | .chpop d _ | .bwait d _ | .qunbind d _ | .bswap d | .bswapClose d | .wfe d _ | .blwait d .. => [.s d]
  | _ => []

/-- Every register an instruction writes. -/
def dests (i : Instr) : List RegRef :=
  strandDests i ++ (vectorDests i).1.map (fun n => .v (Fin.ofNat 64 n)) ++ (vectorDests i).2.map fun n => .m (Fin.ofNat 8 n)

/-- Every register an instruction reads. -/
def readsOf (i : Instr) : List RegRef :=
  carried i ++ (groupReads i).map (fun n => .v (Fin.ofNat 64 n)) ++ (match laneMask i with | some m => [.m m] | none => [])

/-! ## Elements (R88) -/

/-- One 32-bit element of a register of a strand or of its context. -/
def readElem (x : Ctx) (i : Fin 4) (r : RegRef) (e : Nat) : BitVec 32 :=
  let t := x.strands[i]
  match r with
  | .s r => t.s[r].extractLsb' (32 * e) 32
  | .a r => t.a[r].extractLsb' (32 * e) 32
  | .p r => (BitVec.ofBool (t.p.getLsbD r.val)).setWidth 32
  | .l r => t.lc[r]
  | .v r => (x.getV r.val).extractLsb' (32 * e) 32
  | .m r => (x.getM r.val).extractLsb' (32 * e) 32

/-- Replace element `e` of a bit vector. -/
def putElem {n : Nat} (v : BitVec n) (e : Nat) (b : BitVec 32) : BitVec n :=
  (v &&& ~~~((0xFFFFFFFF : BitVec n) <<< (32 * e))) ||| (b.setWidth n <<< (32 * e))

/-- Replace one element of a register. -/
def writeElem (x : Ctx) (i : Fin 4) (r : RegRef) (e : Nat) (b : BitVec 32) : Ctx :=
  match r with
  | .s r => x.modStrand i fun t => { t with s := t.s.set r (putElem t.s[r] e b) }
  | .a r => x.modStrand i fun t => { t with a := t.a.set r (putElem t.a[r] e b) }
  | .p r => x.modStrand i fun t => t.setP r (b.getLsbD 0)
  | .l r => x.modStrand i fun t => { t with lc := t.lc.set r b }
  | .v r => x.setV r.val (putElem (x.getV r.val) e b)
  | .m r => x.setM r.val (putElem (x.getM r.val) e b)

/-- Write elements in order. -/
def writeElems (x : Ctx) (i : Fin 4) (vs : List (RegRef × Nat × BitVec 32)) : Ctx := vs.foldl (fun x v => writeElem x i v.1 v.2.1 v.2.2) x

/-- Elements of a register. -/
def elemCount : RegRef → Nat
  | .s _ | .a _ => 2
  | .p _ | .l _ => 1
  | .v _ => 128
  | .m _ => 32

/-- The elements of the registers an instruction writes whose values differ between what it read and what it left. -/
def changedElems (before after : Ctx) (i : Fin 4) (ins : Instr) : List (RegRef × Nat × BitVec 32) :=
  (dests ins).flatMap fun r =>
    (List.range (elemCount r)).filterMap fun e =>
      if readElem before i r e = readElem after i r e then none else some (r, e, readElem after i r e)

/-- A register that the strands of a context share. -/
def shared : RegRef → Bool
  | .v _ | .m _ => true
  | _ => false

/-! ## Landing (R85, R87, R88) -/

/-- A transfer that the router resolves once every older write is final (R90). -/
def resolvedByRouter (i : Instr) : Bool :=
  match i with
  | .br _ | .brr _ | .call .. | .callr .. | .ret _ | .loop .. | .loopi .. | .lbreak _ | .lcset .. => true
  | _ => false

/-- Every earlier result is final before the instruction issues, and its own is final when it completes (R66, R90, R138). -/
def settlesFirst (i : Instr) : Bool := serialises i || resolvedByRouter i

/-- Results of strand `i` that have landed reach the file, in the order issued; those that stay keep their place. -/
def Ctx.landFlights (x : Ctx) (i : Fin 4) (stays : Flight → Nat → Bool) : Ctx :=
  let fs := x.strands[i].flight.zipIdx
  let y := (fs.filter fun f => !stays f.1 f.2).foldl (fun x f => writeElems x i f.1.vals) x
  y.modStrand i fun t => { t with flight := (fs.filter fun f => stays f.1 f.2).map (·.1) }

/-- The bound has passed by a cycle. -/
def Flight.past (f : Flight) (now : Nat) : Bool := match f.due with | some d => decide (d ≤ now) | none => false

/-- A result may still be out: its bound has not passed and it has not happened to land, a free choice (R87). -/
def Flight.out (f : Flight) (now tick k : Nat) : Bool :=
  match f.due with
  | some d => decide (now < d) && !Config.choice tick (2000 + k)
  | none => Config.choice tick (2000 + k)

/-- Scoreboard counters as the results in flight leave them (R85). -/
def Strand.countSb (t : Strand) : Strand :=
  { t with sb := Vector.ofFn fun k : Fin 7 => BitVec.ofNat 4 (t.flight.filter fun f => f.sb == k.val + 1).length }

/-- Landing up to the issue of an instruction by strand `i`: the bounds that have passed, and of the strand itself what WAIT names, what
happens to land, everything that a turn to checked mode finds out, and everything before an instruction that serialises or that the router resolves (R66, R85, R87, R90). -/
def Ctx.landResults (x : Ctx) (i : Fin 4) (sc : Sched) (ins : Instr) (now tick : Nat) : Ctx :=
  let y := ([0, 1, 2, 3] : List (Fin 4)).foldl (fun x j =>
    if x.strands[j].flight.isEmpty then x
    else if j = i then x.landFlights j fun f k =>
      (x.trusted || f.vals.isEmpty) && !settlesFirst ins && f.out now tick k && !(f.sb != 0 && sc.wait.getLsbD (f.sb - 1))
    else x.landFlights j fun f _ => (x.trusted || f.vals.isEmpty) && !f.past now) x
  y.modStrand i (·.countSb)

/-- Every result of every strand lands (R95). -/
def Ctx.landAll (x : Ctx) : Ctx :=
  ([0, 1, 2, 3] : List (Fin 4)).foldl (fun x j => (x.landFlights j fun _ _ => false).modStrand j (·.countSb)) x

/-- Elements in flight that a read of strand `i` may meet: its own, and those of shared registers that other strands have issued before this
step (R83, R88). -/
def Ctx.inFlightFor (x : Ctx) (i : Fin 4) (tick : Nat) : List (RegRef × Nat × BitVec 32) :=
  ([0, 1, 2, 3] : List (Fin 4)).flatMap fun j =>
    x.strands[j].flight.flatMap fun f => if f.at_ = tick then [] else f.vals.filter fun v => j == i || shared v.1

/-- What the instruction reads: each element holds its contents or a value in flight, a free choice (R88). -/
def Ctx.view (x : Ctx) (i : Fin 4) (tick : Nat) : Ctx :=
  writeElems x i (((x.inFlightFor i tick).zipIdx.filter fun e => !Config.choice tick (1000 + e.2)).map (·.1))

/-- The files as they were, where results do not land at once: the shared ones, and the strand's own unless its result is final. -/
def Ctx.keepFiles (x y : Ctx) (i : Fin 4) (final : Bool) : Ctx :=
  let z := { y with v := x.v, m := x.m }
  if final then z
  else z.modStrand i fun t => { t with s := x.strands[i].s, a := x.strands[i].a, p := x.strands[i].p }

/-! ## Hint misses (R89) -/

/-- A register whose writes are discarded. -/
def wired : RegRef → Bool
  | .s r => r == 0
  | .p r => r == 7
  | _ => false

/-- The instruction with guard predicate `g` must wait for a result in flight: it reads or writes a register that the result writes. -/
def Flight.blocks (f : Flight) (g : PReg) (ins : Instr) : Bool :=
  f.writes.any fun r => !wired r && (r == .p g || (readsOf ins).contains r || (dests ins).contains r)

/-- A register interlock holds the instruction on results of its own strand, or on shared registers of another (R87). -/
def Ctx.interlocked (x : Ctx) (i : Fin 4) (g : PReg) (ins : Instr) : Bool :=
  ([0, 1, 2, 3] : List (Fin 4)).any fun j =>
    x.strands[j].flight.any fun f => (j == i || f.writes.any shared) && f.blocks g ins

/-- An older instruction of another queue, with no token between them, held it at its queue's head: one that has issued since its own queue
issued last (R89). -/
def Strand.crossHeld (t : Strand) (q : Queue) (sc : Sched) (ins : Instr) : Bool :=
  sc.tok &&& 0b1100 = 0 && (t.recent.takeWhile fun f => f.queue != q).any fun f =>
    f.blocks sc.guardP ins || f.reads.any fun r => !wired r && (dests ins).contains r

/-- The results an instruction of checked mode has waited for have landed. -/
def Ctx.waitedFor (x : Ctx) (g : PReg) (ins : Instr) : Ctx :=
  { x with strands := x.strands.map fun t : Strand => if t.flight.isEmpty then t else { t with flight := t.flight.filter fun f => !f.blocks g ins } }

/-- Count a hint miss of checked mode, once, in the field of what held the instruction last (R89). Whether the instruction stood at its queue's
head before the older one of the other queue had issued is a free choice. -/
def Ctx.countMiss (x : Ctx) (i : Fin 4) (q : Queue) (sc : Sched) (ins : Instr) (tick : Nat) : Ctx :=
  if x.trusted then x
  else if x.interlocked i sc.guardP ins then { x with regm := if x.regm = BitVec.allOnes 32 then x.regm else x.regm + 1 }
  else if x.strands[i].crossHeld q sc ins && Config.choice tick 0 then
    { x with tokm := if x.tokm = BitVec.allOnes 32 then x.tokm else x.tokm + 1 }
  else x

end Sys2Proof.Machine
end

