-- ==== Sys2Proof/Machine/Cipher.lean ====
section
/-! DEFINITION. The ciphers that R414, R415, R364 and R420 name: AES-256 (FIPS 197) with XTS (IEEE 1619) and key wrap (RFC 3394), and the Keccak
functions SHAKE256 (FIPS 202) and KMAC256 (SP 800-185). Bytes stand in the order in which those standards write them. -/

namespace Sys2Proof.Machine

/-! ## AES-256 -/

/-- The substitution of a byte, 32 bytes to a row from the lowest. -/
def aesSbox : Vector (BitVec 256) 8 := #v[
  0xC072A49CAFA2D4ADF04759FA7DC982CA76ABD7FE2B670130C56F6BF27B777C63,
  0x75B227EBE28012079A059618C323C7041531D871F1E5A534CCF73F362693FDB7,
  0xCF584C4A39BECB6A5BB1FC20ED00D153842FE329B3D63B52A05A6E1B1A2C8309,
  0xD2F3FF1021DAB6BCF5389D928F40A351A89F3C507F02F94585334D43FBAAEFD0,
  0xDB0B5EDE14B8EE4688902A22DC4F816073195D643D7EA7C41744975FEC130CCD,
  0x08AE7A65EAF4566CA94ED58D6D37C8E779E4959162ACD3C25C2406490A3A32E0,
  0x9E1DC186B95735610EF6034866B53E708A8BBD4B1F74DDE8C6B4A61C2E2578BA,
  0x16BB54B00F2D99416842E6BF0D89A18CDF2855CEE9871E9B948ED9691198F8E1]
/-- Its inverse. -/
def aesInvSbox : Vector (BitVec 256) 8 := #v[
  0xCBE9DEC444438E3487FF2F9B8239E37CFBD7F3819EA340BF38A53630D56A0952,
  0x25D18B6D49A25B76B224D92866A12E084EC3FA420B954CEE3D23C2A632947B54,
  0x849D8DA75746155EDAB9EDFD5048706C92B6655DCC5CA4D41698688664F6F872,
  0x6B8A130103BDAFC1020F3FCA8F1E2CD00645B3B80558E4F70AD3BC8C00ABD890,
  0x6EDF751CE837F9E28535ADE72274AC9673E6B4F0CECFF297EADC674F4111913A,
  0xF45ACD78FEC0DB9A2079D2C64B3E56FC1BBE18AA0E62B76F89C5291D711AF147,
  0xEF9CC9939F7AE52D0D4AB519A97F51605FEC8027591012B131C7078833A8DD1F,
  0x7D0C2155631469E126D677BA7E042B17619953833CBBEBC8B0F52AAE4D3BE0A0]
/-- Look a byte up in a table of 256. -/
def aesLook (t : Vector (BitVec 256) 8) (b : Byte) : Byte := ((t[b.toNat / 32]!) >>> (8 * (b.toNat % 32))).setWidth 8
/-- Product with x in the field of AES. -/
def aesDouble (b : Byte) : Byte := if b.msb then (b <<< 1) ^^^ 0x1B else b <<< 1
/-- Product of a constant below 16 and a byte. -/
def aesTimes (c : Nat) (b : Byte) : Byte :=
  let b2 := aesDouble b
  let b4 := aesDouble b2
  (if c.testBit 0 then b else 0) ^^^ (if c.testBit 1 then b2 else 0) ^^^ (if c.testBit 2 then b4 else 0) ^^^ (if c.testBit 3 then aesDouble b4 else 0)
/-- Exclusive or of two byte strings. -/
def xorBytes (a b : List Byte) : List Byte := List.zipWith (· ^^^ ·) a b
/-- Row shift: byte i comes from i + k (i mod 4). -/
def aesShift (k : Nat) (st : List Byte) : List Byte := (List.range 16).map fun i => st.getD ((i + k * (i % 4)) % 16) 0
/-- Column mix by a row of four constants. -/
def aesMix (row : List Nat) (st : List Byte) : List Byte :=
  (List.range 16).map fun i =>
    ((List.range 4).map fun j => aesTimes (row.getD ((j + 4 - i % 4) % 4) 0) (st.getD (i / 4 * 4 + j) 0)).foldl (· ^^^ ·) 0
/-- The 60 words of the key schedule, latest first. -/
def aesWords (key : List Byte) : List (List Byte) :=
  (List.range 52).foldl (fun ws n =>
    let i := n + 8
    let t := ws.headD []
    let t := if i % 8 = 0 then xorBytes (((t.drop 1) ++ t.take 1).map (aesLook aesSbox)) [BitVec.ofNat 8 (2 ^ (i / 8 - 1)), 0, 0, 0]
      else if i % 8 = 4 then t.map (aesLook aesSbox) else t
    xorBytes (ws.getD 7 []) t :: ws) ((List.range 8).map fun i => (key.drop (4 * i)).take 4).reverse
/-- The 15 round keys, in order. -/
def aesKeys (key : List Byte) : List (List Byte) :=
  let ws := (aesWords key).reverse
  (List.range 15).map fun r => ((ws.drop (4 * r)).take 4).flatten
/-- AES-256 encryption of a block under its round keys. -/
def aesEncrypt (ks : List (List Byte)) (b : List Byte) : List Byte :=
  let st := ((ks.drop 1).take 13).foldl (fun st k => xorBytes (aesMix [2, 3, 1, 1] (aesShift 4 (st.map (aesLook aesSbox)))) k) (xorBytes b (ks.headD []))
  xorBytes (aesShift 4 (st.map (aesLook aesSbox))) (ks.getD 14 [])
/-- AES-256 decryption of a block. -/
def aesDecrypt (ks : List (List Byte)) (b : List Byte) : List Byte :=
  let st := (((ks.drop 1).take 13).reverse).foldl (fun st k => aesMix [14, 11, 13, 9] (xorBytes ((aesShift 12 st).map (aesLook aesInvSbox)) k))
    (xorBytes b (ks.getD 14 []))
  xorBytes ((aesShift 12 st).map (aesLook aesInvSbox)) (ks.headD [])

/-- The 16 little-endian bytes of a tweak times x (IEEE 1619). -/
def xtsDouble (t : List Byte) : List Byte :=
  ((List.range 16).map fun i => ((t.getD i 0) <<< 1) ||| (if i = 0 then (0 : Byte) else (t.getD (i - 1) 0) >>> 7)).zipIdx.map fun e =>
    if e.2 = 0 && (t.getD 15 0).msb then e.1 ^^^ 0x87 else e.1
/-- XTS of a data unit of whole blocks: the block function, the first tweak. -/
def xtsUnit (f : List Byte → List Byte) : List Byte → Nat → List Byte → List Byte
  | _, 0, _ => []
  | t, n + 1, bs => xorBytes (f (xorBytes (bs.take 16) t)) t ++ xtsUnit f (xtsDouble t) n (bs.drop 16)
/-- The 32 bytes of the n-th of three 256-bit keys: the two of XTS, then the tag key (R415). -/
def keyBytes (keys : BitVec 768) (n : Nat) : List Byte := (List.range 32).map fun i => (keys >>> (256 * n + 8 * i)).setWidth 8
/-- The first tweak of a sector: MA[51:6] as a little-endian 128-bit value under the second key (R414). -/
def xtsTweak (keys : BitVec 768) (sector : Nat) : List Byte :=
  aesEncrypt (aesKeys (keyBytes keys 1)) ((List.range 16).map fun i => BitVec.ofNat 8 (sector >>> (8 * i)))
/-- Ciphertext of a 64-byte sector (R414). -/
def sectorEncrypt (keys : BitVec 768) (sector : Nat) (bs : List Byte) : List Byte :=
  xtsUnit (aesEncrypt (aesKeys (keyBytes keys 0))) (xtsTweak keys sector) 4 bs
/-- Plaintext of a 64-byte sector (R414). -/
def sectorDecrypt (keys : BitVec 768) (sector : Nat) (bs : List Byte) : List Byte :=
  xtsUnit (aesDecrypt (aesKeys (keyBytes keys 0))) (xtsTweak keys sector) 4 bs

/-- AES key unwrap (RFC 3394) of n + 1 blocks of 8 bytes under a 32-byte key: the integrity value and the n blocks. -/
def keyUnwrap (kek : List Byte) (n : Nat) (blob : List Byte) : List Byte × List Byte :=
  let ks := aesKeys kek
  let steps := ((List.range 6).flatMap fun j => (List.range n).map fun i => (i, n * j + i + 1)).reverse
  steps.foldl (fun st e =>
    let t := (List.range 8).map fun k => BitVec.ofNat 8 (e.2 >>> (8 * (7 - k)))
    let b := aesDecrypt ks (xorBytes st.1 t ++ (st.2.drop (8 * e.1)).take 8)
    (b.take 8, st.2.take (8 * e.1) ++ b.drop 8 ++ st.2.drop (8 * e.1 + 8))) (blob.take 8, blob.drop 8)

/-! ## Keccak -/

/-- Round constants. -/
def keccakRounds : List (BitVec 64) := [
  0x0000000000000001, 0x0000000000008082, 0x800000000000808A, 0x8000000080008000,
  0x000000000000808B, 0x0000000080000001, 0x8000000080008081, 0x8000000000008009,
  0x000000000000008A, 0x0000000000000088, 0x0000000080008009, 0x000000008000000A,
  0x000000008000808B, 0x800000000000008B, 0x8000000000008089, 0x8000000000008003,
  0x8000000000008002, 0x8000000000000080, 0x000000000000800A, 0x800000008000000A,
  0x8000000080008081, 0x8000000000008080, 0x0000000080000001, 0x8000000080008008]
/-- For each lane of the result: the lane it comes from and its rotation. -/
def keccakMoves : List (Nat × Nat) := [(0, 0), (6, 44), (12, 43), (18, 21), (24, 14), (3, 28), (9, 20), (10, 3), (16, 45), (22, 61), (1, 1), (7, 6), (13, 25), (19, 8), (20, 18), (4, 27), (5, 36), (11, 10), (17, 15), (23, 56), (2, 62), (8, 55), (14, 39), (15, 41), (21, 2)]
/-- One round. -/
def keccakRound (a : List (BitVec 64)) (rc : BitVec 64) : List (BitVec 64) :=
  let c := (List.range 5).map fun x => ((List.range 5).map fun y => a.getD (x + 5 * y) 0).foldl (· ^^^ ·) 0
  let a := a.zipIdx.map fun e => e.1 ^^^ c.getD ((e.2 + 4) % 5) 0 ^^^ (c.getD ((e.2 + 1) % 5) 0).rotateLeft 1
  let b := keccakMoves.map fun m => (a.getD m.1 0).rotateLeft m.2
  (List.range 25).map fun i =>
    let y := i / 5 * 5
    let v := b.getD i 0 ^^^ (~~~(b.getD (y + (i + 1) % 5) 0) &&& b.getD (y + (i + 2) % 5) 0)
    if i = 0 then v ^^^ rc else v
/-- KECCAK-f[1600]. -/
def keccakF (a : List (BitVec 64)) : List (BitVec 64) := keccakRounds.foldl keccakRound a
/-- Absorb one block of 136 bytes. -/
def keccakBlock (a : List (BitVec 64)) (b : List Byte) : List (BitVec 64) :=
  keccakF (a.zipIdx.map fun e => e.1 ^^^
    ((List.range 8).foldl (fun v k => v ||| ((b.getD (8 * e.2 + k) 0).setWidth 64 <<< (8 * k))) 0))
/-- Absorb padded bytes, block by block. -/
def keccakAbsorb : Nat → List (BitVec 64) → List Byte → List (BitVec 64)
  | 0, a, _ => a
  | n + 1, a, bs => keccakAbsorb n (keccakBlock a (bs.take 136)) (bs.drop 136)
/-- The sponge of capacity 512 with a domain suffix: up to 136 bytes of output. -/
def keccak512 (suffix : Byte) (msg : List Byte) (outLen : Nat) : List Byte :=
  let n := msg.length / 136 + 1
  let pad := n * 136 - msg.length
  let tail := if pad = 1 then [suffix ||| 0x80] else suffix :: List.replicate (pad - 2) 0 ++ [0x80]
  let a := keccakAbsorb n (List.replicate 25 (0 : BitVec 64)) (msg ++ tail)
  (a.flatMap fun w : BitVec 64 => (List.range 8).map fun k => (w >>> (8 * k)).setWidth 8).take outLen
/-- SHAKE256. -/
def shake256 (msg : List Byte) (outLen : Nat) : List Byte := keccak512 0x1F msg outLen
/-- The bytes of a number, most significant first, at least one. -/
def beBytes (v : Nat) : List Byte :=
  let n := Nat.max 1 ((v.log2 + 8) / 8)
  (List.range n).map fun i => BitVec.ofNat 8 (v >>> (8 * (n - 1 - i)))
def leftEncode (v : Nat) : List Byte := BitVec.ofNat 8 (beBytes v).length :: beBytes v
def rightEncode (v : Nat) : List Byte := beBytes v ++ [BitVec.ofNat 8 (beBytes v).length]
def encodeString (bs : List Byte) : List Byte := leftEncode (8 * bs.length) ++ bs
def bytePad (bs : List Byte) : List Byte :=
  let z := leftEncode 136 ++ bs
  z ++ List.replicate ((136 - z.length % 136) % 136) 0
/-- KMAC256 of SP 800-185: key, message, bytes of output, customisation string. -/
def kmac256 (key msg : List Byte) (outLen : Nat) (custom : List Byte) : List Byte :=
  keccak512 0x04 (bytePad (encodeString [0x4B, 0x4D, 0x41, 0x43] ++ encodeString custom) ++ bytePad (encodeString key) ++ msg ++ rightEncode (8 * outLen)) outLen

/-- The 64-bit tag of a sector's ciphertext: KMAC256 under the third key with "OZTAG", over MA[51:6] and the ciphertext (R414). -/
def sectorTag (keys : BitVec 768) (sector : Nat) (cipher : List Byte) : List Byte :=
  kmac256 (keyBytes keys 2) (((List.range 8).map fun i => BitVec.ofNat 8 (sector >>> (8 * i))) ++ cipher) 8 [0x4F, 0x5A, 0x54, 0x41, 0x47]

end Sys2Proof.Machine
end

