-- ==== Sys2Proof/Machine/Memory.lean ====
section
/-! DEFINITION. Memory: bytes by machine key, key slots and poison, translation at the owner (10 R172-R186, 27 R411-R415). -/

namespace Sys2Proof.Machine

/-! ## Little-endian words (R5) -/

/-- The number whose little-endian bytes are given. -/
def leNat : List Byte → Nat
  | [] => 0
  | b :: bs => b.toNat + 256 * leNat bs

/-- The `n` little-endian bytes of a number. -/
def leBytes (n v : Nat) : List Byte := (List.range n).map fun i => BitVec.ofNat 8 (v >>> (8 * i))

/-- A word of 8 bytes. -/
def leWord (bs : List Byte) : Word := BitVec.ofNat 64 (leNat bs)

/-- Bits [hi:lo] of a word as a number. -/
def fld (w : Word) (hi lo : Nat) : Nat := (w.toNat >>> lo) % 2 ^ (hi + 1 - lo)

/-! ## Raw memory by machine key -/

/-- What an unlisted byte reads as (log 1). -/
def emptyByte : Byte := 0
/-- The canonical form of memory. -/
def memWf (m : SMap Byte) : Bool := SMap.wf emptyByte m
def State.rawByte (s : State) (k : Nat) : Byte := SMap.get emptyByte s.mem k
def State.rawBytes (s : State) (k n : Nat) : List Byte := (List.range n).map fun i => s.rawByte (k + i)
def State.rawWord (s : State) (k : Nat) : Word := leWord (s.rawBytes k 8)
def State.setRaw (s : State) (k : Nat) (b : Byte) : State := { s with mem := SMap.put emptyByte s.mem k b }
def State.setRaws (s : State) (k : Nat) : List Byte → State
  | [] => s
  | b :: bs => (s.setRaw k b).setRaws (k + 1) bs

/-- Machine key of a machine address of an owner's package; a host address carries its PASID above bit 80 (R180, R394). -/
def maKey (o ma : Nat) : Nat := o / 4 * 2 ^ 52 + ma % 2 ^ 52 + ma / 2 ^ 80 * 2 ^ 80
/-- Location MA[51:48] of a machine key (R180). -/
def keyLoc (k : Nat) : Nat := k % 2 ^ 52 / 2 ^ 48
/-- The key is in HBM. -/
def keyNear (k : Nat) : Bool := keyLoc k < 4
/-- Bytes of HBM at a compute die: two stacks of 64 GB, of 10^9 bytes each (R2, R6). -/
def hbmSize : Nat := 128 * 10 ^ 9
/-- The key names memory that exists: HBM has no byte beyond its capacity (R2). -/
def keyReal (k : Nat) : Bool := !keyNear k || decide (k % 2 ^ 48 < hbmSize)
/-- Owner number of the die whose HBM holds a key. -/
def keyDie (k : Nat) : Nat := k / 2 ^ 52 * 4 + keyLoc k
/-- Owner number of the die that holds a machine address of an owner's package; its frame table has the frame (R182, R189). -/
def maDie (o ma : Nat) : Nat := o / 4 * 4 + ma / 2 ^ 48 % 16

/-! ## Failures of an access -/

/-- Why an access of R117 does not perform, with STAGE where the cause has one (R156). -/
inductive MemErr where
  | accessFault (stage : BitVec 2)
  | xlateMiss (stage : BitVec 2)
  | xlatePerm (stage : BitVec 2)
  | memUe
  | memIntegrity
  /-- Valid, not resident (R182): a strand waits, an engine aborts with PAGE_ABSENT. -/
  | absent
  /-- A byte of a memory extent of a blotter job: every access waits (R389). -/
  | held
  deriving DecidableEq, Repr

/-- Access kinds of R174. -/
inductive Kind where
  | rd | wr | fetch | rmw
  deriving DecidableEq, Repr

/-- The agent of an access: its die, partition and address space (R172-R176), the virtual interface its host addresses are behind (R394), and
whether its reads are made at the home, never in a margin cache (R123, R124, R193, R210). -/
structure Agent where
  die : Nat
  part : Fin 16
  asid : BitVec 12
  vi : Option Nat := none
  home : Bool := false
  /-- Memory as a unit's launch record was acquired, for its fetches (R40). -/
  code : Option (SMap Byte × SMap Sector) := none
  deriving DecidableEq, Repr

/-! ## Encryption and poison (R411-R415) -/

/-- Keys of a LIVE slot; none means refused (R415). -/
def State.liveKeys (s : State) (slot : Nat) : Option (BitVec 768) :=
  let k := SMap.get {} s.keys slot
  if k.st = .live then some k.keys else none

/-- Sector record of a key. -/
def State.sector (s : State) (k : Nat) : Sector := SMap.get {} s.sectors (k / 64)

/-- One byte of an HBM sector as a reader without its key sees it (R414). -/
def State.cipherByte (s : State) (k : Nat) : Byte :=
  match (s.sector k).keys with
  | none => s.rawByte k
  | some ks => (sectorEncrypt ks (k % 2 ^ 52 / 64) (s.rawBytes (k / 64 * 64) 64)).getD (k % 64) 0
/-- The 64 bytes that stand in the sector of a key. -/
def State.cipherSector (s : State) (k : Nat) : List Byte := (List.range 64).map fun i => s.cipherByte (k / 64 * 64 + i)
/-- A word as a reader without keys sees it. -/
def State.plainWord (s : State) (k : Nat) : Word :=
  if (s.sector k).keys.isNone then s.rawWord k else leWord ((List.range 8).map fun i => s.cipherByte (k + i))

/-- One byte as decryption under given keys yields it, whatever the tag says (R412, R414). -/
def State.clearByte (s : State) (keys : BitVec 768) (k : Nat) : Byte :=
  let c := s.sector k
  if c.clean then 0 else if c.keys = some keys then s.rawByte k else (sectorDecrypt keys (k % 2 ^ 52 / 64) (s.cipherSector k)).getD (k % 64) 0

/-- The tag that stands with a sector: of its ciphertext under the keys it was written with; what a write outside every key leaves there is open. -/
def State.tagOf (s : State) (k : Nat) : List Byte :=
  match (s.sector k).keys with
  | some ks => sectorTag ks (k % 2 ^ 52 / 64) (s.cipherSector k)
  | none => leBytes 8 (Config.plainTag (k % 2 ^ 52 / 64) (s.rawBytes (k / 64 * 64) 64)).toNat

/-- The tag of a sector passes under given keys (R412). -/
def State.tagOk (s : State) (keys : BitVec 768) (k : Nat) : Bool :=
  let c := s.sector k
  c.clean || (!c.badTag && (c.keys = some keys || s.tagOf k = sectorTag keys (k % 2 ^ 52 / 64) (s.cipherSector k)))

/-- Poison of a key's sector or L2 line (R411, R413). -/
def State.poisoned (s : State) (k : Nat) : Bool :=
  keyNear k && ((s.die (keyDie k)).hbmPoison.contains (k / 64) || (s.die (keyDie k)).l2Poison.contains (k / 128))

/-- Read one byte under a page's encryption: a refused slot reads nothing (R415), then poison, then the tag (R117, R412). -/
def State.readByte (s : State) (k : Nat) (enc : Option Nat) : Except MemErr Byte :=
  if !keyNear k then .ok (s.rawByte k)
  else match enc with
  | none => if s.poisoned k then .error .memUe else .ok (s.cipherByte k)
  | some slot =>
    match s.liveKeys slot with
    | none => .error (.accessFault 0)
    | some ks => if s.poisoned k then .error .memUe else if s.tagOk ks k then .ok (s.clearByte ks k) else .error .memIntegrity

/-- The line of a translated byte by its address space and virtual address, which a margin cache is tagged by (R174). -/
def Xl.line (x : Xl) : Nat := x.asid.toNat * 2 ^ 57 + (x.owner * 2 ^ 48 + x.off) / 128
/-- Read a translated byte: from the copy of its line in the reader's margin cache, where there is one (R234), else where it lives. -/
def State.readByteOf (s : State) (x : Xl) : Except MemErr Byte :=
  match (if x.home then none else x.via).bind fun d => (SMap.find (s.die d).margin x.line).map fun c => (c, (s.die d).marginBad.contains x.line) with
  | some (c, bad) => if bad then .error .memUe else .ok (c.2.getD (x.key % 128) 0)
  | none => s.readByte x.key x.enc

/-- Keys of a write under a page's encryption; the error is a refused slot. -/
def State.writeKeys (s : State) (k : Nat) (enc : Option Nat) : Except MemErr (Option (BitVec 768)) :=
  if !keyNear k then .ok none
  else match enc with
  | none => .ok none
  | some slot =>
    match s.liveKeys slot with
    | none => .error (.accessFault 0)
    | some ks => .ok (some ks)

/-- Bring a sector under the keys of a write: its other bytes are what the writer decrypts them to (R414). -/
def State.prepSector (s : State) (k : Nat) (keys : Option (BitVec 768)) : State :=
  let c := s.sector k
  if !keyNear k || (c.keys = keys && !c.clean && !c.badTag) then s
  else
    let base := k / 64 * 64
    let bytes := (List.range 64).map fun i =>
      match keys with
      | none => s.cipherByte (base + i)
      | some ks => s.clearByte ks (base + i)
    { s.setRaws base bytes with sectors := SMap.put {} s.sectors (k / 64) { keys := keys } }

/-- Write one byte under given keys. -/
def State.writeByte (s : State) (k : Nat) (keys : Option (BitVec 768)) (b : Byte) : State := (s.prepSector k keys).setRaw k b

/-! ## Partitions and ports -/

/-- Key of a partition record: by number in this package, apart for each other package (R406). -/
def State.partKey (s : State) (pkg : Nat) (q : Fin 16) : Nat := if pkg = s.package then q.val else 16 * (pkg + 1) + q.val
/-- Reset generation of a partition of this package (R410). -/
def State.partGen (s : State) (q : Fin 16) : BitVec 8 := (SMap.get {} s.parts q.val).gen
def State.port (s : State) (n : Nat) : Port := SMap.get {} s.ports n
def State.setPort (s : State) (n : Nat) (p : Port) : State := { s with ports := SMap.set s.ports n p }
/-- A direction has a data counter value left under its key (R409). -/
def Direction.open_ (d : Direction) : Bool := !d.exhausted && d.counter.toNat < 2 ^ 48 - 1
/-- A data flit passes in a direction: its counter moves on, and no value is used twice (R409). -/
def Direction.count (d : Direction) : Direction := if d.counter.toNat < 2 ^ 48 - 1 then { d with counter := d.counter + 1 } else d
/-- The port through which a package is reached (R407, log 14). -/
def portOf (pkg : Nat) : Nat := Config.route pkg % 16
/-- The port's lanes carry data, and both directions have counter values left (R408, R409). -/
def Port.carries (p : Port) : Bool := p.lanes != .down && !p.retraining && p.egress.open_ && p.ingress.open_
/-- The accesses of this package's agents to lines of other packages cross a port: a request goes out and its response comes back, for each line (R407). -/
def State.crossLinks (s : State) (xs : List Xl) : State :=
  ((xs.filter fun x => x.owner / 4 ≠ s.package && x.part.isSome).pwFilter fun x y => x.key / 128 ≠ y.key / 128).foldl (fun s x =>
    let n := portOf (x.owner / 4)
    s.setPort n { s.port n with egress := (s.port n).egress.count, ingress := (s.port n).ingress.count }) s

/-! ## Translation (R175-R185) -/

/-- Partition q holds a quad of the package (R173, R406); until the part has booted, partition 0 stands for the whole package, as
the boot march launch of R76 needs (log 20). -/
def State.partIn (s : State) (pkg : Nat) (q : Fin 16) : Bool :=
  (decide (s.boot < 7) && q == 0 && pkg == s.package) ||
  (SMap.get {} s.parts (s.partKey pkg q)).quads ≠ 0

/-- The owner an address names (R172); none when it does not exist in the domain or lies outside the partition (R173). -/
def State.owner (s : State) (ag : Agent) (va : Word) : Option Nat :=
  let o := if va.extractLsb' 48 16 = 0xFFFF then ag.die else (va.extractLsb' 48 16).toNat
  if s.domain.contains (o / 4) && s.partIn (o / 4) ag.part then some o else none

/-- A node named by a root or index entry (R177, R179): split or not, and its address. -/
def nodeOf (tenant index : Bool) (e : Word) : Option (Bool × Nat) :=
  let a := fld e 51 12 * 4096
  if fld e 61 52 ≠ 0 || fld e 11 0 ≠ 0 || (tenant && fld e 51 48 ≠ 0) then none
  else match fld e 63 62 with
  | 1 => if index || fld e 20 12 = 0 then some (false, a) else none
  | 2 => if index then none else some (true, a)
  | _ => none

/-- Read one entry of a node by its 18-bit index, through the index page of a split node (R179); the address comes with it. -/
def nodeRead {ε : Type} (tenant : Bool) (rd : Nat → Except ε Word) (miss : ε) (node : Bool × Nat) (i : Nat) :
    Except ε (Nat × Word) :=
  if node.1 then
    match rd (node.2 + 8 * (i / 512)) with
    | .error e => .error e
    | .ok e =>
      match nodeOf tenant true e with
      | none => .error miss
      | some n => (rd (n.2 + 8 * (i % 512))).map fun w => (n.2 + 8 * (i % 512), w)
  else (rd (node.2 + 8 * i)).map fun w => (node.2 + 8 * i, w)

/-- SIZE of a leaf entry (R178). -/
def leafSize (e : Word) : Nat := fld e 55 52

/-- The `n` words from a key all have one value and no error, judged on the listed bytes of memory in canonical form. -/
def State.uniform (s : State) (k n : Nat) (e : Word) : Bool :=
  (s.die (keyDie k)).hbmPoison.isEmpty && (s.die (keyDie k)).l2Poison.isEmpty
    && s.sectors.all (fun c => c.2.keys.isNone || c.1 * 64 + 64 ≤ k || k + 8 * n ≤ c.1 * 64) &&
  let bs := (s.mem.filter fun c => k ≤ c.1 && c.1 < k + 8 * n)
  bs.all (fun c => c.2 == BitVec.ofNat 8 (e.toNat >>> (8 * ((c.1 - k) % 8)))) && bs.length == n * ((leBytes 8 e.toNat).filter (· != 0)).length

/-- The entry that a translation uses where the walk reads entry `i` at `a`, of value `e`: one of its group's, a free choice (R178, log 28).
Where `same` finds the whole group written alike every choice is `e`, and none is made. -/
def groupEntry {ε : Type} (pick : Nat → Nat) (same : Nat → Nat → Word → Bool) (tenant : Bool) (rd : Nat → Except ε Word) (miss : ε)
    (node : Bool × Nat) (i a : Nat) (e : Word) : Word :=
  let n := 2 ^ leafSize e
  if n = 1 || ((n ≤ 512 || !node.1) && same (a - 8 * (i % n)) n e) then e
  else match nodeRead tenant rd miss node (i / n * n + pick i % n) with
    | .ok (_, w) => w
    | .error _ => e

/-- The walk of one stage: address of the leaf entry for a 48-bit offset, and the value it translates by (R177-R179). -/
def walk {ε : Type} (pick : Nat → Nat) (same : Nat → Nat → Word → Bool) (tenant : Bool) (rd : Nat → Except ε Word) (miss : ε) (root : Bool × Nat) (off : Nat) :
    Except ε (Nat × Word) :=
  match nodeRead tenant rd miss root (off / 2 ^ 30 % 2 ^ 18) with
  | .error e => .error e
  | .ok (_, e) =>
    match nodeOf tenant false e with
    | none => .error miss
    | some n =>
      let i := off / 2 ^ 12 % 2 ^ 18
      (nodeRead tenant rd miss n i).map fun r => (r.1, groupEntry pick same tenant rd miss n i r.1 r.2)

/-- The base has none of its low SIZE bits set (R178). -/
def baseAligned (e : Word) : Bool := fld e 47 12 % 2 ^ leafSize e == 0
/-- A hypervisor leaf entry is valid (R178, R180). -/
def hypValid (e : Word) : Bool :=
  (fld e 63 62 == 1 || fld e 63 62 == 2) && fld e 0 0 == 0 && fld e 51 48 ≤ 5 && baseAligned e
/-- Zero fields of a tenant leaf entry (R178); a demand entry keeps only X, W, R, RM and SIZE (R183). -/
def tenZero (e : Word) : Bool := fld e 57 56 == 0 && fld e 51 48 == 0

/-- Permissions of a leaf entry: X, W, R at [61:59]; where X is set no write is allowed (R181). -/
def permOk (k : Kind) (e : Word) : Bool :=
  match k with
  | .fetch => e.getLsbD 61
  | .rd => e.getLsbD 59
  | .wr => e.getLsbD 60 && !e.getLsbD 61
  | .rmw => e.getLsbD 60 && e.getLsbD 59 && !e.getLsbD 61

/-- An address-space descriptor (R176). -/
def State.descBase (s : State) (o : Nat) (asid : BitVec 12) : Nat := maKey o ((s.die o).asdbase.toNat + 64 * asid.toNat)
def State.desc (s : State) (o : Nat) (asid : BitVec 12) : Vector Word 8 :=
  Vector.ofFn fun i => s.plainWord (s.descBase o asid + 8 * i.val)

/-- The descriptor is valid: TV, HV, and every other bit zero (R176). -/
def descOk (d : Vector Word 8) : Bool :=
  d[0].getLsbD 63 && d[1].getLsbD 63 && fld d[0] 61 48 == 0 && fld d[0] 11 0 == 0 && fld d[1] 61 52 == 0 && fld d[1] 11 0 == 0
    && fld d[2] 63 52 == 0 && fld d[2] 5 0 == 0 && fld d[3] 63 4 == 0
    && d[4] == 0 && d[5] == 0 && d[6] == 0 && d[7] == 0
    && (d[0].getLsbD 62 || fld d[0] 20 12 == 0) && (d[1].getLsbD 62 || fld d[1] 20 12 == 0)

/-- The PASID that an address space's host addresses behind a port are under: of the lowest VI of the port that is enabled for it (R394, R401,
log 107). -/
def State.pasidVi (s : State) (asid : BitVec 12) (port : Nat) : Option Nat :=
  (s.vis.find? fun e => e.2.en && e.2.asid == asid && e.1 / 256 == port).map (·.1)
def State.pasid (s : State) (asid : BitVec 12) (port : Nat) : Nat :=
  ((s.pasidVi asid port).map fun n => (SMap.get {} s.vis n).pasid.toNat).getD 0
/-- A host-tier byte as the units of a virtual interface reach it: under that interface's own PASID (R394). -/
def State.under (s : State) (vi : Option Nat) (x : Xl) : Xl :=
  match vi with
  | some v => if keyNear x.key then x else { x with key := x.key % 2 ^ 80 + (SMap.get {} s.vis v).pasid.toNat * 2 ^ 80 }
  | none => x
/-- A machine address as an address space uses it: one of the host tier is under the PASID of its port (R180). -/
def State.maFor (s : State) (asid : BitVec 12) (ma : Nat) : Nat :=
  if 4 ≤ ma / 2 ^ 48 % 16 then ma % 2 ^ 80 + s.pasid asid (ma / 2 ^ 48 % 16 - 4) * 2 ^ 80 else ma

/-- A key lies in a memory extent of a queued or running blotter job (R389). -/
def State.blotHeld (s : State) (k : Nat) : Bool :=
  keyNear k && (s.die (keyDie k)).blotJobs.any fun j => j.extents.any fun e =>
    match e with
    | .ctx _ _ => false
    | .mem ma n => decide (ma.toNat ≤ k % 2 ^ 52) && decide (k % 2 ^ 52 < ma.toNat + n * 2 ^ 21)

/-- The hypervisor stage for an intermediate address: leaf entry's key and value (R175-R181). -/
def State.hypWalk (s : State) (o : Nat) (d : Vector Word 8) (ia : Nat) : Except MemErr (Nat × Word) :=
  let rd := fun ma : Nat => if ma / 2 ^ 48 = o % 4 ∧ ma % 2 ^ 48 < hbmSize then (if s.blotHeld (maKey o ma) then .error .held else if s.poisoned (maKey o ma) then .error MemErr.memUe else .ok (s.plainWord (maKey o ma))) else .error (MemErr.xlateMiss 2)
  match walk (Config.groupEntry s.tick) (fun a n e => s.uniform (maKey o a) n e) false rd (.xlateMiss 2) (d[1].getLsbD 62, fld d[1] 51 12 * 4096) ia with
  | .error e => .error e
  | .ok (a, e) => if hypValid e then .ok (maKey o a, e) else .error (.xlateMiss 2)

/-- Machine key of an intermediate address of an address space under its leaf entry. -/
def State.hypKey (s : State) (o : Nat) (asid : BitVec 12) (e : Word) (ia : Nat) : Nat :=
  maKey o (s.maFor asid (fld e 51 48 * 2 ^ 48 + fld e 47 12 * 4096 + ia % 2 ^ (12 + leafSize e)))
/-- Key slot of an encrypted page (R178). -/
def hypEnc (e : Word) : Option Nat := if e.getLsbD 56 then some (fld e 11 1) else none
/-- Resident (near tier) or host-direct (R182). -/
def hypResident (e : Word) : Bool := fld e 51 48 < 4 || fld e 63 62 == 2

/-- Read 8 bytes under a page's encryption. -/
def State.readWordEnc (s : State) (k : Nat) (enc : Option Nat) : Except MemErr Word :=
  ((List.range 8).mapM fun i => s.readByte (k + i) enc).map leWord

/-- Read one tenant-stage entry at an intermediate address (R181 step 2). -/
def State.tenRead (s : State) (o : Nat) (asid : BitVec 12) (ia : Nat) : Except MemErr Word :=
  match s.hypWalk o (s.desc o asid) (ia % 2 ^ 48) with
  | .error e => .error e
  | .ok (_, h) =>
    if !permOk .rd h then .error (.xlatePerm 2)
    else if !hypResident h then .error .absent
    else if s.blotHeld (s.hypKey o asid h (ia % 2 ^ 48)) then .error .held
    else s.readWordEnc (s.hypKey o asid h (ia % 2 ^ 48)) (hypEnc h)

/-- Up to 512 tenant entries from an IA, in one page that is not encrypted and has no error, all have one value. -/
def State.tenUniform (s : State) (o : Nat) (asid : BitVec 12) (ia n : Nat) (e : Word) : Bool :=
  n ≤ 512 && match s.hypWalk o (s.desc o asid) (ia % 2 ^ 48) with
  | .error _ => false
  | .ok (_, h) =>
    let k := s.hypKey o asid h (ia % 2 ^ 48)
    (hypEnc h).isNone && s.uniform k n e

/-- The tenant stage for an offset, over a reading of its entries. -/
def State.tenWalkBy {ε : Type} (s : State) (o : Nat) (asid : BitVec 12) (rd : Nat → Except ε Word) (miss : ε) (off : Nat) : Except ε (Nat × Word) :=
  let d := s.desc o asid
  walk (Config.groupEntry s.tick) (s.tenUniform o asid) true rd miss (d[0].getLsbD 62, fld d[0] 47 12 * 4096) off
/-- The tenant stage for an offset: leaf entry's IA and value (R181 step 2). -/
def State.tenWalk (s : State) (o : Nat) (asid : BitVec 12) (off : Nat) : Except MemErr (Nat × Word) :=
  s.tenWalkBy o asid (s.tenRead o asid) (.xlateMiss 1) off
/-- The intermediate address of the tenant table's page that is not resident, where that stops the walk (R182). -/
def State.tenAbsent (s : State) (o : Nat) (asid : BitVec 12) (off : Nat) : Option Nat :=
  match s.tenWalkBy o asid (fun ia => match s.tenRead o asid ia with | .ok w => .ok w | .error .absent => .error (some (ia % 2 ^ 48)) | .error _ => .error none)
    none off with
  | .error a => a
  | .ok _ => none

/-- Key of the tenant entry at an IA, where it can be reached. -/
def State.tenKey (s : State) (o : Nat) (asid : BitVec 12) (ia : Nat) : Nat :=
  match s.hypWalk o (s.desc o asid) ia with
  | .ok (_, h) => s.hypKey o asid h ia
  | .error _ => 0

/-- Steps 1 to 5 of R181, before residency: the translated byte at an owner. -/
def State.xlateAt (s : State) (o : Nat) (asid : BitVec 12) (k : Option Kind) (off : Nat) : Except MemErr Xl :=
  let d := s.desc o asid
  if s.blotHeld (s.descBase o asid) then .error .held
  else if s.poisoned (s.descBase o asid) then .error .memUe
  else if !descOk d then .error (.accessFault 0)
  else match s.tenWalk o asid off with
  | .error e => .error e
  | .ok (tia, t) =>
    if fld t 63 62 ≠ 1 || !tenZero t || !baseAligned t then .error (.xlateMiss 1)
    else if !(k.map fun k => permOk k t).getD true then .error (.xlatePerm 1)
    else
      let ia := fld t 47 12 * 4096 + off % 2 ^ (12 + leafSize t)
      match s.hypWalk o d ia with
      | .error e => .error e
      | .ok (hk, h) =>
        if !(k.map fun k => permOk k h).getD true then .error (.xlatePerm 2)
        else .ok { key := s.hypKey o asid h ia, enc := hypEnc h, owner := o, asid := asid, off := off, hkey := hk, hent := h,
                   tkey := s.tenKey o asid tia, tent := t, resident := hypResident h }

/-- A translated byte as an agent of a die accesses it: a read-mostly page of another package may be read from the die's margin cache, except by an
access that performs at the owner (R130, R234). A copy of an encrypted page is never kept (log 68). -/
def Xl.seenFrom (x : Xl) (ag : Agent) (k : Kind) : Xl :=
  { x with part := some ag.part, home := ag.home || k == .rmw,
           via := if x.tent.getLsbD 58 && keyNear x.key && x.enc.isNone && decide (x.key / 2 ^ 52 ≠ ag.die / 4) then some ag.die else none }

/-- The translation of R181, owner checks of R173, residency of R182 and the ATS translation of R394 included; a request for another package waits while
its port carries none (R407-R409). -/
def State.xlate (s : State) (ag : Agent) (k : Kind) (va : Word) : Except MemErr Xl :=
  match s.owner ag va with
  | none => .error (.accessFault 0)
  | some o =>
    if ag.die / 4 = s.package && o / 4 ≠ s.package && !(s.port (portOf (o / 4))).carries then .error .held
    else match s.xlateAt o ag.asid (some k) (fld va 47 0) with
    | .error e => .error e
    | .ok x =>
      let x := s.under ag.vi x
      if !keyNear x.key && Config.atsRefuses s.tick x.key then .error (.xlateMiss 2)
      else if !x.resident then .error .absent
      else if !keyReal x.key then .error (.accessFault 2)
      else if s.blotHeld x.key then .error .held
      else .ok (x.seenFrom ag k)

/-- Effective page-size code of a translated byte (R175). -/
def Xl.code (x : Xl) : Nat := Nat.min (leafSize x.tent) (leafSize x.hent)

/-- Translate `n` bytes from an address, once per 4 KiB; an error names the first failing byte's address (R117, R185). -/
def State.xlateRange (s : State) (ag : Agent) (k : Kind) (va : Word) : Nat → Option Xl → Except (MemErr × Word) (List Xl)
  | 0, _ => .ok []
  | n + 1, prev =>
    let x : Except MemErr Xl :=
      match prev with
      | some p => if fld va 11 0 = 0 then s.xlate ag k va else .ok { p with key := p.key + 1, off := p.off + 1 }
      | none => s.xlate ag k va
    match x with
    | .error e => .error (e, va)
    | .ok x =>
      match s.xlateRange ag k (va + 1) n (some x) with
      | .error e => .error e
      | .ok xs => .ok (x :: xs)

/-- Read translated bytes; an error names its place. -/
def State.readXl (s : State) (va : Word) : List Xl → Except (MemErr × Word) (List Byte)
  | [] => .ok []
  | x :: xs =>
    match s.readByteOf x with
    | .error e => .error (e, va)
    | .ok b =>
      match s.readXl (va + 1) xs with
      | .error e => .error e
      | .ok bs => .ok (b :: bs)

/-- Read `n` bytes at an address as an agent's read, fetch or read-modify-write. -/
def State.readVa (s : State) (ag : Agent) (k : Kind) (va : Word) (n : Nat) : Except (MemErr × Word) (List Xl × List Byte) :=
  match s.xlateRange ag k va n none with
  | .error e => .error e
  | .ok xs =>
    match s.readXl va xs with
    | .error e => .error e
    | .ok bs => .ok (xs, bs)

/-- Translate `n` bytes for a write: every key slot must be LIVE (R415). -/
def State.writeVa (s : State) (ag : Agent) (va : Word) (n : Nat) : Except (MemErr × Word) (List Xl) :=
  match s.xlateRange ag .wr va n none with
  | .error e => .error e
  | .ok xs =>
    match xs.zipIdx.find? fun x => match s.writeKeys x.1.key x.1.enc with | .error _ => true | .ok _ => false with
    | some x => .error (.accessFault 0, va + BitVec.ofNat 64 x.2)
    | none => .ok xs

/-! ## Placement tracking (R186) -/

/-- Base offset of the page of a translated byte. -/
def Xl.page (x : Xl) : Word := BitVec.ofNat 64 (x.off / 2 ^ (12 + x.code) * 2 ^ (12 + x.code))

/-- A copy of the line of a byte comes into the margin cache it may be in; one that is there stays (R126, R234). -/
def marginTake (s : State) (x : Xl) : State :=
  match x.via with
  | some d =>
    match (List.range 128).mapM fun i => s.readByte (x.key / 128 * 128 + i) none with
    | .ok line =>
      if (SMap.find (s.die d).margin x.line).isNone then
        s.modDie d fun k => { k with margin := SMap.set k.margin x.line (x.key / 128, line), marginBad := k.marginBad.filter (· ≠ x.line) }
      else s
    | .error _ => s
  | none => s
/-- A read through a margin cache may leave a copy of the line there, a free choice (R234, log 68). -/
def marginFill (s : State) (x : Xl) : State :=
  if !x.home && x.via.isSome && Config.choice s.tick (5000 + x.line % 4096) then marginTake s x else s

/-! ## L2 (R404, R405) -/

/-- Slice and set of a machine key: MA[16:12], and MA[21:17] with MA[11:7] (R404). -/
def l2Set (k : Nat) : Nat := k / 2 ^ 12 % 32 * 1024 + k / 2 ^ 17 % 32 * 32 + k / 2 ^ 7 % 32
/-- The way mask of a partition on a die (R405). -/
def State.wayMask (s : State) (die : Nat) (q : Fin 16) : BitVec 16 :=
  ((SMap.get {} s.parts (s.partKey (die / 4) q)).ways >>> (16 * (die % 4))).setWidth 16
/-- A set after an access of partition `q` to a line (R405): a hit moves to the front only in a way of q's mask; a miss fills an empty way of the
mask, else the way of the mask that was used least recently. -/
def l2Use (mask : BitVec 16) (q : Fin 16) (line : Nat) (wrote : Bool) (set : List L2Line) : List L2Line :=
  match set.find? (·.line = line) with
  | some l =>
    let m := { l with dirty := l.dirty || wrote }
    if mask.getLsbD l.way then m :: set.filter (·.line ≠ line) else set.map fun e => if e.line = line then m else e
  | none =>
    match ((List.range 16).find? fun w => mask.getLsbD w && !set.any (·.way = w)).or ((set.reverse.find? fun e => mask.getLsbD e.way).map (·.way)) with
    | some w => { line := line, way := w, part := q, dirty := wrote } :: set.filter (·.way ≠ w)
    | none => set
/-- An access of a partition uses the line of a byte in the L2 of the die that holds it (R404, R405). -/
def State.useLine (s : State) (x : Xl) (wrote : Bool) : State :=
  match x.part with
  | none => s
  | some q =>
    let d := keyDie x.key
    let set := SMap.get [] (s.die d).l2 (l2Set x.key)
    let set' := l2Use (s.wayMask d q) q (x.key / 128) wrote set
    if !keyNear x.key || set' = set then s
    else s.modDie d fun k => { k with l2 := SMap.put [] k.l2 (l2Set x.key) set'
                                      l2Poison := k.l2Poison.filter fun p => !(set.any (·.line = p) && !set'.any (·.line = p)) }
/-- The lines of the bytes that an access has read are used, those found in a margin cache apart (R234, R405). -/
def State.useLines (s : State) (xs : List Xl) : State :=
  let far := (xs.pwFilter fun x y => x.key / 128 ≠ y.key / 128).filter fun x =>
    x.home || !x.via.any fun d => (SMap.find (s.die d).margin x.line).isSome
  far.foldl (fun s x => s.useLine x false) (s.crossLinks far)
/-- A line leaves the L2 of its die, written back if dirty (R127, R405). -/
def State.dropLine (s : State) (k : Nat) : State :=
  s.modDie (keyDie k) fun d => { d with l2 := SMap.put [] d.l2 (l2Set k) ((SMap.get [] d.l2 (l2Set k)).filter (·.line ≠ k / 128)) }
/-- A line is written back to HBM and stays (R127). -/
def State.cleanLine (s : State) (k : Nat) : State :=
  s.modDie (keyDie k) fun d =>
    { d with l2 := SMap.put [] d.l2 (l2Set k) ((SMap.get [] d.l2 (l2Set k)).map fun l => if l.line = k / 128 then { l with dirty := false } else l) }
/-- The lines charged to a partition on a die (R405, R406). -/
def Die.charged (d : Die) (q : Fin 16) : Nat := (d.l2.map fun e => (e.2.filter (·.part = q)).length).sum

/-- Count one access from die `d` of the package to the page of a byte; a read may leave a copy of its line. A page is named at its effective size (log 103). -/
def noteAccess (s : State) (from_ : Nat) (x : Xl) (wrote : Bool) : State :=
  let s := if wrote then s else marginFill s x
  let dd := s.die x.owner
  if !dd.placeEn || dd.epoch = 0 || from_ / 4 ≠ x.owner / 4 || !keyNear x.key then s
  else
    let ix := Fin.ofNat 4 from_
    let bump := fun t : Tracked => { t with counts := t.counts.set ix (Nat.min 65535 (t.counts[ix] + 1)) }
    let isIt := fun t : Tracked => t.asid = x.asid && t.off = x.page
    if dd.tracked.any isIt then
      s.modDie x.owner fun d => { d with tracked := d.tracked.map fun t => if isIt t then bump t else t }
    else if from_ % 4 = keyLoc x.key || dd.tracked.length ≥ 4096 then s
    else s.modDie x.owner fun d =>
      { d with tracked := d.tracked ++ [bump { asid := x.asid, off := x.page, counts := Vector.replicate 4 0 }] }

/-- An agent has read the bytes of one access: their lines are used (R405), and the access is counted. -/
def noteRead (s : State) (from_ : Nat) (xs : List Xl) : State :=
  match xs with
  | x :: _ => noteAccess (s.useLines xs) from_ x false
  | [] => s

/-- Counter of corrected and uncorrected errors stop at all ones (R426). -/
def satInc {n : Nat} (x : BitVec n) : BitVec n := if x = BitVec.allOnes n then x else x + 1

/-- A failed read is counted (R426), and a poisoned L2 line whose HBM copy is clean is invalidated, so that the next read takes it from HBM (R413). -/
def noteError (s : State) (o : Nat) (e : MemErr) (key : Nat) : State :=
  match e with
  | .memUe =>
    let s := s.modDie o fun d => { d with ueUe := satInc d.ueUe }
    if (s.die (keyDie key)).l2Poison.contains (key / 128) then
      (s.dropLine key).modDie (keyDie key) fun d => { d with l2Poison := d.l2Poison.filter (· ≠ key / 128) }
    else s
  | .memIntegrity => s.modDie o fun d => { d with ueInt := satInc d.ueInt }
  | _ => s

/-- An acquire at domain scope completes on a die: every copy in its margin cache goes (R234). -/
def State.dropMargin (s : State) (die : Nat) : State := if (s.die die).margin.isEmpty then s else s.modDie die fun d => { d with margin := [] }

/-- A copy leaves a die's margin cache by eviction, at any time (R234). -/
def State.evictMargin (die line : Nat) (s : State) : State := s.modDie die fun d => { d with margin := SMap.erase d.margin line }

/-! ## Performing writes -/

/-- The word a waiter waits on, as its address translates now; none while it has no translation. -/
def State.waitAt (s : State) (w : Waiter) : Option Xl :=
  match s.xlateAt w.owner w.asid none (fld w.ea 47 0) with
  | .ok x => some (s.under w.vi x)
  | .error _ => none
/-- Its machine key. -/
def State.waitKey (s : State) (w : Waiter) : Option Nat := (s.waitAt w).map (·.key)
/-- The word a waiter waits on, as its page reads (R414); a word that cannot be read keeps the bytes that stand there. -/
def State.waitWord (s : State) (w : Waiter) : Word :=
  match s.waitAt w with
  | some x =>
    let n := if w.wide then 8 else 4
    match (List.range n).mapM fun i => s.readByte (x.key + i) x.enc with
    | .ok bs => leWord bs
    | .error _ => leWord (s.rawBytes x.key n)
  | none => 0

/-- Evaluate the waiters on words that a write of keys [k, k + n) touches, in arrival order; a write of one address space releases no
waiter of another, and one of the hardware's own belongs to none (R210, R239). -/
def serveAddr (s : State) (o : Nat) (asid : Option (BitVec 12)) (k n : Nat) : State :=
  let hit := fun w : Waiter => (asid.all (· == w.asid))
    && (match s.waitKey w with | some q => decide (q < k + n) && decide (k < q + (if w.wide then 8 else 4)) | none => false)
    && waitCond w.cond w.wide (s.waitWord w) w.mask w.expected
  let go := ((s.die o).waiters.filter hit).insertionSort fun a b => a.stamp ≤ b.stamp
  go.foldl (fun t w => releaseWaiter t w (s.waitWord w) 1) (s.modDie o fun d => { d with waiters := d.waiters.filter fun w => !hit w })

/-- A write of the hardware's own: the waiters of every owner whose word it touches are evaluated (R239). -/
def serveEvery (s : State) (k n : Nat) : State :=
  (s.dies.filter fun e => !e.2.waiters.isEmpty).foldl (fun t e => serveAddr t e.1 none k n) s

/-- A frame returns to a die's near pool (R182, R186). -/
def Die.giveFrame (d : Die) (size : Nat) (ma : Word) : Die := { d with nearPool := SMap.set d.nearPool size (SMap.get [] d.nearPool size ++ [ma]) }

/-- Every replica of the page at a key is dropped and its frame returned (R186). -/
def dropReplicas (s : State) (o key size : Nat) : State :=
  let rs := (s.die o).replicas.filter fun r => r.1.toNat = key
  if rs = [] then s
  else rs.foldl (fun s r => s.modDie (o / 4 * 4 + r.2.1) fun d => d.giveFrame size r.2.2)
    (s.modDie o fun d => { d with replicas := d.replicas.filter fun r => r.1.toNat ≠ key })

/-- Keys of the entries of a page's group, by the page's first IA (R178). -/
def groupKeys (s : State) (o : Nat) (asid : BitVec 12) (ia size : Nat) : List Nat :=
  (List.range (2 ^ size)).filterMap fun i =>
    match s.hypWalk o (s.desc o asid) (ia / 2 ^ (12 + size) * 2 ^ (12 + size) + 4096 * i) with
    | .ok (k, _) => some k
    | .error _ => none

/-- Intermediate address of a translated byte. -/
def Xl.ia (x : Xl) : Nat := fld x.tent 47 12 * 4096 + x.off % 2 ^ (12 + leafSize x.tent)

/-- A write reaches the page of an intermediate address: D is set in every entry of its group (R178), its replicas are dropped and placement
knows of the write (R186). `key` is a byte of the page, `dirty` says that D is set already. -/
def touchIa (s : State) (o : Nat) (asid : BitVec 12) (ia : Nat) (hent : Word) (key : Nat) (dirty : Bool) : State :=
  let size := leafSize hent
  let base := key / 2 ^ (12 + size) * 2 ^ (12 + size)
  let s := if dirty then s else (groupKeys s o asid ia size).foldl (fun s k => s.setRaw (k + 7) (s.rawByte (k + 7) ||| 4)) s
  let s := if (s.die o).placeEn && !(s.die o).written.contains base then s.modDie o fun d => { d with written := d.written ++ [base] } else s
  dropReplicas s o base size

/-- Copies of a line leave a margin cache, whatever address they are tagged by. -/
def State.dropCopies (s : State) (die line : Nat) : State :=
  if (s.die die).margin.any fun e => e.2.1 = line then s.modDie die fun k => { k with margin := k.margin.filter fun e => e.2.1 ≠ line } else s
/-- A write reaches a page: the writer's margin cache keeps no copy of the line (R221, R234), and its L2 line is used (R405). -/
def touchPage (s : State) (x : Xl) : State :=
  let s := (match x.via with | some d => s.dropCopies d (x.key / 128) | none => s).useLine x true
  touchIa s x.owner x.asid x.ia x.hent x.key ((s.rawByte (x.hkey + 7)).getLsbD 2)

/-- Poison of sectors and of L2 lines that a write of a run of keys covers whole is cleared (R413). -/
def clearPoison (s : State) (k n : Nat) : State :=
  let covers := fun (w p : Nat) => k ≤ w * p && w * p + w ≤ k + n
  if (s.die (keyDie k)).hbmPoison.any (covers 64) || (s.die (keyDie k)).l2Poison.any (covers 128) then
    s.modDie (keyDie k) fun d => { d with hbmPoison := d.hbmPoison.filter fun p => !covers 64 p, l2Poison := d.l2Poison.filter fun p => !covers 128 p }
  else s

/-- Write translated bytes, one after another. -/
def State.pokeXl (s : State) : List (Xl × Byte) → State
  | [] => s
  | (x, b) :: r =>
    let keys := match s.writeKeys x.key x.enc with | .ok k => k | .error _ => none
    ((touchPage s x).writeByte x.key keys b).pokeXl r

/-- Runs of consecutive keys: first key, length, owner, address space. -/
def runsOf : List (Xl × Byte) → List (Nat × Nat × Nat × BitVec 12)
  | [] => []
  | (x, _) :: r =>
    match runsOf r with
    | (k, n, o, a) :: rest =>
      if k = x.key + 1 ∧ o = x.owner ∧ a = x.asid then (x.key, n + 1, o, a) :: rest else (x.key, 1, x.owner, x.asid) :: (k, n, o, a) :: rest
    | [] => [(x.key, 1, x.owner, x.asid)]

/-- Perform a write of translated bytes: the bytes land, poison they cover is cleared, waiters are evaluated. -/
def State.perform (s : State) (bs : List (Xl × Byte)) : State :=
  (runsOf bs).foldl (fun t r => serveAddr (clearPoison t r.1 r.2.1) r.2.2.1 (some r.2.2.2) r.1 r.2.1) (s.pokeXl bs)

/-- Write machine bytes without translation, as hardware structures in memory are written; a host address carries its PASID (`maFor`). -/
def State.writeMa (s : State) (o ma : Nat) (bs : List Byte) : State :=
  serveEvery (clearPoison (((List.range bs.length).foldl (fun t i => t.prepSector (maKey o ma + i) none) s).setRaws (maKey o ma) bs)
    (maKey o ma) bs.length) (maKey o ma) bs.length

/-- Read machine bytes without translation. -/
def State.readMa (s : State) (o ma n : Nat) : List Byte := (List.range n).map fun i => s.cipherByte (maKey o ma + i)

end Sys2Proof.Machine
end

