-- ==== Sys2Proof/Machine/Folio.lean ====
section
/-! DEFINITION. The folio, its leaves and the diagnostic view (05 R101-R108, 03 R73, 27 R413). -/

namespace Sys2Proof.Machine

/-- A cell of the core's storage that a folio offset names. -/
inductive FolCell where
  /-- A folio byte by bank-linear offset. -/
  | fol (off : Nat)
  /-- A byte of a vector register of a slot (diagnostic view, R73). -/
  | vec (slot reg byte : Nat)
  /-- A byte of a semaphore counter of a slot (diagnostic view, R73). -/
  | sem (slot sem byte : Nat)
  /-- Out of range (R103). -/
  | out
  /-- A byte of a spilled leaf (R64, R357). -/
  | spilled (leaf : Nat)
  deriving DecidableEq, Repr

/-- Bank-linear offset of a byte of a physical leaf (R102). -/
def leafByte (phys o : Nat) : Nat := (phys + o % 16384 / 64) % 96 * 16384 + o % 16384

/-- Physical leaf of a bank-linear offset (R102). -/
def leafOfByte (b : Nat) : Nat := (b / 16384 + 288 - b % 16384 / 64) % 96

/-- The cell of a context folio offset: the leaf view of R102, or the diagnostic view of R73 where `diag` holds. -/
def folCell (x : Ctx) (diag : Bool) (o : Word) : FolCell :=
  let n := o.toNat
  if diag && x.diag then
    if n < 0x180000 then .fol n
    else if 0x200000 ≤ n ∧ n < 0x220000 then
      let r := n - 0x200000
      .vec (r / 32768) (r / 512 % 64) (r % 512)
    else if 0x220000 ≤ n ∧ n < 0x221000 then
      let r := n - 0x220000
      .sem (r / 1024) (r / 4 % 256) (r % 4)
    else .out
  else if n < x.leaves.length * 16384 then
    match (x.leaves[n / 16384]?).bind (·.phys) with
    | some l => .fol (leafByte l n)
    | none => .spilled (n / 16384)
  else .out

/-- The row a record of the repair table remaps is out of reach of the injected cell (R106): KIND 1, bank and row. -/
def Core.remapped (k : Core) (bank row : Nat) : Bool :=
  k.remap.any fun r => fld r 63 60 = 1 && fld r 59 48 = bank && fld r 47 40 = row

/-- Bank-linear byte offset and bit of the injected stuck cell, while it shows (R106). -/
def Core.stuckAt (k : Core) : Option (Nat × Nat × Bool) :=
  let i := k.inject
  if i.getLsbD 63 && !k.remapped (fld i 54 48) (fld i 47 40) then
    some (fld i 54 48 * 16384 + fld i 47 40 * 64 + fld i 15 13 * 8 + fld i 5 0 / 8, fld i 5 0 % 8, i.getLsbD 62)
  else none

/-- The bits of a place that errors have inverted. -/
def flipMask (flips : List (Nat × Nat)) (place : Nat) : Byte := (flips.filter fun f => f.1 == place).foldl (fun m f => m ^^^ (1#8 <<< f.2)) 0

/-- A stored byte as the diagnostic view reads it: uncorrected (R105, R106). `folio` keeps the byte last written, from which the check bits were made. -/
def Core.rawFolio (k : Core) (b : Nat) : Byte :=
  let v := SMap.get 0 k.folio b ^^^ flipMask k.flips b
  match k.stuckAt with
  | some (a, bit, val) => if a = b then (if val then v ||| (1#8 <<< bit) else v &&& ~~~(1#8 <<< bit)) else v
  | none => v

/-- Some cell of the folio may differ from what was written. -/
def Core.marred (k : Core) : Bool := !k.flips.isEmpty || k.stuckAt.isSome

/-- Stored bits of a word that differ from those written (R105). -/
def Core.wrongIn (k : Core) (w : Nat) : Nat :=
  ((List.range 8).map fun i => ((List.range 8).filter fun j => (k.rawFolio (8 * w + i) ^^^ SMap.get 0 k.folio (8 * w + i)).getLsbD j).length).sum

/-- A read through the ordinary view of this byte's word finds one wrong bit and corrects it (R105, R106). -/
def Core.corrects (k : Core) (b : Nat) : Bool := k.marred && k.wrongIn (b / 8) == 1

/-- A word has an error that cannot be corrected: more than one wrong bit (R105, R413). -/
def Core.folioBad (k : Core) (w : Nat) : Bool := k.folioPoison.contains w || (k.marred && decide (2 ≤ k.wrongIn w))

/-- Places of the vector, semaphore and mask files of a context, as `flips` names them. -/
def vecPlace (reg byte : Nat) : Nat := reg * 512 + byte
def semPlace (sem byte : Nat) : Nat := 0x8000 + 4 * sem + byte
def maskPlace (reg byte : Nat) : Nat := 0x8400 + 128 * reg + byte

/-- A single-bit error strikes a register file of a context; a second one in a word is past correction (R105, R413). -/
def Ctx.strikeFile (x : Ctx) (place bit : Nat) : Ctx :=
  let y := { x with flips := if x.flips.contains (place, bit) then x.flips.erase (place, bit) else x.flips ++ [(place, bit)] }
  if (y.flips.filter fun f => f.1 / 8 == place / 8).length < 2 then y
  else if place < 0x8000 then { y with vPoison := if y.vPoison.contains (place / 8) then y.vPoison else y.vPoison ++ [place / 8] }
  else if 0x8400 ≤ place then
    { y with mPoison := if y.mPoison.contains ((place - 0x8400) / 128) then y.mPoison else y.mPoison ++ [(place - 0x8400) / 128] }
  else { y with semPoison := if y.semPoison.contains ((place - 0x8000) / 8) then y.semPoison else y.semPoison ++ [(place - 0x8000) / 8] }

/-- The inverted bits of a slot's files. -/
def Core.slotFlips (k : Core) (slot : Nat) : List (Nat × Nat) := match SMap.find k.slots slot with | some x => x.flips | none => []

/-- Vector register of a slot as the diagnostic view sees it: an empty slot has contents of its own (R73). -/
def Core.diagV (k : Core) (slot reg : Nat) : VecWord :=
  match SMap.find k.slots slot with
  | some x => x.getV reg
  | none => SMap.get 0 k.idleV (slot * 64 + reg)
/-- Counter of a slot as the diagnostic view sees it. -/
def Core.diagSem (k : Core) (slot sem : Nat) : BitVec 32 :=
  match SMap.find k.slots slot with
  | some x => x.getSem sem
  | none => SMap.get 0 k.idleSem (slot * 256 + sem)

/-- Byte `i` of a bit vector replaced. -/
def setByte {n : Nat} (v : BitVec n) (i : Nat) (b : Byte) : BitVec n :=
  (v &&& ~~~((0xFF : BitVec n) <<< (8 * i))) ||| (b.setWidth n <<< (8 * i))
/-- Byte `i` of a bit vector. -/
def getByte {n : Nat} (v : BitVec n) (i : Nat) : Byte := v.extractLsb' (8 * i) 8

/-- Read one cell: out of range reads zero (R103). -/
def Core.readCell (k : Core) (diag : Bool) : FolCell → Byte
  | .fol b => if diag then k.rawFolio b else SMap.get 0 k.folio b
  | .vec slot r i => getByte (k.diagV slot r) i ^^^ flipMask (k.slotFlips slot) (vecPlace r i)
  | .sem slot c i => getByte (k.diagSem slot c) i ^^^ flipMask (k.slotFlips slot) (semPlace c i)
  | .out | .spilled _ => 0

/-- A counter changed by a store of the diagnostic view: those that wait on it go on waiting until another change (R73). -/
def Ctx.hush (x : Ctx) (k : Nat) : Ctx :=
  let ts := (x.queues.toList.flatten.filter fun t => t.st == .waiting && !t.waited && t.word.wsem.toNat == k).map (·.num)
  if ts.isEmpty && !x.semBusy k then x else { x with quiet := (k, ts) :: x.quiet.filter (·.1 ≠ k) }

/-- Write one cell: a dropped write changes nothing (R103). A store into a window wakes no waiter (R73). -/
def Core.writeCell (k : Core) (b : Byte) : FolCell → Core
  | .fol o => { k with folio := SMap.put 0 k.folio o b }
  | .vec slot r i =>
    match SMap.find k.slots slot with
    | some x => { k with slots := SMap.set k.slots slot (x.setV r (setByte (x.getV r) i b)) }
    | none => { k with idleV := SMap.put 0 k.idleV (slot * 64 + r) (setByte (k.diagV slot r) i b) }
  | .sem slot c i =>
    match SMap.find k.slots slot with
    | some x => { k with slots := SMap.set k.slots slot ((x.hush c).setSem c (setByte (x.getSem c) i b)) }
    | none => { k with idleSem := SMap.put 0 k.idleSem (slot * 256 + c) (setByte (k.diagSem slot c) i b) }
  | .out | .spilled _ => k

/-- cr.folio.oob as an access records itself (R104). -/
def oobWord (kind strand : Nat) (o : Word) : Word :=
  (1#64 <<< 63) ||| (BitVec.ofNat 64 kind <<< 60) ||| (BitVec.ofNat 64 (strand % 4) <<< 58)
    ||| (if o.extractLsb' 48 16 = 0 then 0#64 else 1#64 <<< 48) ||| (o.extractLsb' 0 48).setWidth 64

/-- Record an out-of-range access of a cycle in cr.folio.oob (R104): the first one captures, later ones set MORE, and of one cycle the first is a strand's
before an engine's and a lower strand's before a higher one's. -/
def Ctx.noteOob (x : Ctx) (now kind strand : Nat) (o : Word) : Ctx :=
  let place := (if 4 ≤ kind then 4 else 0) + strand % 4
  if !x.oob.getLsbD 63 then { x with oob := oobWord kind strand o, oobAt := (now, place) }
  else if x.oobAt.1 = now ∧ place < x.oobAt.2 then { x with oob := oobWord kind strand o ||| (1#64 <<< 57), oobAt := (now, place) }
  else { x with oob := x.oob ||| (1#64 <<< 57) }

/-- What an access of `n` bytes at a folio offset meets. -/
structure FolAccess where
  cells : List FolCell
  /-- Lowest out-of-range byte offset. -/
  oob : Option Word
  /-- A spilled leaf the access touches. -/
  spill : Option Nat
  /-- First offset in a word with a double-bit error, which a read trips over (R413). -/
  poison : Option Word
  deriving DecidableEq, Repr

/-- Offsets of the bytes at a folio offset; each is taken as an unsigned 64-bit value (R103). -/
def folOffsets (o : Word) (n : Nat) : List Word := (List.range n).map fun i => o + BitVec.ofNat 64 i

/-- Resolve the bytes at the given folio offsets for a context of a core. -/
def folAccess (k : Core) (x : Ctx) (diag : Bool) (offs : List Word) : FolAccess :=
  let cells := offs.map (folCell x diag)
  let bad := (offs.zip cells).filter fun e => e.2 = .out
  { cells := cells
    oob := (bad.map fun e => e.1.toNat).min?.map (BitVec.ofNat 64)
    spill := cells.findSome? fun c => match c with | .spilled l => some l | _ => none
    poison := (offs.zip cells).findSome? fun e =>
      match e.2 with
      | .fol b => if !(diag && x.diag) && k.folioBad (b / 8) then some e.1 else none
      | _ => none }

/-- A store reaches a folio word: it gets check bits for what it then holds. Through the diagnostic view that is what the cells held, with the new bytes;
through the ordinary view it is the corrected word, and a word past correction stays so unless the store covers it (R105, R413). -/
def Core.settleWord (k : Core) (diag : Bool) (hit : List Nat) (w : Nat) : Core :=
  if diag then
    { k with folio := ((List.range 8).map fun i => (8 * w + i, k.rawFolio (8 * w + i))).foldl (fun m e => SMap.put 0 m e.1 e.2) k.folio
             flips := k.flips.filter fun f => f.1 / 8 ≠ w, folioPoison := k.folioPoison.filter (· ≠ w) }
  else if (List.range 8).all fun i => hit.contains (8 * w + i) then
    { k with flips := k.flips.filter fun f => f.1 / 8 ≠ w, folioPoison := k.folioPoison.filter (· ≠ w) }
  else if k.folioBad w then k
  else { k with flips := k.flips.filter fun f => f.1 / 8 ≠ w }

/-- A store through the diagnostic view reaches a word of a slot's files: what the cells held stands, with fresh check bits (R73, R105). -/
def Core.settleFile (k : Core) (c : FolCell) : Core :=
  let clear := fun (x : Ctx) (p : Nat) => { x with
    flips := x.flips.filter fun f => f.1 / 8 ≠ p / 8
    vPoison := if p < 0x8000 then x.vPoison.filter (· ≠ p / 8) else x.vPoison
    semPoison := if p < 0x8000 then x.semPoison else x.semPoison.filter (· ≠ (p - 0x8000) / 8) }
  match c with
  | .vec slot r i =>
    match SMap.find k.slots slot with
    | some x =>
      let v := (List.range 8).foldl (fun v j => let b := i / 8 * 8 + j; setByte v b (getByte v b ^^^ flipMask x.flips (vecPlace r b))) (x.getV r)
      { k with slots := SMap.set k.slots slot (clear (x.setV r v) (vecPlace r i)) }
    | none => k
  | .sem slot c i =>
    match SMap.find k.slots slot with
    | some x =>
      let y := [c / 2 * 2, c / 2 * 2 + 1].foldl (fun (y : Ctx) c =>
        y.setSem c ((List.range 4).foldl (fun v j => setByte v j (getByte v j ^^^ flipMask x.flips (semPlace c j))) (y.getSem c))) x
      { k with slots := SMap.set k.slots slot (clear y (semPlace c i)) }
    | none => k
  | _ => k

/-- Write cells with bytes, through the diagnostic view or the ordinary one (R103, R105, R413). -/
def Core.writeCells (k : Core) (diag : Bool) (cells : List FolCell) (bytes : List Byte) : Core :=
  let hit := cells.filterMap fun c => match c with | .fol b => some b | _ => none
  let k := if k.marred || !k.folioPoison.isEmpty then (hit.map (· / 8)).dedup.foldl (fun k w => k.settleWord diag hit w) k else k
  let k := if diag then cells.foldl Core.settleFile k else k
  (cells.zip bytes).foldl (fun k e => k.writeCell e.2 e.1) k

/-- Write zero to a physical leaf (R353). -/
def Core.zeroLeaf (k : Core) (phys : Nat) : Core :=
  { k with folio := k.folio.filter (fun e => leafOfByte e.1 ≠ phys)
           folioPoison := k.folioPoison.filter (fun w => leafOfByte (8 * w) ≠ phys), flips := k.flips.filter fun f => leafOfByte f.1 ≠ phys }

/-- The bytes of a physical leaf in leaf order (R102). -/
def Core.leafBytes (k : Core) (phys : Nat) : List Byte := (List.range 16384).map fun o => SMap.get 0 k.folio (leafByte phys o)

/-- A read of a whole leaf corrects some word (R105). -/
def Core.leafCorrects (k : Core) (phys : Nat) : Bool := k.marred && (List.range 2048).any fun j => k.corrects (leafByte phys (8 * j))

/-- Fill a physical leaf; the words filled hold no error any longer (R413). -/
def Core.fillLeaf (k : Core) (phys : Nat) (bs : List Byte) : Core :=
  let within := fun b : Nat => leafOfByte b == phys && decide (b % 16384 < bs.length)
  { k with folio := bs.zipIdx.foldl (fun m e => SMap.put 0 m (leafByte phys e.2) e.1) k.folio
           folioPoison := k.folioPoison.filter (fun w => !within (8 * w)), flips := k.flips.filter fun f => !within f.1 }

/-- Backing of a logical leaf, as a machine address (R354). -/
def leafBacking (x : Ctx) (leaf : Nat) : Nat := x.block.toNat + 16384 * leaf

/-- The spill under way of a logical leaf (R357). -/
def Core.spillOf (k : Core) (block : Word) (leaf : Nat) : Option Spill := k.spills.find? fun p => p.block == block && p.leaf == leaf

/-- The copy engine reads a physical leaf: a word it corrects is counted (R105, R106). -/
def noteLeaf (s : State) (core phys : Nat) : State :=
  if (s.core core).leafCorrects phys then s.modDie (s.dieOf core) fun d => { d with ceFolio := satInc d.ceFolio } else s

/-- The bytes of a logical leaf wherever it lies: in its physical leaf or in its backing (R353, R354). -/
def leafData (s : State) (core : Nat) (x : Ctx) (leaf : Nat) : List Byte :=
  match (x.leaves[leaf]?).bind (·.phys), (s.core core).spillOf x.block leaf with
  | some p, _ => (s.core core).leafBytes p
  | none, some sp => (s.core core).leafBytes sp.phys
  | none, none => s.readMa (s.package * 4) (leafBacking x leaf) 16384

/-- Operand-folio byte of a context's logical slot; none at or above the reserved count (R255, R317). -/
def opByte (x : Ctx) (slot i : Nat) : Option Nat := (x.opslots[slot]?).map fun p => p * 8192 + i

/-- Write bytes of the operand folio, by physical place; a word that they cover whole holds no error any longer (R413). -/
def Core.putOps (k : Core) (bs : List (Nat × Byte)) : Core :=
  { k with opfolio := bs.foldl (fun m b => SMap.put 0 m b.1 b.2) k.opfolio
           opPoison := k.opPoison.filter fun w => !(List.range 8).all fun i => bs.any fun b => b.1 == 8 * w + i }
/-- Write zero to a physical operand-folio slot (R365). -/
def Core.zeroSlot (k : Core) (p : Nat) : Core := { k with opfolio := k.opfolio.filter (fun e => e.1 / 8192 ≠ p), opPoison := k.opPoison.filter fun w => w / 1024 ≠ p }

end Sys2Proof.Machine
end

