-- ==== Sys2Proof/Machine/Records.lean ====
section
/-! DEFINITION. Interrupt records, work-object counters, barrier-group generations: what a kill and a completion report to
(26 R399-R400, 22 R369, 16 R262-R264, 12 R207-R208). -/

namespace Sys2Proof.Machine

/-! ## Host-link budgets (R402) -/

/-- Host-link budgets of a VI (R402): an access to the host tier goes while the remainder is above 0; a budget of 0 is no limit. -/
def Vi.waits (v : Vi) (write ats : Bool) : Bool :=
  (if write then v.qoswr ≠ 0 && decide (v.remwr ≤ 0) else v.qosrd ≠ 0 && decide (v.remrd ≤ 0)) || (ats && v.qosxl ≠ 0 && decide (v.remxl ≤ 0))
def Vi.charge (v : Vi) (write ats : Bool) (n : Nat) : Vi :=
  let v := if ats && v.qosxl ≠ 0 then { v with remxl := v.remxl - 1 } else v
  if write then (if v.qoswr = 0 then v else { v with remwr := v.remwr - n }) else if v.qosrd = 0 then v else { v with remrd := v.remrd - n }
/-- The access sends a translation request to the host, a free choice: what ATS translations a port keeps is not given (log 74). -/
def needsAts (s : State) : Bool := Config.choice s.tick 4000

/-- An access of a VI to host memory waits for a later window, or is charged to it. -/
def viWaits (s : State) (vi : Option Nat) (write : Bool) : Bool := vi.any fun n => (SMap.get {} s.vis n).waits write (needsAts s)
def viCharge (s : State) (vi : Option Nat) (write : Bool) (n : Nat) : State :=
  match vi with
  | some i => { s with vis := SMap.set s.vis i ((SMap.get {} s.vis i).charge write (needsAts s) n) }
  | none => s

/-! ## Interrupt records (R369, R399, R400) -/

/-- Host memory behind a PCIe port under a PASID, as a machine address that carries it (R180, R394). -/
def hostMa (port pasid : Nat) (a : Word) : Nat := pasid * 2 ^ 80 + (4 + port) * 2 ^ 48 + fld a 47 0

/-- Owner number of die 0, used where only the package matters. -/
def State.pkgOwner (s : State) : Nat := s.package * 4

/-- Deliver a record to an event queue: none when the queue is full (R399). -/
def queueRecord (s : State) (port pasid : Nat) (q : EvQueue) (bs : List Byte) : Option (State × EvQueue) :=
  let cap := 2 ^ (fld q.base 3 0 + 6)
  if (q.tail - q.head).toNat = cap then none
  else some (s.writeMa s.pkgOwner (hostMa port pasid (q.base &&& ~~~0xFFF) + 64 * (q.tail.toNat % cap)) bs, { q with tail := q.tail + 1 })

/-- A record goes into a VI's event queue and its vector is signalled, or it is dropped (R399). -/
def viDeliver (s : State) (n vector : Nat) (bs : List Byte) : State :=
  let v := SMap.get {} s.vis n
  match queueRecord s (n / 256) v.pasid.toNat v.evq bs with
  | some (t, q) => viCharge { t with vis := SMap.set t.vis n { v with evq := q, msix := v.msix ++ [vector] } } (some n) true 64
  | none => { s with vis := SMap.set s.vis n { v with logLost := satInc v.logLost } }

/-- Records of a VI that wait for its budget are delivered in their order while it lasts (R402). -/
def viDrain (n : Nat) : Nat → State → State
  | 0, s => s
  | k + 1, s =>
    let v := SMap.get {} s.vis n
    match v.outbox with
    | [] => s
    | (vector, bs) :: r => if v.waits true (needsAts s) then s else viDrain n k (viDeliver { s with vis := SMap.set s.vis n { v with outbox := r } } n vector bs)

/-- A record for a VI: to its event queue with RES = 1, behind those that wait for its budget, to its log with RES = 0 (R369, R399, R402). -/
def viRecord (s : State) (n vector : Nat) (bs : List Byte) : State :=
  let v := SMap.get {} s.vis n
  if v.logRes then
    let t := { s with vis := SMap.set s.vis n { v with outbox := v.outbox ++ [(vector, bs)] } }
    viDrain n (v.outbox.length + 1) t
  else
    let cap := 2 ^ (v.logOrd.toNat + 6)
    if (v.logTail - v.logHead).toNat = cap then { s with vis := SMap.set s.vis n { v with logLost := satInc v.logLost } }
    else
      let t := s.writeMa s.pkgOwner (fld v.logBase 51 6 * 64 + 64 * (v.logTail.toNat % cap)) bs
      { t with vis := SMap.set t.vis n { v with logTail := v.logTail + 1 } }

/-- A record that names no VI: the PF queue of port 0, or of port 1 when port 0 is not attached (R400). -/
def pfRecord (s : State) (vector : Nat) (bs : List Byte) : State :=
  let p : Fin 2 := if s.pfAttached then 0 else 1
  match queueRecord s p.val 0 s.pfq[p] bs with
  | some (t, q) => { t with pfq := t.pfq.set p q, pfMsix := t.pfMsix.set p (t.pfMsix[p] ++ [vector]) }
  | none => { s with pfq := s.pfq.set p { s.pfq[p] with lost := satInc s.pfq[p].lost } }

/-- A record for a context's interface, or for the PF. -/
def sendRecord (s : State) (vi : Option Nat) (vector : Nat) (bs : List Byte) : State :=
  match vi with
  | some n => viRecord s n vector bs
  | none => pfRecord s vector bs

/-- The 64 bytes of a record of eight words. -/
def recordOf (ws : List Word) : List Byte := (ws.flatMap fun w => leBytes 8 w.toNat) ++ List.replicate (64 - 8 * ws.length) 0

/-! ## Work objects (R262-R265) -/

/-- Key of a work object: its level and its id; a job's id is its number (R264). -/
def workKey (level id : Nat) : Nat := level * 2 ^ 32 + id
def workId (k : Nat) : Nat := k % 2 ^ 32

/-- COMPLETE of R262. -/
def Work.complete (w : Work) : Bool := w.sealed_ && w.ndone + w.nfailed == w.total

/-- The counter word of R262. -/
def Work.counter (w : Work) : Word :=
  (BitVec.ofBool w.complete).setWidth 64 <<< 63 ||| (BitVec.ofBool w.cancelled).setWidth 64 <<< 62
    ||| (BitVec.ofBool w.sealed_).setWidth 64 <<< 61 ||| BitVec.ofNat 64 (w.level % 16) <<< 57
    ||| BitVec.ofNat 64 (w.total % 2 ^ 19) <<< 38 ||| BitVec.ofNat 64 (w.ndone % 2 ^ 19) <<< 19 ||| BitVec.ofNat 64 (w.nfailed % 2 ^ 19)

/-- Records whose parent is complete are not kept; a job is freed once released and COMPLETE (R262, R265). -/
def pruneWorks (s : State) : State :=
  { s with works := s.works.filter fun e =>
      match e.2.parent with
      | some p => !((SMap.find s.works p).map Work.complete).getD true
      | none => !(e.2.released && e.2.complete) }

/-- Report an object that became COMPLETE: its notice, then its count in the parent; `n` levels remain. -/
def reportWork : Nat → State → Nat → State
  | 0, s, _ => s
  | n + 1, s, key =>
    match SMap.find s.works key with
    | none => s
    | some w =>
      if !w.complete || w.reported then s
      else
        let s := { s with works := SMap.set s.works key { w with reported := true } }
        let s := match w.notice with
          | some (uid, sem, k) => s.modUid uid (·.addSem sem k)
          | none => s
        match w.parent with
        | none => s
        | some p =>
          let bad := w.nfailed ≠ 0
          let s := match SMap.find s.works p with
            | some q =>
              let q := { q with ndone := q.ndone + (if bad then 0 else 1), nfailed := q.nfailed + (if bad then 1 else 0) }
              { s with works := SMap.set s.works p q }
            | none => s
          reportWork n s p

/-- Cancel a launch whose predecessor completed with FAILED ≠ 0: its units are never placed and count FAILED (R261). -/
def cancelUnplaced (s : State) (key : Nat) : State :=
  match SMap.find s.works key with
  | some w =>
    let w := { w with cancelled := true, nfailed := w.nfailed + w.unplaced.length, unplaced := [] }
    reportWork 4 { s with works := SMap.set s.works key w
                          waitUnits := s.waitUnits.filter fun u => workKey 1 u.launch ≠ key } key
  | none => s

/-- Launches that wait on predecessors of which one completed with failures. -/
def failedFollowers (s : State) : List Nat :=
  s.works.filterMap fun e =>
    match e.2.spec with
    | some p => if e.2.unplaced ≠ [] && p.preds.any fun l =>
        match SMap.find s.works (workKey 1 l) with
        | some w => w.complete && w.nfailed ≠ 0
        | none => false
      then some e.1 else none
    | none => none

/-- Cancel followers until none is left; `n` bounds the launches. -/
def cascade : Nat → State → State
  | 0, s => s
  | n + 1, s => match failedFollowers s with | [] => s | k :: _ => cascade n (cancelUnplaced s k)

/-- A unit of a launch is complete, with or without failure (R262). -/
def unitDone (s : State) (launch : Nat) (failed : Bool) : State :=
  match SMap.find s.works (workKey 1 launch) with
  | some w =>
    let w := { w with ndone := w.ndone + (if failed then 0 else 1), nfailed := w.nfailed + (if failed then 1 else 0) }
    let s := { s with works := SMap.set s.works (workKey 1 launch) w }
    pruneWorks (cascade s.works.length (reportWork 4 s (workKey 1 launch)))
  | none => s

/-! ## Flits (R407) -/

/-- Bytes 0 to 239 of a flit from this package (R407). -/
def flitOf (s : State) (kind : Nat) (part : Fin 16) (gen : BitVec 8) (urg : BitVec 3) (dst : Nat) (payload : List Byte) : List Byte :=
  leBytes 16 (kind + part.val * 2 ^ 4 + gen.toNat * 2 ^ 8 + urg.toNat * 2 ^ 16 + payload.length * 2 ^ 20 + s.package * 2 ^ 32 + dst * 2 ^ 46)
    ++ payload ++ List.replicate (224 - payload.length) 0

/-- A flit waits at the port that leads to a package, behind those already there (R407). -/
def State.queueFlit (s : State) (dst : Nat) (flit : List Byte) : State :=
  let n := portOf dst
  s.setPort n { s.port n with out := (s.port n).out ++ [flit] }

/-! ## Barrier groups (R207, R208) -/

def State.group (s : State) (g : Nat) : Group := SMap.get {} s.groups g
def State.setGroup (s : State) (g : Nat) (x : Group) : State := { s with groups := SMap.set s.groups g x }

/-- The group has no member in any package (R207, R244). -/
def Group.vacant (g : Group) : Bool := g.members.isEmpty && !g.elsewhere && g.remote.all fun e => e.2.members == 0
/-- Every member of C has arrived; a pending leave counts as the arrival (R207, R208). A group whose root is another package completes there (R244). -/
def Group.full (g : Group) : Bool :=
  !g.vacant && !g.elsewhere && (g.members.all fun m => m.inC || m.leaving) && g.remote.all fun e => e.2.leaving || e.2.members ≤ e.2.inC

/-- The instant generation C completes: pending joins and leaves take effect, arrivals in C + 1 count in the new C. -/
def Group.turn (g : Group) : Group :=
  { g with c := g.c + 1
           members := (g.members.filter fun m => !m.leaving).map (fun m => { m with inC := m.inC1, inC1 := false })
             ++ g.joins.map fun j => { uid := j.1, strand := j.2 }
           joins := []
           remote := SMap.mapVals (fun r => { r with inC := r.inC1, inC1 := 0 }) (g.remote.filter fun e => !e.2.leaving) }

/-- Complete every generation that is full: at most C and the old C + 1. -/
def Group.settle (g : Group) : Group :=
  let g := if g.full then g.turn else g
  if g.full then g.turn else g

/-- A group that has lost its root and has no member left here begins anew (R244). -/
def Group.unlose (g : Group) : Group :=
  if g.lost && g.joins.isEmpty && g.members.all (·.leaving) then { g with members := [], elsewhere := false, lost := false } else g

/-- A leave of one strand (R207): false when it is neither a member nor pending. -/
def Group.leave (g : Group) (uid strand : Nat) : Group × Bool :=
  if g.joins.contains (uid, strand) then ({ g with joins := g.joins.filter (· ≠ (uid, strand)) }.unlose, true)
  else if g.members.any fun m : Member => m.uid == uid && m.strand == strand then
    let ms := g.members.map fun m : Member => if m.uid == uid && m.strand == strand then { m with leaving := true, inC1 := false } else m
    ({ g with members := ms }.settle.unlose, true)
  else (g, false)

/-- What a group's record has to tell other packages: its counts to a root elsewhere, a completed generation from a root here (R244). Payload of
kind 7 is not laid out (log 62). -/
def Group.counts (g : Group) : List Nat :=
  [g.members.length, (g.members.filter fun m => m.inC || m.leaving).length, (g.members.filter (·.inC1)).length, g.joins.length]
def tellGroup (s : State) (n : Nat) (old new : Group) : State :=
  let send := fun (s : State) (dst : Nat) (w : List Nat) =>
    let q := new.owner.getD 0
    s.queueFlit dst (flitOf s 7 q (s.partGen q) 0 dst (Config.flitBarrier n w))
  if new.elsewhere then (if old.counts = new.counts then s else send s new.root new.counts)
  else if old.c = new.c then s
  else (old.remote.filter fun e => !e.2.leaving).foldl (fun s e => send s e.1 [new.c.toNat]) s
/-- A group's record changes, and what it has to tell is told. -/
def State.putGroup (s : State) (n : Nat) (x : Group) : State := tellGroup (s.setGroup n x) n (s.group n) x

/-- A kill leaves every group with every strand (R207). -/
def leaveAll (s : State) (uid : Nat) : State :=
  (s.groups.filter fun e => e.2.members.any (·.uid == uid) || e.2.joins.any (·.1 == uid)).foldl (fun s e =>
    s.putGroup e.1 (([0, 1, 2, 3] : List Nat).foldl (fun g i => (g.leave uid i).1) e.2)) s

end Sys2Proof.Machine
end

