-- ==== Sys2Proof/Machine/Handles.lean ====
section
/-! DEFINITION. Handle tables, frame holds and the end of a transfer (07 R144, 10 R187-R188). -/

namespace Sys2Proof.Machine

/-! ## Handle tables (R144, R187, R188) -/

abbrev HEntry := BitVec 256
def hGen (e : HEntry) : BitVec 8 := e.extractLsb' 120 8
def hLive (e : HEntry) : Bool := e.getLsbD 119
def hRights (e : HEntry) : BitVec 2 := e.extractLsb' 112 2
def hLen1 (e : HEntry) : BitVec 48 := e.extractLsb' 64 48
def hBase (e : HEntry) : Word := e.extractLsb' 0 64
def hInfl (e : HEntry) : Word := e.extractLsb' 128 64
def hDrain (e : HEntry) : Word := e.extractLsb' 192 64
/-- An entry from its fields (R187). -/
def hEntry (drain infl : Word) (gen : BitVec 8) (live : Bool) (rights : BitVec 2) (len1 : BitVec 48) (base : Word) : HEntry :=
  drain ++ infl ++ gen ++ BitVec.ofBool live ++ 0#5 ++ rights ++ len1 ++ base
/-- gen := (gen mod 255) + 1, with INFL moved into DRAIN (R144, R188). -/
def hRaise (e : HEntry) (live : Bool) (rights : BitVec 2) (len1 : BitVec 48) (base : Word) : HEntry :=
  hEntry (hDrain e + hInfl e) 0 (BitVec.ofNat 8 ((hGen e).toNat % 255 + 1)) live rights len1 base

/-- Read entry `i` of a context's handle table. -/
def State.handle (s : State) (x : Ctx) (i : Nat) : HEntry :=
  BitVec.ofNat 256 (leNat (s.readMa s.pkgOwner (fld x.handleBase 51 17 * 2 ^ 17 + 32 * i) 32))
/-- Write entry `i` of a context's handle table. -/
def State.setHandle (s : State) (x : Ctx) (i : Nat) (e : HEntry) : State :=
  s.writeMa s.pkgOwner (fld x.handleBase 51 17 * 2 ^ 17 + 32 * i) (leBytes 32 e.toNat)
/-- A handle value matches a live entry: gen and index, zeros above, gen not 0 (R144). -/
def handleMatches (v : Word) (e : HEntry) : Bool :=
  fld v 63 20 == 0 && fld v 19 12 != 0 && fld v 19 12 == (hGen e).toNat && hLive e

/-- The end of one transfer at its entry: INFL, or DRAIN once the generation has been raised (R188). -/
def endTransfer (s : State) (x : Ctx) (i : Nat) (gen : BitVec 8) : State :=
  let e := s.handle x i
  let e' := if hGen e = gen then hEntry (hDrain e) (hInfl e - 1) (hGen e) (hLive e) (hRights e) (hLen1 e) (hBase e)
            else hEntry (hDrain e - 1) (hInfl e) (hGen e) (hLive e) (hRights e) (hLen1 e) (hBase e)
  s.setHandle x i e'

/-! ## Frame holds (R188) -/

def Die.frame (d : Die) (b : Nat) : Frame := SMap.get {} d.frames b
/-- A frame that nothing holds or pins, and that backs nothing, keeps no size. -/
def Frame.rest (f : Frame) : Frame := if f.hold = 0 ∧ f.pin = 0 ∧ f.backing = none then {} else f
def addHold (s : State) (f : Nat × Nat × Nat) (up : Bool) : State :=
  s.modDie f.1 fun d =>
    let e := d.frame f.2.1
    { d with frames := SMap.put {} d.frames f.2.1 (if up then { e with hold := e.hold + 1, size := Nat.max e.size f.2.2 } else { e with hold := e.hold - 1 }.rest) }
def holdAll (s : State) (fs : List (Nat × Nat × Nat)) (up : Bool) : State := fs.foldl (fun s f => addHold s f up) s

/-- The handle entries a command's places name, with the generation they were taken under. -/
def placeHandles : Place → List (Nat × BitVec 8)
  | .mem _ i g => [(i, g)]
  | .fol _ => []
def cmdHandles : Cmd → List (Nat × BitVec 8)
  | .copy src dst .. => placeHandles src ++ placeHandles dst
  | .copyO src .. => placeHandles src
  | .matrix a .. => placeHandles a
  | .chain _ a b d _ => placeHandles a ++ placeHandles b ++ placeHandles d
  | .null => []

/-- The end of a transfer gives back its holds and its in-flight counts (R188). A transfer may be run again until its phase commits, so it ends there (log 110). -/
def dropTransfer (s : State) (x : Ctx) (t : Task) : State :=
  if t.committed then s else (cmdHandles t.cmd).foldl (fun s h => endTransfer s x h.1 h.2) (holdAll s t.holds false)

end Sys2Proof.Machine
end

