-- ==== Sys2Proof/Machine/Abort.lean ====
section
/-! DEFINITION. Engine queues and phases: format words, signals, the set-up of back leaves, abort and replay, joint holds
(16 R247-R250, 09 R162-R171, 24 R384-R387). -/

namespace Sys2Proof.Machine

/-! ## Tasks of a context -/

/-- The phase a task belongs to (R165, R250). -/
def Task.phaseId (t : Task) : PhaseId :=
  match t.phase with
  | some n => .opened n
  | none => .own t.lead

def PhaseId.isOpened : PhaseId → Bool
  | .opened _ => true
  | .own _ => false

/-- Engine of a queue: 0 ligature, 1 vector, 2 copy. -/
def engineOf (q : Nat) : Nat := Nat.min q 2

def Ctx.mapTasks (x : Ctx) (f : Task → Task) : Ctx := { x with queues := x.queues.map fun q => q.map f }
/-- Every task with its queue. -/
def Ctx.tasks (x : Ctx) : List (Nat × Task) :=
  (List.range 6).flatMap fun q => ((x.queues.toList[q]?).getD []).map fun t => (q, t)
/-- Tasks of one phase. -/
def Ctx.tasksOf (x : Ctx) (id : PhaseId) : List (Nat × Task) := x.tasks.filter fun e => e.2.phaseId == id && !e.2.committed
/-- The task with an acceptance number. -/
def Ctx.task (x : Ctx) (num : Nat) : Option (Nat × Task) := x.tasks.find? fun e => e.2.num == num
def Ctx.modTask (x : Ctx) (num : Nat) (f : Task → Task) : Ctx := x.mapTasks fun t => if t.num = num then f t else t

/-- The engines of a context as an agent (R172, R394). -/
def State.unitAgent (s : State) (ref : CtxRef) (x : Ctx) : Agent := { die := s.dieOf (refCore ref), part := x.part, asid := x.asid, vi := x.vi }

/-- What holds a phase (R162, R168). -/
def Ctx.holdOf (x : Ctx) (id : PhaseId) : Option Hold :=
  match id with
  | .opened n => x.phase.bind fun h => if h.num = n then h.hold else none
  | .own num => (x.task num).bind fun e => e.2.hold
/-- Set what holds a phase. -/
def Ctx.setHold (x : Ctx) (id : PhaseId) (h : Option Hold) : Ctx :=
  match id with
  | .opened n => { x with phase := x.phase.map fun p : Phase => if p.num = n then { p with hold := h } else p }
  | .own num => x.modTask num fun t => { t with hold := h }
def Ctx.release (x : Ctx) (id : PhaseId) : Ctx := x.setHold id none
/-- The phases not committed: the open one and those of tasks. -/
def Ctx.phases (x : Ctx) : List PhaseId :=
  (match x.phase with | some p => [.opened p.num] | none => [])
    ++ ((x.tasks.filter fun e => e.2.phase.isNone && !e.2.committed).map fun e => PhaseId.own e.2.lead).dedup
/-- The phases held for a strand's TRET. -/
def Ctx.heldFor (x : Ctx) (strand : Nat) : List PhaseId := x.phases.filter fun id => x.holdOf id == some (.strand strand)

def Cmd.isMatrix : Cmd → Bool
  | .matrix .. => true
  | _ => false
/-- The joint tag of a QMMA. -/
def Cmd.jointTag : Cmd → Option (Fin 16)
  | .matrix _ _ _ _ _ _ _ t => t
  | _ => none

/-! ## Format words (R316) -/

/-- Width class of a type: K, A row bytes, blocks per row. -/
def tileShape (t : ETy) : Option (Nat × Nat × Nat) :=
  match t with
  | .i8 | .n8 | .e4m3 | .e5m2 | .ta8 => some (64, 64, 2)
  | .e3m2 | .e2m3 | .ta6 => some (64, 48, 2)
  | .i4 | .n4 | .e2m1 => some (128, 64, 4)
  | .bf16 | .f16 => some (32, 64, 1)
  | _ => none

/-- A decoded format word. -/
structure Fmt where
  ta : ETy
  tb : ETy
  xa : Bool
  xb : Bool
  aso : Nat
  bso : Nat
  k : Nat
  rowBytes : Nat
  nb : Nat
  deriving DecidableEq, Repr

/-- A valid format word (R316). -/
def fmtOf (w : Word) : Option Fmt :=
  match ETy.ofCode (w.extractLsb' 0 5), ETy.ofCode (w.extractLsb' 8 5) with
  | some ta, some tb =>
    match tileShape ta with
    | some (k, rb, nb) =>
      let f : Fmt := { ta := ta, tb := tb, xa := w.getLsbD 5, xb := w.getLsbD 13, aso := fld w 31 16, bso := fld w 47 32
                       k := k, rowBytes := rb, nb := nb }
      if tileShape tb = tileShape ta && ta.width == tb.width && fld w 63 48 == 0 && fld w 15 14 == 0 && fld w 7 6 == 0
          && (!f.xa || ta.scalable) && (!f.xb || tb.scalable) && (f.xa || f.aso == 0) && (f.xb || f.bso == 0) then some f else none
    | none => none
  | _, _ => none

/-- The word that a tile command keeps of the one it popped (R316). -/
def goodFmt (w : Option Word) : Option Word := w.filter fun w => (fmtOf w).isSome

/-- A tile command of a phase without a format word takes the head of the queue; a word that is not valid is discarded (R258, R316). -/
def Ctx.popFormats (x : Ctx) (id : PhaseId) : Ctx :=
  (x.tasksOf id).foldl (fun x e =>
    if e.2.cmd.isMatrix && e.2.fmt.isNone && e.2.st != .done then
      match x.fwq with
      | w :: ws => { x with fwq := ws }.modTask e.2.num fun t => { t with fmt := goodFmt (some w) }
      | [] => x
    else x) x

/-! ## Signals (R249) -/

/-- Whether every older task of a queue has performed its signal, as a signal with BAR needs (R249). -/
def Ctx.oldestFirst (x : Ctx) (q : Nat) (t : Task) : Bool :=
  !t.bar || (x.tasks.filter fun e => e.1 == q && decide (e.2.num < t.num)).all fun e => e.2.signalled

/-- Perform the signals of a queue that may be performed, oldest first. -/
def signalQueue : List Task → Bool → Ctx → Ctx × List Task
  | [], _, x => (x, [])
  | t :: r, blocked, x =>
    let go := t.st == .done && !t.signalled && !(t.bar && blocked)
    let y := if go && t.word.scount != 0 then x.addSem t.word.ssem.toNat t.word.scount.toNat else x
    let u := if go then { t with signalled := true } else t
    let q := signalQueue r (blocked || !u.signalled) y
    (q.1, u :: q.2)

/-- A task whose signal is performed and whose phase has committed leaves its queue. -/
def Task.over (t : Task) : Bool := t.st == .done && t.signalled && t.committed

/-- Perform every signal due in a context's queues. -/
def Ctx.signals (x : Ctx) : Ctx :=
  (List.finRange 6).foldl (fun (x : Ctx) (q : Fin 6) =>
    let r := signalQueue x.queues[q] false x
    { r.1 with queues := r.1.queues.set q (r.2.filter fun t => !t.over) }) x

/-! ## Result ports and bound queues of a phase (R213, R305) -/

/-- A commit makes a phase's held elements ready and frees those it has taken. -/
def BoundQ.commit (q : BoundQ) (who : Nat × PhaseId) : BoundQ :=
  { q with entries := (q.entries.filter fun e => !(e.who = who ∧ e.st = .taken)).map fun e : QEntry =>
      if e.who = who ∧ e.st = .held then { e with st := .ready } else e }
/-- An abort discards a phase's held elements and returns those it has taken. -/
def BoundQ.abort (q : BoundQ) (who : Nat × PhaseId) : BoundQ :=
  { q with entries := (q.entries.filter fun e => !(e.who = who ∧ e.st = .held)).map fun e : QEntry =>
      if e.who = who ∧ e.st = .taken then { e with st := .ready } else e }

/-- Update every bound queue of the package. -/
def mapQueues (s : State) (f : BoundQ → BoundQ) : State :=
  let g : Ctx → Ctx := fun x => { x with boundQs := SMap.mapVals f x.boundQs }
  let each : Core → Core := fun k => { k with slots := SMap.mapVals g k.slots, shadows := SMap.mapVals g k.shadows }
  { s with cores := SMap.mapVals each s.cores }

/-- Ports without a phase's held elements, or with them no longer held. -/
def Ctx.portsAbort (x : Ctx) (id : PhaseId) : Ctx :=
  match id with
  | .opened n => { x with ports := x.ports.map fun p => p.filter fun e => e.held ≠ some n }
  | .own _ => x
def Ctx.portsCommit (x : Ctx) (id : PhaseId) : Ctx :=
  match id with
  | .opened n => { x with ports := x.ports.map fun p => p.map fun e : PortElem => if e.held = some n then { e with held := none } else e }
  | .own _ => x

/-! ## Back leaves (R165) -/

/-- Set up one back leaf in its mode: cleared, or copied from its front partner. -/
def setUpLeaf (s : State) (core : Nat) (x : Ctx) (p : LeafPair) : State :=
  match (x.leaves[p.back]?).bind (·.phys) with
  | some phys =>
    let s := match p.copy, (x.leaves[p.front]?).bind (·.phys) with | true, some f => noteLeaf s core f | _, _ => s
    s.modCore core fun k => if p.copy then k.fillLeaf phys (leafData s core x p.front) else k.zeroLeaf phys
  | none => s
def setUpLeaves (s : State) (core : Nat) (x : Ctx) (ps : List LeafPair) : State := ps.foldl (fun s p => setUpLeaf s core x p) s

/-! ## Joint products (R382-R387) -/

/-- Cores of the quad of a core. -/
def quadCores (core : Nat) : List Nat := (List.range 4).map fun i => core / 4 * 4 + i

/-- A task that has started and does not draw for now: it runs, its start is due, or it has released stalled (R334, R335, R344). -/
def Task.away (t : Task) : Bool := t.won.isSome || (t.started && (t.st == .running || t.stalled))
/-- Head of a queue: the first of its tasks that is to start next, those before it having started (R249, R335). -/
def Ctx.headOf (x : Ctx) (q : Fin 6) : Option Task := x.queues[q].find? fun t => t.st != .done && !t.away

/-- A member of a joint that has won its draw, running or released, and has not reached its write instant (R349, R383). -/
def Task.inJoint (t : Task) (tag : Fin 16) : Bool :=
  t.cmd.jointTag == some tag && (t.started || t.won.isSome) && t.st != .done && t.st != .queued && !t.written

/-- A task's run so far comes to nothing: progress, staging and a start that is due go, and what a loan or a compensation gave it (R167, R384). -/
def Task.fresh (t : Task) : Task :=
  { t with started := false, stalled := false, comp := none, repaid := false, progress := 0, acc := [], stage := none, won := none }

/-- A hold strikes the other members of a joint: their QMMAs return to the head of their queues, ready (R384). -/
def holdJoint (s : State) (core launch uid : Nat) (tag : Fin 16) : State :=
  (quadCores core).foldl (fun s c => s.modCore c fun k =>
    { k with slots := k.slots.map fun e => (e.1, if e.2.launch = launch ∧ e.2.uid ≠ uid then
        e.2.mapTasks fun t : Task => if t.inJoint tag then { t.fresh with st := .ready, since := s.time } else t
      else e.2) }) s

/-- A context's joints before their write instant are struck: by an abort of their phase, the halt rung or a swap-out (R384). -/
def holdJoints (s : State) (core : Nat) (x : Ctx) (ts : List (Nat × Task)) : State :=
  ts.foldl (fun s e =>
    match e.2.cmd.jointTag with
    | some tag => if e.2.inJoint tag then holdJoint s core x.launch x.uid tag else s
    | none => s) s

/-! ## Abort (R162, R167-R171, R360) -/

/-- What an abort is for: the cause's code, the engine, its INFO beyond the engine, the failing address, the strand that issued
the faulting task. -/
structure AbortOf where
  code : Nat
  engine : Nat
  stage : Nat
  addr : Word
  strand : Nat
  /-- Class D (R163). -/
  classD : Bool
  /-- Class A: what the tasks wait for (R168). -/
  hold : Option Hold
  /-- A halt abort leaves cr.phase.stat unchanged (R360). -/
  halt : Bool
  deriving DecidableEq, Repr

/-- A task of an aborted phase (R167): requeued, its held stores discarded, a start that is due cancelled (R334). A joint product past its write instant is done in the
aborted run and completes at once when replayed (R385). -/
def Task.requeue (now : Nat) (t : Task) : Task :=
  { t.fresh with st := .queued, stores := [], sums := [], hits := [], popped := none, pages := [], holds := [], stoppedAt := if t.st = .running then some now else t.stoppedAt }

/-- The signal of a joint product that the abort finds past its write instant; one with BAR that older tasks hold back comes with the replay (R249, R385). -/
def Ctx.signalWritten (x : Ctx) (id : PhaseId) : Ctx :=
  (x.tasksOf id).foldl (fun x e =>
    if e.2.written && e.2.st == .running && !e.2.signalled && x.oldestFirst e.1 e.2 then
      (if e.2.word.scount = 0 then x else x.addSem e.2.word.ssem.toNat e.2.word.scount.toNat).modTask e.2.num fun t => { t with signalled := true }
    else x) x

/-- Step the abort counts (R171): RUN is the count of the phase aborted last (log 16). -/
def Ctx.countAbort (x : Ctx) (id : PhaseId) (code : Nat) : Ctx :=
  let run := match id with
    | .opened _ => (x.phase.map (·.run)).getD 0 + 1
    | .own num => ((x.task num).map fun e => e.2.run).getD 0 + 1
  let y := { x with last := BitVec.ofNat 8 code, aborts := satInc x.aborts, run := BitVec.ofNat 4 (Nat.min 15 run) }
  match id with
  | .opened _ => { y with phase := y.phase.map fun p : Phase => { p with run := run } }
  | .own num => y.modTask num fun t => { t with run := run }

/-- The consecutive aborts of a phase. -/
def Ctx.runOf (x : Ctx) (id : PhaseId) : Nat :=
  match id with
  | .opened _ => (x.phase.map (·.run)).getD 0
  | .own num => ((x.task num).map fun e => e.2.run).getD 0

/-- Strands that waited for a phase's commit issue their swap again (R259). -/
def Ctx.dropSwap (x : Ctx) : Ctx :=
  { x with strands := x.strands.map fun t : Strand => match t.wait with | some (.swap ..) => { t with wait := none }.unwind | _ => t }

/-- The discard of a phase at the replay limit (R171, R259): its tasks complete without effect and signal once; the phase closes;
tasks given to the phase that its swap would have opened form phases of their own. -/
def discardPhase (s : State) (ref : CtxRef) (id : PhaseId) : State :=
  match s.findCtx ref with
  | none => s
  | some x =>
    let s := (x.tasksOf id).foldl (fun s e => dropTransfer s x e.2) s
    let y := x.mapTasks fun t =>
      if t.phaseId = id && !t.committed then { t with st := .done, committed := true, stores := [], sums := [], holds := [], won := none }
      else if id.isOpened && t.phase == some x.nextPhase then { t with phase := none } else t
    let y := match id with
      | .opened _ => { y with phase := none }.dropSwap
      | .own _ => y
    s.putCtx ref { y.signals with failed := true }

/-- An event that strikes a phase in the cycle of its abort (R164): class A events make one abort, and cr.phase.stat has the lowest code; a class D
event takes the place of a class A event. -/
def joinAbort (s : State) (ref : CtxRef) (id : PhaseId) (a : AbortOf) (code : Nat) (classD : Bool) : State :=
  if classD then s
  else s.modRef ref fun x =>
    if a.classD then
      { x.setHold id (some .pending) with
        last := BitVec.ofNat 8 a.code, struck := some (s.time, id, a.code, true)
        pendD := x.pendD ++ [{ strand := a.strand, cause := BitVec.ofNat 64 (a.engine * 2 ^ 24 + a.stage * 2 ^ 18 + 0x100 + a.code), addr := a.addr, phase := id }] }
    else { x with last := BitVec.ofNat 8 (Nat.min code a.code), struck := some (s.time, id, Nat.min code a.code, false) }

/-- The abort that has struck a phase in this cycle. -/
def Ctx.struckNow (x : Ctx) (now : Nat) (id : PhaseId) : Option (Nat × Bool) :=
  match x.struck with
  | some (at_, p, code, d) => if at_ = now ∧ p = id ∧ x.phases.contains id then some (code, d) else none
  | none => none

/-- Abort a phase of a context (R167): stop and requeue its tasks, discard its held stores, set its back leaves up again, hold it
for what the cause needs, deliver a class D event, and discard the phase at the replay limit (R171). -/
def abortPhase (s : State) (ref : CtxRef) (id : PhaseId) (a : AbortOf) : State :=
  match s.findCtx ref with
  | none => s
  | some x =>
    match (if a.halt then none else x.struckNow s.time id) with
    | some (code, d) => joinAbort s ref id a code d
    | none =>
    if (x.holdOf id).isSome && !a.halt then s
    else
      let back := x.tasksOf id
      let s := back.foldl (fun s e => holdAll s e.2.holds false) s
      let s := holdJoints s (refCore ref) x back
      let s := mapQueues s (·.abort (x.uid, id))
      let s := s.modRef ref fun x =>
        let y := ((x.signalWritten id).mapTasks fun t => if t.phaseId = id && !t.committed then t.requeue s.time else t).portsAbort id
        if (x.task x.fetchTask).any fun e => e.2.phaseId == id then { y with fetchV := false, fetchRows := 0, fetchBytes := [] } else y
      let s := match id, x.phase with
        | .opened _, some p => setUpLeaves s (refCore ref) x p.pairs
        | _, _ => s
      if a.halt then s.modRef ref fun x => { x with haltab := satInc x.haltab }
      else
        let s := s.modRef ref fun x => { x.countAbort id a.code with struck := some (s.time, id, a.code, a.classD) }
        match s.findCtx ref with
        | none => s
        | some y =>
          if y.limit.toNat ≤ y.runOf id then
            (discardPhase s ref id).modRef ref fun x =>
              { x with pendD := x.pendD ++ [{ strand := a.strand, cause := BitVec.ofNat 64 (a.engine * 2 ^ 24 + a.code * 2 ^ 16 + 0x125), addr := a.addr, phase := id }] }
          else if a.classD then
            s.modRef ref fun x =>
              { x.setHold id (some .pending) with
                pendD := x.pendD ++ [{ strand := a.strand, cause := BitVec.ofNat 64 (a.engine * 2 ^ 24 + a.stage * 2 ^ 18 + 0x100 + a.code), addr := a.addr, phase := id }] }
          else s.modRef ref (·.setHold id a.hold)

/-- When a context is killed, every other member of its joints, running or waiting at its queue head for a tag the context's queue
held, aborts its phase with ACCESS_FAULT (R387). -/
def abortPartners (s : State) (ref : CtxRef) (x : Ctx) : State :=
  let tags := (x.tasks.filter fun e => e.2.st != .done && !e.2.written).filterMap fun e => e.2.cmd.jointTag
  let core := refCore ref
  let hit := fun (y : Ctx) => (y.queues[(0 : Fin 6)]).find? fun t =>
    match t.cmd.jointTag with
    | some tag => tags.contains tag && !t.written && t.st != .done && (t.inJoint tag || (y.headOf 0).any (·.num == t.num))
    | none => false
  ((quadCores core).flatMap fun c => ((s.core c).contexts c)).foldl (fun s e =>
    if e.2.uid = x.uid ∨ e.2.launch ≠ x.launch then s
    else match hit e.2 with
    | some t => abortPhase s e.1 t.phaseId { code := 0x09, engine := 0, stage := 0, addr := 0, strand := t.strand, classD := true, hold := none, halt := false }
    | none => s) s

end Sys2Proof.Machine
end

