-- ==== Sys2Proof/Machine/Ops.lean ====
section
/-! DEFINITION. The shared operations: taking a trap and returning from one, kill, the pre-emption request, handles, and the
accesses of a strand to memory and to the folio (09 R154-R163, 07 R141-R144, 22 R353-R361, 05 R103-R105, 06 R115-R117). -/

namespace Sys2Proof.Machine

/-! ## Release of a context's resources (R353, R354, R365, R388) -/

/-- Physical leaves a context owns. -/
def Ctx.physLeaves (x : Ctx) : List Nat := x.leaves.filterMap (·.phys)

/-- A backing block returns to the pool (R354). -/
def Core.freeBlock (k : Core) (block : Word) : Core :=
  { k with pool := k.pool.map fun e => if e.st = .inuse ∧ e.ma = block then { e with st := .free } else e }

/-- Free a context's leaves, operand-folio slots and block: each is written to zero (R353, R365). -/
def Core.release (k : Core) (x : Ctx) : Core :=
  let spilt := (k.spills.filter fun p => p.block == x.block).map (·.phys)
  let k := (x.opslots.foldl Core.zeroSlot ((x.physLeaves ++ spilt).foldl Core.zeroLeaf k)).freeBlock x.block
  { k with spills := k.spills.filter fun p => p.block != x.block }

/-- Hold a killed protected context's resources for the blotter (R388). -/
def Core.holdFor (k : Core) (ref : CtxRef) (x : Ctx) : Core :=
  let (slot, sh) := match ref with | .resident _ i => (i, none) | .shadow _ i => (0, some i)
  let spilt := (k.spills.filter fun p => p.block == x.block).map (·.phys)
  { k with held := k.held ++ [{ slot := slot, shadow := sh, leaves := x.physLeaves ++ spilt, opslots := x.opslots, block := x.block }]
           spills := k.spills.filter fun p => p.block != x.block }
/-- A spilled leaf is wanted: a phase waits for it, an access of a strand that waits needs it, or a swap that waits exchanges it (R165, R357). -/
def Ctx.wantsLeaf (x : Ctx) (leaf : Nat) : Bool :=
  (x.phases.any fun id => x.holdOf id == some (.leaf leaf)) || (x.strands.any fun t => t.wait == some .retry && t.wants.contains leaf)
    || (match x.phase with | some h => h.committing.isSome && h.pairs.any fun p => p.front == leaf | none => false)

/-- A request for leaves is still made: its unit waits, its leaf is still spilled and wanted, its CTXLD or its pin is tried again. -/
def LeafReq.live (s : State) : LeafReq → Bool
  | .place l u => s.waitUnits.any fun w => w.launch == l && w.unit == u
  | .reload uid leaf => s.contexts.any fun e => e.2.uid == uid && (e.2.leaves[leaf]?).any (·.phys.isNone) && e.2.wantsLeaf leaf
  | .load uid i => s.contexts.any fun e => e.2.uid == uid && e.2.strands[(Fin.ofNat 4 i : Fin 4)].wait == some .retry
/-- Leaves given to a request that is made no more are free, and its draw waits for nothing (R353, R356). -/
def pruneLeaves (s : State) (core : Nat) : State :=
  let k := s.core core
  if k.given.all (·.2.live s) && k.drawWaits.all (·.live s) then s
  else s.modCore core fun k => { k with given := k.given.filter (·.2.live s), drawWaits := k.drawWaits.filter (·.live s) }

/-- The number by which an endpoint of a bound queue names where its context is held: a slot, or 4 and the shadow slot. -/
def refPlace : CtxRef → Nat
  | .resident _ i => i
  | .shadow _ i => 4 + i

/-- A queue names a context of a core slot (R212). -/
def BoundQ.names (q : BoundQ) (core slot : Nat) : Bool :=
  (q.prod.core == core && q.prod.slot == slot) || (q.cons.core == core && q.cons.slot == slot)

/-- Remove a context with every structure that names it: waiters, bound queues, slot (R160, R215). -/
def removeCtx (s : State) (ref : CtxRef) (x : Ctx) : State :=
  let s := { s with dies := SMap.mapVals (fun d => { d with waiters := d.waiters.filter fun w => w.uid ≠ x.uid }) s.dies }
  let unbind : Ctx → Ctx := fun y => { y with boundQs := y.boundQs.filter fun q => !q.2.names (refCore ref) (refPlace ref) }
  let each : Core → Core := fun k => { k with slots := SMap.mapVals unbind k.slots, shadows := SMap.mapVals unbind k.shadows }
  let s := { s with cores := SMap.mapVals each s.cores }
  s.dropCtx ref

/-- A strand that exists and has not stopped (R82). -/
def Strand.live (t : Strand) : Bool := t.present && !t.stopped
/-- Lowest-numbered live strand. -/
def Ctx.firstLive (x : Ctx) : Option (Fin 4) := ([0, 1, 2, 3] : List (Fin 4)).find? fun i => x.strands[i].live
/-- The strand a class D event goes to: the one that issued the task, or the lowest live one. -/
def targetOf (x : Ctx) (p : PendD) : Option (Fin 4) :=
  if x.strands[(Fin.ofNat 4 p.strand : Fin 4)].live then some (Fin.ofNat 4 p.strand) else x.firstLive

/-- The pc a kill record gives where no fault names one: of the lowest live strand, else of strand 0 (R160). -/
def Ctx.killPc (x : Ctx) : Word := (x.strands[x.firstLive.getD 0]).pc

/-- Cause word (R156). -/
def causeWord (cls info code : Nat) : Word := BitVec.ofNat 64 ((info % 65536) * 65536 + cls * 256 + code)

/-- The kill record of R160. -/
def killRecord (s : State) (ref : CtxRef) (x : Ctx) (code info : Nat) (pc addr : Word) (who : Option (Fin 4)) : List Byte :=
  let slot := match ref with | .resident _ i => i | .shadow _ i => i
  let st := (who.getD (x.firstLive.getD 0)).val
  let esc := code = 0x30
  let t := x.strands[who.getD 0]
  recordOf [causeWord 3 info code, pc, addr,
    if esc then (t.bank2.cause.extractLsb' 0 32 ++ t.bank1.cause.extractLsb' 0 32) else 0,
    if esc then t.bank1.ret else 0, if esc then t.bank2.ret else 0,
    BitVec.ofNat 64 (st * 4096 + (refCore ref * 4 + slot) % 2048), BitVec.ofNat 64 s.time]

/-- Handle entries retire as if by HFREE (R160 step 6). -/
def retireHandles (s : State) (x : Ctx) : State :=
  (List.range 4096).foldl (fun s i =>
    if hLive (s.handle x i) then s.setHandle x i (hRaise (s.handle x i) false (hRights (s.handle x i)) (hLen1 (s.handle x i)) (hBase (s.handle x i)))
    else s) s

/-- Kill a context in the order of R160. -/
def killCtx (s : State) (ref : CtxRef) (code info : Nat) (pc addr : Word) (who : Option (Fin 4)) : State :=
  match s.findCtx ref with
  | none => s
  | some x =>
    let bs := killRecord s ref x code info pc addr who
    let s := abortPartners s ref x
    let s := x.tasks.foldl (fun s e => dropTransfer s x e.2) s
    let s := retireHandles s x
    let s := leaveAll (removeCtx s ref x) x.uid
    let s := if x.prot then s.modCore (refCore ref) (·.holdFor ref x) else s.modCore (refCore ref) (·.release x)
    let s := sendRecord s x.vi 0 bs
    let s := if x.housekeeping then { s with health := s.health ++ [bs] } else s
    unitDone s x.launch true

/-! ## Taking a trap and returning from one (R140, R141, R154-R157) -/

/-- Bank of a level, 1 or 2. -/
def Strand.bank (t : Strand) : Bank := if t.level = 2 then t.bank2 else t.bank1

/-- Enter level n = level + 1 with bank n filled; at level 2 the caller kills instead (R154). Younger instructions that have begun are
cancelled, a wait that has not completed takes back its tokens (R94, R201), and the tracer's registers are loaded anew (R98). -/
def Strand.enter (t : Strand) (b : Bank) : Strand :=
  let t := if t.level = 0 then { t.cancelAhead.unwind with bank1 := b, level := 1 } else { t.cancelAhead.unwind with bank2 := b, level := 2 }
  { t with pc := t.entry &&& ~~~0xF, wait := none, forced := none, latches := [], tracer := {} }

/-- Take a class T trap in a strand (R154): cause code and INFO, return address, data address, and the guard word. -/
def State.trapAt (s : State) (r : StrandRef) (code info : Nat) (ret addr : Word) (force out : Bool) : State :=
  let t := s.strandAt r
  if t.level = 2 then killCtx s (strandCtx r) 0x30 (code % 256) ret addr (some (strandIx r))
  else s.modStrandAt r (·.enter { cause := causeWord 0 info code, ret := ret, addr := addr, force := force, out := out })

/-- The executing instruction traps at its own address, guarded on (R154, R157). -/
def State.trap (s : State) (code info : Nat) (addr : Word) : State := s.trapAt s.focus code info s.st.pc addr true true

/-- Causes of R163 taken without a data address. -/
def State.illegalOp (s : State) : State := s.trap 0x01 0 0
def State.privFault (s : State) : State := s.trap 0x02 0 0
def State.trapState (s : State) : State := s.trap 0x03 0 0
def State.pcAlign (s : State) : State := s.trap 0x05 0 0
def State.divZero (s : State) : State := s.trap 0x06 0 0
def State.addrAlign (s : State) (a : Word) : State := s.trap 0x07 0 a
def State.folioAlign (s : State) (a : Word) : State := s.trap 0x08 0 a

/-- Return from level n: the pc and the guard state of bank n, level n - 1 (R141, R157). -/
def Strand.trapReturn (t : Strand) : Strand :=
  { t with pc := t.bank.ret &&& ~~~0xF, forced := if t.bank.force then some t.bank.out else none
           level := if t.level = 2 then 1 else 0, latches := [], tracer := {} }

/-- Tasks a class D abort holds for a strand are requeued by its TRET to level 0; a tile command without a format word pops
again (R162, R258). -/
def Ctx.unhold (x : Ctx) (strand : Fin 4) : Ctx :=
  (x.heldFor strand.val).foldl (fun x id => (x.release id).popFormats id) x

/-- A read of a register or counter with an uncorrectable error: MEM_UE, precise, counted (R413, R426). -/
def fileTrap (s : State) : State := (s.modDi fun d => { d with ueUe := satInc d.ueUe }).trap 0x0C 0 0

/-! ## Privilege (R135) -/

/-- cr.priv of the executing context is at least a level. -/
def State.hasPriv (s : State) (n : Nat) : Bool := n ≤ s.cx.priv.val
/-- Perform at a level or above, else PRIV_FAULT (R135). -/
def State.atPriv (s : State) (n : Nat) (t : State) : State := if s.hasPriv n then t else s.privFault

/-! ## The pre-emption request (R358-R360, R427) -/

def Intent.rank : Intent → Nat
  | .preempt => 1 | .halt => 2 | .cancel => 3 | .kill => 4
/-- The higher rank stays in force. -/
def Intent.max (a : Option Intent) (b : Intent) : Intent :=
  match a with
  | some a => if b.rank > a.rank then b else a
  | none => b

/-- Enter the halt rung (R360, R361). -/
def Ctx.startHalt (x : Ctx) (now killt : Nat) : Ctx := { x with rung := .halting, graceAt := none, killAt := some (now + killt) }

/-- The halt rung begins: a hold strikes the context's joints (R360, R384). -/
def haltNow (s : State) (ref : CtxRef) (x : Ctx) : State :=
  holdJoints (s.putCtx ref (x.startHalt s.time (s.core (refCore ref)).killt.toNat)) (refCore ref) x x.tasks

/-- A request of intent PREEMPT, HALT or CANCEL reaches a context (R358, R427). -/
def requestCtx (s : State) (ref : CtxRef) (i : Intent) : State :=
  match s.findCtx ref with
  | none => s
  | some x =>
    if x.diag then s
    else
      let k := s.core (refCore ref)
      let y := { x.eventAll 3 with intent := some (Intent.max x.intent i) }
      match x.rung with
      | .running =>
        if i = .halt then haltNow s ref y
        else s.putCtx ref { y with rung := .soft, graceAt := some (s.time + k.grace.toNat) }
      | .soft => if Intent.max x.intent i = .halt then haltNow s ref y else s.putCtx ref y
      | .halting => if i = .halt ∧ x.graceAt.isSome then haltNow s ref y else s.putCtx ref y
      | .halted | .shadowed =>
        if i = .cancel then killCtx (s.putCtx ref y) ref 0x31 0 x.killPc 0 none else s.putCtx ref y

/-! ## Memory accesses of a strand (R115-R117) -/

/-- The executing strand as an agent (R172, R174). -/
def State.agent (s : State) : Agent := { die := s.here, part := s.cx.part, asid := s.cx.asid, vi := s.cx.vi }
/-- The executing strand in an access that the owner executes, which reads no margin copy (R123, R124, R210). -/
def State.homeAgent (s : State) : Agent := { s.agent with home := true }

/-- INFO of a translation or access cause: FETCH, LIT and STAGE (R156). -/
def memInfo (fetch lit : Bool) (stage : BitVec 2) : Nat :=
  (if fetch then 1 else 0) + (if lit then 2 else 0) + 4 * stage.toNat

/-- Cause code and INFO of a failed access; none where the strand waits (R163). -/
def MemErr.cause (fetch lit : Bool) : MemErr → Option (Nat × Nat)
  | .accessFault st => some (0x09, memInfo fetch lit st)
  | .xlateMiss st => some (0x0A, memInfo fetch lit st)
  | .xlatePerm st => some (0x0B, memInfo fetch lit st)
  | .memUe => some (0x0C, memInfo fetch lit 0)
  | .memIntegrity => some (0x0D, memInfo fetch lit 0)
  | .absent | .held => none

/-- Ask the owner to make a page resident (R182). -/
def askResident (s : State) (ag : Agent) (va : Word) : State :=
  match s.owner ag va with
  | some o =>
    let p := (ag.asid, (va.extractLsb' 0 48).setWidth 64 &&& ~~~0xFFF)
    if (s.die o).fetching.contains p then s else s.modDie o fun d => { d with fetching := d.fetching ++ [p] }
  | none => s

/-- Count a failed access at its owner (R413, R426); a margin-cache copy with an uncorrectable error is invalidated at its die, as a clean L2 line is, and
the next read takes the line from its home (R411, log 113). -/
def countError (s : State) (ag : Agent) (e : MemErr) (va : Word) : State :=
  match s.owner ag va with
  | some o =>
    match s.xlateAt o ag.asid none (fld va 47 0) with
    | .ok x =>
      if e = .memUe && (s.die ag.die).marginBad.contains x.line && (SMap.find (s.die ag.die).margin x.line).isSome then
        (State.evictMargin ag.die x.line s).modDie ag.die fun d => { d with ueUe := satInc d.ueUe }
      else noteError s o e x.key
    | .error _ => s
  | none => s

/-- An access of the executing strand fails at an address: a precise trap, or a wait without effect (R117). -/
def State.memFail (s : State) (e : MemErr) (va : Word) : State :=
  match e.cause false false with
  | some (code, info) => (countError s s.agent e va).trap code info va
  | none => (if e = .absent then askResident s s.agent va else s).hold

/-- The VI whose budget an access of a context to translated bytes counts on. -/
def budgetVi (x : Ctx) (xs : List Xl) : Option Nat := if xs.any fun e => !keyNear e.key then x.vi else none
/-- The access waits for a later window. -/
def hostWaits (s : State) (x : Ctx) (xs : List Xl) (write : Bool) : Bool :=
  match budgetVi x xs with
  | some n => (SMap.get {} s.vis n).waits write (needsAts s)
  | none => false
/-- An access of `n` bytes is charged. -/
def hostChargeN (s : State) (x : Ctx) (xs : List Xl) (write : Bool) (n : Nat) : State :=
  match budgetVi x xs with
  | some i => { s with vis := SMap.set s.vis i ((SMap.get {} s.vis i).charge write (needsAts s) n) }
  | none => s
def hostCharge (s : State) (x : Ctx) (xs : List Xl) (write : Bool) : State := hostChargeN s x xs write xs.length

/-- The executing strand's access to translated bytes, `n` in all, goes on; or it waits for its interface's budget (R402). -/
def State.charged (s : State) (xs : List Xl) (write : Bool) (n : Nat) (f : State → State) : State :=
  if hostWaits s s.cx xs write then s.hold else f (hostChargeN s s.cx xs write n)
/-- A read of translated bytes is counted. -/
def State.countRead (s : State) (xs : List Xl) : State := noteRead s s.here xs
/-- A write to translated bytes is counted. -/
def State.countWrite (s : State) (xs : List Xl) : State :=
  match xs with
  | x :: _ => noteAccess (s.crossLinks xs) s.here x true
  | [] => s

/-- Read `n` bytes as one access and go on with them. -/
def State.withRead (s : State) (k : Kind) (va : Word) (n : Nat) (f : State → List Byte → State) : State :=
  match s.readVa s.agent k va n with
  | .error (e, a) => s.memFail e a
  | .ok (xs, bs) => s.charged xs false n fun s => f (s.countRead xs) bs

/-- Write bytes as one access and go on. -/
def State.withWrite (s : State) (va : Word) (bs : List Byte) (f : State → State) : State :=
  match s.writeVa s.agent va bs.length with
  | .error (e, a) => s.memFail e a
  | .ok xs => s.charged xs true bs.length fun s => f ((s.countWrite xs).perform (xs.zip bs))

/-! ## Folio accesses of a strand (R64, R103-R105, R413) -/

/-- Record an out-of-range access of the executing strand (R104). -/
def State.noteOob (s : State) (kind : Nat) (o : Option Word) : State :=
  match o with
  | some a => s.modCx (·.noteOob s.time kind (strandIx s.focus).val a)
  | none => s

/-- Count corrected errors of a read through the ordinary view (R105, R106). -/
def State.noteCorrected (s : State) (cells : List FolCell) : State :=
  if cells.any fun c => match c with | .fol b => s.co.corrects b | _ => false then
    s.modDi fun d => { d with ceFolio := satInc d.ceFolio }
  else s

/-- Read folio bytes as one access of the executing strand and go on with them. `diag` lets the diagnostic view apply (R73). -/
def State.withFolRead (s : State) (diag : Bool) (kind : Nat) (offs : List Word) (f : State → List Byte → State) : State :=
  let a := folAccess s.co s.cx diag offs
  let raw := diag && s.cx.diag
  if a.spill.isSome then s.holdLeaves a.spill.toList
  else match a.poison with
  | some o => (s.modDi fun d => { d with ueUe := satInc d.ueUe }).trap 0x0C 0 o
  | none =>
    let bs := a.cells.map (s.co.readCell raw)
    f ((if raw then s else s.noteCorrected a.cells).noteOob kind a.oob) bs

/-- Write folio bytes as one access of the executing strand and go on. -/
def State.withFolWrite (s : State) (diag : Bool) (kind : Nat) (offs : List Word) (bs : List Byte) (f : State → State) : State :=
  let a := folAccess s.co s.cx diag offs
  if a.spill.isSome then s.holdLeaves a.spill.toList
  else f ((s.noteOob kind a.oob).modCo fun k => k.writeCells (diag && s.cx.diag) a.cells bs)

end Sys2Proof.Machine
end

