-- ==== Sys2Proof/Machine/Flags.lean ====
section
/-! DEFINITION. Flag computations: saturation and satf, the divide flags, the compare conditions, cr.arith (02 R46-R52). -/

namespace Sys2Proof.Machine

/-- Clamp to the signed range of w bits; true where it clamped (R46). -/
def clampS (w : Nat) (v : Int) : Int × Bool :=
  if v > 2 ^ (w - 1) - 1 then (2 ^ (w - 1) - 1, true)
  else if v < -(2 ^ (w - 1)) then (-(2 ^ (w - 1)), true)
  else (v, false)

/-- Clamp to the unsigned range of w bits; true where it clamped. -/
def clampU (w : Nat) (v : Int) : Int × Bool :=
  if v > 2 ^ w - 1 then (2 ^ w - 1, true) else if v < 0 then (0, true) else (v, false)

/-- Set satf of cr.arith (R46, R50). -/
def Strand.setSatf (t : Strand) (b : Bool) : Strand := if b then { t with satf := true } else t
/-- Set dzf of cr.arith (R49). -/
def Strand.setDzf (t : Strand) : Strand := { t with dzf := true }
/-- Set dof of cr.arith (R49). -/
def Strand.setDof (t : Strand) : Strand := { t with dof := true }

/-- cr.arith as a word (R50). -/
def Strand.arith (t : Strand) : Word :=
  (BitVec.ofBool t.satf).setWidth 64 <<< 10 ||| (BitVec.ofBool t.dof).setWidth 64 <<< 9
    ||| (BitVec.ofBool t.dzf).setWidth 64 <<< 8 ||| (BitVec.ofBool t.dz).setWidth 64

/-- A condition of R52 on two operands of the same width. -/
def condHolds {n : Nat} (c : Cond) (x y : BitVec n) : Bool :=
  match c with
  | .eq => x == y
  | .ne => x != y
  | .lt => x.slt y
  | .le => x.sle y
  | .gt => y.slt x
  | .ge => y.sle x
  | .ltu => x.ult y
  | .leu => x.ule y
  | .gtu => y.ult x
  | .geu => y.ule x

end Sys2Proof.Machine
end

