-- ==== Sys2Proof/Machine/Operands.lean ====
section
/-! DEFINITION. Operand forms: the width variant, immediates, displacements and effective addresses (02 R42-R44, R58, R63, 06 R115). -/

namespace Sys2Proof.Machine

/-- Width(F) of R44. -/
def widthOf (w : Bool) : Nat := if w then 32 else 64
/-- Signed(x[w-1:0]). -/
def sval (w : Bool) (x : Word) : Int := if w then (x.setWidth 32).toInt else x.toInt
/-- Unsigned(x[w-1:0]). -/
def uval (w : Bool) (x : Word) : Nat := if w then (x.setWidth 32).toNat else x.toNat
/-- The 64-bit value WriteS stores for an integer result (R43, R44). -/
def wres (w : Bool) (v : Int) : Word := if w then (BitVec.ofInt 32 v).signExtend 64 else BitVec.ofInt 64 v

/-- PC + 16 × Signed(IMM) (R54, R58). -/
def pcRel (pc disp : Word) : Word := pc + 16 * disp

/-- (aA + SignExtend(disp, 64)) mod 2^64 (R63, R115). -/
def baseDisp (a : Word) (disp : BitVec 32) : Word := a + disp.signExtend 64
/-- Effective address of a memory operand (R115). -/
def State.ea (s : State) (m : MemOp) : Word := baseDisp (s.getA m.base) m.disp
/-- Access size of a folio instruction in bytes (R63). -/
def folSize (size : Fin 4) : Nat := 2 ^ size.val
/-- Folio offset of FLDX and FSTX: the index is scaled by the access size (R63). -/
def State.folIndexed (s : State) (a : AReg) (b : SReg) (disp : BitVec 32) (size : Fin 4) : Word :=
  baseDisp (s.getA a) disp + (s.getS b <<< size.val)

/-- A loaded value extended to 64 bits from its bytes (R63, R118). -/
def extend (bits : Nat) (sx : Bool) (v : Nat) : Word :=
  if sx then (BitVec.ofNat bits v).signExtend 64 else (BitVec.ofNat bits v).setWidth 64

/-- Owner resolved against the issuing die: 0xFFFF becomes the die's own number (R172). -/
def resolveOwner (here : Nat) (va : Word) : Word :=
  if va.extractLsb' 48 16 = 0xFFFF then (BitVec.ofNat 16 here) ++ va.extractLsb' 0 48 else va

/-- A semaphore count operand (R200). -/
def State.semCount (s : State) : SemCount → Nat
  | .reg r => (s.getS r).toNat % 2 ^ 32
  | .imm k => k.toNat

end Sys2Proof.Machine
end

