-- ==== Sys2Proof/Machine/Integer.lean ====
section
/-! DEFINITION. Integer arithmetic, logic, shifts, multiply, divide and bit fields (02 R46-R51). -/

namespace Sys2Proof.Machine

/-- WriteS of an integer result with the clamp of `.sat`, then the next word (R46). -/
def arithResult (s : State) (d : SReg) (v : Int) (w sat : Bool) : Out :=
  let r := if sat then clampS (widthOf w) v else (v, false)
  .next (s.modSt fun t => ((t.setS d (wres w r.1)).setSatf r.2).retire 1)

/-- WriteS of a result without flags, then the next word. -/
def scalarResult (s : State) (d : SReg) (v : Word) : Out := .next (s.modSt fun t => (t.setS d v).retire 1)

def execNop (s : State) : Out := .next s.retire
def execAdd (d a b : SReg) (w sat : Bool) (s : State) : Out := arithResult s d (sval w (s.getS a) + sval w (s.getS b)) w sat
def execSub (d a b : SReg) (w sat : Bool) (s : State) : Out := arithResult s d (sval w (s.getS a) - sval w (s.getS b)) w sat
def execAddi (d a : SReg) (imm : Word) (w sat : Bool) (s : State) : Out := arithResult s d (sval w (s.getS a) + sval w imm) w sat
def execAbs (d a : SReg) (w sat : Bool) (s : State) : Out := arithResult s d |sval w (s.getS a)| w sat

/-- The smaller of two operands read signed or unsigned (R46). -/
def minOf (w u : Bool) (x y : Word) : Int :=
  if u then Min.min (uval w x : Int) (uval w y) else Min.min (sval w x) (sval w y)
/-- The larger of two operands read signed or unsigned (R46). -/
def maxOf (w u : Bool) (x y : Word) : Int :=
  if u then Max.max (uval w x : Int) (uval w y) else Max.max (sval w x) (sval w y)

def execMin (d a b : SReg) (w u : Bool) (s : State) : Out := scalarResult s d (wres w (minOf w u (s.getS a) (s.getS b)))
def execMax (d a b : SReg) (w u : Bool) (s : State) : Out := scalarResult s d (wres w (maxOf w u (s.getS a) (s.getS b)))

def execAnd (d a b : SReg) (s : State) : Out := scalarResult s d (s.getS a &&& s.getS b)
def execOr (d a b : SReg) (s : State) : Out := scalarResult s d (s.getS a ||| s.getS b)
def execXor (d a b : SReg) (s : State) : Out := scalarResult s d (s.getS a ^^^ s.getS b)
def execAndi (d a : SReg) (imm : Word) (s : State) : Out := scalarResult s d (s.getS a &&& imm)
def execOri (d a : SReg) (imm : Word) (s : State) : Out := scalarResult s d (s.getS a ||| imm)
def execXori (d a : SReg) (imm : Word) (s : State) : Out := scalarResult s d (s.getS a ^^^ imm)

/-- Shifts of R47 by a count already reduced to the width. -/
def shlOf (w : Bool) (x : Word) (n : Nat) : Word := if w then ((x.setWidth 32) <<< n).signExtend 64 else x <<< n
def shrOf (w : Bool) (x : Word) (n : Nat) : Word := if w then ((x.setWidth 32) >>> n).signExtend 64 else x >>> n
def sarOf (w : Bool) (x : Word) (n : Nat) : Word := if w then ((x.setWidth 32).sshiftRight n).signExtend 64 else x.sshiftRight n
/-- S(B)[5:0], or S(B)[4:0] in `.w` (R47). -/
def shiftCount (w : Bool) (y : Word) : Nat := y.toNat % widthOf w

def execShl (d a b : SReg) (w : Bool) (s : State) : Out := scalarResult s d (shlOf w (s.getS a) (shiftCount w (s.getS b)))
def execShr (d a b : SReg) (w : Bool) (s : State) : Out := scalarResult s d (shrOf w (s.getS a) (shiftCount w (s.getS b)))
def execSar (d a b : SReg) (w : Bool) (s : State) : Out := scalarResult s d (sarOf w (s.getS a) (shiftCount w (s.getS b)))
def execShli (d a : SReg) (count : Fin 64) (w : Bool) (s : State) : Out := scalarResult s d (shlOf w (s.getS a) count.val)
def execShri (d a : SReg) (count : Fin 64) (w : Bool) (s : State) : Out := scalarResult s d (shrOf w (s.getS a) count.val)
def execSari (d a : SReg) (count : Fin 64) (w : Bool) (s : State) : Out := scalarResult s d (sarOf w (s.getS a) count.val)

/-- Products of R48. -/
def mulOf (w : Bool) (x y : Word) : Word := wres w (sval w x * sval w y)
def mulhOf (w : Bool) (x y : Word) : Word := wres w (sval w x * sval w y / 2 ^ widthOf w)
def mulhuOf (w : Bool) (x y : Word) : Word := wres w ((uval w x * uval w y / 2 ^ widthOf w : Nat) : Int)

def execMul (d a b : SReg) (w : Bool) (s : State) : Out := scalarResult s d (mulOf w (s.getS a) (s.getS b))
def execMulh (d a b : SReg) (w : Bool) (s : State) : Out := scalarResult s d (mulhOf w (s.getS a) (s.getS b))
def execMulhu (d a b : SReg) (w : Bool) (s : State) : Out := scalarResult s d (mulhuOf w (s.getS a) (s.getS b))

/-- Quotient and remainder of R49 for a non-zero divisor, rounded toward zero; the overflowing divide falls out of it. -/
def divParts (x y : Int) : Int × Int := (x.tdiv y, x.tmod y)

/-- The divide of R49: `q` picks the quotient. A zero divisor traps with dz = 1. -/
def divResult (s : State) (d : SReg) (x y : Int) (w signed q : Bool) : Out :=
  if y = 0 then
    if s.st.dz then .next s.divZero
    else .next (s.modSt fun t => ((t.setS d (wres w (if q then 2 ^ widthOf w - 1 else x))).setDzf).retire 1)
  else if signed ∧ x = -(2 ^ (widthOf w - 1)) ∧ y = -1 then
    .next (s.modSt fun t => ((t.setS d (wres w (if q then x else 0))).setDof).retire 1)
  else scalarResult s d (wres w (if q then (divParts x y).1 else (divParts x y).2))

def execDiv (d a b : SReg) (w : Bool) (s : State) : Out := divResult s d (sval w (s.getS a)) (sval w (s.getS b)) w true true
def execDivu (d a b : SReg) (w : Bool) (s : State) : Out := divResult s d (uval w (s.getS a)) (uval w (s.getS b)) w false true
def execRem (d a b : SReg) (w : Bool) (s : State) : Out := divResult s d (sval w (s.getS a)) (sval w (s.getS b)) w true false
def execRemu (d a b : SReg) (w : Bool) (s : State) : Out := divResult s d (uval w (s.getS a)) (uval w (s.getS b)) w false false

/-- Ones in bits [width-1:0]. -/
def lowOnes (width : Nat) : Word := BitVec.ofNat 64 (2 ^ width - 1)
/-- BEXT of R51. -/
def bextOf (x : Word) (pos width : Nat) (sx : Bool) : Word :=
  let f := (x >>> pos) &&& lowOnes width
  if sx && f.getLsbD (width - 1) then f ||| ~~~lowOnes width else f
/-- BINS of R51. -/
def binsOf (old x : Word) (pos width : Nat) : Word :=
  (old &&& ~~~(lowOnes width <<< pos)) ||| ((x &&& lowOnes width) <<< pos)
/-- Leading zeros of the low `w` bits. -/
def clzOf (w : Nat) (x : Nat) : Nat := if x = 0 then w else w - 1 - Nat.log2 x
/-- Trailing zeros of the low `w` bits. -/
def ctzOf : Nat → Nat → Nat
  | 0, _ => 0
  | w + 1, x => if x % 2 = 1 then 0 else 1 + ctzOf w (x / 2)
/-- Set bits among the low `w` bits. -/
def popOf : Nat → Nat → Nat
  | 0, _ => 0
  | w + 1, x => x % 2 + popOf w (x / 2)
/-- The low `w` bits in reverse order. -/
def revOf : Nat → Nat → Nat
  | 0, _ => 0
  | w + 1, x => x % 2 * 2 ^ w + revOf w (x / 2)

def execBext (d a : SReg) (pos : Fin 64) (width : BitVec 7) (sx : Bool) (s : State) : Out :=
  scalarResult s d (bextOf (s.getS a) pos.val width.toNat sx)
def execBins (d a : SReg) (pos : Fin 64) (width : BitVec 7) (s : State) : Out :=
  scalarResult s d (binsOf (s.getS d) (s.getS a) pos.val width.toNat)
def execClz (d a : SReg) (w : Bool) (s : State) : Out := scalarResult s d (wres w (clzOf (widthOf w) (uval w (s.getS a))))
def execCtz (d a : SReg) (w : Bool) (s : State) : Out := scalarResult s d (wres w (ctzOf (widthOf w) (uval w (s.getS a))))
def execPopc (d a : SReg) (w : Bool) (s : State) : Out := scalarResult s d (wres w (popOf (widthOf w) (uval w (s.getS a))))
def execBrev (d a : SReg) (w : Bool) (s : State) : Out := scalarResult s d (wres w (revOf (widthOf w) (uval w (s.getS a))))

end Sys2Proof.Machine
end

