-- ==== Sys2Proof/Machine/Predicate.lean ====
section
/-! DEFINITION. Compares, predicate logic, moves, immediates and address arithmetic (02 R52-R57). -/

namespace Sys2Proof.Machine

/-- Write a predicate, then the next word. -/
def predResult (s : State) (p : PReg) (v : Bool) : Out := .next (s.modSt fun t => (t.setP p v).retire 1)
/-- Write an address register, then the next word. -/
def addrResult (s : State) (d : AReg) (v : Word) : Out := .next (s.modSt fun t => (t.setA d v).retire 1)

def execCmp (p : PReg) (a b : SReg) (c : Cond) (s : State) : Out := predResult s p (condHolds c (s.getS a) (s.getS b))
def execCmpi (p : PReg) (a : SReg) (imm : Word) (c : Cond) (s : State) : Out := predResult s p (condHolds c (s.getS a) imm)
def execCmpW (p : PReg) (a b : SReg) (c : Cond) (s : State) : Out :=
  predResult s p (condHolds c ((s.getS a).setWidth 32) ((s.getS b).setWidth 32))
def execCmpiW (p : PReg) (a : SReg) (imm : BitVec 32) (c : Cond) (s : State) : Out :=
  predResult s p (condHolds c ((s.getS a).setWidth 32) imm)

def execPand (d a b : PReg) (ia ib : Bool) (s : State) : Out := predResult s d ((s.getP a ^^ ia) && (s.getP b ^^ ib))
def execPor (d a b : PReg) (ia ib : Bool) (s : State) : Out := predResult s d ((s.getP a ^^ ia) || (s.getP b ^^ ib))
def execPxor (d a b : PReg) (ia ib : Bool) (s : State) : Out := predResult s d ((s.getP a ^^ ia) ^^ (s.getP b ^^ ib))

/-- p0-p7 in bits 0-7; p7 reads as true (R53). -/
def Strand.preds (t : Strand) : Word := (1#1 ++ t.p).setWidth 64
def execPget (d : SReg) (s : State) : Out := scalarResult s d s.st.preds
def execPput (a : SReg) (mask : BitVec 7) (s : State) : Out :=
  let v := (s.getS a).setWidth 7
  .next (s.modSt fun t => { t with p := (t.p &&& ~~~mask) ||| (v &&& mask) }.retire 1)

def execSel (d : SReg) (p : PReg) (inv : Bool) (a b : SReg) (s : State) : Out :=
  scalarResult s d (if s.getP p ^^ inv then s.getS a else s.getS b)
def execMova (d : AReg) (a : SReg) (s : State) : Out := addrResult s d (s.getS a)
def execMovs (d : SReg) (a : AReg) (s : State) : Out := scalarResult s d (s.getA a)
def execLi (d : SReg) (imm : Word) (s : State) : Out := scalarResult s d imm
def execLia (d : AReg) (imm : Word) (s : State) : Out := addrResult s d imm
def execLit (d : SReg) (l : Word128) (s : State) : Out := .next (s.modSt fun t => (t.setS2 d l).retire 2)
def execLita (d : AReg) (l : Word128) (s : State) : Out := .next (s.modSt fun t => (t.setA2 d l).retire 2)
def execAdr (d : AReg) (disp : Word) (s : State) : Out := addrResult s d (pcRel s.st.pc disp)

def execAadd (d a : AReg) (b : SReg) (s : State) : Out := addrResult s d (s.getA a + s.getS b)
def execAaddi (d a : AReg) (imm : Word) (s : State) : Out := addrResult s d (s.getA a + imm)
def execAsub (d : SReg) (a b : AReg) (s : State) : Out := scalarResult s d (s.getA a - s.getA b)
def execAidx (d a : AReg) (b : SReg) (sh : Fin 16) (s : State) : Out := addrResult s d (s.getA a + (s.getS b <<< sh.val))

/-- aA[63:k] : ((aA[k-1:0] + step) mod 2^k) (R57). -/
def awrapOf (a : Word) (stp : BitVec 32) (k : Nat) : Word :=
  (a &&& ~~~lowOnes k) ||| ((a + stp.signExtend 64) &&& lowOnes k)
/-- The window [aB - length, aB) of R57. -/
def abndOf (a b : Word) (stp len : BitVec 32) : Word :=
  let lo : Int := (b.toNat : Int) - len.toNat
  let o := ((a.toNat : Int) - lo + stp.toInt) % (len.toNat : Int)
  BitVec.ofInt 64 (lo + o)
/-- Align down, or up with `.up` (R57). -/
def aalignOf (a : Word) (k : Nat) (up : Bool) : Word := (if up then a + lowOnes k else a) &&& ~~~lowOnes k

def execAwrap (d a : AReg) (stp : BitVec 32) (k : Fin 64) (s : State) : Out := addrResult s d (awrapOf (s.getA a) stp k.val)
def execAbnd (d a b : AReg) (stp len : BitVec 32) (s : State) : Out := addrResult s d (abndOf (s.getA a) (s.getA b) stp len)
def execAalign (d a : AReg) (k : Fin 64) (up : Bool) (s : State) : Out := addrResult s d (aalignOf (s.getA a) k.val up)
def execAcmp (p : PReg) (a b : AReg) (c : Cond) (s : State) : Out := predResult s p (condHolds c (s.getA a) (s.getA b))

end Sys2Proof.Machine
end

