-- ==== Sys2Proof/Machine/Control.lean ====
section
/-! DEFINITION. Branches, hardware loops, scalar folio access, stopping and strand barriers (02 R58-R64, R69-R71). -/

namespace Sys2Proof.Machine

def execBr (disp : Word) (s : State) : Out := .next (s.jump (pcRel s.st.pc disp))

/-- A register target is taken when bits [3:0] are zero, else PC_ALIGN (R59). -/
def aligned16 (a : Word) : Bool := a.extractLsb' 0 4 = 0

def execBrr (a : AReg) (s : State) : Out := if aligned16 (s.getA a) then .next (s.jump (s.getA a)) else .next s.pcAlign
def execCall (d : AReg) (disp : Word) (s : State) : Out :=
  .next (s.modSt fun t => (t.setA d (t.pc + 16)).jump (pcRel t.pc disp))
def execCallr (d a : AReg) (s : State) : Out :=
  if aligned16 (s.getA a) then .next (s.modSt fun t => (t.setA d (t.pc + 16)).jump (t.getA a)) else .next s.pcAlign
def execRet (a : AReg) (s : State) : Out := if aligned16 (s.getA a) then .next (s.jump (s.getA a)) else .next s.pcAlign

/-- The address after the instruction at an address (Successor of R44), or why the word there cannot be fetched. A loop end that names a literal word is taken by that word's own bit 95 (log 95). -/
def State.successor (s : State) (pc : Word) : Except MemErr Word :=
  match s.readVa s.agent .fetch pc 16 with
  | .ok (_, bs) => .ok (if (leNat bs).testBit 95 then pc + 32 else pc + 16)
  | .error (e, _) => .error e

/-- Make an effect and go to the word after the instruction at an address. A fetch fault of Successor is taken precisely at that address
(R44), with the effect made (log 8); a page that is not resident is waited for. -/
def State.passOver (s : State) (pc : Word) (f : Strand → Strand) : State :=
  match s.successor pc with
  | .ok n => s.modSt fun t => (f t).jump n
  | .error e =>
    match e.cause true false with
    | some (code, info) => ((countError s s.agent e pc).modSt fun t => (f t).jump pc).trapAt s.focus code info pc pc false false
    | none => (if e = .absent then askResident s s.agent pc else s).hold

/-- Stamp of the latest loop start (R60). -/
def Strand.nextAge (t : Strand) : Nat := t.loopAge.toList.foldl Nat.max 0 + 1

/-- LOOP and LOOPI (R60). At another loop's end it applies no repeat rule (log 96). -/
def startLoop (s : State) (d : LReg) (last count : BitVec 32) : Out :=
  let start := fun t : Strand =>
    { t with loopStart := t.loopStart.set d (t.pc + 16), loopEnd := t.loopEnd.set d (t.pc + 16 * last.setWidth 64)
             loopAge := t.loopAge.set d t.nextAge, lc := t.lc.set d count }
  .next (if count = 0 then s.passOver (s.st.pc + 16 * last.setWidth 64) start else s.modSt fun t => (start t).jump (t.pc + 16))

def execLoop (d : LReg) (a : SReg) (last : BitVec 32) (s : State) : Out := startLoop s d last ((s.getS a).setWidth 32)
def execLoopi (d : LReg) (last count : BitVec 32) (s : State) : Out := startLoop s d last count
def execLcget (d : SReg) (a : LReg) (s : State) : Out := scalarResult s d ((s.st.getL a).setWidth 64)
def execLcset (d : LReg) (a : SReg) (s : State) : Out :=
  let v := (s.getS a).setWidth 32
  .next (s.modSt fun t => ({ t.setL d v with loopAge := if v = 0 then t.loopAge else t.loopAge.set d t.nextAge }).retire 1)
def execLbreak (a : LReg) (s : State) : Out :=
  .next (s.passOver s.st.loopEnd[a] fun t => t.setL a 0)

/-! ## Scalar folio access (R63, R64, R104) -/

def aligned (a : Word) (n : Nat) : Bool := a.toNat % n = 0

/-- FLD and FLDX at an offset. -/
def folLoad (s : State) (d : SReg) (o : Word) (size : Fin 4) (sx : Bool) : Out :=
  if !aligned o (folSize size) then .next (s.folioAlign o)
  else .next (s.withFolRead true 0 (folOffsets o (folSize size)) fun s bs =>
    s.modSt fun t => (t.setS d (extend (8 * folSize size) sx (leNat bs))).retire 1)

/-- FST and FSTX at an offset. -/
def folStore (s : State) (v : Word) (o : Word) (size : Fin 4) : Out :=
  if !aligned o (folSize size) then .next (s.folioAlign o)
  else .next (s.withFolWrite true 1 (folOffsets o (folSize size)) (leBytes (folSize size) v.toNat) fun s => s.retire)

def execFld (d : SReg) (a : AReg) (disp : BitVec 32) (_oc : Fin 16) (size : Fin 4) (sx : Bool) (s : State) : Out :=
  folLoad s d (baseDisp (s.getA a) disp) size sx
def execFst (a : AReg) (b : SReg) (disp : BitVec 32) (_oc : Fin 16) (size : Fin 4) (s : State) : Out :=
  folStore s (s.getS b) (baseDisp (s.getA a) disp) size
def execFldx (d : SReg) (a : AReg) (b : SReg) (disp : BitVec 32) (_oc : Fin 16) (size : Fin 4) (sx : Bool) (s : State) : Out :=
  folLoad s d (s.folIndexed a b disp size) size sx
def execFstx (d : SReg) (a : AReg) (b : SReg) (disp : BitVec 32) (_oc : Fin 16) (size : Fin 4) (s : State) : Out :=
  folStore s (s.getS d) (s.folIndexed a b disp size) size

/-! ## Stop, yield, strand barrier (R69-R71) -/

/-- When the last strand stops with a phase open, the hardware commits it as `.close` would (R262). -/
def Ctx.closeIfStopped (x : Ctx) (i : Fin 4) : Ctx :=
  if x.strands.any (·.live) then x
  else { x with phase := x.phase.map fun h : Phase => if h.committing = none then { h with committing := some (i.val, false) } else h }

/-- STOP leaves the pc at its own address (R160). -/
def execStop (s : State) : Out :=
  .next ((s.modSt fun t => { t with stopped := true, forced := none }).modCx (·.closeIfStopped (strandIx s.focus)))
/-- YIELD passes to the next word and gives up the strand's next turn (R70, R80). -/
def execYield (s : State) : Out := .next (s.retire.modSt fun t => { t with yielded := true })

/-- The barrier of the strand's count is complete: every other named strand arrived at that count, stopped, or is absent (R71). -/
def Ctx.sbarDone (x : Ctx) (i : Fin 4) (mask : BitVec 4) : Bool :=
  ([0, 1, 2, 3] : List (Fin 4)).all fun j =>
    j == i || !mask.getLsbD j.val || !x.strands[j].live
      || x.strands[j].sbarCount ≥ x.strands[i].sbarCount

/-- Waiting SBARs whose barrier is complete complete. -/
def Ctx.settleSbar (x : Ctx) : Ctx :=
  ([0, 1, 2, 3] : List (Fin 4)).foldl (fun x i =>
    match x.strands[i].wait with
    | some (.sbar mask) => if x.sbarDone i mask then x.modStrand i fun t => { t with sbarArrived := false }.finishWait else x
    | _ => x) x

/-- SBAR (R71): it registers its arrival once, and waits. -/
def execSbar (mask : BitVec 4) (s : State) : Out :=
  let i := strandIx s.focus
  let arrived := s.modSt fun t => if t.sbarArrived then t else { t with sbarArrived := true, sbarCount := t.sbarCount + 1 }
  if arrived.cx.sbarDone i mask then .next (arrived.modSt fun t => { t with sbarArrived := false, wait := none }.retire 1)
  else .next (arrived.modSt fun t => { t with wait := some (.sbar mask) })

end Sys2Proof.Machine
end

