-- ==== Sys2Proof/Machine/Draw.lean ====
section
/-! DEFINITION. Currencies and base values, the generator of a task draw unit, the inverse draw, spills and reloads
(21 R336-R340, 22 R353-R357). -/

namespace Sys2Proof.Machine

/-! ## Currencies (R336, R337) -/

/-- A currency by number; number 1 is the base, number 0 names none (R336, R352). -/
def State.currency (s : State) (n : Nat) : Option Currency :=
  if n = 1 then some { level := 0, parent := 0, rate := 0x10000 }
  else if n = 0 then none else SMap.find s.currencies n

/-- VMAX of R337. -/
def vmax : Nat := 2 ^ 40 - 1

/-- BaseValue of R337; the tree has at most four levels. -/
def baseValueFrom (s : State) : Nat → Nat → Nat → Nat
  | 0, v, _ => v
  | n + 1, v, cur =>
    if cur = 1 then v
    else match s.currency cur with
      | none => v
      | some c => baseValueFrom s n (Nat.min vmax (v * c.rate.toNat / 2 ^ 16)) c.parent.toNat

def State.baseValue (s : State) (tickets cur : Nat) : Nat := baseValueFrom s 4 tickets cur
/-- A context's own value: BaseValue of its ticket count in its currency. -/
def State.ctxValue (s : State) (x : Ctx) : Nat := s.baseValue x.tickets.toNat x.currency.toNat

/-- Level-1 ancestor of a currency, or itself at level 1; none for the base (R336). -/
def State.tenantOf (s : State) (cur : Nat) : Option Nat :=
  let up := fun c : Nat => match s.currency c with | some k => if k.level ≤ 1 then c else k.parent.toNat | none => c
  let t := up (up (up cur))
  match s.currency t with
  | some k => if k.level = 1 then some t else none
  | none => none

/-! ## The generator (R339, R340) -/

/-- Seed of R339; the draw counter clears. -/
def Tdu.seed (v : Word) : Tdu := { x := v ^^^ 0x9E3779B97F4A7C15, y := (v.rotateLeft 31) ^^^ 0xD1B54A32D192ED03, cnt := 0 }
/-- Step of R339: the output and the new state. -/
def Tdu.next (g : Tdu) : Word × Tdu :=
  let t := g.x ^^^ (g.x <<< 23)
  let y' := t ^^^ g.y ^^^ (t >>> 17) ^^^ (g.y >>> 26)
  (g.y + y', { g with x := g.y, y := y' })

/-- The pick of R340 over weights in order: the index whose running sum first exceeds it. -/
def pickIndex (pick : Nat) : Nat → Nat → List Nat → Option Nat
  | _, _, [] => none
  | acc, i, w :: ws => if acc + w > pick then some i else pickIndex pick (acc + w) (i + 1) ws

/-- One ordinary draw: no step where the total is 0 (R338, R340). -/
def Tdu.draw (g : Tdu) (ws : List Nat) : Option (Nat × Tdu) :=
  let w := ws.foldl (· + ·) 0
  if w = 0 then none
  else (pickIndex (g.next.1.toNat * w / 2 ^ 64) 0 0 ws).map fun i => (i, g.next.2)

/-! ## Leaves (R353-R357) -/

/-- A leaf of a context is in flight (R355). -/
def Ctx.inFlight (x : Ctx) (leaf : Nat) : Bool :=
  (x.phase.any fun h => h.pairs.any fun p => p.back == leaf)
    || x.queues.toList.any fun q => q.any fun t => t.st != .done && t.leafs.contains leaf

/-- Physical leaves that no context of the core owns and that are neither held nor being spilled, lowest first (R353, R357, R388). -/
def Core.freeLeaves (k : Core) : List Nat :=
  (List.range 96).filter fun l =>
    !(k.slots.any fun e => e.2.physLeaves.contains l) && !(k.shadows.any fun e => e.2.physLeaves.contains l)
      && !(k.held.any fun h => h.leaves.contains l) && !(k.spills.any fun p => p.phys == l) && !(k.given.any fun g => g.1 == l)

/-- Physical leaves a request may take: those given to it and the free ones, lowest first (R353, R357). -/
def Core.leavesFor (k : Core) (r : LeafReq) : List Nat :=
  ((k.given.filter fun g => g.2 == r).map (·.1) ++ k.freeLeaves).insertionSort (· ≤ ·)

/-- Candidates of the inverse draw in ascending physical leaf: context, logical leaf, weight (R356). -/
def drawCandidates (s : State) (core : Nat) : List (CtxRef × Nat × Nat) :=
  (List.range 96).filterMap fun l =>
    ((s.core core).contexts core).findSome? fun e =>
      match e.2.leaves.zipIdx.find? fun f => f.1.phys = some l with
      | some (f, i) =>
        let v := s.ctxValue e.2
        some (e.1, i, if f.pinned || e.2.inFlight i then 0 else 2 ^ 24 / Nat.max 1 v)
      | none => none

/-- Replace one logical leaf. -/
def Ctx.setLeaf (x : Ctx) (leaf : Nat) (l : Leaf) : Ctx := { x with leaves := x.leaves.set leaf l }

/-- The draw instant of a spill: the leaf is marked spilled and its physical leaf waits to be written out (R357). -/
def markSpill (s : State) (ref : CtxRef) (leaf : Nat) (who : Option LeafReq) : State :=
  match s.findCtx ref with
  | none => s
  | some x =>
    match x.leaves[leaf]? with
    | some { phys := some p, pinned := pin } =>
      (s.modCore (refCore ref) fun k => { k with spills := k.spills ++ [{ phys := p, block := x.block, leaf := leaf, who := who }] }).putCtx ref
        (x.setLeaf leaf { phys := none, pinned := pin })
    | _ => s

/-- Sectors of a leaf that hold a word with an uncorrectable error. -/
def Core.badSectors (k : Core) (phys : Nat) : List Nat :=
  if !k.marred && k.folioPoison.isEmpty then []
  else (List.range 256).filter fun j => (List.range 8).any fun i => k.folioBad (leafByte phys (64 * j + 8 * i) / 8)

/-- A spill reaches its backing: the bytes are written, and a word with an uncorrectable error leaves its sector with one (log 112); the physical leaf is
zeroed and given to the request it was drawn for (R353, R357). -/
def finishSpill (s : State) (core : Nat) (p : Spill) : State :=
  let bad := (s.core core).badSectors p.phys
  let ma := p.block.toNat + 16384 * p.leaf
  let s := (noteLeaf s core p.phys).writeMa s.pkgOwner ma ((s.core core).leafBytes p.phys)
  let s := if bad = [] then s else s.modDie (keyDie (maKey s.pkgOwner ma)) fun d =>
    { d with hbmPoison := d.hbmPoison ++ bad.map fun j => maKey s.pkgOwner ma / 64 + j }
  s.modCore core fun k =>
    { k.zeroLeaf p.phys with spills := k.spills.filter (· ≠ p), given := k.given ++ (p.who.toList.filter (·.live s)).map fun r => (p.phys, r) }

/-- A leaf is filled from its backing; a sector with an uncorrectable error leaves its words with one (log 112). -/
def loadLeaf (s : State) (core : Nat) (phys ma : Nat) : State :=
  let k0 := maKey s.pkgOwner ma
  let bad := (List.range 256).filter fun j => s.poisoned (k0 + 64 * j)
  s.modCore core fun k =>
    let k := k.fillLeaf phys (s.readMa s.pkgOwner ma 16384)
    if bad = [] then k else { k with folioPoison := k.folioPoison ++ bad.flatMap fun j => (List.range 8).map fun i => leafByte phys (64 * j + 8 * i) / 8 }

/-- Some byte of a run of the package's own memory is in a blotter job, so that an access to it waits (R389). -/
def State.maHeld (s : State) (ma n : Nat) : Bool :=
  (s.die (keyDie (maKey s.pkgOwner ma))).blotJobs.any fun j => j.extents.any fun e =>
    match e with
    | .ctx _ _ => false
    | .mem b k => decide (b.toNat < ma % 2 ^ 52 + n) && decide (ma % 2 ^ 52 < b.toNat + k * 2 ^ 21)

/-- The copy engine's draw unit of a core. -/
def ceUnit : Fin 3 := 2

/-- The inverse draw for a request (R356): the winner is marked spilled; none when the total weight is 0. -/
def inverseDraw (s : State) (core : Nat) (r : LeafReq) : Option State :=
  let cs := drawCandidates s core
  match ((s.core core).tdu[ceUnit]).draw (cs.map (·.2.2)) with
  | none => none
  | some (i, g) =>
    match cs[i]? with
    | none => none
    | some (ref, leaf, _) =>
      some (markSpill (s.modCore core fun k => { k with tdu := k.tdu.set ceUnit g, drawWaits := k.drawWaits.filter (· ≠ r) }) ref leaf (some r))

/-- A draw that found no candidate is remembered until it is retried (R356). -/
def markDrawWait (s : State) (core : Nat) (r : LeafReq) : State :=
  s.modCore core fun k => { k with drawWaits := k.drawWaits.filter (· ≠ r) ++ [r] }

/-- Draw until the leaves that are free or given to a request and those being spilled for it make up what it wants: one draw for each missing leaf
(R353, R356). `n` bounds the draws. -/
def needLeaves (core want : Nat) (r : LeafReq) : Nat → State → State
  | 0, s => s
  | n + 1, s =>
    if want ≤ ((s.core core).leavesFor r).length + ((s.core core).spills.filter fun p => p.who == some r).length then s
    else match inverseDraw s core r with
    | some t => needLeaves core want r n t
    | none => markDrawWait s core r

/-- The lowest free physical leaves for a request, or one inverse draw for each missing one, after which it waits (R353, R356). -/
def gatherLeaves (s : State) (core want : Nat) (r : LeafReq) : State × Option (List Nat) :=
  let k := s.core core
  if want ≤ (k.leavesFor r).length then
    (s.modCore core fun k => { k with given := k.given.filter fun g => g.2 ≠ r }, some ((k.leavesFor r).take want))
  else (needLeaves core want r 96 s, none)

/-- Bring a spilled leaf back for a request (R357); false while it waits for a physical leaf. -/
def reloadLeaf (s : State) (ref : CtxRef) (leaf : Nat) (r : LeafReq) : State × Bool :=
  match s.findCtx ref with
  | none => (s, true)
  | some x =>
    match x.leaves[leaf]? with
    | some { phys := none, pinned := pin } =>
      if ((s.core (refCore ref)).spillOf x.block leaf).isSome || s.maHeld (leafBacking x leaf) 16384 then (s, false)
      else match gatherLeaves s (refCore ref) 1 r with
      | (t, some (p :: _)) => ((loadLeaf t (refCore ref) p (leafBacking x leaf)).putCtx ref (x.setLeaf leaf { phys := some p, pinned := pin }), true)
      | (t, _) => (t, false)
    | _ => (s, true)

end Sys2Proof.Machine
end

