-- ==== Sys2Proof/Machine/Num.lean ====
section
/-! DEFINITION. Number formats: decoding, rounding, overflow policies, block scales, arithmetic on decoded values (17 R266-R281). -/

namespace Sys2Proof.Machine

/-- A decoded element: ± m × 2^e, an infinity, or a NaN or NaR (R268, R273, R275). -/
inductive Num where
  | fin (neg : Bool) (m : Nat) (e : Int)
  | inf (neg : Bool)
  | nan
  deriving DecidableEq, Repr

/-! ## Floating formats (R268) -/

/-- Exponent width, mantissa width and bias. -/
def floatParts : ETy → Option (Nat × Nat × Nat)
  | .f32 => some (8, 23, 127) | .bf16 => some (8, 7, 127) | .f16 => some (5, 10, 15) | .e5m2 => some (5, 2, 15)
  | .e4m3 => some (4, 3, 7) | .e3m2 => some (3, 2, 3) | .e2m3 => some (2, 3, 1) | .e2m1 => some (2, 1, 1)
  | _ => none

/-- Pattern of the largest finite magnitude. -/
def maxFinite : ETy → Nat
  | .f32 => 0x7F7FFFFF | .bf16 => 0x7F7F | .f16 => 0x7BFF | .e5m2 => 0x7B | .e4m3 => 0x7E | .e3m2 => 0x1F | .e2m3 => 0x1F
  | .e2m1 => 0x7 | .ta8 => 0x7F | .ta6 => 0x1F | _ => 0

/-- Pattern of +infinity, for the formats that have one. -/
def infPattern : ETy → Option Nat
  | .f32 => some 0x7F800000 | .bf16 => some 0x7F80 | .f16 => some 0x7C00 | .e5m2 => some 0x7C | _ => none

/-- Canonical NaN, NaR or NaN scale, for the formats that have one. -/
def nanPattern : ETy → Option Nat
  | .f32 => some 0x7FC00000 | .bf16 => some 0x7FC0 | .f16 => some 0x7E00 | .e5m2 => some 0x7E | .e4m3 => some 0x7F
  | .ta8 => some 0x80 | .ta6 => some 0x20 | .e8m0 => some 0xFF | _ => none

/-- Sign bit of a floating or Taper pattern. -/
def signBit (t : ETy) : Nat := 2 ^ (t.width - 1)

/-- Decode of a floating pattern (R268). -/
def decodeFloat (t : ETy) (eb mb bias x : Nat) : Num :=
  let neg := x.testBit (eb + mb)
  let mag := x % 2 ^ (eb + mb)
  let ef := mag / 2 ^ mb
  let mf := mag % 2 ^ mb
  if mag > maxFinite t then (if infPattern t = some mag then .inf neg else .nan)
  else if ef = 0 then .fin neg mf (1 - bias - mb)
  else .fin neg (2 ^ mb + mf) ((ef : Int) - bias - mb)

/-! ## Taper (R273) -/

/-- Length of the run of bits equal to `r` from bit k - 1 downward. -/
def taperRun (x : Nat) (r : Bool) : Nat → Nat
  | 0 => 0
  | k + 1 => if x.testBit k == r then 1 + taperRun x r k else 0

/-- Magnitude of a nonzero Taper field of n - 1 bits, as m and e. -/
def taperMag (x n : Nat) : Nat × Int :=
  let r := x.testBit (n - 2)
  let run := taperRun x r (n - 1)
  let k : Int := if r then (run : Int) - 1 else -run
  let t : Int := (n : Int) - 2 - run
  let e : Int := if t ≥ 1 ∧ x.testBit (t - 1).toNat then 1 else 0
  let fl : Nat := if t ≥ 2 then (t - 1).toNat else 0
  (2 ^ fl + x % 2 ^ fl, 2 * k + e - fl)

def decodeTaper (n x : Nat) : Num :=
  if x = 0 then .fin false 0 0
  else if x = 2 ^ (n - 1) then .nan
  else .fin (x.testBit (n - 1)) (taperMag (x % 2 ^ (n - 1)) n).1 (taperMag (x % 2 ^ (n - 1)) n).2

/-- An integer as a decoded value. -/
def numOfInt (v : Int) : Num := .fin (v < 0) v.natAbs 0
/-- An element pattern of an integer type as a number (R267). -/
def elemInt (t : ETy) (x : Nat) : Int := if t.isSigned then (BitVec.ofNat t.width x).toInt else x

/-- Decode of an element pattern of any type with X = 0 (R267, R268, R270, R273). -/
def decodeElem (t : ETy) (x : Nat) : Num :=
  match floatParts t with
  | some (eb, mb, bias) => decodeFloat t eb mb bias x
  | none =>
    match t with
    | .ta8 => decodeTaper 8 x
    | .ta6 => decodeTaper 6 x
    | .e8m0 => if x = 0xFF then .nan else .fin false 1 ((x : Int) - 127)
    | t => numOfInt (elemInt t x)

/-! ## Rounding (R277) -/

/-- Shift right by k, to nearest, ties to even. -/
def rne (m k : Nat) : Nat :=
  if k = 0 then m
  else
    let q := m >>> k
    let r := m % 2 ^ k
    if r > 2 ^ (k - 1) ∨ (r = 2 ^ (k - 1) ∧ q % 2 = 1) then q + 1 else q

/-- m × 2^e in units of 2^q, rounded to nearest even. -/
def inUnits (m : Nat) (e q : Int) : Nat := if q ≤ e then m <<< (e - q).toNat else rne m (q - e).toNat

/-- floor(log2(m × 2^e)) for m > 0. -/
def ilog (m : Nat) (e : Int) : Int := (Nat.log2 m : Int) + e

/-- Magnitude pattern of a rounded floating value; above the largest finite pattern it is overflow (R277). -/
def roundFloat (mb bias m : Nat) (e : Int) : Nat :=
  if m = 0 then 0
  else
    let q := max (ilog m e - mb) (1 - (bias : Int) - mb)
    (q + bias + mb).toNat * 2 ^ mb + inUnits m e q - 2 ^ mb

/-- m1 × 2^e1 ≤ m2 × 2^e2. -/
def magLe (m1 : Nat) (e1 : Int) (m2 : Nat) (e2 : Int) : Bool :=
  let e := min e1 e2
  m1 <<< (e1 - e).toNat ≤ m2 <<< (e2 - e).toNat

/-- 2 × (m × 2^e) against a + b of two magnitudes: less, equal or greater. -/
def midCompare (m : Nat) (e : Int) (a b : Nat × Int) : Ordering :=
  let q := min e (min a.2 b.2)
  compare (2 * (m <<< (e - q).toNat)) (a.1 <<< (a.2 - q).toNat + b.1 <<< (b.2 - q).toNat)

/-- Greatest Taper field not above a magnitude, from field k downward. -/
def taperFloor (n m : Nat) (e : Int) : Nat → Nat
  | 0 => 0
  | k + 1 => if magLe (taperMag (k + 1) n).1 (taperMag (k + 1) n).2 m e then k + 1 else taperFloor n m e k

/-- Field of the nearest Taper magnitude; none is overflow (R274). -/
def roundTaper (n m : Nat) (e : Int) : Option Nat :=
  let top := 2 ^ (n - 1) - 1
  if m = 0 then some 0
  else if !magLe m e (taperMag top n).1 (taperMag top n).2 then none
  else
    let c := taperFloor n m e top
    if c = 0 then some 1
    else if c = top then some top
    else match midCompare m e (taperMag c n) (taperMag (c + 1) n) with
      | .lt => some c
      | .gt => some (c + 1)
      | .eq => some (if c % 2 = 0 then c else c + 1)

/-! ## Conversion under a policy (R278-R280) -/

/-- A sign applied to a magnitude pattern. -/
def withSign (t : ETy) (neg : Bool) (mag : Nat) : Nat := if neg then signBit t + mag else mag

/-- Result of an overflow, and whether it is an overflow event (R279, R280). -/
def overflowOf (t : ETy) (pol : Pol) (sm neg : Bool) : Nat × Bool :=
  let sat := withSign t neg (maxFinite t)
  match pol with
  | .trap => (0, true)
  | .sat => (sat, false)
  | .inf =>
    match infPattern t with
    | some i => (withSign t neg i, false)
    | none => if t = .e4m3 ∧ sm then (sat, false) else ((nanPattern t).getD sat, false)
  | .nan => if t = .e4m3 ∧ sm then (sat, false) else ((nanPattern t).getD sat, false)

/-- Least and greatest value of an integer type (R267). -/
def intRange (t : ETy) : Int × Int :=
  if t.isSigned then (-(2 ^ (t.width - 1)), 2 ^ (t.width - 1) - 1) else (0, 2 ^ t.width - 1)

/-- The pattern of an integer kept to the type's width. -/
def intPattern (t : ETy) (v : Int) : Nat := (BitVec.ofInt t.width v).toNat

/-- Value of ± m × 2^e rounded to an integer. -/
def roundInt (neg : Bool) (m : Nat) (e : Int) : Int := if neg then -(inUnits m e 0 : Int) else inUnits m e 0

/-- Conversion to an integer type (R267, R279). -/
def toInteger (t : ETy) (pol : Pol) (v : Num) : Nat × Bool :=
  let r := intRange t
  let ends := fun neg : Bool => (intPattern t (if neg then r.1 else r.2), decide (pol = .trap))
  match v with
  | .nan => (0, pol = .trap)
  | .inf neg => ends neg
  | .fin neg m e =>
    if m ≠ 0 ∧ ilog m e > 70 then ends neg
    else
      let i := roundInt neg m e
      if i < r.1 ∨ i > r.2 then ends neg else (intPattern t i, false)

/-- Conversion to E8M0: no policy applies (R270). -/
def toE8m0 : Num → Nat
  | .fin _ m e => if m = 0 then 0 else (max 0 (min 254 (ilog m e + 127))).toNat
  | _ => 0xFF

/-- Conversion of a decoded value to a type with X = 0: the pattern, and whether it is an overflow event (R274, R277, R279). -/
def convertTo (t : ETy) (pol : Pol) (sm : Bool) (v : Num) : Nat × Bool :=
  match floatParts t with
  | some (_, mb, bias) =>
    match v with
    | .nan => match nanPattern t with | some n => (n, false) | none => (0, pol = .trap)
    | .inf neg => match infPattern t with | some i => (withSign t neg i, false) | none => overflowOf t pol sm neg
    | .fin neg m e =>
      let p := roundFloat mb bias m e
      if p > maxFinite t then overflowOf t pol sm neg else (withSign t neg p, false)
  | none =>
    match t with
    | .ta8 | .ta6 =>
      match v with
      | .nan => ((nanPattern t).getD 0, false)
      | .inf neg => overflowOf t pol sm neg
      | .fin neg m e =>
        match roundTaper t.width m e with
        | some 0 => (0, false)
        | some p => (withSign t neg p, false)
        | none => overflowOf t pol sm neg
    | .e8m0 => (toE8m0 v, false)
    | t => toInteger t pol v

/-- A result of IEEE arithmetic in a floating format (R269): overflow gives infinity. -/
def floatBits (t : ETy) (v : Num) : Nat := (convertTo t .inf false v).1
/-- An FP32 pattern as a decoded value. -/
def ofF32 (x : Nat) : Num := decodeElem .f32 x
def toF32 (v : Num) : Nat := floatBits .f32 v
/-- Round a value to FP32 (R269). -/
def roundF32 (v : Num) : Num := ofF32 (toF32 v)

/-! ## Block scales (R271, R272) -/

/-- Element value of a block-scaled format before its scale: MXINT8 counts in 2^-6. -/
def decodeMx (t : ETy) (x : Nat) : Num :=
  match t with
  | .i8 => match decodeElem .i8 x with | .fin n m e => .fin n m (e - 6) | v => v
  | t => decodeElem t x

/-- Apply an E8M0 scale; an infinite element decodes as NaN (R279). -/
def scaleBy (v : Num) (scale : Nat) : Num :=
  if scale = 0xFF then .nan
  else match v with
  | .fin n m e => .fin n m (e + ((scale : Int) - 127))
  | _ => .nan

/-- Emax of R271. -/
def emaxOf : ETy → Int
  | .e4m3 => 8 | .e5m2 => 15 | .e3m2 => 4 | .e2m3 => 2 | .e2m1 => 2 | .ta8 => 12 | .ta6 => 8 | _ => 0

/-- One element of MXQuantise, given ± m × 2^e already divided by the scale. -/
def quantElem (t : ETy) (neg : Bool) (m : Nat) (e : Int) : Nat :=
  if t = .i8 then intPattern .i8 (max (-127) (min 127 (roundInt neg m (e + 6))))
  else (convertTo t .sat false (.fin neg m e)).1

/-- Largest magnitude of the finite values of a block. -/
def maxMag : List Num → Nat × Int
  | [] => (0, 0)
  | .fin _ m e :: r => if magLe (maxMag r).1 (maxMag r).2 m e then (m, e) else maxMag r
  | _ :: r => maxMag r

/-- Not a finite value (R275). -/
def Num.nonFinite : Num → Bool
  | .fin _ _ _ => false
  | _ => true

/-- MXQuantise of R272: scale, elements, and whether it is an overflow event. -/
def mxQuantise (t : ETy) (pol : Pol) (xs : List Num) : Nat × List Nat × Bool :=
  if xs.any Num.nonFinite then (0xFF, xs.map fun _ => 0, decide (pol = .trap))
  else
    let mx := maxMag xs
    let e0 : Int := if mx.1 = 0 then 0 else ilog mx.1 mx.2 - emaxOf t
    let e := max (-127) (min 127 e0)
    ((e + 127).toNat, xs.map fun x => match x with | .fin n m q => quantElem t n m (q - e) | _ => 0, false)

/-! ## Exact arithmetic (R269) -/

def signed (neg : Bool) (m : Nat) : Int := if neg then -(m : Int) else m

/-- Exact sum; a zero sum of opposite signs is +0. -/
def numAdd (a b : Num) : Num :=
  match a, b with
  | .nan, _ => .nan
  | _, .nan => .nan
  | .inf x, .inf y => if x = y then .inf x else .nan
  | .inf x, _ => .inf x
  | _, .inf y => .inf y
  | .fin n1 m1 e1, .fin n2 m2 e2 =>
    let e := min e1 e2
    let s := signed n1 (m1 <<< (e1 - e).toNat) + signed n2 (m2 <<< (e2 - e).toNat)
    if s = 0 then .fin (n1 && n2) 0 0 else .fin (s < 0) s.natAbs e

def numNeg : Num → Num
  | .fin n m e => .fin (!n) m e
  | .inf n => .inf (!n)
  | .nan => .nan
def numAbs : Num → Num
  | .fin _ m e => .fin false m e
  | .inf _ => .inf false
  | .nan => .nan

/-- Exact product. -/
def numMul (a b : Num) : Num :=
  match a, b with
  | .nan, _ => .nan
  | _, .nan => .nan
  | .inf x, .inf y => .inf (x ^^ y)
  | .inf x, .fin n m _ => if m = 0 then .nan else .inf (x ^^ n)
  | .fin n m _, .inf y => if m = 0 then .nan else .inf (n ^^ y)
  | .fin n1 m1 e1, .fin n2 m2 e2 => .fin (n1 ^^ n2) (m1 * m2) (e1 + e2)

/-- Quotient to at least 80 bits with a sticky bit: it rounds to any format as the exact quotient does. -/
def numDiv (a b : Num) : Num :=
  match a, b with
  | .nan, _ => .nan
  | _, .nan => .nan
  | .inf _, .inf _ => .nan
  | .inf x, .fin n _ _ => .inf (x ^^ n)
  | .fin n _ _, .inf y => .fin (n ^^ y) 0 0
  | .fin n1 m1 e1, .fin n2 m2 e2 =>
    if m2 = 0 then (if m1 = 0 then .nan else .inf (n1 ^^ n2))
    else if m1 = 0 then .fin (n1 ^^ n2) 0 0
    else
      let k := 82 + Nat.log2 m2 - Nat.log2 m1
      .fin (n1 ^^ n2) (2 * ((m1 <<< k) / m2) + (if (m1 <<< k) % m2 = 0 then 0 else 1)) (e1 - e2 - k - 1)

/-- Integer square root by bits from 2^(k-1) downward. -/
def isqrt (n : Nat) : Nat → Nat → Nat
  | 0, r => r
  | k + 1, r => isqrt n k (if (r + 2 ^ k) * (r + 2 ^ k) ≤ n then r + 2 ^ k else r)

/-- Square root to at least 80 bits with a sticky bit. -/
def numSqrt : Num → Num
  | .nan => .nan
  | .inf n => if n then .nan else .inf false
  | .fin n m e =>
    if m = 0 then .fin n 0 0
    else if n then .nan
    else
      let sh := if (e % 2 = 0) then 160 else 161
      let r := isqrt (m <<< sh) ((Nat.log2 m + sh) / 2 + 1) 0
      .fin false (2 * r + (if r * r = m <<< sh then 0 else 1)) ((e - sh) / 2 - 1)

/-- a < b as real values; false for NaN. -/
def numLt (a b : Num) : Bool :=
  match a, b with
  | .nan, _ => false
  | _, .nan => false
  | .inf x, .inf y => x && !y
  | .inf x, .fin _ _ _ => x
  | .fin _ _ _, .inf y => !y
  | .fin n1 m1 e1, .fin n2 m2 e2 =>
    let e := min e1 e2
    signed n1 (m1 <<< (e1 - e).toNat) < signed n2 (m2 <<< (e2 - e).toNat)

/-- Sign of a decoded value. -/
def Num.negative : Num → Bool
  | .fin n _ _ => n
  | .inf n => n
  | .nan => false

/-- VMAX of R291: NaN if either is NaN; -0 counts as less than +0. -/
def numMax (a b : Num) : Num :=
  if a = .nan ∨ b = .nan then .nan else if numLt a b then b else if numLt b a then a else if a.negative then b else a
/-- VMIN of R291. -/
def numMin (a b : Num) : Num :=
  if a = .nan ∨ b = .nan then .nan else if numLt a b then a else if numLt b a then b else if a.negative then a else b

/-- A compare of R294 on decoded values. -/
def numCond (c : Cond) (a b : Num) : Bool :=
  if a = .nan ∨ b = .nan then decide (c = .ne)
  else match c with
  | .eq => !numLt a b && !numLt b a
  | .ne => numLt a b || numLt b a
  | .lt | .ltu => numLt a b
  | .le | .leu => !numLt b a
  | .gt | .gtu => numLt b a
  | .ge | .geu => !numLt a b

end Sys2Proof.Machine
end

