-- ==== Sys2Proof/Machine/Tables.lean ====
section
/-! DEFINITION. Listing the pages a hypervisor stage maps, frames and their records (10 R176-R189), names of contexts (07 R149). -/

namespace Sys2Proof.Machine

/-- The 8-byte words of a key range with a listed byte, lowest first. -/
def listedWords (s : State) (base len : Nat) : List Nat :=
  ((s.mem.filter fun e => base ≤ e.1 && e.1 < base + len).map fun e => e.1 / 8 * 8).dedup

/-- The entries of a node of a given index width, listed words only: index and value. -/
def listedNode (s : State) (o : Nat) (node : Bool × Nat) : List (Nat × Nat × Word) :=
  let base := maKey o node.2
  if node.1 then
    (listedWords s base 4096).flatMap fun k =>
      match nodeOf false true (s.rawWord k) with
      | none => []
      | some n => (listedWords s (maKey o n.2) 4096).map fun j =>
          ((k - base) / 8 * 512 + (j - maKey o n.2) / 8, j, s.rawWord j)
  else (listedWords s base (2 ^ 21)).map fun k => ((k - base) / 8, k, s.rawWord k)

/-- Every valid hypervisor-stage leaf entry of an address space at an owner: IA of the 4 KiB it stands for, key, value. -/
def hypLeaves (s : State) (o : Nat) (asid : BitVec 12) : List (Nat × Nat × Word) :=
  let d := s.desc o asid
  if !d[1].getLsbD 63 then []
  else
    (listedNode s o (d[1].getLsbD 62, fld d[1] 51 12 * 4096)).flatMap fun r =>
      match nodeOf false false r.2.2 with
      | none => []
      | some n => ((listedNode s o n).filter fun e => hypValid e.2.2).map fun e => (r.1 * 2 ^ 30 + e.1 * 2 ^ 12, e.2.1, e.2.2)

/-- Address spaces with a listed descriptor at an owner. -/
def listedAsids (s : State) (o : Nat) : List (BitVec 12) :=
  ((listedWords s (s.descBase o 0) (2 ^ 18)).map fun k => BitVec.ofNat 12 ((k - s.descBase o 0) / 64)).dedup

/-- Machine address range of a leaf entry's page: base and size. -/
def leafRange (e : Word) : Nat × Nat := (fld e 51 48 * 2 ^ 48 + fld e 47 12 * 4096, 2 ^ (12 + leafSize e))

/-- Some hypervisor-stage page of a die of the owner's package covers a machine address: a frame may be mapped by another owner than its own (R182, R189). -/
def frameMapped (s : State) (o ma : Nat) : Bool :=
  (List.range 4).any fun i => let o := o / 4 * 4 + i
    (listedAsids s o).any fun a => (hypLeaves s o a).any fun e =>
      (leafRange e.2.2).1 ≤ ma && ma < (leafRange e.2.2).1 + (leafRange e.2.2).2

/-- The frame records of a die that cover a machine address. -/
def framesAt (s : State) (o ma : Nat) : List Frame :=
  ((s.die o).frames.filter fun f => decide (f.1 ≤ ma) && decide (ma < f.1 + 2 ^ (12 + f.2.size))).map (·.2)

/-- Blotter holds over a range of machine addresses: one for each job with a memory extent that meets it (R389). -/
def blotHolds (s : State) (o ma n : Nat) : Nat :=
  ((s.die o).blotJobs.filter fun j => j.extents.any fun e =>
    match e with | .mem b k => decide (b.toNat < ma + n) && decide (ma < b.toNat + k * 2 ^ 21) | .ctx .. => false).length

/-- Hold count over a range of machine addresses: of the transfers that hold a frame in it, and of blotter jobs (R183, R188, R389). -/
def holdCount (s : State) (o ma n : Nat) : Nat :=
  ((s.die o).frames.filter fun f => decide (f.1 < ma + n) && decide (ma < f.1 + 2 ^ (12 + f.2.size))).foldl (fun h f => h + f.2.hold.toNat) 0 + blotHolds s o ma n

/-- The word cr.xlate.frame reads (R189). -/
def frameWord (s : State) (o ma : Nat) : Word :=
  let fs := framesAt s o ma
  BitVec.ofNat 64 (fs.foldl (fun n f => Nat.max n f.pin.toNat) 0) <<< 48 ||| BitVec.ofNat 64 (holdCount s o (ma / 4096 * 4096) 4096 % 65536) <<< 32
    ||| (if fs.any (·.backing.isSome) then 2 else 0) ||| (if frameMapped s o ma then 1 else 0)

/-- Base of the frame of a translated byte, in its page. -/
def Xl.frame (x : Xl) : Nat := fld x.hent 51 48 * 2 ^ 48 + fld x.hent 47 12 * 4096

/-! ## Names of contexts (R149) -/

/-- A core that R112 fenced. -/
def State.fencedCore (s : State) (c : Nat) : Bool := (s.core c).fenced

/-- The context slot a name names; none is BAD_TARGET. -/
def ctxOfName (s : State) (v : Nat) : Option CtxRef :=
  if v / 2 ^ 15 = 0 then
    if v < 1536 && !s.fencedCore (v / 4) then some (.resident (v / 4) (v % 4)) else none
  else if v / 2 ^ 15 = 1 then
    let n := v % 2 ^ 15
    if n < 3072 && !s.fencedCore (n / 8) then some (.shadow (n / 8) (n % 8)) else none
  else none

/-- The context the strand's cr.ctx.sel selects; none selects nothing (R370). -/
def State.selected (s : State) : Option CtxRef :=
  if s.st.ctxSelV then ctxOfName s s.st.ctxSel.toNat else some (.resident s.focus.core s.focus.slot)

/-! ## CRC-32C (R254) -/

/-- One bit of the reflected CRC. -/
def crcBits : Nat → BitVec 32 → BitVec 32
  | 0, c => c
  | n + 1, c => crcBits n (if c.getLsbD 0 then (c >>> 1) ^^^ 0x82F63B78 else c >>> 1)
def crcStep (c : BitVec 32) (b : Byte) : BitVec 32 := crcBits 8 (c ^^^ b.setWidth 32)
def crc32c (bs : List Byte) : BitVec 32 := ~~~(bs.foldl crcStep (BitVec.allOnes 32))

end Sys2Proof.Machine
end

