-- ==== Sys2Proof/Machine/Registers.lean ====
section
/-! DEFINITION. The control registers: what each reads and what a write of each field does (02 R65-R68 and the owning chapters). -/

namespace Sys2Proof.Machine

/-- A flag at a bit of a word. -/
def bw (b : Bool) (n : Nat) : Word := if b then 1#64 <<< n else 0

def Bank.guardWord (b : Bank) : Word := bw b.force 1 ||| bw b.out 0
def Strand.bankAt (t : Strand) (i : Fin 2) : Bank := if i = 0 then t.bank1 else t.bank2
def Strand.modBank (t : Strand) (i : Fin 2) (f : Bank → Bank) : Strand :=
  if i = 0 then { t with bank1 := f t.bank1 } else { t with bank2 := f t.bank2 }

/-- cr.pre.stat of a context (R370). -/
def Ctx.preStat (x : Ctx) : Word :=
  let st := match x.rung with | .running => 0 | .soft => 1 | .halting => 2 | .halted => 3 | .shadowed => 4
  BitVec.ofNat 64 st <<< 61 ||| BitVec.ofNat 64 ((x.intent.map fun i => i.rank - 1).getD 0) <<< 59
    ||| x.swaps.setWidth 64 <<< 16 ||| x.haltab.setWidth 64

/-- cr.phase.stat of a context (R171). -/
def Ctx.phaseStat (x : Ctx) : Word :=
  x.seqNo.setWidth 64 <<< 32 ||| x.last.setWidth 64 <<< 24 ||| x.run.setWidth 64 <<< 20 ||| bw x.failed 16 ||| x.aborts.setWidth 64

/-- cr.boot.summary of a core (R75). -/
def Core.summary (k : Core) : Word :=
  bw k.done 31 ||| bw k.fail 30 ||| bw k.ovf 29 ||| BitVec.ofNat 64 (k.repair.length % 32) <<< 24
    ||| bw k.semok 2 ||| bw k.vecok 1 ||| bw k.folok 0

def keyStateCode : KeyState → Nat
  | .empty => 0 | .live => 1 | .zeroised => 2

def poolStateCode : PoolState → Nat
  | .empty => 0 | .free => 1 | .inuse => 2

/-- A backing-pool entry by number; 12-15 name none (R370). -/
def Core.poolAt (k : Core) (i : Nat) : PoolEntry := (k.pool.toList[i]?).getD {}

/-- cr.cur.def of the selected currency (R352). -/
def curDefWord (s : State) (n : Nat) : Word :=
  match s.currency n with
  | some c => bw true 63 ||| BitVec.ofNat 64 c.level.val <<< 61 ||| c.parent.setWidth 64 <<< 48 ||| c.rate.setWidth 64
  | none => 0

/-- Engine of a draw unit counter. -/
def engineIx : Engine → Fin 3
  | .le => 0 | .ve => 1 | .ce => 2

def State.viAt (s : State) : Vi := SMap.get {} s.vis s.st.viSel.toNat

def State.setVi (s : State) (v : Vi) : State := { s with vis := SMap.set s.vis s.st.viSel.toNat v }

/-- What a control register reads (R65). -/
def crRead (s : State) (r : CReg) : Word :=
  let t := s.st
  let x := s.cx
  let k := s.co
  let d := s.di
  match r with
  | .arith => t.arith
  | .time => BitVec.ofNat 64 s.time
  | .idStrand => BitVec.ofNat 64 (strandIx s.focus).val
  | .idStrands => BitVec.ofNat 64 x.nstrands
  | .idCore => BitVec.ofNat 64 s.focus.core
  | .idPackage => BitVec.ofNat 64 s.package
  | .idUnit => BitVec.ofNat 64 x.unit
  | .idUnits => BitVec.ofNat 64 x.units
  | .idLaunch => BitVec.ofNat 64 (x.launch % 2 ^ 32)
  | .idLeaves => BitVec.ofNat 64 x.leaves.length
  | .loopStart i => t.loopStart[i]
  | .loopEnd i => t.loopEnd[i]
  | .trapEntry => t.entry
  | .cause i => (t.bankAt i).cause
  | .ret i => (t.bankAt i).ret
  | .addr i => (t.bankAt i).addr
  | .guard i => (t.bankAt i).guardWord
  | .trapLevel => BitVec.ofNat 64 t.level.val
  | .phaseStat => x.phaseStat
  | .phaseLimit => x.limit.setWidth 64
  | .priv => BitVec.ofNat 64 x.priv.val
  | .folioOob => x.oob
  | .folioDiag => bw x.diag 0
  | .repairPut => 0
  | .repairGet => (k.repair[k.repairSel.toNat]?).getD 0
  | .bootSummary => k.summary
  | .repairCtl => bw k.unrep 24 ||| k.applied.setWidth 64 <<< 16 ||| k.repairSel.setWidth 64
  | .folioInject => k.inject
  | .resetCause => k.resetCause.setWidth 64
  | .hintMode => bw x.trusted 0
  | .hintMisses => x.tokm ++ x.regm
  | .tok => (t.sc ++ t.cs ++ t.ca ++ t.ac).setWidth 64
  | .sb => (t.sb[6] ++ t.sb[5] ++ t.sb[4] ++ t.sb[3] ++ t.sb[2] ++ t.sb[1] ++ t.sb[0]).setWidth 64
  | .tracerCmp => x.tracerCmp
  | .tduCtl => k.stall.setWidth 64 <<< 48 ||| k.bcap.setWidth 64 <<< 16 ||| k.shlim.setWidth 64 <<< 8 ||| k.lanes.setWidth 64
  | .tduSeed => x.seed
  | .tduLat => bw x.admitted 63 ||| bw x.refused 62 ||| x.bound.setWidth 64
  | .tduCnt e => (k.tdu[engineIx e]).cnt
  | .curSel => t.curSel.setWidth 64
  | .curDef => curDefWord s t.curSel.toNat
  | .curRepay =>
    match s.currency t.curSel.toNat with
    | some c => if c.level = 1 then BitVec.ofNat 64 (SMap.get 0 s.repay t.curSel.toNat) else 0
    | none => 0
  | .ctxSel => bw t.ctxSelV 63 ||| t.ctxSel.setWidth 64
  | .leafPin =>
    match s.selected.bind s.findCtx with
    | some y => BitVec.ofNat 64 (y.leaves.filter (·.pinned)).length <<< 9
    | none => 0
  | .leafPool =>
    let e := k.poolAt k.poolSel.toNat
    k.poolSel.setWidth 64 <<< 60 ||| BitVec.ofNat 64 (poolStateCode e.st) <<< 56 ||| e.ma
  | .preCtl => k.grace ++ k.killt
  | .preStat => ((s.selected.bind s.findCtx).map (·.preStat)).getD 0
  | .planeLoad => 0
  | .planeStat => k.planeGen.setWidth 64 <<< 32 ||| bw k.activeB 4 ||| k.planeStatus.setWidth 64
  | .viSel => t.viSel.setWidth 64
  | .viLog => bw s.viAt.logRes 63 ||| s.viAt.logOrd.setWidth 64 <<< 52 ||| s.viAt.logBase
  | .viLogptr => s.viAt.logLost ++ s.viAt.logHead ++ s.viAt.logTail
  | .xlateAsid => (BitVec.ofNat 4 x.part.val ++ x.asid).setWidth 64
  | .xlateInval => 0
  | .xlateTarget => t.xlateTarget.setWidth 64
  | .xlateAsdbase => d.asdbase
  | .handleBase => x.handleBase
  | .placeCtl => bw d.placeEn 63 ||| d.thresh.setWidth 64 <<< 32 ||| d.reserve.setWidth 64 <<< 16 ||| d.epoch.setWidth 64
  | .xlateFrame => if d.frameHere then frameWord s s.here d.frameSel.toNat else 0
  | .blotProgress => d.blotJob.setWidth 64 <<< 56 ||| bw d.blotRun 55 ||| d.blotTotal.setWidth 64 <<< 24 ||| d.blotDone.setWidth 64
  | .rasCe => d.ceHbm ++ d.ceL2 ++ d.ceFolio
  | .rasUe => (d.ueUe ++ d.ueInt).setWidth 64
  | .rasSdc => (k.rasSdcTrace ++ k.rasSdcMath ++ k.rasSdcStore).setWidth 64
  | .keyCtl =>
    bw t.keyProt 62 ||| BitVec.ofNat 64 (keyStateCode (SMap.get {} s.keys t.keySel.toNat).st) <<< 60 ||| bw t.keyBad 59
      ||| t.keySel.setWidth 64
  | .keySrc => t.keySrc
  | .therm => (List.finRange 6).foldl (fun w g => w ||| BitVec.ofNat 64 (d.throttle[g]).val <<< (8 * g.val)) 0
  | .powerLimit => s.powerLimit.setWidth 64
  | .thermLim => 115#64 <<< 8 ||| s.thot.setWidth 64
  | .ligMode => bw x.ligGf 8 ||| bw x.ligTrap 0
  | .ligGw => x.ligGw.setWidth 64
  | .ligFetch => bw x.fetchV 8 ||| x.fetchRows.setWidth 64

/-- The bits of a register's RW fields (R7), on which CRS and CRC act (R65). -/
def crMask (r : CReg) : Word :=
  match r with
  | .arith => 1
  | .loopStart _ | .loopEnd _ | .trapEntry | .ret _ => ~~~0xF
  | .guard _ => 3
  | .phaseLimit => 0xF
  | .folioDiag | .hintMode | .ligMode => 1
  | .repairCtl => 0xF
  | .folioInject => 0xC07FFF000000E03F
  | .hintMisses => ~~~0
  | .tduCtl => 0xFFFFFFFFFFFFFF07
  | .curSel => 0xFFF
  | .curDef => 0x8FFF0000FFFFFFFF
  | .curRepay => 0xFFFFFFFF
  | .ctxSel => 0x800000000000FFFF
  | .leafPool => 0xF00FFFFFFFE00000
  | .preCtl => ~~~0
  | .viSel => 0x1FF
  | .viLog => 0x80FFFFFFFFFFFFC0
  | .viLogptr => 0xFFFFFFFFFF000000
  | .xlateTarget => 0xFFF
  | .xlateAsdbase => 0x000FFFFFFFFC0000
  | .handleBase => 0x000FFFFFFFFE0000
  | .placeCtl => 0x8000FFFFFFFFFFFF
  | .xlateFrame => 0x000FFFFFFFFFF000
  | .rasCe => ~~~0
  | .rasUe => 0xFFFFFFFF
  | .rasSdc => 0xFFFFFFFFFFFF
  | .keyCtl => 0x40000000000007FF
  | .keySrc => 0x000FFFFFFFFFFFC0
  | .powerLimit => 0xFFFF
  | .thermLim => 0xFF
  | .ligGw => 0x7F
  | _ => 0

/-- The value a register's RW fields hold, where a read returns something else (R189). -/
def crHeld (s : State) (r : CReg) : Word :=
  match r with
  | .xlateFrame => s.di.frameSel
  | r => crRead s r

/-! ## Writes that do more than store a field -/

/-- cr.folio.diag (R72): en = 1 takes effect only for the sole resident context with all 96 leaves. -/
def writeFolioDiag (s : State) (v : Word) : State :=
  if v.getLsbD 0 then
    if s.co.slots.length = 1 ∧ s.cx.leaves.length = 96 ∧ s.cx.leaves.all (·.phys.isSome) then s.modCx fun x => { x with diag := true } else s
  else s.modCx fun x => { x with diag := false }

/-- A well-formed repair record: KIND 1, 2 or 3 and its zero fields zero (R74). -/
def recordOk (v : Word) : Bool :=
  (fld v 63 60 = 1 || fld v 63 60 = 2 || fld v 63 60 = 3) && fld v 39 16 = 0 && fld v 9 7 = 0

/-- Offer a record to the repair table in the order of R74. -/
def Core.offer (k : Core) (v : Word) : Core :=
  if !recordOk v then k
  else if k.repair.any fun r => fld r 63 40 = fld v 63 40 then k
  else if k.repair.length ≥ 16 then { k with ovf := true }
  else { k with repair := k.repair ++ [v] }

/-- cr.repair.ctl (R108). -/
def Core.writeRepairCtl (k : Core) (v : Word) : Core :=
  let k := { k with repairSel := v.extractLsb' 0 4 }
  let k := if v.getLsbD 8 then { k with repair := [], ovf := false } else k
  if v.getLsbD 9 then { k with done := false, fail := false, semok := false, vecok := false, folok := false } else k

/-- cr.boot.summary: W1S fields (R75). -/
def Core.writeSummary (k : Core) (v : Word) : Core :=
  { k with done := k.done || v.getLsbD 31, fail := k.fail || v.getLsbD 30, semok := k.semok || v.getLsbD 2
           vecok := k.vecok || v.getLsbD 1, folok := k.folok || v.getLsbD 0 }

/-- A cell that is stuck no longer keeps the value it was stuck at, since writes to it were lost (R106). A cell that the overlay leaves keeps VAL (log 98). -/
def Core.unstick (k : Core) : Core :=
  match k.stuckAt with
  | some (a, bit, val) =>
    { k with flips := k.flips.filter (· ≠ (a, bit)) ++ if (SMap.get 0 k.folio a).getLsbD bit != val then [(a, bit)] else [] }
  | none => k

/-- cr.folio.inject: a write with BANK above 95 is ignored as a whole (R106). -/
def Core.writeInject (k : Core) (v : Word) : Core :=
  if fld v 54 48 > 95 then k else { k.unstick with inject := v &&& crMask .folioInject }

/-- cr.tdu.ctl (R352). -/
def Core.writeTduCtl (k : Core) (v : Word) : Core :=
  { k with stall := if fld v 63 48 = 0 then 1 else v.extractLsb' 48 16
           bcap := if fld v 47 16 < 256 then 256 else v.extractLsb' 16 32
           shlim := if fld v 15 8 > 224 then 224 else v.extractLsb' 8 8
           lanes := if 1 ≤ fld v 2 0 ∧ fld v 2 0 ≤ 4 then v.extractLsb' 0 3 else k.lanes }

/-- cr.pre.ctl: a write of 0 to a field writes 1 (R370). -/
def Core.writePreCtl (k : Core) (v : Word) : Core :=
  { k with grace := if fld v 63 32 = 0 then 1 else v.extractLsb' 32 32, killt := if fld v 31 0 = 0 then 1 else v.extractLsb' 0 32 }

/-- cr.leaf.pool: with SET = 1 on an entry that is INUSE the whole write is ignored (R370). -/
def Core.writePool (k : Core) (v : Word) : Core :=
  let i := fld v 63 60
  let k' := { k with poolSel := v.extractLsb' 60 4 }
  if h : i < 12 then
    if !v.getLsbD 58 then k'
    else if k.pool[i].st = .inuse then k
    else { k' with pool := k.pool.set i { st := .free, ma := v &&& 0x000FFFFFFFE00000 } }
  else k'

/-- A currency is in use: a child, a held context, or an unplaced launch names it (R352). -/
def currencyUsed (s : State) (n : Nat) : Bool :=
  s.currencies.any (fun e => e.2.parent.toNat == n) || s.contexts.any (fun e => e.2.currency.toNat == n)
    || s.works.any fun e => match e.2.spec with | some p => e.2.unplaced ≠ [] && p.currency.toNat == n | none => false

/-- cr.cur.def (R352). -/
def writeCurDef (s : State) (v : Word) : State :=
  let n := s.st.curSel.toNat
  if n ≤ 1 then s
  else if v.getLsbD 63 then
    match SMap.find s.currencies n with
    | some c => { s with currencies := SMap.set s.currencies n { c with rate := v.extractLsb' 0 32 } }
    | none =>
      match s.currency (fld v 59 48) with
      | some p =>
        if p.level.val ≤ 2 then
          let c : Currency := { level := Fin.ofNat 4 (p.level.val + 1), parent := v.extractLsb' 48 12, rate := v.extractLsb' 0 32 }
          { s with currencies := SMap.set s.currencies n c }
        else s
      | none => s
  else if currencyUsed s n then s
  else { s with currencies := SMap.erase s.currencies n }

/-- cr.cur.repay of a tenant currency (R352). -/
def writeRepay (s : State) (v : Word) : State :=
  match s.currency s.st.curSel.toNat with
  | some c => if c.level = 1 then { s with repay := SMap.put 0 s.repay s.st.curSel.toNat (fld v 31 0) } else s
  | none => s

/-- cr.leaf.pin (R355, R370): pinning a spilled leaf brings it back first, else the instruction waits. -/
def writeLeafPin (s : State) (v : Word) (go : State → State) : State :=
  match s.selected with
  | none => go s
  | some ref =>
    match s.findCtx ref with
    | none => go s
    | some x =>
      match x.leaves[fld v 6 0]? with
      | none => go s
      | some l =>
        if v.getLsbD 8 then
          match l.phys with
          | some _ => go (s.putCtx ref (x.setLeaf (fld v 6 0) { l with pinned := true }))
          | none =>
            match reloadLeaf s ref (fld v 6 0) (.load s.cx.uid (strandIx s.focus).val) with
            | (t, true) => go (t.modRef ref fun y => y.setLeaf (fld v 6 0) { (y.leaves[fld v 6 0]?).getD l with pinned := true })
            | (t, false) => t.hold
        else go (s.putCtx ref (x.setLeaf (fld v 6 0) { l with pinned := false }))

/-- Bytes of a plane's 128 words in ascending order (R368). -/
def planeBytes (p : SMap Word) : List Byte := (List.range 128).flatMap fun i => leBytes 8 (SMap.get 0 p i).toNat

/-- One core's handling of a difference record (R368). -/
def Core.loadPlane (k : Core) (entries : List (Nat × Word)) (gen crc : BitVec 32) : Core :=
  let standby := !k.activeB
  if k.slots.any (fun e => e.2.plane == standby) || k.shadows.any (fun e => e.2.plane == standby) then { k with planeStatus := 1 }
  else
    let p := entries.foldl (fun m e => SMap.put 0 m e.1 e.2) (if k.activeB then k.planeB else k.planeA)
    if crc32c (planeBytes p) = crc then
      if standby then { k with planeB := p, activeB := true, planeGen := gen, planeStatus := 0 }
      else { k with planeA := p, activeB := false, planeGen := gen, planeStatus := 0 }
    else { k with planeStatus := 2 }

/-- cr.plane.load (R368). A count above 128 fails the checksum step (log 10). -/
def writePlaneLoad (s : State) (v : Word) : State :=
  let ma := fld v 51 6 * 64
  let hd := s.readMa s.pkgOwner ma 64
  let count := leNat (hd.take 4)
  let gen := BitVec.ofNat 32 (leNat ((hd.drop 4).take 4))
  let crc := BitVec.ofNat 32 (leNat ((hd.drop 8).take 4))
  let mask := leNat (hd.drop 16)
  let entries := (List.range (Nat.min count 128)).map fun i =>
    let e := s.readMa s.pkgOwner (ma + 64 + 16 * i) 16
    (leNat (e.take 8) % 128, leWord (e.drop 8))
  (List.range coreCount).foldl (fun s c =>
    if mask.testBit c then
      s.modCore c fun k => if count > 128 then { k with planeStatus := 2 } else k.loadPlane entries gen crc
    else s) s

/-- cr.key.ctl (R415, R426). -/
def writeKeyCtl (s : State) (v : Word) : State :=
  let slot := fld v 10 0
  let s := s.modSt fun t => { t with keySel := v.extractLsb' 0 11, keyProt := v.getLsbD 62 }
  if v.getLsbD 63 then
    let blob := s.readMa s.pkgOwner (fld s.st.keySrc 51 6 * 64) 104
    let k := SMap.get {} s.keys slot
    let (ok, keys) := keyUnwrap (keyBytes (Config.wrapKey.setWidth 768) 0) 12 blob
    let bad := ok != List.replicate 8 0xA6 || k.st == .live || (v.getLsbD 62 && !s.hasPriv 2)
    let s := s.modSt fun t => { t with keyBad := bad }
    if bad then s
    else { s with keys := SMap.set s.keys slot { st := .live, prot := v.getLsbD 62, keys := BitVec.ofNat 768 (leNat keys) } }
  else s

/-- A translated byte is one that an invalidation names (R184): its owner, its address space, and an offset or intermediate address in the range. -/
def invalNames (owner : Nat) (asid : BitVec 12) (v : Word) (x : Xl) : Bool :=
  let size := 2 ^ (12 + fld v 11 8)
  let base := fld v 47 12 * 4096 / size
  x.owner == owner && x.asid == asid && (v.getLsbD 5 || (v.getLsbD 6 && x.off / size == base) || (v.getLsbD 7 && x.ia / size == base))

/-- The virtual address of the first held byte that has no translation any more. -/
def State.goneAt (s : State) (names : Xl → Bool) (t : Task) : Word :=
  match t.stores.find? fun e => names e.1 && (match s.xlateAt e.1.owner e.1.asid (some .wr) e.1.off with | .error _ => true | .ok _ => false) with
  | some e => BitVec.ofNat 64 (e.1.owner * 2 ^ 48 + e.1.off)
  | none => 0

/-- Translations that stores held for a commit made earlier are dropped and made anew; a transfer's own holds stand (R184, R188). A store whose page is
gone faults for its phase. -/
def renewStores (s : State) (names : Xl → Bool) : State :=
  s.contexts.foldl (fun s c => c.2.tasks.foldl (fun s t =>
    if t.2.holds ≠ [] || !t.2.stores.any (fun e => names e.1) then s
    else match t.2.stores.mapM fun e => if names e.1 then (s.xlateAt e.1.owner e.1.asid (some .wr) e.1.off).map fun x => (x, e.2) else .ok e with
    | .ok st => s.modRef c.1 (·.modTask t.2.num fun k => { k with stores := st })
    | .error e =>
      match e.cause false false with
      | some (code, info) => abortPhase s c.1 t.2.phaseId
          { code := code, engine := engineOf t.1, stage := info / 4, addr := s.goneAt names t.2, strand := t.2.strand, classD := e != .memUe, hold := none, halt := false }
      | none => s) s) s

/-- cr.xlate.inval (R184): HYP for STAGE 2 and 3. No other translation outlives its access. -/
def writeInval (s : State) (v : Word) (go : State → State) : State :=
  let stage := fld v 7 6
  if stage ≥ 2 && !s.hasPriv 1 then s.privFault
  else if stage = 0 then go s
  else
    let owner := if v.extractLsb' 48 16 = 0xFFFF then s.here else (v.extractLsb' 48 16).toNat
    go (renewStores s (invalNames owner (if stage = 1 then s.cx.asid else s.st.xlateTarget) v))

/-- Clamp a written value. -/
def clampN (lo hi n : Nat) : Nat := if n < lo then lo else if n > hi then hi else n

/-- A write of a register's fields by their access codes (R7, R65), then go on. -/
def crWrite (s : State) (r : CReg) (v : Word) (go : State → State) : State :=
  match r with
  | .arith => go (s.modSt fun t => { t with dz := v.getLsbD 0, dzf := t.dzf && !v.getLsbD 8, dof := t.dof && !v.getLsbD 9
                                            satf := t.satf && !v.getLsbD 10 })
  | .loopStart i => go (s.modSt fun t => { t with loopStart := t.loopStart.set i (v &&& ~~~0xF) })
  | .loopEnd i => go (s.modSt fun t => { t with loopEnd := t.loopEnd.set i (v &&& ~~~0xF) })
  | .trapEntry => go (s.modSt fun t => { t with entry := v &&& ~~~0xF })
  | .ret i => go (s.modSt fun t => t.modBank i fun b => { b with ret := v &&& ~~~0xF })
  | .guard i => go (s.modSt fun t => t.modBank i fun b => { b with force := v.getLsbD 1, out := v.getLsbD 0 })
  | .phaseStat => go (if v.getLsbD 16 then s.modCx fun x => { x with failed := false } else s)
  | .phaseLimit => go (if v.extractLsb' 0 4 = 0 then s else s.modCx fun x => { x with limit := v.extractLsb' 0 4 })
  | .folioOob => go (if v.getLsbD 63 then s.modCx fun x => { x with oob := 0 } else s)
  | .folioDiag => go (writeFolioDiag s v)
  | .repairPut => go (s.modCo (·.offer v))
  | .bootSummary => go (s.modCo (·.writeSummary v))
  | .repairCtl => go (s.modCo (·.writeRepairCtl v))
  | .folioInject => go (s.modCo (·.writeInject v))
  | .hintMode => go (s.modCx fun x => { x with trusted := v.getLsbD 0 })
  | .hintMisses => go (s.modCx fun x => { x with tokm := v.extractLsb' 32 32, regm := v.extractLsb' 0 32 })
  | .tduCtl => go (s.modCo (·.writeTduCtl v))
  | .curSel => go (s.modSt fun t => { t with curSel := v.extractLsb' 0 12 })
  | .curDef => go (writeCurDef s v)
  | .curRepay => go (writeRepay s v)
  | .ctxSel => go (s.modSt fun t => { t with ctxSelV := v.getLsbD 63, ctxSel := v.extractLsb' 0 16 })
  | .leafPin => writeLeafPin s v go
  | .leafPool => go (s.modCo (·.writePool v))
  | .preCtl => go (s.modCo (·.writePreCtl v))
  | .planeLoad => go (writePlaneLoad s v)
  | .viSel => go (s.modSt fun t => { t with viSel := v.extractLsb' 0 9 })
  | .viLog => go (s.setVi { s.viAt with logRes := v.getLsbD 63, logOrd := v.extractLsb' 52 4, logBase := v &&& 0x000FFFFFFFFFFFC0 })
  | .viLogptr => go (s.setVi { s.viAt with logLost := v.extractLsb' 48 16, logHead := v.extractLsb' 24 24 })
  | .xlateInval => writeInval s v go
  | .xlateTarget => go (s.modSt fun t => { t with xlateTarget := v.extractLsb' 0 12 })
  | .xlateAsdbase => go (s.modDi fun d => { d with asdbase := v &&& crMask .xlateAsdbase })
  | .handleBase => go (s.modCx fun x => { x with handleBase := v &&& crMask .handleBase })
  | .placeCtl => go (s.modDi fun d => { d with placeEn := v.getLsbD 63, thresh := v.extractLsb' 32 16, reserve := v.extractLsb' 16 16
                                               epoch := v.extractLsb' 0 16 })
  | .xlateFrame => go (s.modDi fun d => { d with frameSel := v &&& crMask .xlateFrame, frameHere := fld v 51 48 == s.here % 4 })
  | .rasCe => go (s.modDi fun d => { d with ceHbm := v.extractLsb' 32 32, ceL2 := v.extractLsb' 16 16, ceFolio := v.extractLsb' 0 16 })
  | .rasUe => go (s.modDi fun d => { d with ueUe := v.extractLsb' 16 16, ueInt := v.extractLsb' 0 16 })
  | .rasSdc => go (s.modCo fun k => { k with rasSdcTrace := v.extractLsb' 32 16, rasSdcMath := v.extractLsb' 16 16
                                             rasSdcStore := v.extractLsb' 0 16 })
  | .keyCtl => go (writeKeyCtl s v)
  | .keySrc => go (s.modSt fun t => { t with keySrc := v &&& crMask .keySrc })
  | .powerLimit => go { s with powerLimit := BitVec.ofNat 16 (clampN 1600 3200 (fld v 15 0)) }
  | .thermLim => go { s with thot := BitVec.ofNat 8 (clampN 70 105 (fld v 7 0)) }
  | .ligMode => go (s.modCx fun x => { x with ligTrap := v.getLsbD 0, ligGf := x.ligGf && !v.getLsbD 8 })
  | .ligGw => go (if 8 ≤ fld v 6 0 ∧ fld v 6 0 ≤ 64 then s.modCx fun x => { x with ligGw := v.extractLsb' 0 7 } else s)
  | .time | .idStrand | .idStrands | .idCore | .idPackage | .idUnit | .idUnits | .idLaunch | .idLeaves | .cause _ | .addr _
  | .trapLevel | .priv | .repairGet | .resetCause | .tok | .sb | .tracerCmp | .tduSeed | .tduLat | .tduCnt _ | .preStat
  | .planeStat | .xlateAsid | .blotProgress | .therm | .ligFetch => go s

/-- cr.pre.stat of a context other than the strand's own needs HYP (R370). -/
def crReadOk (s : State) (r : CReg) : Bool :=
  match r with
  | .preStat => s.hasPriv 1 || s.selected == some (.resident s.focus.core s.focus.slot)
  | _ => true

/-- The whole of a CRW of a register: privilege, the write, the next word (R65-R67). -/
def crwReg (r : CReg) (a : SReg) (s : State) : Out :=
  .next (s.atPriv (r.level true) (crWrite s r (s.getS a) State.retire))

/-- CRS and CRC (R65): the old value to sD, then `f` on the RW fields; other fields are written with what leaves them unchanged. -/
def crModify (r : CReg) (d a : SReg) (f : Word → Word → Word) (s : State) : Out :=
  .next (s.atPriv (r.level true)
    (if !crReadOk s r then s.privFault
     else
      let old := crRead s r
      let v := f (crHeld s r &&& crMask r) (s.getS a) &&& crMask r
      let fin := fun t : State => t.modSt fun u => (u.setS d old).retire 1
      if crMask r = 0 then fin s else crWrite s r v fin))

end Sys2Proof.Machine
end

