-- ==== Sys2Proof/Machine/ControlRegs.lean ====
section
/-! DEFINITION. The control-register instructions, and the writes that the opcode table lists as rows of their own (02 R65-R67). -/

namespace Sys2Proof.Machine

/-- The register a well-formed instruction names; an unassigned number never leaves the decoder (R67). -/
def crOf (n : BitVec 16) : CReg := (CReg.ofNum n).getD .time

def execCrr (d : SReg) (n : BitVec 16) (s : State) : Out :=
  .next (s.atPriv ((crOf n).level false)
    (if crReadOk s (crOf n) then s.modSt fun t => (t.setS d (crRead s (crOf n))).retire 1 else s.privFault))
def execCrw (a : SReg) (n : BitVec 16) (s : State) : Out := crwReg (crOf n) a s
def execCrs (d a : SReg) (n : BitVec 16) (s : State) : Out := crModify (crOf n) d a (fun old v => old ||| v) s
def execCrc (d a : SReg) (n : BitVec 16) (s : State) : Out := crModify (crOf n) d a (fun old v => old &&& ~~~v) s

def execFolioDiagWrite (a : SReg) (s : State) : Out := crwReg .folioDiag a s
def execRepairPut (a : SReg) (s : State) : Out := crwReg .repairPut a s
def execRepairTableClear (a : SReg) (s : State) : Out := crwReg .repairCtl a s
def execSummaryClear (a : SReg) (s : State) : Out := crwReg .repairCtl a s
def execFolioInjectWrite (a : SReg) (s : State) : Out := crwReg .folioInject a s
def execHintModeWrite (a : SReg) (s : State) : Out := crwReg .hintMode a s
def execXlateInval (a : SReg) (s : State) : Out := crwReg .xlateInval a s
def execFrameSelect (a : SReg) (s : State) : Out := crwReg .xlateFrame a s
def execLeafPin (a : SReg) (s : State) : Out := crwReg .leafPin a s
def execLeafUnpin (a : SReg) (s : State) : Out := crwReg .leafPin a s
def execPoolBlockSet (a : SReg) (s : State) : Out := crwReg .leafPool a s
def execPreCtlWrite (a : SReg) (s : State) : Out := crwReg .preCtl a s
def execPlaneLoad (a : SReg) (s : State) : Out := crwReg .planeLoad a s
def execViLogWrite (a : SReg) (s : State) : Out := crwReg .viLog a s
def execTduCtlWrite (a : SReg) (s : State) : Out := crwReg .tduCtl a s
def execCurrencyCreate (a : SReg) (s : State) : Out := crwReg .curDef a s
def execCurrencyRateWrite (a : SReg) (s : State) : Out := crwReg .curDef a s
def execCurrencyDelete (a : SReg) (s : State) : Out := crwReg .curDef a s
def execKeyLoad (a : SReg) (s : State) : Out := crwReg .keyCtl a s
def execPowerLimitWrite (a : SReg) (s : State) : Out := crwReg .powerLimit a s
def execThermLimitWrite (a : SReg) (s : State) : Out := crwReg .thermLim a s

/-- The row a CRW belongs to where the table tells its rows apart by the value written or by the state. -/
def specialise (i : Instr) (s : State) : Instr :=
  match i with
  | .crw a n =>
    let v := s.getS a
    match n.toNat with
    | 0x214 => if v.getLsbD 8 then .repairTableClear a else if v.getLsbD 9 then .summaryClear a else i
    | 0x421 => if v.getLsbD 8 then .leafPin a else .leafUnpin a
    | 0x422 => if v.getLsbD 58 then .poolBlockSet a else i
    | 0x411 =>
      if v.getLsbD 63 then
        if (s.currency s.st.curSel.toNat).isSome then .currencyRateWrite a else .currencyCreate a
      else .currencyDelete a
    | 0x604 => if v.getLsbD 63 then .keyLoad a else i
    | _ => i
  | i => i

end Sys2Proof.Machine
end

