-- ==== Sys2Proof/Machine/System.lean ====
section
/-! DEFINITION. System instructions but for CTXSV and CTXLD (07 R135-R149, 10 R181-R188, 27 R415, R421). -/

namespace Sys2Proof.Machine

/-! ## Status words (R139) -/

def stDone : Word := 0
def stNotDemand : Word := 1
def stNoFrame : Word := 2
def stNotValid : Word := 3
def stPinLimit : Word := 4
def stBadTarget : Word := 5
def stNotHalted : Word := 6
def stNoContext : Word := 7
def stProtected : Word := 8
def stBadImage : Word := 9
def stTimeout : Word := 10
def stBusy : Word := 11
def stSelf : Word := 12

/-- Write a status and go to the next word. -/
def State.status (s : State) (d : SReg) (v : Word) : State := s.modSt fun t => (t.setS d v).retire 1

/-! ## Traps and banks (R140-R142) -/

def execTrap (code : BitVec 16) (s : State) : Out :=
  .next (s.trapAt s.focus 0x04 code.toNat (s.st.pc + 16) 0 false false)

def execTret (s : State) : Out :=
  if s.st.level = 0 then .next s.trapState
  else
    let t := s.modSt (·.trapReturn)
    .next (if t.st.level = 0 then t.modCx (·.unhold (strandIx s.focus)) else t)

/-- BKR's value: the bank of the current level, zero at level 0 (R142). -/
def Strand.bankField (t : Strand) (f : BankField) : Word :=
  match f with
  | .level => BitVec.ofNat 64 t.level.val
  | .cause => if t.level = 0 then 0 else t.bank.cause
  | .ret => if t.level = 0 then 0 else t.bank.ret
  | .addr => if t.level = 0 then 0 else t.bank.addr
  | .guard => if t.level = 0 then 0 else t.bank.guardWord

def execBkr (d : SReg) (f : BankField) (s : State) : Out := scalarResult s d (s.st.bankField f)

/-- BKW's effect on the current bank (R142). -/
def Bank.write (b : Bank) (f : BankField) (v : Word) : Bank :=
  match f with
  | .ret => { b with ret := v &&& ~~~0xF }
  | .guard => { b with force := v.getLsbD 1, out := v.getLsbD 0 }
  | _ => b

def execBkw (a : SReg) (f : BankField) (s : State) : Out :=
  if s.st.level = 0 then .next s.trapState
  else .next (s.modSt fun t => (t.modBank (if t.level = 2 then 1 else 0) fun b => b.write f (s.getS a)).retire 1)

/-! ## Page service (R143, R183) -/

/-- The owner of a page service request, or none for NOT_VALID. -/
def State.pageOwner (s : State) (va : Word) : Option Nat := s.owner s.agent va

/-- The page containing an address, valid in both stages. -/
def State.page (s : State) (va : Word) : Except MemErr Xl :=
  match s.pageOwner va with
  | none => .error (.accessFault 0)
  | some o => s.xlateAt o s.cx.asid none (fld va 47 0)

/-- Answer NOT_VALID, or wait where a page of the tables is being made resident (R182) or is held (R389). -/
def State.pageFail (s : State) (d : SReg) (va : Word) (e : MemErr) : State :=
  match e with
  | .absent => (askResident s s.agent va).hold
  | .held => s.hold
  | _ => s.status d stNotValid

/-- Make the page resident and go on with it; the strand waits until the owner has done so (R182). A host-direct page answers DONE (log 102). -/
def State.withResident (s : State) (d : SReg) (va : Word) (f : Xl → State) : State :=
  match s.page va with
  | .error e => s.pageFail d va e
  | .ok x => if x.resident then f x else (askResident s s.agent va).hold

def execPgsvcTouch (d : SReg) (a : AReg) (s : State) : Out := .next (s.withResident d (s.getA a) fun _ => s.status d stDone)

/-- The frame record of a page's machine frame (R188). -/
def State.modFrame (s : State) (x : Xl) (f : Frame → Frame) : State :=
  s.modDie (keyDie x.key) fun d => { d with frames := SMap.put {} d.frames x.frame (f (d.frame x.frame)) }
def State.frameOf (s : State) (x : Xl) : Frame := (s.die (keyDie x.key)).frame x.frame

def execPgsvcPin (d : SReg) (a : AReg) (s : State) : Out :=
  .next (s.withResident d (s.getA a) fun x =>
    if (s.frameOf x).pin = BitVec.allOnes 16 then s.status d stPinLimit
    else (s.modFrame x fun f => { f with pin := f.pin + 1, size := Nat.max f.size (leafSize x.hent) }).status d stDone)

def execPgsvcUnpin (d : SReg) (a : AReg) (s : State) : Out :=
  .next (match s.page (s.getA a) with
    | .error e => s.pageFail d (s.getA a) e
    | .ok x =>
      if (s.frameOf x).pin = 0 then s.status d stPinLimit
      else (s.modFrame x fun f => { f with pin := f.pin - 1 }.rest).status d stDone)

/-- The word of `.query` (R143). -/
def pageWord (va : Word) (x : Xl) (pinned : Bool) : Word :=
  (va &&& ~~~lowOnes (12 + x.code)) ||| BitVec.ofNat 64 x.code <<< 8 ||| bw pinned 2 ||| bw (fld x.hent 63 62 = 1 ∧ fld x.hent 51 48 < 4) 1 ||| 1

/-- `.query` (R143): an owner that does not exist or lies outside the partition answers NOT_VALID, a page without a mapping 0 (log 77). -/
def execPgsvcQuery (d : SReg) (a : AReg) (s : State) : Out :=
  .next (match s.page (s.getA a) with
    | .error .absent => (askResident s s.agent (s.getA a)).hold
    | .error _ => s.status d (if (s.pageOwner (s.getA a)).isNone then stNotValid else 0)
    | .ok x => s.status d (pageWord (s.getA a) x ((s.frameOf x).pin ≠ 0)))

/-- Write a word under a page's encryption. -/
def State.writeWordEnc (s : State) (k : Nat) (enc : Option Nat) (v : Word) : State :=
  let keys := match s.writeKeys k enc with | .ok x => x | .error _ => none
  (leBytes 8 v.toNat).zipIdx.foldl (fun t e => t.writeByte (k + e.2) keys e.1) s

/-- A demand entry: X, W, R, RM, SIZE and software bits only (R183). -/
def demandOk (t : Word) : Bool := fld t 63 62 = 2 && fld t 57 56 = 0 && fld t 51 12 = 0

/-- The machine pieces of an IA frame of a size, 4 KiB each; none when one is not valid in the hypervisor stage. -/
def framePieces (s : State) (o : Nat) (desc : Vector Word 8) (base size : Nat) : Option (List (Nat × Word)) :=
  if base % 2 ^ (12 + size) ≠ 0 then none
  else (List.range (2 ^ size)).mapM fun i =>
    match s.hypWalk o desc (base + 4096 * i) with
    | .ok (_, h) => some (base + 4096 * i, h)
    | .error _ => none

/-- Remove entry `i` of a pool list: the last entry moves into its place (R183). -/
def dropEntry (l : List Word) (i : Nat) : List Word := (l.set i (l.getLastD 0)).dropLast

/-- Examine a pool's entries from the last downward (R183): the frame taken, if any, and the list left. -/
def poolScan (bad held : Word → Bool) : Nat → List Word → Option Word × List Word
  | 0, l => (none, l)
  | i + 1, l =>
    match l[i]? with
    | none => poolScan bad held i l
    | some e =>
      if bad e then poolScan bad held i (dropEntry l i)
      else if held e then poolScan bad held i l
      else (some e, dropEntry l i)

/-- Zero the machine bytes of a frame's pieces through the hypervisor stage. -/
def zeroPieces (s : State) (o : Nat) (asid : BitVec 12) (ps : List (Nat × Word)) : State :=
  ps.foldl (fun s p => (List.range 4096).foldl (fun s i =>
    let k := s.hypKey o asid p.2 (p.1 + i)
    let keys := match s.writeKeys k (hypEnc p.2) with | .ok x => x | .error _ => none
    s.writeByte k keys 0) (touchIa s o asid p.1 p.2 (s.hypKey o asid p.2 p.1) (p.2.getLsbD 58))) s

/-- Intermediate addresses of the tenant entries of a page's group (R178). -/
def tenGroup (s : State) (o : Nat) (asid : BitVec 12) (off size : Nat) : List Nat :=
  (List.range (2 ^ size)).filterMap fun i =>
    match s.tenWalk o asid (off / 2 ^ (12 + size) * 2 ^ (12 + size) + 4096 * i) with
    | .ok (a, _) => some a
    | .error _ => none

/-- The first offset of a page's group whose entry stands in a table page that is not resident (R182). -/
def groupAway (s : State) (o : Nat) (asid : BitVec 12) (off size : Nat) : Option Nat :=
  ((List.range (2 ^ size)).map fun i => off / 2 ^ (12 + size) * 2 ^ (12 + size) + 4096 * i).find? fun a =>
    match s.tenWalk o asid a with
    | .error .absent => true
    | _ => false

/-- Write a tenant entry at an intermediate address, which waiters on its words see (R183 step 4, R239). -/
def writeTenant (s : State) (o : Nat) (asid : BitVec 12) (ia : Nat) (entry : Word) : State :=
  match s.hypWalk o (s.desc o asid) ia with
  | .ok (_, h) => serveEvery ((touchIa s o asid ia h (s.hypKey o asid h ia) (h.getLsbD 58)).writeWordEnc (s.hypKey o asid h ia) (hypEnc h) entry)
      (s.hypKey o asid h ia) 8
  | .error _ => s

/-- `pgsvc.alloc` at the owner (R143, R183): the status, or the offset whose entry stands in a table page that is not resident. -/
def allocPage (s : State) (o : Nat) (asid : BitVec 12) (off : Nat) : State × Except Nat Word :=
  let desc := s.desc o asid
  if !descOk desc then (s, .ok stNotValid)
  else match s.tenWalk o asid off with
  | .error (.xlateMiss 1) => (s, .ok stNotDemand)
  | .error .absent => (s, .error off)
  | .error _ => (s, .ok stNotValid)
  | .ok (_, t) =>
    if fld t 63 62 = 1 && tenZero t && baseAligned t then (s, .ok stDone)
    else if !demandOk t then (s, .ok stNotDemand)
    else
      let size := leafSize t
      match groupAway s o asid off size with
      | some away => (s, .error away)
      | none =>
      let rec_ := fld desc[2] 51 6 * 64 + 16 * size
      let count := leNat (s.readMa o (rec_ + 8) 4)
      let list := leNat (s.readMa o rec_ 8)
      let entries := (List.range count).map fun i => leWord (s.readMa o (list + 8 * i) 8)
      let bad := fun e : Word => (framePieces s o desc e.toNat size).isNone
      let held := fun e : Word => ((framePieces s o desc e.toNat size).getD []).any fun p =>
        holdCount s (maDie o (fld p.2 51 0)) (fld p.2 51 48 * 2 ^ 48 + fld p.2 47 12 * 4096 + p.1 % 2 ^ (12 + leafSize p.2)) 4096 ≠ 0
      let r := poolScan bad held count entries
      let s := (s.writeMa o list (r.2.flatMap fun e => leBytes 8 e.toNat)).writeMa o (rec_ + 8) (leBytes 4 r.2.length)
      match r.1 with
      | none => (s, .ok stNoFrame)
      | some e =>
        let s := zeroPieces s o asid ((framePieces s o desc e.toNat size).getD [])
        let entry := 1#64 <<< 62 ||| (t &&& 0x3CF0000000000FFF) ||| (e &&& 0x0000FFFFFFFFF000)
        ((tenGroup s o asid off size).foldl (fun s a => writeTenant s o asid a entry) s, .ok stDone)

def execPgsvcAlloc (d : SReg) (a : AReg) (s : State) : Out :=
  .next (match s.pageOwner (s.getA a) with
    | none => s.status d stNotValid
    | some o =>
      match allocPage s o s.cx.asid (fld (s.getA a) 47 0) with
      | (t, .ok st) => t.status d st
      | (t, .error off) => (askResident t t.agent ((s.getA a) &&& 0xFFFF000000000000 ||| BitVec.ofNat 64 off)).hold)

/-! ## Handles (R144) -/

/-- HSET's length rule: 1 to 2^48. -/
def lengthOk (v : Word) : Bool := 1 ≤ v.toNat && v.toNat ≤ 2 ^ 48
/-- The handle of an entry's present generation. -/
def handleOf (e : HEntry) (idx : BitVec 12) : Word := (hGen e ++ idx).setWidth 64

def execHset (d : SReg) (a : AReg) (b : SReg) (rights : Fin 4) (idx : BitVec 12) (s : State) : Out :=
  if lengthOk (s.getS b) then
    let e := hRaise (s.handle s.cx idx.toNat) true (BitVec.ofNat 2 rights.val) ((s.getS b - 1).setWidth 48) (s.getA a)
    .next ((s.setHandle s.cx idx.toNat e).status d (handleOf e idx))
  else .next (s.trap 0x11 0 0)

def execHfree (a : SReg) (s : State) : Out :=
  let v := s.getS a
  let e := s.handle s.cx (fld v 11 0)
  if fld v 63 20 = 0 ∧ fld v 19 12 ≠ 0 ∧ fld v 19 12 = (hGen e).toNat then
    .next ((s.setHandle s.cx (fld v 11 0) (hRaise e false (hRights e) (hLen1 e) (hBase e))).retire)
  else .next (s.trap 0x10 0 0)

def execHqry (d a : SReg) (s : State) : Out :=
  let v := s.getS a
  let e := s.handle s.cx (fld v 11 0)
  scalarResult s d (if fld v 63 20 = 0 then bw (hDrain e ≠ 0) 1 ||| bw (handleMatches v e) 0 else 0)

/-! ## Tickets, currencies, seed (R145) -/

def execTkset (a : SReg) (s : State) : Out :=
  let v := s.getS a
  if fld v 63 32 = 0 ∧ fld v 31 0 ≠ 0 then .next ((s.modCx fun x => { x with tickets := v.extractLsb' 0 32 }).retire)
  else .next (s.trap 0x12 0 0)

/-- The privilege CURSET needs for a currency (R145). -/
def cursetOk (s : State) (n : Nat) (c : Currency) : Bool :=
  s.hasPriv 1 || (c.level.val ≥ 2 && (s.tenantOf n).isSome && s.tenantOf n == s.tenantOf s.cx.currency.toNat)

/-- Range, existence and privilege are checked in that order (R145, log 101). -/
def execCurset (a b : SReg) (s : State) : Out :=
  let n := s.getS a
  let r := s.getS b
  if fld n 63 16 ≠ 0 ∨ fld r 63 32 ≠ 0 then .next (s.trap 0x12 0 0)
  else match s.currency (fld n 15 0) with
  | none => .next (s.trap 0x13 0 0)
  | some c =>
    if !cursetOk s (fld n 15 0) c then .next s.privFault
    else if fld n 15 0 = 1 then .next s.retire
    else .next { s with currencies := SMap.set s.currencies (fld n 15 0) { c with rate := r.extractLsb' 0 32 } }.retire

def execRseed (a : SReg) (s : State) : Out :=
  if s.hasPriv 1 ∨ s.co.slots.length = 1 then
    .next ((s.modCo fun k => { k with tdu := Vector.replicate 3 (Tdu.seed (s.getS a)) }).retire)
  else .next s.privFault

/-! ## Key slots and the blotter (R146, R147, R421) -/

/-- Zeroise a slot in the eight controllers (R146, R415). -/
def KeySlot.zeroise (k : KeySlot) : KeySlot := { k with st := if k.st = .live then .zeroised else k.st, keys := 0 }

def execKzero (d a : SReg) (s : State) : Out :=
  .next (s.atPriv 1
    (if (s.getS a).toNat > 2047 then s.status d stBadTarget
     else
      let k := SMap.get {} s.keys (s.getS a).toNat
      if k.prot && !s.hasPriv 2 then s.privFault
      else { s with keys := SMap.set s.keys (s.getS a).toNat k.zeroise }.status d stDone))

/-- One entry of a job descriptor for a die: the extent and its units (R421). -/
def parseExtent (die : Nat) (w0 w1 : Word) : Option (Extent × Nat) :=
  if fld w0 63 62 = 1 then
    let n := fld w0 10 0
    if fld w0 61 11 = 0 && w1 = 0 && n < 1536 && n / 4 / 96 = die then some (.ctx (n / 4) (n % 4), 1) else none
  else if fld w0 63 62 = 2 then
    if fld w0 61 52 = 0 && fld w0 20 0 = 0 && fld w1 63 24 = 0 && fld w1 23 0 ≠ 0 && fld w0 51 48 = die then
      some (.mem (w0 &&& 0x000FFFFFFFE00000) (fld w1 23 0), fld w1 23 0)
    else none
  else none

/-- Entries of a valid descriptor from its words after the header. -/
def parseExtents (die : Nat) : Nat → List Word → Option (List (Extent × Nat))
  | 0, _ => some []
  | n + 1, w0 :: w1 :: ws => do
    let e ← parseExtent die w0 w1
    let es ← parseExtents die n ws
    return e :: es
  | _, _ => none

def unitsOf (es : List (Extent × Nat)) : Nat := es.foldl (fun n e => n + e.2) 0
def extentUnits : Extent → Nat
  | .ctx _ _ => 1
  | .mem _ n => n
def BlotJob.units (j : BlotJob) : Nat := j.extents.foldl (fun n e => n + extentUnits e) 0

/-- A descriptor's header names this many entries; none when invalid (R421). -/
def blotHeader (h0 h1 : Word) : Option Nat :=
  if fld h0 7 0 = 1 ∧ fld h0 63 13 = 0 ∧ h1 = 0 ∧ 1 ≤ fld h0 12 8 ∧ fld h0 12 8 ≤ 16 then some (fld h0 12 8) else none

/-- Words of a byte list. -/
def wordsOf (bs : List Byte) : List Word := (List.range (bs.length / 8)).map fun i => leWord ((bs.drop (8 * i)).take 8)

/-- Start the next job of the queue: cr.blot.progress describes the job started last (R422). -/
def Die.startBlot (d : Die) : Die :=
  match d.blotJobs with
  | j :: _ => { d with blotJob := j.num, blotRun := true, blotTotal := BitVec.ofNat 24 j.units, blotDone := 0 }
  | [] => { d with blotRun := false }

/-- Queue a job (R147, R421). -/
def queueJob (s : State) (d : SReg) (es : List (Extent × Nat)) : State :=
  if s.di.blotJobs.length ≥ 16 then s.status d (BitVec.allOnes 64)
  else
    let num := s.di.blotNext
    let idle := s.di.blotJobs.isEmpty
    let s := s.modDi fun k => { k with blotNext := num + 1, blotJobs := k.blotJobs ++ [{ num := num, extents := es.map (·.1) }] }
    (if idle then s.modDi Die.startBlot else s).status d (num.setWidth 64)

/-- The value of an invalid descriptor (R421). -/
def blotInvalid : Word := 0xFFFFFFFFFFFFFFFE

/-- An invalid descriptor is judged before a full queue (R147, R421, log 100). -/
def execBlot (d : SReg) (a : AReg) (s : State) : Out :=
  let ea := s.getA a
  .next (s.atPriv 1
    (if !aligned ea 64 then s.addrAlign ea
     else s.withRead .rd ea 16 fun s hb =>
      match blotHeader (leWord (hb.take 8)) (leWord (hb.drop 8)) with
      | none => s.status d blotInvalid
      | some n => s.withRead .rd (ea + 16) (16 * n) fun s bs =>
        match parseExtents (s.here % 4) n (wordsOf bs) with
        | none => s.status d blotInvalid
        | some es => if unitsOf es > 2 ^ 24 - 1 then s.status d blotInvalid else queueJob s d es))

/-- cr.blot.progress of a die. -/
def Die.progress (d : Die) : Word :=
  d.blotJob.setWidth 64 <<< 56 ||| bw d.blotRun 55 ||| d.blotTotal.setWidth 64 <<< 24 ||| d.blotDone.setWidth 64

def execBlwait (d a b : SReg) (s : State) : Out :=
  .next (s.atPriv 1
    (if s.di.blotJobs.any fun j => j.num.toNat = (s.getS a).toNat then
      let lim := if s.getS b = 0 then none else some (s.time + (s.getS b).toNat)
      s.modSt fun t => { t with wait := some (.blot d (s.getS a).toNat lim) }
     else s.status d s.di.progress))

/-! ## Events (R148) -/

def execWfe (d a : SReg) (s : State) : Out :=
  if s.st.latch then
    .next (s.modSt fun t => ({ t with latch := false, reasons := 0 }.setS d (t.reasons.setWidth 64)).retire 1)
  else
    let lim := if s.getS a = 0 then none else some (s.time + (s.getS a).toNat)
    .next (s.modSt fun t => { t with wait := some (.event d lim) })

/-! ## Managing contexts (R149, R427) -/

/-- The target checks shared by the context instructions: malformed names, the issuer itself, an empty slot. -/
def withTarget (s : State) (d : SReg) (name : Word) (f : CtxRef → Ctx → State) : State :=
  match ctxOfName s name.toNat with
  | none => s.status d stBadTarget
  | some ref =>
    if ref = .resident s.focus.core s.focus.slot then s.status d stSelf
    else match s.findCtx ref with
    | none => s.status d stNoContext
    | some x => f ref x

def execCtxctlSoft (d a : SReg) (s : State) : Out :=
  .next (s.atPriv 1 (withTarget s d (s.getS a) fun ref x =>
    if x.prot then s.status d stProtected else (requestCtx s ref .preempt).status d stDone))
def execCtxctlHalt (d a : SReg) (s : State) : Out :=
  .next (s.atPriv 1 (withTarget s d (s.getS a) fun ref x =>
    if x.prot then s.status d stProtected else (requestCtx s ref .halt).status d stDone))
def execCtxctlKill (d a : SReg) (s : State) : Out :=
  .next (s.atPriv 1 (withTarget s d (s.getS a) fun ref x => (killCtx s ref 0x32 0 x.killPc 0 none).status d stDone))

/-- A halted context becomes eligible to issue (R360, R427). -/
def Ctx.resume (x : Ctx) : Ctx := { x with rung := .running, intent := none, graceAt := none, killAt := none }

def execCtxctlResume (d a : SReg) (s : State) : Out :=
  .next (s.atPriv 1 (withTarget s d (s.getS a) fun ref x =>
    if x.prot then s.status d stProtected
    else match x.rung with
    | .halted => (s.putCtx ref x.resume).status d stDone
    | .shadowed =>
      (s.putCtx ref { x with intent := if x.intent = some .halt then some .preempt else x.intent }).status d stDone
    | _ => s.status d stNotHalted))

end Sys2Proof.Machine
end

