-- ==== Sys2Proof/Machine/Sync.lean ====
section
/-! DEFINITION. Synchronisation instructions (12 R200-R215, 15 R235-R246). -/

namespace Sys2Proof.Machine

/-! ## Semaphores (R202-R204) -/

def execSemsig (d : SReg) (sem : BitVec 8) (k : SemCount) (s : State) : Out :=
  let old := s.cx.getSem sem.toNat
  let n := s.semCount k
  .next ((s.modCx (·.addSem sem.toNat n)).status d (old.setWidth 64))

/-- Queue a waiter and serve the queue (R203). -/
def Ctx.queueSem (x : Ctx) (sem : Nat) (i : Fin 4) (k : Nat) : Ctx :=
  let y := { x with semq := x.semq ++ [(sem, i.val, k)] }.modStrand i fun t => { t with wait := some (.sem sem k) }
  let z := if x.hushed sem && x.semBusy sem then y else y.serveSem sem
  if z.getSem sem ≠ y.getSem sem then z.eventAll 1 else z

def execSemwait (sem : BitVec 8) (k : SemCount) (s : State) : Out :=
  let n := s.semCount k
  if n = 0 then .next s.retire
  else .next (s.modCx fun x => x.queueSem sem.toNat (strandIx s.focus) n)

def execSemtry (p : PReg) (sem : BitVec 8) (k : SemCount) (s : State) : Out :=
  let n := s.semCount k
  let c := s.cx.getSem sem.toNat
  if !s.cx.semBusy sem.toNat && n ≤ c.toNat then
    .next ((s.modCx (·.writeSem sem.toNat (c - BitVec.ofNat 32 n))).modSt fun t => (t.setP p true).retire 1)
  else .next (s.modSt fun t => (t.setP p false).retire 1)

def execSemset (d b : SReg) (sem : BitVec 8) (s : State) : Out :=
  let old := s.cx.getSem sem.toNat
  let v := (s.getS b).setWidth 32
  .next ((s.modCx (·.writeSem sem.toNat v)).status d (old.setWidth 64))

/-! ## Barrier groups (R205-R209) -/

/-- The agent of a scope that contains a core (R207). -/
def agentOfScope (sc : Scope) (core : Nat) : Nat :=
  match sc with
  | .core => core
  | .quad => core / 4
  | .die => core / 96
  | _ => 0

/-- Perform on a group allocated to the context's partition, else ACCESS_FAULT (R206). -/
def State.withGroup (s : State) (g : Nat) (f : Group → State) : State :=
  if (s.group g).owner = some s.cx.part then f (s.group g) else s.trap 0x09 0 0
/-- As `withGroup`, where a group that has lost its root makes the instruction wait (R244, log 87). -/
def State.atRoot (s : State) (g : Nat) (f : Group → State) : State := s.withGroup g fun x => if x.lost then s.hold else f x

/-- Whether a strand is a member. -/
def Group.isMember (g : Group) (uid strand : Nat) : Bool := g.members.any fun m => m.uid == uid && m.strand == strand

/-- Memberships and pending joins of a context in all groups (R363). -/
def memberships (s : State) (uid : Nat) : Nat :=
  s.groups.foldl (fun n e => n + (e.2.members.filter fun m => m.uid == uid).length + (e.2.joins.filter fun j => j.1 == uid).length) 0

/-- BMEMB join (R207): the group after it and the status. Scope and agent are tested before membership (log 105). -/
def Group.join (g : Group) (uid strand : Nat) (sc : Scope) (agent root total : Nat) : Group × Word :=
  if g.vacant then
    if total ≥ 64 then (g, stBusy)
    else ({ g with scope := sc, agent := agent, root := root, members := [{ uid := uid, strand := strand }] }, stDone)
  else if g.scope ≠ sc ∨ g.agent ≠ agent then (g, stBadTarget)
  else if g.isMember uid strand || g.joins.contains (uid, strand) then (g, stDone)
  else if g.members.length + g.joins.length ≥ 16777215 || total ≥ 64 then (g, stBusy)
  else ({ g with joins := g.joins ++ [(uid, strand)] }, stDone)

def groupNum (v : Word) : Nat := fld v 11 0

def execBmembJoin (d a : SReg) (sc : Scope) (s : State) : Out :=
  let n := groupNum (s.getS a)
  .next (s.atRoot n fun g =>
    let r := g.join s.cx.uid (strandIx s.focus).val sc (agentOfScope sc s.focus.core) s.package (memberships s s.cx.uid)
    (s.putGroup n r.1).status d r.2)

def execBmembLeave (d a : SReg) (s : State) : Out :=
  let n := groupNum (s.getS a)
  .next (s.atRoot n fun g =>
    let r := g.leave s.cx.uid (strandIx s.focus).val
    (s.putGroup n r.1).status d (if r.2 then stDone else stBadTarget))

/-- A barrier token (R205). -/
def tokenOf (gen : BitVec 32) (nm : Bool) (n : Nat) : Word := (gen ++ (0 : BitVec 32)) ||| bw nm 13 ||| BitVec.ofNat 64 (n % 4096)

/-- Register an arrival in C, or in C + 1; none when the member has arrived in both (R208). -/
def Group.arrive (g : Group) (uid strand : Nat) : Option (Group × BitVec 32) :=
  match g.members.find? fun m => m.uid == uid && m.strand == strand with
  | none => none
  | some m =>
    let upd := fun (f : Member → Member) => g.members.map fun m : Member => if m.uid == uid && m.strand == strand then f m else m
    if !m.inC && !m.leaving then some ({ g with members := upd fun m => { m with inC := true } }, g.c)
    else if !m.inC1 then some ({ g with members := upd fun m => { m with inC1 := true } }, g.c + 1)
    else none

def execBarr (d a : SReg) (s : State) : Out :=
  let n := groupNum (s.getS a)
  .next (s.atRoot n fun g =>
    if !g.isMember s.cx.uid (strandIx s.focus).val then s.status d (tokenOf g.c true n)
    else match g.arrive s.cx.uid (strandIx s.focus).val with
    | none => s.hold
    | some (g', gen) => (s.putGroup n g'.settle).status d (tokenOf gen false n))

/-- Outcome of a token against a group (R209). -/
inductive TokenState where
  | stale | done | pending | future
  deriving DecidableEq, Repr

def Group.judge (g : Group) (gen : BitVec 32) : TokenState :=
  let d := (gen - g.c).toInt
  if d ≤ -2 then .stale
  else if d = -1 then .done
  else if d = 0 ∨ (d = 1 ∧ g.members.any (·.inC1)) then .pending
  else .future

/-- The status word of BWAIT and BTRY (R209). -/
def barrierStatus (c : BitVec 32) (done stale : Bool) : Word := (c ++ (0 : BitVec 32)) ||| bw done 1 ||| bw stale 0

def execBwait (d a : SReg) (s : State) : Out :=
  let v := s.getS a
  .next (s.atRoot (groupNum v) fun g =>
    match g.judge (v.extractLsb' 32 32) with
    | .stale => s.status d (barrierStatus g.c true true)
    | .done => s.status d (barrierStatus g.c true false)
    | .pending => s.modSt fun t => { t with wait := some (.barrier d (groupNum v) (v.extractLsb' 32 32)) }
    | .future => s.trap 0x14 0 0)

def execBtry (d a : SReg) (s : State) : Out :=
  let v := s.getS a
  .next (s.atRoot (groupNum v) fun g =>
    match g.judge (v.extractLsb' 32 32) with
    | .stale => s.status d (barrierStatus g.c true true)
    | .done => s.status d (barrierStatus g.c true false)
    | .pending => s.status d (barrierStatus g.c false false)
    | .future => s.trap 0x14 0 0)

/-- BARRIER_COMPLETION_ARRIVAL: the completion of its generation reaches a waiting BWAIT, which writes DONE with the value that C took then,
whatever generations have completed since (R209, R242, R243). -/
def execBarrierCompletionArrival (r : StrandRef) (s : State) : Out :=
  match (s.strandAt r).wait with
  | some (.barrier d n gen) =>
    if (s.group n).lost then .next s else
    match (s.group n).judge gen with
    | .stale | .done => .next (s.modStrandAt r fun t => (t.setS d (barrierStatus (gen + 1) true false)).finishWait)
    | _ => .next s
  | _ => .next s

/-! ## Groups of domain scope in other packages (R244) -/

/-- Another package's record of a group whose root is here forwards its counts. -/
def remoteGroup (s : State) (n pkg members inC inC1 : Nat) : State :=
  let g := s.group n
  if g.vacant || g.elsewhere || g.scope ≠ .dom || pkg = s.package || !s.domain.contains pkg || (SMap.find g.remote pkg).any (·.leaving) then s
  else s.putGroup n { g with remote := SMap.set g.remote pkg { members := members, inC := Nat.min members inC, inC1 := Nat.min members inC1 } }.settle

/-- C of a group whose root is another package: the record here follows it, and pending joins and leaves take effect as it moves on. -/
def rootGeneration (s : State) (n root : Nat) (c : BitVec 32) : State :=
  let g := s.group n
  if root = s.package || !s.domain.contains root || g.lost || !(g.vacant || (g.elsewhere && g.root == root)) then s
  else if g.elsewhere && c == g.c + 1 then s.putGroup n g.turn
  else if g.elsewhere && !(g.members.isEmpty && g.joins.isEmpty) then s
  else s.putGroup n { g with elsewhere := true, root := root, scope := .dom, agent := 0, c := c }

/-- Another package is reset: its members leave every group, a group whose root it was is lost to its members here, of which the sync engine sends the
hypervisor a record that names the group, and the waiters its sync engines held are gone (R244, R245). -/
def otherPackageReset (s : State) (pkg : Nat) : State :=
  if pkg = s.package then s
  else
    let gone := s.groups.filter fun e => e.2.elsewhere && e.2.root == pkg && !e.2.lost && !(e.2.members.isEmpty && e.2.joins.isEmpty)
    let after := fun g : Group =>
      if g.elsewhere && g.root == pkg then
        if g.members.isEmpty && g.joins.isEmpty then { g with elsewhere := false } else { g with lost := true }
      else match SMap.find g.remote pkg with
        | some r => { g with remote := SMap.set g.remote pkg { r with leaving := true, inC1 := 0 } }.settle
        | none => g
    let s := (s.groups.foldl (fun s e => s.putGroup e.1 (after e.2)) s)
    let s := { s with dies := s.dies.map fun e => if e.1 / 4 = pkg then (e.1, { e.2 with waiters := [] }) else e }
    gone.foldl (fun s e => pfRecord s 1 (recordOf [BitVec.ofNat 64 e.1])) s

/-! ## Waits on memory words (R210, R211, R238) -/

def wordBytes (wide : Bool) : Nat := if wide then 8 else 4

/-- The lowest free wait-table entry of a die, none when all 4,096 are taken (R235, R238). -/
def Die.waitSlot (d : Die) : Option Nat :=
  if (d.waiters.filter (·.slot.isSome)).length ≥ 4096 then none
  else (List.range 4096).find? fun i => !d.waiters.any fun w => w.slot == some i

def execWaddr (c : WaitCond) (wide : Bool) (d b e : SReg) (m : MemOp) (s : State) : Out :=
  let ea := s.ea m
  let mask := s.getS b
  let expected := s.getS e
  if !aligned ea (wordBytes wide) then .next (s.addrAlign ea)
  else .next (match s.readVa s.homeAgent .rd ea (wordBytes wide) with
    | .error (er, a) => s.memFail er a
    | .ok (xs, bs) =>
      let v := leWord bs
      match xs with
      | [] => s.retire
      | x :: _ => s.charged xs false (wordBytes wide) fun s =>
        let s := s.countRead xs
        if waitCond c wide v mask expected then s.modSt fun t => ((t.setS d v).setS (d + 1) 0).retire 1
        else
        let dd := s.die x.owner
        let w : Waiter :=
          { asid := s.cx.asid, ea := resolveOwner s.here ea, owner := x.owner, wide := wide, mask := mask, expected := expected, cond := c
            stamp := dd.stamp, who := s.focus, uid := s.cx.uid, d := d, slot := dd.waitSlot, vi := s.cx.vi, part := s.cx.part }
        (s.modDie x.owner fun k => { k with waiters := k.waiters ++ [w], stamp := k.stamp + 1 }).modSt fun t =>
          { t with wait := some (.addr x.owner w.stamp d) })

/-- Waiters on the word at an address of an address space, in arrival order (R211, R239). -/
def Die.waitersOn (d : Die) (asid : BitVec 12) (ea : Word) : List Waiter :=
  (d.waiters.filter fun w => w.asid == asid && w.ea == ea).insertionSort fun a b => a.stamp ≤ b.stamp

def execWake (wide : Bool) (d b : SReg) (m : MemOp) (s : State) : Out :=
  let ea := s.ea m
  let n := (s.getS b).toNat % 2 ^ 32
  if !aligned ea (wordBytes wide) then .next (s.addrAlign ea)
  else .next (match s.readVa s.homeAgent .rd ea (wordBytes wide) with
    | .error (er, a) => s.memFail er a
    | .ok (xs, _) =>
      match xs with
      | [] => s.retire
      | x :: _ => s.charged xs false (wordBytes wide) fun s =>
        let s := s.countRead xs
        let go := ((s.die x.owner).waitersOn s.cx.asid (resolveOwner s.here ea)).take n
        let t := s.modDie x.owner fun k => { k with waiters := k.waiters.filter fun w => !go.any fun g => g.stamp == w.stamp }
        let t := go.foldl (fun t w => releaseWaiter t w (s.waitWord w) 2) t
        t.status d (BitVec.ofNat 64 go.length))

/-! ## Bound operand queues (R212-R215) -/

/-- An endpoint word on the issuing context's die (R212); none when malformed. -/
def endpoint (die : Nat) (v : Word) : Option EndPt :=
  if fld v 63 13 = 0 ∧ fld v 6 0 ≤ 95 then
    match fld v 10 9 with
    | 0 => some { core := die * 96 + fld v 6 0, slot := fld v 12 11, eng := 0, port := Fin.ofNat 4 (fld v 8 7) }
    | 1 => some { core := die * 96 + fld v 6 0, slot := fld v 12 11, eng := 1, port := Fin.ofNat 4 (fld v 8 7) }
    | 2 => some { core := die * 96 + fld v 6 0, slot := fld v 12 11, eng := 2, port := Fin.ofNat 4 (fld v 8 7) }
    | _ => none
  else none

/-- The endpoint names a unit of a launch. -/
def endpointOk (s : State) (launch : Nat) (e : EndPt) : Bool :=
  match s.findCtx (.resident e.core e.slot) with
  | some x => x.launch == launch
  | none => false

/-- Every bound queue of the package. -/
def allQueues (s : State) : List BoundQ := s.contexts.flatMap fun e => e.2.boundQs.map (·.2)

def execQbind (d a b : SReg) (q : Fin 8) (depth1 : Fin 32) (s : State) : Out :=
  let die := s.focus.core / 96
  .next (match endpoint die (s.getS a), endpoint die (s.getS b) with
    | some p, some c =>
      if !endpointOk s s.cx.launch p || !endpointOk s s.cx.launch c || p == c || p.eng == 0 || c.eng == 2 then s.status d stBadTarget
      else if (SMap.find s.cx.boundQs q.val).isSome || (allQueues s).any fun o => [o.prod, o.cons].any fun e => e == p || e == c then s.status d stBusy
      else (s.modCx fun x => { x with boundQs := SMap.set x.boundQs q.val { prod := p, cons := c, depth := depth1.val + 1 } }).status d stDone
    | _, _ => s.status d stBadTarget)

def execQunbind (d : SReg) (q : Fin 8) (s : State) : Out :=
  .next (match SMap.find s.cx.boundQs q.val with
    | none => s.status d stBadTarget
    | some b =>
      if b.entries.isEmpty then (s.modCx fun x => { x with boundQs := SMap.erase x.boundQs q.val }).status d stDone
      else (s.modCx fun x => { x with boundQs := SMap.set x.boundQs q.val { b with closing := true } }).modSt fun t =>
        { t with wait := some (.unbind d q) })

/-- The word of QDEPTH (R214). -/
def depthWord (b : Option BoundQ) : Word :=
  match b with
  | some b => bw true 16 ||| BitVec.ofNat 64 b.depth <<< 8 ||| BitVec.ofNat 64 b.entries.length
  | none => 0

def execQdepth (d : SReg) (q : Fin 8) (s : State) : Out := scalarResult s d (depthWord (SMap.find s.cx.boundQs q.val))

/-- A waiting QUNBIND completes with DONE when its queue is empty or gone (R215). -/
def Ctx.settleUnbind (x : Ctx) : Ctx :=
  ([0, 1, 2, 3] : List (Fin 4)).foldl (fun x i =>
    match x.strands[i].wait with
    | some (.unbind d q) =>
      match SMap.find x.boundQs q.val with
      | none => x.modStrand i fun t => (t.setS d 0).finishWait
      | some b => if b.entries.isEmpty then { x with boundQs := SMap.erase x.boundQs q.val }.modStrand i fun t => (t.setS d 0).finishWait else x
    | _ => x) x

end Sys2Proof.Machine
end

