-- ==== Sys2Proof/Machine/Engines.lean ====
section
/-! DEFINITION. Issue of engine commands: handle checks, operation lists, format words, acceptance into the engine queues
(16 R247-R258, 18 R300-R303, 19 R316-R321, 20 R327, 24 R386). -/

namespace Sys2Proof.Machine

/-! ## Acceptance (R247-R250) -/

/-- Queue of a copy channel. -/
def copyQueue (ch : Fin 4) : Fin 6 := Fin.ofNat 6 (2 + ch.val)

/-- A queue has room: entries not done occupy its 16 places (log 15). -/
def Ctx.room (x : Ctx) (q : Fin 6) : Bool := (x.queues[q].filter fun t => t.st != .done).length < 16

/-- Phase of a task accepted now (R250, R259). -/
def Ctx.phaseOfNew (x : Ctx) : Option Nat :=
  match x.phase with
  | none => none
  | some h =>
    match h.committing with
    | none => some h.num
    | some (_, true) => some x.nextPhase
    | some (_, false) => none

/-- What a command gives its task. -/
structure Accept where
  cmd : Cmd
  op : Instr := .nop
  vals : List Word := []
  oc : Fin 16
  bar : Bool
  word : TaskWord
  leafs : List Nat := []
  after : Option Nat := none
  /-- The first command of its pair. -/
  lead : Option Nat := none
  deriving DecidableEq, Repr

/-- Accept a task into a queue; a tile command takes the head of the format-word queue (R258). -/
def Ctx.accept (x : Ctx) (q : Fin 6) (strand : Fin 4) (c : Accept) : Ctx :=
  let mat := c.cmd.isMatrix
  let t : Task :=
    { num := x.nextTask, strand := strand.val, cmd := c.cmd, op := c.op, vals := c.vals, oc := c.oc, word := c.word, bar := c.bar, phase := x.phaseOfNew, lead := c.lead.getD x.nextTask
      after := c.after, leafs := c.leafs, fmt := if mat then goodFmt x.fwq.head? else none }
  { x with queues := x.queues.set q (x.queues[q] ++ [t]), nextTask := x.nextTask + 1, fwq := if mat then x.fwq.tail else x.fwq }

/-- A handle counts one more transfer in flight (R188). -/
def beginTransfer (s : State) (x : Ctx) (i : Nat) : State :=
  let e := s.handle x i
  s.setHandle x i (hEntry (hDrain e) (hInfl e + 1) (hGen e) (hLive e) (hRights e) (hLen1 e) (hBase e))

/-- Accept a command of the executing strand: its handles count it in flight (R188). -/
def State.acceptCmd (s : State) (q : Fin 6) (c : Accept) : State :=
  ((cmdHandles c.cmd).foldl (fun s h => beginTransfer s s.cx h.1) s).modCx fun x => x.accept q (strandIx s.focus) c

/-! ## Operands (R253) -/

/-- Codes of the traps that a check at issue raises. -/
def codeStale : Nat := 0x10
def codeRange : Nat := 0x11

/-- Resolve a handle descriptor for an extent: HANDLE_STALE, then HANDLE_RANGE (R253, R188). -/
def useHandle (s : State) (v : Word) (extent : Nat) (write : Bool) : Except Nat Place :=
  let e := s.handle s.cx (fld v 11 0)
  if !handleMatches (v &&& 0xFFFFF) e then .error codeStale
  else if fld v 63 20 + extent > (hLen1 e).toNat + 1 || !(hRights e).getLsbD (if write then 1 else 0) then .error codeRange
  else .ok (.mem (hBase e + BitVec.ofNat 64 (fld v 63 20)) (fld v 11 0) (hGen e))

/-- A memory or folio endpoint. -/
def endpointOf (s : State) (folio : Bool) (v : Word) (extent : Nat) (write : Bool) : Except Nat Place :=
  if folio then .ok (.fol v) else useHandle s v extent write

/-- Logical leaves that a folio extent touches (R102, R355). -/
def Ctx.leavesOf (x : Ctx) (off : Word) (extent : Nat) : List Nat :=
  (List.range x.leaves.length).filter fun l => decide (16384 * l < off.toNat + extent) && decide (off.toNat < 16384 * l + 16384)

/-- Leaves of an endpoint's extent. -/
def Ctx.placeLeaves (x : Ctx) (p : Place) (extent : Nat) : List Nat :=
  match p with
  | .fol o => x.leavesOf o extent
  | .mem .. => []

/-- (rows - 1) × stride + row length. -/
def extentOf (rows stride rowLen : Nat) : Nat := (rows - 1) * stride + rowLen

/-- Direction of a copy: source and destination in the folio. -/
def copyEnds : CpyDir → Bool × Bool
  | .m2f => (false, true) | .f2m => (true, false) | .m2m => (false, false) | .f2f => (true, true)

/-- The checks of a CPY at issue (R253): the accepted command and its bytes. -/
def planCpy (s : State) (c : CpyCmd) : Except Nat (Accept × Nat) :=
  let h := s.getS c.c
  let rowLen := fld h 24 0
  let rows := fld h 47 32 + 1
  let ss := fld (s.getS c.d) 31 0
  let ds := fld (s.getS c.d) 63 32
  if rowLen = 0 || rowLen > 2 ^ 24 || fld h 31 25 ≠ 0 || fld h 63 48 ≠ 0 then .error codeRange
  else match endpointOf s (copyEnds c.dir).1 (s.getS c.a) (extentOf rows ss rowLen) false with
  | .error e => .error e
  | .ok src =>
    match endpointOf s (copyEnds c.dir).2 (s.getS c.b) (extentOf rows ds rowLen) true with
    | .error e => .error e
    | .ok dst =>
      .ok ({ cmd := .copy src dst (s.getS c.b) rowLen rows ss ds c.crc, op := .cpy { c with fo := none }
             vals := [s.getS c.a, s.getS c.b, h, s.getS c.d], oc := c.oc, bar := c.bar, word := c.task
             leafs := s.cx.placeLeaves src (extentOf rows ss rowLen) ++ s.cx.placeLeaves dst (extentOf rows ds rowLen) }, rows * rowLen)

/-- The checks of a CPYO at issue (R255). -/
def planCpyo (s : State) (c : CpyoCmd) : Except Nat (Accept × Nat) :=
  let len := (s.getS c.c).toNat
  if fld (s.getS c.b) 63 9 ≠ 0 || len = 0 || len > 65536 then .error codeRange
  else match endpointOf s c.fol (s.getS c.a) len false with
  | .error e => .error e
  | .ok src =>
    .ok ({ cmd := .copyO src (fld (s.getS c.b) 8 0) len, op := .cpyo { c with fo := none }, vals := [s.getS c.a, s.getS c.b, s.getS c.c, 0]
           oc := c.oc, bar := c.bar, word := c.task, leafs := s.cx.placeLeaves src len }, len)

/-! ## Matrix commands (R317, R318, R327, R386) -/

/-- Some core of a core's quad is fenced (R318). -/
def quadFenced (s : State) (core : Nat) : Bool := (quadCores core).any s.fencedCore

/-- Row bytes used by the checks: of the head of the format-word queue, else 64 (R318). -/
def Ctx.headRowBytes (x : Ctx) : Nat := ((x.fwq.head?.bind fmtOf).map (·.rowBytes)).getD 64

/-- The back leaves of the open phase. -/
def Ctx.backLeaves (x : Ctx) : List Nat := match x.phase with | some h => h.pairs.map (·.back) | none => []

/-- The A operand of a matrix command, its operand port, or the failed check (R318, R327). -/
def planA (s : State) (c : MatCmd) (rows : Nat) : Except Nat (Place × Option Nat) :=
  let v := s.getS c.a
  let stride := fld (s.getS c.d) 31 0
  if c.ka then (useHandle s v (extentOf rows stride s.cx.headRowBytes) false).map fun p => (p, none)
  else if fld v 63 60 = 15 then
    if fld v 59 58 ≠ 0 || fld v 55 0 ≠ 0 then .error codeRange else .ok (.fol 0, some (fld v 57 56))
  else if v.toNat % 8 ≠ 0 then .error codeRange
  else .ok (.fol v, none)

/-- The leaves named by a matrix command's folio operands (R355). -/
def matLeaves (x : Ctx) (a : Place) (port : Option Nat) (rows : Nat) (c : Word) (stride : Nat) : List Nat :=
  let f := x.fwq.head?.bind fmtOf
  (if port.isSome then [] else x.placeLeaves a (extentOf rows stride x.headRowBytes)) ++ x.leavesOf c 65536
    ++ (match f with
        | some f => (if f.xa then x.leavesOf (BitVec.ofNat 64 (64 * f.aso)) (rows * f.nb) else [])
            ++ (if f.xb then x.leavesOf (BitVec.ofNat 64 (64 * f.bso)) (rows * f.nb) else [])
        | none => [])

/-- The checks of an MMA or QMMA before its pairing checks (R318 steps 1 to 3). -/
def planMat (s : State) (c : MatCmd) (tag : Option (Fin 16)) : Except Nat Accept :=
  let rows := if tag.isSome then 64 else 128
  let stride := fld (s.getS c.d) 31 0
  match planA s c rows with
  | .error e => .error e
  | .ok (a, port) =>
    if fld (s.getS c.d) 63 32 ≠ 0 || fld (s.getS c.b) 63 9 ≠ 0 || (s.getS c.c).toNat % 512 ≠ 0 || stride % 8 ≠ 0 then .error codeRange
    else if tag.isSome && quadFenced s s.focus.core then .error 0x09
    else .ok { cmd := .matrix a port (fld (s.getS c.b) 8 0) (s.getS c.c) stride c.chk c.zero tag
               op := (match tag with | some t => .qmma { c with epi := none } t | none => .mma { c with epi := none })
               vals := [s.getS c.a, s.getS c.b, s.getS c.c, s.getS c.d], oc := c.oc, bar := c.bar, word := c.task
               leafs := matLeaves s.cx a port rows (s.getS c.c) stride }

/-- R386: the C extent of a QMMA keeps out of the back leaves of the open phase. -/
def jointClear (s : State) (c : MatCmd) (tag : Option (Fin 16)) : Bool :=
  tag.isNone || !(s.cx.leavesOf (s.getS c.c) 65536).any fun l => s.cx.backLeaves.contains l

/-! ## Chains (R301-R303) -/

/-- 8-byte word `i` of an operation list. -/
def listWord (v : VecWord) (i : Nat) : Word := v.extractLsb' (64 * i) 64

/-- Stream types of a chain (R301). -/
def chainTy (c : Nat) : Option ETy :=
  match ETy.ofCode (BitVec.ofNat 5 c) with
  | some t => if t.inI && t.width ≤ 32 || t.inF || t = .e4m3 || t = .e5m2 || t = .ta8 then some t else none
  | none => none

/-- Operations that take no operand (R302). -/
def opUnary (op : Nat) : Bool := op == 0x07 || op == 0x08 || op == 0x20 || (0x10 ≤ op && op ≤ 0x16)
/-- A valid operation word (R302, R303). -/
def opOk (buse qe : Bool) (w : Word) : Bool :=
  let op := fld w 7 0
  let src := fld w 9 8
  fld w 31 10 == 0 && ((1 ≤ op && op ≤ 5) || opUnary op) && (!opUnary op || (src == 0 && fld w 63 32 == 0))
    && (src == 0 || fld w 63 32 == 0) && (src != 1 || buse) && (src != 3 || qe)

/-- The fields of an operation list. -/
structure ChainList where
  ne : Nat
  rows : Nat
  buse : Bool
  bmode : Nat
  afol : Bool
  bfol : Bool
  dfol : Bool
  res : Nat
  rp : Fin 4
  ta : ETy
  tb : ETy
  td : ETy
  pol : Pol
  sm : Bool
  qp : Fin 4
  qe : Bool
  sa : Nat
  sb : Nat
  sd : Nat
  ops : List Word
  deriving DecidableEq, Repr

/-- Read an operation list; none for any error of R303 step 1. -/
def chainList (v : VecWord) (crc : Bool) : Option ChainList :=
  let w0 := listWord v 0
  let w1 := listWord v 1
  let buse := w0.getLsbD 51
  let qe := w1.getLsbD 27
  let ops := (List.range (fld w0 50 48 + 1)).map fun i => listWord v (4 + i)
  match chainTy (fld w1 4 0), chainTy (fld w1 20 16), (if buse then chainTy (fld w1 12 8) else some .f32) with
  | some ta, some td, some tb =>
    if 1 ≤ fld w0 31 0 ∧ fld w0 31 0 ≤ 2 ^ 24 ∧ fld w0 63 62 = 0 ∧ (buse → fld w0 53 52 ≠ 3) ∧ fld w0 59 57 ≤ 4
        ∧ fld w1 63 28 = 0 ∧ fld w1 7 5 = 0 ∧ fld w1 15 13 = 0 ∧ fld w1 21 21 = 0 ∧ fld (listWord v 3) 63 32 = 0
        ∧ (crc → ¬ w0.getLsbD 56) ∧ ops.all (opOk buse qe) then
      some { ne := fld w0 31 0, rows := fld w0 47 32 + 1, buse := buse, bmode := fld w0 53 52, afol := w0.getLsbD 54
             bfol := w0.getLsbD 55, dfol := w0.getLsbD 56, res := fld w0 59 57, rp := Fin.ofNat 4 (fld w0 61 60)
             ta := ta, tb := tb, td := td, pol := Pol.ofCode (w1.extractLsb' 22 2), sm := w1.getLsbD 24
             qp := Fin.ofNat 4 (fld w1 26 25), qe := qe, sa := fld (listWord v 2) 31 0, sb := fld (listWord v 2) 63 32
             sd := fld (listWord v 3) 31 0, ops := ops }
    else none
  | _, _, _ => none

/-- Extents of the three streams (R303). -/
def ChainList.extA (l : ChainList) : Nat := extentOf l.rows l.sa (l.ne * (l.ta.width / 8))
def ChainList.extB (l : ChainList) : Nat :=
  match l.bmode with
  | 1 => l.ne * (l.tb.width / 8)
  | 2 => l.rows * (l.tb.width / 8)
  | _ => extentOf l.rows l.sb (l.ne * (l.tb.width / 8))
def ChainList.extD (l : ChainList) : Nat := extentOf l.rows l.sd (l.ne * (l.td.width / 8))

/-- The checks of a CHAIN at issue (R303). -/
def planChain (s : State) (c : ChainCmd) : Except Nat Accept :=
  let v := s.getV c.list
  match chainList v c.crc with
  | none => .error codeRange
  | some l =>
    match endpointOf s l.afol (s.getS c.a) l.extA false with
    | .error e => .error e
    | .ok a =>
      match (if l.buse then endpointOf s l.bfol (s.getS c.c) l.extB false else .ok (.fol 0)) with
      | .error e => .error e
      | .ok b =>
        match endpointOf s l.dfol (s.getS c.d) l.extD true with
        | .error e => .error e
        | .ok d =>
          .ok { cmd := .chain v a b d c.crc, op := .chain c, vals := [s.getS c.a, v.setWidth 64, s.getS c.c, s.getS c.d], oc := c.oc, bar := c.bar, word := c.task
                leafs := s.cx.placeLeaves a l.extA ++ (if l.buse then s.cx.placeLeaves b l.extB else []) ++ s.cx.placeLeaves d l.extD }

/-- The pairing check of R321: stream A reads the accumulator from the folio. -/
def epilogueOk (s : State) (m : MatCmd) (c : ChainCmd) : Bool :=
  match chainList (s.getV c.list) c.crc with
  | some l => l.afol && s.getS c.a == s.getS m.c && l.ta == .f32 && l.ne == 128 && l.rows == 128 && l.sa == 512
  | none => false

/-! ## Pairs (R257, R321) -/

/-- A matrix command with its epilogue, checked in the order of R318, R386 and R303. -/
def planPair (s : State) (m : MatCmd) (tag : Option (Fin 16)) : Except Nat (Accept × Option Accept) :=
  match planMat s m tag with
  | .error e => .error e
  | .ok a =>
    match m.epi with
    | none => if jointClear s m tag then .ok (a, none) else .error codeRange
    | some c =>
      if !epilogueOk s m c || !jointClear s m tag then .error codeRange
      else (planChain s c).map fun b => (a, some b)

/-- Accept a matrix command, after a copy where it is a follow-on, with its epilogue behind it. -/
def State.acceptPair (s : State) (p : Accept × Option Accept) (after : Option Nat) : State :=
  let mat := s.cx.nextTask
  let s := s.acceptCmd 0 { p.1 with after := after, lead := after }
  match p.2 with
  | some c => s.acceptCmd 1 { c with after := some mat, lead := some (after.getD mat) }
  | none => s

/-- Queues a matrix command needs room in. -/
def matRoom (m : MatCmd) (x : Ctx) : Bool := x.room 0 && (m.epi.isNone || x.room 1)
/-- Queues a copy needs room in. -/
def foRoom (ch : Fin 4) (fo : Option FollowOn) (x : Ctx) : Bool :=
  x.room (copyQueue ch) && (match fo with | some f => matRoom f.cmd x | none => true)

/-- The follow-on of a copy, checked. -/
def planFo (s : State) (fo : Option FollowOn) : Except Nat (Option (Accept × Option Accept)) :=
  match fo with
  | none => .ok none
  | some f => (planPair s f.cmd f.tag).map some

/-- Words a command and its pair take; a pair counts as one instruction per command toward a loop repeat (R257, R321). -/
def State.retireCmds (s : State) (n : Nat) : State := s.modSt fun t => (List.range n).foldl (fun t _ => t.retire 2) t
def epiCount (m : MatCmd) : Nat := if m.epi.isSome then 2 else 1
def foCount (fo : Option FollowOn) : Nat := 1 + (match fo with | some f => epiCount f.cmd | none => 0)

/-- Issue a copy whose own checks answered `p`. -/
def issueCopy (s : State) (ch : Fin 4) (fo : Option FollowOn) (p : Except Nat (Accept × Nat)) : State :=
  if !foRoom ch fo s.cx then s.hold
  else match p with
  | .error e => s.trap e 0 0
  | .ok (a, n) =>
    match planFo s fo with
    | .error e => s.trap e 0 0
    | .ok f =>
      let num := s.cx.nextTask
      let s := (s.acceptCmd (copyQueue ch) a).modCx fun x => { x with it := x.it.set ch (x.it[ch] + BitVec.ofNat 64 n) }
      (match f with | some p => s.acceptPair p (some num) | none => s).retireCmds (foCount fo)

/-! ## The instructions -/

/-- Queue of TSEM (R252). -/
def engineQueue (eng : Engine) (ch : Fin 4) : Fin 6 :=
  match eng with
  | .le => 0
  | .ve => 1
  | .ce => copyQueue ch

def execTsem (eng : Engine) (ch : Fin 4) (oc : Fin 16) (bar : Bool) (task : TaskWord) (s : State) : Out :=
  if !s.cx.room (engineQueue eng ch) then .next s.hold
  else .next ((s.acceptCmd (engineQueue eng ch) { cmd := .null, op := .tsem eng ch oc bar task, oc := oc, bar := bar, word := task }).retireCmds 1)

def execCpy (c : CpyCmd) (s : State) : Out := .next (issueCopy s c.ch c.fo (planCpy s c))
def execCpyo (c : CpyoCmd) (s : State) : Out := .next (issueCopy s c.ch c.fo (planCpyo s c))

/-- Issue a matrix command. -/
def issueMat (s : State) (m : MatCmd) (tag : Option (Fin 16)) : State :=
  if !matRoom m s.cx then s.hold
  else match planPair s m tag with
  | .error e => s.trap e 0 0
  | .ok p => (s.acceptPair p none).retireCmds (epiCount m)

def execMma (c : MatCmd) (s : State) : Out := .next (issueMat s c none)
def execQmma (c : MatCmd) (tag : Fin 16) (s : State) : Out := .next (issueMat s c (some tag))

def execChain (c : ChainCmd) (s : State) : Out :=
  if !s.cx.room 1 then .next s.hold
  else .next (match planChain s c with
    | .error e => s.trap e 0 0
    | .ok a => (s.acceptCmd 1 a).retireCmds 1)

/-! ## Write pointers and the format-word queue (R256, R258) -/

def execCwptrLand (d : SReg) (ch : Fin 4) (s : State) : Out := scalarResult s d s.cx.wp[ch]
def execCwptrIss (d : SReg) (ch : Fin 4) (s : State) : Out := scalarResult s d s.cx.it[ch]
def execFwput (a : SReg) (s : State) : Out :=
  if s.cx.fwq.length ≥ 16 then .next s.hold else .next ((s.modCx fun x => { x with fwq := x.fwq ++ [s.getS a] }).retire)

/-! ## Result ports (R305) -/

/-- The bound queue that a producer endpoint feeds, with the context that holds it. -/
def findBound (s : State) (ok : BoundQ → Bool) : Option (CtxRef × Nat × BoundQ) :=
  s.contexts.findSome? fun e => (e.2.boundQs.find? fun q => ok q.2).map fun q => (e.1, q.1, q.2)
def producerQueue (s : State) (core slot eng port : Nat) : Option (CtxRef × Nat × BoundQ) :=
  findBound s fun q => q.prod.core == core && q.prod.slot == slot && q.prod.eng.val == eng && q.prod.port.val == port
def consumerQueue (s : State) (core slot eng port : Nat) : Option (CtxRef × Nat × BoundQ) :=
  findBound s fun q => q.cons.core == core && q.cons.slot == slot && q.cons.eng.val == eng && q.cons.port.val == port
def putBound (s : State) (f : CtxRef × Nat × BoundQ) : State := s.modRef f.1 fun x => { x with boundQs := SMap.set x.boundQs f.2.1 f.2.2 }

/-- Take the oldest element that is not held. -/
def takeElem : List PortElem → Option (Word × List PortElem)
  | [] => none
  | e :: r => if e.held.isNone then some (e.val, r) else (takeElem r).map fun t => (t.1, e :: t.2)

/-- Serve the waiting pops, per port in issue order (R305). -/
def servePops : List (Nat × Nat) → List Nat → Ctx → Ctx × List (Nat × Nat)
  | [], _, x => (x, [])
  | (port, i) :: r, busy, x =>
    let p : Fin 4 := Fin.ofNat 4 port
    match (if busy.contains port then none else takeElem x.ports[p]) with
    | some (v, rest) =>
      let d := match x.strands[(Fin.ofNat 4 i : Fin 4)].wait with | some (.chpop d _) => d | _ => 0
      servePops r busy ({ x with ports := x.ports.set p rest }.modStrand (Fin.ofNat 4 i) fun t => (t.setS d v).finishWait)
    | none => let q := servePops r (port :: busy) x; (q.1, (port, i) :: q.2)
def Ctx.pops (x : Ctx) : Ctx := let r := servePops x.popq [] x; { r.1 with popq := r.2 }

def execChpop (d : SReg) (port : Fin 4) (s : State) : Out :=
  if (producerQueue s s.focus.core s.focus.slot 1 port.val).isSome then .next (s.trap 0x09 0 0)
  else .next (s.modCx fun x =>
    ({ x with popq := x.popq ++ [(port.val, (strandIx s.focus).val)] }.modStrand (strandIx s.focus) fun t =>
      { t with wait := some (.chpop d port) }).pops)

/-! ## The buffer-phase swap (R259, R386) -/

/-- Pair list of vA. -/
def pairList (v : VecWord) (n : Nat) : List LeafPair :=
  (List.range n).map fun i =>
    { front := (v.extractLsb' (16 * i) 7).toNat, back := (v.extractLsb' (16 * i + 7) 7).toNat, copy := v.getLsbD (16 * i + 14) }

/-- A leaf that a QMMA of the context, accepted and not done, holds C bytes in (R386). -/
def Ctx.jointHolds (x : Ctx) (leaf : Nat) : Bool :=
  x.tasks.any fun e => e.2.st != .done && e.2.cmd.jointTag.isSome &&
    (match e.2.cmd with
     | .matrix _ _ _ c .. => (x.leavesOf c 65536).contains leaf
     | _ => false)

/-- Every leaf exists and none is named twice. -/
def pairsOk (x : Ctx) (ps : List LeafPair) : Bool :=
  let ls := ps.flatMap fun p => [p.front, p.back]
  ls.all (· < x.leaves.length) && decide ls.Nodup

/-- A leaf is resident. -/
def Ctx.leafHere (x : Ctx) (l : Nat) : Bool := ((x.leaves[l]?).bind (·.phys)).isSome

def execBswapOpen (d : SReg) (v : VNum) (n : BitVec 6) (s : State) : Out :=
  let x := s.cx
  if x.phase.isSome then .next (s.status d stBusy)
  else if n = 0 ∨ n.toNat > 32 then .next (s.status d stBadTarget)
  else
    let ps := pairList (s.getV v) n.toNat
    if !pairsOk x ps || ps.any fun p => x.jointHolds p.back then .next (s.status d stBadTarget)
    else if !ps.all fun p => x.leafHere p.back then .next (s.holdLeaves ((ps.map (·.back)).filter fun l => !x.leafHere l))
    else
      let s := setUpLeaves s s.focus.core x ps
      .next ((s.modCx fun x => { x with phase := some { num := x.nextPhase, pairs := ps }, nextPhase := x.nextPhase + 1 }).status d stDone)

/-- Swap and close: wait for the commit. A swap that waits already is waited for (log 17). -/
def startCommit (s : State) (d : SReg) (reopen : Bool) : State :=
  match s.cx.phase with
  | none => s.status d stBadTarget
  | some h =>
    if h.committing.isSome then s.hold
    else if reopen && h.pairs.any fun p => s.cx.jointHolds p.front then s.status d stBadTarget
    else (s.modCx fun x => { x with phase := some { h with committing := some ((strandIx s.focus).val, reopen) } }).modSt fun t =>
      { t with wait := some (.swap d reopen) }

def execBswap (d : SReg) (s : State) : Out := .next (startCommit s d true)
def execBswapClose (d : SReg) (s : State) : Out := .next (startCommit s d false)

end Sys2Proof.Machine
end

