-- ==== Sys2Proof/Machine/Special.lean ====
section
/-! DEFINITION. The special functions of VSF and of chains (18 R298): the exact cases, and a free value held to the stated error
bound elsewhere. A reference value of far smaller error than the bound says which FP32 results the bound admits (log 11). -/

namespace Sys2Proof.Machine

/-- Fraction bits of the reference computations. -/
def refBits : Nat := 140
/-- ln 2 and log2 e in units of 2^-140. -/
def ln2Fix : Int := 966106166171702452789019208761976768099343
def log2eFix : Int := 2010823406628030733297128842387837900889450

/-- A decoded finite value in units of 2^-140, rounded down. -/
def toFix (neg : Bool) (m : Nat) (e : Int) : Int := Int.fdiv (signed neg m * 2 ^ (e + refBits).toNat) (2 ^ (-(e + refBits)).toNat)

/-- Terms of the exponential series from term k on, `n` of them: t is the k-th term. -/
def expSeries (y : Int) : Nat → Nat → Int → Int
  | 0, _, _ => 0
  | n + 1, k, t => t + expSeries y n (k + 1) (t * y / 2 ^ refBits / (k + 1))

/-- 2^X for X in units of 2^-140. -/
def exp2Fix (x : Int) : Num :=
  .fin false (expSeries (x % 2 ^ refBits * ln2Fix / 2 ^ refBits) 40 0 (2 ^ refBits)).toNat (Int.fdiv x (2 ^ refBits) - refBits)

/-- `n` bits of the logarithm of z, 1 ≤ z < 2 in units of 2^-140, appended to `acc`. -/
def logBits : Nat → Nat → Nat → Nat
  | 0, _, acc => acc
  | n + 1, z, acc =>
    let z2 := z * z / 2 ^ refBits
    if z2 ≥ 2 ^ (refBits + 1) then logBits n (z2 / 2) (2 * acc + 1) else logBits n z2 (2 * acc)

/-- log2 of m × 2^e, m > 0. -/
def log2Ref (m : Nat) (e : Int) : Num :=
  let z := if Nat.log2 m ≤ refBits then m <<< (refBits - Nat.log2 m) else m >>> (Nat.log2 m - refBits)
  let v := ilog m e * 2 ^ 100 + logBits 100 z 0
  .fin (v < 0) v.natAbs (-100)

def oneNum : Num := .fin false 1 0
/-- A value below one by less than any candidate's distance: what a function saturating at one stands for. -/
def belowOne : Num := .fin false (2 ^ 400 - 1) (-400)

/-- e^x for a finite x of magnitude below 2^9. -/
def expRef (neg : Bool) (m : Nat) (e : Int) : Num := exp2Fix (toFix neg m e * log2eFix / 2 ^ refBits)

/-- tanh of a positive magnitude; of a small one a value below it as tanh is, since only the side matters there. -/
def tanhRef (m : Nat) (e : Int) : Num :=
  if m = 0 then .fin false 0 e
  else if ilog m e < -30 then numAdd (.fin false m e) (.fin true (m * m * m) (3 * e - 2))
  else if ilog m e ≥ 6 then belowOne
  else
    let t := expRef true m (e + 1)
    numDiv (numAdd oneNum (numNeg t)) (numAdd oneNum t)

/-- A reference value for the cases that R298 gives only a bound for. Where the exact value lies too near an FP32 value for its digits to tell them apart,
it stands on the exact value's side of it. -/
def specRef (f : SpecFn) (neg : Bool) (m : Nat) (e : Int) : Num :=
  match f with
  | .rcp => numDiv oneNum (.fin neg m e)
  | .rsqrt => numDiv oneNum (numSqrt (.fin neg m e))
  | .sqrt => numSqrt (.fin neg m e)
  | .exp2 => if ilog m e ≥ 9 then (if neg then .fin false 1 (-400) else .inf false)
    else if ilog m e < -60 then numAdd oneNum (.fin neg m (e - 1)) else exp2Fix (toFix neg m e)
  | .log2 => log2Ref m e
  | .tanh => match tanhRef m e with | .fin _ a b => .fin neg a b | v => v
  | .sigm =>
    if m ≠ 0 ∧ neg ∧ ilog m e ≥ 8 then .fin false 1 (-400)
    else if m ≠ 0 ∧ !neg ∧ ilog m e ≥ 6 then belowOne
    else if m ≠ 0 ∧ ilog m e < -60 then numAdd (.fin false 1 (-1)) (.fin neg m (e - 3))
    else numDiv oneNum (numAdd oneNum (expRef (!neg) m e))

/-- Exponent of one unit in the last place of FP32 at a value (R298). -/
def ulpExp (m : Nat) (e : Int) : Int := if m = 0 then -149 else max (ilog m e - 23) (-149)

/-- Units in the last place that R298 allows. -/
def ulpBound : SpecFn → Nat
  | .rcp | .rsqrt => 1
  | _ => 2

/-- A zero has the sign of the value it stands for (R269). -/
def zeroSignOk (c r : Num) : Bool :=
  match c, r with
  | .fin n 0 _, .fin k _ _ => n == k
  | _, _ => true

/-- A candidate FP32 value lies within the bound of the reference (log 11). -/
def withinBound (f : SpecFn) (c r : Num) : Bool :=
  zeroSignOk c r &&
  match numAdd c (numNeg r), r with
  | .fin _ dm de, .fin _ rm re =>
    let u := ulpExp rm re
    magLe dm de (ulpBound f) u || (decide (f = .log2) && magLe dm de 1 (-22))
  | _, _ => false

/-- A result the bound admits: the free value where it lies within it, else the nearest. -/
def boundedFn (f : SpecFn) (x : Nat) (r : Num) : Nat :=
  let c := (Config.specFn f (BitVec.ofNat 32 x)).toNat
  if withinBound f (ofF32 c) r then c else toF32 r

/-- A decoded value is an integer. -/
def isIntegral (m : Nat) (e : Int) : Bool := decide (0 ≤ e) || m % 2 ^ (-e).toNat = 0
/-- A magnitude is a power of two. -/
def isPow2 (m : Nat) : Bool := m = 2 ^ Nat.log2 m

/-- f of R298 in FP32, on an FP32 pattern. -/
def specFn32 (f : SpecFn) (x : Nat) : Nat :=
  match f, ofF32 x with
  | _, .nan => 0x7FC00000
  | .rcp, .inf n => toF32 (.fin n 0 0)
  | .rcp, .fin n m e => if m = 0 then toF32 (.inf n) else boundedFn .rcp x (specRef .rcp n m e)
  | .rsqrt, .inf n => if n then 0x7FC00000 else 0
  | .rsqrt, .fin n m e =>
    if m = 0 then toF32 (.inf n) else if n then 0x7FC00000 else boundedFn .rsqrt x (specRef .rsqrt n m e)
  | .sqrt, v => toF32 (numSqrt v)
  | .exp2, .inf n => if n then 0 else toF32 (.inf false)
  | .exp2, .fin n m e =>
    if isIntegral m e then (if ilog m e ≥ 9 ∧ m ≠ 0 then (if n then 0 else toF32 (.inf false)) else toF32 (.fin false 1 (roundInt n m e)))
    else boundedFn .exp2 x (specRef .exp2 n m e)
  | .log2, .inf n => if n then 0x7FC00000 else toF32 (.inf false)
  | .log2, .fin n m e =>
    if m = 0 then toF32 (.inf true)
    else if n then 0x7FC00000
    else if isPow2 m then toF32 (numOfInt (ilog m e))
    else boundedFn .log2 x (specRef .log2 n m e)
  | .tanh, .inf n => toF32 (.fin n 1 0)
  | .tanh, .fin n m e => boundedFn .tanh x (specRef .tanh n m e)
  | .sigm, .inf n => if n then 0 else toF32 oneNum
  | .sigm, .fin n m e => boundedFn .sigm x (specRef .sigm n m e)

/-- VSF on an element of a floating type: widened exactly, computed in FP32, rounded to the type (R298). -/
def specElem (f : SpecFn) (t : ETy) (x : Nat) : Nat := floatBits t (ofF32 (specFn32 f (toF32 (decodeElem t x))))

end Sys2Proof.Machine
end

