-- ==== Sys2Proof/Machine/Vector.lean ====
section
/-! DEFINITION. Vector register instructions (18 R285-R299). -/

namespace Sys2Proof.Machine

/-! ## Lanes (R266, R285-R287) -/

/-- Lane i of w bits. -/
def laneOf (w x i : Nat) : Nat := (x >>> (w * i)) % 2 ^ w
/-- The first n lanes. -/
def lanesOf (w n x : Nat) : List Nat := (List.range n).map (laneOf w x)
/-- Lanes packed from the low bits up. -/
def packLanes (w : Nat) : List Nat → Nat
  | [] => 0
  | l :: ls => l % 2 ^ w + 2 ^ w * packLanes w ls

/-- A group of g registers from a base as one number: operation lanes in blocked order (R287). -/
def State.groupNat (s : State) (base : VNum) (g : Nat) : Nat := packLanes 4096 ((List.range g).map fun k => (s.getV (vplus base k)).toNat)
/-- Write a group of g registers. -/
def State.setGroupNat (s : State) (base : VNum) (g x : Nat) : State :=
  (List.range g).foldl (fun s k => s.setV (vplus base k) (BitVec.ofNat 4096 (x >>> (4096 * k)))) s

/-- Lane i is enabled (R286). -/
def State.laneOn (s : State) (m : Option MNum) (i : Nat) : Bool :=
  match m with
  | none => true
  | some k => (s.getM k).getLsbD i

/-- New lanes where enabled, old lanes elsewhere. -/
def mergeLanes (on : Nat → Bool) (old new : List Nat) : List Nat :=
  (old.zip new).zipIdx.map fun e => if on e.2 then e.1.2 else e.1.1

/-- Lanes of a register at a type. -/
def State.elems (s : State) (t : ETy) (v : VNum) : List Nat := lanesOf t.width t.lanes (s.getV v).toNat
/-- Write the enabled lanes of a register and go on (R291). -/
def vecWrite (s : State) (d : VNum) (t : ETy) (m : Option MNum) (new : List Nat) : Out :=
  .next ((s.setV d (BitVec.ofNat 4096 (packLanes t.width (mergeLanes (s.laneOn m) (s.elems t d) new)))).retire)

/-! ## Element-wise arithmetic (R291, R292) -/

/-- Clamp of `.sat` to the type's range. -/
def clampElem (t : ETy) (v : Int) : Int := max (intRange t).1 (min (intRange t).2 v)
/-- An element result of one integer and one floating rule. -/
def elem1 (t : ETy) (sat : Bool) (fi : Int → Int) (ff : Num → Num) (a : Nat) : Nat :=
  if t.inF then floatBits t (ff (decodeElem t a))
  else intPattern t (if sat then clampElem t (fi (elemInt t a)) else fi (elemInt t a))
def elem2 (t : ETy) (sat : Bool) (fi : Int → Int → Int) (ff : Num → Num → Num) (a b : Nat) : Nat :=
  if t.inF then floatBits t (ff (decodeElem t a) (decodeElem t b))
  else intPattern t (if sat then clampElem t (fi (elemInt t a) (elemInt t b)) else fi (elemInt t a) (elemInt t b))

/-- A one-source and a two-source instruction of the mould of R291. -/
def vecOp1 (f : Nat → Nat) (d a : VNum) (t : ETy) (m : Option MNum) (s : State) : Out := vecWrite s d t m ((s.elems t a).map f)
def vecOp2 (f : Nat → Nat → Nat) (d a b : VNum) (t : ETy) (m : Option MNum) (s : State) : Out :=
  vecWrite s d t m (List.zipWith f (s.elems t a) (s.elems t b))

def numSub (a b : Num) : Num := numAdd a (numNeg b)

def execVadd (d a b : VNum) (ty : ETy) (sat : Bool) (m : Option MNum) (s : State) : Out :=
  vecOp2 (elem2 ty sat (· + ·) numAdd) d a b ty m s
def execVsub (d a b : VNum) (ty : ETy) (sat : Bool) (m : Option MNum) (s : State) : Out :=
  vecOp2 (elem2 ty sat (· - ·) numSub) d a b ty m s
def execVmul (d a b : VNum) (ty : ETy) (m : Option MNum) (s : State) : Out := vecOp2 (elem2 ty false (· * ·) numMul) d a b ty m s
/-- Bits [2w-1:w] of the exact product. -/
def mulhElem (t : ETy) (a b : Nat) : Nat := intPattern t (Int.fdiv (elemInt t a * elemInt t b) (2 ^ t.width))
def execVmulh (d a b : VNum) (ty : ETy) (m : Option MNum) (s : State) : Out := vecOp2 (mulhElem ty) d a b ty m s
def execVdiv (d a b : VNum) (ty : ETy) (m : Option MNum) (s : State) : Out :=
  vecOp2 (fun x y => floatBits ty (numDiv (decodeElem ty x) (decodeElem ty y))) d a b ty m s
def execVmin (d a b : VNum) (ty : ETy) (m : Option MNum) (s : State) : Out := vecOp2 (elem2 ty false min numMin) d a b ty m s
def execVmax (d a b : VNum) (ty : ETy) (m : Option MNum) (s : State) : Out := vecOp2 (elem2 ty false max numMax) d a b ty m s
def execVabs (d a : VNum) (ty : ETy) (sat : Bool) (m : Option MNum) (s : State) : Out :=
  vecOp1 (elem1 ty sat (fun x => |x|) numAbs) d a ty m s
def execVneg (d a : VNum) (ty : ETy) (sat : Bool) (m : Option MNum) (s : State) : Out :=
  vecOp1 (elem1 ty sat (fun x => -x) numNeg) d a ty m s

/-- The forms of VFMA, rounded once. -/
def fmaElem (form : FmaForm) (t : ETy) (a b c : Nat) : Nat :=
  let na := form = .nma || form = .nms
  let nc := form = .ms || form = .nms
  if t.inF then
    let x := decodeElem t a
    let z := decodeElem t c
    floatBits t (numAdd (numMul (if na then numNeg x else x) (decodeElem t b)) (if nc then numNeg z else z))
  else
    let p := elemInt t a * elemInt t b
    intPattern t ((if na then -p else p) + (if nc then -elemInt t c else elemInt t c))
def execVfma (form : FmaForm) (d a b c : VNum) (ty : ETy) (m : Option MNum) (s : State) : Out :=
  vecWrite s d ty m (List.zipWith (fun x yz => fmaElem form ty x yz.1 yz.2) (s.elems ty a) ((s.elems ty b).zip (s.elems ty c)))

/-- The type of twice the width (R292). -/
def wideType : ETy → ETy
  | .i8 => .i16 | .n8 => .n16 | .i16 => .i32 | .n16 => .n32 | _ => .f32
/-- A widening operation on the lanes of two registers to a pair. -/
def vecWiden (fi : Int → Int → Int) (ff : Num → Num → Num) (d a b : VNum) (ty : ETy) (m : Option MNum) (s : State) : Out :=
  let w := (wideType ty).width
  let f := fun x y => if ty.inF then toF32 (ff (decodeElem ty x) (decodeElem ty y)) else intPattern (wideType ty) (fi (elemInt ty x) (elemInt ty y))
  let new := List.zipWith f (s.elems ty a) (s.elems ty b)
  .next ((s.setGroupNat d 2 (packLanes w (mergeLanes (s.laneOn m) (lanesOf w ty.lanes (s.groupNat d 2)) new))).retire)
def execVaddw (d a b : VNum) (ty : ETy) (m : Option MNum) (s : State) : Out := vecWiden (· + ·) numAdd d a b ty m s
def execVmulw (d a b : VNum) (ty : ETy) (m : Option MNum) (s : State) : Out := vecWiden (· * ·) numMul d a b ty m s

/-! ## Logic, shifts, bit counts (R293) -/

def execVand (d a b : VNum) (ty : ETy) (m : Option MNum) (s : State) : Out := vecOp2 (· &&& ·) d a b ty m s
def execVor (d a b : VNum) (ty : ETy) (m : Option MNum) (s : State) : Out := vecOp2 (· ||| ·) d a b ty m s
def execVxor (d a b : VNum) (ty : ETy) (m : Option MNum) (s : State) : Out := vecOp2 (· ^^^ ·) d a b ty m s

/-- Shift counts of the lanes: the low log2(w) bits of lanes of vB, or the immediate. -/
def State.shiftCounts (s : State) (t : ETy) : VCount → List Nat
  | .reg b => (s.elems t b).map (· % t.width)
  | .imm k => List.replicate t.lanes k.val
def vecShift (f : Nat → Nat → Nat) (d a : VNum) (n : VCount) (ty : ETy) (m : Option MNum) (s : State) : Out :=
  vecWrite s d ty m (List.zipWith f (s.elems ty a) (s.shiftCounts ty n))
def sarElem (w x n : Nat) : Nat := ((BitVec.ofNat w x).sshiftRight n).toNat
def execVshl (d a : VNum) (n : VCount) (ty : ETy) (m : Option MNum) (s : State) : Out := vecShift (fun x k => x <<< k) d a n ty m s
def execVshr (d a : VNum) (n : VCount) (ty : ETy) (m : Option MNum) (s : State) : Out := vecShift (fun x k => x >>> k) d a n ty m s
def execVsar (d a : VNum) (n : VCount) (ty : ETy) (m : Option MNum) (s : State) : Out := vecShift (sarElem ty.width) d a n ty m s

def bitElem (f : BitFn) (w x : Nat) : Nat :=
  match f with
  | .popc => popOf w x
  | .clz => clzOf w x
  | .ctz => ctzOf w x
  | .brev => revOf w x
def execVbit (f : BitFn) (d a : VNum) (ty : ETy) (m : Option MNum) (s : State) : Out := vecOp1 (bitElem f ty.width) d a ty m s

/-! ## Compares, masks, select (R294, R295) -/

/-- A compare of two elements: codes 2-5 as the type reads them, codes 6-9 as patterns. -/
def cmpElem (c : Cond) (t : ETy) (a b : Nat) : Bool :=
  if t.inF then numCond c (decodeElem t a) (decodeElem t b)
  else match c with
  | .eq => a == b
  | .ne => a != b
  | .lt => elemInt t a < elemInt t b
  | .le => elemInt t a ≤ elemInt t b
  | .gt => elemInt t b < elemInt t a
  | .ge => elemInt t b ≤ elemInt t a
  | .ltu => a < b
  | .leu => a ≤ b
  | .gtu => b < a
  | .geu => b ≤ a
def bitNat (b : Bool) : Nat := if b then 1 else 0
def execVcmp (c : Cond) (d : MNum) (a b : VNum) (ty : ETy) (m : Option MNum) (s : State) : Out :=
  let new := List.zipWith (fun x y => bitNat (cmpElem c ty x y)) (s.elems ty a) (s.elems ty b)
  .next ((s.setM d (BitVec.ofNat 1024 (packLanes 1 (mergeLanes (s.laneOn m) (lanesOf 1 ty.lanes (s.getM d).toNat) new)))).retire)
def execVsel (d a b : VNum) (ty : ETy) (m : MNum) (s : State) : Out :=
  vecWrite s d ty none (mergeLanes (s.laneOn (some m)) (s.elems ty b) (s.elems ty a))

/-- A mask operand, inverted where the variant says so. -/
def State.maskIn (s : State) (m : MNum) (inv : Bool) : MaskWord := if inv then ~~~s.getM m else s.getM m
def execMand (d a b : MNum) (ia ib : Bool) (s : State) : Out := .next ((s.setM d (s.maskIn a ia &&& s.maskIn b ib)).retire)
def execMor (d a b : MNum) (ia ib : Bool) (s : State) : Out := .next ((s.setM d (s.maskIn a ia ||| s.maskIn b ib)).retire)
def execMxor (d a b : MNum) (ia ib : Bool) (s : State) : Out := .next ((s.setM d (s.maskIn a ia ^^^ s.maskIn b ib)).retire)
/-- Set bits among the lanes of a type. -/
def setLanes (x : MaskWord) (n : Nat) : List Nat := (List.range n).filter x.getLsbD
def execMpop (d : SReg) (a : MNum) (ty : ETy) (s : State) : Out := scalarResult s d (BitVec.ofNat 64 (setLanes (s.getM a) ty.lanes).length)
def execMfirst (d : SReg) (a : MNum) (ty : ETy) (s : State) : Out :=
  scalarResult s d (match (setLanes (s.getM a) ty.lanes).head? with | some i => BitVec.ofNat 64 i | none => BitVec.allOnes 64)
def execMset (d : MNum) (a : SReg) (s : State) : Out :=
  .next ((s.setM d (BitVec.ofNat 1024 (2 ^ Nat.min (s.getS a).toNat 1024 - 1))).retire)

/-! ## Conversions (R296) -/

/-- The layout of a VCVT: registers of destination and source, operation lanes, first source and destination lane (R287). -/
structure CvtShape where
  gd : Nat
  gs : Nat
  lanes : Nat
  src0 : Nat
  dst0 : Nat
  deriving DecidableEq, Repr

def cvtShape (o : VcvtOp) : CvtShape :=
  let up := decide (o.td.width > o.ts.width)
  let down := decide (o.ts.width > o.td.width)
  let g := if up then groupSize o.td o.ts else groupSize o.ts o.td
  let e := g * (if up then o.td.lanes else o.ts.lanes)
  { gd := if up then g else 1, gs := if down then g else 1, lanes := e
    src0 := if up then o.k.val * e else 0, dst0 := if down then o.k.val * e else 0 }

/-- Source values of the operation lanes. -/
def cvtSources (s : State) (o : VcvtOp) : List Num :=
  let sh := cvtShape o
  let src := s.groupNat o.a sh.gs
  let scales := (s.getV o.scale).toNat
  (List.range sh.lanes).map fun j =>
    let x := laneOf o.ts.width src (sh.src0 + j)
    if o.xs then scaleBy (decodeMx o.ts x) (laneOf 8 scales ((sh.src0 + j) / 32)) else decodeElem o.ts x

/-- Blocks of 32 values. -/
def blocksOf : Nat → List Num → List (List Num)
  | 0, _ => []
  | n + 1, l => l.take 32 :: blocksOf n (l.drop 32)

/-- Replace lanes from `start` on. -/
def spliceLanes (on : Nat → Bool) (start : Nat) (old new : List Nat) : List Nat :=
  old.take start ++ mergeLanes on ((old.drop start).take new.length) new ++ old.drop (start + new.length)

/-- Write the destination elements of a VCVT. -/
def cvtWrite (s : State) (o : VcvtOp) (new : List Nat) : State :=
  let sh := cvtShape o
  let old := lanesOf o.td.width (sh.gd * o.td.lanes) (s.groupNat o.d sh.gd)
  s.setGroupNat o.d sh.gd (packLanes o.td.width (spliceLanes (s.laneOn o.mask) sh.dst0 old new))

/-- The overflow predicate (R296): written under POL 3 only. -/
def State.cvtPred (s : State) (o : VcvtOp) (ev : Bool) : State := if o.pol = .trap then s.setP o.pn ev else s

/-- VCVT (R296). The scale of a quantised block goes to the byte of the destination elements' block, as R271 numbers it (log 12). -/
def execVcvt (o : VcvtOp) (s : State) : Out :=
  let vals := cvtSources s o
  if o.xd then
    let qs := (blocksOf ((cvtShape o).lanes / 32) vals).map (mxQuantise o.td o.pol)
    if qs.any (·.2.2) then .next ((s.cvtPred o true).retire)
    else
      let t := cvtWrite s o (qs.flatMap (·.2.1))
      let sc := qs.zipIdx.foldl (fun (v : VecWord) e => setByte v ((cvtShape o).dst0 / 32 + e.2) (BitVec.ofNat 8 e.1.1)) (s.getV o.scale)
      .next (((t.setV o.scale sc).cvtPred o false).retire)
  else
    let rs := vals.map (convertTo o.td o.pol o.sm)
    if rs.zipIdx.any fun e => e.1.2 && s.laneOn o.mask e.2 then .next ((s.cvtPred o true).retire)
    else .next (((cvtWrite s o (rs.map (·.1))).cvtPred o false).retire)

/-! ## Reductions (R297) -/

/-- Enabled elements in lane order. -/
def State.enabled (s : State) (t : ETy) (a : VNum) (m : Option MNum) : List Nat :=
  ((s.elems t a).zipIdx.filter fun e => s.laneOn m e.2).map (·.1)

/-- One level of the pairwise tree. -/
def pairUp : List Num → List Num
  | a :: b :: r => roundF32 (numAdd a b) :: pairUp r
  | l => l
def treeSum : Nat → List Num → List Num
  | 0, l => l
  | n + 1, l => treeSum n (pairUp l)
/-- VRSUM of a floating type: a disabled lane enters as -0. -/
def floatSum (s : State) (t : ETy) (a : VNum) (m : Option MNum) : Nat :=
  if s.enabled t a m = [] then 0
  else
    let xs := (s.elems t a).zipIdx.map fun e => if s.laneOn m e.2 then decodeElem t e.1 else Num.fin true 0 0
    toF32 ((treeSum (Nat.log2 t.lanes) xs).headD .nan)

def execVrsum (d : SReg) (a : VNum) (ty : ETy) (m : Option MNum) (s : State) : Out :=
  scalarResult s d (if ty.inF then BitVec.ofNat 64 (floatSum s ty a m)
    else BitVec.ofInt 64 (((s.enabled ty a m).map (elemInt ty)).foldl (· + ·) 0))
def execVrmax (d : SReg) (a : VNum) (ty : ETy) (m : Option MNum) (s : State) : Out :=
  scalarResult s d (if ty.inF then BitVec.ofNat 64 (toF32 (((s.enabled ty a m).map (decodeElem ty)).foldl numMax (.inf true)))
    else BitVec.ofInt 64 (((s.enabled ty a m).map (elemInt ty)).foldl max (intRange ty).1))
def execVrmin (d : SReg) (a : VNum) (ty : ETy) (m : Option MNum) (s : State) : Out :=
  scalarResult s d (if ty.inF then BitVec.ofNat 64 (toF32 (((s.enabled ty a m).map (decodeElem ty)).foldl numMin (.inf false)))
    else BitVec.ofInt 64 (((s.enabled ty a m).map (elemInt ty)).foldl min (intRange ty).2))

def execVsf (f : SpecFn) (d a : VNum) (ty : ETy) (m : Option MNum) (s : State) : Out := vecOp1 (specElem f ty) d a ty m s

/-! ## Permutes and moves (R299) -/

/-- Registers of the index group of VPERM. -/
def permGroup (t : ETy) : Nat := if t.lanes ≤ 256 then 1 else t.lanes / 256
def execVperm (d a b : VNum) (ty : ETy) (m : Option MNum) (s : State) : Out :=
  let src := (s.getV a).toNat
  let idx := lanesOf 16 ty.lanes (s.groupNat b (permGroup ty))
  vecWrite s d ty m (idx.map fun x => laneOf ty.width src (x % ty.lanes))
def execVslide (d a b : VNum) (c : SReg) (ty : ETy) (m : Option MNum) (s : State) : Out :=
  let k := Nat.min (s.getS c).toNat ty.lanes
  vecWrite s d ty m (((s.elems ty a ++ s.elems ty b).drop k).take ty.lanes)
def execVbcast (d : VNum) (a : SReg) (ty : ETy) (m : Option MNum) (s : State) : Out :=
  vecWrite s d ty m (List.replicate ty.lanes ((s.getS a).toNat % 2 ^ ty.width))
def execVins (d : VNum) (b : SReg) (ty : ETy) (k : Fin 1024) (s : State) : Out :=
  vecWrite s d ty none ((s.elems ty d).set k.val ((s.getS b).toNat % 2 ^ ty.width))
def execVext (d : SReg) (a : VNum) (ty : ETy) (k : Fin 1024) (s : State) : Out :=
  scalarResult s d (extend ty.width ty.isSigned (laneOf ty.width (s.getV a).toNat k.val))
/-- Two lists interleaved. -/
def interleave (a b : List Nat) : List Nat := (a.zip b).flatMap fun e => [e.1, e.2]
def execVzip (d a b : VNum) (ty : ETy) (s : State) : Out :=
  .next ((s.setGroupNat d 2 (packLanes ty.width (interleave (s.elems ty a) (s.elems ty b)))).retire)
def execVunzip (d a : VNum) (ty : ETy) (odd : Bool) (s : State) : Out :=
  let src := s.groupNat a 2
  vecWrite s d ty none ((List.range ty.lanes).map fun i => laneOf ty.width src (2 * i + bitNat odd))
def execVrev (d a : VNum) (ty : ETy) (m : Option MNum) (s : State) : Out := vecWrite s d ty m (s.elems ty a).reverse
def execVcmpr (d a : VNum) (ty : ETy) (m : MNum) (s : State) : Out :=
  let on := s.enabled ty a (some m)
  vecWrite s d ty none (on ++ List.replicate (ty.lanes - on.length) 0)
def execVmov (d a : VNum) (sz : Fin 3) (s : State) : Out := .next ((s.setGroupNat d (2 ^ sz.val) (s.groupNat a (2 ^ sz.val))).retire)

end Sys2Proof.Machine
end

