-- ==== Sys2Proof/Machine/Transfers.lean ====
section
/-! DEFINITION. What a copy and a chain do to bytes when they run (16 R253-R256, 18 R304-R305, 09 R166-R168, 05 R103-R104). -/

namespace Sys2Proof.Machine

/-! ## Faults of engine work (R163, R168) -/

/-- Why engine work does not finish: a fault that aborts its phase, or a held byte that it waits for (R389). -/
inductive EngErr where
  | fault (code stage : Nat) (addr : Word) (classD : Bool) (hold : Option Hold)
  | waits
  deriving DecidableEq, Repr

/-- The fault a failed access is in engine work, where a missing page names no task yet. -/
def engErr (e : MemErr) (va : Word) : EngErr :=
  match e with
  | .accessFault st => .fault 0x09 st.toNat va true none
  | .xlateMiss st => .fault 0x0A st.toNat va true none
  | .xlatePerm st => .fault 0x0B st.toNat va true none
  | .memUe => .fault 0x0C 0 va false none
  | .memIntegrity => .fault 0x0D 0 va true none
  | .absent => .fault 0x20 0 va false (some (.page va 0))
  | .held => .waits

/-- The context and strand that engine work acts for. -/
structure Eng where
  core : Nat
  ref : CtxRef
  strand : Nat
  deriving DecidableEq, Repr

/-- A context's engines as an agent. -/
def State.engAgent (s : State) (e : Eng) (x : Ctx) : Agent := s.unitAgent e.ref x

/-! ## Rows (R253) -/

/-- Row j of a stream. -/
def rowAt (p : Place) (stride j : Nat) : Place :=
  match p with
  | .mem va i g => .mem (va + BitVec.ofNat 64 (j * stride)) i g
  | .fol o => .fol (o + BitVec.ofNat 64 (j * stride))

/-- Page of an address. -/
def pageBase (va : Word) : Word := va &&& ~~~0xFFF

/-- Translate one run of bytes: through the translations the transfer holds (R188), else now. A byte that a blotter job names
waits either way (R389). -/
def engXls (s : State) (ag : Agent) (k : Kind) (pages : List (Word × Xl)) (va : Word) (n : Nat) : Except (MemErr × Word) (List Xl) :=
  if pages = [] then s.xlateRange ag k va n none
  else
    let xs := (List.range n).filterMap fun i =>
      let a := va + BitVec.ofNat 64 i
      (pages.find? fun e => e.1 == pageBase a).map fun e =>
        { e.2 with key := e.2.key + (a - pageBase a).toNat, off := e.2.off + (a - pageBase a).toNat }
    if xs.any fun x => s.blotHeld x.key then .error (.held, va) else .ok xs

/-- The bytes of one row, the folio cells it touched, and its lowest out-of-range offset. -/
structure RowRead where
  bytes : List Byte
  cells : List FolCell := []
  oob : Option Word := none
  deriving DecidableEq, Repr

/-- Read one row (R103, R163, R253). -/
def readRow (s : State) (e : Eng) (x : Ctx) (pages : List (Word × Xl)) (p : Place) (n : Nat) : Except EngErr RowRead :=
  match p with
  | .fol o =>
    let a := folAccess (s.core e.core) x false (folOffsets o n)
    match a.spill, a.poison with
    | some l, _ => .error (.fault 0x20 0 o false (some (.leaf l)))
    | none, some b => .error (.fault 0x0C 0 b false none)
    | none, none => .ok { bytes := a.cells.map ((s.core e.core).readCell false), cells := a.cells, oob := a.oob }
  | .mem va _ _ =>
    match engXls s (s.engAgent e x) .rd pages va n with
    | .error (er, a) => .error (engErr er a)
    | .ok xs =>
      match s.readXl va xs with
      | .error (er, a) => .error (engErr er a)
      | .ok bs => .ok { bytes := bs }

/-- A piece of a row: the row, the piece's first byte in it and its length. -/
abbrev Piece := Nat × Nat × Nat

/-- Where a piece of a stream stands. -/
def pieceAt (p : Place) (stride : Nat) (c : Piece) : Place := rowAt (rowAt p stride c.1) 1 c.2.1

/-- The pieces of a stream in order, up to the first that fails, and why that one failed. -/
def piecesUpTo (s : State) (e : Eng) (x : Ctx) (pages : List (Word × Xl)) (p : Place) (stride : Nat) : List Piece → List RowRead × Option EngErr
  | [] => ([], none)
  | c :: cs =>
    match readRow s e x pages (pieceAt p stride c) c.2.2 with
    | .error er => ([], some er)
    | .ok r => let q := piecesUpTo s e x pages p stride cs; (r :: q.1, q.2)

/-- Read rows in ascending order; the first failing row decides. -/
def readRows (s : State) (e : Eng) (x : Ctx) (p : Place) (stride n : Nat) (js : List Nat) : Except EngErr (List RowRead) :=
  match piecesUpTo s e x [] p stride (js.map fun j => (j, 0, n)) with
  | (rs, none) => .ok rs
  | (_, some er) => .error er

/-- The lowest of the offsets given. -/
def lowest (l : List Word) : Option Word := (l.map (·.toNat)).min?.map (BitVec.ofNat 64)

/-- Record a tile access that went out of range, as one access (R104, log 18). -/
def noteTile (s : State) (e : Eng) (kind : Nat) (oobs : List Word) : State :=
  match lowest oobs with
  | some o => s.modRef e.ref fun x => x.noteOob s.time kind e.strand o
  | none => s

/-- Count a read of cells that ECC corrected (R106). -/
def noteFixed (s : State) (e : Eng) (rs : List RowRead) : State :=
  if rs.any fun r => r.cells.any fun c => match c with | .fol b => (s.core e.core).corrects b | _ => false then
    s.modDie (s.dieOf e.core) fun d => { d with ceFolio := satInc d.ceFolio }
  else s

/-- Record what a read stream met: out-of-range bytes, corrected cells (R104, R106). -/
def noteReads (s : State) (e : Eng) (rs : List RowRead) : State := noteTile (noteFixed s e rs) e 4 (rs.filterMap (·.oob))

/-- Out-of-range offsets of the rows of a tile in the folio. -/
def tileOobs (s : State) (e : Eng) (x : Ctx) (p : Place) (stride n rows : Nat) : List Word :=
  match p with
  | .mem .. => []
  | .fol _ => (List.range rows).filterMap fun j =>
      match rowAt p stride j with
      | .fol o => (folAccess (s.core e.core) x false (folOffsets o n)).oob
      | .mem .. => none

/-- A row to write: place and bytes. -/
abbrev RowWrite := Place × List Byte

/-- Where the bytes of a row land: translated memory bytes, or folio cells. -/
def rowTarget (s : State) (e : Eng) (x : Ctx) (pages : List (Word × Xl)) (w : RowWrite) : Except EngErr (List (Xl × Byte) ⊕ FolAccess) :=
  match w.1 with
  | .fol o =>
    let a := folAccess (s.core e.core) x false (folOffsets o w.2.length)
    match a.spill with
    | some l => .error (.fault 0x20 0 o false (some (.leaf l)))
    | none => .ok (.inr a)
  | .mem va _ _ =>
    match engXls s (s.engAgent e x) .wr pages va w.2.length with
    | .error (er, a) => .error (engErr er a)
    | .ok xs =>
      match xs.zipIdx.find? fun t => match s.writeKeys t.1.key t.1.enc with | .error _ => true | .ok _ => false with
      | some t => .error (.fault 0x09 0 (va + BitVec.ofNat 64 t.2) true none)
      | none => .ok (.inl (xs.zip w.2))

/-- A task holds one more row of memory bytes, with the row's CRC where it carries one (R166, R254), less the bits an error strikes on the way (R381). -/
def Task.holdRow (crc : Bool) (t : Task) (row : List (Xl × Byte)) : Task :=
  let n := t.stores.length
  let struck := if t.hits.isEmpty then row else row.zipIdx.map fun e => (e.1.1, (t.hits.filter fun h => h.1 == n + e.2).foldl (fun b h => b ^^^ h.2) e.1.2)
  { t with stores := t.stores ++ struck, hits := t.hits.filter fun h => n + row.length ≤ h.1, sums := if crc then t.sums ++ [(t.stores.length, row.length, crc32c (row.map (·.2)))] else t.sums }

/-- A row that the task holds differs from its CRC (R254). -/
def Task.rowBad (t : Task) : Bool := t.sums.any fun c => crc32c (((t.stores.drop c.1).take c.2.1).map (·.2)) != c.2.2

/-- What landing rows comes to: the state with every row before the first that fails, how many those are, the lowest of their offsets out of
range, and why that one failed. What engine work has written to the folio stands whatever follows (R166). -/
structure Landed where
  state : State
  done : Nat := 0
  oobs : List Word := []
  err : Option EngErr := none

/-- Write one row for a task (R166): folio bytes at once, memory bytes held with the task. -/
def landRow (e : Eng) (num : Nat) (pages : List (Word × Xl)) (crc : Bool) (l : Landed) (w : RowWrite) : Landed :=
  match l.err, l.state.findCtx e.ref with
  | none, some x =>
    match rowTarget l.state e x pages w with
    | .error er => { l with err := some er }
    | .ok (.inl mem) => { l with done := l.done + 1, state := l.state.modRef e.ref fun x => x.modTask num (·.holdRow crc mem) }
    | .ok (.inr a) =>
      { l with done := l.done + 1, oobs := l.oobs ++ a.oob.toList, state := l.state.modCore e.core fun k => k.writeCells false a.cells w.2 }
  | _, _ => l
/-- Write rows for a task in order, up to the first that fails. -/
def landRows (s : State) (e : Eng) (num : Nat) (pages : List (Word × Xl)) (crc : Bool) (rows : List RowWrite) : Landed :=
  rows.foldl (landRow e num pages crc) { state := s }

/-! ## Overlap (R253, R304) -/

/-- Address range of an extent: space (folio or memory) and bounds; none for an empty one. -/
def placeRange (here : Nat) (p : Place) (extent : Nat) : Bool × Nat × Nat :=
  match p with
  | .fol o => (true, o.toNat, o.toNat + extent)
  | .mem va _ _ => (false, (resolveOwner here va).toNat, (resolveOwner here va).toNat + extent)

/-- Replace the bytes of a row that lie in a range by undefined ones (R8). -/
def undefRow (tick here : Nat) (src : Bool × Nat × Nat) (r : RowWrite) : RowWrite :=
  let d := placeRange here r.1 r.2.length
  if src.1 = d.1 ∧ src.2.1 < d.2.2 ∧ d.2.1 < src.2.2 then
    (r.1, r.2.zipIdx.map fun b => if src.2.1 ≤ d.2.1 + b.2 ∧ d.2.1 + b.2 < src.2.2 then Config.undefByte tick (d.2.1 + b.2) else b.1)
  else r

/-! ## Copies (R253-R256) -/

/-- Count landed bytes once for a transfer (R256). -/
def Ctx.land (x : Ctx) (num ch n : Nat) : Ctx :=
  match x.task num with
  | some (_, t) =>
    if t.landed ≥ n then x
    else { x.modTask num fun t => { t with landed := n } with
           wp := x.wp.set (Fin.ofNat 4 ch) (x.wp[(Fin.ofNat 4 ch : Fin 4)] + BitVec.ofNat 64 (n - t.landed)) }
  | none => x

/-- What is left of a copy: the rest of the row begun, then whole rows. -/
def restPieces (rowLen rows progress : Nat) : List Piece :=
  let j := progress / rowLen
  let o := progress % rowLen
  if o = 0 then (List.range' j (rows - j)).map fun j => (j, 0, rowLen)
  else (j, o, rowLen - o) :: (List.range' (j + 1) (rows - (j + 1))).map fun j => (j, 0, rowLen)

/-- The next piece of a copy that lands by itself: to the end of a 64-byte sector of the destination, or a row that carries a CRC (R254, R256, R344). -/
def nextPiece (here : Nat) (dst : Place) (rowLen ds progress : Nat) (crc : Bool) : Piece :=
  let j := progress / rowLen
  let o := progress % rowLen
  (j, o, if crc then rowLen - o else Nat.min (rowLen - o) (64 - (placeRange here (pieceAt dst ds (j, o, 0)) 0).2.1 % 64))

/-- Pieces of a CPY land (R253-R256), up to the first that fails. -/
def runPieces (s : State) (e : Eng) (x : Ctx) (t : Task) (src dst : Place) (rowLen rows ss ds : Nat) (crc : Bool) (ps : List Piece) : Landed :=
  let rs := piecesUpTo s e x t.pages src ss ps
  let srcR := placeRange (s.dieOf e.core) src (extentOf rows ss rowLen)
  let out := (ps.zip rs.1).map fun r => undefRow s.tick (s.dieOf e.core) srcR (pieceAt dst ds r.1, r.2.bytes)
  let l := landRows (noteFixed s e rs.1) e t.num t.pages crc out
  { l with err := l.err.or rs.2 }

/-- A CPY runs to its end, or to the row that fails; the out-of-range bytes of the rows done are recorded as one tile (R104). -/
def runCopy (s : State) (e : Eng) (x : Ctx) (t : Task) (src dst : Place) (rowLen rows ss ds : Nat) (crc : Bool) : Landed :=
  let ps := restPieces rowLen rows t.progress
  let l := runPieces s e x t src dst rowLen rows ss ds crc ps
  let n := ((ps[l.done]?).map (·.1)).getD rows
  { l with state := noteTile (noteTile l.state e 4 (tileOobs s e x src ss rowLen n)) e 5 (tileOobs s e x dst ds rowLen n) }

/-- The next bytes of a CPYO land: bytes at or above the reserved count are dropped (R255). -/
def runChunk (s : State) (e : Eng) (x : Ctx) (t : Task) (src : Place) (slot off len : Nat) : Except EngErr State :=
  match readRow s e x t.pages (rowAt src 1 off) len with
  | .error er => .error er
  | .ok r =>
    .ok ((noteFixed s e [r]).modCore e.core fun k =>
      k.putOps (r.bytes.zipIdx.filterMap fun b => (opByte x (slot + (off + b.2) / 8192) ((off + b.2) % 8192)).map fun a => (a, b.1)))

/-- A CPYO runs to its end; the first byte dropped is recorded (R255). -/
def runCopyO (s : State) (e : Eng) (x : Ctx) (t : Task) (src : Place) (slot len : Nat) : Except EngErr State :=
  (runChunk s e x t src slot t.progress (len - t.progress)).map fun u =>
    noteTile (noteTile u e 4 (tileOobs s e x src 1 len 1)) e 5
      (((List.range len).filter fun i => (opByte x (slot + i / 8192) (i % 8192)).isNone).take 1 |>.map fun i => BitVec.ofNat 64 (slot * 8192 + i))

/-! ## Chains (R302, R304, R305) -/

/-- Apply one operation to v with operand x. -/
def chainOp (op : Nat) (v x : Num) : Num :=
  match op with
  | 0x01 => roundF32 (numAdd v x)
  | 0x02 => roundF32 (numMul v x)
  | 0x03 => numMax v x
  | 0x04 => numMin v x
  | 0x05 => roundF32 (numAdd x (numNeg v))
  | 0x07 => numAbs v
  | 0x08 => numNeg v
  | 0x20 => v
  | op => match SpecFn.ofCode (BitVec.ofNat 4 (op - 0x10)) with
    | some f => ofF32 (specFn32 f (toF32 v))
    | none => v

/-- The operations of one element: v and the saved value, from operand sources. -/
def chainElem (ops : List Word) (v0 b x3 : Num) : Num :=
  (ops.foldl (fun (p : Num × Num) w =>
    let x := match fld w 9 8 with
      | 0 => ofF32 (fld w 63 32)
      | 1 => b
      | 2 => p.2
      | _ => x3
    let v := chainOp (fld w 7 0) p.1 x
    (v, if fld w 7 0 = 0x20 then v else p.2)) (v0, v0)).1

/-- Element j of a row of bytes, as FP32. -/
def elemOf (t : ETy) (bs : List Byte) (j : Nat) : Num :=
  roundF32 (decodeElem t (leNat ((bs.drop (j * (t.width / 8))).take (t.width / 8))))

/-- The final values of one row of a chain, from the bytes of its rows of A and B (R301, R304). -/
def chainRow (l : ChainList) (x3 : Num) (arow brow : List Byte) : List Num :=
  (List.range l.ne).map fun j =>
    chainElem l.ops (elemOf l.ta arow j) (if !l.buse then .fin false 0 0 else elemOf l.tb brow (if l.bmode = 2 then 0 else j)) x3

/-- The first element of a row with an overflow event (R280, R304). -/
def rowOverflow (l : ChainList) (vs : List Num) : Option Nat := vs.findIdx? fun v => (convertTo l.td l.pol l.sm v).2

/-- The result element (R305). -/
def chainResult (l : ChainList) (vs : List Num) : Option Word :=
  match l.res with
  | 1 => some (BitVec.ofNat 64 (l.rows * l.ne))
  | 2 => some (BitVec.ofNat 64 (toF32 (match vs with | v :: r => r.foldl numAdd v | [] => .fin false 0 0)))
  | 3 => match vs with | v :: r => some (BitVec.ofNat 64 (toF32 (r.foldl numMax v))) | [] => none
  | 4 => match vs.map numAbs with | v :: r => some (BitVec.ofNat 64 (toF32 (r.foldl numMax v))) | [] => none
  | _ => none

/-- A read stream equals the destination in base, stride and element width (R304). -/
def sameStream (here : Nat) (l : ChainList) (p d : Place) (stride : Nat) (t : ETy) : Bool :=
  placeRange here p 0 == placeRange here d 0 && stride == l.sd && t.width == l.td.width

/-- The piece of stream B that row r of a chain reads (R301). -/
def bPiece (l : ChainList) (r : Nat) : Piece :=
  let w := l.tb.width / 8
  match l.bmode with
  | 1 => (0, 0, l.ne * w)
  | 2 => (0, r * w, w)
  | _ => (r, 0, l.ne * w)

/-- `n` rows of a chain from row `from_` on, up to the first that fails, with the values of the rows done (R304). -/
def chainRows (s : State) (e : Eng) (x : Ctx) (t : Task) (l : ChainList) (a b d : Place) (crc : Bool) (from_ n : Nat) : Landed × List (BitVec 32) :=
  let rs := List.range' from_ n
  let ar := piecesUpTo s e x [] a l.sa (rs.map fun r => (r, 0, l.ne * (l.ta.width / 8)))
  let br := if l.buse then piecesUpTo s e x [] b l.sb (rs.map (bPiece l)) else (rs.map fun _ => { bytes := [] }, none)
  let vs := (ar.1.zip br.1).map fun q => chainRow l (ofF32 ((t.popped.getD 0).toNat % 2 ^ 32)) q.1.bytes q.2.bytes
  let ovf := vs.zipIdx.findSome? fun v => (rowOverflow l v.1).map fun j => (v.2, j)
  let ok := (ovf.map (·.1)).getD vs.length
  let here := s.dieOf e.core
  let undefs := (if sameStream here l a d l.sa l.ta then [] else [placeRange here a l.extA])
    ++ (if !l.buse || (l.bmode == 0 && sameStream here l b d l.sb l.tb) then [] else [placeRange here b l.extB])
  let out := (vs.take ok).zipIdx.map fun v =>
    undefs.foldl (fun w u => undefRow s.tick here u w)
      (rowAt d l.sd (from_ + v.2), v.1.flatMap fun n => leBytes (l.td.width / 8) (convertTo l.td l.pol l.sm n).1)
  let w := landRows (noteFixed (noteFixed s e ar.1) e br.1) e t.num [] crc out
  let bad := match ovf with
    | some (r, j) =>
      let at_ := match rowAt d l.sd (from_ + r) with | .mem va _ _ => va | .fol o => o
      some (.fault 0x09 3 (at_ + BitVec.ofNat 64 (j * (l.td.width / 8))) true none)
    | none => if ar.1.length ≤ br.1.length then ar.2.or br.2 else br.2
  ({ w with err := w.err.or bad }, (vs.take w.done).flatMap fun r => r.map fun v => BitVec.ofNat 32 (toF32 v))

/-- Out-of-range bytes of the rows that a chain has done are recorded, once for each stream (R104). -/
def noteChain (s : State) (e : Eng) (x : Ctx) (l : ChainList) (a b d : Place) (n : Nat) : State :=
  let bw := l.tb.width / 8
  let bs := if !l.buse || n = 0 then [] else match l.bmode with
    | 1 => tileOobs s e x b 0 (l.ne * bw) 1
    | 2 => tileOobs s e x b 0 (n * bw) 1
    | _ => tileOobs s e x b l.sb (l.ne * bw) n
  noteTile (noteTile (noteTile s e 4 (tileOobs s e x a l.sa (l.ne * (l.ta.width / 8)) n)) e 4 bs) e 5
    (tileOobs s e x d l.sd (l.ne * (l.td.width / 8)) n)

/-- A CHAIN runs to its end from the row it has come to, or to the row that fails, with its result element (R304, R305). -/
def runChain (s : State) (e : Eng) (x : Ctx) (t : Task) (list : VecWord) (a b d : Place) (crc : Bool) : Landed × Option Word :=
  match chainList list crc with
  | none => ({ state := s }, none)
  | some l =>
    let r := chainRows s e x t l a b d crc t.progress (l.rows - t.progress)
    ({ r.1 with state := noteChain r.1.state e x l a b d (t.progress + r.1.done) },
     chainResult l ((t.acc ++ r.2).map fun v => ofF32 v.toNat))

end Sys2Proof.Machine
end

