-- ==== Sys2Proof/Machine/Matrix.lean ====
section
/-! DEFINITION. Tile products: block decoding and alignment, accumulation, operand fetch and the write of C
(17 R281-R284, 19 R317-R324, 24 R377-R385). -/

namespace Sys2Proof.Machine

/-! ## Blocks (R281) -/

/-- The first `k` elements of packed bytes (R266). -/
def packedElems (t : ETy) (k : Nat) (bs : List Byte) : List Nat :=
  let n := leNat bs
  (List.range k).map fun i => n >>> (i * t.width) % 2 ^ t.width

/-- Significand width W of R281. -/
def sigWidth (t : ETy) : Nat := if t.width = 4 then 8 else 16

/-- One operand element, with its block's scale when block-scaled. -/
def operandElem (t : ETy) (scaled : Bool) (scale x : Nat) : Num := if scaled then scaleBy (decodeMx t x) scale else decodeElem t x

/-- An aligned block: integers A_i and the exponent G. -/
structure Block where
  sig : List Int
  g : Int
  deriving DecidableEq, Repr

/-- The alignment of one block of finite values. -/
def alignBlock (w : Nat) (vs : List Num) : Block :=
  let mx := maxMag vs
  if mx.1 = 0 then { sig := vs.map fun _ => 0, g := 0 }
  else
    let g := ilog mx.1 mx.2 - (w - 2)
    { sig := vs.map fun v => match v with | .fin n m e => roundInt n m (e - g) | _ => 0, g := g }

/-- A row of A or a column of B: its blocks, and whether an element is not finite (R283). -/
structure MatLine where
  bad : Bool
  blocks : List Block
  deriving DecidableEq, Repr

/-- Decode and align one row or column of `nb` blocks. -/
def matLine (t : ETy) (scaled : Bool) (nb : Nat) (bs scales : List Byte) : MatLine :=
  let es := packedElems t (32 * nb) bs
  let vs := (List.range nb).map fun b => ((es.drop (32 * b)).take 32).map (operandElem t scaled ((scales[b]?.getD 0).toNat))
  { bad := vs.any fun b => b.any Num.nonFinite, blocks := vs.map (alignBlock (sigWidth t)) }

/-! ## Accumulation (R282, R283) -/

/-- One block sum: exact integer and exponent. -/
def blockSum (a b : Block) : Int × Int := ((a.sig.zip b.sig).foldl (fun s p => s + p.1 * p.2) 0, a.g + b.g)

/-- Every aligned product of two lines is zero. -/
def allZero (a b : MatLine) : Bool := (a.blocks.zip b.blocks).all fun p => (p.1.sig.zip p.2.sig).all fun q => q.1 * q.2 == 0

/-- The exact total of the block sums. -/
def sumBlocks (a b : MatLine) : Num :=
  (a.blocks.zip b.blocks).foldl (fun v p => numAdd v (.fin ((blockSum p.1 p.2).1 < 0) (blockSum p.1 p.2).1.natAbs (blockSum p.1 p.2).2)) (.fin false 0 0)

/-- BlockAccumulate: the new FP32 pattern of an element. -/
def accumulate (c : Nat) (a b : MatLine) : Nat :=
  if a.bad || b.bad then 0x7FC00000
  else match ofF32 c with
  | .nan => 0x7FC00000
  | .inf n => if ofF32 (toF32 (sumBlocks a b)) = .inf (!n) then 0x7FC00000 else c
  | .fin n m e =>
    match numAdd (.fin n m e) (sumBlocks a b) with
    | .fin _ 0 _ => if n && m == 0 && allZero a b then 0x80000000 else 0
    | v => toF32 v

/-- A row of C after the command, as bytes. -/
def accumRow (zero : Bool) (crow : List Byte) (a : MatLine) (cols : List MatLine) : List Byte :=
  cols.zipIdx.flatMap fun b =>
    leBytes 4 (accumulate (if zero then 0 else leNat ((crow.drop (4 * b.2)).take 4)) a b.1)

/-! ## Operand fetch (R317, R322) -/

/-- What one task's operands come to: its part of A and of B. -/
structure MatPart where
  a : List MatLine
  b : List MatLine
  deriving DecidableEq, Repr

/-- A fetch that fails, with the rows of A that a remote fetch keeps (R322). -/
structure MatErr where
  err : EngErr
  /-- It struck the remote fetch of A (R322). -/
  fetch : Bool := false
  rows : Nat := 0
  kept : List Byte := []
  /-- The state it leaves, where that is not the one before: rows written before the failing one (R166). -/
  left : Option State := none

/-- Rows of A from memory, from row r on: the rows, or the fault with the rows read before it. -/
def fetchRows (s : State) (e : Eng) (x : Ctx) (base : Place) (stride n : Nat) (kept : List Byte) : List Nat → Except MatErr (List Byte)
  | [] => .ok kept
  | j :: js =>
    match readRow s e x [] (rowAt base stride j) n with
    | .error er => .error { err := er, fetch := true, rows := j, kept := kept }
    | .ok r => fetchRows s e x base stride n (kept ++ r.bytes) js

/-- Rows of `n` bytes that the staging of the context keeps for a command: how many, and their bytes (R322). -/
def Ctx.stagedRows (x : Ctx) (t : Task) (n : Nat) : Nat × List Byte :=
  if x.fetchV && x.fetchTask == t.num then (x.fetchRows.toNat, x.fetchBytes.take (x.fetchRows.toNat * n)) else (0, [])

/-- The rows of A of a command: through the operand fetcher with KA = 1, else from the folio. -/
def readA (s : State) (e : Eng) (x : Ctx) (t : Task) (a : Place) (port : Option Nat) (rows stride n : Nat) :
    Except MatErr (List (List Byte) × List RowRead) :=
  match a with
  | .mem .. =>
    match fetchRows s e x a stride n (x.stagedRows t n).2 ((List.range rows).drop (x.stagedRows t n).1) with
    | .error er => .error er
    | .ok bs => .ok ((List.range rows).map fun j => (bs.drop (j * n)).take n, [])
  | .fol _ =>
    let base := match port with | some _ => Place.fol (BitVec.ofNat 64 ((t.popped.getD 0).toNat % 2 ^ 32)) | none => a
    match readRows s e x base stride n (List.range rows) with
    | .error er => .error { err := er }
    | .ok rs => .ok (rs.map (·.bytes), rs)

/-- Scales of `lines` rows or columns, in the folio. -/
def readScales (s : State) (e : Eng) (x : Ctx) (used : Bool) (so lines nb : Nat) : Except MatErr (List RowRead) :=
  if !used then .ok []
  else match readRows s e x (.fol (BitVec.ofNat 64 (64 * so))) nb nb (List.range lines) with
  | .error er => .error { err := er }
  | .ok rs => .ok rs

/-- Columns of B of a logical slot; a slot at or above the reserved count reads as zero (R317). -/
def readSlot (s : State) (core : Nat) (x : Ctx) (slot cols n : Nat) : List (List Byte) :=
  (List.range cols).map fun j => (List.range n).map fun i =>
    match opByte x slot (j * n + i) with
    | some a => SMap.get 0 (s.core core).opfolio a
    | none => 0

/-- The first of the operand bytes of a slot that stands in a word with an uncorrectable error (R411, R413). -/
def slotBad (s : State) (core : Nat) (x : Ctx) (slot n : Nat) : Option Nat :=
  if (s.core core).opPoison.isEmpty then none
  else (List.range n).find? fun i => match opByte x slot i with | some a => (s.core core).opPoison.contains (a / 8) | none => false

/-- Record a slot at or above the reserved count (R317). -/
def noteSlot (s : State) (e : Eng) (x : Ctx) (slot : Nat) : State :=
  if slot < x.opslots.length then s else noteTile s e 4 [BitVec.ofNat 64 (slot * 8192)]

/-- Take a command's operands into the engine: rows of A, scales, columns of B; `lines` is 128, or 64 for a member of a joint. What it has taken in
already stays as it is (R344, R379). -/
def fetchStage (s : State) (e : Eng) (x : Ctx) (t : Task) (f : Fmt) (a : Place) (port : Option Nat) (slot stride lines : Nat) :
    Except MatErr (State × Stage) :=
  match t.stage with
  | some g => .ok (s, g)
  | none =>
    match readA s e x t a port lines stride f.rowBytes with
    | .error er => .error er
    | .ok (arows, ar) =>
      match readScales s e x f.xa f.aso lines f.nb, readScales s e x f.xb f.bso lines f.nb, slotBad s e.core x slot (lines * f.rowBytes) with
      | .error er, _, _ => .error er
      | .ok _, .error er, _ => .error er
      | .ok _, .ok _, some i => .error { err := .fault 0x0C 0 (BitVec.ofNat 64 (slot * 8192 + i)) false none }
      | .ok sa, .ok sb, none =>
        .ok (noteSlot (noteReads (noteReads (noteReads s e ar) e sa) e sb) e x slot,
          { a := arows, sa := sa.map (·.bytes), b := readSlot s e.core x slot lines f.rowBytes, sb := sb.map (·.bytes) })

/-- The aligned rows and columns of the operands taken in (R281). -/
def Stage.part (g : Stage) (f : Fmt) : MatPart :=
  { a := g.a.zipIdx.map fun r => matLine f.ta f.xa f.nb r.1 ((g.sa[r.2]?).getD [])
    b := g.b.zipIdx.map fun c => matLine f.tb f.xb f.nb c.1 ((g.sb[c.2]?).getD []) }

/-- Read C, accumulate and write it back (R319). -/
def writeProduct (s : State) (e : Eng) (x : Ctx) (num : Nat) (c : Word) (zero : Bool) (p : MatPart) : Except EngErr State :=
  match (if zero then .ok [] else readRows s e x (.fol c) 512 512 (List.range 128)) with
  | .error er => .error er
  | .ok cr =>
    let l := landRows (noteReads s e cr) e num [] false (p.a.zipIdx.map fun a =>
      (rowAt (.fol c) 512 a.2, accumRow zero ((cr[a.2]?).map (·.bytes) |>.getD []) a.1 p.b))
    match l.err with
    | some er => .error er
    | none => .ok (noteTile l.state e 5 l.oobs)

/-- An MMA runs. -/
def runMatrix (s : State) (e : Eng) (x : Ctx) (t : Task) (f : Fmt) (a : Place) (port : Option Nat) (slot : Nat) (c : Word) (stride : Nat) (zero : Bool) :
    Except MatErr State :=
  match fetchStage s e x t f a port slot stride 128 with
  | .error er => .error er
  | .ok (s, g) =>
    match writeProduct s e x t.num c zero (g.part f) with
    | .error er => .error { err := er }
    | .ok s => .ok s

/-! ## Joint products (R324, R325, R382, R383) -/

/-- The quadrant of member `p`: rows 128 qi on of the joint A and columns 128 qj on of the joint B. -/
def quadrant (parts : List MatPart) (p : Nat) : MatPart :=
  let part := fun i : Nat => parts[i]?.getD { a := [], b := [] }
  { a := (part (2 * (p / 2))).a ++ (part (2 * (p / 2) + 1)).a, b := (part (2 * (p % 2))).b ++ (part (2 * (p % 2) + 1)).b }

end Sys2Proof.Machine
end

