-- ==== Sys2Proof/Machine/Tasks.lean ====
section
/-! DEFINITION. The life of a task before it runs: waits, readiness, loans and effective values (16 R249-R258, 21 R335-R345). -/

namespace Sys2Proof.Machine

/-! ## Bound queues of a task (R213, R305, R327) -/

/-- The operand port a command pops: engine and port. -/
def popPort (c : Cmd) : Option (Nat × Nat) :=
  match c with
  | .matrix _ (some p) .. => some (0, p)
  | .chain l _ _ _ crc => (chainList l crc).bind fun l => if l.qe then some (1, l.qp.val) else none
  | _ => none

/-- The result port a command pushes to: engine and port; for a copy, its channel. -/
def pushPort (q : Nat) (c : Cmd) : Option (Nat × Nat) :=
  match c with
  | .copy .. | .copyO .. => some (2, q - 2)
  | .chain l _ _ _ crc => (chainList l crc).bind fun l => if l.res = 0 then none else some (1, l.rp.val)
  | _ => none

/-- Slot of a resident context. -/
def refSlot : CtxRef → Nat
  | .resident _ i => i
  | .shadow _ i => i

/-- The bound queue a task pops. -/
def popQueue (s : State) (ref : CtxRef) (t : Task) : Option (CtxRef × Nat × BoundQ) :=
  (popPort t.cmd).bind fun p => consumerQueue s (refCore ref) (refSlot ref) p.1 p.2
/-- The bound queue a task pushes to. -/
def pushQueue (s : State) (ref : CtxRef) (q : Nat) (t : Task) : Option (CtxRef × Nat × BoundQ) :=
  (pushPort q t.cmd).bind fun p => producerQueue s (refCore ref) (refSlot ref) p.1 p.2

/-- The bound queue it pops has no ready entry; a queue that is not bound faults when the task starts (R215). -/
def popEmpty (s : State) (ref : CtxRef) (t : Task) : Bool :=
  t.popped.isNone && (match popQueue s ref t with | some (_, _, b) => !b.entries.any (·.st == .ready) | none => false)
/-- The bound queue it pushes to is full. -/
def pushFull (s : State) (ref : CtxRef) (q : Nat) (t : Task) : Bool :=
  match pushQueue s ref q t with
  | some (_, _, b) => !b.closing && b.depth ≤ b.entries.length
  | none => false
/-- Past waiting, a task is ready once its bound queues let it (R341). -/
def available (s : State) (ref : CtxRef) (q : Nat) (t : Task) : Bool := !popEmpty s ref t && !pushFull s ref q t

/-! ## Commit (R166, R213, R250) -/

/-- Memory bytes of a list of tasks in acceptance order. -/
def storesOf (ts : List (Nat × Task)) : List (Xl × Byte) :=
  ((ts.map (·.2)).insertionSort fun a b => a.num ≤ b.num).flatMap (·.stores)

/-- Count a self-check cause (R416). -/
def countSdc (s : State) (core : Nat) (c : EngineCause) : State :=
  match c with
  | .traceMismatch => s.modCore core fun k => { k with rasSdcTrace := satInc k.rasSdcTrace }
  | .mathSdc => s.modCore core fun k => { k with rasSdcMath := satInc k.rasSdcMath }
  | .storeSdc => s.modCore core fun k => { k with rasSdcStore := satInc k.rasSdcStore }
  | _ => s

/-- The first task of a phase that holds a row which differs from its CRC, with its queue. -/
def rowBadIn (x : Ctx) (id : PhaseId) : Option (Nat × Task) := (x.tasksOf id).find? fun e => e.2.rowBad

/-- A held row fails its check as it enters the memory-side write buffer: STORE_SDC, class A (R254). -/
def storeSdc (s : State) (ref : CtxRef) (id : PhaseId) (q : Nat) (t : Task) : State :=
  abortPhase (countSdc s (refCore ref) .storeSdc) ref id
    { code := 0x23, engine := engineOf q, stage := 0, addr := 0, strand := t.strand, classD := false, hold := none, halt := false }

/-- A held store would reach a byte of a queued or running blotter job; it waits until the job is complete (R389). -/
def storesWait (s : State) (x : Ctx) (id : PhaseId) : Bool := (x.tasksOf id).any fun e => e.2.stores.any fun b => s.blotHeld b.1.key

/-- Commit a phase: its held stores perform, its pushes become ready and its pops are freed, SEQ counts, RUN clears (R166, R171, R213). -/
def commitPhase (s : State) (ref : CtxRef) (id : PhaseId) : State :=
  match s.findCtx ref with
  | none => s
  | some x =>
    match rowBadIn x id with
    | some (q, t) => storeSdc s ref id q t
    | none =>
    let s := s.perform (storesOf (x.tasksOf id))
    let s := (x.tasksOf id).foldl (fun s e => dropTransfer s x e.2) s
    let s := mapQueues s (·.commit (x.uid, id))
    s.modRef ref fun x =>
      let y := x.mapTasks fun t => if t.phaseId = id then { t with committed := true, stores := [], sums := [], holds := [] } else t
      { y.portsCommit id with seqNo := y.seqNo + 1, run := 0, strands := y.strands.map fun k : Strand => { k with mismatchAt := none, tracer := {} } }

/-- A phase of a task's own commits when all its tasks are done (R250). -/
def commitOwn (s : State) (ref : CtxRef) (t : Task) : State :=
  match s.findCtx ref with
  | none => s
  | some x =>
    if t.phase.isSome || (x.tasksOf t.phaseId).any fun e => e.2.st != .done then s else commitPhase s ref t.phaseId

/-- A task is done: it completes with its queue's signals due (R249). -/
def taskDone (s : State) (ref : CtxRef) (num : Nat) : State :=
  match s.findCtx ref with
  | none => s
  | some x =>
    match x.task num with
    | none => s
    | some (_, t) =>
      let s := s.modRef ref fun x => x.modTask num fun t => { t with st := .done, started := true, stalled := false, comp := none }
      (commitOwn s ref t).modRef ref fun x => x.signals.pops

/-! ## Leaving queued and waiting (R249, R252, R257, R258, R385) -/

/-- A started task, or one that is done. -/
def Task.begun (t : Task) : Bool := t.started || t.st == .done

/-- The command a task follows has completed (R257, R321). -/
def leadDone (x : Ctx) (t : Task) : Bool :=
  match t.after with
  | none => true
  | some n => match x.task n with | some (_, l) => l.st == .done | none => true

/-- The phase of a task is open and nothing holds it (R162, R259). -/
def phaseReady (x : Ctx) (t : Task) : Bool :=
  (x.holdOf t.phaseId).isNone && (match t.phase with | none => true | some n => x.phase.any fun h => h.num == n)

/-- A tile command has a valid format word (R258, R316). -/
def formatOk (t : Task) : Bool := !t.cmd.isMatrix || t.written || (t.fmt.bind fmtOf).isSome

/-- The first task of a queue that has not started. -/
def Ctx.front (x : Ctx) (q : Fin 6) : Option Task := x.queues[q].find? fun t => !t.begun

/-- A task would leave queued now: its older tasks have started, its phase is open and not held, its lead is done (R249). -/
def leaves (x : Ctx) (t : Task) : Bool := t.st == .queued && phaseReady x t && leadDone x t

/-- Take a task's wait: the count is reduced, which is a change of the counter (R203, R249). -/
def Ctx.takeWait (x : Ctx) (t : Task) : Ctx :=
  let c := x.getSem t.word.wsem.toNat
  let y := if t.word.wcount = 0 then x else x.writeSem t.word.wsem.toNat (c - t.word.wcount.setWidth 32)
  y.modTask t.num fun t => { t with waited := true }

/-- The wait of a task can be performed: the count is there, and it is not one that only a diagnostic store has brought (R73). -/
def waitFits (x : Ctx) (t : Task) : Bool := !(x.quiet.any fun e => e.1 == t.word.wsem.toNat && e.2.contains t.num) && t.word.wcount.toNat ≤ (x.getSem t.word.wsem.toNat).toNat

/-- A task's wait reads a counter with an uncorrectable error: class A (R413). -/
def waitPoisoned (s : State) (ref : CtxRef) (q : Fin 6) (t : Task) : State :=
  abortPhase (s.modDie (s.dieOf (refCore ref)) fun d => { d with ueUe := satInc d.ueUe }) ref t.phaseId
    { code := 0x0C, engine := engineOf q.val, stage := 0, addr := 0, strand := t.strand, classD := false, hold := none, halt := false }

/-- Advance the first task of a queue that has not started by one state; none when it stays. -/
def advanceFront (s : State) (ref : CtxRef) (q : Fin 6) : Option State :=
  match s.findCtx ref with
  | none => none
  | some x =>
    match x.front q with
    | none => none
    | some t =>
      let put := fun f : Task → Task => s.modRef ref fun x => x.modTask t.num f
      match t.st with
      | .queued => if leaves x t && formatOk t then some (put fun t => { t with st := .waiting }) else none
      | .waiting =>
        if !t.waited then (if x.semPoison.contains (t.word.wsem.toNat / 2) && t.word.wcount ≠ 0 then some (waitPoisoned s ref q t)
          else if waitFits x t then some (s.modRef ref fun x => x.takeWait t) else none)
        else if t.cmd = .null || t.written then some (taskDone s ref t.num)
        else if available s ref q.val t then some (put fun t => { t with st := .ready, since := s.time })
        else none
      | _ => none

/-- Advance a queue until nothing moves; 16 entries take at most three moves each. -/
def advanceQueue (ref : CtxRef) (q : Fin 6) : Nat → State → State
  | 0, s => s
  | n + 1, s => match advanceFront s ref q with | some t => advanceQueue ref q n t | none => s

/-- What holds a phase is gone: the page is resident, the leaf is back (R168, R357). -/
def holdOver (s : State) (ref : CtxRef) (x : Ctx) : Hold → Bool
  | .page va _ => match s.xlate (s.unitAgent ref x) .rd va with | .error .absent => false | _ => true
  | .leaf l => x.leafHere l
  | _ => false

/-- Release the phases whose page or leaf has come. -/
def releaseHolds (s : State) (ref : CtxRef) : State :=
  match s.findCtx ref with
  | none => s
  | some x => (x.phases.filter fun id => (x.holdOf id).any (holdOver s ref x)).foldl (fun s id => s.modRef ref fun x => x.release id) s

/-- A context on the core whose strands and tasks move (R359, R360). -/
def Ctx.moving (x : Ctx) : Bool := x.rung == .running || x.rung == .soft

/-- Wait instructions that are acquires at domain scope and have completed (R234). -/
def settleAcquires (s : State) (ref : CtxRef) : State :=
  match s.findCtx ref with
  | none => s
  | some x =>
    if x.strands.any fun t => t.domAcquire && t.wait.isNone then
      (s.dropMargin (s.dieOf (refCore ref))).modRef ref fun x =>
        { x with strands := x.strands.map fun t : Strand => if t.wait.isNone then { t with domAcquire := false } else t }
    else s

/-- A ready task that may not draw, its bound queue or its context not letting it, begins a new wait when it may again (R346). -/
def Ctx.restartWaits (x : Ctx) (s : State) (ref : CtxRef) : Ctx :=
  (List.finRange 6).foldl (fun (y : Ctx) q =>
    if x.queues[q].any fun t => t.st == .ready && (!x.moving || !available s ref q.val t) then
      { y with queues := y.queues.set q (y.queues[q].map fun t => if t.st == .ready && (!x.moving || !available s ref q.val t) then { t with since := s.time } else t) }
    else y) x

/-- Bring one resident context to rest: holds, queues, waiting barriers, unbinds and pops, signals, tokens that waits
owe. -/
def settleCtx (s : State) (ref : CtxRef) : State :=
  match s.findCtx ref with
  | none => s
  | some x =>
    let s := if x.fixed = 0 then s else
      (s.modDie (s.dieOf (refCore ref)) fun d => { d with ceFolio := Nat.repeat satInc x.fixed d.ceFolio }).modRef ref fun x => { x with fixed := 0 }
    let x := { x with fixed := 0 }
    if !x.moving then s.modRef ref (·.restartWaits s ref)
    else
      let s := releaseHolds (if x.semq.isEmpty then s else s.putCtx ref x.serveAll) ref
      let s := (List.finRange 6).foldl (fun s q => advanceQueue ref q 64 s) s
      let s := s.modRef ref fun x =>
        let y := x.settleSbar.settleUnbind.pops.signals
        { y with strands := y.strands.map (·.payTokens) }
      (settleAcquires s ref).modRef ref (·.restartWaits s ref)

/-! ## Values and loans (R337-R342, R345) -/

/-- Base value of a task (R337). -/
def taskValue (s : State) (x : Ctx) (t : Task) : Nat :=
  s.baseValue (if t.word.tickets = 0 then x.tickets.toNat else t.word.tickets.toNat) x.currency.toNat

/-- Repayment account of a context's tenant. -/
def repayOf (s : State) (x : Ctx) : Nat := match s.tenantOf x.currency.toNat with | some c => SMap.get 0 s.repay c | none => 0

/-- A task is ready for a draw: in the ready state and past any stall (R335, R344). -/
def drawable (s : State) (ref : CtxRef) (q : Nat) (t : Task) : Bool := t.st == .ready && !t.stalled && available s ref q t

/-- Own value (R338 stage 1): compensation, then repayment for a ready task, capped at 8v. -/
def ownValue (s : State) (ref : CtxRef) (x : Ctx) (q : Nat) (t : Task) : Nat :=
  let v := taskValue s x t
  let w := match t.comp with | some (b, u) => Nat.min (8 * v) (v * b / u) | none => v
  if repayOf s x > 0 && drawable s ref q t then Nat.min (8 * v) (2 * w) else w

/-- A task of a resident context, named. -/
structure Named where
  ref : CtxRef
  q : Nat
  task : Task
  deriving DecidableEq, Repr

/-- Tasks of every resident context of the package that are not done. -/
def residentTasks (s : State) : List Named :=
  s.contexts.flatMap fun e =>
    match e.1 with
    | .resident .. => (e.2.tasks.filter fun t => t.2.st != .done).map fun t => { ref := e.1, q := t.1, task := t.2 }
    | .shadow .. => []

/-- The oldest task not done of a queue of a resident context. -/
def oldestIn (ts : List Named) (core slot q : Nat) : Option Named :=
  ts.find? fun n => n.ref == .resident core slot && n.q == q

/-- A copy fills the operand a task waits for. -/
def fills (t c : Task) : Bool :=
  match t.cmd, c.cmd with
  | .matrix a _ _ .., .copy _ dst .. => dst == a
  | .matrix _ _ slot .., .copyO _ first n => first ≤ slot && slot * 8192 < first * 8192 + n
  | .chain _ a b _ _, .copy _ dst .. => dst == a || dst == b
  | _, _ => false

/-- A task is past waiting and may not draw (R341). -/
def stuck (s : State) (n : Named) : Bool := (n.task.st == .waiting && n.task.waited) || (n.task.st == .ready && !drawable s n.ref n.q n.task)

/-- A task is blocked, with the task it lends to, if any (R341). -/
def blockedOn (s : State) (ts : List Named) (n : Named) : Bool × Option Named :=
  let mine := ts.filter fun m => m.ref == n.ref
  let t := n.task
  match s.findCtx n.ref with
  | none => (false, none)
  | some x =>
    if t.st == .waiting && !t.waited then
      (true, (mine.filter fun m => m.task.word.ssem == t.word.wsem && m.task.word.scount != 0).foldl
        (fun (b : Option Named) m => match b with | some c => if m.task.num < c.task.num then some m else some c | none => some m) none)
    else if t.st == .queued && t.cmd.isMatrix && !leadDone x t then
      (true, mine.find? fun m => some m.task.num == t.after)
    else if stuck s n && popEmpty s n.ref t then
      (true, (popQueue s n.ref t).bind fun b => oldestIn ts b.2.2.prod.core b.2.2.prod.slot (if b.2.2.prod.eng = 2 then 2 + b.2.2.prod.port.val else b.2.2.prod.eng.val))
    else if stuck s n && pushFull s n.ref n.q t then
      (true, (pushQueue s n.ref n.q t).bind fun b => oldestIn ts b.2.2.cons.core b.2.2.cons.slot b.2.2.cons.eng.val)
    else if t.st == .ready && t.stalled then (true, mine.find? fun m => fills t m.task)
    else (false, none)

/-- Same task. -/
def Named.same (a b : Named) : Bool := a.ref == b.ref && a.task.num == b.task.num

/-- The tasks a lender's value reaches (R341): at most four, stopping at the lender, a task on the path, or one not blocked. -/
def loanPath (s : State) (ts : List Named) (l : Named) : Nat → Named → List Named → List Named
  | 0, _, path => path
  | d + 1, u, path =>
    match (blockedOn s ts u).2 with
    | none => path
    | some v =>
      if v.same l || path.any v.same then path
      else if (blockedOn s ts v).1 then loanPath s ts l d v (path ++ [v]) else path ++ [v]

/-- Every loan of the package: lender's own value and the tasks it reaches. -/
def loans (s : State) : List (Nat × List Named) :=
  let ts := residentTasks s
  (ts.filter fun n => (blockedOn s ts n).1).filterMap fun l =>
    (s.findCtx l.ref).map fun x => (ownValue s l.ref x l.q l.task, loanPath s ts l 4 l [])

/-- Effective value of a task under the loans in place (R338, R341). -/
def effective (s : State) (ls : List (Nat × List Named)) (n : Named) : Nat :=
  match s.findCtx n.ref with
  | none => 0
  | some x => Nat.min vmax (ls.foldl (fun v l => if l.2.any n.same then v + l.1 else v) (ownValue s n.ref x n.q n.task))

/-! ## Ready sets (R335, R349, R359) -/

/-- A task may win under a soft request (R359); the ladder does not act on a context in the diagnostic view (R72). -/
def mayWin (x : Ctx) (t : Task) : Bool :=
  x.rung == .running || x.diag || (x.rung == .soft && (t.started || (match t.phaseId with
    | .opened n => (x.tasksOf (.opened n)).any fun e => e.2.started
    | .own _ => false)))

/-- Queues of an engine. -/
def engineQueues (eng : Engine) : List (Fin 6) :=
  match eng with
  | .le => [0]
  | .ve => [1]
  | .ce => [2, 3, 4, 5]

/-- The heads in the ready set of one engine of a core, in slot order, with their slot numbers; a soft request leaves them there (R335, R359). -/
def heads (s : State) (core : Nat) (eng : Engine) : List (Nat × Named) :=
  (s.core core).slots.flatMap fun e =>
    (engineQueues eng).zipIdx.filterMap fun q =>
      match e.2.headOf q.1 with
      | some t =>
        if drawable s (.resident core e.1) q.1.val t && e.2.moving then some (4 * e.1 + q.2, { ref := .resident core e.1, q := q.1.val, task := t }) else none
      | none => none

/-- Launch of a named task's context. -/
def launchOf (s : State) (n : Named) : Nat := ((s.findCtx n.ref).map (·.launch)).getD 0

/-- The four members of a joint whose member 0 is `n`: each core of the quad holds a head of the same launch and tag that may draw (R325). -/
def jointOf (s : State) (core : Nat) (n : Named) : Option (List Named) :=
  if core % 4 ≠ 0 then none
  else (quadCores core).mapM fun c =>
    if c = core then some n
    else ((heads s c .le).map (·.2)).find? fun m => m.task.cmd.jointTag == n.task.cmd.jointTag && launchOf s m == launchOf s n && !m.task.written

/-- An entry of a ready set: slot number, the tasks it starts (four for a joint), and whether one of them is overdue (R346). -/
structure Entry where
  slot : Nat
  members : List Named
  deriving DecidableEq, Repr

/-- The ready set of a unit. A QMMA stands only in member 0's set, and only as part of a joint. -/
def readySet (s : State) (core : Nat) (eng : Engine) : List Entry :=
  (heads s core eng).filterMap fun h =>
    if h.2.task.cmd.jointTag.isSome then (jointOf s core h.2).map fun ms => { slot := h.1, members := ms }
    else some { slot := h.1, members := [h.2] }

/-- An entry may win: under a soft request only in the cases of R359. -/
def Entry.mayWin (s : State) (e : Entry) : Bool := e.members.all fun n => (s.findCtx n.ref).any fun x => Machine.mayWin x n.task

/-- Effective value of an entry: for a joint the members' sum, capped (R349). -/
def entryValue (s : State) (ls : List (Nat × List Named)) (e : Entry) : Nat :=
  Nat.min vmax ((e.members.map (effective s ls)).foldl (· + ·) 0)

/-- A task has waited past half its context's bound (R346). -/
def overdue (s : State) (n : Named) : Bool :=
  match s.findCtx n.ref with
  | some x => x.admitted && decide (s.time - n.task.since > x.bound.toNat / 2)
  | none => false

/-- When the member of an entry that has been ready longest became ready. -/
def Entry.oldest (e : Entry) : Nat := ((e.members.map fun m => m.task.since).min?).getD 0

/-! ## Engines (R334, R349) -/

/-- Tasks that run on an engine. -/
def onEngine (s : State) (core : Nat) (eng : Engine) : Nat :=
  ((s.core core).slots.flatMap fun e => (engineQueues eng).flatMap fun q => e.2.queues[q].filter fun t => t.st == .running).length
/-- Positions of an engine that are taken: by running tasks, and by winners that start next (R334, R349). -/
def runningOn (s : State) (core : Nat) (eng : Engine) : Nat :=
  ((s.core core).slots.flatMap fun e => (engineQueues eng).flatMap fun q => e.2.queues[q].filter fun t => t.st == .running || t.won.isSome).length

/-- A residency draw is due: it goes before a task draw of the unit (R340, R356). -/
def drawDue (s : State) (core : Nat) : Bool :=
  !(s.core core).drawWaits.isEmpty && (s.core core).freeLeaves.isEmpty && (drawCandidates s core).any fun c => c.2.2 != 0

/-- An engine has a free position for a draw; a spill goes ahead of any copy start, and nothing starts while TTRIP holds every
engine (R334, R357, R423). -/
def engineFree (s : State) (core : Nat) (eng : Engine) : Bool :=
  !s.ttripHold && !(s.core core).zeroising &&
    (match eng with
     | .ce => (s.core core).spills.isEmpty && !drawDue s core && decide (runningOn s core .ce < (s.core core).lanes.toNat)
     | .ve => runningOn s core .ve = 0
     | .le => runningOn s core .le = 0)

/-- Draw unit of an engine. -/
def unitOf (eng : Engine) : Fin 3 :=
  match eng with
  | .le => 0
  | .ve => 1
  | .ce => 2

/-- What a unit's next task draw comes to: the entry that wins, the unit after the draw, and whether it was an overdue slot's (R340, R346). -/
def pickEntry (s : State) (core : Nat) (eng : Engine) : Option (Entry × Tdu × Bool) :=
  if !engineFree s core eng then none
  else
    let es := readySet s core eng
    let g := (s.core core).tdu[unitOf eng]
    let late := if (g.cnt.toNat + 1) % 8 = 0 then es.filter fun e => e.members.any (overdue s) && e.mayWin s else []
    match late with
    | [] =>
      let ls := loans s
      match g.draw (es.map (entryValue s ls)) with
      | none => none
      | some (i, g') => (es[i]?).map fun e => (e, { g' with cnt := g.cnt + 1 }, false)
    | e :: r => some (r.foldl (fun b c => if c.oldest < b.oldest || (c.oldest == b.oldest && c.slot < b.slot) then c else b) e, { g with cnt := g.cnt + 1 }, true)

end Sys2Proof.Machine
end

