-- ==== Sys2Proof/Machine/Phases.lean ====
section
/-! DEFINITION. Engine events: draws, starts, completions and releases of tasks, joint products, commits and aborts of phases,
delivery of class D events (21 R334-R350, 24 R379-R387, 09 R159-R171). -/

namespace Sys2Proof.Machine

/-! ## Abort for an engine's fault (R162-R168) -/

/-- Engine of a queue as cr.cause names it (R156). -/
def abortFor (s : State) (ref : CtxRef) (q : Nat) (t : Task) (code stage : Nat) (addr : Word) (classD : Bool) (hold : Option Hold) : State :=
  abortPhase s ref t.phaseId { code := code, engine := engineOf q, stage := stage, addr := addr, strand := t.strand, classD := classD, hold := hold, halt := false }

/-- Ask for what a class A abort waits for. -/
def askHold (s : State) (ref : CtxRef) (h : Option Hold) : State :=
  match h, s.findCtx ref with
  | some (.page va _), some x => askResident s (s.unitAgent ref x) va
  | _, _ => s

/-- Count a failed engine read at its owner (R413, R426). -/
def countEng (s : State) (ref : CtxRef) (code : Nat) (addr : Word) : State :=
  match s.findCtx ref with
  | some x =>
    let ag := s.unitAgent ref x
    if code = 0x0C then countError s ag .memUe addr else if code = 0x0D then countError s ag .memIntegrity addr else s
  | none => s

/-- A wait for a page names the task whose access missed it (R170). -/
def Hold.forTask (n : Nat) : Hold → Hold
  | .page va _ => .page va n
  | h => h

/-- Engine work fails: the phase aborts, or the work waits as it is. -/
def engFail (s : State) (ref : CtxRef) (q : Nat) (t : Task) (e : EngErr) : State :=
  match e with
  | .fault code stage addr classD hold =>
    let hold := hold.map (·.forTask t.num)
    askHold (abortFor (countEng s ref code addr) ref q t code stage addr classD hold) ref hold
  | .waits => s

/-! ## Starting a task (R188, R327, R334) -/

/-- Pages of a byte range, by base address. -/
def pagesOf (va : Word) (extent : Nat) : List Word :=
  (List.range ((va.toNat % 4096 + extent + 4095) / 4096)).map fun i => pageBase va + BitVec.ofNat 64 (4096 * i)

/-- Translate pages for a transfer; the error names the failing page's first byte of the range. -/
def pageXls (s : State) (ag : Agent) (k : Kind) (va : Word) : List Word → Except (MemErr × Word) (List (Word × Xl))
  | [] => .ok []
  | p :: ps =>
    match s.xlate ag k p with
    | .error e => .error (e, if p.toNat < va.toNat then va else p)
    | .ok x => (pageXls s ag k va ps).map fun r => (p, x) :: r

/-- The memory ranges of a transfer with the access they need. -/
def transferRanges (c : Cmd) : List (Word × Nat × Kind) :=
  let one := fun (p : Place) (n : Nat) (k : Kind) => match p with | .mem va _ _ => [(va, n, k)] | .fol _ => []
  match c with
  | .copy src dst _ len rows ss ds _ => one src (extentOf rows ss len) .rd ++ one dst (extentOf rows ds len) .wr
  | .copyO src _ len => one src len .rd
  | _ => []

/-- Every page of a transfer (R188). -/
def transferPages (s : State) (ag : Agent) : List (Word × Nat × Kind) → Except (MemErr × Word) (List (Word × Xl))
  | [] => .ok []
  | (va, n, k) :: r =>
    match pageXls s ag k va (pagesOf va n) with
    | .error e => .error e
    | .ok xs => (transferPages s ag r).map fun ys => xs ++ ys

/-- Frames of translated pages, each once: die, base, size code. -/
def framesOf (ps : List (Word × Xl)) : List (Nat × Nat × Nat) :=
  ((ps.filter fun p => keyNear p.2.key).map fun p => (keyDie p.2.key, p.2.frame, leafSize p.2.hent)).dedup

/-- Take the pages and frame holds of a starting transfer, or abort (R188). -/
def takePages (s : State) (ref : CtxRef) (q : Nat) (x : Ctx) (t : Task) : State :=
  if t.pages ≠ [] then s
  else match transferPages s (s.unitAgent ref x) (transferRanges t.cmd) with
  | .error (e, a) => engFail s ref q t (engErr e a)
  | .ok ps => (holdAll s (framesOf ps) true).modRef ref fun x => x.modTask t.num fun t => { t with pages := ps, holds := framesOf ps }

/-- Take the oldest ready entry. -/
def takeEntry (who : Nat × PhaseId) : List QEntry → Option (Word × List QEntry)
  | [] => none
  | e :: r => if e.st = .ready then some (e.val, { e with st := .taken, who := who } :: r) else (takeEntry who r).map fun p => (p.1, e :: p.2)

/-- Pop the operand a task takes when it starts (R213, R304, R327). -/
def popOperand (s : State) (ref : CtxRef) (q : Nat) (x : Ctx) (t : Task) : State :=
  if (popPort t.cmd).isNone || t.popped.isSome then s
  else
    let fail := fun s : State => abortFor s ref q t 0x09 0 0 true none
    match popQueue s ref t with
    | none => fail s
    | some (r, n, b) =>
      match takeEntry (x.uid, t.phaseId) b.entries with
      | none => s
      | some (v, es) =>
        let s := putBound s (r, n, { b with entries := es })
        let ext := fun y : Ctx => match t.cmd with
          | .matrix _ (some _) _ _ stride _ _ tag => y.leavesOf (BitVec.ofNat 64 (v.toNat % 2 ^ 32)) (extentOf (if tag.isSome then 64 else 128) stride (((t.fmt.bind fmtOf).map (·.rowBytes)).getD 64))
          | _ => []
        let s := s.modRef ref fun y => y.modTask t.num fun t => { t with popped := some v, leafs := t.leafs ++ ext y }
        if t.cmd.isMatrix && v.toNat % 8 ≠ 0 then fail s else s

/-- A task starts: it runs from now on; a released one goes on with its progress (R334, R344). The binding of the port is decided here (log 106). -/
def startTask (s : State) (n : Named) : State :=
  match s.findCtx n.ref with
  | none => s
  | some x =>
    let s := s.modRef n.ref fun x => x.modTask n.task.num fun t =>
      { t with st := .running, started := true, won := none, startAt := s.time, movedAt := s.time
               pushes := (t.started && t.pushes) || (pushQueue s n.ref n.q t).isSome }
    let s := popOperand s n.ref n.q x n.task
    match (s.findCtx n.ref).bind fun y => (y.task n.task.num).map fun e => (y, e.2) with
    | some (y, t) => if t.st = .running then takePages s n.ref n.q y t else s
    | none => s

/-- The winners of a draw start in the next cycle, a joint's other members as their engines' next start; an entry that may not win under a soft request
starts nothing, and the generator's step stands (R334, R349, R359). What the draw used is used up: compensation, repayment, and the budget cap and
stall limit in force (R345, R352). -/
def markWin (s : State) (e : Entry) : State :=
  if e.mayWin s then e.members.foldl (fun s n =>
    let k := s.core (refCore n.ref)
    s.modRef n.ref fun x => x.modTask n.task.num fun t =>
      { t with won := some s.tick, comp := none, repaid := decide (repayOf s x > 0), cap := k.bcap.toNat, lim := k.stall.toNat * 64 }) s
  else s

/-- The winners of an earlier cycle's draws that are still to start, start; a joint's member once its engine's task has completed or released (R334, R349). -/
def startWinners (s : State) (core : Nat) : State :=
  if s.ttripHold || (s.core core).zeroising then s
  else ((s.core core).slots.flatMap fun e => (e.2.tasks.filter fun t => t.2.won.any (· < s.tick)).map fun t =>
      ({ ref := .resident core e.1, q := t.1, task := t.2 } : Named)).foldl (fun s n =>
    match (s.findCtx n.ref).bind (·.task n.task.num) with
    | some (_, t) => if t.won.isSome && (n.q != 0 || onEngine s core .le == 0) then startTask s { n with task := t } else s
    | none => s) s

/-- Store a draw unit. -/
def setUnit (s : State) (core : Nat) (eng : Engine) (g : Tdu) : State := s.modCore core fun k => { k with tdu := k.tdu.set (unitOf eng) g }

/-- TASK_DRAW: an ordinary draw whose winner is no joint; it starts in the next cycle (R334, R340). -/
def execTaskDraw (core : Nat) (eng : Engine) (s : State) : Out :=
  match pickEntry s core eng with
  | some (e, g, false) =>
    match e.members with
    | [_] => .next (markWin (setUnit s core eng g) e)
    | _ => .next s
  | _ => .next s

/-- OVERDUE_SLOT: every eighth draw goes to the longest-waiting overdue task without a step (R346). -/
def execOverdueSlot (core : Nat) (eng : Engine) (s : State) : Out :=
  match pickEntry s core eng with
  | some (e, g, true) =>
    match e.members with
    | [_] => .next (markWin (setUnit s core eng g) e)
    | _ => .next s
  | _ => .next s

/-! ## Joint products (R325, R349, R382-R387) -/

/-- The four format words agree in bits [15:0] (R325). -/
def formatsAgree (ms : List Named) : Bool :=
  match ms.map fun m => (m.task.fmt.getD 0).extractLsb' 0 16 with
  | [] => true
  | f :: r => r.all (· == f)

/-- JOINT_QMMA_START: the four disagree and abort, or the joint wins at member 0 (R325, R349). Each member starts when its engine is free: `settle`
does that. -/
def execJointQmmaStart (quad : Nat) (s : State) : Out :=
  let bad := (readySet s (4 * quad) .le).find? fun e => e.members.length = 4 && !formatsAgree e.members
  match bad with
  | some e => .next (e.members.foldl (fun s n => abortFor s n.ref 0 n.task 0x09 0 0 true none) s)
  | none =>
    match pickEntry s (4 * quad) .le with
    | some (e, g, _) =>
      match e.members with
      | _ :: _ :: _ => .next (markWin (setUnit s (4 * quad) .le g) e)
      | _ => .next s
    | none => .next s

/-- The running joint members of a quad that have not written, in member order; a context at the halt rung runs none (R384). -/
def jointRunning (s : State) (quad : Nat) : List Named :=
  (quadCores (4 * quad)).flatMap fun c => ((s.core c).slots.filter (·.2.moving)).flatMap fun e =>
    (e.2.queues[(0 : Fin 6)].filter fun t => t.st == .running && t.cmd.jointTag.isSome && !t.written).map fun t =>
      { ref := .resident c e.1, q := 0, task := t }

/-- A matrix command takes its operands in. -/
def stageTask (s : State) (ref : CtxRef) (x : Ctx) (t : Task) : Except MatErr (State × Stage) :=
  match t.fmt.bind fmtOf, t.cmd with
  | some f, .matrix a port slot _ stride _ _ tag =>
    fetchStage s { core := refCore ref, ref := ref, strand := t.strand } x t f a port slot stride (if tag.isSome then 64 else 128)
  | _, _ => .ok (s, { a := [], sa := [], b := [], sb := [] })

/-- The members of a joint take their operands in, in order; the first that fails is named. -/
def jointStages : List Named → State → Except (Named × MatErr) (State × List (Named × Stage))
  | [], s => .ok (s, [])
  | n :: r, s =>
    match s.findCtx n.ref with
    | some x =>
      match stageTask s n.ref x n.task with
      | .error er => .error (n, er)
      | .ok (s, g) => (jointStages r s).map fun q => (q.1, (n, g) :: q.2)
    | none => jointStages r s
/-- Their aligned parts. -/
def jointParts (gs : List (Named × Stage)) : List MatPart := gs.filterMap fun e => (e.1.task.fmt.bind fmtOf).map fun f => e.2.part f

/-- An older MMA or QMMA of the context names overlapping C bytes and has not written them: this one writes none before it (R323, R379). -/
def cWaits (x : Ctx) (t : Task) : Bool :=
  match t.cmd with
  | .matrix _ _ _ c .. => x.queues[(0 : Fin 6)].any fun u => decide (u.num < t.num) && u.st != .done && !u.written &&
      (match u.cmd with
       | .matrix _ _ _ d .. => decide (d.toNat < c.toNat + 65536) && decide (c.toNat < d.toNat + 65536)
       | _ => false)
  | _ => false

/-- Write each member's quadrant; the first that fails is named. -/
def jointWrites (parts : List MatPart) : List (Named × Nat) → State → Except (Named × EngErr) State
  | [], s => .ok s
  | (n, p) :: r, s =>
    match s.findCtx n.ref, n.task.cmd with
    | some x, .matrix _ _ _ c _ _ zero _ =>
      match writeProduct s { core := refCore n.ref, ref := n.ref, strand := n.task.strand } x n.task.num c zero (quadrant parts p) with
      | .error er => .error (n, er)
      | .ok s => jointWrites parts r (s.modRef n.ref fun x => x.modTask n.task.num fun t => { t with written := true })
    | _, _ => jointWrites parts r s

/-- A class D fault of a remote fetch leaves the rows before it in the staging of the context (R322). -/
def keepRows (s : State) (ref : CtxRef) (t : Task) (rows : Nat) (bs : List Byte) : State :=
  s.modRef ref fun x =>
    match x.task t.num with
    | some (_, k) => if k.st = .done then x else { x with fetchV := true, fetchRows := BitVec.ofNat 8 rows, fetchTask := t.num, fetchBytes := bs }
    | none => x

/-- Engine work fails where it stands, with what it had written to the folio (R166): its phase aborts; a remote fetch keeps its rows (R322). -/
def matFail (s : State) (ref : CtxRef) (q : Nat) (t : Task) (er : MatErr) : State :=
  let u := engFail (er.left.getD s) ref q t er.err
  match er.fetch, er.err with
  | true, .fault _ _ _ true _ => keepRows u ref t er.rows er.kept
  | _, _ => u

/-- JOINT_WRITE_INSTANT: every member's check has passed; each writes its quadrant (R383). -/
def execJointWriteInstant (quad : Nat) (s : State) : Out :=
  match jointRunning s quad with
  | [a, b, c, d] =>
    if [a, b, c, d].any fun n => (s.findCtx n.ref).any fun x => cWaits x n.task then .next s
    else match jointStages [a, b, c, d] s with
    | .error (n, er) =>
      match er.err with
      | .waits => .next s
      | _ => .next (matFail s n.ref 0 n.task er)
    | .ok (t, gs) =>
      match jointWrites (jointParts gs) [(a, 0), (b, 1), (c, 2), (d, 3)] t with
      | .error (n, er) => .next (engFail s n.ref 0 n.task er)
      | .ok u => .next u
  | _ => .next s

/-! ## Completion (R213, R249, R305, R322, R327) -/

/-- The result of a push. -/
inductive Pushed where
  | ok (s : State)
  | full
  | closed

/-- Push a result element of a task to its bound queue, or to the context's port (R213, R305, R327). A queue that is closing, or has gone since the task
started, takes none (R215). -/
def pushResult (s : State) (ref : CtxRef) (q : Nat) (x : Ctx) (t : Task) (v : Option Word) : Pushed :=
  match v, pushPort q t.cmd with
  | some v, some (eng, port) =>
    match pushQueue s ref q t with
    | some (r, n, b) =>
      if b.closing then .closed
      else if b.depth ≤ b.entries.length then .full
      else .ok (putBound s (r, n, { b with entries := b.entries ++ [{ val := v, st := .held, who := (x.uid, t.phaseId) }] }))
    | none =>
      if t.pushes then .closed
      else if eng ≠ 1 then .ok s
      else
        let p : Fin 4 := Fin.ofNat 4 port
        if x.ports[p].length ≥ 16 then .full
        else .ok (s.modRef ref fun x => { x with ports := x.ports.set p (x.ports[p] ++ [{ val := v, held := t.phase }]) })
  | _, _ => .ok s

/-- What a running command does: its state and the element it pushes. -/
def runCmd (s : State) (ref : CtxRef) (x : Ctx) (t : Task) : Except MatErr (State × Option Word) :=
  let e : Eng := { core := refCore ref, ref := ref, strand := t.strand }
  let landed := fun (l : Landed) (v : Option Word) => match l.err with | none => Except.ok (l.state, v) | some er => .error { err := er, left := some l.state : MatErr }
  match t.cmd with
  | .null => .ok (s, none)
  | .copy src dst op len rows ss ds crc => landed (runCopy s e x t src dst len rows ss ds crc) (some op)
  | .copyO src slot len =>
    match runCopyO s e x t src slot len with
    | .ok u => .ok (u, some (BitVec.ofNat 64 slot))
    | .error er => .error { err := er }
  | .chain l a b d crc => let r := runChain s e x t l a b d crc; landed r.1 r.2
  | .matrix a port slot c stride _ zero none =>
    match t.fmt.bind fmtOf with
    | some f => (runMatrix s e x t f a port slot c stride zero).map fun s => (s, none)
    | none => .ok (s, none)
  | .matrix .. => .ok (s, none)

/-- Bytes a transfer lands on its channel (R256). -/
def landedBytes (c : Cmd) : Nat :=
  match c with
  | .copy _ _ _ len rows .. => rows * len
  | .copyO _ _ len => len
  | _ => 0

/-- The release points of a task's run: bytes of a copy, rows of a chain, 32-element blocks of the K loop of a matrix command (R344). -/
def workOf (t : Task) : Nat :=
  match t.cmd with
  | .chain l _ _ _ crc => ((chainList l crc).map (·.rows)).getD 0
  | .matrix .. => ((t.fmt.bind fmtOf).map (·.nb)).getD 0
  | c => landedBytes c

/-- Memory streams of a command: whether it writes, first byte, extent and bytes moved (R402). -/
def memStreams (t : Task) : List (Bool × Word × Nat × Nat) :=
  let one := fun (p : Place) (w : Bool) (extent n : Nat) => match p with | .mem va _ _ => [(w, va, extent, n)] | .fol _ => []
  match t.cmd with
  | .copy src dst _ len rows ss ds _ => one src false (extentOf rows ss len) (rows * len) ++ one dst true (extentOf rows ds len) (rows * len)
  | .copyO src _ len => one src false len len
  | .chain list a b d crc =>
    match chainList list crc with
    | some l =>
      one a false l.extA (l.rows * l.ne * (l.ta.width / 8))
        ++ (if l.buse then one b false l.extB (if l.bmode = 1 ∨ l.bmode = 2 then l.extB else l.rows * l.ne * (l.tb.width / 8)) else [])
        ++ one d true l.extD (l.rows * l.ne * (l.td.width / 8))
    | none => []
  | .matrix a port _ _ stride _ _ tag =>
    match t.fmt.bind fmtOf, port with
    | some f, none => let rows := if tag.isSome then 64 else 128; one a false (extentOf rows stride f.rowBytes) (rows * f.rowBytes)
    | _, _ => []
  | .null => []

/-- Translated pages of a stream: those the transfer holds, else as they translate now. -/
def streamXls (s : State) (core : Nat) (x : Ctx) (t : Task) (m : Bool × Word × Nat × Nat) : List Xl :=
  let ps := pagesOf m.2.1 m.2.2.1
  if t.pages = [] then
    match pageXls s { die := s.dieOf core, part := x.part, asid := x.asid, vi := x.vi } (if m.1 then .wr else .rd) m.2.1 ps with
    | .ok xs => xs.map (·.2)
    | .error _ => []
  else (t.pages.filter fun p => ps.contains p.1).map (·.2)

/-- A command waits for a later window of its VI's budget (R402). -/
def hostLate (s : State) (core : Nat) (x : Ctx) (t : Task) : Bool := (memStreams t).any fun m => hostWaits s x (streamXls s core x t m) m.1
/-- A command is charged to its VI. -/
def hostPaid (s : State) (core : Nat) (x : Ctx) (t : Task) : State :=
  (memStreams t).foldl (fun s m => hostChargeN s x (streamXls s core x t m) m.1 m.2.2.2) s

/-- The lines of a stream are used (R405), and its pages counted for placement, once for each stream (R186). -/
def noteStreams (s : State) (core : Nat) (x : Ctx) (t : Task) : State :=
  (memStreams t).foldl (fun s m => (streamXls s core x t m).foldl (fun s y =>
    noteAccess (if m.1 then s.crossLinks [y] else s.useLines [y]) (s.dieOf core) y m.1) s) s

/-- The task at a place of a queue. -/
def taskAt (s : State) (ref : CtxRef) (queue pos : Nat) : Option (Ctx × Task) :=
  (s.findCtx ref).bind fun x => if h : queue < 6 then (x.queues[queue][pos]?).map fun t => (x, t) else none

/-- An older transfer of the channel has bytes still to land: a channel performs one at a time (R256). -/
def channelBusy (x : Ctx) (queue : Nat) (t : Task) : Bool :=
  decide (2 ≤ queue) && x.tasks.any fun e => e.1 == queue && decide (e.2.num < t.num) && e.2.started && e.2.st != .done && decide (e.2.progress < landedBytes e.2.cmd)

/-- A running task comes to its next release point (R344): the next piece of a transfer lands, which raises the channel's write pointer (R256); a row
of a chain is done; a block of the K loop is done, of a joint product at all four members. -/
def landPiece (core slot queue pos : Nat) (s : State) : Out :=
  let ref : CtxRef := .resident core slot
  let e := fun t : Task => ({ core := core, ref := ref, strand := t.strand } : Eng)
  let landed := fun (s : State) (t : Task) (n : Nat) => s.modRef ref fun x =>
    (x.land t.num (queue - 2) (t.progress + n)).modTask t.num fun t => { t with progress := t.progress + n, movedAt := s.time }
  match taskAt s ref queue pos with
  | none => .next s
  | some (x, t) =>
    if t.st ≠ .running || channelBusy x queue t || hostLate s core x t || workOf t ≤ t.progress || !x.moving then .next s
    else match t.cmd with
    | .copy src dst _ len rows ss ds crc =>
      let c := nextPiece (s.dieOf core) dst len ds t.progress crc
      let l := runPieces s (e t) x t src dst len rows ss ds crc [c]
      match l.err with
      | some er => .next (engFail l.state ref queue t er)
      | none => .next (landed l.state t c.2.2)
    | .copyO src slot len =>
      let n := Nat.min 64 (len - t.progress)
      match runChunk s (e t) x t src slot t.progress n with
      | .error er => .next (engFail s ref queue t er)
      | .ok u => .next (landed u t n)
    | .chain list a b d crc =>
      match chainList list crc with
      | none => .next s
      | some l =>
        let r := chainRows s (e t) x t l a b d crc t.progress 1
        match r.1.err with
        | some er => .next (engFail r.1.state ref queue t er)
        | none => .next (r.1.state.modRef ref fun x => x.modTask t.num fun t => { t with progress := t.progress + 1, acc := t.acc ++ r.2, movedAt := s.time })
    | .matrix .. =>
      let ns := if t.cmd.jointTag.isNone then [{ ref := ref, q := queue, task := t }] else if core % 4 = 0 then jointRunning s (core / 4) else []
      if t.cmd.jointTag.isSome && ns.length != 4 then .next s
      else match jointStages ns s with
      | .error (n, er) => .next (matFail s n.ref 0 n.task er)
      | .ok (u, gs) => .next (gs.foldl (fun u g => u.modRef g.1.ref fun x => x.modTask g.1.task.num fun t =>
          { t with progress := t.progress + 1, stage := some g.2, movedAt := s.time }) u)
    | .null => .next s

/-- The stores that a task's completion performs would reach a byte of a blotter job, so it waits (R250, R389). -/
def ownWaits (s : State) (ref : CtxRef) (t : Task) : Bool :=
  t.phase.isNone && (s.findCtx ref).any fun x => (x.tasksOf t.phaseId).all (fun e => e.2.st == .done || e.2.num == t.num) && storesWait s x t.phaseId

/-- TASK_COMPLETE (R249). Its holds and counts stay until its phase commits (R184, R188, log 110). A joint member completes only once all four have written (R325). -/
def execTaskComplete (core slot queue pos : Nat) (s : State) : Out :=
  let ref : CtxRef := .resident core slot
  match taskAt s ref queue pos with
  | none => .next s
  | some (x, t) =>
    if t.st ≠ .running || (t.cmd.jointTag.isSome && !t.written) || channelBusy x queue t || hostLate s core x t || (!t.written && cWaits x t) then .next s
    else match runCmd s ref x t with
    | .error er =>
      match er.err with
      | .waits => .next s
      | _ => .next (matFail s ref queue t er)
    | .ok (u, v) =>
      match pushResult u ref queue x t v with
      | .full => .next s
      | .closed => .next (abortFor s ref queue t 0x09 0 0 true none)
      | .ok u =>
        if ownWaits u ref t then .next s
        else
        let u := noteStreams (hostPaid u core x t) core x t
        let u := u.modRef ref fun x =>
          let y := (x.land t.num (queue - 2) (landedBytes t.cmd)).modTask t.num fun t => { t with pages := [], acc := [], stage := none }
          if y.fetchTask = t.num && t.cmd.isMatrix then { y with fetchV := false, fetchRows := 0, fetchBytes := [] } else y
        .next (taskDone u ref t.num)

/-! ## Releases (R344, R383) -/

/-- The members a release of a task releases: itself, or every member of its joint, a start that is due among them (R349, R383). -/
def releasedWith (s : State) (core slot queue : Nat) (t : Task) : List Named :=
  match t.cmd.jointTag with
  | none => [{ ref := .resident core slot, q := queue, task := t }]
  | some tag =>
    let me := ((s.findCtx (.resident core slot)).map (·.launch)).getD 0
    (quadCores core).flatMap fun c => ((s.core c).slots.filter fun e => e.2.launch == me).flatMap fun e =>
      (e.2.queues[(0 : Fin 6)].filter fun u => u.inJoint tag).map fun u => { ref := .resident c e.1, q := 0, task := u }

/-- Budget in force for a running task (R344). -/
def budgetOf (x : Ctx) (t : Task) : Nat := Nat.min (if t.word.budget = 0 then x.budget.toNat else t.word.budget.toNat) t.cap

/-- A task that a release may strike: running, and of a joint only member 0's, before the write instant. -/
def releasable (core : Nat) (t : Task) : Bool := t.st == .running && (t.cmd.jointTag.isNone || (core % 4 == 0 && !t.written))

/-- A running task may be unable to proceed: it has operand data in memory, a bound queue it pushes to that is full, or an operand that an unfinished
copy of its context fills (R341, R344). -/
def mayStall (s : State) (n : Named) : Bool :=
  !(memStreams n.task).isEmpty || pushFull s n.ref n.q n.task
    || (s.findCtx n.ref).any fun x => x.tasks.any fun e => e.2.st != .done && fills n.task e.2

/-- A released task with what it keeps (R344). -/
def Task.letGo (t : Task) (now : Nat) : Task := { t with st := .ready, started := true, won := none, since := now }

/-- TASK_BUDGET_RELEASE: the budget is spent; the task returns to ready with its progress (R344). -/
def execTaskBudgetRelease (core slot queue pos : Nat) (s : State) : Out :=
  match taskAt s (.resident core slot) queue pos with
  | none => .next s
  | some (x, t) =>
    if !releasable core t || s.time < t.startAt + budgetOf x t then .next s
    else .next ((releasedWith s core slot queue t).foldl (fun s n => s.modRef n.ref fun x => x.modTask n.task.num fun t => t.letGo s.time) s)

/-- TASK_STALL_RELEASE: a task that has not moved on for its stall limit releases, with compensation for the cycles it did not use (R344, R345). Whether
it could have moved on sooner is timing (log 30). -/
def execTaskStallRelease (core slot queue pos : Nat) (s : State) : Out :=
  match taskAt s (.resident core slot) queue pos with
  | none => .next s
  | some (x, t) =>
    let b := budgetOf x t
    let u := s.time - t.startAt
    let ns := releasedWith s core slot queue t
    if !releasable core t || s.time < Nat.max t.startAt t.movedAt + t.lim || !ns.any (mayStall s) then .next s
    else .next (ns.foldl (fun s n => s.modRef n.ref fun x => x.modTask n.task.num fun t =>
      { t.letGo s.time with stalled := true, comp := if 1 ≤ u ∧ u < b then some (b, u) else none }) s)

/-- Stalls whose cause has cleared: a free choice for each stalled task (R344). -/
def clearStalls (s : State) (ref : CtxRef) (i : Nat) : State :=
  match s.findCtx ref with
  | none => s
  | some x =>
    if x.tasks.any fun e => e.2.stalled then
      s.putCtx ref (x.mapTasks fun t => if t.stalled && Config.choice s.tick (3000 + 64 * i + t.num) then { t with stalled := false, since := s.time } else t)
    else s

/-! ## Commit of the open phase (R165, R166, R259) -/

/-- Whether every task of the open phase is done. -/
def phaseDrained (x : Ctx) (h : Phase) : Bool := (x.tasksOf (.opened h.num)).all fun e => e.2.st == .done

/-- The exchanged pairs. -/
def exchange (ps : List LeafPair) : List LeafPair := ps.map fun p => { front := p.back, back := p.front, copy := p.copy }

/-- A strand whose swap or close commits completes with DONE. -/
def finishSwap (x : Ctx) (i : Nat) : Ctx :=
  x.modStrand (Fin.ofNat 4 i) fun t => match t.wait with | some (.swap d _) => (t.setS d 0).finishWait | _ => t

/-- A swap whose commit would set up a leaf that holds C bytes of a QMMA accepted since writes BAD_TARGET and changes nothing: the phase stays open, and
the tasks given to the one it would have opened belong to it (R250, R386, log 111). -/
def refuseSwap (x : Ctx) (h : Phase) (i : Nat) : Ctx :=
  ({ x with phase := some { h with committing := none } }.mapTasks fun t => if t.phase = some x.nextPhase then { t with phase := some h.num } else t).modStrand
    (Fin.ofNat 4 i) fun t => match t.wait with | some (.swap d _) => (t.setS d stBadTarget).finishWait | _ => t

/-- PHASE_COMMIT: once the phase's tasks are done, its stores perform and its leaves exchange (R166, R259). -/
def execPhaseCommit (c : CtxRef) (s : State) : Out :=
  match s.findCtx c with
  | none => .next s
  | some x =>
    match x.phase with
    | none => .next s
    | some h =>
      match h.committing with
      | none => .next s
      | some (i, reopen) =>
        let ps := exchange h.pairs
        if !x.moving || h.hold.isSome || !phaseDrained x h || (reopen && !ps.all fun p => x.leafHere p.back) || storesWait s x (.opened h.num) then .next s
        else if reopen && ps.any fun p => x.jointHolds p.back then .next (s.modRef c fun x => refuseSwap x h i)
        else
          if (rowBadIn x (.opened h.num)).isSome then .next (commitPhase s c (.opened h.num)) else
          let s := commitPhase s c (.opened h.num)
          if reopen then
            .next ((match s.findCtx c with | some y => setUpLeaves s (refCore c) y ps | none => s).modRef c fun x =>
              finishSwap { x with phase := some { num := x.nextPhase, pairs := ps }, nextPhase := x.nextPhase + 1 } i)
          else .next (s.modRef c fun x => finishSwap { x with phase := none } i)

/-! ## Aborts reported by an engine (R163-R171, R320, R416) -/

/-- Code, stage, class D, of an engine cause. -/
def causeOf : EngineCause → Nat × Nat × Bool
  | .accessFault st => (0x09, st.toNat, true)
  | .xlateMiss st => (0x0A, st.toNat, true)
  | .xlatePerm st => (0x0B, st.toNat, true)
  | .memUe => (0x0C, 0, false)
  | .memIntegrity => (0x0D, 0, true)
  | .fwqUnderflow => (0x16, 0, true)
  | .pageAbsent => (0x20, 0, false)
  | .traceMismatch => (0x21, 0, false)
  | .mathSdc => (0x22, 0, false)
  | .storeSdc => (0x23, 0, false)
  | .frameStarved => (0x24, 0, true)

/-- Rows of the command carry a CRC to memory (R254). -/
def Cmd.crcRows : Cmd → Bool
  | .copy _ (.mem ..) _ _ _ _ _ crc => crc
  | .chain _ _ _ _ crc => crc
  | _ => false

/-- When an engine may report a cause for a task (R163, R254, R258, R320): a missing format word as the task would leave queued; a STORE_SDC of a row
that differs from its CRC, as the stores would perform (R381); a MATH_SDC of a matrix command with CHK before C is written; every other cause of a task that runs, or that
an abort of this cycle has stopped (R164). -/
def mayReport (s : State) (x : Ctx) (q : Nat) (t : Task) (c : EngineCause) : Bool :=
  let runs := t.st == .running || t.stoppedAt == some s.time
  !t.committed &&
  match c with
  | .fwqUnderflow => leaves x t && !formatOk t && (x.front (Fin.ofNat 6 q)).any (·.num == t.num)
  | .storeSdc => t.rowBad && (x.tasksOf t.phaseId).all (fun e => e.2.st == .done)
      && (t.phase.isNone || x.phase.any fun h => h.committing.isSome && t.phase == some h.num)
  | .mathSdc => runs && !t.written && (match t.cmd with | .matrix _ _ _ _ _ chk _ _ => chk | _ => false)
  | .frameStarved => false
  | _ => runs && !t.written

/-- What a class A cause holds the phase for. -/
def holdFor (c : EngineCause) (addr : Word) (task : Nat) : Option Hold :=
  match c with
  | .pageAbsent => some (.page addr task)
  | _ => none

/-- FRAME_STARVED replaces the wait of a phase for its page by a class D event (R170). -/
def starvePhase (s : State) (ref : CtxRef) (q : Nat) (t : Task) (addr : Word) : State :=
  s.modRef ref fun x =>
    match x.holdOf t.phaseId with
    | some (.page va n) =>
      if va = addr ∧ n = t.num then
        { x.setHold t.phaseId (some .pending) with
          last := 0x24
          pendD := x.pendD ++ [{ strand := t.strand, cause := BitVec.ofNat 64 (engineOf q * 2 ^ 24 + 0x124), addr := addr, phase := t.phaseId }] }
      else x
    | _ => x

/-- The rows of A before the one that holds the address a fault names, as the remote fetch of an MMA has taken them in (R322). -/
def fetchedBefore (s : State) (ref : CtxRef) (x : Ctx) (t : Task) (addr : Word) : Option (Nat × List Byte) :=
  match t.cmd, t.fmt.bind fmtOf, t.stage with
  | .matrix (.mem va i g) _ _ _ stride _ _ tag, some f, none =>
    ((List.range (if tag.isSome then 64 else 128)).find? fun j => decide ((addr - (va + BitVec.ofNat 64 (j * stride))).toNat < f.rowBytes)).bind fun r =>
      if t.st ≠ .running then none
      else match fetchRows s { core := refCore ref, ref := ref, strand := t.strand } x (.mem va i g) stride f.rowBytes (x.stagedRows t f.rowBytes).2
        ((List.range r).drop (x.stagedRows t f.rowBytes).1) with
      | .ok bs => some (r, bs)
      | .error _ => none
  | _, _, _ => none

/-- PHASE_ABORT: an engine reports a cause for a task; its phase aborts (R167). -/
def execPhaseAbort (c : CtxRef) (queue pos : Nat) (cause : EngineCause) (addr : Word) (s : State) : Out :=
  match taskAt s c queue pos with
  | none => .next s
  | some (x, t) =>
    if cause = .frameStarved then .next (starvePhase s c queue t addr)
    else if !mayReport s x queue t cause then .next s
    else
      let (code, stage, classD) := causeOf cause
      let u := askHold (abortFor (countEng (countSdc s (refCore c) cause) c code addr) c queue t code stage addr classD (holdFor cause addr t.num)) c (holdFor cause addr t.num)
      .next (match (if classD then fetchedBefore s c x t addr else none) with
        | some (r, bs) => keepRows u c t r bs
        | none => u)

/-! ## Delivery (R159, R162) -/

/-- The first pending event that can be taken now: its target is at level 0 and has finished what it had issued ahead, as R95 finds the point, or
no strand is live. -/
def deliverable (x : Ctx) : Option PendD :=
  x.pendD.find? fun p => match targetOf x p with | some i => x.strands[i].level == 0 && x.strands[i].ahead.isEmpty | none => true

/-- ORPHAN_KILL: the record has the pc at which the strand that issued the faulting task stopped, that strand, and the failing address (R160, R162). -/
def orphanKill (s : State) (c : CtxRef) (x : Ctx) (p : PendD) (code : Nat) : State :=
  let i : Fin 4 := Fin.ofNat 4 p.strand
  killCtx s c 0x33 code x.strands[i].pc p.addr (some i)

/-- NEST_KILL of a context: the lowest strand at level 2 is the one that escalated; none is there to escalate in a context without one (R154). The return
address is that of its instruction, or its successor for SW_TRAP; the data address that the event does not name is free (R160, log 114). -/
def nestKill (s : State) (c : CtxRef) (x : Ctx) (code : Nat) : State :=
  match ([0, 1, 2, 3] : List (Fin 4)).find? fun i => x.strands[i].level == 2 with
  | some i => killCtx s c 0x30 code (x.strands[i].pc + if code = 4 then 16 else 0) (Config.nestAddr s.tick) (some i)
  | none => s

/-- CLASS_D_DELIVERY (R162). -/
def execClassDDelivery (c : CtxRef) (s : State) : Out :=
  match s.findCtx c with
  | none => .next s
  | some x =>
    match (if x.moving then deliverable x else none) with
    | none => .next s
    | some p =>
      let drop := fun y : Ctx => { y with pendD := y.pendD.erase p }
      match targetOf x p, c with
      | some i, .resident core slot =>
        let r : StrandRef := { core := core, slot := slot, strand := i.val }
        let s := withdrawWaits (s.modRef c drop) r
        let s := s.modStrandAt r fun t => t.enter { cause := p.cause, ret := t.pc, addr := p.addr, force := false, out := false }
        .next (s.modRef c fun y => if y.holdOf p.phase = some .pending then y.setHold p.phase (some (.strand i.val)) else y)
      | _, _ => .next (orphanKill (s.modRef c drop) c x p (fld p.cause 7 0))

/-- CONTEXT_KILL (R159, R160). -/
def execContextKill (c : CtxRef) (cause : KillCause) (s : State) : Out :=
  match s.findCtx c with
  | none => .next s
  | some x =>
    match cause with
    | .nest code => .next (nestKill s c x code.toNat)
    | .grace => .next (killCtx s c 0x31 0 x.killPc 0 none)
    | .hyp => .next (killCtx s c 0x32 0 x.killPc 0 none)
    | .orphan code => .next (match x.pendD with
      | p :: _ => orphanKill s c x p code.toNat
      | [] => killCtx s c 0x33 code.toNat x.killPc 0 none)

/-! ## Time (R345, R423) -/

/-- Cycles of a span in which a region's engines are held: h of every 8, all of them at TTRIP (R423). -/
def heldCycles (s : State) (core c : Nat) : Nat :=
  if s.ttripHold then c
  else
    let h := ((s.die (s.dieOf core)).throttle[(Fin.ofNat 6 (core % 96 / 16) : Fin 6)]).val
    ((s.time + c) * h) / 8 - s.time * h / 8

/-- Credits and debits of the repayment accounts for a span of cycles (R345). -/
def passTime (s : State) (c : Nat) : State :=
  let moves := s.cores.flatMap fun k => k.2.slots.flatMap fun e =>
    match s.tenantOf e.2.currency.toNat with
    | none => []
    | some n => (e.2.tasks.filter fun t => t.2.st == .running).map fun t => (n, heldCycles s k.1 c, if t.2.repaid then c else 0)
  let repay := moves.foldl (fun m t => SMap.put 0 m t.1 (Nat.min (2 ^ 32 - 1) (SMap.get 0 m t.1 + t.2.1) - t.2.2)) s.repay
  { s with repay := repay, time := s.time + c }

/-! ## Coming to rest -/

/-- Resident contexts of the package. -/
def residentRefs (s : State) : List CtxRef := s.cores.flatMap fun k => k.2.slots.map fun e => .resident k.1 e.1

/-- After every step: winners of earlier draws start, stalls clear, queues advance. -/
def settle (s : State) : State :=
  let s := (s.cores.map (·.1)).foldl (fun s c => startWinners (pruneLeaves s c) c) s
  (residentRefs s).zipIdx.foldl (fun s r => settleCtx (clearStalls s r.1 r.2) r.1) s

end Sys2Proof.Machine
end

