-- ==== Sys2Proof/Machine/Work.lean ====
section
/-! DEFINITION. Launch records, work objects, placement and completion of units, cancellation
(16 R260-R265, 21 R339, R347, 22 R353-R356, R365, R367, 25 R388). -/

namespace Sys2Proof.Machine

/-! ## Launch records (R260, R261) -/

/-- Who makes a launch (R261, R265, R397). -/
structure Maker where
  priv : Fin 3
  part : Fin 16
  asid : BitVec 12
  job : Nat
  vi : Option Nat
  prot : Bool
  housekeeping : Bool
  /-- The creating context, which receives the notice. -/
  maker : Option Nat
  /-- What currency number 0 stands for; 0 where it is refused. -/
  currency : BitVec 12
  seed : Word
  deriving DecidableEq, Repr

/-- Bytes of a record beyond its first 128. -/
def recordTail (ws : List Word) : Nat :=
  8 * ((fld (ws.headD 0) 24 16 + 4) / 4) + 16 * fld (ws.getD 8 0) 7 0 + 8 * fld (ws.getD 8 0) 15 8

/-- A launch record taken apart. -/
structure Record where
  spec : LaunchSpec
  units : Nat
  graph : Nat
  sem : Nat
  count : Nat
  deriving DecidableEq, Repr

/-- A register code of an init entry (R20, R260). -/
def initOk (c : Word) : Bool := c.toNat < 0x30 || (0x40 ≤ c.toNat && c.toNat < 0x80)

/-- 16-bit core numbers from words. -/
def halves (ws : List Word) : List Nat := ws.flatMap fun w => [fld w 15 0, fld w 31 16, fld w 47 32, fld w 63 48]

/-- Adjacent pairs. -/
def wordPairs : List Word → List (Word × Word)
  | a :: b :: r => (a, b) :: wordPairs r
  | _ => []

/-- Read a record; none is BAD_IMAGE (R260, R261). -/
def parseRecord (s : State) (m : Maker) (ws : List Word) : Option Record :=
  let w := fun i : Nat => ws.getD i 0
  let ns := fld (w 0) 9 8 + 1
  let nu := fld (w 0) 24 16 + 1
  let nc := (nu + 3) / 4
  let cores := halves ((ws.drop 16).take nc)
  let inits := wordPairs ((ws.drop (16 + nc)).take (2 * fld (w 8) 7 0))
  let sems := (ws.drop (16 + nc + 2 * fld (w 8) 7 0)).take (fld (w 8) 15 8)
  let entries := [w 4, w 5, w 6, w 7]
  let cur : BitVec 12 := if fld (w 1) 47 32 = 0 then m.currency else BitVec.ofNat 12 (fld (w 1) 47 32)
  let ok := fld (w 0) 7 0 == 1 && fld (w 0) 11 10 == 0 && fld (w 0) 15 13 == 0 && fld (w 0) 31 25 == 0 && fld (w 0) 47 39 == 0
    && fld (w 0) 63 58 == 0 && nu ≤ 384 && fld (w 0) 38 32 ≤ 96 && fld (w 0) 57 48 ≤ 512
    && fld (w 1) 31 0 != 0 && fld (w 1) 63 48 == 0 && fld (w 1) 47 32 < 4096 && (s.currency cur.toNat).isSome && fld (w 1) 47 32 != 1 && fld (w 2) 63 32 != 0
    && fld (w 8) 63 16 == 0 && fld (w 9) 63 32 == 0 && fld (w 10) 63 32 == 0 && w 13 == 0 && w 14 == 0 && w 15 == 0
    && (entries.take ns).all (fun e => e != 0 && e &&& 0xF == 0) && (entries.drop ns).all (· == 0)
    && (cores.drop nu).all (· == 0) && inits.all (fun e => initOk e.1) && sems.all fun e => fld e 31 8 == 0
  if ok then
    some
      { units := nu, graph := fld (w 9) 31 0, sem := fld (w 10) 7 0, count := fld (w 10) 31 8
        spec :=
          { cores := cores.take nu, nstrands := ns, leaves := fld (w 0) 38 32, opslots := fld (w 0) 57 48, tickets := (w 1).extractLsb' 0 32
            currency := cur, latency := (w 2).extractLsb' 0 32, budget := (w 2).extractLsb' 32 32, seedv := (w 0).getLsbD 12
            seed := if (w 0).getLsbD 12 then w 3 else m.seed, entries := entries.take ns, inits := inits.map fun e => (e.1.toNat, e.2)
            sems := sems.map fun e => (fld e 7 0, e.extractLsb' 32 32)
            preds := [fld (w 11) 31 0, fld (w 11) 63 32, fld (w 12) 31 0, fld (w 12) 63 32].filter (· != 0)
            priv := m.priv, part := m.part, asid := m.asid, job := m.job, vi := m.vi, prot := m.prot, housekeeping := m.housekeeping } }
  else none

/-! ## Work objects (R261-R265) -/

/-- Places of the package's table of work objects (R261). -/
def workLimit : Nat := 65536

/-- The key of a job's record. -/
def jobKey (job : Nat) : Nat := workKey 4 job

/-- The job may take a new child: it is not released, cancelled or otherwise sealed (R264, R265). -/
def jobOpen (s : State) (job : Nat) : Bool := match SMap.find s.works (jobKey job) with | some w => !w.sealed_ | none => true

/-- Records that a new object under a job needs: its own, and the job's when this is the first that names it. -/
def workNeed (s : State) (job : Nat) : Nat := if (SMap.find s.works (jobKey job)).isSome then 1 else 2

/-- The job's record exists from here on (R265). -/
def ensureJob (s : State) (job : Nat) : State :=
  if (SMap.find s.works (jobKey job)).isSome then s else { s with works := SMap.set s.works (jobKey job) { level := 4, job := job } }

/-- One more child of an object. -/
def addChild (s : State) (key : Nat) : State :=
  match SMap.find s.works key with
  | some w => { s with works := SMap.set s.works key { w with total := w.total + 1 } }
  | none => s

/-- A job takes note of the address space of a launch (R403). -/
def noteAsid (s : State) (job : Nat) (asid : BitVec 12) : State :=
  match SMap.find s.works (jobKey job) with
  | some w => if w.asids.contains asid then s else { s with works := SMap.set s.works (jobKey job) { w with asids := w.asids ++ [asid] } }
  | none => s

/-- Create an object under a parent: the state and its id. -/
def newWork (s : State) (w : Work) (parent : Nat) : State × Nat :=
  let id := s.fresh % 2 ^ 32
  let s := addChild (ensureJob s w.job) parent
  ({ s with works := SMap.set s.works (workKey w.level id) { w with parent := some parent }, fresh := s.fresh + 1 }, id)

/-- An open graph or work phase of a job. -/
def openOf (s : State) (level id job : Nat) : Bool :=
  match SMap.find s.works (workKey level id) with
  | some w => !w.sealed_ && w.job == job
  | none => false

/-- A core belongs to a partition and is not fenced (R112, R406). The housekeeping core's launches name any core (R76). -/
def coreAllowed (s : State) (m : Maker) (c : Nat) : Bool :=
  c < coreCount && !s.fencedCore c && (m.housekeeping || (SMap.get {} s.parts m.part.val).quads.getLsbD (c / 4))

/-- LAUNCH's checks and the launch (R261): the state, the status and the id. -/
def createLaunch (s : State) (m : Maker) (ws : List Word) : State × Word × Nat :=
  match parseRecord s m ws with
  | none => (s, stBadImage, 0)
  | some r =>
    let parent := if r.graph = 0 then jobKey m.job else workKey 2 r.graph
    let parentOk := if r.graph = 0 then jobOpen s m.job else openOf s 2 r.graph m.job && jobOpen s m.job
    let predOk := fun l : Nat => match SMap.find s.works (workKey 1 l) with | some w => w.parent == some parent | none => false
    if !decide r.spec.cores.Nodup || !r.spec.cores.all (coreAllowed s m) || !parentOk || !r.spec.preds.all predOk then (s, stBadTarget, 0)
    else if s.works.length + workNeed s m.job > workLimit then (s, stBusy, 0)
    else
      let w : Work :=
        { level := 1, job := m.job, sealed_ := true, total := r.units, spec := some { r.spec with code := some (s.mem, s.sectors) }, unplaced := List.range r.units
          notice := if r.count = 0 then none else m.maker.map fun u => (u, r.sem, r.count) }
      let (s, id) := newWork s w parent
      let s := noteAsid s m.job m.asid
      let s := { s with waitUnits := s.waitUnits ++ r.spec.cores.zipIdx.map fun c => { launch := id, unit := c.2, core := c.1 } }
      (cascade s.works.length s, stDone, id)

/-- The executing context as a launch's maker. Only the housekeeping core itself names cores outside a partition (R76, R261). -/
def makerOf (x : Ctx) : Maker :=
  { priv := x.priv, part := x.part, asid := x.asid, job := x.job, vi := x.vi, prot := x.prot, housekeeping := false
    maker := some x.uid, currency := x.currency, seed := x.seed }

/-- Status and id in one register (R261, R263). -/
def idWord (st : Word) (id : Nat) : Word := st <<< 32 ||| BitVec.ofNat 64 (id % 2 ^ 32)

def execLaunch (d : SReg) (a : AReg) (disp : BitVec 32) (_oc : Fin 16) (s : State) : Out :=
  let ea := s.getA a + disp.signExtend 64
  if !aligned ea 64 then .next (s.addrAlign ea)
  else .next (s.withRead .rd ea 128 fun s hb =>
    s.withRead .rd (ea + 128) (recordTail (wordsOf hb)) fun s tb =>
      let r := createLaunch s (makerOf s.cx) (wordsOf (hb ++ tb))
      r.1.status d (idWord r.2.1 r.2.2))

/-- Create a graph or a work phase (R263). -/
def openWork (s : State) (d : SReg) (level parent : Nat) (notice : Word) (ok : Bool) : State :=
  let x := s.cx
  if fld notice 63 32 ≠ 0 || !ok || !jobOpen s x.job then s.status d (idWord stBadTarget 0)
  else if s.works.length + workNeed s x.job > workLimit then s.status d (idWord stBusy 0)
  else
    let w : Work := { level := level, job := x.job, notice := if fld notice 31 8 = 0 then none else some (x.uid, fld notice 7 0, fld notice 31 8) }
    let r := newWork s w parent
    r.1.status d (idWord stDone r.2)

def execGraphOpen (d a b : SReg) (s : State) : Out :=
  let p := s.getS b
  .next (openWork s d 2 (if fld p 31 0 = 0 then jobKey s.cx.job else workKey 3 (fld p 31 0)) (s.getS a)
    (fld p 63 32 == 0 && (fld p 31 0 == 0 || openOf s 3 (fld p 31 0) s.cx.job)))

def execWphaseOpen (d a : SReg) (s : State) : Out := .next (openWork s d 3 (jobKey s.cx.job) (s.getS a) true)

/-- Seal a graph or a work phase (R263). -/
def closeWork (s : State) (d : SReg) (level : Nat) (v : Word) : State :=
  let key := workKey level (fld v 31 0)
  match SMap.find s.works key with
  | some w =>
    if fld v 63 32 ≠ 0 || w.sealed_ || w.job ≠ s.cx.job then s.status d (idWord stBadTarget 0)
    else
      let s := s.status d (idWord stDone (fld v 31 0))
      pruneWorks (reportWork 4 { s with works := SMap.set s.works key { w with sealed_ := true } } key)
  | none => s.status d (idWord stBadTarget 0)

def execGraphClose (d a : SReg) (s : State) : Out := .next (closeWork s d 2 (s.getS a))
def execWphaseClose (d a : SReg) (s : State) : Out := .next (closeWork s d 3 (s.getS a))

/-- The object named by a level and id, of the executing context's job (R264). -/
def namedWork (s : State) (v : Word) : Option (Nat × Work) :=
  if fld v 59 32 ≠ 0 || fld v 63 60 = 0 || fld v 63 60 > 4 then none
  else match SMap.find s.works (workKey (fld v 63 60) (fld v 31 0)) with
  | some w => if w.job = s.cx.job then some (workKey (fld v 63 60) (fld v 31 0), w) else none
  | none => none

def execCntr (d a : SReg) (s : State) : Out :=
  scalarResult s d (match namedWork s (s.getS a) with | some w => w.2.counter | none => 0)

/-- An object is another's descendant, or itself; there are four levels. -/
def isUnder (s : State) (key : Nat) : Nat → Nat → Bool
  | 0, _ => false
  | n + 1, k => k == key || (match (SMap.find s.works k).bind (·.parent) with | some p => isUnder s key n p | none => false)

/-- CANCEL's effect (R264): mark and seal the object and its descendants, drop their unplaced units, request every placed unit. -/
def cancelWork (s : State) (key : Nat) : State :=
  let ks := (s.works.map (·.1)).filter (isUnder s key 4)
  let s := { s with works := s.works.map fun e : Nat × Work => (e.1, if ks.contains e.1 then { e.2 with cancelled := true, sealed_ := true } else e.2) }
  let s := (s.contexts.filter fun e => ks.contains (workKey 1 e.2.launch)).foldl (fun s e => requestCtx s e.1 .cancel) s
  let s := ks.foldl (fun s k => if (SMap.find s.works k).any fun w => w.level == 1 then cancelUnplaced s k else reportWork 4 s k) s
  pruneWorks (cascade s.works.length s)

def execCancel (d a : SReg) (s : State) : Out :=
  .next (match namedWork s (s.getS a) with
    | none => s.status d stBadTarget
    | some (key, _) => (cancelWork (s.status d stDone) key))

/-! ## Placement (R339, R347, R353, R354, R365, R367, R388) -/

/-- Operand-folio slots of a core that no context holds and that are not held for the blotter, lowest first (R365). -/
def Core.freeSlots (k : Core) : List Nat :=
  (List.range 512).filter fun p =>
    !(k.slots.any fun e => e.2.opslots.contains p) && !(k.shadows.any fun e => e.2.opslots.contains p) && !(k.held.any fun h => h.opslots.contains p)

/-- Lowest entry of the pool in a state. -/
def Core.poolEntry (k : Core) (st : PoolState) : Option (Fin 12) := (List.finRange 12).find? fun i => k.pool[i].st == st

/-- Lowest empty context slot. -/
def Core.emptySlot (k : Core) : Option Nat := (List.range 4).find? fun i => (SMap.find k.slots i).isNone

/-- Whether the core takes a new context now: zeroised, not fenced, nothing held, no protected or diagnostic context on it, and beside a protected
unit no other resident (R72, R110, R112, R388). -/
def Core.admits (k : Core) (prot : Bool) : Bool :=
  !k.zeroising && !k.fenced && k.held.isEmpty && !(k.slots.any fun e => e.2.prot || e.2.diag) && !(k.shadows.any fun e => e.2.prot)
    && (!prot || k.slots.isEmpty)
/-- Whether it takes back a shadowed one: a protected context for itself alone, no other while one lives (R362, R388). -/
def Core.admitsBack (k : Core) (x : Ctx) : Bool :=
  !k.zeroising && !k.fenced && k.held.isEmpty && !(k.slots.any fun e => e.2.prot || e.2.diag)
    && (if x.prot then k.slots.isEmpty else !k.shadows.any fun e => e.2.prot)

/-- Shares a bound asks: on the ligature and vector engines, and on the copy engine (R347). -/
def sharesOf (k : Core) (bound : Nat) : Nat × Nat :=
  let d := k.bcap.toNat + 64 * k.stall.toNat + 64
  ((256 * d + bound - 1) / bound, (256 * d * 4 + bound - 1) / bound)

/-- The admission check of R347. -/
def admitted (k : Core) (bound : Nat) : Bool :=
  let sum := k.slots.foldl (fun (n : Nat × Nat) e => (n.1 + e.2.share.1, n.2 + e.2.share.2)) (0, 0)
  bound ≠ 0 && decide (sum.1 + (sharesOf k bound).1 ≤ k.shlim.toNat) && decide (sum.2 + (sharesOf k bound).2 ≤ k.shlim.toNat)

/-- Number of a unit's context, the same wherever it is held. -/
def unitUid (launch unit : Nat) : Nat := launch * 1024 + unit

/-- A strand at its start: its entry and the initial registers (R41, R260, R261). -/
def startStrand (inits : List (Nat × Word)) (entry : Word) : Strand :=
  inits.foldl (fun t e =>
    if e.1 < 0x20 then t.setS (Fin.ofNat 32 e.1) e.2
    else if e.1 < 0x30 then t.setA (Fin.ofNat 16 (e.1 - 0x20)) e.2
    else t) { present := true, pc := entry }

/-- A unit's context at its start (R261): registers and semaphores of the record, all else zero or at its reset value. -/
def startCtx (s : State) (k : Core) (uid launch unit units : Nat) (p : LaunchSpec) (leaves slots : List Nat) (block : Word) : Ctx :=
  let b := p.latency.toNat
  let adm := admitted k b
  { uid := uid
    strands := Vector.ofFn fun i : Fin 4 => match p.entries[i.val]? with | some e => startStrand p.inits e | none => {}
    v := p.inits.foldl (fun m e => if 0x40 ≤ e.1 then SMap.put 0 m (e.1 - 0x40) (e.2.setWidth 4096) else m) []
    sem := p.sems.foldl (fun m e => SMap.put 0 m e.1 e.2) []
    launch := launch, unit := unit, units := units, nstrands := p.nstrands, priv := p.priv, part := p.part, asid := p.asid, job := p.job
    vi := p.vi, prot := p.prot, housekeeping := p.housekeeping, currency := p.currency, tickets := p.tickets, budget := p.budget
    seed := p.seed, admitted := adm, refused := decide (b ≠ 0) && !adm, bound := if adm then p.latency else 0
    share := if adm then sharesOf k b else (0, 0), handleBase := block + 0x180000
    leaves := leaves.map fun l => { phys := some l }, opslots := slots, block := block, plane := k.activeB
    swapOrder := s.fresh, code := p.code }

/-- The image sections of a unit at its start: .folio into its leaves from leaf 0 on, .opfolio into its slots, and a handle table of the entries of
.handles and nothing else (R40, R187). -/
def loadSections (s : State) (core : Nat) (x : Ctx) (p : Sections) : State :=
  let part := fun (n i : Nat) (bs : List Byte) => (bs.drop (n * i)).take n
  let s := s.modCore core fun k => x.physLeaves.zipIdx.foldl (fun k e => k.fillLeaf e.1 (part 16384 e.2 p.folio)) k
  let s := s.modCore core fun k => k.putOps (x.opslots.zipIdx.flatMap fun e =>
    (part 8192 e.2 p.opfolio).zipIdx.map fun b => (e.1 * 8192 + b.2, b.1))
  let k := maKey s.pkgOwner x.handleBase.toNat
  let s := { s with mem := s.mem.filter fun e => !(k ≤ e.1 && e.1 < k + 0x20000) }
  s.writeMa s.pkgOwner x.handleBase.toNat ((p.handles.take 16384).flatMap fun w => leBytes 8 w.toNat)

/-- Place one unit, or leave it waiting (R353, R354, R365). -/
def placeUnit (s : State) (u : WaitUnit) (w : Work) (p : LaunchSpec) : State :=
  let k := s.core u.core
  match k.emptySlot, k.poolEntry .free with
  | some slot, some pe =>
    if !k.admits p.prot || k.freeSlots.length < p.opslots then s
    else match gatherLeaves s u.core p.leaves (.place u.launch u.unit) with
    | (t, none) => t
    | (t, some ls) =>
      let k := t.core u.core
      let alone := k.slots.isEmpty
      let x := startCtx t k (unitUid u.launch u.unit) u.launch u.unit w.total p ls (k.freeSlots.take p.opslots) k.pool[pe].ma
      let k := { k with pool := k.pool.set pe { k.pool[pe] with st := .inuse }, slots := SMap.set k.slots slot x
                        tdu := if alone && p.seedv then Vector.replicate 3 (Tdu.seed p.seed) else k.tdu }
      let t := loadSections (t.setCore u.core k) u.core x (SMap.get {} t.sections u.launch)
      { t with
        fresh := t.fresh + 1, waitUnits := t.waitUnits.filter (· ≠ u)
        works := SMap.set t.works (workKey 1 u.launch) { w with unplaced := w.unplaced.filter (· ≠ u.unit) } }
  | _, _ => s

/-- Every predecessor of a launch is complete (R261). -/
def predsDone (s : State) (p : LaunchSpec) : Bool :=
  p.preds.all fun l => match SMap.find s.works (workKey 1 l) with | some w => w.complete | none => true

/-- A job whose VI is stopped or stopping starts no unit (R403). -/
def jobStopped (s : State) (job : Nat) : Bool := s.vis.any fun v => (v.2.stop || v.2.stopping || v.2.stopped) && v.2.job.toNat == job

/-- The first unit that waits for a core and whose launch may be placed, with its launch (R261). -/
def nextUnit (s : State) (core : Nat) : Option (WaitUnit × Work × LaunchSpec) :=
  s.waitUnits.findSome? fun u =>
    if u.core ≠ core then none
    else match SMap.find s.works (workKey 1 u.launch) with
    | some w => match w.spec with | some p => if predsDone s p && !jobStopped s p.job then some (u, w, p) else none | none => none
    | none => none

/-- UNIT_PLACEMENT (R353). -/
def execUnitPlacement (core : Nat) (s : State) : Out :=
  match nextUnit s core with
  | some (u, w, p) => .next (placeUnit s u w p)
  | none => .next s

/-! ## Completion (R262, R353, R365) -/

/-- Every strand has stopped, every task is done, no phase is open and no class D event waits (R262, R162). -/
def Ctx.finished (x : Ctx) : Bool :=
  !(x.strands.toList.any (·.live)) && (x.tasks.all fun e => e.2.st == .done) && x.phase.isNone && x.pendD.isEmpty

/-- UNIT_COMPLETE: the unit leaves its core and counts in its launch (R262). -/
def execUnitComplete (c : CtxRef) (s : State) : Out :=
  match s.findCtx c with
  | none => .next s
  | some x =>
    if !x.finished || x.rung == .shadowed then .next s
    else
      let s := removeCtx s c x
      .next (unitDone (s.modCore (refCore c) (·.release x)) x.launch false)

end Sys2Proof.Machine
end

