-- ==== Sys2Proof/Machine/Residency.lean ====
section
/-! DEFINITION. Spills and reloads, the pre-emption ladder, the shadow slots, context images (22 R353-R366, R427, 07 R149). -/

namespace Sys2Proof.Machine

/-! ## Leaves (R356, R357) -/

/-- LEAF_SPILL: the copy engine writes a drawn leaf to its backing, in a free copy position (R357). -/
def execLeafSpill (core leaf : Nat) (s : State) : Out :=
  match (s.core core).spills.find? fun p => p.phys == leaf with
  | some p =>
    if s.ttripHold || (s.core core).zeroising || (s.core core).lanes.toNat ≤ runningOn s core .ce || s.maHeld (p.block.toNat + 16384 * p.leaf) 16384 then .next s
    else .next (finishSpill s core p)
  | none => .next s

/-- INVERSE_DRAW_RETRY: a request that found no candidate draws again (R356). -/
def execInverseDrawRetry (core : Nat) (s : State) : Out :=
  match (s.core core).drawWaits with
  | [] => .next s
  | r :: _ =>
    if !r.live s || !((s.core core).leavesFor r).isEmpty then .next (s.modCore core fun k => { k with drawWaits := k.drawWaits.filter (· ≠ r) })
    else .next ((inverseDraw s core r).getD s)

/-- LEAF_RELOAD: a spilled leaf that is wanted comes back (R357). -/
def execLeafReload (c : CtxRef) (leaf : Nat) (s : State) : Out :=
  match s.findCtx c with
  | some x => if x.wantsLeaf leaf then .next (reloadLeaf s c leaf (.reload x.uid leaf)).1 else .next s
  | none => .next s

/-! ## The halt (R95, R359-R361) -/

/-- A halted strand: its token counters are zero, its latches clear (R86, R95). -/
def Strand.halt (t : Strand) : Strand := { t with latches := [], ac := 0, ca := 0, cs := 0, sc := 0, owed := if t.wait.isSome then t.owed else none }

/-- The strands of a context halt (R95): waits are withdrawn, what was issued completes. -/
def haltStrands (s : State) (core slot : Nat) : State :=
  let s := (List.range 4).foldl (fun s i => withdrawWaits s { core := core, slot := slot, strand := i }) s
  s.modCtx core slot fun x => { x.landAll with strands := x.landAll.strands.map (·.halt) }

/-- The abort of a halt: every phase with a started task (R360). -/
def haltPhases (s : State) (core slot : Nat) : State :=
  let x := s.ctx core slot
  (x.phases.filter fun id => (x.tasksOf id).any fun e => e.2.started).foldl (fun s id =>
    abortPhase s (.resident core slot) id { code := 0, engine := 0, stage := 0, addr := 0, strand := 0, classD := false, hold := none, halt := true }) s

/-- HALT_COMPLETE: every strand has issued all that stands before what it had issued ahead (R95); the context stands halted, and takes the course
of its intent (R360). The ladder does not act on a context in the diagnostic view (R72). -/
def execHaltComplete (core slot : Nat) (s : State) : Out :=
  match s.findCtx (.resident core slot) with
  | none => .next s
  | some x =>
    if x.rung ≠ .halting || x.diag || x.strands.any (fun t => t.live && !t.ahead.isEmpty) then .next s
    else
      let s := haltPhases (haltStrands s core slot) core slot
      let s := s.modCtx core slot fun x => { x.mapTasks (fun t : Task => { t with won := none, since := s.time }) with rung := .halted, graceAt := none, killAt := none }
      if x.intent = some .cancel then .next (killCtx s (.resident core slot) 0x31 0 x.killPc 0 none) else .next s

/-- The soft boundary (R359): no started task is unfinished, and the open phase has no started task. -/
def Ctx.atBoundary (x : Ctx) : Bool :=
  x.tasks.all fun e => !e.2.started || (e.2.st == .done && (e.2.committed || !e.2.phaseId.isOpened))

/-- SOFT_BOUNDARY: under PREEMPT the strands halt, and the grace time runs on; under CANCEL nothing more happens (R359). -/
def execSoftBoundary (core slot : Nat) (s : State) : Out :=
  match s.findCtx (.resident core slot) with
  | none => .next s
  | some x =>
    if x.rung = .soft ∧ x.intent = some .preempt ∧ x.atBoundary ∧ !x.diag then
      .next (holdJoints (s.putCtx (.resident core slot) { x with rung := .halting }) core x x.tasks)
    else .next s

/-- A timer has run out. -/
def dueAt (now : Nat) (t : Option Nat) : Bool := match t with | some d => decide (d ≤ now) | none => false

/-- GRACE_EXPIRY: the halt rung begins for a context that is neither complete nor halted, one that halts from its boundary among them (R359, R361). -/
def execGraceExpiry (core slot : Nat) (s : State) : Out :=
  match s.findCtx (.resident core slot) with
  | none => .next s
  | some x =>
    if (x.rung = .soft ∨ x.rung = .halting) ∧ dueAt s.time x.graceAt ∧ !x.diag then
      .next (haltNow s (.resident core slot) x)
    else .next s

/-- KILL_TIMER_EXPIRY: a halt that is not complete in time kills the context (R361). -/
def execKillTimerExpiry (core slot : Nat) (s : State) : Out :=
  match s.findCtx (.resident core slot) with
  | none => .next s
  | some x =>
    if x.rung = .halting ∧ dueAt s.time x.killAt then .next (killCtx s (.resident core slot) 0x31 0 x.killPc 0 none) else .next s

/-! ## The shadow slots (R362) -/

/-- An endpoint follows its context from one place to another. -/
def EndPt.follow (e : EndPt) (core slot core2 slot2 : Nat) : EndPt :=
  if e.core = core ∧ e.slot = slot then { e with core := core2, slot := slot2 } else e

/-- Endpoints of bound queues follow a context that is moved. -/
def moveEnds (s : State) (core slot core2 slot2 : Nat) : State :=
  mapQueues s fun q => { q with prod := q.prod.follow core slot core2 slot2, cons := q.cons.follow core slot core2 slot2 }

/-- Lowest shadow slot that is neither occupied nor held (R362, R388). -/
def Core.freeShadow (k : Core) : Option Nat :=
  (List.range 8).find? fun i => (SMap.find k.shadows i).isNone && !(k.held.any fun h => h.shadow == some i)

/-- SWAP_OUT: a context halted under PREEMPT moves to a shadow slot (R362). -/
def execSwapOut (core slot : Nat) (s : State) : Out :=
  match s.findCtx (.resident core slot), (s.core core).freeShadow with
  | some x, some i =>
    if x.rung = .halted ∧ x.intent = some .preempt ∧ !x.diag then
      let y := { x with rung := .shadowed, swaps := satInc x.swaps, swapOrder := s.fresh, fetchV := false, fetchRows := 0, fetchBytes := [] }
      .next (moveEnds ((s.dropCtx (.resident core slot)).putCtx (.shadow core i) y).freshen core slot core (4 + i))
    else .next s
  | _, _ => .next s

/-- The shadowed context swapped out earliest that may come back (R362, R388, R427). -/
def Core.nextBack (k : Core) : Option (Nat × Ctx) :=
  (k.shadows.filter fun e => e.2.intent ≠ some .halt && k.admitsBack e.2).foldl (fun (b : Option (Nat × Ctx)) e =>
    match b with
    | some c => if e.2.swapOrder < c.2.swapOrder then some e else some c
    | none => some e) none

/-- A context runs again, under no request. -/
def Ctx.runAgain (x : Ctx) : Ctx := { x with rung := .running, intent := none, graceAt := none, killAt := none }

/-- SWAP_IN: with no placement waiting, an empty resident slot takes back a shadowed context (R362). -/
def execSwapIn (core : Nat) (s : State) : Out :=
  let k := s.core core
  match k.emptySlot, k.nextBack with
  | some slot, some (i, x) =>
    if (nextUnit s core).isSome then .next s
    else .next (moveEnds ((s.dropCtx (.shadow core i)).putCtx (.resident core slot) (x.runAgain.mapTasks fun t => { t with since := s.time })) core (4 + i) core slot)
  | _, _ => .next s

/-! ## Context images (R363, R364) -/

/-- Bytes cut or filled with zeros to a length. -/
def padTo (n : Nat) (bs : List Byte) : List Byte := bs.take n ++ List.replicate (n - bs.length) 0
/-- Little-endian bytes of words. -/
def bytesOf (ws : List Word) : List Byte := ws.flatMap fun w => leBytes 8 w.toNat

/-- Saved per-strand and per-context control registers in ascending number (R68, R100, R104, R158, R326, R352). -/
def strandRegs : List CReg :=
  [.arith, .loopStart 0, .loopStart 1, .loopStart 2, .loopStart 3, .loopEnd 0, .loopEnd 1, .loopEnd 2, .loopEnd 3, .trapEntry,
   .cause 0, .ret 0, .addr 0, .guard 0, .cause 1, .ret 1, .addr 1, .guard 1, .trapLevel, .tok, .sb]
def ctxRegs : List CReg :=
  [.phaseStat, .phaseLimit, .folioOob, .hintMode, .hintMisses, .tracerCmp, .tduSeed, .tduLat, .ligMode, .ligGw, .ligFetch]

/-- The view in which a context's control registers are read for its image: the context stands in a slot of its own. -/
def imageView (s : State) (core : Nat) (x : Ctx) (i : Nat) : State :=
  { s.setCtx core 4 x with focus := { core := core, slot := 4, strand := i } }

/-- One strand's 768 bytes. -/
def strandImage (s : State) (core : Nat) (x : Ctx) (i : Fin 4) : List Byte :=
  let t := x.strands[i]
  let flags := t.p.setWidth 64 ||| bw true 7 ||| BitVec.ofNat 64 t.level.val <<< 8 ||| bw t.sbarArrived 16 ||| bw t.stopped 17
    ||| BitVec.ofNat 64 t.sbarCount <<< 32
  padTo 768 (bytesOf (((List.finRange 32).map fun r => t.getS r) ++ t.a.toList ++ [t.pc, flags])
    ++ padTo 32 (t.lc.toList.flatMap fun c => leBytes 4 c.toNat) ++ bytesOf (strandRegs.map (crRead (imageView s core x i.val))))

/-- The operation field and literal of a queued command (R22, R363). -/
def opBytes (i : Instr) : List Byte × List Byte :=
  match encode .plain i with
  | some (w :: l :: _) => ((leBytes 16 w.toNat).take 12, leBytes 16 l.toNat)
  | some [w] => ((leBytes 16 w.toNat).take 12, List.replicate 16 0)
  | _ => (List.replicate 12 0, List.replicate 16 0)

/-- One entry of an engine queue. -/
def taskImage (t : Task) : List Byte :=
  let st := 8 + (if t.waited then 1 else 0) + (if t.signalled then 2 else 0) + (if t.after.isSome then 4 else 0)
  padTo 64 ((opBytes t.op).1 ++ leBytes 4 st ++ (opBytes t.op).2 ++ bytesOf t.vals)

/-- One bound queue: producer [12:0] and consumer [25:13] as R212 lays an endpoint out, depth - 1, bound. -/
def endWord (e : EndPt) : Nat := e.core % 96 + e.port.val * 128 + e.eng.val * 512 + e.slot % 4 * 2048
def boundImage (q : Option BoundQ) : Word :=
  match q with
  | some q => BitVec.ofNat 64 (endWord q.prod + endWord q.cons * 2 ^ 13 + (q.depth - 1) * 2 ^ 26 + 2 ^ 31)
  | none => 0

/-- Barrier memberships of a context (R207). -/
def memberWords (s : State) (uid : Nat) : List Word :=
  s.groups.flatMap fun g =>
    (g.2.members.filter fun m => m.uid == uid).map (fun m => BitVec.ofNat 64 (g.1 % 4096 + m.strand % 4 * 4096 + (if m.leaving then 2 ^ 15 else 0) + 2 ^ 16))
      ++ (g.2.joins.filter fun j => j.1 == uid).map fun j => BitVec.ofNat 64 (g.1 % 4096 + j.2 % 4 * 4096 + 2 ^ 14 + 2 ^ 16)

/-- One ductus slot. -/
def ductImage (t : DuctSlot) : List Byte :=
  padTo 96 (bytesOf [bw t.busy 0 ||| bw t.result 1 ||| t.seq.setWidth 64 <<< 16, t.p, t.status] ++ padTo 64 t.data)

/-- Bytes 0x0000 to 0xBFDF of an image; remote-fetch staging is never in one (R322, R363). -/
def imageBody (s : State) (core : Nat) (x : Ctx) : List Byte :=
  let x := { x with fetchV := false, fetchRows := 0 }
  let leaf := fun i : Nat => match x.leaves[i]? with
    | some { phys := some p, pinned := _ } => BitVec.ofNat 8 p
    | some { phys := none, pinned := _ } => 0x80#8
    | none => 0
  let pins := (List.range 96).foldl (fun n i => if (x.leaves[i]?).any (·.pinned) then n + 2 ^ i else n) 0
  padTo 0x8000 ((List.range 64).flatMap fun r => leBytes 512 (x.getV r).toNat)
    ++ padTo 0x400 ((List.range 8).flatMap fun r => leBytes 128 (x.getM r).toNat)
    ++ padTo 0x400 ((List.range 256).flatMap fun k => leBytes 4 (x.getSem k).toNat)
    ++ (List.finRange 4).flatMap (strandImage s core x)
    ++ padTo 0x200 (bytesOf (ctxRegs.map (crRead (imageView s core x 0))))
    ++ (List.finRange 6).flatMap (fun q => padTo 1024 (((x.queues[q].filter fun t => t.st != .done).take 16).flatMap taskImage))
    ++ padTo 128 (bytesOf x.fwq)
    ++ (List.finRange 4).flatMap (fun c => bytesOf [x.it[c], x.wp[c]])
    ++ (List.range 96).map leaf
    ++ padTo 16 (leBytes 12 pins)
    ++ bytesOf [x.block, bw x.plane 0 ||| BitVec.ofNat 64 x.opslots.length <<< 16 ||| x.currency.setWidth 64 <<< 36]
    ++ (List.range 8).flatMap (fun i => leBytes 8 (boundImage (SMap.find x.boundQs i)).toNat)
    ++ padTo 128 (bytesOf (((x.queues[(0 : Fin 6)].filter fun t => t.st != .done).take 16).map fun t => t.fmt.getD 0))
    ++ padTo 512 (bytesOf (memberWords s x.uid))
    ++ (List.finRange 4).flatMap (fun p => padTo 128 (bytesOf (x.ports[p].map (·.val))))
    ++ (List.finRange 16).flatMap (fun d => ductImage x.ducts[d])
    ++ List.replicate 0x580 0
    ++ padTo 32 (leBytes 4 0x4F5A4358 ++ leBytes 4 x.priv.val ++ leBytes 4 core ++ leBytes 4 x.asid.toNat ++ leBytes 4 1)
    ++ List.replicate 0x40 0

/-- The contents of a context's operand-folio slots in logical order (R365). -/
def slotBytes (k : Core) (x : Ctx) : List Byte :=
  x.opslots.flatMap fun p => (List.range 8192).map fun i => SMap.get 0 k.opfolio (p * 8192 + i)

/-- Every busy ductus slot holds a result (R194). -/
def Ctx.ductsIn (x : Ctx) : Bool := x.ducts.all fun t => !t.busy || t.result

/-- Every leaf of a context goes to its backing (R354). -/
def spillAll (s : State) (ref : CtxRef) : State :=
  let core := refCore ref
  match s.findCtx ref with
  | none => s
  | some x =>
    let s := (List.range x.leaves.length).foldl (fun s l => markSpill s ref l none) s
    ((s.core core).spills.filter fun p => p.block == x.block).foldl (fun s p => finishSpill s core p) s

/-- What is never in an image is gone from a saved context (R363), and its load loads the tracer's registers anew (R98). -/
def Ctx.stored (x : Ctx) : Ctx :=
  { x with strands := x.strands.map fun t : Strand => { t with tracer := {} }
           fetchV := false, fetchRows := 0, fetchBytes := [], opslots := [] }

/-- The place a saved context's endpoints name: no slot has it. -/
def savedPlace (x : Ctx) : Nat := 12 + x.uid

/-- The target leaves its slot: its block leaves the pool, its operand-folio slots are freed (R149, R354, R365). -/
def leaveSlot (s : State) (ref : CtxRef) (x : Ctx) (tag : BitVec 256) : State :=
  let core := refCore ref
  let s := moveEnds (s.dropCtx ref) core (refPlace ref) core (savedPlace x)
  let s := s.modCore core fun k =>
    { x.opslots.foldl Core.zeroSlot k with pool := k.pool.map fun e => if e.st = .inuse ∧ e.ma = x.block then {} else e }
  { s with images := (s.images.filter fun e => e.1 ≠ tag) ++ [(tag, x.stored)] }

/-- The image's read of the register files corrects their single-bit errors, each counted at the die (R105). -/
def countFlips (s : State) (ref : CtxRef) (x : Ctx) : State :=
  s.modDie (s.dieOf (refCore ref)) fun d => { d with ceFolio := Nat.repeat satInc ((x.flips.map fun f => f.1 / 8).eraseDups.length) d.ceFolio }

/-- CTXSV (R149, R354, R363-R365). -/
def execCtxsv (d : SReg) (a : AReg) (b : SReg) (_oc : Fin 16) (s : State) : Out :=
  let ea := s.getA a
  .next (s.atPriv 1
    (if !aligned ea 4096 then s.addrAlign ea
     else withTarget s d (s.getS b) fun ref x =>
      if x.prot then s.status d stProtected
      else if x.rung ≠ .halted ∧ x.rung ≠ .shadowed then s.status d stNotHalted
      else if !x.ductsIn || s.maHeld x.block.toNat 0x180000 then s.hold
      else if !x.vPoison.isEmpty || !x.mPoison.isEmpty || !x.semPoison.isEmpty || x.opslots.any (fun p => (s.core (refCore ref)).opPoison.any fun w => w / 1024 == p) then fileTrap s
      else match s.writeVa s.agent ea (49152 + 8192 * x.opslots.length) with
      | .error (e, va) => s.memFail e va
      | .ok _ =>
        let s := countFlips (spillAll s ref) ref x
        match s.findCtx ref with
        | none => s
        | some x =>
          let body := imageBody s (refCore ref) x
          let slots := slotBytes (s.core (refCore ref)) x
          let tag := Config.imageTag (body ++ slots)
          s.withWrite ea (body ++ leBytes 32 tag.toNat ++ slots) fun s => (leaveSlot s ref x tag).status d stDone))

/-! ## Loading an image (R149, R354, R356, R364, R365) -/

/-- The checks of an image's own bytes (R364). -/
def imageOk (s : State) (img slots : List Byte) : Bool :=
  let at_ := fun (o n : Nat) => leNat ((img.drop o).take n)
  at_ 0xBFE0 32 == (Config.imageTag (img.take 0xBFE0 ++ slots)).toNat && at_ 0xBF80 4 == 0x4F5A4358 && at_ 0xBF90 4 == 1
    && s.hasPriv (at_ 0xBF84 4) && (s.currency (at_ 0xAF38 8 / 2 ^ 36 % 4096)).isSome

/-- Operand-folio slots that an image names. -/
def imageSlots (img : List Byte) : Nat := leNat ((img.drop 0xAF38).take 8) / 2 ^ 16 % 1024

/-- The entry of the pool that takes an image's block (R354). -/
def Core.loadEntry (k : Core) : Option (Fin 12) := (k.poolEntry .empty).or (k.poolEntry .free)

/-- Pinned leaves of a saved context. -/
def Ctx.pinnedLeaves (x : Ctx) : List Nat := (List.range x.leaves.length).filter fun i => (x.leaves[i]?).any (·.pinned)

/-- A loaded context in its slot: pinned leaves back in the folio, operand-folio contents read in, the block in the pool. A second copy of a
context that is still held is a context of its own (log 22). -/
def installCtx (s : State) (ref : CtxRef) (x : Ctx) (pe : Fin 12) (phys : List Nat) (slots : List Byte) : State :=
  let core := refCore ref
  let ops := (s.core core).freeSlots.take (slots.length / 8192)
  let s := (x.pinnedLeaves.zip phys).foldl (fun s e => loadLeaf s core e.2 (leafBacking x e.1)) s
  let y := (x.pinnedLeaves.zip phys).foldl (fun (y : Ctx) e => y.setLeaf e.1 { phys := some e.2, pinned := true }) x
  let y := match ref with
    | .resident .. => y.runAgain
    | .shadow .. => { y.runAgain with rung := .shadowed }
  let s := s.modCore core fun k =>
    { k.putOps (ops.zipIdx.flatMap fun p => ((slots.drop (8192 * p.2)).take 8192).zipIdx.map fun b => (p.1 * 8192 + b.2, b.1)) with
      pool := k.pool.set pe { st := .inuse, ma := x.block } }
  let uid := if s.contexts.any fun e => e.2.uid == x.uid then s.fresh else x.uid
  moveEnds ((s.putCtx ref { y with opslots := ops, swapOrder := s.fresh, uid := uid }).freshen) core (savedPlace x) core (refPlace ref)

/-- The slot a name gives CTXLD, and what stands in its way (R149, R365, R388). -/
def loadTarget (s : State) (name : Word) : Except Word CtxRef :=
  match ctxOfName s name.toNat with
  | none => .error stBadTarget
  | some ref =>
    if ref = .resident s.focus.core s.focus.slot then .error stSelf
    else match s.findCtx ref with
    | some x => .error (if x.prot then stProtected else stBusy)
    | none => if (s.core (refCore ref)).admits false then .ok ref else .error stBusy

/-- CTXLD (R149, R354, R364, R365). -/
def execCtxld (d : SReg) (a : AReg) (b : SReg) (_oc : Fin 16) (s : State) : Out :=
  let ea := s.getA a
  .next (s.atPriv 1
    (if !aligned ea 4096 then s.addrAlign ea
     else match loadTarget s (s.getS b) with
     | .error st => s.status d st
     | .ok ref =>
       s.withRead .rd ea 49152 fun s img =>
       s.withRead .rd (ea + 49152) (8192 * imageSlots img) fun s slots =>
         let k := s.core (refCore ref)
         match s.images.find? fun e => e.1.toNat == leNat ((img.drop 0xBFE0).take 32), k.loadEntry with
         | none, _ => s.status d stBadImage
         | some (_, x), pe =>
           if !imageOk s img slots then s.status d stBadImage
           else if k.freeSlots.length < imageSlots img then s.status d stBusy
           else match pe with
           | none => s.status d stBusy
           | some pe =>
             match gatherLeaves s (refCore ref) x.pinnedLeaves.length (.load s.cx.uid (strandIx s.focus).val) with
             | (t, none) => t.hold
             | (t, some phys) => (installCtx t ref x pe phys slots).status d stDone))

end Sys2Proof.Machine
end

