-- ==== Sys2Proof/Machine/Boot.lean ====
section
/-! DEFINITION. Resets, zeroisation and repair, the boot sequence, the blotter, the HBM scrub
(05 R107-R112, 15 R245, 25 R388-R392, 27 R411, R421-R422). -/

namespace Sys2Proof.Machine

/-! ## Repair (R107) -/

/-- Spare rows of a record's pool: two for each folio bank, 16 for the vector files, two for the semaphore file. -/
def spareCount (kind : Nat) : Nat := if kind = 2 then 16 else 2
/-- Two records draw on one pool. -/
def samePool (a b : Word) : Bool := fld a 63 60 == fld b 63 60 && (fld a 63 60 != 1 || fld a 59 48 == fld b 59 48)
/-- Apply records in table order: those applied, and whether one found its pool exhausted. -/
def applyRecords : List Word → List Word → Bool → List Word × Bool
  | [], done, un => (done, un)
  | r :: rs, done, un =>
    if (done.filter (samePool r)).length < spareCount (fld r 63 60) then applyRecords rs (done ++ [r]) un else applyRecords rs done true

/-- The repair step of R110: the remap is rebuilt from the table. -/
def Core.applyRepair (k : Core) : Core :=
  let r := applyRecords k.repair [] false
  { k with remap := r.1, applied := BitVec.ofNat 8 r.1.length, unrep := r.2 }

/-- ZEROISATION_COMPLETE (R110). -/
def execZeroisationComplete (core : Nat) (s : State) : Out :=
  if !(s.core core).zeroising then .next s
  else .next (s.modCore core fun k =>
    { k.applyRepair with folio := [], folioPoison := [], flips := [], opfolio := [], opPoison := [], idleV := [], idleSem := [], inject := 0, zeroising := false })

/-! ## Resets (R109, R245) -/

/-- A reset kills a context without delivering anything to it (R109). -/
def resetKill (s : State) (ref : CtxRef) : State :=
  match s.findCtx ref with
  | none => s
  | some x =>
    let s := abortPartners s ref x
    let s := x.tasks.foldl (fun s e => dropTransfer s x e.2) s
    let s := leaveAll (removeCtx (retireHandles s x) ref x) x.uid
    let s := if x.prot then s.modCore (refCore ref) (·.holdFor ref x) else s.modCore (refCore ref) (·.release x)
    unitDone s x.launch true

/-- A core's registers after a reset that covers it; the repair table, the summary, the pool, the fence, the draw units and what is held
stay (R107-R109, R339, R354). -/
def Core.afterReset (k : Core) (code : BitVec 3) : Core :=
  { ({} : Core) with
    folio := k.folio, folioPoison := k.folioPoison, flips := k.flips, opfolio := k.opfolio, opPoison := k.opPoison, idleV := k.idleV, idleSem := k.idleSem, inject := k.inject
    repair := k.repair, remap := k.remap, applied := k.applied, unrep := k.unrep, done := k.done, fail := k.fail, ovf := k.ovf
    semok := k.semok, vecok := k.vecok, folok := k.folok, resetCause := code, zeroising := true, fenced := k.fenced, tdu := k.tdu
    pool := k.pool, held := k.held }

/-- A core or partition reset of one core. -/
def resetCore (s : State) (core : Nat) (code : BitVec 3) : State :=
  (((s.core core).contexts core).foldl (fun s e => resetKill s e.1) s).modCore core (·.afterReset code)

/-- CORE_RESET (R109). -/
def execCoreReset (core : Nat) (s : State) : Out := .next (if core < coreCount then resetCore s core 4 else s)

/-- A die after a package or power-on reset: only the blotter keeps its running job and its progress (R392, R422). Poison stays in HBM
that keeps its contents. -/
def Die.afterReset (d : Die) (power : Bool) : Die :=
  { ({} : Die) with
    blotNext := d.blotNext, blotJobs := if d.blotRun then d.blotJobs.take 1 else [], blotJob := d.blotJob, blotRun := d.blotRun
    blotTotal := d.blotTotal, blotDone := d.blotDone, blotCut := d.blotRun
    hbmPoison := if power then [] else d.hbmPoison, corrected := if power then [] else d.corrected }

/-- A context extent of a job that a reset cut off names a slot (R392). -/
def inCutJob (d : Die) (core slot : Nat) : Bool :=
  d.blotRun && (d.blotJobs.take 1).any fun j => j.extents.any (· == .ctx core slot)

/-- A core after a package or power-on reset: the pool is emptied but for held blocks, the draw units are seeded with 0 (R109, R339, R354, R392). -/
def Core.afterPackage (k : Core) (core : Nat) (d : Die) (power : Bool) : Core :=
  let code : BitVec 3 := if power then 1 else 2
  let held := k.held.filter fun h => inCutJob d core h.slot
  let y : Core := { k.afterReset code with pool := k.pool.map fun e => if e.st = .inuse && held.any (·.block == e.ma) then e else {}
                                           tdu := Vector.replicate 3 (Tdu.seed 0), fenced := false, held := held }
  if power then { y with repair := [], done := false, fail := false, ovf := false, semok := false, vecok := false, folok := false } else y

/-- A protected context that a package reset kills is held first, as a kill holds it (R388). -/
def Core.holdProtected (k : Core) (core : Nat) : Core := (k.contexts core).foldl (fun k e => if e.2.prot then k.holdFor e.1 e.2 else k) k

/-- Ports after the boot trains them again: all eight lanes (R408); key counters go on (R409). -/
def Port.afterReset (p : Port) : Port := { p with lanes := .full, failedLanes := [], retraining := false, wide := false, out := [], replay := [], handed := [], authFails := 0 }

/-- The package after a package or power-on reset, up to R111 step 2. -/
def packageReset (s : State) (power : Bool) : State :=
  let own := fun k : Nat => decide (k / 2 ^ 52 = s.package) && keyNear k
  let dieOf := fun c : Nat => s.die (s.package * 4 + c / 96)
  { s with
    time := 0, powerUp := power, boot := if Config.imageAccepted 1 then 2 else 1, poweredOff := false, marchAt := 0, turn := 0
    cores := (List.range coreCount).map fun c => (c, ((s.core c).holdProtected c).afterPackage c (dieOf c) power)
    dies := s.dies.map fun e => (e.1, if e.1 / 4 = s.package then e.2.afterReset power else { e.2 with waiters := [] })
    mem := if power then s.mem.filter fun e => !own e.1 else s.mem
    sectors := if power then s.sectors.filter fun e => !own (64 * e.1) else s.sectors
    keys := if power then [] else s.keys
    groups := [], currencies := [], repay := [], works := [], sections := [], waitUnits := [], vis := [], pfq := Vector.replicate 2 {}
    parts := s.parts.filter fun e => 16 ≤ e.1
    ports := if power then [] else SMap.mapVals Port.afterReset s.ports
    results := [], releases := [], powerLimit := 2800, thot := 95, ttripHold := false, ttripAt := none, ttripIn := [], windows := Vector.replicate 2 0, ide := Vector.replicate 2 false, healthCores := [], retested := [], hypLoaded := false }

def execPowerOnReset (s : State) : Out := .next (packageReset s true)
def execPackageReset (s : State) : Out := .next (packageReset s false)

/-! ## The boot sequence (R111, R112) -/

/-- A backing block of a core's die (R111 step 3, R354). -/
def bootBlock (core i : Nat) : Word := BitVec.ofNat 64 (core / 96 * 2 ^ 48) ||| (Config.poolBlock core i &&& 0x0000FFFFFFE00000)

/-- Step 3 for one core; a block held for a resumed blotter job stays INUSE (R388, R392). -/
def Core.fillPool (k : Core) (core : Nat) : Core :=
  { k with pool := Vector.ofFn fun i : Fin 12 => if k.pool[i].st = .inuse then k.pool[i] else { st := .free, ma := bootBlock core i.val } }

/-- The record of the boot march launch on given cores (R41, R76). -/
def marchRecord (cores : List Nat) : List Word :=
  let n := cores.length
  let quarter := fun i : Nat => BitVec.ofNat 64 ((cores.getD (4 * i) 0) + (cores.getD (4 * i + 1) 0) * 2 ^ 16 + (cores.getD (4 * i + 2) 0) * 2 ^ 32
    + (cores.getD (4 * i + 3) 0) * 2 ^ 48)
  [BitVec.ofNat 64 (1 + (n - 1) * 2 ^ 16 + 96 * 2 ^ 32), BitVec.ofNat 64 100, BitVec.ofNat 64 (65536 * 2 ^ 32), 0, Config.marchEntry &&& ~~~0xF, 0, 0, 0,
   3, 0, 0, 0, 0, 0, 0, 0] ++ (List.range ((n + 3) / 4)).map quarter ++ [17, 196608, 18, 16384, 19, 512]

/-- The housekeeping core as a launch's maker: its units run at FW (R135). -/
def firmware (part : Fin 16) (asid : BitVec 12) (job : Nat) : Maker :=
  { priv := 2, part := part, asid := asid, job := job, vi := none, prot := false, housekeeping := true, maker := none, currency := 1, seed := 0 }

/-- The hypervisor as the maker of its own first units, which run at HYP (R135); its record names its currency (log 109). -/
def hypervisor (part : Fin 16) (asid : BitVec 12) (job : Nat) : Maker :=
  { priv := 1, part := part, asid := asid, job := job, vi := none, prot := false, housekeeping := false, maker := none, currency := 0, seed := 0 }

/-- Launch the boot march on cores (R76, R111 step 4). -/
def launchMarch (s : State) (cores : List Nat) : State := (createLaunch s (firmware 0 0 0) (marchRecord cores)).1

/-- Every core number. -/
def allCores : List Nat := List.range coreCount

/-- SCLR of cr.repair.ctl (R108). -/
def Core.clearSummary (k : Core) : Core := { k with done := false, fail := false, semok := false, vecok := false, folok := false }

/-- Step 4 once every resumed blotter job is complete (R392): summaries clear, the march launch is made. -/
def continueBoot (s : State) : State :=
  if s.boot = 4 ∧ !(s.dies.any fun e => e.1 / 4 = s.package && e.2.blotRun) then
    let s := allCores.foldl (fun s c => s.modCore c Core.clearSummary) s
    { launchMarch s allCores with boot := 5, marchAt := s.time }
  else s

/-- HBM_TRAINING_COMPLETE: steps 2 and 3 are over (R111). After a power-on reset the tables come from the repair store,
its records offered in turn, and every core is reset once more. -/
def execHbmTrainingComplete (s : State) : Out :=
  if s.boot ≠ 2 then .next s
  else
    let power := s.powerUp
    let s := allCores.foldl (fun s c =>
      let s := if power then resetCore (s.modCore c fun k => (SMap.get [] s.repairStore c).foldl Core.offer { k with repair := [] }) c 4 else s
      s.modCore c (·.fillPool c)) s
    .next (continueBoot { s with boot := 4 })

/-- What R112 decides for a core. -/
inductive Fate where
  | available
  | retest
  | fence
  deriving DecidableEq, Repr

/-- The table of R112. `known` are the records already in the repair store; `second` says the march has run twice. -/
def fateOf (k : Core) (known : List Word) (second : Bool) : Fate :=
  if !k.done || k.ovf || k.unrep then .fence
  else if !k.fail then .available
  else if second then .fence
  else if k.repair.any fun r => !known.contains r then .retest
  else .fence

/-- Act on one core (R112). -/
def applyFate (s : State) (c : Nat) : State :=
  let k := s.core c
  let known := SMap.get [] s.repairStore c
  match fateOf k known (s.retested.contains c) with
  | .available => s
  | .fence => { s.modCore c fun k => { k with fenced := true } with healthCores := s.healthCores ++ [c] }
  | .retest =>
    let s := { s with repairStore := SMap.set s.repairStore c (known ++ k.repair.filter fun r => !known.contains r), retested := s.retested ++ [c] }
    launchMarch (resetCore (s.modCore c Core.clearSummary) c 4) [c]

/-- No unit of the housekeeping core waits or runs. -/
def marchOver (s : State) : Bool :=
  !(s.contexts.any fun e => e.2.housekeeping) && s.waitUnits.isEmpty

/-- BOOT_MARCH_TIMEOUT: the launch is over, or 50 ms have passed; each core's fate is decided; with no second run outstanding the
hypervisor is loaded (R111 steps 5 and 6, R112, R419). A core already decided is not decided again. -/
def execBootMarchTimeout (s : State) : Out :=
  if s.boot ≠ 5 || (!marchOver s && decide (s.time < s.marchAt + 80000000)) then .next s
  else
    let again := s.retested
    let t := ((if again = [] then allCores else again).filter fun c => !(s.core c).fenced).foldl applyFate s
    if t.retested = again then .next { t with boot := 7, hypLoaded := Config.imageAccepted 2 } else .next { t with marchAt := s.time }

/-! ## The blotter (R388-R392, R421, R422) -/

/-- A run of keys filled with clean sectors. -/
def cleanSectors (m : SMap Sector) (lo n : Nat) : SMap Sector :=
  (m.filter fun e => e.1 < lo) ++ (List.range n).map (fun i => (lo + i, { clean := true })) ++ m.filter fun e => lo + n ≤ e.1

/-- Scrub 2 MiB: zero ciphertext, zero tag, CLEAN = 1, fresh check bits (R414). -/
def scrubUnit (s : State) (o ma : Nat) : State :=
  let k := maKey o ma
  let s := { s with mem := s.mem.filter fun e => !(k ≤ e.1 && e.1 < k + 2 ^ 21), sectors := cleanSectors s.sectors (k / 64) 32768 }
  serveAddr (s.modDie (keyDie k) fun d =>
    { d with hbmPoison := d.hbmPoison.filter fun p => !(k / 64 ≤ p && p < k / 64 + 32768)
             l2Poison := d.l2Poison.filter fun p => !(k / 128 ≤ p && p < k / 128 + 16384) }) o none k (2 ^ 21)

/-- Scrub what a killed protected context left (R388, R389). -/
def scrubHeld (s : State) (o core slot : Nat) : State :=
  (((s.core core).held.filter fun h => h.slot == slot).foldl (fun s h =>
    scrubUnit (s.modCore core fun k => h.opslots.foldl Core.zeroSlot (h.leaves.foldl Core.zeroLeaf k)) o h.block.toNat) s).modCore core fun k =>
      { k with held := k.held.map fun h => if h.slot == slot then { h with scrubbed := true } else h }

/-- The unit of a job by number: the extent and the place within it (R389). -/
def unitAt : List Extent → Nat → Option (Extent × Nat)
  | [], _ => none
  | e :: es, n => if n < extentUnits e then some (e, n) else unitAt es (n - extentUnits e)

/-- Perform one unit. -/
def doUnit (s : State) (o : Nat) (u : Extent × Nat) : State :=
  match u with
  | (.ctx core slot, _) => scrubHeld s o core slot
  | (.mem ma _, i) => scrubUnit s o (ma.toNat + 2 ^ 21 * i)

/-- The resources of a job's context extents that it has scrubbed become free, but for those that a later job names: they stay held until that
one is complete (R388, R389). -/
def freeHeld (s : State) (j : BlotJob) (later : List BlotJob) : State :=
  j.extents.foldl (fun s e =>
    match e with
    | .ctx core slot =>
      if later.any fun l => l.extents.contains (.ctx core slot) then s
      else s.modCore core fun k =>
        let mine := k.held.filter fun h => h.slot == slot && h.scrubbed
        { mine.foldl (fun k h => k.freeBlock h.block) k with held := k.held.filter fun h => !(h.slot == slot && h.scrubbed) }
    | .mem .. => s) s

/-- A strand that waits for a blotter job completes with a progress word (R147). -/
def Strand.endBlwait (t : Strand) (job : Nat) (v : Word) : Strand :=
  match t.wait with
  | some (.blot d n _) => if n = job then (t.setS d v).finishWait else t
  | _ => t

/-- Wake the strands of a die that wait for a job. -/
def wakeBlot (s : State) (o job : Nat) (v : Word) : State :=
  { s with cores := s.cores.map fun k : Nat × Core => (k.1, if s.dieOf k.1 = o then
      { k.2 with slots := SMap.mapVals (fun x : Ctx => { x with strands := x.strands.map fun t => t.endBlwait job v }) k.2.slots } else k.2) }

/-- BLOTTER_UNIT_COMPLETE: the next unit is done; with the last one the job ends, its holds are released, the next job starts (R389, R422). -/
def execBlotterUnitComplete (owner : Nat) (s : State) : Out :=
  let d := s.die owner
  if !d.blotRun || d.blotCut then .next s
  else match d.blotJobs with
  | [] => .next s
  | j :: rest =>
    match unitAt j.extents d.blotDone.toNat with
    | none => .next s
    | some u =>
      let s := (doUnit s owner u).modDie owner fun d => { d with blotDone := d.blotDone + 1 }
      if (s.die owner).blotDone ≠ d.blotTotal then .next s
      else
        let s := (freeHeld s j rest).modDie owner fun d => { d with blotRun := false, blotJobs := rest }
        let s := wakeBlot s owner j.num.toNat (s.die owner).progress
        .next (continueBoot (s.modDie owner Die.startBlot))

/-- BLOTTER_RESUME: with HBM trained, the job that a reset cut off goes on from its first unit not counted complete (R392). -/
def execBlotterResume (owner : Nat) (s : State) : Out :=
  .next (if s.boot ≥ 4 ∧ (s.die owner).blotCut then s.modDie owner fun d => { d with blotCut := false } else s)

/-- HBM_SCRUB: sectors that held a corrected error are rewritten with what they hold (R411). -/
def execHbmScrub (owner : Nat) (s : State) : Out := .next (s.modDie owner fun d => { d with corrected := [] })

end Sys2Proof.Machine
end

