-- ==== Sys2Proof/Machine/Ductus.lean ====
section
/-! DEFINITION. Ductus chains: launch, steps at the owners, results and the slots (06 R131-R134, 11 R190-R198). -/

namespace Sys2Proof.Machine

/-- Final load size of a size code (R131). -/
def ductSize (lc : Fin 5) : Nat := if lc.val = 0 then 0 else 4 * 2 ^ lc.val
/-- Largest time a chain is waited for, in cycles (R134). -/
def ductLimit : Nat := 1048576

/-- Urgency of a value (R343). -/
def urgency (e : Nat) : BitVec 3 := BitVec.ofNat 3 (Nat.min 7 (Nat.log2 (Nat.max 1 e) / 2))

/-- A ductus slot of a context. -/
def Ctx.modDuct (x : Ctx) (tag : Fin 16) (f : DuctSlot → DuctSlot) : Ctx := { x with ducts := x.ducts.set tag (f x.ducts[tag]) }

/-- Steps of vB: mask in bytes 0-7, offset in bytes 8-11 of each 16 (R131). -/
def ductSteps (v : VecWord) (n : Nat) : List (Word × BitVec 32) :=
  (List.range n).map fun i => (v.extractLsb' (128 * i) 64, v.extractLsb' (128 * i + 64) 32)

/-! ## Flits (R190, R191, R407) -/

/-- The 128 bytes of a chain request (R190). -/
def packetBytes (p : Packet) : List Byte :=
  let steps := p.steps.flatMap fun e => leBytes 8 e.1.toNat ++ leBytes 4 e.2.toNat
  leBytes 8 (5 * 2 ^ 60 + p.part.val * 2 ^ 56 + p.rgen.toNat * 2 ^ 48 + p.oc.val * 2 ^ 44 + p.urg.toNat * 2 ^ 41 + p.priv.val * 2 ^ 39 + p.k * 2 ^ 36
      + (p.n - 1) * 2 ^ 33 + p.lc.val * 2 ^ 30 + (p.h - 1) * 2 ^ 27 + p.hops * 2 ^ 23 + p.asid.toNat * 2 ^ 11)
    ++ leBytes 8 (p.rpkg * 2 ^ 50 + p.rdie * 2 ^ 48 + p.rcore % 96 * 2 ^ 41 + p.rslot * 2 ^ 39 + p.tag.val * 2 ^ 35 + p.seq.toNat * 2 ^ 19)
    ++ leBytes 8 p.p.toNat ++ steps ++ List.replicate (104 - steps.length) 0

/-- The 128 bytes of a chain result (R191). -/
def resultBytes (r : DuctResult) : List Byte :=
  leBytes 8 (6 * 2 ^ 60 + r.part.val * 2 ^ 56 + r.rgen.toNat * 2 ^ 48)
    ++ leBytes 8 (r.rpkg * 2 ^ 50 + r.rcore / 96 * 2 ^ 48 + r.rcore % 96 * 2 ^ 41 + r.rslot * 2 ^ 39 + r.tag.val * 2 ^ 35 + r.seq.toNat * 2 ^ 19)
    ++ leBytes 8 r.p.toNat ++ leBytes 8 r.status.toNat ++ r.data ++ List.replicate (96 - r.data.length) 0

/-- A generation is older than a partition's present one (R196, R410), counted modulo 256. -/
def staleGen (s : State) (part : Fin 16) (gen : BitVec 8) : Bool := (s.partGen part - gen).toNat ≠ 0 && (s.partGen part - gen).toNat < 128
/-- A flit of a partition's older generation (R410). -/
def staleFlit (s : State) (flit : List Byte) : Bool :=
  let h := leWord (flit.take 8)
  staleGen s (Fin.ofNat 16 (fld h 7 4)) (h.extractLsb' 8 8)

def execDuct (tag : Fin 16) (a : AReg) (b : VNum) (n1 h1 : Fin 8) (lc : Fin 5) (oc : Fin 16) (s : State) : Out :=
  let slot := s.cx.ducts[tag]
  if slot.busy then .next (s.trap 0x0F 0 0)
  else
    let p := s.getA a
    let seq := slot.seq + 1
    let pkt : Packet :=
      { part := s.cx.part, rgen := s.partGen s.cx.part, oc := oc, urg := urgency (s.ctxValue s.cx), priv := s.cx.priv, k := 0
        n := n1.val + 1, lc := lc, h := h1.val + 1, hops := 0, asid := s.cx.asid, rpkg := s.package, rdie := s.focus.core / 96
        rcore := s.focus.core, rslot := s.focus.slot, uid := s.cx.uid, tag := tag, seq := seq, p := p
        steps := ductSteps (s.getV b) (n1.val + 1) }
    let new : DuctSlot := { busy := true, core := s.focus.core, slot := s.focus.slot, len := ductSize lc, seq := seq, start := p, at_ := s.time, strand := (strandIx s.focus).val, oc := oc }
    .next (((s.modCx fun x => x.modDuct tag fun _ => new).modDi fun d => { d with packets := d.packets ++ [pkt] }).retire)

/-- The status word of R133. -/
def ductStatus (st k hops fk : Nat) : Word := BitVec.ofNat 64 (fk * 65536 + hops * 4096 + k * 256 + st)
/-- Bits [7:0] of a status word. -/
def ductOk (w : Word) : Bool := w.extractLsb' 0 8 = 0

/-- The vector form's register (R133). -/
def ductVector (t : DuctSlot) : VecWord :=
  BitVec.ofNat 4096 (leNat ((t.data ++ List.replicate (64 - t.data.length) 0) ++ leBytes 8 t.p.toNat ++ leBytes 8 t.status.toNat))

def execDcol (dst : DcolDst) (tag : Fin 16) (s : State) : Out :=
  let t := s.cx.ducts[tag]
  if !t.busy then .next (s.trap 0x0F 0 0)
  else if !t.result then .next s.hold
  else
    let free := s.modCx fun x => x.modDuct tag fun t => { t with busy := false, result := false }
    match dst with
    | .s d =>
      let v := if ductOk t.status && t.len != 0 then leWord (t.data.take 8) else t.p
      .next ((free.modSt fun k => (k.setS d v).setS (d + 1) t.status).retire)
    | .v d => .next ((free.setV d (ductVector t)).retire)

/-! ## Steps at an owner (R132, R192, R193) -/

/-- What serving a packet comes to. -/
inductive Served where
  /-- A page is being made resident, or the byte is held: the packet waits (R193). -/
  | waits (s : State)
  /-- A step is made, and the next one is looked at in its turn. -/
  | again (s : State) (p : Packet)
  | forward (p : Packet) (owner : Nat)
  | done (s : State) (p : Packet) (status : Word) (data : List Byte)

/-- Status and FK of a failed step; none where the packet waits. -/
def ductFail : MemErr → Option (Nat × Nat)
  | .xlateMiss _ => some (1, 1)
  | .xlatePerm _ => some (1, 2)
  | .accessFault _ => some (1, 3)
  | .memUe => some (4, 0)
  | .memIntegrity => some (5, 0)
  | .absent | .held => none

/-- The context that a result is for: wherever it is held, the one whose slot waits for this sequence number of a chain issued from the core and slot
named (R194, log 14). -/
def State.requester (s : State) (core slot : Nat) (tag : Fin 16) (seq : BitVec 16) : Nat :=
  ((s.contexts.find? fun e => let t := e.2.ducts[tag]; t.busy && !t.result && t.seq == seq && t.core == core && t.slot == slot).map (·.2.uid)).getD 0
/-- The context of this package that a chain was issued by, while it waits for it. -/
def State.issuer (s : State) (p : Packet) : Option Ctx :=
  if p.rpkg = s.package then (s.findUid (if p.uid = 0 then s.requester p.rcore p.rslot p.tag p.seq else p.uid)).map (·.2) else none

/-- Perform the next step at owner `here`, or leave it: a move to another owner is a hop, whether or not that owner exists (R132, R193). There is no
atomicity across steps, so each is a step of its own. ALIGN precedes the owner check (log 104), and p is returned as it was read (log 99). -/
def serveStep (s : State) (here : Nat) (p : Packet) : Served :=
  match p.steps[p.k]? with
  | none => .done s p (ductStatus 0 (p.n - 1) p.hops 0) []
  | some (m, o) =>
    let addr := baseDisp p.p o
    let owner := if addr.extractLsb' 48 16 = 0xFFFF then here else (addr.extractLsb' 48 16).toNat
    let last := p.k + 1 = p.n ∧ ductSize p.lc > 0
    let size := if last then ductSize p.lc else 8
    if owner ≠ here then
      if p.hops = p.h then .done s p (ductStatus 2 p.k p.hops 0) []
      else
        let q := { p with hops := p.hops + 1 }
        if s.domain.contains (owner / 4) && (owner / 4 != here / 4 || s.partIn (owner / 4) p.part) then .forward q owner
        else if !aligned addr size then .done s q (ductStatus 3 p.k q.hops 0) []
        else .done s q (ductStatus 1 p.k q.hops 3) []
    else if !aligned addr size then .done s p (ductStatus 3 p.k p.hops 0) []
    else
      let from_ := s.issuer p
      let ag : Agent := { die := here, part := p.part, asid := p.asid, vi := from_.bind (·.vi), home := true }
      match s.readVa ag .rd addr size with
      | .error (e, va) =>
        match ductFail e with
        | some (st, fk) => .done (countError s ag e va) p (ductStatus st p.k p.hops fk) []
        | none => .waits (if e = .absent then askResident s ag va else s)
      | .ok (xs, bs) =>
        if from_.any fun c => hostWaits s c xs false then .waits s else
        let s := noteRead (match from_ with | some c => hostChargeN s c xs false size | none => s) here xs
        let w := leWord (bs.take 8) &&& m
        if last then .done s p (ductStatus 0 p.k p.hops 0) (leBytes 8 w.toNat ++ bs.drop 8)
        else if p.k + 1 = p.n then .done s { p with p := w } (ductStatus 0 p.k p.hops 0) []
        else .again s { p with p := w, k := p.k + 1 }

/-- The reads that a chain has yet to make in this package, as memory stands: by whom, the address and the size of each. -/
def chainReads (s : State) : Nat → Nat → Packet → List (Agent × Word × Nat)
  | 0, _, _ => []
  | n + 1, here, p =>
    let from_ := s.issuer p
    let ag : Agent := { die := here, part := p.part, asid := p.asid, vi := from_.bind (·.vi), home := true }
    let size := if p.k + 1 = p.n ∧ ductSize p.lc > 0 then ductSize p.lc else 8
    let mine := match p.steps[p.k]? with | some (_, o) => [(ag, baseDisp p.p o, size)] | none => []
    match serveStep s here p with
    | .forward q o => if o / 4 = s.package then chainReads s n o q else []
    | .again _ q => mine ++ chainReads s n here q
    | .waits _ | .done .. => mine

/-- The executing strand's chains that are out, where they stand: at an owner of this package, with what they have yet to read. -/
def ownChainReads (s : State) : List (Agent × Word × Nat) :=
  if s.cx.ducts.any fun t => t.busy && !t.result && t.strand == (strandIx s.focus).val then
    s.dies.flatMap fun d => (d.2.packets.filter fun p => (s.issuer p).any (fun c => c.uid == s.cx.uid) && s.cx.ducts[p.tag].strand == (strandIx s.focus).val).flatMap
      (chainReads s 16 d.1)
  else []

/-- An instruction would write bytes that an older chain of its strand has yet to read: it is ordered after the chain (R221, R222). `t` is what it would
leave. -/
def overtakesChain (s t : State) : Bool :=
  (ownChainReads s).any fun e => ((s.readVa e.1 .rd e.2.1 e.2.2).toOption.map (·.2)) != ((t.readVa e.1 .rd e.2.1 e.2.2).toOption.map (·.2))

/-- Order of service: descending urgency, then arrival (R192). -/
def serveOrder (ps : List Packet) : List (Packet × Nat) := ps.zipIdx.insertionSort fun a b => b.1.urg.toNat ≤ a.1.urg.toNat

/-- The result packet of an ended chain (R191). -/
def ductResult (p : Packet) (status : Word) (data : List Byte) : DuctResult :=
  { part := p.part, rgen := p.rgen, rpkg := p.rpkg, rcore := p.rcore, rslot := p.rslot, uid := p.uid, tag := p.tag, seq := p.seq, p := p.p
    status := status, data := data }

/-- A chain that has ended sends its result straight to the requester, across the package boundary in a flit of kind 6 (R190, R191). -/
def sendResult (s : State) (p : Packet) (status : Word) (data : List Byte) : State :=
  let r := ductResult p status data
  if p.rpkg = s.package then { s with results := s.results ++ [r] }
  else s.queueFlit p.rpkg (flitOf s 6 p.part p.rgen p.urg p.rpkg (resultBytes r))

/-- A packet goes on to the next owner, across the package boundary in a flit of kind 5 (R190, R192). -/
def sendOn (s : State) (p : Packet) (owner : Nat) : State :=
  if owner / 4 = s.package then s.modDie owner fun d => { d with packets := d.packets ++ [p] }
  else s.queueFlit (owner / 4) (flitOf s 5 p.part p.rgen p.urg (owner / 4) (packetBytes p))

/-- Serve the first packet in order that can go on. -/
def serveFirst (o : Nat) : List (Packet × Nat) → State → State
  | [], s => s
  | (p, i) :: r, s =>
    let drop := fun t : State => t.modDie o fun d => { d with packets := d.packets.eraseIdx i }
    match serveStep s o p with
    | .waits t => serveFirst o r t
    | .again t q => t.modDie o fun d => { d with packets := d.packets.set i q }
    | .forward q x => sendOn (drop s) q x
    | .done t q w bs => sendResult (drop t) q w bs

/-- DUCTUS_STEP_SERVE (R192): stale packets are dropped (R196); of the 256 buffered packets one is served. -/
def execDuctusStepServe (owner : Nat) (s : State) : Out :=
  let s := s.modDie owner fun d => { d with packets := d.packets.filter fun p => !staleGen s p.part p.rgen }
  .next (serveFirst owner (serveOrder ((s.die owner).packets.take 256)) s)

/-! ## Results and loss (R134, R194) -/

/-- A result or LOST stands in a slot. -/
def DuctSlot.fill (t : DuctSlot) (p status : Word) (data : List Byte) : DuctSlot :=
  { t with result := true, p := p, status := status, data := data }
/-- A chain that has not returned in time completes with LOST (R134). -/
def DuctSlot.lose (t : DuctSlot) (now : Nat) : DuctSlot :=
  if t.busy && !t.result && t.at_ + ductLimit ≤ now then t.fill t.start (ductStatus 6 0 0 0) [] else t

/-- DUCTUS_RESULT_ACCEPT (R194, R196): stale, late or unmatched results are discarded. -/
def execDuctusResultAccept (idx : Nat) (s : State) : Out :=
  match s.results[idx]? with
  | none => .next s
  | some r =>
    let s := { s with results := s.results.eraseIdx idx }
    .next (if staleGen s r.part r.rgen then s
      else s.modUid (if r.uid = 0 then s.requester r.rcore r.rslot r.tag r.seq else r.uid) fun x =>
        let t := x.ducts[r.tag]
        if t.at_ + ductLimit ≤ s.time then x.modDuct r.tag (·.lose s.time)
        else if t.busy && !t.result && t.seq == r.seq then
          (x.modDuct r.tag fun t => t.fill r.p r.status r.data).modStrand (Fin.ofNat 4 t.strand) (·.event 2)
        else x)

/-- DUCTUS_LOST (R134): a chain that has not returned in time completes with LOST. -/
def execDuctusLost (c : CtxRef) (tag : Fin 16) (s : State) : Out :=
  .next (s.modRef c fun x => x.modDuct tag (·.lose s.time))

/-- Chains of a context that have not returned in time complete with LOST (R134). -/
def Ctx.loseLate (x : Ctx) (now : Nat) : Ctx :=
  if x.ducts.any fun t => t.busy && !t.result && decide (t.at_ + ductLimit ≤ now) then { x with ducts := x.ducts.map (·.lose now) } else x

/-- After every step: what is late is lost, in every resident context. -/
def loseLate (s : State) : State := (residentRefs s).foldl (fun s r => s.modRef r (·.loseLate s.time)) s

end Sys2Proof.Machine
end

