-- ==== Sys2Proof/Machine/Placement.lean ====
section
/-! DEFINITION. Making pages resident, eviction, starvation, and the placement of pages at an epoch's end (10 R182, R186, 09 R170). -/

namespace Sys2Proof.Machine

/-! ## Entries and frames -/

/-- A leaf entry with another base and location. -/
def withBase (e : Word) (ma : Nat) : Word := (e &&& ~~~0x000FFFFFFFFFF000) ||| (BitVec.ofNat 64 ma &&& 0x000FFFFFFFFFF000)
/-- Machine address of a leaf entry's base. -/
def baseOf (e : Word) : Nat := fld e 51 12 * 4096
/-- D of a leaf entry (R178). -/
def dirtyBit (e : Word) : Bool := e.getLsbD 58

/-- Write one entry in the owner's order. -/
def setEntry (s : State) (key : Nat) (e : Word) : State := s.setRaws key (leBytes 8 e.toNat)

/-- The pages of an owner's hypervisor stage on a frame, as ASID, IA and entry, one line for each listed entry. -/
def pagesOn (s : State) (o base : Nat) : List (BitVec 12 × Nat × Word) :=
  (listedAsids s o).flatMap fun a => ((hypLeaves s o a).filter fun e => baseOf e.2.2 == base && fld e.2.2 63 62 == 1).map fun e => (a, e.1, e.2.2)

/-- Give every entry that maps a frame another base. -/
def remapFrame (s : State) (o base ma : Nat) : State :=
  (pagesOn s o base).foldl (fun s p => (groupKeys s o p.1 p.2.1 (leafSize p.2.2)).foldl (fun s k => setEntry s k (withBase (s.rawWord k) ma)) s) s

/-- The bytes of a page go from one frame to another under its encryption. -/
def copyBytes (s : State) (o : Nat) (enc : Option Nat) (src dst size : Nat) : State :=
  (List.range (2 ^ (12 + size))).foldl (fun s i =>
    let b := match s.readByte (maKey o (src + i)) enc with
      | .ok b => b
      | .error (.accessFault _) => s.cipherByte (maKey o (src + i))
      | .error _ => s.rawByte (maKey o (src + i))
    let keys := match s.writeKeys (maKey o (dst + i)) enc with | .ok k => k | .error _ => none
    s.writeByte (maKey o (dst + i)) keys b) s

/-- An error met in a copied sector stands in its copy: poison as poison, a failed tag as a failed tag (R412, R413, log 108). -/
def copyError (s : State) (o src dst : Nat) (e : MemErr) : State :=
  let s := noteError s o e (maKey o src)
  match e with
  | .memUe => if keyNear (maKey o dst) then s.modDie (keyDie (maKey o dst)) fun d => { d with hbmPoison := d.hbmPoison ++ [maKey o dst / 64] } else s
  | .memIntegrity => { s with sectors := SMap.put {} s.sectors (maKey o dst / 64) { s.sector (maKey o dst) with badTag := true } }
  | _ => s

/-- Copy a page from one frame to another under its encryption, with the errors of its sectors. -/
def copyFrame (s : State) (o : Nat) (enc : Option Nat) (src dst size : Nat) : State :=
  let bad := (List.range (2 ^ (6 + size))).filterMap fun i =>
    match s.readByte (maKey o (src + 64 * i)) enc with | .ok _ => none | .error e => some (64 * i, e)
  bad.foldl (fun s e => copyError s o (src + e.1) (dst + e.1) e.2)
    (clearPoison (copyBytes s o enc src dst size) (maKey o dst) (2 ^ (12 + size)))

/-- Zero a frame before it goes back to a pool (R182); whole sectors are written, so no error stays in them (R413). -/
def zeroFrame (s : State) (o ma size : Nat) : State :=
  clearPoison ((List.range (2 ^ (12 + size))).foldl (fun s i => s.writeByte (maKey o (ma + i)) none 0) s) (maKey o ma) (2 ^ (12 + size))

/-- A page leaves its frame: stores that a done task still holds for it are translated anew (R182, R184, R186). -/
def leaveFrame (s : State) (o base size : Nat) : State := renewStores s fun x => maDie x.owner x.frame == o && x.frame == base && leafSize x.hent == size

/-- The last frame of a size in a die's pool that nothing holds, and the pool without it (R182, R188). -/
def takeFrame (s : State) (dd size : Nat) : Option (Word × List Word) :=
  let l := SMap.get [] (s.die dd).nearPool size
  match poolScan (fun _ => false) (fun m => holdCount s dd (m.toNat % 2 ^ 52) (2 ^ (12 + size)) ≠ 0) l.length l with
  | (some f, r) => some (f, r)
  | (none, _) => none

/-- The frames of a die that eviction may take for a size (R182). -/
def evictable (s : State) (o size : Nat) : List Nat :=
  ((s.die o).frames.filter fun f => f.2.backing.isSome && f.2.pin == 0 && holdCount s o f.1 (2 ^ (12 + size)) == 0
    && (pagesOn s o f.1).any fun p => leafSize p.2.2 == size).map (·.1)

/-- Evict the page on a frame: written back if dirty, its entries name the backing again, the frame returns zeroed (R182). -/
def evictFrame (s : State) (o base size : Nat) : State :=
  match ((s.die o).frame base).backing, pagesOn s o base with
  | some b, p :: ps =>
    let s := if (p :: ps).any fun p => dirtyBit p.2.2 then copyFrame s o (hypEnc p.2.2) base (s.maFor p.1 (b.toNat % 2 ^ 52)) size else s
    let s := leaveFrame (dropReplicas (remapFrame s o base (b.toNat % 2 ^ 52)) o (maKey o base) size) o base size
    (zeroFrame s o base size).modDie o fun d =>
      { d.giveFrame size (BitVec.ofNat 64 base) with frames := SMap.put {} d.frames base { d.frame base with backing := none }.rest }
  | _, _ => s

/-- Copy the page of an intermediate address in from its backing and give its entries the frame (R182). -/
def fillPage (s : State) (o : Nat) (asid : BitVec 12) (ia : Nat) (hent : Word) (frame : Word) (rest : List Word) : State :=
  let size := leafSize hent
  let ma := frame.toNat % 2 ^ 52
  let s := s.modDie o fun d => { d with nearPool := SMap.set d.nearPool size rest
                                        frames := SMap.put {} d.frames ma { d.frame ma with backing := some (BitVec.ofNat 64 (baseOf hent)) } }
  (groupKeys s o asid ia size).foldl (fun s k => setEntry s k (withBase (s.rawWord k) ma))
    (copyFrame s o (hypEnc hent) (s.maFor asid (baseOf hent)) ma size)

/-- The page that an access to an offset waits for, as the intermediate address and its entry: a page of the tenant's table, or its own (R182). -/
def missingPage (s : State) (o : Nat) (asid : BitVec 12) (off : Nat) : Option (Nat × Word) :=
  match s.xlateAt o asid none off with
  | .ok x => if x.resident then none else some (x.ia, x.hent)
  | .error .absent =>
    match s.tenAbsent o asid off with
    | some ia => (s.hypWalk o (s.desc o asid) ia).toOption.map fun h => (ia, h.2)
    | none => none
  | .error _ => none

/-! ## PAGE_MADE_RESIDENT and starvation (R170, R182) -/

/-- Starvation record: ASID, VA, size code (R182); it names no interface (R400). -/
def starveRecord (o : Nat) (asid : BitVec 12) (off : Word) (size : Nat) : List Byte :=
  recordOf [asid.setWidth 64, BitVec.ofNat 64 (o * 2 ^ 48) ||| off, BitVec.ofNat 64 size]
/-- The page that a starvation is reported for: the effective page of the address, so that its accesses are reported once (R175, R182). -/
def starvedPage (s : State) (o : Nat) (asid : BitVec 12) (off : Nat) : Word :=
  match s.xlateAt o asid none off with
  | .ok x => x.page
  | .error _ => BitVec.ofNat 64 (off / 4096 * 4096)

/-- A task whose phase waits for a page: its context, queue and the address it waits at. -/
structure Waits where
  ref : CtxRef
  queue : Nat
  task : Task
  va : Word

/-- Tasks whose accesses failed for want of a page, by which their phases wait (R168, R170). -/
def pageWaits (s : State) (o : Nat) (asid : BitVec 12) (size off : Nat) : List Waits :=
  s.contexts.flatMap fun e =>
    if e.2.asid ≠ asid then []
    else e.2.tasks.filterMap fun t =>
      match e.2.holdOf t.2.phaseId with
      | some (.page va n) =>
        if t.2.num = n ∧ s.owner { die := s.dieOf (refCore e.1), part := e.2.part, asid := e.2.asid } va = some o ∧ fld va 47 0 / 2 ^ (12 + size) = off / 2 ^ (12 + size)
        then some { ref := e.1, queue := t.1, task := t.2, va := va } else none
      | _ => none

/-- Frames of an owner that a waiting task itself needs: those its streams lie on now (R170). -/
def Waits.needs (w : Waits) (s : State) (o : Nat) (asid : BitVec 12) : List Nat :=
  (memStreams w.task).flatMap fun m => (pagesOf m.2.1 m.2.2.1).filterMap fun va =>
    match s.xlateAt o asid none (fld va 47 0) with
    | .ok x => if x.resident then some x.frame else none
    | .error _ => none

/-- A strand of the address space waits for a page, perhaps this one. -/
def strandWaits (s : State) (asid : BitVec 12) : Bool :=
  s.contexts.any fun e => e.2.asid == asid && e.2.strands.any fun t => t.wait == some .retry

/-- Send the hypervisor a starvation record and note when (R182). -/
def noticeStarved (s : State) (o : Nat) (asid : BitVec 12) (off : Word) (size : Nat) : State :=
  (pfRecord s 1 (starveRecord o asid off size)).modDie o fun d =>
    { d with starved := (d.starved.filter fun e => !(e.1 == asid && e.2.1 == off)) ++ [(asid, off, s.time)] }

/-- The near pool of a size is empty and no page of it may be evicted (R182). -/
def starving (s : State) (o size : Nat) : Bool := (takeFrame s o size).isNone && (evictable s o size).isEmpty

/-- Phases that wait for a page while every frame of its size is pinned, held or needed by the waiting task itself raise FRAME_STARVED (R170). -/
def starveStuck (s : State) (o : Nat) (asid : BitVec 12) (size : Nat) (ws : List Waits) : State :=
  (ws.filter fun w => (evictable s o size).all fun f => (w.needs s o asid).contains f).foldl (fun s w => starvePhase s w.ref w.queue w.task w.va) s

/-- The frames that eviction may take for those that wait (R170, R182). -/
def victims (s : State) (o : Nat) (asid : BitVec 12) (size : Nat) (ws : List Waits) : List Nat :=
  (evictable s o size).filter fun f => ws.isEmpty || strandWaits s asid || ws.any fun w => !(w.needs s o asid).contains f

/-- The VI on whose budget host memory behind a machine address is reached for an address space (R402). -/
def tierVi (s : State) (asid : BitVec 12) (ma : Nat) : Option Nat :=
  if 4 ≤ ma / 2 ^ 48 % 16 then s.pasidVi asid (ma / 2 ^ 48 % 16 - 4) else none
/-- The write-back of an eviction: the VI it is charged to, none where the page is clean. -/
def backVi (s : State) (o base : Nat) : Option Nat :=
  match ((s.die o).frame base).backing, pagesOn s o base with
  | some b, p :: ps => if (p :: ps).any fun p => dirtyBit p.2.2 then tierVi s p.1 (b.toNat % 2 ^ 52) else none
  | _, _ => none

/-- The page's backing cannot be read now: its VI's budget is spent (R402), or ATS refuses the address (R394). -/
def fillLate (s : State) (o : Nat) (asid : BitVec 12) (hent : Word) : Bool :=
  viWaits s (tierVi s asid (baseOf hent)) false
    || (decide (4 ≤ baseOf hent / 2 ^ 48) && Config.atsRefuses s.tick (maKey o (s.maFor asid (baseOf hent))))

/-- PAGE_MADE_RESIDENT: a requested page takes a frame of its owner's near pool, after an eviction where the pool is empty (R182). -/
def execPageMadeResident (owner : Nat) (asid : BitVec 12) (off : BitVec 48) (s : State) : Out :=
  let want := (asid, off.setWidth 64 &&& ~~~(0xFFF : Word))
  let page := starvedPage s owner asid off.toNat
  if !(s.die owner).fetching.contains want then .next s
  else
    let done := fun s : State => s.modDie owner fun d => { d with fetching := d.fetching.filter (· ≠ want), starved := d.starved.filter fun e => (e.1, e.2.1) ≠ (asid, page) }
    match missingPage s owner asid off.toNat with
    | none => .next (done s)
    | some (ia, hent) =>
      let size := leafSize hent
      if fillLate s owner asid hent then .next s else
      let ws := pageWaits s owner asid size off.toNat
      let vs := victims s owner asid size ws
      let s := if (takeFrame s owner size).isSome then s
        else
          let s := starveStuck s owner asid size ws
          let v := (vs[(s.undef 0).toNat % vs.length]?).getD 0
          if vs.isEmpty || viWaits s (backVi s owner v) true then s
          else evictFrame (viCharge s (backVi s owner v) true (2 ^ (12 + size))) owner v size
      match takeFrame s owner size with
      | some (f, rest) =>
        let t := viCharge (fillPage s owner asid ia hent f rest) (tierVi s asid (baseOf hent)) false (2 ^ (12 + size))
        .next (if (missingPage t owner asid off.toNat).isNone then done t else t)
      | none =>
        if !vs.isEmpty || (s.die owner).starved.any fun e => (e.1, e.2.1) == (asid, page) then .next s
        else .next (noticeStarved s owner asid page size)

/-- FRAME_STARVATION_NOTICE: the record is repeated every 2^20 cycles while the starvation lasts (R182). -/
def execFrameStarvationNotice (owner : Nat) (asid : BitVec 12) (off : BitVec 48) (s : State) : Out :=
  let page := starvedPage s owner asid off.toNat
  match (s.die owner).starved.find? (fun e => (e.1, e.2.1) == (asid, page)), missingPage s owner asid off.toNat with
  | some e, some (_, hent) =>
    if (takeFrame s owner (leafSize hent)).isNone && decide (e.2.2 + 2 ^ 20 ≤ s.time) then .next (noticeStarved s owner asid page (leafSize hent))
    else .next s
  | _, _ => .next s

/-! ## PLACEMENT_EPOCH_END (R186) -/

/-- What placement decides for a page. -/
inductive Move where
  | stay
  | replicate (x : Nat)
  | migrate (x : Nat)
  deriving DecidableEq, Repr

/-- The die with the most accesses other than h, the lowest number on a tie. -/
def busiest (counts : Vector Nat 4) (h : Nat) : Nat :=
  ((List.finRange 4).filter fun d => d.val ≠ h).foldl (fun b d => if counts[d] > (counts.toList.getD b 0) then d.val else b) (if h = 0 then 1 else 0)

/-- The decision of R186 from its inputs. -/
def decideMove (barred : Bool) (a w s thresh free reserve x : Nat) (wrote rm : Bool) : Move :=
  if barred then .stay
  else if a * w < thresh then .stay
  else if free ≤ reserve then .stay
  else if !wrote && rm then .replicate x
  else if a * w > 2 * s then .migrate x
  else .stay

/-- The decision for a tracked page with its translation. -/
def placeMove (s : State) (o : Nat) (t : Tracked) (x : Xl) : Move :=
  let h := keyLoc x.key
  let b := busiest t.counts h
  let a := t.counts.toList.getD b 0
  let d := s.die o
  decideMove (x.hent.getLsbD 57 || ((s.die (maDie o x.frame)).frame x.frame).pin ≠ 0 || holdCount s (maDie o x.frame) x.frame (2 ^ (12 + leafSize x.hent)) ≠ 0
      || decide (leafSize x.hent > 9) || !x.resident || decide (h ≥ 4))
    a (1 + (Config.linkDepth s.tick h b).toNat / 32) (t.counts.toList.foldl (· + ·) 0 - a) d.thresh.toNat
    (SMap.get [] (s.die (o / 4 * 4 + b)).nearPool (leafSize x.hent)).length d.reserve.toNat b (d.written.contains (x.key / 2 ^ (12 + leafSize x.hent) * 2 ^ (12 + leafSize x.hent))) (x.tent.getLsbD 58)

/-- Carry out a move: the page goes to a frame of die x, or a copy of it does, where x holds none yet. -/
def carryOut (s : State) (o : Nat) (x : Xl) : Move → State
  | .stay => s
  | .replicate b =>
    let dd := o / 4 * 4 + b
    let here := (s.die o).replicas.any fun r => r.1.toNat == maKey o x.frame && r.2.1 == b
    match (if here then none else takeFrame s dd (leafSize x.hent)) with
    | none => s
    | some (f, rest) =>
      let s := copyFrame (s.modDie dd fun d => { d with nearPool := SMap.set d.nearPool (leafSize x.hent) rest }) o x.enc x.frame (f.toNat % 2 ^ 52) (leafSize x.hent)
      s.modDie o fun d => { d with replicas := d.replicas ++ [(BitVec.ofNat 64 (maKey o x.frame), b, f)] }
  | .migrate b =>
    let dd := o / 4 * 4 + b
    let size := leafSize x.hent
    match takeFrame s dd size with
    | none => s
    | some (f, rest) =>
      let ma := f.toNat % 2 ^ 52
      let old := (s.die (maDie o x.frame)).frame x.frame
      let s := s.modDie dd fun d => { d with nearPool := SMap.set d.nearPool size rest, frames := SMap.put {} d.frames ma { d.frame ma with backing := old.backing } }
      let s := dropReplicas (remapFrame (copyFrame s o x.enc x.frame ma size) o x.frame ma) o (maKey o x.frame) size
      let s := leaveFrame s (maDie o x.frame) x.frame size
      (zeroFrame s o x.frame size).modDie (maDie o x.frame) fun d =>
        { d.giveFrame size (BitVec.ofNat 64 x.frame) with frames := SMap.put {} d.frames x.frame { d.frame x.frame with backing := none }.rest }

/-- PLACEMENT_EPOCH_END: every tracked page is decided, then the tracker is cleared (R186). -/
def execPlacementEpochEnd (owner : Nat) (s : State) : Out :=
  let d := s.die owner
  if !d.placeEn || d.epoch = 0 || decide (s.time < d.epochAt + 1024 * d.epoch.toNat) then .next s
  else
    let s := d.tracked.foldl (fun s t =>
      match s.xlateAt owner t.asid none t.off.toNat with
      | .ok x => if s.blotHeld x.key then s else carryOut s owner x (placeMove s owner t x)
      | .error _ => s) s
    .next (s.modDie owner fun d => { d with tracked := [], written := [], epochAt := s.time })

end Sys2Proof.Machine
end

