-- ==== Sys2Proof/Machine/HostLink.lean ====
section
/-! DEFINITION. Virtual interfaces, partitions and jobs as the host hypervisor and hosts act on them (26 R394-R403, R406, R410). -/

namespace Sys2Proof.Machine

def State.vi (s : State) (n : Nat) : Vi := SMap.get {} s.vis n
def State.setViAt (s : State) (n : Nat) (v : Vi) : State := { s with vis := SMap.set s.vis n v }
def State.part (s : State) (q : Nat) : Part := SMap.get {} s.parts q
def State.setPart (s : State) (q : Nat) (p : Part) : State := { s with parts := SMap.set s.parts q p }

/-- Virtual interfaces of a package: 256 behind each of two ports (R3, R394). -/
def viCount : Nat := 512

/-! ## Launch window and host semaphores (R397, R398) -/

/-- A VI takes launch headers and ADDs: enabled, and neither stopping nor stopped (R401, R403). -/
def Vi.takes (v : Vi) : Bool := v.en && !v.stop && !v.stopped
/-- A dropped launch header or ADD is counted (R401). -/
def dropVi (s : State) (n : Nat) : State := s.setViAt n { s.vi n with drop := satInc (s.vi n).drop }

/-- A launch window as a maker (R265, R397): a currency number of 0 names nothing. -/
def windowMaker (n : Nat) (v : Vi) : Maker :=
  { priv := 0, part := v.part, asid := v.asid, job := v.job.toNat, vi := some n, prot := v.tdisp, housekeeping := false, maker := none
    currency := 0, seed := 0 }

/-- The device reads the slot and processes it as LAUNCH would (R397). -/
def windowLaunch (s : State) (n : Nat) (bs : List Byte) : State × Word × Nat :=
  let ws := wordsOf bs
  if 128 + recordTail ws > 4088 then (s, stBadImage, 0) else createLaunch s (windowMaker n (s.vi n)) ws

/-- LAUNCH_WINDOW_SUBMIT: the header write makes the record pending (R397); accepted once the part has booted (R111 step 6). -/
def execLaunchWindowSubmit (vi slot : Nat) (record : List Byte) (s : State) : Out :=
  if s.boot < 7 || vi ≥ viCount then .next s
  else if h : slot < 8 then
    if !(s.vi vi).takes || (s.vi vi).window[slot].pend then .next (dropVi s vi)
    else .next (s.setViAt vi { s.vi vi with window := (s.vi vi).window.set slot { (s.vi vi).window[slot] with valid := false, pend := true, bytes := record } })
  else .next s

/-- The device reads a pending slot, processes it and writes the status (R397). -/
def serveWindow (vi : Nat) (slot : Fin 8) (s : State) : State :=
  let w := (s.vi vi).window[slot]
  if !w.pend then s
  else
    let r := windowLaunch s vi w.bytes
    r.1.setViAt vi { r.1.vi vi with window := (r.1.vi vi).window.set slot { w with valid := true, pend := false, status := r.2.1.setWidth 16, id := BitVec.ofNat 32 r.2.2 } }

/-- The unit's context that a host semaphore entry is bound to: of the VI's job, wherever it is held (R366, R398). -/
def boundUnit (s : State) (v : Vi) (b : Word) : Option CtxRef :=
  if b.getLsbD 63 then
    (s.contexts.find? fun e => e.2.launch % 2 ^ 32 == fld b 31 0 && e.2.unit == fld b 40 32 && e.2.job == v.job.toNat).map (·.1)
  else none

/-- HOST_SEMAPHORE_ADD (R398). -/
def execHostSemaphoreAdd (vi entry : Nat) (k : BitVec 32) (s : State) : Out :=
  let v := s.vi vi
  let b := SMap.get 0 v.bind entry
  if s.boot < 7 || entry ≥ 64 || vi ≥ viCount then .next s
  else if !v.takes then .next (dropVi s vi)
  else match boundUnit s v b with
  | some ref => .next (s.modRef ref fun x => (x.addSem (fld b 55 48) k.toNat).serveSem (fld b 55 48))
  | none => .next (dropVi s vi)

/-! ## Stopping a VI (R403) -/

/-- Contexts of a job. -/
def jobContexts (s : State) (job : Nat) : List (CtxRef × Ctx) := s.contexts.filter fun e => e.2.job == job

/-- Pages of the job's address spaces whose D is set: owner, ASID, IA of the page, entry (R403 step 4). -/
def dirtyPages (s : State) (asids : List (BitVec 12)) : List (Nat × BitVec 12 × Nat × Word) :=
  (List.range 4).flatMap fun d =>
    let o := s.package * 4 + d
    asids.flatMap fun a =>
      (((hypLeaves s o a).filter fun e => dirtyBit e.2.2).map fun e => (o, a, e.1 / 2 ^ (12 + leafSize e.2.2) * 2 ^ (12 + leafSize e.2.2), e.2.2)).foldl
        (fun (l : List (Nat × BitVec 12 × Nat × Word)) e => if l.any fun f => f.1 == e.1 && f.2.1 == e.2.1 && f.2.2.1 == e.2.2.1 then l else l ++ [e]) []

/-- Clear D in every entry of a page. -/
def clearDirty (s : State) (p : Nat × BitVec 12 × Nat × Word) : State :=
  (groupKeys s p.1 p.2.1 p.2.2.1 (leafSize p.2.2.2)).foldl (fun s k => setEntry s k (s.rawWord k &&& ~~~(1#64 <<< 58))) s

/-- One entry of the dirty report. -/
def dirtyEntry (p : Nat × BitVec 12 × Nat × Word) : List Byte :=
  bytesOf [BitVec.ofNat 64 (p.1 * 2 ^ 48 + p.2.2.1 + leafSize p.2.2.2), p.2.1.setWidth 64]

/-- Write the dirty report at DRB (R403 step 4). -/
def dirtyReport (s : State) (n : Nat) : State :=
  let v := s.vi n
  let asids := ((jobContexts s v.job.toNat).map (·.2.asid) ++ [v.asid] ++ (s.vis.filter fun e => e.2.job == v.job).map (·.2.asid)
    ++ (SMap.get { level := 4 } s.works (jobKey v.job.toNat)).asids).dedup
  let all := dirtyPages s asids
  let cap := 2 ^ (fld v.drb 3 0 + 8)
  let ps := all.take cap
  let hdr := BitVec.ofNat 64 ps.length ||| bw (decide (all.length > cap)) 32
  viCharge ((ps.foldl clearDirty s).writeMa s.pkgOwner (hostMa (n / 256) v.pasid.toNat (v.drb &&& ~~~0x3F)) (bytesOf [hdr, 0] ++ ps.flatMap dirtyEntry))
    (some n) true (16 + 16 * ps.length)

/-- Every context of the job stands halted or shadowed. -/
def jobHalted (s : State) (job : Nat) : Bool := (jobContexts s job).all fun e => e.2.rung == .halted || e.2.rung == .shadowed

/-- Steps 3 to 5, once every context of the job has halted and the VI may write (R402, R403). -/
def finishStop (s : State) (n : Nat) : State :=
  let v := s.vi n
  if v.stopping && jobHalted s v.job.toNat && !viWaits s (some n) true then
    let s := dirtyReport s n
    let gen := v.stopGen + 1
    viRecord (s.setViAt n { s.vi n with stop := false, stopping := false, stopped := true, stopGen := gen }) n 2
      (recordOf [BitVec.ofNat 64 n, gen.setWidth 64, BitVec.ofNat 64 s.time])
  else s

/-- Steps 1 and 2: headers and ADDs are dropped from here on, every context of the job receives the HALT intent. -/
def startStop (s : State) (n : Nat) : State :=
  let v := s.vi n
  (jobContexts s v.job.toNat).foldl (fun s e => requestCtx s e.1 .halt) (s.setViAt n { v with stop := true, stopping := true })

/-- VI_STOP: a write of STOP = 1, and the progress of a stop (R403). -/
def execViStop (vi : Nat) (s : State) : Out :=
  .next (if vi ≥ viCount then s else finishStop (if (s.vi vi).stopping then s else startStop s vi) vi)

/-- Stops that can be finished now. -/
def finishStops (s : State) : State := (s.vis.map (·.1)).foldl finishStop s

/-- VI_ENABLE_WRITE: the fields of VCTL; STOPPED clears; STOP = 1 stops the VI, and STOP = 0 has no effect (R7, R401, R403). -/
def execViEnableWrite (vi : Nat) (vctl : Word) (s : State) : Out :=
  if vi ≥ viCount then .next s else
  let v := { s.vi vi with en := vctl.getLsbD 63, part := Fin.ofNat 16 (fld vctl 51 48), job := vctl.extractLsb' 32 16
                          asid := vctl.extractLsb' 20 12, pasid := vctl.extractLsb' 0 20, stopped := false }
  if vctl.getLsbD 62 then execViStop vi (s.setViAt vi v) else .next (s.setViAt vi v)

/-! ## Host-link budgets (R402) -/

/-- One remainder at the start of the k-th window from now: each window's budget less the debt carried into it. -/
def refill (k budget : Nat) (rem : Int) : Int := (budget : Int) + Min.min (rem + (k - 1 : Nat) * (budget : Int)) 0

/-- HOST_LINK_WINDOW: a new window of 12,800 cycles begins on a port (R402). -/
def execHostLinkWindow (port : Nat) (s : State) : Out :=
  if h : port < 2 then
    if s.time / 12800 ≤ s.windows[port] then .next s
    else
      let k := s.time / 12800 - s.windows[port]
      let s := { s with
        windows := s.windows.set port (s.time / 12800)
        vis := s.vis.map fun e : Nat × Vi => (e.1, if e.1 / 256 = port then
          { e.2 with remrd := refill k e.2.qosrd.toNat e.2.remrd, remwr := refill k e.2.qoswr.toNat e.2.remwr, remxl := refill k e.2.qosxl.toNat e.2.remxl } else e.2) }
      .next ((s.vis.filter fun e => e.1 / 256 = port && !e.2.outbox.isEmpty).foldl (fun s e => viDrain e.1 e.2.outbox.length s) s)
  else .next s

/-! ## Partitions (R405, R406, R410) -/

/-- Cores of a quad set. -/
def quadSetCores (quads : BitVec 96) : List Nat := (List.range 96).filter (fun i => quads.getLsbD i) |>.flatMap fun i => [4 * i, 4 * i + 1, 4 * i + 2, 4 * i + 3]
/-- A quad holds a context. -/
def quadBusy (s : State) (i : Nat) : Bool := (quadCores (4 * i)).any fun c => !(s.core c).slots.isEmpty || !(s.core c).shadows.isEmpty

/-- The quads a write of QUADS0 or QUADS1 would give. -/
def newQuads (old : BitVec 96) (high : Bool) (v : Word) : BitVec 96 :=
  if high then v.extractLsb' 0 32 ++ old.extractLsb' 0 64 else old.extractLsb' 64 32 ++ v

/-- The write is refused: a quad in two partitions, or a quad removed that holds a context (R406). -/
def quadsRefused (s : State) (q : Nat) (new : BitVec 96) : Bool :=
  (s.parts.any fun e => e.1 < 16 && e.1 != q && e.2.quads &&& new != 0)
    || (List.range 96).any fun i => (s.part q).quads.getLsbD i && !new.getLsbD i && quadBusy s i

/-- PARTITION_QUADS_WRITE (R406). -/
def execPartitionQuadsWrite (q : Nat) (high : Bool) (v : Word) (s : State) : Out :=
  let p := s.part q
  let new := newQuads p.quads high v
  if q ≥ 16 then .next s
  else if quadsRefused s q new then .next (s.setPart q { p with err := true })
  else .next (s.setPart q { p with quads := new, err := false })

/-- PARTITION_WAYS_WRITE (R405, R406). -/
def execPartitionWaysWrite (q : Nat) (v : Word) (s : State) : Out := .next (if q < 16 then s.setPart q { s.part q with ways := v } else s)

/-- PARTITION_RESET_START: the generation is raised in one step; a START while BUSY is ignored; the egress drops stale flits (R410). -/
def execPartitionResetStart (q : Nat) (s : State) : Out :=
  let p := s.part q
  if q ≥ 16 || p.busy then .next s
  else
    let s := s.setPart q { p with busy := true, gen := p.gen + 1 }
    .next { s with ports := SMap.mapVals (fun (t : Port) => { t with out := t.out.filter fun f => !staleFlit s f }) s.ports }

/-- A packet or result of a partition's old generation remains in the package (R410). -/
def staleLeft (s : State) (q : Nat) : Bool :=
  (s.dies.any fun e => e.2.packets.any fun p => p.part.val == q && staleGen s p.part p.rgen)
    || (s.results.any fun r => r.part.val == q && staleGen s r.part r.rgen)
    || (s.releases.any fun r => r.part.val == q && staleGen s r.part r.rgen)
    || s.ports.any fun p => p.2.handed.any fun f => fld (leWord (f.take 8)) 7 4 == q && staleFlit s f

/-- PARTITION_RESET_COMPLETE: the reset covers the partition's cores; its groups keep C and are left empty (R109, R245, R410). -/
def execPartitionResetComplete (q : Nat) (s : State) : Out :=
  let p := s.part q
  if q ≥ 16 || !p.busy || staleLeft s q then .next s
  else
    let s := { s with groups := SMap.mapVals (fun g => if g.owner = some (Fin.ofNat 16 q) then { g with members := [], joins := [], elsewhere := false, lost := false, remote := [] } else g) s.groups }
    let s := (quadSetCores p.quads).foldl (fun s c => resetCore s c 3) s
    .next (s.setPart q { s.part q with busy := false })

/-- BGRP_ALLOC (R406). -/
def execBgrpAlloc (q : Nat) (group : BitVec 12) (s : State) : Out :=
  let g := s.group group.toNat
  let p := { s.part q with bgrp := group, taken := g.owner.isSome, nonempty := false }
  if q ≥ 16 then .next s
  else if g.owner.isSome then .next (s.setPart q p)
  else .next ((s.setPart q p).setGroup group.toNat { g with owner := some (Fin.ofNat 16 q) })

/-- BGRP_RELEASE (R406). -/
def execBgrpRelease (q : Nat) (group : BitVec 12) (s : State) : Out :=
  let g := s.group group.toNat
  let ok := g.owner == some (Fin.ofNat 16 q) && g.members.isEmpty
  let p := { s.part q with bgrp := group, taken := false, nonempty := !ok }
  if q ≥ 16 then .next s
  else if ok then .next ((s.setPart q p).setGroup group.toNat { g with owner := none, elsewhere := false, lost := false, remote := [] })
  else .next (s.setPart q p)

/-- JOBREL: the job is sealed, and its record freed once COMPLETE; a job that an enabled VI names is not released (R265, R406). -/
def execJobrel (job : BitVec 16) (s : State) : Out :=
  if s.vis.any fun v => v.2.en && v.2.job == job then .next s
  else match SMap.find s.works (jobKey job.toNat) with
  | some w => .next (pruneWorks (reportWork 4 { s with works := SMap.set s.works (jobKey job.toNat) { w with sealed_ := true, released := true } } (jobKey job.toNat)))
  | none => .next s

end Sys2Proof.Machine
end

