-- ==== Sys2Proof/Machine/Issue.lean ====
section
/-! DEFINITION. Fetch, the checks of R28, guards, tokens, lockstep groups and trusted mode: what stands around one instruction's
meaning (01 R22-R28, 04 R80-R100). -/

namespace Sys2Proof.Machine

/-- Level that step 4 of R28 checks, with the state: cr.pre.stat of another context needs HYP (R370). -/
def levelAt (s : State) (i : Instr) : Nat :=
  match i with
  | .crr _ n | .crs _ _ n | .crc _ _ n =>
    if (CReg.ofNum n).any fun r => !crReadOk s r then Nat.max 1 (instrLevel i) else instrLevel i
  | i => instrLevel i

/-! ## Fetch (R22, R28 steps 1 and 2) -/

/-- A strand as an agent. -/
def State.agentAt (s : State) (r : StrandRef) : Agent :=
  let x := s.ctx r.core r.slot
  { die := s.dieOf r.core, part := x.part, asid := x.asid, vi := x.vi, code := x.code }

/-- A fetch that fails: why, where, whether on a literal, whether on the instruction word itself. -/
structure FetchErr where
  err : MemErr
  addr : Word
  lit : Bool
  first : Bool
  deriving DecidableEq, Repr

/-- Fetched bytes as they were when the unit's launch record was acquired, so that code is never modified while it runs (R40); those of a page that was
not there then are as they are (log 115). -/
def State.codeBytes (s : State) (ag : Agent) (a : Word) (bs : List Byte) : List Byte :=
  match ag.code with
  | none => bs
  | some c =>
    let old := { s with mem := c.1, sectors := c.2 }
    match old.xlateRange { ag with home := true } .fetch a bs.length none with
    | .error _ => bs
    | .ok xs => xs.map fun x => match x.enc.map s.liveKeys with
      | some (some ks) => if keyNear x.key then old.clearByte ks x.key else old.rawByte x.key
      | _ => if keyNear x.key then old.cipherByte x.key else old.rawByte x.key

/-- Fetch one word of 16 bytes (X permission). -/
def State.fetchWord (s : State) (ag : Agent) (a : Word) : Except (MemErr × Word) Word128 :=
  match s.readVa ag .fetch a 16 with
  | .ok (_, bs) => .ok (BitVec.ofNat 128 (leNat (s.codeBytes ag a bs)))
  | .error (e, _) => .error (e, a)

/-- Fetch a word with its literal: the word, its words in order, and the address after them. -/
def State.fetchUnit (s : State) (ag : Agent) (first : Bool) (a : Word) : Except FetchErr (Word128 × List Word128 × Word) :=
  match s.fetchWord ag a with
  | .error (e, _) => .error { err := e, addr := a, lit := false, first := first }
  | .ok w =>
    if hasLiteral w then
      match s.fetchWord ag (a + 16) with
      | .error (e, _) => .error { err := e, addr := a + 16, lit := true, first := false }
      | .ok l => .ok (w, [w, l], a + 32)
    else .ok (w, [w], a + 16)

/-- Fetch an instruction word, its literal, and the words a pair needs (R28 step 2): the matrix command of a copy with FO, the epilogue of a
matrix command with EPI, and nothing after those. -/
def State.fetchSeq (s : State) (ag : Agent) (a : Word) : Except FetchErr (List Word128) :=
  match s.fetchUnit ag true a with
  | .error e => .error e
  | .ok (w, ws, n) =>
    if wantsMatrix w then
      match s.fetchUnit ag false n with
      | .error e => .error e
      | .ok (m, ms, k) => if wantsEpilogue m then (s.fetchUnit ag false k).map fun c => ws ++ ms ++ c.2.1 else .ok (ws ++ ms)
    else if wantsEpilogue w then (s.fetchUnit ag false n).map fun c => ws ++ c.2.1
    else .ok ws

/-- Guard outcome of a word, or the one a trap return forces (R16, R157). -/
def guardOn (t : Strand) (sc : Sched) : Bool :=
  match t.forced with
  | some b => b
  | none => t.getP sc.guardP ^^ sc.guardInv

/-- The checks of R28 step 3 that need the strand's state: SBAR's own bit (R71), a command of a pair, but for its last, at the end of an
active loop (R257, R321). -/
def stateOk (t : Strand) (i : Fin 4) (ins : Instr) : Bool :=
  match ins with
  | .sbar mask => mask.getLsbD i.val
  | ins => !(List.range (commandCount ins - 1)).any fun k =>
      ([0, 1, 2, 3] : List (Fin 4)).any fun n => t.lc[n] != 0 && covers (t.pc + BitVec.ofNat 64 (32 * k)) 2 t.loopEnd[n]

/-! ## Tokens, scoreboards and room (R81, R85, R91) -/

/-- Tokens that pop are there, and those that push fit. -/
def tokensReady (t : Strand) (q : Queue) (tok : BitVec 4) : Bool :=
  let popPrev := tok.getLsbD 3
  let popNext := tok.getLsbD 2
  let pushPrev := tok.getLsbD 1
  let pushNext := tok.getLsbD 0
  match q with
  | .access => (!popNext || t.ca != 0) && (!pushNext || t.ac != 15)
  | .compute => (!popPrev || t.ac != 0) && (!popNext || t.sc != 0) && (!pushPrev || t.ca != 15) && (!pushNext || t.cs != 15)
  | .store => (!popPrev || t.cs != 0) && (!pushPrev || t.sc != 15)

/-- No scoreboard counter would pass 15 (R85). -/
def sbFits (t : Strand) (sc : Sched) : Bool :=
  (List.finRange 7).all fun k =>
    t.sb[k].toNat + (if sc.wsb.val = k.val + 1 then 1 else 0) + (if sc.rsb.val = k.val + 1 then 1 else 0) ≤ 15

/-- The queue an instruction sends its work to has room (R81 condition 7). -/
def hasRoom (x : Ctx) (i : Instr) : Bool :=
  match i with
  | .fwput _ => decide (x.fwq.length < 16)
  | .tsem eng ch .. => x.room (engineQueue eng ch)
  | .cpy c => foRoom c.ch c.fo x
  | .cpyo c => foRoom c.ch c.fo x
  | .mma c | .qmma c _ => matRoom c x
  | .chain _ => x.room 1
  | _ => true

/-! ## Preparing an instruction -/

/-- What a strand's turn comes to. -/
inductive Prep where
  /-- A trap or a wait has been taken; nothing executes. -/
  | stop (s : State)
  /-- Execute, or pass guarded off: the state before, the state the instruction reads, its scheduling field, its guard outcome. -/
  | go (s view : State) (sc : Sched) (i : Instr) (on : Bool)

/-- A trap of R28 steps 1 to 4 at an instruction (R154, R157). -/
def issueTrap (s : State) (r : StrandRef) (code info : Nat) (addr : Word) (force out : Bool) : State :=
  s.trapAt r code info (s.strandAt r).pc addr force out

/-- A failed fetch: a trap of step 1 or 2, or a wait for the page (R28, R154, R182). -/
def fetchFail (s : State) (r : StrandRef) (e : FetchErr) (out : Bool) : State :=
  match e.err.cause true e.lit with
  | some (code, info) => issueTrap (countError s (s.agentAt r) e.err e.addr) r code info e.addr (!e.first) (!e.first && out)
  | none =>
    (if e.err = .absent then askResident s (s.agentAt r) e.addr else s).modStrandAt r fun t => { t with wait := some .retry }

/-- A strand has its turn: its cluster has served its slot, and the turns given up there by YIELD are over (R80). -/
def State.serve (s : State) (r : StrandRef) : State :=
  let i := strandIx r
  { (s.modCore r.core fun k => { k with served := k.served.set i r.slot
                                        slots := SMap.mapVals (fun x => x.modStrand i fun t => { t with yielded := false }) k.slots }) with
    focus := r }

/-- Placement counts the fetch of an instruction word like any other read of its page (R186). -/
def noteFetch (s : State) (r : StrandRef) : State :=
  let ag := s.agentAt r
  match s.owner ag (s.strandAt r).pc with
  | some o =>
    if (s.die o).placeEn then match s.xlate ag .fetch (s.strandAt r).pc with | .ok x => noteAccess s ag.die x false | .error _ => s else s
  | none => s

/-- Fetch, decode and check the instruction at a strand's pc (R28 steps 1 to 4). -/
def prepare (s : State) (r : StrandRef) : Prep :=
  let s := noteFetch ((s.modStrandAt r fun t => { t with wait := if t.wait = some .retry then none else t.wait, wants := [] }).serve r) r
  let ag := s.agentAt r
  let t := s.strandAt r
  match s.fetchWord ag t.pc with
  | .error (e, _) => .stop (fetchFail s r { err := e, addr := t.pc, lit := false, first := true } false)
  | .ok w =>
    let on0 := guardOn t (schedOf w)
    match s.fetchSeq ag t.pc with
    | .error e => .stop (fetchFail s r e on0)
    | .ok ws =>
      match decode ws with
      | .error _ => .stop (issueTrap s r 0x01 0 0 true on0)
      | .ok (sc, i) =>
        if !stateOk t (strandIx r) i then .stop (issueTrap s r 0x01 0 0 true on0)
        else if (s.ctx r.core r.slot).priv.val < levelAt s i then .stop (issueTrap s r 0x02 0 0 true on0)
        else
          let s := s.modCx fun x => x.landResults (strandIx r) sc i s.time s.tick
          let v := if s.cx.trusted then s.modCx fun x => x.view (strandIx r) s.tick else s
          if guardOn v.st sc && readsPoison s.cx i then .stop (fileTrap s) else .go s v sc i (guardOn v.st sc)

/-! ## Readiness and lockstep (R80-R83) -/

/-- Strands of a context keep issuing until the halt rung (R359, R360). -/
def Ctx.issuing (x : Ctx) : Bool := x.rung == .running || x.rung == .soft

/-- A class D event for the strand waits, and it is at level 0 (R162). -/
def Ctx.summoned (x : Ctx) (i : Fin 4) : Bool := x.strands[i].level = 0 && x.pendD.any fun p => targetOf x p == some i
/-- A class D event is taken before the strand's next issue; what has issued ahead is finished first, as R95 finds the point. -/
def Ctx.delivers (x : Ctx) (i : Fin 4) : Bool := x.summoned i && x.strands[i].ahead.isEmpty

/-- The strand exists, runs and does not wait (R81 condition 1). Under a halt only what stands before an instruction issued ahead still issues (R95). -/
def readyStrand (s : State) (r : StrandRef) : Bool :=
  match s.findCtx (strandCtx r) with
  | none => false
  | some x =>
    let t := x.strands[strandIx r]
    t.live && (x.issuing || (x.rung == .halting && !t.ahead.isEmpty)) && !(s.core r.core).zeroising && (t.wait == none || t.wait == some .retry)

/-- The instruction pushes an engine command. -/
def pushesCommand (i : Instr) : Bool :=
  match i with
  | .cpy _ | .cpyo _ | .chain _ | .mma _ | .qmma .. | .tsem .. => true
  | _ => false

/-- No chain is out that the instruction is ordered behind: of a class it waits for, or one that an acquire of the strand came after, which orders the
accesses of a command pushed later too (R116, R132, R227). -/
def chainsReturned (x : Ctx) (i : Fin 4) (ins : Instr) : Bool :=
  !x.ducts.toList.any fun t => t.busy && !t.result && t.strand == i.val
    && ((classMask ins).getLsbD t.oc.val || (t.fenced && (classMask ins != 0 || pushesCommand ins)))

/-- The strand's next instruction has issued ahead. -/
def Strand.issuedAhead (t : Strand) : Bool := t.ahead.any fun e => e.dist == 0 && e.kind != .address

/-- An executed instruction finds its tokens, its scoreboards, its queues and its classes free (R81 conditions 6 and 7). -/
def unblocked (s : State) (r : StrandRef) (sc : Sched) (i : Instr) (on : Bool) : Bool :=
  let t := s.strandAt r
  !on || t.issuedAhead || tokensReady t (queueOf i sc.acc) sc.tok && sbFits t sc
    && hasRoom (s.ctx r.core r.slot) i && chainsReturned (s.ctx r.core r.slot) (strandIx r) i

/-- Live strands of a strand's context, ascending. -/
def liveStrands (s : State) (r : StrandRef) : List StrandRef :=
  (([0, 1, 2, 3] : List (Fin 4)).filter fun i => (s.ctx r.core r.slot).strands[i].live).map fun i => { r with strand := i.val }

/-- A strand meets every condition but SYNC's (R81): a trap or page wait to take, or an instruction that can go, the cycles of its STALL past; its SYNC
bit comes with it. -/
def ready (s : State) (r : StrandRef) : Option (Bool × Bool) :=
  if readyStrand s r && !(s.ctx r.core r.slot).delivers (strandIx r) && (decide ((s.strandAt r).clock ≤ s.time) || (s.strandAt r).issuedAhead) then
    match prepare s r with
    | .stop _ => some (false, false)
    | .go u _ sc i on => if unblocked u r sc i on then some (true, sc.sync) else none
  else none

/-- The strand is ready: with SYNC, its whole group is (R81, R82). A word that fails a check of R28 steps 1 to 4 has no SYNC bit to wait on: its
trap is taken at once and alone (log 71). -/
def able (s : State) (r : StrandRef) : Bool :=
  match ready s r with
  | none => false
  | some (_, false) => true
  | some (_, true) => (liveStrands s r).all fun m => ready s m == some (true, true)

/-- Strands that issue together with one: the whole group with SYNC, else itself (R82). -/
def issueGroup (s : State) (r : StrandRef) : List StrandRef :=
  match prepare s r with
  | .stop _ => [r]
  | .go _ _ sc _ _ => if sc.sync then liveStrands s r else [r]

/-! ## After the meaning -/

/-- What stands before the instructions issued ahead has become one less. -/
def Strand.shiftAhead (t : Strand) : Strand :=
  { t with ahead := (t.ahead.filter fun e => e.dist != 0).map fun e => { e with dist := e.dist - 1 } }

/-- A guarded-off instruction leaves issue (R97). -/
def guardedOff (s : State) (sc : Sched) (i : Instr) : State :=
  (s.modCx fun x => { x with tracerCmp := x.tracerCmp + BitVec.ofNat 64 (commandCount i) }).modSt fun t =>
    { (t.retireI i).shiftAhead with clock := s.time + sc.stall.val + 1 }

/-- The value a slot reads. -/
def slotValue (x : Ctx) (i : Fin 4) (r : RegRef) : VecWord :=
  let t := x.strands[i]
  match r with
  | .s r => (t.getS r).setWidth 4096
  | .a r => (t.getA r).setWidth 4096
  | .p r => (BitVec.ofBool (t.getP r)).setWidth 4096
  | .l r => (t.getL r).setWidth 4096
  | .v r => x.getV r.val
  | .m r => (x.getM r.val).setWidth 4096

/-- The latches an instruction fills, over those it leaves (R86). -/
def fillLatches (x : Ctx) (i : Fin 4) (ins : Instr) (old : List Latch) : List Latch :=
  let new := (slots ins).map fun e => ({ slot := e.1, reg := e.2, val := slotValue x i e.2 } : Latch)
  (old.filter fun l => !new.any fun n => n.slot == l.slot) ++ new

/-- The instruction is an acquire over all classes (R116, R204, R209); `t` is the state it leaves. -/
def acquires (i : Instr) (t : State) : Bool :=
  let fl := fun f : Flavour => f == .acq || f == .full
  match i with
  | .ld _ _ m | .tldv _ _ m _ | .atom _ _ _ _ m | .atomn _ _ _ m | .cas _ _ _ _ m | .waddr _ _ _ _ _ m => fl m.fl
  | .vld _ _ _ m | .vlds _ _ _ m | .vgath _ _ _ _ m => fl m.mem.fl
  | .semwait .. | .bwait .. => true
  | .semtry p .. => t.getP p
  | .btry d _ => d == 0 || (t.getS d).getLsbD 1
  | _ => false

/-- The instruction is an acquire at domain scope, before which the margin cache's copies go (R234); `s` is the state before, `t` the state it leaves. -/
def acquiresDom (i : Instr) (s t : State) : Bool :=
  match i with
  | .fence sc fl _ => sc == .dom && (fl == .acq || fl == .full)
  | .bwait _ a | .btry _ a => acquires i t && (s.group (groupNum (s.getS a))).scope == .dom
  | .ld _ _ m | .tldv _ _ m _ | .atom _ _ _ _ m | .atomn _ _ _ m | .cas _ _ _ _ m | .waddr _ _ _ _ _ m => acquires i t && m.scope == .dom
  | .vld _ _ _ m | .vlds _ _ _ m | .vgath _ _ _ _ m => acquires i t && m.mem.scope == .dom
  | _ => false

/-- Chains of a strand that are out when it makes an acquire. -/
def Ctx.fenceDucts (x : Ctx) (i : Fin 4) : Ctx :=
  { x with ducts := x.ducts.map fun t : DuctSlot => if t.busy && !t.result && t.strand == i.val then { t with fenced := true } else t }

/-- The flight of an instruction issued now. -/
def flightOf (s v t : State) (sc : Sched) (i : Instr) : Flight :=
  { reads := readsOf i, writes := dests i, sb := sc.wsb.val, due := (latencyBound i).map fun b => s.time + b, queue := queueOf i sc.acc, at_ := s.tick
    vals := if s.cx.trusted && !settlesFirst i then changedElems v.cx t.cx (strandIx s.focus) i else [] }

/-- The strand after an instruction that has issued and not trapped: its pops are made, and its pushes unless it waits; latches, the result in
flight, scoreboards, and the earliest next issue (R84-R86, R91). A trap return has cleared the latches. -/
def Strand.issued (k : Strand) (sc : Sched) (f : Flight) (i : Instr) (now : Nat) (latches : List Latch) : Strand :=
  let k := k.popTokens f.queue sc.tok
  let k := if k.wait.isSome then { k with owed := some (f.queue, sc.tok) } else k.pushTokens f.queue sc.tok
  { k.shiftAhead with
    latches := latches, recent := (f :: k.recent).take 32, clock := now + Nat.max (sc.stall.val + 1) (if k.yielded then 2 else 1)
    flight := k.flight ++ (if k.wait.isSome || f.writes.isEmpty || settlesFirst i then [] else [f]) }.countSb

/-- What stands around a completed meaning: tokens, latches, counters, results in flight. An instruction that was held has no effect of its own,
and one that trapped none but the count of its command (R94, R100). `s` is the state before, `v` what was read, `t` the meaning's result. -/
def finishIssue (s v t : State) (sc : Sched) (i : Instr) : State :=
  let ix := strandIx s.focus
  if t.cx.uid ≠ s.cx.uid then t
  else
    let u := if s.cx.trusted then t.modCx fun y => s.cx.keepFiles y ix (settlesFirst i) else t
    let count := fun x : Ctx => { x with tracerCmp := x.tracerCmp + BitVec.ofNat 64 (commandCount i) }
    if t.st.wait = some .retry then u
    else if t.st.level.val > s.st.level.val then u.modCx count
    else
      let f := flightOf s v t sc i
      let latches := if t.st.level.val < s.st.level.val then [] else fillLatches v.cx ix i s.st.latches
      ((if readsFlip s.cx u.cx i then u.modDi fun d => { d with ceFolio := satInc d.ceFolio } else u).modCx fun x =>
        let y := (count x).countMiss ix f.queue sc i s.tick
        let y := if x.trusted then y else y.waitedFor sc.guardP i
        let y := if acquires i t then y.fenceDucts ix else y
        if t.st.wait.isSome then y else s.cx.cureFlips (y.curePoison i)).modSt (·.issued sc f i s.time latches) |> fun u =>
          if !acquiresDom i v t then u
          else if t.st.wait.isSome then u.modSt fun k => { k with domAcquire := true }
          else u.dropMargin (u.dieOf u.focus.core)

/-- What has landed before a lockstep group issues, for one member (R83). -/
def landMember (s : State) (r : StrandRef) : State :=
  match prepare s r with
  | .go u .. => s.modCtx r.core r.slot fun _ => u.ctx r.core r.slot
  | .stop _ => s

/-- Shared registers as a lockstep member reads them: those from before the group's own results, in trusted mode with what is in flight (R83, R88). -/
def groupView (before s : State) : State :=
  let y := if before.cx.trusted then before.cx.view (strandIx before.focus) before.tick else before.cx
  s.modCx fun x => { x with v := y.v, m := y.m }

/-- A member has had its effect: it neither waits to be tried again nor has trapped. -/
def memberDone (s u : State) : Bool := u.cx.uid == s.cx.uid && u.st.wait != some .retry && !(u.st.level.val > s.st.level.val)

/-- Join a member's writes of shared registers to those of the members before it: the later member's remains (R83). A member without effect
writes nothing. In trusted mode a result in flight gives way to a later member's of the same step. -/
def groupJoin (s u : State) (i : Instr) : State :=
  if u.cx.uid ≠ s.cx.uid then u
  else
    let d := if memberDone s u then vectorDests i else ([], [])
    let ix := strandIx u.focus
    let last := match u.st.recent.head? with | some f => if memberDone s u && f.at_ = s.tick then f.vals else [] | none => []
    u.modCx fun x =>
      let y := d.1.foldl (fun y r => y.setV r (x.getV r)) s.cx
      let y := d.2.foldl (fun y r => y.setM r (x.getM r)) y
      { x with
        v := y.v, m := y.m
        strands := x.strands.mapFinIdx fun j t _ => if j = ix.val then t else
          { t with flight := t.flight.map fun f : Flight => if f.at_ = s.tick then { f with vals := f.vals.filter fun v => !(shared v.1 && last.any fun w => w.1 == v.1 && w.2.1 == v.2.1) } else f } }

/-! ## The tracer (R98, R99, R169) -/

/-- The strand as the tracer's copy of it stands. -/
def Strand.copied (t : Strand) (k : Tracer) : Strand :=
  { t with s := t.s.zipWith (· ^^^ ·) k.s, a := t.a.zipWith (· ^^^ ·) k.a, p := t.p ^^^ k.p, lc := t.lc.zipWith (· ^^^ ·) k.lc, pc := t.pc ^^^ k.pc }
/-- The copy that stands as `u` where the strand stands as `t`. -/
def Tracer.between (t u : Strand) : Tracer :=
  { s := t.s.zipWith (· ^^^ ·) u.s, a := t.a.zipWith (· ^^^ ·) u.a, p := t.p ^^^ u.p, lc := t.lc.zipWith (· ^^^ ·) u.lc, pc := t.pc ^^^ u.pc }
/-- The strand has forwarded registers: the copy holds what it holds. -/
def Tracer.forwarded (k : Tracer) (ds : List RegRef) : Tracer :=
  ds.foldl (fun k r => match r with
    | .s r => { k with s := k.s.set r 0 }
    | .a r => { k with a := k.a.set r 0 }
    | .p r => { k with p := k.p &&& ~~~(1#7 <<< r.val) }
    | .l r => { k with lc := k.lc.set r 0 }
    | _ => k) k

/-- An error changes a register of the copy. -/
def Tracer.struck (k : Tracer) (r : RegRef) (v : Word) : Tracer :=
  match r with
  | .s r => { k with s := k.s.set r (k.s[r] ^^^ v) }
  | .a r => { k with a := k.a.set r (k.a[r] ^^^ v) }
  | .p r => { k with p := k.p ^^^ (v.setWidth 7 <<< r.val) }
  | .l r => { k with lc := k.lc.set r (k.lc[r] ^^^ v.setWidth 32) }
  | _ => k

/-- The engine a command is bound to, as INFO names it: 15 for none (R156). -/
def commandEngine (i : Instr) : Nat :=
  match i with
  | .mma _ | .qmma .. => 0
  | .chain _ => 1
  | .cpy _ | .cpyo _ => 2
  | .tsem eng .. => (unitOf eng).val
  | _ => 15

/-- The instruction the tracer finds at its own program counter. -/
def tracedInstr (s : State) : Option (Sched × Instr) :=
  ((s.fetchSeq (s.agentAt s.focus) (s.st.pc ^^^ s.st.tracer.pc)).toOption).bind fun ws => (decode ws).toOption

/-- The tracer's command for an upper-half instruction differs: its guard outcome, its operation and literal, or the value of a register that it or a
command of its pair carries (R24, R99, R257, R321). -/
def traceDiffers (s v : State) (i : Instr) (on : Bool) : Bool :=
  upperHalf i && s.st.tracer != {} &&
    match tracedInstr s with
    | none => true
    | some (sc, j) =>
      let y := v.cx.modStrand (strandIx s.focus) fun t => t.copied s.st.tracer
      let c := y.strands[strandIx s.focus]
      j != i || guardOn c sc != on || (on && (carried i).any fun r => slotValue y (strandIx s.focus) r != slotValue v.cx (strandIx s.focus) r)

/-- The effect of a mismatch on an instruction (R169): the open phase aborts and the instruction issues again, or a second mismatch there traps,
with the guard outcome that the strand found (R157). -/
def traceMismatch (s : State) (r : StrandRef) (i : Instr) (on : Bool) : State :=
  let s := (countSdc s r.core .traceMismatch).modStrandAt r fun t => { t with tracer := {} }
  let t := s.strandAt r
  if t.mismatchAt = some t.pc then (withdrawWaits s r).trapAt r 0x21 0 t.pc 0 true on
  else
    let s := match (s.ctx r.core r.slot).phase with
      | some h => abortPhase s (strandCtx r) (.opened h.num)
          { code := 0x21, engine := commandEngine i, stage := 0, addr := 0, strand := (strandIx r).val, classD := false, hold := none, halt := false }
      | none => s
    s.modStrandAt r fun k => { k with mismatchAt := some t.pc }

/-- TRACE_MISMATCH: a command of either path was corrupted where the strand's next instruction is an upper-half one that has not issued (R99). -/
def execTraceMismatch (r : StrandRef) (s : State) : Out :=
  match s.findCtx (strandCtx r) with
  | none => .next s
  | some x =>
    if !readyStrand s r || !x.moving then .next s
    else match prepare s r with
    | .go _ _ _ i on => .next (if upperHalf i then traceMismatch s r i on else s)
    | .stop _ => .next s

/-! ## Running ahead (R90-R94, log 92) -/

/-- A load or address computation of the access queue, which may begin while an older instruction may still trap: it reads and computes, and all else
of it can wait for its turn (R94). -/
def mayBegin (i : Instr) : Bool :=
  match i with
  | .fld .. | .fldx .. | .ld .. | .vld .. | .vlds .. | .vgath .. | .tldv .. | .pref .. => true
  | .lia .. | .lita .. | .adr .. | .mova .. | .aadd .. | .aaddi .. | .aidx .. | .awrap .. | .abnd .. | .aalign .. | .acmp .. => true
  | _ => false

/-- A scalar operation that no operand value can make trap: no fault check of it is outstanding while it waits (R94). -/
def faultless (i : Instr) : Bool :=
  match i with
  | .nop => true
  | .div .. | .divu .. | .rem .. | .remu .. => false
  | i => !upperHalf i && (latencyBound i).isSome && classMask i == 0 && !settlesFirst i

/-- An unrouted store, an atomic or an engine command: while one has not issued, no access of the access queue does (R92). -/
def barsAccesses (i : Instr) : Bool :=
  match i with
  | .st .. | .fst .. | .fstx .. | .vst .. | .vsts .. | .vscat .. | .tsta .. | .atom .. | .atomn .. | .cas .. => true
  | i => pushesCommand i

/-- An instruction of the compute queue that those of the other queues may pass: no wait, no fence, no synchronisation (R92). -/
def passable (i : Instr) : Bool :=
  match i with
  | .semsig .. | .semtry .. | .semset .. | .qdepth .. | .cwptrLand .. | .cwptrIss .. | .fwput _ => false
  | .ld _ _ m | .st _ _ m => m.fl == .none
  | .vld _ _ _ m | .vst _ _ _ m | .vlds _ _ _ m | .vsts _ _ _ m | .vgath _ _ _ _ m | .vscat _ _ _ _ m => m.mem.fl == .none
  | .atom _ _ _ _ m | .atomn _ _ _ m | .cas _ _ _ _ m => m.fl == .none
  | .fld .. | .fst .. | .fldx .. | .fstx .. | .nop => true
  | i => pushesCommand i || ((latencyBound i).isSome && classMask i == 0 && !settlesFirst i)

/-- An access acquires, before which no younger one of the access queue begins. -/
def acquiring (i : Instr) : Bool :=
  match i with
  | .ld _ _ m | .tldv _ _ m _ => m.fl != .none
  | .vld _ _ _ m | .vlds _ _ _ m | .vgath _ _ _ _ m => m.mem.fl != .none
  | _ => false

/-- Registers that the address of a routed store is generated from (R90). -/
def addressRegs (i : Instr) : List RegRef :=
  match i with
  | .st _ _ m => [.a m.base]
  | .tsta _ _ m _ => [.a m.base]
  | .vst _ _ _ m => [.a m.mem.base]
  | .fst a .. => [.a a]
  | .fstx _ a b .. => [.a a, .s b]
  | .vsts b _ _ m => [.a m.mem.base, .s b]
  | .vscat b _ _ _ m => [.a m.mem.base, .v b]
  | _ => []

/-- An access goes to the folio, and of a scalar one there its first byte and their number. -/
def folioBytes (s : State) (i : Instr) : Bool × Option (Nat × Nat) :=
  match i with
  | .fld _ a disp _ size _ | .fst a _ disp _ size => (true, some ((baseDisp (s.getA a) disp).toNat, folSize size))
  | .fldx _ a b disp _ size _ | .fstx _ a b disp _ size => (true, some ((s.folIndexed a b disp size).toNat, folSize size))
  | .vld _ _ _ m | .vst _ _ _ m | .vlds _ _ _ m | .vsts _ _ _ m | .vgath _ _ _ _ m | .vscat _ _ _ _ m => (m.folio, none)
  | _ => (false, none)

/-- A load may overlap an older routed store in the window: it waits for that store's data (R93). Accesses of one space whose bytes are not both those
of a scalar folio access count as overlapping. -/
def mayOverlap (l st : Bool × Option (Nat × Nat)) : Bool :=
  l.1 == st.1 && match l.2, st.2 with
    | some a, some b => decide (a.1 < b.1 + b.2) && decide (b.1 < a.1 + a.2)
    | _, _ => true

/-- What of the instructions that stand before one has not issued: the registers they write, and those they still read; the queues they stand in;
the classes of their accesses; the routed stores among them; whether one bars accesses (R92); whether none of them can trap (R94). -/
structure Behind where
  writes : List RegRef := []
  reads : List RegRef := []
  queues : List Queue := []
  classes : BitVec 16 := 0
  stores : List (Bool × Option (Nat × Nat)) := []
  barred : Bool := false
  sure : Bool := true
  deriving DecidableEq, Repr

/-- No register of those before is in the instruction's way (R87, R91). -/
def Behind.free (b : Behind) (sc : Sched) (i : Instr) : Bool :=
  !(dests i).any (fun d => !wired d && (b.writes.contains d || b.reads.contains d)) && !(readsOf i).any b.writes.contains && !b.writes.contains (.p sc.guardP)

/-- An instruction found to go ahead: how many stand before it, what of it goes, the strand standing at it, its scheduling field and itself. -/
structure AheadNext where
  dist : Nat
  kind : AheadKind
  strand : Strand
  sc : Sched
  instr : Instr

/-- What of an instruction can go ahead now: its queue issues it in its own order, its tokens, scoreboards and room are there, R92's limits and R93 let an
access go, and its registers are free, or in trusted mode only its tokens order it. `t` stands at it, `dist` instructions on. -/
def goesAhead (s : State) (r : StrandRef) (b : Behind) (dist : Nat) (t : Strand) (sc : Sched) (i : Instr) : Option AheadKind :=
  let x := s.ctx r.core r.slot
  let k := s.strandAt r
  let q := queueOf i sc.acc
  let entry := k.ahead.find? fun e => e.dist == dist
  let at_ := s.modStrandAt r fun _ => t
  let clear := b.free sc i || (x.trusted && b.sure)
  let fits := tokensReady k q sc.tok && sbFits k sc && hasRoom x i && chainsReturned x (strandIx r) i && !readsPoison x i && clear
  let inOrder := classMask i &&& b.classes == 0 && (!acquiring i || b.classes == 0)
  if sc.sync || settlesFirst i || !guardOn t sc || !stateOk t (strandIx r) i || x.priv.val < instrLevel i then none
  else match q with
  | .access =>
    if b.queues.contains .access || !fits || (x.rung == .halting) then none
    else if classMask i != 0 && (b.barred || !inOrder || b.stores.any (mayOverlap (folioBytes at_ i))) then none
    else if b.sure then some .made
    else if mayBegin i then some .held
    else none
  | .store =>
    if entry.isNone then
      if b.queues.contains .access || b.barred || x.rung == .halting || (k.ahead.filter fun e => e.kind == .address).length ≥ 16
          || !((addressRegs i).all fun g => !b.writes.contains g) && !(x.trusted && b.sure) then none
      else some .address
    else if b.queues.contains .store || !b.sure || !fits then none
    else some .made
  | .compute =>
    match i with
    | .sbar _ | .yield => none
    | _ => if b.queues.contains .compute || !b.sure || !fits || !inOrder then none else some .made

/-- A control transfer as the router resolves it: the strand after it, where it does not trap (R90). -/
def routed (s : State) (i : Instr) : Option Strand :=
  let out := match i with
    | .br d => execBr d s
    | .brr a => execBrr a s
    | .call d o => execCall d o s
    | .callr d a => execCallr d a s
    | .ret a => execRet a s
    | .loop d a e => execLoop d a e s
    | .loopi d e n => execLoopi d e n s
    | .lbreak a => execLbreak a s
    | .lcset d a => execLcset d a s
    | _ => .next s
  match out with
  | .next u => if u.st.level = s.st.level ∧ u.st.wait.isNone then some u.st else none
  | _ => none

/-- What stands before the next instruction, once this one is passed by: with the strand after it, as far as the router knows its path (R90). -/
def Behind.pass (b : Behind) (s : State) (r : StrandRef) (dist : Nat) (t : Strand) (sc : Sched) (i : Instr) : Option (Behind × Strand) :=
  let q := queueOf i sc.acc
  let known := !b.writes.contains (.p sc.guardP)
  let entry : Option AheadKind := ((s.strandAt r).ahead.find? fun e => e.dist == dist).map (·.kind)
  match entry with
  | some .made => some (b, t.retireI i)
  | some .held => some ({ b with writes := b.writes ++ dests i }, t.retireI i)
  | e =>
    if known && !guardOn t sc then some (if resolvedByRouter i then b else { b with queues := q :: b.queues }, t.retireI i)
    else if resolvedByRouter i then
      if !known || (readsOf i).any b.writes.contains then none
      else (routed { s.modStrandAt r fun _ => { t with wait := none } with focus := r } i).map fun u =>
        ({ b with reads := b.reads ++ readsOf i ++ dests i, sure := false }, { u with wait := t.wait })
    else if q == .compute && !passable i then none
    else
      let addressed := e == some .address
      let store := q == .store
      let addr := match (s.strandAt r).ahead.find? fun e => e.dist == dist with | some e => e.vals | none => []
      let at_ := (s.modStrandAt r fun _ => t)
      let at_ := at_.modCtx r.core r.slot fun x => writeElems x (strandIx r) addr
      some ({ writes := b.writes ++ dests i
              reads := b.reads ++ (if addressed then (readsOf i).filter fun g => !(addressRegs i).contains g else readsOf i)
              queues := (if store then (if addressed then [.store] else [.store, .access]) else [q]) ++ b.queues
              classes := b.classes ||| (if acquiring i then BitVec.allOnes 16 else classMask i)
              stores := if store then folioBytes at_ i :: b.stores else b.stores
              barred := b.barred || (q == .compute && barsAccesses i)
              sure := b.sure && faultless i }, t.retireI i)

/-- Walk program order from the strand's next instruction for the first that can go ahead of its turn. -/
def aheadFrom (s : State) (r : StrandRef) : Nat → Nat → Strand → Behind → Option AheadNext
  | 0, _, _, _ => none
  | n + 1, dist, t, b =>
    match (s.fetchSeq (s.agentAt r) t.pc).toOption.bind fun ws => (decode ws).toOption with
    | none => none
    | some (sc, i) =>
      let done := (s.strandAt r).ahead.any fun e => e.dist == dist && e.kind != .address
      match if done || dist == 0 then none else goesAhead s r b dist t sc i with
      | some k => some { dist := dist, kind := k, strand := t, sc := sc, instr := i }
      | none =>
        match b.pass s r dist t sc i with
        | some (b, t) => aheadFrom s r n (dist + 1) t b
        | none => none

/-- The instruction of a strand that can issue ahead of its turn, looked for within 32. Under a halt only those that stand before one ahead still issue
(R95). -/
def aheadNext (s : State) (r : StrandRef) : Option AheadNext :=
  match s.findCtx (strandCtx r) with
  | some x =>
    let t := x.strands[strandIx r]
    let last := t.ahead.foldl (fun n e => Nat.max n e.dist) 0
    if t.live && (x.issuing || x.rung == .halting) && !(s.core r.core).zeroising && (t.wait == none || t.wait == some .retry) && !x.summoned (strandIx r)
        && t.forced.isNone && t.tracer == {} && decide (t.clock ≤ s.time) then
      (aheadFrom s r 32 0 t {}).filter fun n => x.issuing || decide (n.dist < last)
    else none
  | none => none

/-- The strand as it will stand at an instruction ahead: its place, its loops and its links as the walk left them. -/
def Strand.standing (k old t : Strand) : Strand :=
  { k with pc := t.pc, lc := t.lc, loopStart := t.loopStart, loopEnd := t.loopEnd, loopAge := t.loopAge
           a := Vector.ofFn fun n : Fin 16 => if t.a[n] = old.a[n] then k.a[n] else t.a[n] }

/-- Enter an instruction among those ahead, in place of its address. -/
def Strand.putAhead (t : Strand) (e : Ahead) : Strand :=
  { t with ahead := t.ahead.filter (fun a => a.dist < e.dist) ++ e :: t.ahead.filter fun a => e.dist < a.dist }

/-- The elements that the address of a routed store is generated from, as the access queue reads them (R90). -/
def addressEntry (s : State) (n : AheadNext) : Ahead :=
  let ix := strandIx s.focus
  let y := if s.cx.trusted then s.cx.view ix s.tick else s.cx
  { dist := n.dist, kind := .address, tok := 0, at_ := s.tick
    vals := (addressRegs n.instr).flatMap fun r => (List.range (elemCount r)).map fun e => (r, e, readElem y ix r e) }

/-- The registers of an address generated earlier, as they were then. -/
def State.withEntry (v : State) (e : Option Ahead) : State :=
  match e with
  | some e => if e.kind = .address then v.modCx fun x => writeElems x (strandIx v.focus) e.vals else v
  | none => v
/-- The strand's next instruction reads its address as it was generated. -/
def State.withAddress (v s : State) : State := v.withEntry (s.st.ahead.find? fun e => e.dist == 0)

/-- An instruction has issued ahead. Where no older one can trap it has all its effects but the turn of its place; else it has made its tokens and
begun, and its registers stay unwritten until its turn (R92, R94). `s` is the state before, `v` what it read, standing at it, `u` what it left. -/
def finishAhead (s v u : State) (n : AheadNext) : State :=
  let ix := strandIx s.focus
  let k := s.st
  if n.kind = .made then
    (finishIssue (s.modSt fun t => { t.standing k n.strand with wait := none }) v u n.sc n.instr).modSt fun t =>
      ({ t with pc := k.pc, lc := k.lc, loopStart := k.loopStart, loopEnd := k.loopEnd, loopAge := k.loopAge, forced := k.forced, wait := k.wait
                ahead := k.ahead }).putAhead { dist := n.dist, kind := .made, vals := [], tok := 0, at_ := s.tick }
  else
    let f := { flightOf s v u n.sc n.instr with vals := [] }
    let vals := changedElems v.cx u.cx ix n.instr
    let w := s.modSt fun t =>
      let t := (t.popTokens .access n.sc.tok).pushTokens .access n.sc.tok
      { t with recent := (f :: t.recent).take 32, clock := s.time + n.sc.stall.val + 1, flight := t.flight ++ if f.writes.isEmpty then [] else [f] }.countSb.putAhead
        { dist := n.dist, kind := .held, vals := vals, tok := n.sc.tok, at_ := s.tick }
    let w := if acquires n.instr u then w.modCx (·.fenceDucts ix) else w
    if acquiresDom n.instr v u then w.dropMargin (w.dieOf w.focus.core) else w

/-- The results kept back for an instruction's turn reach the files, or in trusted mode what is still in flight of it. -/
def Ctx.landHeld (x : Ctx) (i : Fin 4) (e : Ahead) : Ctx :=
  if x.trusted && (x.strands[i].flight.any fun f => f.at_ == e.at_) then
    x.modStrand i fun t => { t with flight := t.flight.map fun f : Flight => if f.at_ == e.at_ then { f with vals := e.vals } else f }
  else writeElems x i e.vals

/-- The turn of an instruction that issued ahead has come: what was kept back of it happens, and it leaves issue. `u` is what its meaning leaves now, of
which only what it finds out of range, corrects or counts is new (R94, R104, R105). -/
def takeAhead (s u : State) (e : Ahead) (i : Instr) : State :=
  let ix := strandIx s.focus
  let w :=
    if e.kind = .made ∨ u.cx.uid ≠ s.cx.uid ∨ u.st.level ≠ s.st.level ∨ u.st.wait.isSome then s
    else (u.modCx fun y => { y with v := s.cx.v, m := s.cx.m }).modSt fun _ => s.st
  let w := if e.kind ≠ .made ∧ readsFlip s.cx s.cx i then w.modDi fun d => { d with ceFolio := satInc d.ceFolio } else w
  let w := if e.kind = .made then w
    else w.modCx fun x => { s.cx.cureFlips ((x.landHeld ix e).curePoison i) with tracerCmp := x.tracerCmp + BitVec.ofNat 64 (commandCount i) }
  w.modSt fun t => (t.retireI i).shiftAhead

/-! ## The turn of a strand (R80) -/

/-- The strand can issue: its next instruction in order, or one ahead of its turn. -/
def serviceable (s : State) (r : StrandRef) : Bool := able s r || (aheadNext s r).isSome

/-- The strand that an issue cluster of a core serves next: round robin over the slots after the one served last, one that gave up its turn
standing back for the others (R80). -/
def clusterNext (s : State) (core : Nat) (i : Fin 4) : Option StrandRef :=
  let all := (List.range 4).map fun n => ({ core := core, slot := ((s.core core).served[i] + 1 + n) % 4, strand := i.val } : StrandRef)
  let ok := all.filter (serviceable s)
  (ok.find? fun r => !(s.strandAt r).yielded).or ok.head?

/-- The strand issues in this step where a cluster is chosen for it: its cluster serves it next. -/
def canIssue (s : State) (r : StrandRef) : Bool := clusterNext s r.core (strandIx r) == some r

/-- Every issue cluster of the cores, by core and cluster number. -/
def allClusters (s : State) : List (Nat × Fin 4) := s.cores.flatMap fun k => (List.finRange 4).map fun i => (k.1, i)

/-- The next strand to issue and the turn after it: clusters are independent of each other, and the model takes them in rotation (R80, log 2). -/
def nextStrand (s : State) : Option (StrandRef × Nat) :=
  let l := (allClusters s).zipIdx
  let n := s.turn % Nat.max 1 l.length
  (l.drop n ++ l.take n).findSome? fun e => (clusterNext s e.1.1 e.1.2).map fun r => (r, e.2 + 1)

/-- The cycles at which the STALL of some strand is over, from now on, in order. -/
def stallEnds (s : State) : List Nat :=
  let ends := s.cores.flatMap fun k => k.2.slots.flatMap fun e => e.2.strands.toList.filterMap fun t => if s.time < t.clock then some t.clock else none
  ends.mergeSort.eraseDups

/-- Where no strand can issue in this cycle, the cycles up to the first in which one can have passed (R80, R84). -/
def State.toIssue (s : State) : State :=
  if (nextStrand s).isSome then s
  else match (stallEnds s).find? fun t => (nextStrand { s with time := t }).isSome with
    | some t => passTime s (t - s.time)
    | none => s

end Sys2Proof.Machine
end

