-- ==== Sys2Proof/Machine/Ligature.lean ====
section
/-! DEFINITION. Ligature instructions (19 R309-R314). -/

namespace Sys2Proof.Machine

/-- Slot width of an instruction: SW, or cr.lig.gw at issue (R308). -/
def State.slotWidth (s : State) (sw : BitVec 7) : Nat := if sw = 0 then s.cx.ligGw.toNat else sw.toNat

/-- Digits of R309: m digits of w bits, then the remainder. -/
def digits (w : Nat) (signed : Bool) : Nat → Int → List Int × Int
  | 0, y => ([], y)
  | m + 1, y =>
    let d : Int := if signed then (BitVec.ofInt w y).toInt else (y % (2 ^ w : Nat))
    let r := digits w signed m ((y - d) / (2 ^ w : Nat))
    (d :: r.1, r.2)

/-- LPACK's sum (R310): a slot wholly above bit 4095 contributes nothing. -/
def packSum (w : Nat) (es : List Int) (place : Nat → Nat) : Int :=
  es.zipIdx.foldl (fun x e => if w * place e.2 ≥ 4096 then x else x + e.1 * (2 ^ (w * place e.2) : Nat)) 0

def execLpack (d a : VNum) (ty : ETy) (rev : Bool) (o : LigOp) (s : State) : Out :=
  let w := s.slotWidth o.sw
  let es := ((s.elems ty a).take o.count.toNat).map (elemInt ty)
  let place := fun i => if rev then o.first.val + o.stride.val * (o.count.toNat - 1 - i) else o.first.val + o.stride.val * i
  .next ((s.setV d (BitVec.ofInt 4096 (packSum w es place))).retire)

def execLadd (d a b : VNum) (sub : Bool) (s : State) : Out :=
  .next ((s.setV d (if sub then s.getV a - s.getV b else s.getV a + s.getV b)).retire)

/-- A 4096-bit operand of LMUL. -/
def ligValue (sg : Bool) (v : VecWord) : Int := if sg then v.toInt else v.toNat
/-- Coefficient k of the product polynomial. -/
def coefficient (da db : List Int) (k : Nat) : Int :=
  ((da.take (k + 1)).zipIdx.map fun e => e.1 * (db[k - e.2]?.getD 0)).foldl (· + ·) 0
/-- The guard of R312. -/
def ligGuard (w : Nat) (sg : Bool) (a b : VecWord) : Bool :=
  let m := 4096 / w
  let da := digits w sg m (ligValue sg a)
  let db := digits w sg m (ligValue sg b)
  da.2 != 0 || db.2 != 0 || (List.range (2 * m - 1)).any fun k =>
    let c := coefficient da.1 db.1 k
    c < -(2 ^ (w - 1) : Nat) || c > (2 ^ (w - 1) : Nat) - 1

def execLmul (d a b : VNum) (signed : Bool) (sw : BitVec 7) (s : State) : Out :=
  let guard := ligGuard (s.slotWidth sw) signed (s.getV a) (s.getV b)
  if guard && s.cx.ligTrap then .next (s.trap 0x15 0 0)
  else
    let p := BitVec.ofInt 8192 (ligValue signed (s.getV a) * ligValue signed (s.getV b))
    let s := if guard then s.modCx fun x => { x with ligGf := true } else s
    .next (((s.setV d (p.extractLsb' 0 4096)).setV (vplus d 1) (p.extractLsb' 4096 4096)).retire)

/-- The digit LEXT reads at position j as an element of a type (R313). -/
def extLane (ty : ETy) (sat : Bool) (v : Int) : Nat :=
  let r := intRange ty
  intPattern ty (if sat then max r.1 (min r.2 v) else v)

def execLext (d a : VNum) (ty : ETy) (sat pair : Bool) (o : LigOp) (s : State) : Out :=
  let w := s.slotWidth o.sw
  let src : Int := if pair then (s.getV (vplus a 1) ++ s.getV a).toInt else (s.getV a).toInt
  let ds := (digits w true ((if pair then 8192 else 4096) / w) src).1
  let new := (s.elems ty d).zipIdx.map fun e =>
    if e.2 < o.count.toNat then extLane ty sat (ds[o.first.val + o.stride.val * e.2]?.getD 0) else e.1
  .next ((s.setV d (BitVec.ofNat 4096 (packLanes ty.width new))).retire)

def execLgw (sw : BitVec 7) (s : State) : Out := .next ((s.modCx fun x => { x with ligGw := sw }).retire)

end Sys2Proof.Machine
end

