-- ==== Sys2Proof/Machine/MemAccess.lean ====
section
/-! DEFINITION. Loads, stores, gathers, scatters, versioned tiles, fences, prefetch, cache maintenance, atomics (06 R113-R130). -/

namespace Sys2Proof.Machine

/-! ## Scalar loads and stores (R118) -/

/-- Access size of an integer type in bytes. -/
def tySize (t : ETy) : Nat := t.width / 8

def execLd (d : SaReg) (ty : ETy) (m : MemOp) (s : State) : Out :=
  let ea := s.ea m
  if !aligned ea (tySize ty) then .next (s.addrAlign ea)
  else .next (s.withRead .rd ea (tySize ty) fun s bs => (s.setSA d (extend ty.width ty.isSigned (leNat bs))).retire)

def execSt (b : SaReg) (ty : ETy) (m : MemOp) (s : State) : Out :=
  let ea := s.ea m
  if !aligned ea (tySize ty) then .next (s.addrAlign ea)
  else .next (s.withWrite ea (leBytes (tySize ty) (s.getSA b).toNat) fun s => s.retire)

/-! ## Lanes of a vector access (R117, R119-R121) -/

/-- An error of one lane: misaligned, or a cause of the access. -/
inductive LaneErr where
  | align
  | mem (e : MemErr)
  deriving DecidableEq, Repr

/-- The first byte of a lane: the translation of the byte before it serves within 4 KiB (R185). -/
def State.laneStart (s : State) (ag : Agent) (k : Kind) (a : Word) (prev : Option (Word × Xl)) : Except MemErr Xl :=
  match prev with
  | some (pa, x) => if pa + 1 = a ∧ fld a 11 0 ≠ 0 then .ok { x with key := x.key + 1, off := x.off + 1 } else s.xlate ag k a
  | none => s.xlate ag k a

/-- The bytes of an aligned lane of n bytes from its first. -/
def laneBytes (x : Xl) (n : Nat) : List Xl := (List.range n).map fun i => { x with key := x.key + i, off := x.off + i }

/-- Read lanes of n bytes in order; a disabled lane is none. The first failing lane decides (R117). -/
def State.readLanes (s : State) (ag : Agent) (n : Nat) : List (Option Word) → Option (Word × Xl) → Except (LaneErr × Word) (List (Option (Xl × Nat)))
  | [], _ => .ok []
  | none :: r, prev => (s.readLanes ag n r prev).map fun l => none :: l
  | some a :: r, prev =>
    if !aligned a n then .error (.align, a)
    else match s.laneStart ag .rd a prev with
    | .error e => .error (.mem e, a)
    | .ok x =>
      match s.readXl a (laneBytes x n) with
      | .error (e, b) => .error (.mem e, b)
      | .ok bs =>
        (s.readLanes ag n r (some (a + BitVec.ofNat 64 (n - 1), { x with key := x.key + (n - 1), off := x.off + (n - 1) }))).map fun l =>
          some (x, leNat bs) :: l

/-- Translate lanes of n bytes for a write; every key slot must be LIVE. -/
def State.writeLanes (s : State) (ag : Agent) (n : Nat) : List (Option Word) → Option (Word × Xl) → Except (LaneErr × Word) (List (Option (List Xl)))
  | [], _ => .ok []
  | none :: r, prev => (s.writeLanes ag n r prev).map fun l => none :: l
  | some a :: r, prev =>
    if !aligned a n then .error (.align, a)
    else match s.laneStart ag .wr a prev with
    | .error e => .error (.mem e, a)
    | .ok x =>
      match s.writeKeys x.key x.enc with
      | .error e => .error (.mem e, a)
      | .ok _ =>
        (s.writeLanes ag n r (some (a + BitVec.ofNat 64 (n - 1), { x with key := x.key + (n - 1), off := x.off + (n - 1) }))).map fun l =>
          some (laneBytes x n) :: l

/-- Take the trap or wait of a failing lane. -/
def State.laneFail (s : State) (e : LaneErr) (a : Word) : State :=
  match e with
  | .align => s.addrAlign a
  | .mem e => s.memFail e a

/-- Count one access to each page touched (R186, log 13). -/
def noteAll (s : State) (xs : List Xl) (wrote : Bool) : State :=
  (xs.pwFilter fun x y => ¬(x.owner = y.owner ∧ x.page = y.page)).foldl (fun s x => noteAccess s s.here x wrote) (if wrote then s.crossLinks xs else s.useLines xs)

/-- Bytes of one lane: an element, or the byte that two 4-bit lanes share. -/
def chunkBytes (t : ETy) : Nat := Nat.max 1 (t.width / 8)
/-- Chunks of a register. -/
def chunkCount (t : ETy) : Nat := 512 / chunkBytes t
/-- Lanes of chunk c (4-bit lanes come two to a byte). -/
def chunkLanes (t : ETy) (c : Nat) : List Nat := if t.width = 4 then [2 * c, 2 * c + 1] else [c]
/-- A chunk has an enabled lane (R120). -/
def State.chunkOn (s : State) (t : ETy) (m : Option MNum) (c : Nat) : Bool := (chunkLanes t (c % chunkCount t)).any (s.laneOn m)
/-- Keep the address of a chunk where it is enabled. -/
def State.chunkAddrs (s : State) (t : ETy) (m : Option MNum) (addrs : List Word) : List (Option Word) :=
  addrs.zipIdx.map fun e => if s.chunkOn t m e.2 then some e.1 else none

/-- Put loaded chunks into the enabled lanes of a group of g registers. -/
def State.loadLanes (s : State) (t : ETy) (m : Option MNum) (d : VNum) (g : Nat) (vals : List (Option Nat)) : State :=
  let new := lanesOf t.width (g * t.lanes) (packLanes (8 * chunkBytes t) (vals.map (·.getD 0)))
  s.setGroupNat d g (packLanes t.width (mergeLanes (fun i => s.laneOn m (i % t.lanes)) (lanesOf t.width (g * t.lanes) (s.groupNat d g)) new))

/-- Bits of a chunk that its enabled lanes cover. -/
def State.chunkMask (s : State) (t : ETy) (m : Option MNum) (c : Nat) : Nat :=
  if t.width = 4 then (if s.laneOn m (2 * (c % 512)) then 0x0F else 0) + (if s.laneOn m (2 * (c % 512) + 1) then 0xF0 else 0)
  else 2 ^ (8 * chunkBytes t) - 1

/-- The stored byte under a write's own keys, for the read-modify-write of a 4-bit lane. -/
def State.oldByte (s : State) (x : Xl) : Byte :=
  match s.readByte x.key x.enc with
  | .ok b => b
  | .error _ => s.rawByte x.key

/-- The byte a lane leaves: a 4-bit lane keeps its neighbour. -/
def blend (mask : Nat) (old new : Byte) : Byte := if mask = 0x0F ∨ mask = 0xF0 then (old &&& ~~~BitVec.ofNat 8 mask) ||| (new &&& BitVec.ofNat 8 mask) else new

/-- Vector load of a group: chunks from memory or folio addresses (R119-R121). -/
def vecLoad (s : State) (t : ETy) (folio : Bool) (m : Option MNum) (d : VNum) (g : Nat) (addrs : List Word) : State :=
  let n := chunkBytes t
  let want := s.chunkAddrs t m addrs
  if folio then
    match want.findIdx? fun a => match a with | some a => !aligned a n | none => false with
    | some k =>
      let early := (want.take k).flatMap fun a => match a with | some a => folOffsets a n | none => []
      if (folAccess s.co s.cx false early).spill.isSome || (folAccess s.co s.cx false early).poison.isSome then s.withFolRead false 2 early fun s _ => s
      else s.folioAlign ((want[k]?.join).getD 0)
    | none =>
      s.withFolRead false 2 (want.flatMap fun a => match a with | some a => folOffsets a n | none => []) fun s bs =>
        let r := want.foldl (fun (acc : List (Option Nat) × List Byte) a =>
          match a with
          | some _ => (some (leNat (acc.2.take n)) :: acc.1, acc.2.drop n)
          | none => (none :: acc.1, acc.2)) ([], bs)
        (s.loadLanes t m d g r.1.reverse).retire
  else
    match s.readLanes s.agent n want none with
    | .error (e, a) => s.laneFail e a
    | .ok vals =>
      let xs := vals.filterMap fun v => v.map (·.1)
      s.charged xs false (n * xs.length) fun s => ((noteAll s xs false).loadLanes t m d g (vals.map fun v => v.map (·.2))).retire

/-- Vector store of chunks to memory or folio addresses; a later lane overwrites an earlier one (R120). -/
def vecStore (s : State) (t : ETy) (folio : Bool) (m : Option MNum) (addrs : List Word) (data : List Nat) : State :=
  let n := chunkBytes t
  let want := s.chunkAddrs t m addrs
  if folio then
    match want.find? fun a => match a with | some a => !aligned a n | none => false with
    | some a => s.folioAlign (a.getD 0)
    | none =>
      let items := (want.zip data).zipIdx.filterMap fun e => e.1.1.map fun a => (a, e.1.2, e.2)
      let offs := items.flatMap fun i => folOffsets i.1 n
      let acc := folAccess s.co s.cx false offs
      let olds := acc.cells.map (s.co.readCell false)
      let bytes := items.zipIdx.flatMap fun i =>
        if t.width = 4 then [blend (s.chunkMask t m i.1.2.2) (olds[i.2]?.getD 0) (BitVec.ofNat 8 i.1.2.1)] else leBytes n i.1.2.1
      s.withFolWrite false 3 offs bytes fun s => s.retire
  else
    match s.writeLanes s.agent n want none with
    | .error (e, a) => s.laneFail e a
    | .ok xs =>
      let items := (xs.zip data).zipIdx.filterMap fun e => e.1.1.map fun x => (x, e.1.2, e.2)
      let bytes := items.flatMap fun i =>
        i.1.zip (if t.width = 4 then [blend (s.chunkMask t m i.2.2) ((i.1.head?.map s.oldByte).getD 0) (BitVec.ofNat 8 i.2.1)] else leBytes n i.2.1)
      let all := items.flatMap (·.1)
      s.charged all true all.length fun s => ((noteAll s all true).perform bytes).retire

/-- Addresses of a contiguous access of g registers. -/
def contigAddrs (t : ETy) (ea : Word) (g : Nat) : List Word :=
  (List.range (g * chunkCount t)).map fun c => ea + BitVec.ofNat 64 (c * chunkBytes t)
/-- Addresses of a strided access. -/
def strideAddrs (t : ETy) (ea stride : Word) : List Word := (List.range (chunkCount t)).map fun i => ea + BitVec.ofNat 64 i * stride
/-- Lane addresses of a gather or scatter (R121). -/
def State.gatherAddrs (s : State) (t : ETy) (ea : Word) (b : VNum) (scl : Bool) : List Word :=
  (lanesOf 32 t.lanes (s.groupNat b (if t.width = 16 then 2 else 1))).map fun i =>
    ea + ((BitVec.ofNat 32 i).signExtend 64 <<< (if scl then Nat.log2 (t.width / 8) else 0))
/-- Chunks of a register group as stored data. -/
def State.storeData (s : State) (t : ETy) (b : VNum) (g : Nat) : List Nat := lanesOf (8 * chunkBytes t) (g * chunkCount t) (s.groupNat b g)

def execVld (d : VNum) (ty : ETy) (sz : Fin 3) (m : VMemOp) (s : State) : Out :=
  .next (vecLoad s ty m.folio m.mask d (2 ^ sz.val) (contigAddrs ty (s.ea m.mem) (2 ^ sz.val)))
def execVst (b : VNum) (ty : ETy) (sz : Fin 3) (m : VMemOp) (s : State) : Out :=
  .next (vecStore s ty m.folio m.mask (contigAddrs ty (s.ea m.mem) (2 ^ sz.val)) (s.storeData ty b (2 ^ sz.val)))
def execVlds (d : VNum) (b : SReg) (ty : ETy) (m : VMemOp) (s : State) : Out :=
  .next (vecLoad s ty m.folio m.mask d 1 (strideAddrs ty (s.ea m.mem) (s.getS b)))
def execVsts (b : SReg) (c : VNum) (ty : ETy) (m : VMemOp) (s : State) : Out :=
  .next (vecStore s ty m.folio m.mask (strideAddrs ty (s.ea m.mem) (s.getS b)) (s.storeData ty c 1))
def execVgath (d b : VNum) (ty : ETy) (scl : Bool) (m : VMemOp) (s : State) : Out :=
  .next (vecLoad s ty m.folio m.mask d 1 (s.gatherAddrs ty (s.ea m.mem) b scl))
def execVscat (b c : VNum) (ty : ETy) (scl : Bool) (m : VMemOp) (s : State) : Out :=
  .next (vecStore s ty m.folio m.mask (s.gatherAddrs ty (s.ea m.mem) b scl) (s.storeData ty c 1))

/-! ## Versioned tiles (R122-R124) -/

/-- Byte lanes of a tile: byte j of the data goes with lane j mod 512. -/
def State.tileOn (s : State) (m : Option MNum) (j : Nat) : Bool := s.laneOn m (j % 512)

/-- What a TSTA writes: the bytes of its version word, the odd version, and the bytes of its data; or its trap (R123, R117). -/
def tstaPlan (s : State) (b : VNum) (sz : Fin 3) (m : MemOp) (mask : Option MNum) : Except State (List Xl × Nat × List (Xl × Byte)) :=
  let t := s.ea m
  let n := 512 * 2 ^ sz.val
  if !aligned t 64 then .error (s.addrAlign t)
  else
    let lanes := (List.range n).map fun j => if s.tileOn mask j then some (t + 64 + BitVec.ofNat 64 j) else none
    match s.writeVa s.homeAgent t 8 with
    | .error (e, a) => .error (s.memFail e a)
    | .ok vx =>
      match s.readXl t vx with
      | .error (e, a) => .error (s.memFail e a)
      | .ok vb =>
        match s.writeLanes s.agent 1 lanes none with
        | .error (e, a) => .error (s.laneFail e a)
        | .ok xs =>
          let data := lanesOf 8 n (s.groupNat b (2 ^ sz.val))
          .ok (vx, leNat vb / 2 * 2 + 1, (xs.zip data).flatMap fun e => match e.1 with | some l => l.zip [BitVec.ofNat 8 e.2] | none => [])

/-- TSTA (R123). The version word asks write permission alone (log 83). -/
def execTsta (b : VNum) (sz : Fin 3) (m : MemOp) (mask : Option MNum) (s : State) : Out :=
  match tstaPlan s b sz m mask with
  | .error t => .next t
  | .ok (vx, ver, bytes) =>
    let xs := vx ++ bytes.map (·.1)
    .next (s.charged xs true xs.length fun s =>
      ((((noteAll s xs true).perform (vx.zip (leBytes 8 ver))).perform bytes).perform (vx.zip (leBytes 8 (ver + 1)))).retire)

/-- A TSTA cut off by a reset: the version stays odd, and of its data sectors some are written (R123). -/
def cutTile (s : State) (b : VNum) (sz : Fin 3) (m : MemOp) (mask : Option MNum) : State :=
  match tstaPlan s b sz m mask with
  | .error _ => s
  | .ok (vx, ver, bytes) =>
    if !vx.all fun x => keyDie x.key / 4 == s.package then s
    else (s.perform (vx.zip (leBytes 8 ver))).perform (bytes.filter fun e => Config.choice s.tick (5000 + e.1.key / 64 % 64))

/-- One attempt of TLDV (R124): data when the version is even, which no store of another agent can change within the step. -/
def tldvAttempt (s : State) (d : VNum) (sz : Fin 3) (t : Word) (mask : Option MNum) (attempt : Nat) : State :=
  let n := 512 * 2 ^ sz.val
  match s.readVa s.homeAgent .rd t 8 with
  | .error (e, a) => s.memFail e a
  | .ok (vx, vb) =>
    if leNat vb % 2 = 0 then
      match s.readLanes s.homeAgent 1 ((List.range n).map fun j => if s.tileOn mask j then some (t + 64 + BitVec.ofNat 64 j) else none) none with
      | .error (e, a) => s.laneFail e a
      | .ok vals =>
        let xs := vx ++ vals.filterMap fun v => v.map (·.1)
        let new := vals.map fun v => (v.map (·.2)).getD 0
        s.charged xs false xs.length fun s => let s := noteAll s xs false; (s.setGroupNat d (2 ^ sz.val) (packLanes 8 (mergeLanes (s.tileOn mask) (lanesOf 8 n (s.groupNat d (2 ^ sz.val))) new))).modSt
          (·.finishWait)
    else s.modSt fun st => { st with wait := some (.tldv d sz t mask (attempt + 1) (leWord vb) s.time) }

def execTldv (d : VNum) (sz : Fin 3) (m : MemOp) (mask : Option MNum) (s : State) : Out :=
  if !aligned (s.ea m) 64 then .next (s.addrAlign (s.ea m)) else .next (tldvAttempt s d sz (s.ea m) mask 0)

/-- What stands around a later attempt of TLDV: held again, it issues anew and takes back its tokens; completed, its whole writes end errors. -/
def tldvAfter (s u : State) (d : VNum) (sz : Fin 3) (mask : Option MNum) : State :=
  if u.st.wait = some .retry then u.modSt (·.unwind)
  else if u.cx.uid = s.cx.uid ∧ u.st.wait = none ∧ u.st.level = s.st.level ∧ mask = none then
    u.modCx (·.cure ((List.range (2 ^ sz.val)).map fun k => (vplus d k).val, []))
  else u

/-- TLDV_RETRY (R124): the next attempt once the version has changed or 256 cycles have passed; after 64 of them TILE_BUSY. -/
def execTldvRetry (r : StrandRef) (s : State) : Out :=
  match (s.strandAt r).wait with
  | some (.tldv d sz t mask attempt seen since) =>
    let s := { s with focus := r }
    let changed := match s.readVa s.homeAgent .rd t 8 with | .ok (_, vb) => leWord vb != seen | .error _ => true
    if !changed && s.time < since + 256 then .next s
    else if attempt ≥ 64 then .next (s.trap 0x0E 0 t)
    else .next (tldvAfter s (tldvAttempt s d sz t mask attempt) d sz mask)
  | _ => .next s

/-! ## Fence, prefetch, cache maintenance (R125-R127) -/

/-- Every earlier access has performed, so a fence only takes its place (R125, log 5). -/
def execFence (_scope : Scope) (_fl : Flavour) (_mask : BitVec 16) (s : State) : Out := .next s.retire

/-- PREF raises nothing: it brings the line into the die's margin cache or its home L2, and `.near` counts one access for placement (R126). -/
def execPref (kind : PrefKind) (a : AReg) (disp : BitVec 32) (s : State) : Out :=
  let ea := baseDisp (s.getA a) disp
  .next (match s.xlate s.agent .rd ea with
    | .ok x =>
      let s := marginTake (s.useLines [x]) x
      (if kind = .near then noteAccess s s.here x false else s).retire
    | .error _ => s.retire)

/-- `.wb` and `.wbinv` fault as a 1-byte load at the home, and act on the line of its byte (R127). -/
def cmoRead (s : State) (ea : Word) (f : State → Nat → State) : State :=
  match s.readVa s.homeAgent .rd ea 1 with
  | .error (e, a) => s.memFail e a
  | .ok (xs, _) => s.charged xs false 1 fun t => (xs.foldl (fun u x => f u x.key) (t.countRead xs)).retire
/-- The line stays in the L2, its HBM bytes now as new (R127). -/
def execCmoWb (a : AReg) (disp : BitVec 32) (_oc : Fin 16) (s : State) : Out := .next (cmoRead s (baseDisp (s.getA a) disp) State.cleanLine)
/-- The line leaves its home L2 and every margin cache of the package (R127). -/
def execCmoWbinv (a : AReg) (disp : BitVec 32) (_oc : Fin 16) (s : State) : Out :=
  .next (cmoRead s (baseDisp (s.getA a) disp) fun t k => (List.range 4).foldl (fun u d => u.dropCopies (s.package * 4 + d) (k / 128)) (t.dropLine k))
def execCmoZero (a : AReg) (disp : BitVec 32) (_oc : Fin 16) (s : State) : Out :=
  let ea := baseDisp (s.getA a) disp
  if !aligned ea 128 then .next (s.addrAlign ea)
  else .next (s.withWrite ea (List.replicate 128 0) fun s => s.retire)

/-! ## Atomics (R128-R130) -/

/-- The new value of an atomic of R128. -/
def atomNew (op : AtomOp) (t : ETy) (old arg : Nat) : Nat :=
  match op with
  | .add => (old + arg) % 2 ^ t.width
  | .min => if elemInt t arg < elemInt t old then arg else old
  | .max => if elemInt t old < elemInt t arg then arg else old
  | .and => old &&& arg
  | .or => old ||| arg
  | .xor => old ^^^ arg
  | .swap => arg
  | .fadd => toF32 (numAdd (ofF32 old) (ofF32 arg))

/-- One read-modify-write at an address: `f` gives the new value, none where nothing is written, and `k` goes on with the old. -/
def atomic (s : State) (t : ETy) (ea : Word) (f : Nat → Option Nat) (k : State → Nat → State) : State :=
  let n := tySize t
  if !aligned ea n then s.addrAlign ea
  else match s.readVa s.agent .rmw ea n with
  | .error (e, a) => s.memFail e a
  | .ok (xs, bs) =>
    match xs.find? fun x => match s.writeKeys x.key x.enc with | .error _ => true | .ok _ => false with
    | some _ => s.memFail (.accessFault 0) ea
    | none =>
      s.charged xs true n fun s =>
        let s1 := s.countWrite xs
        match f (leNat bs) with
        | some v => k (s1.perform (xs.zip (leBytes n v))) (leNat bs)
        | none => k s1 (leNat bs)

/-- The operand's low bits at a type's size. -/
def lowBits (t : ETy) (w : Word) : Nat := w.toNat % 2 ^ t.width

def execAtom (op : AtomOp) (d b : SReg) (ty : ETy) (m : MemOp) (s : State) : Out :=
  .next (atomic s ty (s.ea m) (fun old => some (atomNew op ty old (lowBits ty (s.getS b))))
    fun s old => (s.setS d (extend ty.width ty.isSigned old)).retire)
def execAtomn (op : AtomOp) (b : SReg) (ty : ETy) (m : MemOp) (s : State) : Out :=
  .next (atomic s ty (s.ea m) (fun old => some (atomNew op ty old (lowBits ty (s.getS b)))) fun s _ => s.retire)
def execCas (d b c : SReg) (ty : ETy) (m : MemOp) (s : State) : Out :=
  .next (atomic s ty (s.ea m) (fun old => if old = lowBits ty (s.getS b) then some (lowBits ty (s.getS c)) else none)
    fun s old => (s.setS d (extend ty.width ty.isSigned old)).retire)

end Sys2Proof.Machine
end

