-- ==== Sys2Proof/Machine/Package.lean ====
section
/-! DEFINITION. Krytnudal ports, the root of trust, heat and power, timed waits, and inputs that the table gives no row
(26 R407-R409, 27 R411-R423, 07 R147-R148). -/

namespace Sys2Proof.Machine

/-! ## Krytnudal ports (R407-R409) -/

/-- Krytnudal ports of a package (R2). -/
def portCount : Nat := 16
/-- The housekeeping core is interrupted. -/
def interruptHk (s : State) : State := { s with hkInterrupts := s.hkInterrupts + 1 }

/-- A port changes its lane state: the housekeeping core is interrupted at every change (R408). -/
def portChange (s : State) (n : Nat) (p : Port) : State := interruptHk (s.setPort n p)

/-- LANE_FAILURE (R408). -/
def execLaneFailure (port lane : Nat) (s : State) : Out :=
  let p := s.port port
  if port ≥ portCount || lane ≥ 8 || p.failedLanes.contains lane then .next s
  else
    let q := { p with failedLanes := p.failedLanes ++ [lane] }
    match p.lanes with
    | .full => .next (portChange s port { q with lanes := .erased })
    | .erased => .next (portChange s port { q with lanes := .half, retraining := true })
    | .half => .next (portChange s port { q with lanes := .down })
    | .down => .next (s.setPort port q)

/-- PORT_RETRAIN_COMPLETE: at four lanes, or at eight where the housekeeping core requested it (R408). -/
def execPortRetrainComplete (port : Nat) (s : State) : Out :=
  let p := s.port port
  if !p.retraining then .next s
  else if p.wide then .next (portChange s port { p with retraining := false, wide := false, lanes := .full, failedLanes := [], authFails := 0 })
  else .next (s.setPort port { p with retraining := false })

/-- One direction of a port. -/
def Port.dir (p : Port) (ingress : Bool) : Direction := if ingress then p.ingress else p.egress
def Port.setDir (p : Port) (ingress : Bool) (d : Direction) : Port := if ingress then { p with ingress := d } else { p with egress := d }

/-- KEY_COUNTER_WARNING: the counter stands at 2^47 (R409). -/
def execKeyCounterWarning (port : Nat) (ingress : Bool) (s : State) : Out :=
  .next (if ((s.port port).dir ingress).counter.toNat = 2 ^ 47 then interruptHk s else s)

/-- KEY_EXHAUSTED: the next data counter would be 2^48 - 1 and no new key is installed (R409). -/
def execKeyExhausted (port : Nat) (ingress : Bool) (s : State) : Out :=
  let d := (s.port port).dir ingress
  if d.counter.toNat ≠ 2 ^ 48 - 1 || d.newKey || d.exhausted then .next s
  else .next (pfRecord (interruptHk (s.setPort port ((s.port port).setDir ingress { d with exhausted := true }))) 1
    (recordOf [BitVec.ofNat 64 port, bw ingress 0, BitVec.ofNat 64 s.time]))

/-- A management flit passes in a direction (R409). -/
def Direction.countMgmt (d : Direction) : Direction := { d with mgmt := satInc d.mgmt }

/-- KEY_SWITCH_FLIT: an installed new key takes effect with its counter at 0; the flit that says so is of kind 15 (R409). -/
def execKeySwitchFlit (port : Nat) (ingress : Bool) (s : State) : Out :=
  let d := (s.port port).dir ingress
  if d.newKey then .next (s.setPort port ((s.port port).setDir ingress { d.countMgmt with counter := 0, newKey := false, exhausted := false, keyGen := d.keyGen + 1 }))
  else .next s

/-- A chain request from its 128 bytes (R190). -/
def packetOf (ws : List Word) : Packet :=
  let w := ws.getD 0 0
  let r := ws.getD 1 0
  let bs := ws.flatMap fun w => leBytes 8 w.toNat
  { part := Fin.ofNat 16 (fld w 59 56), rgen := w.extractLsb' 48 8, oc := Fin.ofNat 16 (fld w 47 44), urg := w.extractLsb' 41 3
    priv := Fin.ofNat 3 (fld w 40 39), k := fld w 38 36, n := fld w 35 33 + 1, lc := Fin.ofNat 5 (fld w 32 30), h := fld w 29 27 + 1
    hops := fld w 26 23, asid := w.extractLsb' 11 12, rpkg := fld r 63 50, rdie := fld r 49 48, rcore := fld r 49 48 * 96 + fld r 47 41
    rslot := fld r 40 39, uid := 0, tag := Fin.ofNat 16 (fld r 38 35), seq := r.extractLsb' 19 16, p := ws.getD 2 0
    steps := (List.range (fld w 35 33 + 1)).map fun i =>
      (leWord ((bs.drop (24 + 12 * i)).take 8), BitVec.ofNat 32 (leNat ((bs.drop (32 + 12 * i)).take 4))) }

/-- A chain result from its 128 bytes (R191); the slot it is for is found as it is accepted (R194). -/
def resultOf (ws : List Word) : DuctResult :=
  let w := ws.getD 0 0
  let r := ws.getD 1 0
  let core := fld r 49 48 * 96 + fld r 47 41
  let tag : Fin 16 := Fin.ofNat 16 (fld r 38 35)
  { part := Fin.ofNat 16 (fld w 59 56), rgen := w.extractLsb' 48 8, rpkg := fld r 63 50, rcore := core, rslot := fld r 40 39
    uid := 0, tag := tag, seq := r.extractLsb' 19 16, p := ws.getD 2 0, status := ws.getD 3 0
    data := ((ws.drop 4).take 8).flatMap fun w => leBytes 8 w.toNat }

/-- The die of the package whose step unit takes an arriving packet: the owner of its next address (R132). -/
def Packet.owner (p : Packet) : Nat := ((baseDisp p.p (p.steps.getD p.k (0, 0)).2).extractLsb' 48 16).toNat

/-- The header of a flit. -/
def flitHead (flit : List Byte) : Word := leWord (flit.take 8)
/-- Its payload, by the length in the header. -/
def flitBody (flit : List Byte) : List Byte := (flit.drop 16).take (fld (flitHead flit) 31 20)

/-- The agent that a request flit names: of the source package, in the flit's partition, under the address space of its payload (R174, R404, R407). -/
def flitAgent (flit : List Byte) : Agent :=
  let b := flitBody flit
  { die := fld (flitHead flit) 45 32 * 4 + (Config.flitField 6 b).toNat % 4, part := Fin.ofNat 16 (fld (flitHead flit) 7 4)
    asid := (Config.flitField 1 b).setWidth 12, home := true }

/-- The response to a request goes back in a flit of kind 2 (R407). -/
def flitAnswer (s : State) (flit : List Byte) (code : Nat) (data : List Byte) : State :=
  let src := fld (flitHead flit) 45 32
  s.queueFlit src (flitOf s 2 (Fin.ofNat 16 (fld (flitHead flit) 7 4)) ((flitHead flit).extractLsb' 8 8) ((flitHead flit).extractLsb' 16 3) src
    (Config.flitReply (flitBody flit) code data))

/-- A remote access is refused with its cause; none where it waits for a page, a budget or the blotter (R173, R174). -/
def flitFail (s : State) (flit : List Byte) (e : MemErr) (va : Word) : Option State :=
  match e.cause false false with
  | some (code, _) => some (flitAnswer (countError s (flitAgent flit) e va) flit code [])
  | none => none

/-- Perform a request of kind 1, 3 or 4 at its owner under the memory model (R407); none where it waits. Fields of the payload by number: 0 address,
1 address space, 2 bytes, 3 operation (8 for CAS) and type, 4 operand, 5 expected value, 6 requester die (log 62). -/
def flitPerform (s : State) (flit : List Byte) : Option State :=
  let b := flitBody flit
  let va := Config.flitField 0 b
  let ag := flitAgent flit
  let n := (Config.flitField 2 b).toNat % 129
  match fld (flitHead flit) 3 0 with
  | 1 =>
    match s.readVa ag .rd va n with
    | .error (e, a) => flitFail s flit e a
    | .ok (xs, bs) => some (flitAnswer (noteRead s ag.die xs) flit 0 bs)
  | 3 =>
    let bs := Config.flitData b
    match s.writeVa ag va (bs.take 128).length with
    | .error (e, a) => flitFail s flit e a
    | .ok xs => some (s.perform (xs.zip (bs.take 128)))
  | 4 =>
    let t : ETy := if (Config.flitField 3 b).getLsbD 8 then .n64 else .n32
    match (if aligned va (tySize t) then s.readVa ag .rmw va (tySize t) else .error (.accessFault 0, va)) with
    | .error (e, a) => flitFail s flit e a
    | .ok (xs, bs) =>
      if xs.any fun x => match s.writeKeys x.key x.enc with | .error _ => true | .ok _ => false then flitFail s flit (.accessFault 0) va else
      let old := leNat bs
      let arg := lowBits t (Config.flitField 4 b)
      let new := match (Config.flitField 3 b).toNat % 16 with
        | 0 => some (atomNew .add t old arg) | 1 => some (atomNew .min t old arg) | 2 => some (atomNew .max t old arg)
        | 3 => some (atomNew .and t old arg) | 4 => some (atomNew .or t old arg) | 5 => some (atomNew .xor t old arg)
        | 6 => some (atomNew .swap t old arg) | 7 => some (atomNew .fadd t old arg)
        | _ => if old = lowBits t (Config.flitField 5 b) then some arg else none
      some (flitAnswer (match new with | some v => s.perform (xs.zip (leBytes (tySize t) v)) | none => s) flit 0 bs)
  | _ => some s

/-- A barrier flit: the counts of another package's record, or the generation of a root (R244, R407, log 62). -/
def flitBarrier (s : State) (flit : List Byte) : State :=
  let b := flitBody flit
  let f := fun i => (Config.flitField i b).toNat
  let n := f 0 % 4096
  if (s.group n).elsewhere then rootGeneration s n (fld (flitHead flit) 45 32) (BitVec.ofNat 32 (f 1))
  else remoteGroup s n (fld (flitHead flit) 45 32) (f 1 % 2 ^ 24) (f 2 % 2 ^ 24) (f 3 % 2 ^ 24)

/-- Hand an authenticated flit on by its kind (R407): one of an older generation is dropped (R410), one for another package goes on to it, a chain packet goes
to the step unit of the die its next address names and a result to its requester; a request is performed in its turn, a barrier flit tells the group; link
management and reserved kinds go no further, nor does a response, whose access this package's agents do not wait for (log 62). -/
def handOn (s : State) (port : Nat) (flit : List Byte) : State :=
  let h := flitHead flit
  let ws := wordsOf ((flit.drop 16).take 128)
  if fld h 3 0 = 15 || staleFlit s flit then s
  else if fld h 3 0 ≤ 7 && fld h 59 46 ≠ s.package then s.queueFlit (fld h 59 46) (flit.take 240)
  else match fld h 3 0 with
  | 5 =>
    let p := packetOf ws
    s.modDie (if p.owner / 4 = s.package then p.owner else s.pkgOwner) fun d => { d with packets := d.packets ++ [p] }
  | 6 => { s with results := s.results ++ [resultOf ws] }
  | 1 | 3 | 4 => s.setPort port { s.port port with handed := (s.port port).handed ++ [flit] }
  | 7 => flitBarrier s flit
  | _ => s

/-- The first request a port has handed on that can go on performs, those of an older generation are dropped (R404, R407, R410). -/
def serveHanded (port : Nat) (s : State) : State :=
  let fs := (s.port port).handed.filter fun f => !staleFlit s f
  let s := if fs = (s.port port).handed then s else s.setPort port { s.port port with handed := fs }
  match fs.zipIdx.findSome? fun f => (flitPerform s f.1).map fun t => (t, f.2) with
  | some (t, i) => t.setPort port { t.port port with handed := fs.eraseIdx i }
  | none => s

/-- The flit that leaves a port next: descending URG, and arrival order within one (R407). -/
def Port.nextFlit (p : Port) : Option Nat :=
  ((p.out.zipIdx.insertionSort fun a b => fld (leWord (b.1.take 8)) 18 16 ≤ fld (leWord (a.1.take 8)) 18 16).head?).map (·.2)

/-- A flit leaves a port, where its lanes carry data and its key has a counter value left; the replay buffer keeps it (R408, R409). -/
def sendFlit (port : Nat) (s : State) : State :=
  let p := s.port port
  match p.nextFlit with
  | none => s
  | some i =>
    let f := p.out.getD i []
    if p.lanes = .down || p.retraining then s
    else if fld (flitHead f) 3 0 = 15 then s.setPort port { p with egress := p.egress.countMgmt, out := p.out.eraseIdx i, replay := p.replay ++ [f] }
    else if !p.egress.open_ then s
    else s.setPort port { p with egress := p.egress.count, out := p.out.eraseIdx i, replay := p.replay ++ [f] }
/-- The oldest flit that the replay buffer keeps has arrived. -/
def flitAck (port : Nat) (s : State) : State := s.setPort port { s.port port with replay := (s.port port).replay.drop 1 }
/-- The other end has discarded it: it is sent again (R409). -/
def flitRefused (port : Nat) (s : State) : State :=
  let p := s.port port
  s.setPort port { p with out := p.replay.take 1 ++ p.out, replay := p.replay.drop 1 }

/-- FLIT_RECEIVE: a data flit under a key whose values are used up is not taken, a flit that fails authentication is discarded, and the sixteenth in a row takes the port down (R407-R409). -/
def execFlitReceive (port : Nat) (authentic : Bool) (flit : List Byte) (s : State) : Out :=
  let p := s.port port
  if port ≥ portCount || p.lanes = .down || p.retraining then .next s
  else if !authentic then
    let q := { p with authFails := p.authFails + 1 }
    if q.authFails ≥ 16 then .next (portChange s port { q with lanes := .down }) else .next (s.setPort port q)
  else
    let data := fld (flitHead flit) 3 0 ≠ 15
    if data && !p.ingress.open_ then .next s
    else
      let q := { p with authFails := 0, ingress := if data then p.ingress.count else p.ingress.countMgmt }
      .next (handOn (s.setPort port q) port flit)

/-! ## The root of trust (R419, R420) -/

/-- Body of a capability (R396): slot count with slot size, entry count, record size, report entry size; the places are the model's (log 75). -/
def capabilityBody (id : Nat) : Word :=
  match id with
  | 1 => BitVec.ofNat 64 (8 + 4096 * 2 ^ 32)
  | 2 => 64
  | 3 => 64
  | 4 => 16
  | _ => 0
/-- The capability list: header and body of each capability, in the spec's order (R396, log 75). -/
def capabilities (v : Vi) : List Word :=
  let n := if v.tdisp then 5 else 4
  (List.range n).flatMap fun i =>
    [BitVec.ofNat 64 ((if i + 1 = n then 0 else 16 * (i + 1)) * 2 ^ 32 + 1 * 2 ^ 24 + 1 * 2 ^ 16 + (i + 1)), capabilityBody (i + 1)]

/-- The measurement blocks 1 to 5 (R420). -/
def measurements (s : State) (vi : Option Nat) : List Byte :=
  leBytes 64 (Config.imageDigest 1).toNat ++ leBytes 64 (if s.hypLoaded then (Config.imageDigest 2).toNat else 0)
    ++ ([1, 2, 3] : List Nat).flatMap (fun k => leBytes 4 (SMap.get 0 s.minSvn k).toNat)
    ++ leBytes 64 (Config.repairDigest (s.repairStore.flatMap (·.2))).toNat
    ++ (match vi with
        | some n => bytesOf (capabilities (s.vi n)) ++ leBytes 4 (s.vi n).pasid.toNat ++ leBytes 1 (s.vi n).part.val
            ++ (s.keys.filter fun k => k.2.prot).flatMap fun k => leBytes 2 k.1
        | none => [])

/-- SPDM_REQUEST through the mailbox of a PF, or of a TDISP-assigned VI (R420). -/
def execSpdmRequest (port : Nat) (vi : Option Nat) (code : Nat) (nonce : List Byte) (s : State) : Out :=
  let ok := match vi with
    | some n => (s.vi n).tdisp && n / 256 == port
    | none => true
  .next (if port < 2 && ok then { s with spdmOut := s.spdmOut ++ [(port, Config.spdmReply code nonce (measurements s vi))] } else s)

/-- MINIMUM_SVN_RAISE: the fused minimum of a kind rises to the running image's, and never falls (R419). -/
def execMinimumSvnRaise (kind : Fin 4) (s : State) : Out :=
  if kind = 0 then .next s
  else
    let old := SMap.get 0 s.minSvn kind.val
    let new := Config.runningSvn (BitVec.ofNat 8 kind.val)
    .next { s with minSvn := SMap.set s.minSvn kind.val (if old.toNat < new.toNat then new else old) }

/-! ## Heat and power (R423) -/

/-- Change the throttle level of a region. -/
def Die.throttleBy (d : Die) (region : Nat) (f : Nat → Nat) : Die :=
  if h : region < 6 then { d with throttle := d.throttle.set region (Fin.ofNat 8 (f d.throttle[region].val)) } else d
/-- Min(7, h + 1) and Max(0, h - 1). -/
def stepUp (h : Nat) : Nat := Nat.min 7 (h + 1)
def stepDown (h : Nat) : Nat := h - 1

def execThermalStepUp (die region : Nat) (s : State) : Out :=
  .next (if die < 4 ∧ region < 6 then s.modDie (s.package * 4 + die) (·.throttleBy region stepUp) else s)

/-- THERMAL_STEP_DOWN: a region that has cooled is no longer at TTRIP either (R423). -/
def execThermalStepDown (die region : Nat) (s : State) : Out :=
  if die < 4 ∧ region < 6 then
    let left := s.ttripIn.filter (· ≠ (die, region))
    .next { s.modDie (s.package * 4 + die) (·.throttleBy region stepDown) with
            ttripIn := left, ttripHold := !left.isEmpty, ttripAt := if left.isEmpty then none else s.ttripAt }
  else .next s

/-- POWER_LIMIT_EXCEEDED: every region of the package (R423). -/
def execPowerLimitExceeded (s : State) : Out :=
  .next ((List.range 4).foldl (fun s die => s.modDie (s.package * 4 + die) fun d => (List.range 6).foldl (fun d r => d.throttleBy r stepUp) d) s)

/-- TTRIP_REACHED: every engine of the package is held, the housekeeping core is interrupted (R423). -/
def execTtripReached (die region : Nat) (s : State) : Out :=
  if die < 4 ∧ region < 6 then
    .next { interruptHk s with ttripHold := true, ttripAt := some (s.ttripAt.getD s.time)
                               ttripIn := if s.ttripIn.contains (die, region) then s.ttripIn else s.ttripIn ++ [(die, region)] }
  else .next s

/-- THERMAL_TRIP: after 10 ms at TTRIP core power is removed; the next start is a power-on reset (R423). -/
def execThermalTrip (s : State) : Out :=
  .next (match s.ttripAt with
    | some t => if t + 16000000 ≤ s.time then { s with poweredOff := true } else s
    | none => s)

/-! ## Timed waits (R147, R148) -/

/-- WFE_TIMEOUT: the wait ends and writes 0 (R148). -/
def execWfeTimeout (r : StrandRef) (s : State) : Out :=
  .next (match (s.strandAt r).wait with
    | some (.event d t) => if dueAt s.time t then s.modStrandAt r fun k => (k.setS d 0).finishWait else s
    | _ => s)

/-- BLWAIT_TIMEOUT: the wait ends with cr.blot.progress (R147). -/
def execBlwaitTimeout (r : StrandRef) (s : State) : Out :=
  .next (match (s.strandAt r).wait with
    | some (.blot d _ t) => if dueAt s.time t then s.modStrandAt r fun k => (k.setS d (s.die (s.dieOf r.core)).progress).finishWait else s
    | _ => s)

/-! ## Inputs without a row of their own -/

/-- Go on with the next state of a meaning. -/
def andThen (o : Out) (s : State) : State := match o with | .next t => t | _ => s

/-- Bytes of a launch window's slot with one word written. -/
def slotWrite (bs : List Byte) (off : Nat) (v : Word) : List Byte :=
  (bs ++ List.replicate (4088 - bs.length) 0).zipIdx.map fun (b : Byte × Nat) => if off ≤ b.2 ∧ b.2 < off + 8 then BitVec.ofNat 8 (v.toNat >>> (8 * (b.2 - off))) else b.1

/-- A host's 8-byte write into a slot of a launch window: bytes 0 to 7 submit the record (R397). -/
def windowWrite (s : State) (n : Nat) (off : Nat) (v : Word) : State :=
  let i := s.vi n
  let k : Fin 8 := Fin.ofNat 8 ((off - 0x1000) / 4096)
  let bs := slotWrite i.window[k].bytes (off % 4096) v
  if off % 4096 = 0 then andThen (execLaunchWindowSubmit n k.val bs s) s
  else if i.window[k].pend || off % 4096 ≥ 4088 then s
  else s.setViAt n { i with window := i.window.set k { i.window[k] with bytes := bs } }

/-- A host's write into a VI's BAR (R395, R397-R399, R401); a VI with EN = 0 drops launch headers and ADDs, with their count. -/
def barWrite (s : State) (n off : Nat) (v : Word) : State :=
  let i := s.vi n
  if n ≥ viCount then s
  else if 0x1000 ≤ off ∧ off < 0x9000 then windowWrite s n off v
  else if 0x9000 ≤ off ∧ off < 0x9800 then
    let e := (off - 0x9000) / 32
    if off % 32 = 0 then s.setViAt n { i with bind := SMap.put 0 i.bind e v }
    else if off % 32 = 8 then andThen (execHostSemaphoreAdd n e (v.extractLsb' 0 32) s) s
    else s
  else if 0xA000 ≤ off ∧ off < 0xA400 then s.setViAt n { i with msixTable := SMap.put 0 i.msixTable ((off - 0xA000) / 8) v }
  else if off = 0xB000 then s.setViAt n { i with evq := { i.evq with base := v } }
  else if off = 0xB008 then s.setViAt n { i with evq := { i.evq with head := v.extractLsb' 0 24 } }
  else s

/-- TDISP assigns a VI, where its port's IDE state is secure, or takes the assignment back (R394). -/
def setTdisp (s : State) (n : Nat) (on : Bool) : State :=
  if n ≥ viCount || (on && !s.ide[(Fin.ofNat 2 (n / 256) : Fin 2)]) then s else s.setViAt n { s.vi n with tdisp := on }
/-- The IDE state of a PCIe port changes; a port that is not secure carries no TDISP-assigned VI (R394). -/
def setIde (s : State) (port : Fin 2) (secure : Bool) : State :=
  { s with ide := s.ide.set port secure
           vis := if secure then s.vis else s.vis.map fun e => if e.1 / 256 = port.val then (e.1, { e.2 with tdisp := false }) else e }

/-- Bytes 0xFF8 to 0xFFF of a launch window's slot (R397). -/
def WinSlot.word (w : WinSlot) : Word := bw w.valid 63 ||| bw w.pend 62 ||| w.status.setWidth 64 <<< 32 ||| w.id.setWidth 64

/-- VALUE of a host semaphore entry: zero wherever an ADD would be dropped (R398). -/
def semValue (s : State) (n e : Nat) : Word :=
  let v := s.vi n
  let b := SMap.get 0 v.bind e
  if !v.takes then 0
  else match (boundUnit s v b).bind s.findCtx with
  | some x => (x.getSem (fld b 55 48)).setWidth 64
  | none => 0

/-- A host's read of a VI's BAR; unnamed offsets read zero, and with EN = 0 all but the capability list (R395-R399, R401). -/
def barRead (s : State) (n off : Nat) : Word :=
  let i := s.vi n
  if off < 0x1000 then (capabilities i)[off / 8]?.getD 0
  else if !i.en then 0
  else if off < 0x9000 then
    let w := i.window[(Fin.ofNat 8 ((off - 0x1000) / 4096) : Fin 8)]
    if off % 4096 = 4088 then w.word else leWord ((w.bytes.drop (off % 4096)).take 8)
  else if off < 0x9800 then
    match off % 32 with
    | 0 => SMap.get 0 i.bind ((off - 0x9000) / 32)
    | 16 => semValue s n ((off - 0x9000) / 32)
    | _ => 0
  else if off = 0x9800 then i.stopGen.setWidth 64 <<< 32 ||| bw i.stopped 1 ||| bw i.en 0
  else if 0xA000 ≤ off ∧ off < 0xA400 then SMap.get 0 i.msixTable ((off - 0xA000) / 8)
  else if off = 0xA400 then Config.msixPending s.tick n
  else if off = 0xB000 then i.evq.base
  else if off = 0xB008 then i.evq.head.setWidth 64
  else if off = 0xB010 then i.evq.tail.setWidth 64
  else 0

/-- The host hypervisor's write into a PF's BAR0 (R400, R401, R406). -/
def pfWrite (s : State) (port off : Nat) (v : Word) : State :=
  if 0x100000 ≤ off ∧ off < 0x110000 then
    let n := 256 * port + (off - 0x100000) / 256
    let i := s.vi n
    match off % 256 with
    | 0x00 => andThen (execViEnableWrite n v s) s
    | 0x08 => s.setViAt n { i with qosrd := v.extractLsb' 0 32 }
    | 0x10 => s.setViAt n { i with qoswr := v.extractLsb' 0 32 }
    | 0x18 => s.setViAt n { i with qosxl := v.extractLsb' 0 16 }
    | 0x20 => s.setViAt n { i with drb := v }
    | 0x28 => s.setViAt n { i with drop := if v = 0 then i.drop else 0 }
    | _ => s
  else if 0x200000 ≤ off ∧ off < 0x201000 then
    let q := (off - 0x200000) / 256
    match off % 256 with
    | 0x00 => andThen (execPartitionQuadsWrite q false v s) s
    | 0x08 => andThen (execPartitionQuadsWrite q true v s) s
    | 0x10 => andThen (execPartitionWaysWrite q v s) s
    | 0x38 => if v.getLsbD 0 then andThen (execPartitionResetStart q s) s else s
    | 0x40 => andThen (if v.getLsbD 16 then execBgrpAlloc q (v.extractLsb' 0 12) s else execBgrpRelease q (v.extractLsb' 0 12) s) s
    | _ => s
  else if off = 0x1F0000 then andThen (execJobrel (v.extractLsb' 0 16) s) s
  else if h : port < 2 then
    let q := s.pfq[port]
    if off = 0x0FF000 then { s with pfq := s.pfq.set port { q with base := v } }
    else if off = 0x0FF008 then { s with pfq := s.pfq.set port { q with head := v.extractLsb' 0 24 } }
    else s
  else s

/-- VCTL as it reads (R401). -/
def Vi.vctl (v : Vi) : Word :=
  bw v.en 63 ||| bw v.stop 62 ||| BitVec.ofNat 64 (v.part.val * 2 ^ 48) ||| v.job.setWidth 64 <<< 32 ||| v.asid.setWidth 64 <<< 20 ||| v.pasid.setWidth 64

/-- A read of a PF's BAR0: the VI blocks, the partition blocks, the PF's event queue (R400, R401, R406); other offsets read zero (log 75). -/
def pfRead (s : State) (port off : Nat) : Word :=
  if 0x100000 ≤ off ∧ off < 0x110000 then
    let i := s.vi (256 * port + (off - 0x100000) / 256)
    match off % 256 with
    | 0x00 => i.vctl
    | 0x08 => i.qosrd.setWidth 64
    | 0x10 => i.qoswr.setWidth 64
    | 0x18 => i.qosxl.setWidth 64
    | 0x20 => i.drb
    | 0x28 => i.drop.setWidth 64
    | _ => 0
  else if 0x200000 ≤ off ∧ off < 0x201000 then
    let q := (off - 0x200000) / 256
    let p := s.part q
    match off % 256 with
    | 0x00 => p.quads.extractLsb' 0 64
    | 0x08 => (p.quads.extractLsb' 64 32).setWidth 64
    | 0x10 => p.ways
    | 0x18 => BitVec.ofNat 64 ((s.die (s.package * 4 + 0)).charged (Fin.ofNat 16 q))
    | 0x20 => BitVec.ofNat 64 ((s.die (s.package * 4 + 1)).charged (Fin.ofNat 16 q))
    | 0x28 => BitVec.ofNat 64 ((s.die (s.package * 4 + 2)).charged (Fin.ofNat 16 q))
    | 0x30 => BitVec.ofNat 64 ((s.die (s.package * 4 + 3)).charged (Fin.ofNat 16 q))
    | 0x38 => bw p.busy 0 ||| bw p.busy 1 ||| p.gen.setWidth 64 <<< 8
    | 0x40 => p.bgrp.setWidth 64 ||| bw ((s.group p.bgrp.toNat).owner == some (Fin.ofNat 16 q)) 17 ||| bw p.taken 18 ||| bw p.nonempty 19
    | 0x48 => bw p.err 0
    | _ => 0
  else if h : port < 2 then
    let q := s.pfq[port]
    if off = 0x0FF000 then q.base
    else if off = 0x0FF008 then q.head.setWidth 64
    else if off = 0x0FF010 then q.lost.setWidth 64 <<< 48 ||| q.tail.setWidth 64
    else 0
  else 0

/-- A host takes the word it read. -/
def hostRead (s : State) (v : Word) : State := { s with hostReads := s.hostReads ++ [v] }

/-- An error strikes storage: corrected ones are counted, uncorrectable ones poison the sector or line (R411-R413); in a dirty L2 line, whose HBM copy
is old, the poison stays as in HBM. -/
def memError (s : State) (key : Nat) (l2 uncorrectable integrity : Bool) : State :=
  let add := fun (l : List Nat) (n : Nat) => if l.contains n then l else l ++ [n]
  if integrity then { s with sectors := SMap.put {} s.sectors (key / 64) { s.sector key with badTag := true } }
  else s.modDie (keyDie key) fun d =>
    match l2, uncorrectable with
    | false, false => { d with ceHbm := satInc d.ceHbm, corrected := add d.corrected (key / 64) }
    | false, true => { d with hbmPoison := add d.hbmPoison (key / 64) }
    | true, false => { d with ceL2 := satInc d.ceL2 }
    | true, true =>
      if (SMap.get [] d.l2 (l2Set key)).any fun l => l.line = key / 128 && l.dirty then { d with hbmPoison := add d.hbmPoison (key / 64) }
      else { d with l2Poison := add d.l2Poison (key / 128) }

end Sys2Proof.Machine
end

