-- ==== Sys2Proof/Machine/Dispatch.lean ====
section
/-! DEFINITION. One arm per constructor of `Instr`, each a direct call of its meaning. -/

namespace Sys2Proof.Machine

def exec (i : Instr) (s : State) : Host.Outcome State Fault Refusal :=
  match i with
  | .nop => Sys2Proof.Machine.execNop s
  | .add d a b w sat => Sys2Proof.Machine.execAdd d a b w sat s
  | .sub d a b w sat => Sys2Proof.Machine.execSub d a b w sat s
  | .addi d a imm w sat => Sys2Proof.Machine.execAddi d a imm w sat s
  | .min d a b w u => Sys2Proof.Machine.execMin d a b w u s
  | .max d a b w u => Sys2Proof.Machine.execMax d a b w u s
  | .abs d a w sat => Sys2Proof.Machine.execAbs d a w sat s
  | .and d a b => Sys2Proof.Machine.execAnd d a b s
  | .or d a b => Sys2Proof.Machine.execOr d a b s
  | .xor d a b => Sys2Proof.Machine.execXor d a b s
  | .andi d a imm => Sys2Proof.Machine.execAndi d a imm s
  | .ori d a imm => Sys2Proof.Machine.execOri d a imm s
  | .xori d a imm => Sys2Proof.Machine.execXori d a imm s
  | .shl d a b w => Sys2Proof.Machine.execShl d a b w s
  | .shr d a b w => Sys2Proof.Machine.execShr d a b w s
  | .sar d a b w => Sys2Proof.Machine.execSar d a b w s
  | .shli d a count w => Sys2Proof.Machine.execShli d a count w s
  | .shri d a count w => Sys2Proof.Machine.execShri d a count w s
  | .sari d a count w => Sys2Proof.Machine.execSari d a count w s
  | .mul d a b w => Sys2Proof.Machine.execMul d a b w s
  | .mulh d a b w => Sys2Proof.Machine.execMulh d a b w s
  | .mulhu d a b w => Sys2Proof.Machine.execMulhu d a b w s
  | .div d a b w => Sys2Proof.Machine.execDiv d a b w s
  | .divu d a b w => Sys2Proof.Machine.execDivu d a b w s
  | .rem d a b w => Sys2Proof.Machine.execRem d a b w s
  | .remu d a b w => Sys2Proof.Machine.execRemu d a b w s
  | .bext d a pos width sx => Sys2Proof.Machine.execBext d a pos width sx s
  | .bins d a pos width => Sys2Proof.Machine.execBins d a pos width s
  | .clz d a w => Sys2Proof.Machine.execClz d a w s
  | .ctz d a w => Sys2Proof.Machine.execCtz d a w s
  | .popc d a w => Sys2Proof.Machine.execPopc d a w s
  | .brev d a w => Sys2Proof.Machine.execBrev d a w s
  | .cmp p a b c => Sys2Proof.Machine.execCmp p a b c s
  | .cmpi p a imm c => Sys2Proof.Machine.execCmpi p a imm c s
  | .cmpW p a b c => Sys2Proof.Machine.execCmpW p a b c s
  | .cmpiW p a imm c => Sys2Proof.Machine.execCmpiW p a imm c s
  | .pand d a b ia ib => Sys2Proof.Machine.execPand d a b ia ib s
  | .por d a b ia ib => Sys2Proof.Machine.execPor d a b ia ib s
  | .pxor d a b ia ib => Sys2Proof.Machine.execPxor d a b ia ib s
  | .pget d => Sys2Proof.Machine.execPget d s
  | .pput a mask => Sys2Proof.Machine.execPput a mask s
  | .sel d p inv a b => Sys2Proof.Machine.execSel d p inv a b s
  | .mova d a => Sys2Proof.Machine.execMova d a s
  | .movs d a => Sys2Proof.Machine.execMovs d a s
  | .li d imm => Sys2Proof.Machine.execLi d imm s
  | .lia d imm => Sys2Proof.Machine.execLia d imm s
  | .lit d l => Sys2Proof.Machine.execLit d l s
  | .lita d l => Sys2Proof.Machine.execLita d l s
  | .adr d disp => Sys2Proof.Machine.execAdr d disp s
  | .aadd d a b => Sys2Proof.Machine.execAadd d a b s
  | .aaddi d a imm => Sys2Proof.Machine.execAaddi d a imm s
  | .asub d a b => Sys2Proof.Machine.execAsub d a b s
  | .aidx d a b sh => Sys2Proof.Machine.execAidx d a b sh s
  | .awrap d a stp k => Sys2Proof.Machine.execAwrap d a stp k s
  | .abnd d a b stp len => Sys2Proof.Machine.execAbnd d a b stp len s
  | .aalign d a k up => Sys2Proof.Machine.execAalign d a k up s
  | .acmp p a b c => Sys2Proof.Machine.execAcmp p a b c s
  | .br disp => Sys2Proof.Machine.execBr disp s
  | .brr a => Sys2Proof.Machine.execBrr a s
  | .call d disp => Sys2Proof.Machine.execCall d disp s
  | .callr d a => Sys2Proof.Machine.execCallr d a s
  | .ret a => Sys2Proof.Machine.execRet a s
  | .loop d a last => Sys2Proof.Machine.execLoop d a last s
  | .loopi d last count => Sys2Proof.Machine.execLoopi d last count s
  | .lcget d a => Sys2Proof.Machine.execLcget d a s
  | .lcset d a => Sys2Proof.Machine.execLcset d a s
  | .lbreak a => Sys2Proof.Machine.execLbreak a s
  | .fld d a disp oc size sx => Sys2Proof.Machine.execFld d a disp oc size sx s
  | .fst a b disp oc size => Sys2Proof.Machine.execFst a b disp oc size s
  | .fldx d a b disp oc size sx => Sys2Proof.Machine.execFldx d a b disp oc size sx s
  | .fstx d a b disp oc size => Sys2Proof.Machine.execFstx d a b disp oc size s
  | .crr d num => Sys2Proof.Machine.execCrr d num s
  | .crw a num => Sys2Proof.Machine.execCrw a num s
  | .crs d a num => Sys2Proof.Machine.execCrs d a num s
  | .crc d a num => Sys2Proof.Machine.execCrc d a num s
  | .stop => Sys2Proof.Machine.execStop s
  | .yield => Sys2Proof.Machine.execYield s
  | .sbar mask => Sys2Proof.Machine.execSbar mask s
  | .folioDiagWrite a => Sys2Proof.Machine.execFolioDiagWrite a s
  | .repairPut a => Sys2Proof.Machine.execRepairPut a s
  | .repairTableClear a => Sys2Proof.Machine.execRepairTableClear a s
  | .summaryClear a => Sys2Proof.Machine.execSummaryClear a s
  | .folioInjectWrite a => Sys2Proof.Machine.execFolioInjectWrite a s
  | .hintModeWrite a => Sys2Proof.Machine.execHintModeWrite a s
  | .ld d ty m => Sys2Proof.Machine.execLd d ty m s
  | .st b ty m => Sys2Proof.Machine.execSt b ty m s
  | .vld d ty sz m => Sys2Proof.Machine.execVld d ty sz m s
  | .vst b ty sz m => Sys2Proof.Machine.execVst b ty sz m s
  | .vlds d b ty m => Sys2Proof.Machine.execVlds d b ty m s
  | .vsts b c ty m => Sys2Proof.Machine.execVsts b c ty m s
  | .vgath d b ty scl m => Sys2Proof.Machine.execVgath d b ty scl m s
  | .vscat b c ty scl m => Sys2Proof.Machine.execVscat b c ty scl m s
  | .tldv d sz m mask => Sys2Proof.Machine.execTldv d sz m mask s
  | .tsta b sz m mask => Sys2Proof.Machine.execTsta b sz m mask s
  | .pref kind a disp => Sys2Proof.Machine.execPref kind a disp s
  | .cmoWb a disp oc => Sys2Proof.Machine.execCmoWb a disp oc s
  | .cmoWbinv a disp oc => Sys2Proof.Machine.execCmoWbinv a disp oc s
  | .cmoZero a disp oc => Sys2Proof.Machine.execCmoZero a disp oc s
  | .fence scope fl mask => Sys2Proof.Machine.execFence scope fl mask s
  | .atom op d b ty m => Sys2Proof.Machine.execAtom op d b ty m s
  | .atomn op b ty m => Sys2Proof.Machine.execAtomn op b ty m s
  | .cas d b c ty m => Sys2Proof.Machine.execCas d b c ty m s
  | .duct tag a b n1 h1 lc oc => Sys2Proof.Machine.execDuct tag a b n1 h1 lc oc s
  | .dcol dst tag => Sys2Proof.Machine.execDcol dst tag s
  | .trap code => Sys2Proof.Machine.execTrap code s
  | .tret => Sys2Proof.Machine.execTret s
  | .bkr d f => Sys2Proof.Machine.execBkr d f s
  | .bkw a f => Sys2Proof.Machine.execBkw a f s
  | .pgsvcTouch d a => Sys2Proof.Machine.execPgsvcTouch d a s
  | .pgsvcAlloc d a => Sys2Proof.Machine.execPgsvcAlloc d a s
  | .pgsvcPin d a => Sys2Proof.Machine.execPgsvcPin d a s
  | .pgsvcUnpin d a => Sys2Proof.Machine.execPgsvcUnpin d a s
  | .pgsvcQuery d a => Sys2Proof.Machine.execPgsvcQuery d a s
  | .hset d a b rights idx => Sys2Proof.Machine.execHset d a b rights idx s
  | .hfree a => Sys2Proof.Machine.execHfree a s
  | .hqry d a => Sys2Proof.Machine.execHqry d a s
  | .tkset a => Sys2Proof.Machine.execTkset a s
  | .curset a b => Sys2Proof.Machine.execCurset a b s
  | .rseed a => Sys2Proof.Machine.execRseed a s
  | .kzero d a => Sys2Proof.Machine.execKzero d a s
  | .blot d a => Sys2Proof.Machine.execBlot d a s
  | .blwait d a b => Sys2Proof.Machine.execBlwait d a b s
  | .wfe d a => Sys2Proof.Machine.execWfe d a s
  | .ctxctlSoft d a => Sys2Proof.Machine.execCtxctlSoft d a s
  | .ctxctlHalt d a => Sys2Proof.Machine.execCtxctlHalt d a s
  | .ctxctlKill d a => Sys2Proof.Machine.execCtxctlKill d a s
  | .ctxctlResume d a => Sys2Proof.Machine.execCtxctlResume d a s
  | .ctxsv d a b oc => Sys2Proof.Machine.execCtxsv d a b oc s
  | .ctxld d a b oc => Sys2Proof.Machine.execCtxld d a b oc s
  | .xlateInval a => Sys2Proof.Machine.execXlateInval a s
  | .frameSelect a => Sys2Proof.Machine.execFrameSelect a s
  | .semsig d sem k => Sys2Proof.Machine.execSemsig d sem k s
  | .semwait sem k => Sys2Proof.Machine.execSemwait sem k s
  | .semtry p sem k => Sys2Proof.Machine.execSemtry p sem k s
  | .semset d b sem => Sys2Proof.Machine.execSemset d b sem s
  | .barr d a => Sys2Proof.Machine.execBarr d a s
  | .bwait d a => Sys2Proof.Machine.execBwait d a s
  | .btry d a => Sys2Proof.Machine.execBtry d a s
  | .bmembJoin d a scope => Sys2Proof.Machine.execBmembJoin d a scope s
  | .bmembLeave d a => Sys2Proof.Machine.execBmembLeave d a s
  | .waddr c wide d b e m => Sys2Proof.Machine.execWaddr c wide d b e m s
  | .wake wide d b m => Sys2Proof.Machine.execWake wide d b m s
  | .qbind d a b q depth1 => Sys2Proof.Machine.execQbind d a b q depth1 s
  | .qunbind d q => Sys2Proof.Machine.execQunbind d q s
  | .qdepth d q => Sys2Proof.Machine.execQdepth d q s
  | .tsem eng ch oc bar task => Sys2Proof.Machine.execTsem eng ch oc bar task s
  | .cpy c => Sys2Proof.Machine.execCpy c s
  | .cpyo c => Sys2Proof.Machine.execCpyo c s
  | .cwptrLand d ch => Sys2Proof.Machine.execCwptrLand d ch s
  | .cwptrIss d ch => Sys2Proof.Machine.execCwptrIss d ch s
  | .fwput a => Sys2Proof.Machine.execFwput a s
  | .bswapOpen d v n => Sys2Proof.Machine.execBswapOpen d v n s
  | .bswap d => Sys2Proof.Machine.execBswap d s
  | .bswapClose d => Sys2Proof.Machine.execBswapClose d s
  | .launch d a disp oc => Sys2Proof.Machine.execLaunch d a disp oc s
  | .graphOpen d a b => Sys2Proof.Machine.execGraphOpen d a b s
  | .graphClose d a => Sys2Proof.Machine.execGraphClose d a s
  | .wphaseOpen d a => Sys2Proof.Machine.execWphaseOpen d a s
  | .wphaseClose d a => Sys2Proof.Machine.execWphaseClose d a s
  | .cntr d a => Sys2Proof.Machine.execCntr d a s
  | .cancel d a => Sys2Proof.Machine.execCancel d a s
  | .vadd d a b ty sat m => Sys2Proof.Machine.execVadd d a b ty sat m s
  | .vsub d a b ty sat m => Sys2Proof.Machine.execVsub d a b ty sat m s
  | .vmul d a b ty m => Sys2Proof.Machine.execVmul d a b ty m s
  | .vmulh d a b ty m => Sys2Proof.Machine.execVmulh d a b ty m s
  | .vdiv d a b ty m => Sys2Proof.Machine.execVdiv d a b ty m s
  | .vmin d a b ty m => Sys2Proof.Machine.execVmin d a b ty m s
  | .vmax d a b ty m => Sys2Proof.Machine.execVmax d a b ty m s
  | .vabs d a ty sat m => Sys2Proof.Machine.execVabs d a ty sat m s
  | .vneg d a ty sat m => Sys2Proof.Machine.execVneg d a ty sat m s
  | .vfma form d a b c ty m => Sys2Proof.Machine.execVfma form d a b c ty m s
  | .vaddw d a b ty m => Sys2Proof.Machine.execVaddw d a b ty m s
  | .vmulw d a b ty m => Sys2Proof.Machine.execVmulw d a b ty m s
  | .vand d a b ty m => Sys2Proof.Machine.execVand d a b ty m s
  | .vor d a b ty m => Sys2Proof.Machine.execVor d a b ty m s
  | .vxor d a b ty m => Sys2Proof.Machine.execVxor d a b ty m s
  | .vshl d a n ty m => Sys2Proof.Machine.execVshl d a n ty m s
  | .vshr d a n ty m => Sys2Proof.Machine.execVshr d a n ty m s
  | .vsar d a n ty m => Sys2Proof.Machine.execVsar d a n ty m s
  | .vbit f d a ty m => Sys2Proof.Machine.execVbit f d a ty m s
  | .vcmp c d a b ty m => Sys2Proof.Machine.execVcmp c d a b ty m s
  | .vsel d a b ty m => Sys2Proof.Machine.execVsel d a b ty m s
  | .mand d a b ia ib => Sys2Proof.Machine.execMand d a b ia ib s
  | .mor d a b ia ib => Sys2Proof.Machine.execMor d a b ia ib s
  | .mxor d a b ia ib => Sys2Proof.Machine.execMxor d a b ia ib s
  | .mpop d a ty => Sys2Proof.Machine.execMpop d a ty s
  | .mfirst d a ty => Sys2Proof.Machine.execMfirst d a ty s
  | .mset d a => Sys2Proof.Machine.execMset d a s
  | .vcvt o => Sys2Proof.Machine.execVcvt o s
  | .vrsum d a ty m => Sys2Proof.Machine.execVrsum d a ty m s
  | .vrmax d a ty m => Sys2Proof.Machine.execVrmax d a ty m s
  | .vrmin d a ty m => Sys2Proof.Machine.execVrmin d a ty m s
  | .vsf f d a ty m => Sys2Proof.Machine.execVsf f d a ty m s
  | .vperm d a b ty m => Sys2Proof.Machine.execVperm d a b ty m s
  | .vslide d a b c ty m => Sys2Proof.Machine.execVslide d a b c ty m s
  | .vbcast d a ty m => Sys2Proof.Machine.execVbcast d a ty m s
  | .vins d b ty k => Sys2Proof.Machine.execVins d b ty k s
  | .vext d a ty k => Sys2Proof.Machine.execVext d a ty k s
  | .vzip d a b ty => Sys2Proof.Machine.execVzip d a b ty s
  | .vunzip d a ty odd => Sys2Proof.Machine.execVunzip d a ty odd s
  | .vrev d a ty m => Sys2Proof.Machine.execVrev d a ty m s
  | .vcmpr d a ty m => Sys2Proof.Machine.execVcmpr d a ty m s
  | .vmov d a sz => Sys2Proof.Machine.execVmov d a sz s
  | .chain c => Sys2Proof.Machine.execChain c s
  | .chpop d port => Sys2Proof.Machine.execChpop d port s
  | .lpack d a ty rev o => Sys2Proof.Machine.execLpack d a ty rev o s
  | .ladd d a b sub => Sys2Proof.Machine.execLadd d a b sub s
  | .lmul d a b signed sw => Sys2Proof.Machine.execLmul d a b signed sw s
  | .lext d a ty sat pair o => Sys2Proof.Machine.execLext d a ty sat pair o s
  | .lgw sw => Sys2Proof.Machine.execLgw sw s
  | .mma c => Sys2Proof.Machine.execMma c s
  | .qmma c tag => Sys2Proof.Machine.execQmma c tag s
  | .leafPin a => Sys2Proof.Machine.execLeafPin a s
  | .leafUnpin a => Sys2Proof.Machine.execLeafUnpin a s
  | .poolBlockSet a => Sys2Proof.Machine.execPoolBlockSet a s
  | .preCtlWrite a => Sys2Proof.Machine.execPreCtlWrite a s
  | .planeLoad a => Sys2Proof.Machine.execPlaneLoad a s
  | .viLogWrite a => Sys2Proof.Machine.execViLogWrite a s
  | .tduCtlWrite a => Sys2Proof.Machine.execTduCtlWrite a s
  | .currencyCreate a => Sys2Proof.Machine.execCurrencyCreate a s
  | .currencyRateWrite a => Sys2Proof.Machine.execCurrencyRateWrite a s
  | .currencyDelete a => Sys2Proof.Machine.execCurrencyDelete a s
  | .keyLoad a => Sys2Proof.Machine.execKeyLoad a s
  | .powerLimitWrite a => Sys2Proof.Machine.execPowerLimitWrite a s
  | .thermLimitWrite a => Sys2Proof.Machine.execThermLimitWrite a s
  | .tldvRetry r => Sys2Proof.Machine.execTldvRetry r s
  | .ductusStepServe owner => Sys2Proof.Machine.execDuctusStepServe owner s
  | .ductusResultAccept idx => Sys2Proof.Machine.execDuctusResultAccept idx s
  | .ductusLost c tag => Sys2Proof.Machine.execDuctusLost c tag s
  | .contextKill c cause => Sys2Proof.Machine.execContextKill c cause s
  | .classDDelivery c => Sys2Proof.Machine.execClassDDelivery c s
  | .phaseAbort c queue pos cause addr => Sys2Proof.Machine.execPhaseAbort c queue pos cause addr s
  | .traceMismatch r => Sys2Proof.Machine.execTraceMismatch r s
  | .pageMadeResident owner asid off => Sys2Proof.Machine.execPageMadeResident owner asid off s
  | .frameStarvationNotice owner asid off => Sys2Proof.Machine.execFrameStarvationNotice owner asid off s
  | .placementEpochEnd owner => Sys2Proof.Machine.execPlacementEpochEnd owner s
  | .barrierCompletionArrival r => Sys2Proof.Machine.execBarrierCompletionArrival r s
  | .phaseCommit c => Sys2Proof.Machine.execPhaseCommit c s
  | .unitPlacement core => Sys2Proof.Machine.execUnitPlacement core s
  | .unitComplete c => Sys2Proof.Machine.execUnitComplete c s
  | .taskDraw core eng => Sys2Proof.Machine.execTaskDraw core eng s
  | .overdueSlot core eng => Sys2Proof.Machine.execOverdueSlot core eng s
  | .taskComplete core slot queue pos => Sys2Proof.Machine.execTaskComplete core slot queue pos s
  | .taskBudgetRelease core slot queue pos => Sys2Proof.Machine.execTaskBudgetRelease core slot queue pos s
  | .taskStallRelease core slot queue pos => Sys2Proof.Machine.execTaskStallRelease core slot queue pos s
  | .jointQmmaStart quad => Sys2Proof.Machine.execJointQmmaStart quad s
  | .jointWriteInstant quad => Sys2Proof.Machine.execJointWriteInstant quad s
  | .leafSpill core leaf => Sys2Proof.Machine.execLeafSpill core leaf s
  | .inverseDrawRetry core => Sys2Proof.Machine.execInverseDrawRetry core s
  | .leafReload c leaf => Sys2Proof.Machine.execLeafReload c leaf s
  | .softBoundary core slot => Sys2Proof.Machine.execSoftBoundary core slot s
  | .graceExpiry core slot => Sys2Proof.Machine.execGraceExpiry core slot s
  | .haltComplete core slot => Sys2Proof.Machine.execHaltComplete core slot s
  | .killTimerExpiry core slot => Sys2Proof.Machine.execKillTimerExpiry core slot s
  | .swapOut core slot => Sys2Proof.Machine.execSwapOut core slot s
  | .swapIn core => Sys2Proof.Machine.execSwapIn core s
  | .blotterUnitComplete owner => Sys2Proof.Machine.execBlotterUnitComplete owner s
  | .blotterResume owner => Sys2Proof.Machine.execBlotterResume owner s
  | .hbmScrub owner => Sys2Proof.Machine.execHbmScrub owner s
  | .powerOnReset => Sys2Proof.Machine.execPowerOnReset s
  | .packageReset => Sys2Proof.Machine.execPackageReset s
  | .coreReset core => Sys2Proof.Machine.execCoreReset core s
  | .zeroisationComplete core => Sys2Proof.Machine.execZeroisationComplete core s
  | .hbmTrainingComplete => Sys2Proof.Machine.execHbmTrainingComplete s
  | .bootMarchTimeout => Sys2Proof.Machine.execBootMarchTimeout s
  | .launchWindowSubmit vi slot record => Sys2Proof.Machine.execLaunchWindowSubmit vi slot record s
  | .hostSemaphoreAdd vi entry k => Sys2Proof.Machine.execHostSemaphoreAdd vi entry k s
  | .viStop vi => Sys2Proof.Machine.execViStop vi s
  | .viEnableWrite vi vctl => Sys2Proof.Machine.execViEnableWrite vi vctl s
  | .hostLinkWindow port => Sys2Proof.Machine.execHostLinkWindow port s
  | .partitionQuadsWrite q high v => Sys2Proof.Machine.execPartitionQuadsWrite q high v s
  | .partitionWaysWrite q v => Sys2Proof.Machine.execPartitionWaysWrite q v s
  | .partitionResetStart q => Sys2Proof.Machine.execPartitionResetStart q s
  | .partitionResetComplete q => Sys2Proof.Machine.execPartitionResetComplete q s
  | .bgrpAlloc q group => Sys2Proof.Machine.execBgrpAlloc q group s
  | .bgrpRelease q group => Sys2Proof.Machine.execBgrpRelease q group s
  | .jobrel job => Sys2Proof.Machine.execJobrel job s
  | .flitReceive port authentic flit => Sys2Proof.Machine.execFlitReceive port authentic flit s
  | .laneFailure port lane => Sys2Proof.Machine.execLaneFailure port lane s
  | .portRetrainComplete port => Sys2Proof.Machine.execPortRetrainComplete port s
  | .keyCounterWarning port ingress => Sys2Proof.Machine.execKeyCounterWarning port ingress s
  | .keyExhausted port ingress => Sys2Proof.Machine.execKeyExhausted port ingress s
  | .keySwitchFlit port ingress => Sys2Proof.Machine.execKeySwitchFlit port ingress s
  | .spdmRequest port vi code nonce => Sys2Proof.Machine.execSpdmRequest port vi code nonce s
  | .thermalStepUp die region => Sys2Proof.Machine.execThermalStepUp die region s
  | .thermalStepDown die region => Sys2Proof.Machine.execThermalStepDown die region s
  | .powerLimitExceeded => Sys2Proof.Machine.execPowerLimitExceeded s
  | .ttripReached die region => Sys2Proof.Machine.execTtripReached die region s
  | .thermalTrip => Sys2Proof.Machine.execThermalTrip s
  | .wfeTimeout r => Sys2Proof.Machine.execWfeTimeout r s
  | .blwaitTimeout r => Sys2Proof.Machine.execBlwaitTimeout r s
  | .minimumSvnRaise kind => Sys2Proof.Machine.execMinimumSvnRaise kind s

end Sys2Proof.Machine
end

