-- ==== Sys2Proof/Machine/Cycle.lean ====
section
/-! DEFINITION. One step of the machine: an input or a chosen strand from the agenda, else one of the machine's own moves; then
everything comes to rest and time passes (04 R80-R83, log 2). Also the placing of one instruction where the next step fetches. -/

namespace Sys2Proof.Machine

/-! ## Events -/

/-- The rows of the table that no strand issues: steps of engines, owners, hosts and firmware. -/
def isEvent (i : Instr) : Bool :=
  match i with
  | .tldvRetry .. | .ductusStepServe .. | .ductusResultAccept .. | .ductusLost .. | .contextKill .. | .classDDelivery ..
  | .phaseAbort .. | .traceMismatch .. | .pageMadeResident .. | .frameStarvationNotice .. | .placementEpochEnd ..
  | .barrierCompletionArrival .. | .phaseCommit .. | .unitPlacement .. | .unitComplete .. | .taskDraw .. | .overdueSlot ..
  | .taskComplete .. | .taskBudgetRelease .. | .taskStallRelease .. | .jointQmmaStart .. | .jointWriteInstant .. | .leafSpill ..
  | .inverseDrawRetry .. | .leafReload .. | .softBoundary .. | .graceExpiry .. | .haltComplete .. | .killTimerExpiry ..
  | .swapOut .. | .swapIn .. | .blotterUnitComplete .. | .blotterResume .. | .hbmScrub .. | .powerOnReset | .packageReset
  | .coreReset .. | .zeroisationComplete .. | .hbmTrainingComplete | .bootMarchTimeout | .launchWindowSubmit ..
  | .hostSemaphoreAdd .. | .viStop .. | .viEnableWrite .. | .hostLinkWindow .. | .partitionQuadsWrite ..
  | .partitionWaysWrite .. | .partitionResetStart .. | .partitionResetComplete .. | .bgrpAlloc .. | .bgrpRelease .. | .jobrel ..
  | .flitReceive .. | .laneFailure .. | .portRetrainComplete .. | .keyCounterWarning .. | .keyExhausted .. | .keySwitchFlit ..
  | .spdmRequest .. | .thermalStepUp .. | .thermalStepDown .. | .powerLimitExceeded | .ttripReached .. | .thermalTrip
  | .wfeTimeout .. | .blwaitTimeout .. | .minimumSvnRaise .. => true
  | _ => false

/-! ## Strands -/

/-- The strand's registers that a wait instruction writes when it completes. -/
def waitDests : Option Wait → List RegRef
  | some (.addr _ _ d) => [.s d, .s (d + 1)]
  | some (.barrier d ..) | some (.event d _) | some (.blot d ..) | some (.swap d _) | some (.chpop d _) | some (.unbind d _) => [.s d]
  | _ => []

/-- The tracer's copy after a step of the strand (R98). The tracer executes the control subset itself on its copy, folio accesses and control-register
reads apart; of the rest the strand forwards the results. `s` is the state before, `v` what was read, `t` the meaning's result, `u` what the step
left: where that has loaded the registers anew, the copy agrees. -/
def traceStep (s v t : State) (i : Instr) (on : Bool) (u : State) : State :=
  let k := s.st.tracer
  if k = {} ∨ u.cx.uid ≠ s.cx.uid ∨ u.st.tracer ≠ k ∨ u.st.wait = some .retry then u
  else
    let c := v.st.copied k
    let forwards := upperHalf i || (classMask i != 0) || serialises i
    let alone := match tracedInstr s with
      | some (sc, j) =>
        if !guardOn c sc || upperHalf j || classMask j != 0 || serialises j then c.retireI j
        else match exec j (v.modSt fun _ => c) with
          | .next w => if w.st.level = c.level ∧ w.st.wait = none then w.st else c.retireI j
          | _ => c.retireI j
      | none => c.retire 1
    u.modSt fun x =>
      if x.wait.isSome then { x with tracer := k.forwarded (waitDests x.wait) }
      else { x with tracer := (Tracer.between t.st alone).forwarded (if on && forwards then strandDests i else []) }


/-- One member of a group issues (R28, R82, R83): an instruction issued ahead takes its turn, a command that the tracer does not match goes to no
unit (R99), and shared registers read as before the group, while its writes join the others'. -/
def issueMember (before : State) (alone : Bool) (s : State) (r : StrandRef) : Out :=
  match prepare s r with
  | .stop t => .next t
  | .go s v sc i on =>
    match s.st.ahead.find? fun e => e.dist == 0 && e.kind != .address with
    | some e =>
      match if e.kind = .made then .next s else exec (specialise i v) v with
      | .next u => .next (takeAhead s u e i)
      | o => o
    | none =>
      let v := v.withAddress s
      if traceDiffers s v i on then .next (traceMismatch s r i on)
      else if !on then .next (traceStep s v (v.modSt (·.retireI i)) i false (guardedOff s sc i))
      else
        let v := if alone then v else groupView { before with focus := r } v
        match exec (specialise i v) v with
        | .next t => .next (if overtakesChain v t then s.hold else let u := traceStep s v t i true (finishIssue s v t sc i); if alone then u else groupJoin s u i)
        | o => o

/-- Issue the members in strand order; one whose context an earlier member's kill has removed is passed over. -/
def issueMembers (before : State) (alone : Bool) : List StrandRef → State → Out
  | [], s => .next s
  | r :: rs, s =>
    if (s.findCtx (strandCtx r)).isNone then issueMembers before alone rs s
    else match issueMember before alone s r with
    | .next t => issueMembers before alone rs t
    | o => o

/-- An instruction of a strand issues ahead, if one can and its cluster serves the strand next: it executes where it stands, and one that would trap or
wait has not begun (R80, R92, R94). -/
def issueAhead (r : StrandRef) (s : State) : Out :=
  match if canIssue s r then aheadNext s r else none with
  | none => .next s
  | some n =>
    let s := s.serve r
    if n.kind = .address then .next (s.modSt fun t => t.putAhead (addressEntry s n))
    else
      let s' := s.modCx fun x => x.landResults (strandIx r) n.sc n.instr s.time s.tick
      let v := ((if s'.cx.trusted then s'.modCx fun x => x.view (strandIx r) s.tick else s').modSt fun k => { k.standing s.st n.strand with wait := none }).withEntry
        (s.st.ahead.find? fun e => e.dist == n.dist)
      match exec (specialise n.instr v) v with
      | .next u => .next (if u.cx.uid ≠ s.cx.uid ∨ u.st.level ≠ s.st.level ∨ u.st.wait.isSome ∨ overtakesChain v u then s else finishAhead s' v u n)
      | o => o

/-- A strand's turn, with its lockstep group: the members issue in one cycle, and together or not at all: where one is held, the others wait for it; of a
strand whose next instruction cannot issue, one ahead of its turn does (R82, R83, R92). -/
def issueStrand (s : State) (r : StrandRef) : Out :=
  if !able s r then issueAhead r s
  else match issueGroup s r with
  | [r] => issueMember s true s r
  | rs =>
    let s := rs.foldl landMember s
    match issueMembers s false rs s with
    | .next t =>
      let held := rs.filter fun m => (t.findCtx (strandCtx m)).isSome && (t.strandAt m).wait == some .retry
      if held.isEmpty then .next t else issueMembers s false held s
    | o => o

/-- The next strand in rotation issues, if one can now or in a later cycle (R80, R84). -/
def issueNext (s : State) : Out :=
  let s := s.toIssue
  match nextStrand s with
  | some (r, turn) => issueStrand { s with turn := turn } r
  | none => .next s

/-! ## The machine's own moves -/

/-- Moves of one resident context. -/
def ctxMoves (core slot : Nat) (x : Ctx) : List (State → Out) :=
  let ref : CtxRef := .resident core slot
  [execPhaseCommit ref, execUnitComplete ref, execClassDDelivery ref, execSoftBoundary core slot, execGraceExpiry core slot,
   execHaltComplete core slot, execKillTimerExpiry core slot, execSwapOut core slot]
    ++ (List.finRange 6).flatMap (fun q => x.queues[q].zipIdx.flatMap fun t =>
      if t.1.st == .running then [landPiece core slot q.val t.2, execTaskComplete core slot q.val t.2, execTaskBudgetRelease core slot q.val t.2, execTaskStallRelease core slot q.val t.2]
        else [execPhaseAbort ref q.val t.2 .fwqUnderflow 0])
    ++ x.leaves.zipIdx.flatMap (fun l => if l.1.phys.isNone then [execLeafReload ref l.2] else [])
    ++ (List.finRange 16).flatMap (fun tag => if x.ducts[tag].busy then [execDuctusLost ref tag] else [])
    ++ (List.range 4).flatMap fun i =>
      let r : StrandRef := { core := core, slot := slot, strand := i }
      match x.strands[strandIx r].wait with
      | some (.event ..) => [execWfeTimeout r]
      | some (.blot ..) => [execBlwaitTimeout r]
      | some (.tldv ..) => [execTldvRetry r]
      | some (.barrier ..) => [execBarrierCompletionArrival r]
      | some .retry => [issueAhead r]
      | none => [issueAhead r]
      | _ => []

/-- Moves of one core that the state lists. -/
def coreMoves (core : Nat) (k : Core) : List (State → Out) :=
  [execTaskDraw core .le, execTaskDraw core .ve, execTaskDraw core .ce, execOverdueSlot core .le, execOverdueSlot core .ve,
   execOverdueSlot core .ce, execJointQmmaStart (core / 4), execJointWriteInstant (core / 4), execSwapIn core, execInverseDrawRetry core]
    ++ k.spills.map (fun p => execLeafSpill core p.phys)
    ++ k.slots.flatMap fun e => ctxMoves core e.1 e.2

/-- Moves of one die. -/
def dieMoves (o : Nat) (d : Die) : List (State → Out) :=
  [execDuctusStepServe o, execPlacementEpochEnd o, execBlotterUnitComplete o, execBlotterResume o, execHbmScrub o]
    ++ d.margin.map (fun e s => .next (s.evictMargin o e.1))
    ++ d.fetching.flatMap fun p => [execPageMadeResident o p.1 (p.2.setWidth 48), execFrameStarvationNotice o p.1 (p.2.setWidth 48)]

/-- Every move the machine can make of itself: engines, owners, the ladder, the blotter, the boot sequence. A move that is not due leaves
the state as it is. -/
def ownMoves (s : State) : List (State → Out) :=
  [execHbmTrainingComplete, execBootMarchTimeout, execHostLinkWindow 0, execHostLinkWindow 1]
    ++ allCores.flatMap (fun c => [execZeroisationComplete c, execUnitPlacement c])
    ++ s.cores.flatMap (fun k => coreMoves k.1 k.2)
    ++ s.dies.flatMap (fun d => dieMoves d.1 d.2)
    ++ (List.range s.results.length).map (fun i => execDuctusResultAccept i)
    ++ (List.range s.releases.length).map (fun i s => .next (arriveRelease i s))
    ++ s.ports.flatMap (fun e => (if e.2.out.isEmpty then [] else [fun s => Host.Outcome.next (sendFlit e.1 s)])
      ++ (if e.2.handed.isEmpty then [] else [fun s => Host.Outcome.next (serveHanded e.1 s)]))
    ++ s.vis.flatMap (fun v => (List.finRange 8).flatMap fun i => if v.2.window[i].pend then [fun s => Host.Outcome.next (serveWindow v.1 i s)] else [])
    ++ (List.range 16).map fun q => execPartitionResetComplete q

/-- A move of the machine's own choosing: a strand's, or one of the others (log 2). -/
def ownMove (s : State) : Out :=
  let ms := ownMoves s
  match Config.pick s.tick % (ms.length + 1) with
  | 0 => issueNext s
  | n + 1 => ((ms[n]?).getD .next) s

/-! ## The agenda -/

/-- Events of hosts and of their hypervisor, which the part takes once it has booted (R111 step 6). -/
def hostEvent (i : Instr) : Bool :=
  match i with
  | .launchWindowSubmit .. | .hostSemaphoreAdd .. | .viStop .. | .viEnableWrite .. | .partitionQuadsWrite .. | .partitionWaysWrite ..
  | .partitionResetStart .. | .bgrpAlloc .. | .bgrpRelease .. | .jobrel .. | .spdmRequest .. => true
  | _ => false

/-- The context whose files an error strikes: of a resident slot, or from 4 on of a shadow slot (R411). -/
def fileRef (core slot : Nat) : CtxRef := if slot < 4 then .resident core slot else .shadow core (slot - 4)

/-- Take one input (log 2): an event, a strand chosen to issue, a write from a host, an error that strikes. -/
def applyAct (a : Act) (s : State) : Out :=
  match a with
  | .event i => if isEvent i && (s.boot == 7 || !hostEvent i) then exec i s else .next s
  | .strand r =>
    let t := if canIssue s r then s else s.toIssue
    if canIssue t r then issueStrand t r else .next s
  | .firmwareLaunch part asid job record =>
    .next (if s.boot = 7 then (createLaunch s (firmware part asid job) (wordsOf record)).1 else s)
  | .hypervisorLaunch part asid job record =>
    .next (if s.boot = 7 then (createLaunch s (hypervisor part asid job) (wordsOf record)).1 else s)
  | .barWrite vi off v => .next (if s.boot < 7 then s else barWrite s vi off v)
  | .pfWrite port off v => .next (if s.boot < 7 ∨ 2 ≤ port then s else pfWrite s port off v)
  | .barRead vi off => .next (if s.boot < 7 ∨ viCount ≤ vi then s else hostRead s (barRead s vi off))
  | .pfRead port off => .next (if s.boot < 7 ∨ 2 ≤ port then s else hostRead s (pfRead s port off))
  | .tdisp vi on => .next (setTdisp s vi on)
  | .ide port secure => .next (setIde s port secure)
  | .retrain port => .next (if port ≥ portCount then s else s.setPort port { s.port port with retraining := true, wide := true })
  | .flitSent port => .next (sendFlit port s)
  | .flitAck port => .next (flitAck port s)
  | .flitRefused port => .next (flitRefused port s)
  | .remoteGroup g pkg members inC inC1 => .next (remoteGroup s g pkg members inC inC1)
  | .rootGeneration g root c => .next (rootGeneration s g root c)
  | .packageReset pkg => .next (otherPackageReset s pkg)
  | .newKey port ingress => .next (if port ≥ portCount then s else s.setPort port ((s.port port).setDir ingress { (s.port port).dir ingress with newKey := true }))
  | .nearFrame owner size ma => .next ((zeroFrame s owner (ma.toNat % 2 ^ 52) size).modDie owner fun d => d.giveFrame size ma)
  | .memError key l2 unc integrity => .next (memError s key l2 unc integrity)
  | .tracerError r reg v => .next (s.modStrandAt r fun t => { t with tracer := t.tracer.struck reg v })
  | .fileError core slot file n => .next (s.modRef (fileRef core slot) fun x => match file with
    | .vector => { x with vPoison := if x.vPoison.contains n then x.vPoison else x.vPoison ++ [n] }
    | .mask => { x with mPoison := if x.mPoison.contains n then x.mPoison else x.mPoison ++ [n] }
    | .sem => { x with semPoison := if x.semPoison.contains n then x.semPoison else x.semPoison ++ [n] })
  | .bitError core off bit => .next (s.modCore core fun k =>
      { k with flips := if k.flips.contains (off, bit.val) then k.flips.erase (off, bit.val) else k.flips ++ [(off, bit.val)] })
  | .fileBit core slot off bit => .next (s.modRef (fileRef core slot) (·.strikeFile off bit.val))
  | .storeError core slot q pos idx v => .next (s.modRef (.resident core slot) fun x => match x.queues[q][pos]? with
    | some t => x.modTask t.num fun t =>
      if idx < t.stores.length then { t with stores := t.stores.modify idx fun e => (e.1, e.2 ^^^ v) } else { t with hits := t.hits ++ [(idx, v)] }
    | none => x)
  | .sections launch img => .next { s with sections := SMap.set s.sections launch img }
  | .load owner ma bytes => .next (s.writeMa owner (ma.toNat % 2 ^ 52) bytes)
  | .cutTsta r => match prepare s r with
    | .go _ v _ (.tsta b sz m mask) true => execPackageReset (cutTile v b sz m mask)
    | _ => .next s
  | .marginError die line => .next (s.modDie die fun d => { d with marginBad := if d.marginBad.contains line then d.marginBad else line :: d.marginBad })
  | .opError core word => .next (s.modCore core fun k => { k with opPoison := if k.opPoison.contains word then k.opPoison else k.opPoison ++ [word] })
  | .folioError core word => .next (s.modCore core fun k => { k with folioPoison := if k.folioPoison.contains word then k.folioPoison else k.folioPoison ++ [word] })

/-- The only input that the part takes without core power, and with a housekeeping image that failed (R111, R423). -/
def wakes (s : State) (a : Act) : Bool :=
  match a with
  | .event .powerOnReset => true
  | .event .packageReset => !s.poweredOff
  | _ => false

/-- The part runs: it has core power, and its housekeeping image was accepted (R111, R423). -/
def State.alive (s : State) : Bool := !s.poweredOff && s.boot != 1

/-- What a step does before everything comes to rest. -/
def act (s : State) : Out :=
  match s.agenda with
  | a :: rest =>
    if s.alive || wakes s a then applyAct a { s with agenda := rest } else .next { s with agenda := rest }
  | [] => if s.alive then ownMove s else .next s

/-- After a step: queues and stops come to rest, time passes, the free-value counter moves on (R68). -/
def afterStep (s : State) : State :=
  let s := if s.alive then finishStops (settle (loseLate s)) else s
  { passTime s (Config.cycles s.tick) with tick := s.tick + 1 }

/-- One step. -/
def cycle (s : State) : Out :=
  match act s with
  | .next t => .next (afterStep t)
  | o => o

/-! ## Placing one instruction (log 21) -/

/-- Machine addresses of the tables and the frame that hold the instruction, on the die of core 0. -/
def fetchTables : List (Nat × Word) :=
  [(0, 0x8000000000200000), (8, 0x8000000000200000),
   (0x200000, 0x4000000000400000), (0x400008, 0x7800000000602000), (0x401000, 0x4800000000600000), (0x402000, 0x4800000000601000),
   (0x600000, 0x4000000000400000), (0x601008, 0x6800000000001000)]

/-- The address the instruction stands at: offset 0x1000 of the issuing die. -/
def fetchPc : Word := 0xFFFF000000001000

/-- The unit that runs it: one strand at firmware privilege, every predicate true, so that a guard does not pass it over. -/
def fetchCtx : Ctx :=
  { uid := 1024, launch := 1, priv := 2
    strands := (Vector.replicate 4 {}).set 0 { present := true, pc := fetchPc, p := BitVec.allOnes 7 } }

/-- The instruction of the table whose bits are `w`, in the first frame fetched, with the unit that fetches it. -/
def placeWord (s : State) (nbits w : Nat) : State :=
  let o := s.dieOf 0
  let s := s.modDie o fun d => { d with asdbase := 0, blotJobs := [] }
  let s := fetchTables.foldl (fun s e => s.writeMa o (o % 4 * 2 ^ 48 + e.1) (leBytes 8 e.2.toNat)) s
  let s := s.writeMa o (o % 4 * 2 ^ 48 + 0x602000) (leBytes 96 (w % 2 ^ nbits))
  let s := s.modCore 0 fun k => { k with zeroising := false, served := Vector.replicate 4 3, slots := SMap.set k.slots 0 fetchCtx }
  { s with
    domain := if s.domain.contains s.package then s.domain else s.domain ++ [s.package]
    poweredOff := false, boot := if s.boot = 7 then 7 else 2, agenda := [.strand { core := 0, slot := 0, strand := 0 }] }

end Sys2Proof.Machine
end

