-- ==== Sys2Proof/Safety.lean ====
section
/-! DEFINITION. The terms the claims use: the canonical form of memory, and what an instruction's next state leaves alone. -/

namespace Sys2Proof.Machine

/-- Memory is in its canonical form: keys strictly rising, no byte equal to what an unlisted address reads as (log 1). -/
def State.memOk (s : State) : Prop := memWf s.mem = true

/-- Nothing of the machine differs but the executing strand; every byte of memory reads as before. -/
structure OnlyStrand (s t : State) : Prop where
  rest : t = s.modSt fun _ => t.st
  bytes : ∀ k, t.rawByte k = s.rawByte k

/-- Nothing of the machine differs but the executing context; every byte of memory reads as before. -/
structure OnlyCtx (s t : State) : Prop where
  rest : t = s.modCx fun _ => t.cx
  bytes : ∀ k, t.rawByte k = s.rawByte k

/-- Scalar register `d` holds `v` (s0 discards it and reads zero, R42) and every other one is as before. -/
def WritesS (u u' : Strand) (d : SReg) (v : Word) : Prop :=
  u'.getS d = (if d = 0 then 0 else v) ∧ ∀ r, r ≠ d → u'.getS r = u.getS r
/-- Address register `d` holds `v` and every other one is as before. -/
def WritesA (u u' : Strand) (d : AReg) (v : Word) : Prop := u'.getA d = v ∧ ∀ r, r ≠ d → u'.getA r = u.getA r
/-- Predicate `d` holds `v` (p7 discards it and reads true, R42) and every other one is as before. -/
def WritesP (u u' : Strand) (d : PReg) (v : Bool) : Prop :=
  u'.getP d = (if d = 7 then true else v) ∧ ∀ r, r ≠ d → u'.getP r = u.getP r

/-- The instruction completes in one word and writes `v` to scalar register `d`: of the machine only that register, the pc and the
loop counters (by the repeat rule of R61) and a used-up forced guard differ. -/
def ScalarWrite (s : State) (o : Out) (d : SReg) (v : Word) : Prop :=
  ∃ t, o = .next t ∧ OnlyStrand s t ∧ t.st = { s.st.retire 1 with s := t.st.s } ∧ WritesS s.st t.st d v
/-- As `ScalarWrite`, for an address register. -/
def AddrWrite (s : State) (o : Out) (d : AReg) (v : Word) : Prop :=
  ∃ t, o = .next t ∧ OnlyStrand s t ∧ t.st = { s.st.retire 1 with a := t.st.a } ∧ WritesA s.st t.st d v
/-- As `ScalarWrite`, for a predicate. -/
def PredWrite (s : State) (o : Out) (d : PReg) (v : Bool) : Prop :=
  ∃ t, o = .next t ∧ OnlyStrand s t ∧ t.st = { s.st.retire 1 with p := t.st.p } ∧ WritesP s.st t.st d v
/-- Control goes to `target`; of the machine only the pc and a used-up forced guard differ. -/
def JumpsTo (s : State) (o : Out) (target : Word) : Prop :=
  ∃ t, o = .next t ∧ OnlyStrand s t ∧ t.st = { s.st with pc := target, forced := none }

/-- Below level 2 the executing strand takes a class T trap (R154): bank n = level + 1 is filled with the cause, the return address, the
data address and the guard word; the level rises; the pc goes to the entry; what was issued ahead is cancelled and a wait's tokens are given back
(R94, R201), the latches clear and the tracer's registers are loaded anew (R86, R98); nothing else differs. -/
def TakesTrapWith (s : State) (o : Out) (b : Bank) : Prop :=
  s.st.level ≠ 2 →
    ∃ t, o = .next t ∧ OnlyStrand s t ∧
      t.st = { s.st.cancelAhead.unwind with
               level := s.st.level + 1, bank1 := if s.st.level = 0 then b else s.st.bank1,
               bank2 := if s.st.level = 0 then s.st.bank2 else b, pc := s.st.entry &&& ~~~0xF,
               wait := none, forced := none, latches := [], tracer := {} }
/-- The executing instruction itself traps: the bank returns to it with its guard on (R154, R157). -/
def TakesTrap (s : State) (o : Out) (code info : Nat) (addr : Word) : Prop :=
  TakesTrapWith s o { cause := causeWord 0 info code, ret := s.st.pc, addr := addr, force := true, out := true }

/-- R46: the exact sum, difference or absolute value, wrapped, or clamped by `.sat` with satf set; `.w` reads the low 32 bits and
sign-extends the result. -/
def AddSubWrites (s : State) (o : Out) (d : SReg) (v : Int) (w sat : Bool) : Prop :=
  let hi : Int := 2 ^ (widthOf w - 1) - 1
  let lo : Int := -(2 ^ (widthOf w - 1))
  ∃ t, o = .next t ∧ OnlyStrand s t
    ∧ t.st = { s.st.retire 1 with s := t.st.s, satf := s.st.satf || (sat && (decide (v > hi) || decide (v < lo))) }
    ∧ WritesS s.st t.st d (wres w (if sat then max lo (min hi v) else v))

/-- What a divide of x by y that does not trap leaves (R49): quotient or remainder, dzf and dof. -/
def DivWrites (s : State) (o : Out) (d : SReg) (w : Bool) (v : Int) (dzf dof : Bool) : Prop :=
  ∃ t, o = .next t ∧ OnlyStrand s t
    ∧ t.st = { s.st.retire 1 with s := t.st.s, dzf := s.st.dzf || dzf, dof := s.st.dof || dof }
    ∧ WritesS s.st t.st d (wres w v)

/-- The ten conditions of R52 on the signed and unsigned values of two operands. -/
def CondTrue {n : Nat} (c : Cond) (x y : BitVec n) : Prop :=
  match c with
  | .eq => x = y
  | .ne => x ≠ y
  | .lt => x.toInt < y.toInt
  | .le => x.toInt ≤ y.toInt
  | .gt => x.toInt > y.toInt
  | .ge => x.toInt ≥ y.toInt
  | .ltu => x.toNat < y.toNat
  | .leu => x.toNat ≤ y.toNat
  | .gtu => x.toNat > y.toNat
  | .geu => x.toNat ≥ y.toNat

/-- The instruction completes with exactly the state `t`, and every byte of memory reads as before. -/
def Completes (s : State) (o : Out) (t : State) : Prop := o = .next t ∧ ∀ k, t.rawByte k = s.rawByte k

/-- At privilege level `n` or above (R135) `o` completes with `t`; below it the strand takes PRIV_FAULT. -/
def AtLevel (s : State) (n : Nat) (o : Out) (t : State) : Prop :=
  (n ≤ s.cx.priv.val → Completes s o t) ∧ (¬ n ≤ s.cx.priv.val → TakesTrap s o 0x02 0 0)

/-- Where an access of n bytes at folio offset o through the ordinary view lies in one resident leaf with no word past correction:
the physical leaf (R64, R102). -/
def InLeaf (s : State) (o : Word) (n p : Nat) : Prop :=
  s.cx.diag = false ∧ o.toNat + n ≤ s.cx.leaves.length * 16384 ∧ (s.cx.leaves[o.toNat / 16384]?).bind (·.phys) = some p
    ∧ ∀ i < n, s.co.folioBad (leafByte p (o.toNat + i) / 8) = false

/-- The state in which an access of n bytes that translated to these performs: the host-link budget is charged (R402) and the page's access is
counted for placement (R186), with the use of its lines (R405). -/
def counted (s : State) (xs : List Xl) (write : Bool) (n : Nat) : State :=
  let t := hostChargeN s s.cx xs write n
  if write then t.countWrite xs else t.countRead xs

/-- Element i of vector register r at a type. -/
def State.lane (s : State) (t : ETy) (r : VNum) (i : Nat) : Nat := laneOf t.width (s.getV r).toNat i

/-- Lane i of vector register `d` holds `f i` cut to the element's width where the mask enables it and keeps its old value elsewhere (R286, R291); nothing
else of the machine changes but the pc by the repeat rule, and every byte of memory reads as before. -/
def LaneWrite (s : State) (o : Out) (d : VNum) (t : ETy) (m : Option MNum) (f : Nat → Nat) : Prop :=
  ∃ u, o = .next u ∧ u = (s.setV d (u.getV d)).retire ∧ (∀ k, u.rawByte k = s.rawByte k)
    ∧ ∀ i < t.lanes, u.lane t d i = if s.laneOn m i then f i % 2 ^ t.width else s.lane t d i

/-- Number of counts that strand waiters on a semaphore still wait for (R203). -/
def Ctx.waiting (x : Ctx) (sem : Nat) : Nat := ((x.semq.filter fun w => w.1 == sem).map fun w => w.2.2).sum

/-- Entries of an engine queue that still occupy one of its 16 places (R247, log 15). -/
def Ctx.queued (x : Ctx) (q : Fin 6) : Nat := (x.queues[q].filter fun t => t.st != .done).length

/-- The instruction completes writing vector registers alone, and of those only the `g` of the group based at `d`; every byte of memory reads as before. -/
def GroupWrite (s : State) (o : Out) (d : VNum) (g : Nat) (p : State → Prop) : Prop :=
  ∃ u, o = .next u ∧ u = (s.modCx fun x => { x with v := u.cx.v }).retire ∧ (∀ k, u.rawByte k = s.rawByte k)
    ∧ (∀ r : VNum, (∀ k < g, r ≠ vplus d k) → u.getV r = s.getV r) ∧ p u

/-- Element `i` of a group of g registers at a width, in blocked order (R287). -/
def State.glane (s : State) (w : Nat) (base : VNum) (g i : Nat) : Nat := laneOf w (s.groupNat base g) i

/-- Mask register `d` takes `f i` in every lane below n that the mask enables, keeps its bit in the others and is clear from n on (R294); nothing else changes but the pc by the
repeat rule, and every byte of memory reads as before. -/
def MaskWrite (s : State) (o : Out) (d : MNum) (n : Nat) (m : Option MNum) (f : Nat → Prop) : Prop :=
  ∃ u, o = .next u ∧ u = (s.setM d (u.getM d)).retire ∧ (∀ k, u.rawByte k = s.rawByte k)
    ∧ ∀ i < 1024, (u.getM d).getLsbD i = true ↔ i < n ∧ (if s.laneOn m i = true then f i else (s.getM d).getLsbD i = true)

/-- A compare of two integer elements: codes 2 to 5 as the type reads them, codes 6 to 9 as patterns (R294). -/
def ElemHolds (c : Cond) (t : ETy) (x y : Nat) : Prop :=
  match c with
  | .eq => x = y
  | .ne => x ≠ y
  | .lt => elemInt t x < elemInt t y
  | .le => elemInt t x ≤ elemInt t y
  | .gt => elemInt t y < elemInt t x
  | .ge => elemInt t y ≤ elemInt t x
  | .ltu => x < y
  | .leu => x ≤ y
  | .gtu => y < x
  | .geu => y ≤ x

/-! ## Rows that only a written value selects -/

/-- The rows of the table that share the word of a control-register write: the value written tells them apart, so a word
decodes to the register's row and `specialise` chooses (log 25). -/
def byValue (i : Instr) : Bool :=
  match i with
  | .repairTableClear _ | .summaryClear _ | .leafPin _ | .leafUnpin _ | .poolBlockSet _ | .currencyCreate _ | .currencyRateWrite _
  | .currencyDelete _ | .keyLoad _ => true
  | _ => false

/-- Rows whose encoding lays more than one word record: a copy or a matrix command that carries another. -/
def carries (i : Instr) : Bool :=
  match i with
  | .cpy c => c.fo.isSome
  | .cpyo c => c.fo.isSome
  | .mma c => c.epi.isSome
  | .qmma c _ => c.epi.isSome
  | _ => false

end Sys2Proof.Machine
end

