-- ==== Sys2Proof/Certificates/Slice0/Obligations.lean ====
section
/-! DEFINITION. Statements for the provers, from the numbered rules of the spec. -/

open Sys2Proof Sys2Proof.Machine

/-! ## Integer arithmetic (R42-R51) -/

/-- R46, ADD, SUB, ADDI and ABS: result, satf, and nothing else changed. -/
def Obligations.AddSubResult : Prop :=
  ∀ (s : State) (d a b : SReg) (imm : Word) (w sat : Bool),
    AddSubWrites s (exec (.add d a b w sat) s) d (sval w (s.getS a) + sval w (s.getS b)) w sat
    ∧ AddSubWrites s (exec (.sub d a b w sat) s) d (sval w (s.getS a) - sval w (s.getS b)) w sat
    ∧ AddSubWrites s (exec (.addi d a imm w sat) s) d (sval w (s.getS a) + sval w imm) w sat
    ∧ AddSubWrites s (exec (.abs d a w sat) s) d (max (sval w (s.getS a)) (-(sval w (s.getS a)))) w sat

/-- R46, MIN and MAX, read signed or with `.u` unsigned; R47, the bitwise operations; no flag is written.
R47: shifts as products and floor quotients by a power of two of the w-bit operand, sign-extended in `.w`.
R48: the low half of the product, which is the same read signed or unsigned, and the two high halves. -/
def Obligations.ScalarArithmeticResult : Prop :=
  (∀ (s : State) (d a b : SReg) (imm : Word) (w u : Bool),
      let x : Int := if u then (uval w (s.getS a) : Int) else sval w (s.getS a)
      let y : Int := if u then (uval w (s.getS b) : Int) else sval w (s.getS b)
      ScalarWrite s (exec (.min d a b w u) s) d (wres w (if x ≤ y then x else y))
      ∧ ScalarWrite s (exec (.max d a b w u) s) d (wres w (if x ≤ y then y else x))
      ∧ ScalarWrite s (exec (.and d a b) s) d (s.getS a &&& s.getS b)
      ∧ ScalarWrite s (exec (.or d a b) s) d (s.getS a ||| s.getS b)
      ∧ ScalarWrite s (exec (.xor d a b) s) d (s.getS a ^^^ s.getS b)
      ∧ ScalarWrite s (exec (.andi d a imm) s) d (s.getS a &&& imm)
      ∧ ScalarWrite s (exec (.ori d a imm) s) d (s.getS a ||| imm)
      ∧ ScalarWrite s (exec (.xori d a imm) s) d (s.getS a ^^^ imm))
  ∧
  (∀ (s : State) (d a b : SReg) (k : Fin 64) (w : Bool),
      let n := (s.getS b).toNat % widthOf w
      let x := s.getS a
      ScalarWrite s (exec (.shl d a b w) s) d (wres w (uval w x * 2 ^ n))
      ∧ ScalarWrite s (exec (.shr d a b w) s) d (wres w ((uval w x / 2 ^ n : Nat) : Int))
      ∧ ScalarWrite s (exec (.sar d a b w) s) d (wres w (Int.fdiv (sval w x) (2 ^ n)))
      ∧ ScalarWrite s (exec (.shli d a k w) s) d (wres w (uval w x * 2 ^ k.val))
      ∧ ScalarWrite s (exec (.shri d a k w) s) d (wres w ((uval w x / 2 ^ k.val : Nat) : Int))
      ∧ ScalarWrite s (exec (.sari d a k w) s) d (wres w (Int.fdiv (sval w x) (2 ^ k.val))))
  ∧
  (∀ (s : State) (d a b : SReg) (w : Bool),
      ScalarWrite s (exec (.mul d a b w) s) d (wres w (sval w (s.getS a) * sval w (s.getS b)))
      ∧ ScalarWrite s (exec (.mul d a b w) s) d (wres w (uval w (s.getS a) * uval w (s.getS b)))
      ∧ ScalarWrite s (exec (.mulh d a b w) s) d (wres w (Int.fdiv (sval w (s.getS a) * sval w (s.getS b)) (2 ^ widthOf w)))
      ∧ ScalarWrite s (exec (.mulhu d a b w) s) d (wres w (Int.fdiv (uval w (s.getS a) * uval w (s.getS b)) (2 ^ widthOf w))))

/-- R49: a zero divisor traps with dz = 1, else gives all ones and the dividend and sets dzf; the most negative value by -1 gives
the dividend and 0 and sets dof; otherwise the quotient q and remainder m are the pair with x = y*q + m, |m| < |y| and m zero or
of the sign of x. -/
def Obligations.DivideResult : Prop :=
  ∀ (s : State) (d a b : SReg) (w signed : Bool),
    let x : Int := if signed then sval w (s.getS a) else (uval w (s.getS a) : Int)
    let y : Int := if signed then sval w (s.getS b) else (uval w (s.getS b) : Int)
    let quot := if signed then exec (.div d a b w) s else exec (.divu d a b w) s
    let rem := if signed then exec (.rem d a b w) s else exec (.remu d a b w) s
    (y = 0 → s.st.dz = true → TakesTrap s quot 0x06 0 0 ∧ TakesTrap s rem 0x06 0 0)
    ∧ (y = 0 → s.st.dz = false → DivWrites s quot d w (2 ^ widthOf w - 1) true false ∧ DivWrites s rem d w x true false)
    ∧ (signed = true → x = -(2 ^ (widthOf w - 1)) → y = -1 → DivWrites s quot d w x false true ∧ DivWrites s rem d w 0 false true)
    ∧ (y ≠ 0 → ¬(signed = true ∧ x = -(2 ^ (widthOf w - 1)) ∧ y = -1) →
        ∃ q m : Int, x = y * q + m ∧ |m| < |y| ∧ (m = 0 ∨ (0 < m ↔ 0 < x)) ∧ DivWrites s quot d w q false false
          ∧ DivWrites s rem d w m false false)

/-- R51: BEXT and BINS bit by bit, for the fields an encoding may name.
R51: CLZ, CTZ, POPC and BREV of the w-bit operand, by what each counts or reverses. -/
def Obligations.BitResult : Prop :=
  (∀ (s : State) (d a : SReg) (pos : Fin 64) (width : BitVec 7) (sx : Bool), width ≠ 0 → pos.val + width.toNat ≤ 64 →
      (∃ v : Word, ScalarWrite s (exec (.bext d a pos width sx) s) d v ∧ ∀ i < 64, v.getLsbD i =
          if i < width.toNat then (s.getS a).getLsbD (pos.val + i) else sx && (s.getS a).getLsbD (pos.val + width.toNat - 1))
      ∧ ∃ v : Word, ScalarWrite s (exec (.bins d a pos width) s) d v ∧ ∀ i < 64, v.getLsbD i =
          if pos.val ≤ i ∧ i < pos.val + width.toNat then (s.getS a).getLsbD (i - pos.val) else (s.getS d).getLsbD i)
  ∧
  (∀ (s : State) (d a : SReg) (w : Bool),
      let x := uval w (s.getS a)
      (∃ n : Nat, ScalarWrite s (exec (.clz d a w) s) d (BitVec.ofNat 64 n) ∧ n ≤ widthOf w ∧ x < 2 ^ (widthOf w - n)
        ∧ (n < widthOf w → 2 ^ (widthOf w - n - 1) ≤ x))
      ∧ (∃ n : Nat, ScalarWrite s (exec (.ctz d a w) s) d (BitVec.ofNat 64 n) ∧ (x = 0 → n = widthOf w)
        ∧ (x ≠ 0 → n < widthOf w ∧ 2 ^ n ∣ x ∧ x.testBit n = true))
      ∧ ScalarWrite s (exec (.popc d a w) s) d (BitVec.ofNat 64 ((List.range (widthOf w)).countP fun i => x.testBit i))
      ∧ ∃ r : Nat, ScalarWrite s (exec (.brev d a w) s) d (wres w r) ∧ r < 2 ^ widthOf w
        ∧ ∀ i < widthOf w, r.testBit i = x.testBit (widthOf w - 1 - i))

/-! ## Compares, predicates, moves, addresses (R52-R57) -/

/-- R52: each compare writes its predicate true exactly when its condition holds of its operands, and p7 reads true whatever is written.
R53: predicate logic with inversions; PGET reads p0-p7 into bits 0-7 and zero above; PPUT writes the predicates its mask names. -/
def Obligations.PredicateLogicResult : Prop :=
  (∀ (s : State) (p : PReg) (a b : SReg) (ra rb : AReg) (imm : Word) (imm32 : BitVec 32) (c : Cond),
      (∃ v : Bool, PredWrite s (exec (.cmp p a b c) s) p v ∧ (v = true ↔ CondTrue c (s.getS a) (s.getS b)))
      ∧ (∃ v : Bool, PredWrite s (exec (.cmpi p a imm c) s) p v ∧ (v = true ↔ CondTrue c (s.getS a) imm))
      ∧ (∃ v : Bool, PredWrite s (exec (.cmpW p a b c) s) p v ∧ (v = true ↔ CondTrue c ((s.getS a).setWidth 32) ((s.getS b).setWidth 32)))
      ∧ (∃ v : Bool, PredWrite s (exec (.cmpiW p a imm32 c) s) p v ∧ (v = true ↔ CondTrue c ((s.getS a).setWidth 32) imm32))
      ∧ ∃ v : Bool, PredWrite s (exec (.acmp p ra rb c) s) p v ∧ (v = true ↔ CondTrue c (s.getA ra) (s.getA rb)))
  ∧
  (∀ (s : State) (d a b : PReg) (r : SReg) (ia ib : Bool) (mask : BitVec 7),
      PredWrite s (exec (.pand d a b ia ib) s) d ((s.getP a != ia) && (s.getP b != ib))
      ∧ PredWrite s (exec (.por d a b ia ib) s) d ((s.getP a != ia) || (s.getP b != ib))
      ∧ PredWrite s (exec (.pxor d a b ia ib) s) d ((s.getP a != ia) != (s.getP b != ib))
      ∧ (∃ v : Word, ScalarWrite s (exec (.pget r) s) r v ∧ (∀ i : PReg, v.getLsbD i.val = s.getP i) ∧ v.toNat < 256)
      ∧ ∃ t, exec (.pput r mask) s = .next t ∧ OnlyStrand s t ∧ t.st = { s.st.retire 1 with p := t.st.p }
          ∧ ∀ i : PReg, t.getP i = if i ≠ 7 ∧ mask.getLsbD i.val then (s.getS r).getLsbD i.val else s.getP i)

/-- R45, R54, R55: NOP, select, moves, immediates, the address of a label, and the literal pairs.
R56, R57: address arithmetic modulo 2^64; a wrap keeps the bits above k, a bound lands in its window, an alignment clears the low k bits. -/
def Obligations.MoveAddressResult : Prop :=
  (∀ (s : State) (d a b : SReg) (ra : AReg) (p : PReg) (inv : Bool) (imm : Word) (l : Word128),
      (∃ t, exec .nop s = .next t ∧ OnlyStrand s t ∧ t.st = s.st.retire 1)
      ∧ ScalarWrite s (exec (.sel d p inv a b) s) d (if s.getP p != inv then s.getS a else s.getS b)
      ∧ AddrWrite s (exec (.mova ra a) s) ra (s.getS a)
      ∧ ScalarWrite s (exec (.movs d ra) s) d (s.getA ra)
      ∧ ScalarWrite s (exec (.li d imm) s) d imm
      ∧ AddrWrite s (exec (.lia ra imm) s) ra imm
      ∧ AddrWrite s (exec (.adr ra imm) s) ra (s.st.pc + 16 * imm)
      ∧ (d.val % 2 = 0 → ∃ t, exec (.lit d l) s = .next t ∧ OnlyStrand s t ∧ t.st = { s.st.retire 2 with s := t.st.s }
          ∧ t.getS d = (if d = 0 then 0 else l.setWidth 64) ∧ t.getS (d + 1) = (l >>> 64).setWidth 64
          ∧ ∀ r, r ≠ d → r ≠ d + 1 → t.getS r = s.getS r)
      ∧ (ra.val % 2 = 0 → ∃ t, exec (.lita ra l) s = .next t ∧ OnlyStrand s t ∧ t.st = { s.st.retire 2 with a := t.st.a }
          ∧ t.getA ra = l.setWidth 64 ∧ t.getA (ra + 1) = (l >>> 64).setWidth 64
          ∧ ∀ r, r ≠ ra → r ≠ ra + 1 → t.getA r = s.getA r))
  ∧
  (∀ (s : State) (d : SReg) (rd ra rb : AReg) (b : SReg) (imm : Word) (sh : Fin 16) (stp len : BitVec 32) (k : Fin 64),
      let A := (s.getA ra).toNat
      AddrWrite s (exec (.aadd rd ra b) s) rd (s.getA ra + s.getS b)
      ∧ AddrWrite s (exec (.aaddi rd ra imm) s) rd (s.getA ra + imm)
      ∧ ScalarWrite s (exec (.asub d ra rb) s) d (s.getA ra - s.getA rb)
      ∧ AddrWrite s (exec (.aidx rd ra b sh) s) rd (s.getA ra + s.getS b * 2 ^ sh.val)
      ∧ AddrWrite s (exec (.awrap rd ra stp k) s) rd
          (BitVec.ofInt 64 ((A / 2 ^ k.val * 2 ^ k.val : Nat) + ((A % 2 ^ k.val : Nat) + stp.toInt) % 2 ^ k.val))
      ∧ (len ≠ 0 → ∃ v : Int, AddrWrite s (exec (.abnd rd ra rb stp len) s) rd (BitVec.ofInt 64 v)
          ∧ ((s.getA rb).toNat : Int) - len.toNat ≤ v ∧ v < (s.getA rb).toNat
          ∧ (len.toNat : Int) ∣ (A : Int) + stp.toInt - v)
      ∧ AddrWrite s (exec (.aalign rd ra k false) s) rd (BitVec.ofNat 64 (A / 2 ^ k.val * 2 ^ k.val))
      ∧ AddrWrite s (exec (.aalign rd ra k true) s) rd (BitVec.ofNat 64 ((A + (2 ^ k.val - 1)) % 2 ^ 64 / 2 ^ k.val * 2 ^ k.val)))

/-! ## Control transfer (R58-R62) -/

/-- R58, R59: branches, calls and returns; a call writes pc + 16; a register target with a low bit set raises PC_ALIGN and writes nothing. -/
def Obligations.BranchResult : Prop :=
  ∀ (s : State) (d a : AReg) (disp : Word),
    let calls := fun (o : Out) (target : Word) => ∃ t, o = .next t ∧ OnlyStrand s t
      ∧ t.st = { s.st with a := t.st.a, pc := target, forced := none } ∧ WritesA s.st t.st d (s.st.pc + 16)
    JumpsTo s (exec (.br disp) s) (s.st.pc + 16 * disp)
    ∧ calls (exec (.call d disp) s) (s.st.pc + 16 * disp)
    ∧ ((s.getA a).toNat % 16 = 0 → JumpsTo s (exec (.brr a) s) (s.getA a) ∧ JumpsTo s (exec (.ret a) s) (s.getA a)
        ∧ calls (exec (.callr d a) s) (s.getA a))
    ∧ ((s.getA a).toNat % 16 ≠ 0 → TakesTrap s (exec (.brr a) s) 0x05 0 0 ∧ TakesTrap s (exec (.ret a) s) 0x05 0 0
        ∧ TakesTrap s (exec (.callr d a) s) 0x05 0 0)

/-- R44, R60, R62: a loop start sets the loop's registers and makes it the youngest; a count of 0, and LBREAK, go past the instruction at the
loop's end, and where the word there cannot be fetched the fault is taken at that address, with the effect made (log 8); LCGET, LCSET.
`successor` is the address after the instruction at an address.
R23, R61, the repeat rule of an instruction of n words at pc: where no active loop ends at one of its words the pc moves past the instruction; where loop j
does, has more than one turn left, and every younger active loop ending there has one, control goes to its start, its counter falls by one and the
younger ones end; where every active loop ending there has one turn left, all end and the pc moves past. No other register changes. -/
def Obligations.LoopControl : Prop :=
  (∀ (s : State) (d : LReg) (r : SReg) (last count : BitVec 32),
      let past := fun (o : Out) (stop : Word) (u : Strand → Word → Strand → Prop) =>
        (∀ p, s.successor stop = .ok p → ∃ t, o = .next t ∧ OnlyStrand s t ∧ u s.st p t.st)
        ∧ ∀ e code info, s.successor stop = .error e → e.cause true false = some (code, info) → e ≠ .memUe → e ≠ .memIntegrity →
            ∃ k, u s.st stop k ∧ TakesTrapWith (s.modSt fun _ => k) o { cause := causeWord 0 info code, ret := stop, addr := stop, force := false, out := false }
      let started := fun (n : BitVec 32) (t : Strand) (pc : Word) (k : Strand) =>
        k = { t with loopStart := t.loopStart.set d (t.pc + 16), loopEnd := t.loopEnd.set d (t.pc + 16 * last.setWidth 64),
                     loopAge := k.loopAge, lc := t.lc.set d n, forced := none, pc := pc }
        ∧ (∀ j, j ≠ d → k.loopAge[j] = t.loopAge[j] ∧ t.loopAge[j] < k.loopAge[d])
      let starts := fun (o : Out) (n : BitVec 32) =>
        (n ≠ 0 → ∃ t, o = .next t ∧ OnlyStrand s t ∧ started n s.st (s.st.pc + 16) t.st)
        ∧ (n = 0 → past o (s.st.pc + 16 * last.setWidth 64) (started n))
      starts (exec (.loop d r last) s) ((s.getS r).setWidth 32)
      ∧ starts (exec (.loopi d last count) s) count
      ∧ ScalarWrite s (exec (.lcget r d) s) r ((s.st.getL d).setWidth 64)
      ∧ (∃ t, exec (.lcset d r) s = .next t ∧ OnlyStrand s t
          ∧ (∀ u : Strand, u = { s.st with lc := s.st.lc.set d ((s.getS r).setWidth 32), loopAge := t.st.loopAge } → t.st = u.retire 1)
          ∧ ((s.getS r).setWidth 32 = 0#32 → t.st.loopAge = s.st.loopAge)
          ∧ ((s.getS r).setWidth 32 ≠ 0#32 → ∀ j, j ≠ d → t.st.loopAge[j] = s.st.loopAge[j] ∧ s.st.loopAge[j] < t.st.loopAge[d]))
      ∧ past (exec (.lbreak d) s) s.st.loopEnd[d] fun t pc k => k = { t with lc := t.lc.set d 0, pc := pc, forced := none })
  ∧
  (∀ (t : Strand) (n : Nat),
      let here := fun j : LReg => t.lc[j] ≠ 0 ∧ ∃ k < n, t.loopEnd[j] = t.pc + BitVec.ofNat 64 (16 * k)
      let next := t.pc + BitVec.ofNat 64 (16 * n)
      (t.retire n = { t with lc := (t.retire n).lc, pc := (t.retire n).pc, forced := none })
      ∧ ((∀ j, here j → t.lc[j] = 1) → (t.retire n).pc = next ∧ ∀ j : LReg, (t.retire n).lc[j] = if here j then 0 else t.lc[j])
      ∧ ∀ j, here j → t.lc[j] > 1 → (∀ k, k ≠ j → here k → t.loopAge[k] ≠ t.loopAge[j] ∧ (t.loopAge[k] > t.loopAge[j] → t.lc[k] = 1)) →
          (t.retire n).pc = t.loopStart[j]
          ∧ ∀ k : LReg, (t.retire n).lc[k] =
              if k = j then t.lc[j] - 1 else if here k ∧ t.loopAge[k] > t.loopAge[j] then 0 else t.lc[k])

/-! ## The folio, stopping, strand barriers (R63, R64, R69-R71, R104) -/

/-- R69-R71, STOP, YIELD and SBAR: a stopped strand keeps its pc; YIELD moves on and gives up the next turn; SBAR completes exactly when every other named live
strand has arrived as often as this one, else the strand waits with its arrival counted once. -/
def Obligations.StopYieldSbarResult : Prop :=
  ∀ (s : State) (mask : BitVec 4),
    (∃ t, exec .stop s = .next t ∧ OnlyCtx s t ∧ t.st = { s.st with stopped := true, forced := none }
      ∧ t.cx = { s.cx with strands := t.cx.strands, phase := t.cx.phase } ∧ (∀ j : Fin 4, j ≠ strandIx s.focus → t.cx.strands[j] = s.cx.strands[j])
      ∧ ((∃ j : Fin 4, j ≠ strandIx s.focus ∧ s.cx.strands[j].live = true) → t.cx.phase = s.cx.phase))
    ∧ (∃ t, exec .yield s = .next t ∧ OnlyStrand s t ∧ t.st = { s.st.retire 1 with yielded := true })
    ∧ let count := if s.st.sbarArrived then s.st.sbarCount else s.st.sbarCount + 1
      let missing := ∃ j : Fin 4, j ≠ strandIx s.focus ∧ mask.getLsbD j.val = true ∧ s.cx.strands[j].live = true ∧ s.cx.strands[j].sbarCount < count
      ∃ t, exec (.sbar mask) s = .next t ∧ OnlyStrand s t
        ∧ (missing → t.st = { s.st with sbarArrived := true, sbarCount := count, wait := some (.sbar mask) })
        ∧ (¬ missing → t.st = { s.st.retire 1 with sbarArrived := false, sbarCount := count, wait := none })

/-! ## Control registers (R50, R65-R67, R75, R106-R108, R89, R352, R370, R426) -/

/-- R65, R67, CRR: a read at the register's privilege writes the register's value; below it the read raises PRIV_FAULT. The values of the
registers of the control subset and of the trap chapter are spelled out.
R7, R50, R65, a CRW, CRS or CRC of cr.arith (number 0): dz takes the new value, a 1 written by CRW to a sticky flag clears it, and CRS and CRC
leave the flags as they are and write the old word to sD. A CRW of the trap entry (0x100) clears bits [3:0]; a CRW of cr.time, an RO register (0x001), changes nothing but the pc. -/
def Obligations.ControlRegisterAccess : Prop :=
  (∀ (s : State) (d : SReg) (n : BitVec 16) (r : CReg), CReg.ofNum n = some r →
      (s.cx.priv.val < r.level false → TakesTrap s (exec (.crr d n) s) 0x02 0 0)
      ∧ (r.level false ≤ s.cx.priv.val → crReadOk s r = true → ScalarWrite s (exec (.crr d n) s) d (crRead s r))
      ∧ (r.level false ≤ s.cx.priv.val → crReadOk s r = false → TakesTrap s (exec (.crr d n) s) 0x02 0 0)
      ∧ (∀ k < 64, (crRead s .arith).getLsbD k =
          ((decide (k = 10) && s.st.satf) || (decide (k = 9) && s.st.dof) || (decide (k = 8) && s.st.dzf) || (decide (k = 0) && s.st.dz)))
      ∧ crRead s .time = BitVec.ofNat 64 s.time ∧ crRead s .idCore = BitVec.ofNat 64 s.focus.core
      ∧ (∀ i, crRead s (.loopStart i) = s.st.loopStart[i] ∧ crRead s (.loopEnd i) = s.st.loopEnd[i])
      ∧ crRead s .trapEntry = s.st.entry ∧ crRead s .trapLevel = BitVec.ofNat 64 s.st.level.val
      ∧ crRead s (.cause 0) = s.st.bank1.cause ∧ crRead s (.ret 0) = s.st.bank1.ret ∧ crRead s (.addr 0) = s.st.bank1.addr
      ∧ crRead s (.cause 1) = s.st.bank2.cause ∧ crRead s (.ret 1) = s.st.bank2.ret ∧ crRead s (.addr 1) = s.st.bank2.addr
      ∧ crRead s .priv = BitVec.ofNat 64 s.cx.priv.val)
  ∧
  (∀ (s : State) (d a : SReg),
      (∃ t, exec (.crw a 0x000) s = .next t ∧ OnlyStrand s t
        ∧ t.st = { s.st.retire 1 with dz := (s.getS a).getLsbD 0, dzf := s.st.dzf && !(s.getS a).getLsbD 8,
                                      dof := s.st.dof && !(s.getS a).getLsbD 9, satf := s.st.satf && !(s.getS a).getLsbD 10 })
      ∧ (∃ t, exec (.crs d a 0x000) s = .next t ∧ OnlyStrand s t
        ∧ t.st = { s.st.retire 1 with s := t.st.s, dz := s.st.dz || (s.getS a).getLsbD 0 } ∧ WritesS s.st t.st d s.st.arith)
      ∧ (∃ t, exec (.crc d a 0x000) s = .next t ∧ OnlyStrand s t
        ∧ t.st = { s.st.retire 1 with s := t.st.s, dz := s.st.dz && !(s.getS a).getLsbD 0 } ∧ WritesS s.st t.st d s.st.arith)
      ∧ (∃ t, exec (.crw a 0x100) s = .next t ∧ OnlyStrand s t ∧ t.st = { s.st.retire 1 with entry := s.getS a &&& ~~~0xF })
      ∧ ∃ t, exec (.crw a 0x001) s = .next t ∧ OnlyStrand s t ∧ t.st = s.st.retire 1)

/-- The rows of the opcode table that write a core's own registers (R72, R74, R75, R106, R108, R89, R352, R370), at the privilege their chapter names.
An invalidation drops what names the translations it covers: only stores held for a commit were translated earlier, and those are made anew (R184).
The rows that write registers of the package, of a die, of a VI and of the currency tree (R184, R189, R352, R370, R415, R423, R426).
R370, a leaf of the strand's own or selected context is pinned or released at once while it is resident; R415, a key load fills a slot that is not LIVE
where its blob unwraps and else reports BAD; R368, a plane load leaves alone every core its mask does not name. -/
def Obligations.SpecialRegisterWrites : Prop :=
  (∀ (s : State) (a : SReg),
      let v := s.getS a
      AtLevel s 2 (exec (.folioDiagWrite a) s)
        (if v.getLsbD 0 ∧ ¬(s.co.slots.length = 1 ∧ s.cx.leaves.length = 96 ∧ s.cx.leaves.all (·.phys.isSome)) then s.retire
         else (s.modCx fun x => { x with diag := v.getLsbD 0 }).retire)
      ∧ (recordOk v = false ∨ (s.co.repair.any fun r => fld r 63 40 = fld v 63 40) = true → AtLevel s 2 (exec (.repairPut a) s) (s.modCo id).retire)
      ∧ (recordOk v = true → (s.co.repair.any fun r => fld r 63 40 = fld v 63 40) = false →
          AtLevel s 2 (exec (.repairPut a) s)
            (s.modCo fun k => if k.repair.length < 16 then { k with repair := k.repair ++ [v] } else { k with ovf := true }).retire)
      ∧ (v.getLsbD 8 = true → v.getLsbD 9 = false → AtLevel s 2 (exec (.repairTableClear a) s)
          (s.modCo fun k => { k with repairSel := v.extractLsb' 0 4, repair := [], ovf := false }).retire)
      ∧ (v.getLsbD 9 = true → v.getLsbD 8 = false → AtLevel s 2 (exec (.summaryClear a) s)
          (s.modCo fun k => { k with repairSel := v.extractLsb' 0 4, done := false, fail := false, semok := false, vecok := false, folok := false }).retire)
      ∧ AtLevel s 2 (exec (.folioInjectWrite a) s)
          (s.modCo fun k => if fld v 54 48 > 95 then k else { k.unstick with inject := v &&& 0xC07FFF000000E03F }).retire
      ∧ AtLevel s 0 (exec (.hintModeWrite a) s) (s.modCx fun x => { x with trusted := v.getLsbD 0 }).retire
      ∧ AtLevel s 1 (exec (.tduCtlWrite a) s)
          (s.modCo fun k =>
            { k with stall := BitVec.ofNat 16 (max 1 (fld v 63 48)), bcap := BitVec.ofNat 32 (max 256 (fld v 47 16)),
                     shlim := BitVec.ofNat 8 (min 224 (fld v 15 8)),
                     lanes := if fld v 2 0 = 0 ∨ 4 < fld v 2 0 then k.lanes else BitVec.ofNat 3 (fld v 2 0) }).retire
      ∧ AtLevel s 1 (exec (.preCtlWrite a) s)
          (s.modCo fun k => { k with grace := BitVec.ofNat 32 (max 1 (fld v 63 32)), killt := BitVec.ofNat 32 (max 1 (fld v 31 0)) }).retire
      ∧ (∀ i : Fin 12, fld v 63 60 = i.val → v.getLsbD 58 = true → AtLevel s 1 (exec (.poolBlockSet a) s)
          (s.modCo fun k => if k.pool[i].st = .inuse then k
            else { k with poolSel := v.extractLsb' 60 4, pool := k.pool.set i { st := .free, ma := v &&& 0x000FFFFFFFE00000 } }).retire))
  ∧
  (∀ (s : State) (a : SReg),
      let v := s.getS a
      let n := s.st.curSel.toNat
      AtLevel s 2 (exec (.powerLimitWrite a) s) { s with powerLimit := BitVec.ofNat 16 (max 1600 (min 3200 (fld v 15 0))) }.retire
      ∧ AtLevel s 2 (exec (.thermLimitWrite a) s) { s with thot := BitVec.ofNat 8 (max 70 (min 105 (fld v 7 0))) }.retire
      ∧ AtLevel s 1 (exec (.frameSelect a) s)
          (s.modDi fun d => { d with frameSel := v &&& 0x000FFFFFFFFFF000, frameHere := decide (fld v 51 48 = s.here % 4) }).retire
      ∧ AtLevel s 1 (exec (.viLogWrite a) s)
          (s.setVi { s.viAt with logRes := v.getLsbD 63, logOrd := v.extractLsb' 52 4, logBase := v &&& 0x000FFFFFFFFFFFC0 }).retire
      ∧ (fld v 7 6 = 0 → AtLevel s 0 (exec (.xlateInval a) s) s.retire)
      ∧ (fld v 7 6 < 2 ∨ 1 ≤ s.cx.priv.val → (∀ c ∈ s.contexts, ∀ t ∈ c.2.tasks, t.2.stores = []) → AtLevel s 0 (exec (.xlateInval a) s) s.retire)
      ∧ (fld v 7 6 ≠ 0 → fld v 7 6 < 2 ∨ 1 ≤ s.cx.priv.val → exec (.xlateInval a) s =
          .next (renewStores s (invalNames (if v.extractLsb' 48 16 = 0xFFFF then s.here else (v.extractLsb' 48 16).toNat)
            (if fld v 7 6 = 1 then s.cx.asid else s.st.xlateTarget) v)).retire)
      ∧ (2 ≤ fld v 7 6 → s.cx.priv.val = 0 → TakesTrap s (exec (.xlateInval a) s) 0x02 0 0)
      ∧ (n > 1 → v.getLsbD 63 = true → SMap.find s.currencies n = none → ∀ p, s.currency (fld v 59 48) = some p → p.level.val ≤ 2 →
          AtLevel s 1 (exec (.currencyCreate a) s)
            { s with currencies := SMap.set s.currencies n ⟨Fin.ofNat 4 (p.level.val + 1), v.extractLsb' 48 12, v.extractLsb' 0 32⟩ }.retire)
      ∧ (n > 1 → v.getLsbD 63 = true → ∀ c, SMap.find s.currencies n = some c →
          AtLevel s 1 (exec (.currencyRateWrite a) s)
            { s with currencies := SMap.set s.currencies n { c with rate := v.extractLsb' 0 32 } }.retire)
      ∧ (n > 1 → v.getLsbD 63 = false → currencyUsed s n = false →
          AtLevel s 1 (exec (.currencyDelete a) s) { s with currencies := SMap.erase s.currencies n }.retire))
  ∧
  (∀ (s : State) (a : SReg),
      let v := s.getS a
      (∀ ref x l, s.selected = some ref → s.findCtx ref = some x → x.leaves[fld v 6 0]? = some l →
        (v.getLsbD 8 = true → l.phys.isSome = true →
          AtLevel s 1 (exec (.leafPin a) s) (s.putCtx ref (x.setLeaf (fld v 6 0) { l with pinned := true })).retire)
        ∧ (v.getLsbD 8 = false →
          AtLevel s 1 (exec (.leafUnpin a) s) (s.putCtx ref (x.setLeaf (fld v 6 0) { l with pinned := false })).retire))
      ∧ (v.getLsbD 63 = true → v.getLsbD 62 = false → (SMap.get {} s.keys (fld v 10 0)).st ≠ .live →
          let u := keyUnwrap (keyBytes (Config.wrapKey.setWidth 768) 0) 12 (s.readMa s.pkgOwner (fld s.st.keySrc 51 6 * 64) 104)
          1 ≤ s.cx.priv.val → ∃ t, exec (.keyLoad a) s = .next t
            ∧ (u.1 = List.replicate 8 0xA6 →
                t = { s with keys := SMap.set s.keys (fld v 10 0) { st := .live, prot := false, keys := BitVec.ofNat 768 (leNat u.2) } }.modSt (fun _ => t.st))
            ∧ (u.1 ≠ List.replicate 8 0xA6 → t = s.modSt (fun _ => t.st))
            ∧ (∀ k, t.rawByte k = s.rawByte k)
            ∧ t.st = { s.st.retire 1 with keySel := v.extractLsb' 0 11, keyProt := false, keyBad := u.1 != List.replicate 8 0xA6 })
      ∧ (2 ≤ s.cx.priv.val → ∃ t, exec (.planeLoad a) s = .next t ∧ (∀ k, t.rawByte k = s.rawByte k)
          ∧ ∀ c, c ≠ s.focus.core → (leNat ((s.readMa s.pkgOwner (fld v 51 6 * 64) 64).drop 16)).testBit c = false → t.core c = s.core c))

/-! ## Traps, banks and the kill (R140-R142, R154-R160) -/

/-- R140, R154, R157, TRAP: the strand goes to its entry one level up; the bank holds class T, code 4 with the instruction's own code as INFO,
the address after the TRAP, no data address, and a guard that is not forced; at level 2 it kills the context as every escalating trap does. R141, TRET: TRAP_STATE at level 0; else the pc and the
forced guard of the level's bank, one level down, operand latches empty.
R142, BKR and BKW: the fields of the bank of the current level, zero at level 0; a write of the return address clears bits [3:0] and a
write of the guard keeps two bits, in that bank alone; at level 0 a write raises TRAP_STATE. -/
def Obligations.TrapAndBanks : Prop :=
  (∀ (s : State) (code : BitVec 16),
      TakesTrapWith s (exec (.trap code) s) { cause := causeWord 0 code.toNat 0x04, ret := s.st.pc + 16, addr := 0, force := false, out := false }
      ∧ (s.st.level = 2 → exec (.trap code) s = .next (killCtx s (strandCtx s.focus) 0x30 0x04 (s.st.pc + 16) 0 (some (strandIx s.focus))))
      ∧ (s.st.level = 0 → TakesTrap s (exec .tret s) 0x03 0 0)
      ∧ (s.st.level = 2 → ∃ t, exec .tret s = .next t ∧ OnlyStrand s t
          ∧ t.st = { s.st with level := 1, pc := s.st.bank2.ret &&& ~~~0xF, latches := [], tracer := {},
                               forced := if s.st.bank2.force then some s.st.bank2.out else none })
      ∧ (s.st.level = 1 → ∃ t, exec .tret s = .next t ∧ OnlyCtx s t
          ∧ t.st = { s.st with level := 0, pc := s.st.bank1.ret &&& ~~~0xF, latches := [], tracer := {},
                               forced := if s.st.bank1.force then some s.st.bank1.out else none }
          ∧ (s.cx.heldFor (strandIx s.focus).val = [] → OnlyStrand s t)))
  ∧
  (∀ (s : State) (d a : SReg),
      let b := if s.st.level = 2 then s.st.bank2 else s.st.bank1
      let at0 := fun v : Word => if s.st.level = 0 then 0 else v
      ScalarWrite s (exec (.bkr d .cause) s) d (at0 b.cause)
      ∧ ScalarWrite s (exec (.bkr d .ret) s) d (at0 b.ret)
      ∧ ScalarWrite s (exec (.bkr d .addr) s) d (at0 b.addr)
      ∧ ScalarWrite s (exec (.bkr d .guard) s) d (at0 ((if b.force then 2 else 0) ||| if b.out then 1 else 0))
      ∧ ScalarWrite s (exec (.bkr d .level) s) d (BitVec.ofNat 64 s.st.level.val)
      ∧ ∀ f v, (f = .ret ∧ v = { b with ret := s.getS a &&& ~~~0xF })
            ∨ (f = .guard ∧ v = { b with force := (s.getS a).getLsbD 1, out := (s.getS a).getLsbD 0 }) →
          (s.st.level = 0 → TakesTrap s (exec (.bkw a f) s) 0x03 0 0)
          ∧ (s.st.level ≠ 0 → ∃ t, exec (.bkw a f) s = .next t ∧ OnlyStrand s t
              ∧ t.st = { s.st.retire 1 with bank1 := if s.st.level = 2 then s.st.bank1 else v,
                                            bank2 := if s.st.level = 2 then v else s.st.bank2 }))

/-! ## Page service, handles, tickets, keys, events (R143-R148, R183, R187) -/

/-- R143, R181, R182, page service on a page that both stages map: `.touch` of a resident page is done at once and of an absent one asks the
owner and waits; `.pin` and `.unpin` count the frame's pins and answer PIN_LIMIT at their ends; `.query` writes the page's word; `.alloc` of a
page already valid is done. A page that is not valid answers NOT_VALID, or 0 to a query
whose owner exists (log 77); where a page of the tables is not resident, the owner is asked for it and the strand waits.
R183, `.alloc` of a demand page whose pool's last frame is usable: the frame leaves the pool, is zeroed, and every entry of the page's group
is written valid with it, permissions, software bits and size kept; the status is DONE. -/
def Obligations.PageService : Prop :=
  (∀ (s : State) (d : SReg) (a : AReg),
      let va := s.getA a
      (∀ x, s.page va = .ok x →
        (x.resident = true → Completes s (exec (.pgsvcTouch d a) s) (s.status d 0))
        ∧ (x.resident = false → exec (.pgsvcTouch d a) s = .next (askResident s s.agent va).hold)
        ∧ (x.resident = true → (s.frameOf x).pin ≠ BitVec.allOnes 16 →
            Completes s (exec (.pgsvcPin d a) s) ((s.modFrame x fun f => { f with pin := f.pin + 1, size := max f.size (leafSize x.hent) }).status d 0))
        ∧ (x.resident = true → (s.frameOf x).pin = BitVec.allOnes 16 → Completes s (exec (.pgsvcPin d a) s) (s.status d 4))
        ∧ ((s.frameOf x).pin ≠ 0 → Completes s (exec (.pgsvcUnpin d a) s) ((s.modFrame x fun f => { f with pin := f.pin - 1 }.rest).status d 0))
        ∧ ((s.frameOf x).pin = 0 → Completes s (exec (.pgsvcUnpin d a) s) (s.status d 4))
        ∧ Completes s (exec (.pgsvcQuery d a) s)
            (s.status d ((va &&& ~~~(BitVec.ofNat 64 (2 ^ (12 + x.code) - 1))) ||| BitVec.ofNat 64 x.code <<< 8
              ||| bw (decide ((s.frameOf x).pin ≠ 0)) 2 ||| bw (decide (fld x.hent 63 62 = 1 ∧ fld x.hent 51 48 < 4)) 1 ||| 1)))
      ∧ (∀ e, s.page va = .error e → e ≠ .absent → e ≠ .held →
        Completes s (exec (.pgsvcTouch d a) s) (s.status d 3) ∧ Completes s (exec (.pgsvcPin d a) s) (s.status d 3)
        ∧ Completes s (exec (.pgsvcUnpin d a) s) (s.status d 3)
        ∧ Completes s (exec (.pgsvcQuery d a) s) (s.status d (if s.pageOwner va = none then 3 else 0)))
      ∧ (s.page va = .error .absent → ∀ o ∈ [exec (.pgsvcTouch d a) s, exec (.pgsvcPin d a) s, exec (.pgsvcUnpin d a) s, exec (.pgsvcQuery d a) s],
        o = .next (askResident s s.agent va).hold)
      ∧ (s.pageOwner va = none → Completes s (exec (.pgsvcAlloc d a) s) (s.status d 3))
      ∧ ∀ o ia t, s.pageOwner va = some o → descOk (s.desc o s.cx.asid) = true → s.tenWalk o s.cx.asid (fld va 47 0) = .ok (ia, t) →
          (fld t 63 62 = 1 → tenZero t = true → baseAligned t = true → Completes s (exec (.pgsvcAlloc d a) s) (s.status d 0))
          ∧ (fld t 63 62 ≠ 1 → demandOk t = false → Completes s (exec (.pgsvcAlloc d a) s) (s.status d 1)))
  ∧
  (∀ (s : State) (d : SReg) (a : AReg) (o ia : Nat) (t e : Word) (n : Nat) (pieces : List (Nat × Word)),
      let desc := s.desc o s.cx.asid
      let off := fld (s.getA a) 47 0
      let size := leafSize t
      let record := fld desc[2] 51 6 * 64 + 16 * size
      let list := leNat (s.readMa o record 8)
      s.pageOwner (s.getA a) = some o → descOk desc = true → s.tenWalk o s.cx.asid off = .ok (ia, t) → demandOk t = true →
      groupAway s o s.cx.asid off size = none →
      leNat (s.readMa o (record + 8) 4) = n + 1 → leWord (s.readMa o (list + 8 * n) 8) = e →
      framePieces s o desc e.toNat size = some pieces →
      (∀ p ∈ pieces, holdCount s (maDie o (fld p.2 51 0)) (fld p.2 51 48 * 2 ^ 48 + fld p.2 47 12 * 4096 + p.1 % 2 ^ (12 + leafSize p.2)) 4096 = 0) →
      let rest := (List.range n).flatMap fun i => leBytes 8 (leWord (s.readMa o (list + 8 * i) 8)).toNat
      let s1 := (s.writeMa o list rest).writeMa o (record + 8) (leBytes 4 n)
      let s2 := zeroPieces s1 o s.cx.asid ((framePieces s1 o desc e.toNat size).getD [])
      exec (.pgsvcAlloc d a) s = .next (((tenGroup s2 o s.cx.asid off size).foldl
        (fun u k => writeTenant u o s.cx.asid k (1#64 <<< 62 ||| (t &&& 0x3CF0000000000FFF) ||| (e &&& 0x0000FFFFFFFFF000))) s2).status d 0))

/-- R145, TKSET, CURSET and RSEED; R146, KZERO: tickets of 1 to 2^32 - 1, a currency's rate under the privilege its level needs, the three draw
units seeded, a key slot emptied; TICKET_RANGE, CURRENCY_UNKNOWN, PRIV_FAULT and BAD_TARGET otherwise. -/
def Obligations.TicketSeedKeyResult : Prop :=
  ∀ (s : State) (d a b : SReg),
    let v := s.getS a
    let r := s.getS b
    let k : KeySlot := SMap.get {} s.keys v.toNat
    (1 ≤ v.toNat → v.toNat < 2 ^ 32 → Completes s (exec (.tkset a) s) (s.modCx fun x => { x with tickets := v.setWidth 32 }).retire)
    ∧ (v.toNat = 0 ∨ 2 ^ 32 ≤ v.toNat → TakesTrap s (exec (.tkset a) s) 0x12 0 0)
    ∧ (2 ^ 16 ≤ v.toNat ∨ 2 ^ 32 ≤ r.toNat → TakesTrap s (exec (.curset a b) s) 0x12 0 0)
    ∧ (v.toNat < 2 ^ 16 → r.toNat < 2 ^ 32 → s.currency v.toNat = none → TakesTrap s (exec (.curset a b) s) 0x13 0 0)
    ∧ (∀ c, v.toNat < 2 ^ 16 → r.toNat < 2 ^ 32 → s.currency v.toNat = some c → cursetOk s v.toNat c = true → v.toNat ≠ 1 →
        Completes s (exec (.curset a b) s) { s with currencies := SMap.set s.currencies v.toNat { c with rate := r.setWidth 32 } }.retire)
    ∧ (1 ≤ s.cx.priv.val ∨ s.co.slots.length = 1 → Completes s (exec (.rseed a) s)
        (s.modCo fun k => { k with tdu := Vector.replicate 3 ⟨v ^^^ 0x9E3779B97F4A7C15, v.rotateLeft 31 ^^^ 0xD1B54A32D192ED03, 0⟩ }).retire)
    ∧ (¬(1 ≤ s.cx.priv.val ∨ s.co.slots.length = 1) → TakesTrap s (exec (.rseed a) s) 0x02 0 0)
    ∧ (2047 < v.toNat → AtLevel s 1 (exec (.kzero d a) s) (s.status d 5))
    ∧ (v.toNat ≤ 2047 → k.prot = false ∨ 2 ≤ s.cx.priv.val → AtLevel s 1 (exec (.kzero d a) s)
        ({ s with keys := SMap.set s.keys v.toNat ⟨if k.st = KeyState.live then KeyState.zeroised else k.st, k.prot, 0⟩ }.status d 0))

/-- R147, R421, R422, BLOT and BLWAIT: a readable valid descriptor is queued; in a queue of fewer than 16 jobs it joins the end and answers its number, an invalid one answers
all ones but 0; BLWAIT waits for a listed job and otherwise answers the die's progress. R148, WFE: with the latch set it answers the reasons
and clears both, else it waits, with a deadline where its operand is not 0. -/
def Obligations.BlotterEventResult : Prop :=
  ∀ (s : State) (d b : SReg) (a : AReg) (r : SReg),
    let ea := s.getA a
    (1 ≤ s.cx.priv.val → ea.toNat % 64 = 0 → ∀ xs hb, s.readVa s.agent .rd ea 16 = .ok (xs, hb) → hostWaits s s.cx xs false = false →
      let s1 := counted s xs false 16
      (blotHeader (leWord (hb.take 8)) (leWord (hb.drop 8)) = none → exec (.blot d a) s = .next (s1.status d 0xFFFFFFFFFFFFFFFE))
      ∧ ∀ n ys bs es, blotHeader (leWord (hb.take 8)) (leWord (hb.drop 8)) = some n → s1.readVa s1.agent .rd (ea + 16) (16 * n) = .ok (ys, bs) →
          hostWaits s1 s1.cx ys false = false → parseExtents (s.here % 4) n (wordsOf bs) = some es → unitsOf es < 2 ^ 24 →
          let s2 := counted s1 ys false (16 * n)
          exec (.blot d a) s = .next (queueJob s2 d es))
    ∧ (1 ≤ s.cx.priv.val → ea.toNat % 64 ≠ 0 → TakesTrap s (exec (.blot d a) s) 0x07 0 ea)
    ∧ (s.di.blotJobs.length < 16 → ∀ es, ∃ t, queueJob s d es = t ∧ (∀ k, t.rawByte k = s.rawByte k)
        ∧ t.getS d = (if d = 0 then 0 else s.di.blotNext.setWidth 64)
        ∧ t.di.blotJobs = s.di.blotJobs ++ [{ num := s.di.blotNext, extents := es.map (·.1) }])
    ∧ ((s.di.blotJobs.any fun j => decide (j.num.toNat = (s.getS b).toNat)) = false →
        AtLevel s 1 (exec (.blwait d b r) s) (s.status d (crRead s .blotProgress)))
    ∧ ((s.di.blotJobs.any fun j => decide (j.num.toNat = (s.getS b).toNat)) = true →
        AtLevel s 1 (exec (.blwait d b r) s) (s.modSt fun t =>
          { t with wait := some (.blot d (s.getS b).toNat (if s.getS r = 0 then none else some (s.time + (s.getS r).toNat))) }))
    ∧ (s.st.latch = true → ∃ t, exec (.wfe d b) s = .next t ∧ OnlyStrand s t
        ∧ t.st = { s.st.retire 1 with s := t.st.s, latch := false, reasons := 0 } ∧ WritesS s.st t.st d (s.st.reasons.setWidth 64))
    ∧ (s.st.latch = false → ∃ t, exec (.wfe d b) s = .next t ∧ OnlyStrand s t
        ∧ t.st = { s.st with wait := some (.event d (if s.getS b = 0 then none else some (s.time + (s.getS b).toNat))) })

/-! ## Managing contexts (R149, R358-R365, R427) -/

/-- R154, R160: a strand trap at level 2 kills the context with NEST_KILL and the code that escalated, and a context that is killed, whatever
the cause, is no longer in its slot; a trap only escalates from level 2 (log 114).
R149, R358, R427, CTXCTL on a target that is a context other than the issuer's own: a request of intent PREEMPT or HALT, a kill with HYP_KILL,
a resumption of a halted one; the statuses NOT_HALTED and PROTECTED, and for other names BAD_TARGET, SELF and NO_CONTEXT.
R358-R360: what a request does to a context that runs: PREEMPT opens the soft rung with the core's grace period, HALT enters the halt rung with its
kill timer; a context under diagnosis takes none. -/
def Obligations.ContextRequests : Prop :=
  (∀ (s : State) (ref : CtxRef) (cause : KillCause),
      (s.st.level = 2 → ∀ code info : Nat, ∀ addr : Word,
        s.trap code info addr = killCtx s (strandCtx s.focus) 0x30 (code % 256) s.st.pc addr (some (strandIx s.focus)))
      ∧ (∀ x, s.findCtx ref = some x → (∀ code, cause = .nest code → ∃ i : Fin 4, x.strands[i].level = 2) →
          ∃ t, exec (.contextKill ref cause) s = .next t ∧ t.findCtx ref = none)
      ∧ (∀ x code, s.findCtx ref = some x → (∀ i : Fin 4, x.strands[i].level ≠ 2) → exec (.contextKill ref (.nest code)) s = .next s)
      ∧ (s.findCtx ref = none → exec (.contextKill ref cause) s = .next s))
  ∧
  (∀ (s : State) (d a : SReg), 1 ≤ s.cx.priv.val →
      let all := [exec (.ctxctlSoft d a) s, exec (.ctxctlHalt d a) s, exec (.ctxctlKill d a) s, exec (.ctxctlResume d a) s]
      (ctxOfName s (s.getS a).toNat = none → ∀ o ∈ all, Completes s o (s.status d 5))
      ∧ ∀ ref, ctxOfName s (s.getS a).toNat = some ref →
          (ref = .resident s.focus.core s.focus.slot → ∀ o ∈ all, Completes s o (s.status d 12))
          ∧ (ref ≠ .resident s.focus.core s.focus.slot → s.findCtx ref = none → ∀ o ∈ all, Completes s o (s.status d 7))
          ∧ (ref ≠ .resident s.focus.core s.focus.slot → ∀ x, s.findCtx ref = some x →
              exec (.ctxctlKill d a) s = .next ((killCtx s ref 0x32 0 x.killPc 0 none).status d 0)
              ∧ (x.prot = true → Completes s (exec (.ctxctlSoft d a) s) (s.status d 8) ∧ Completes s (exec (.ctxctlHalt d a) s) (s.status d 8)
                  ∧ Completes s (exec (.ctxctlResume d a) s) (s.status d 8))
              ∧ (x.prot = false → exec (.ctxctlSoft d a) s = .next ((requestCtx s ref .preempt).status d 0)
                  ∧ exec (.ctxctlHalt d a) s = .next ((requestCtx s ref .halt).status d 0))
              ∧ (x.prot = false → x.rung = .halted → Completes s (exec (.ctxctlResume d a) s)
                  ((s.putCtx ref { x with rung := .running, intent := none, graceAt := none, killAt := none }).status d 0))
              ∧ (x.prot = false → x.rung ≠ .halted → x.rung ≠ .shadowed → Completes s (exec (.ctxctlResume d a) s) (s.status d 6))))
  ∧
  (∀ (s : State) (ref : CtxRef) (x : Ctx), s.findCtx ref = some x →
      (x.diag = true → requestCtx s ref .preempt = s ∧ requestCtx s ref .halt = s)
      ∧ (x.diag = false → x.rung = .running → x.intent = none → ∃ y z,
          (requestCtx s ref .preempt).findCtx ref = some y ∧ y.rung = .soft ∧ y.intent = some .preempt
          ∧ y.graceAt = some (s.time + (s.core (refCore ref)).grace.toNat) ∧ y.killAt = x.killAt
          ∧ (requestCtx s ref .halt).findCtx ref = some z ∧ z.rung = .halting ∧ z.intent = some .halt ∧ z.graceAt = none
          ∧ z.killAt = some (s.time + (s.core (refCore ref)).killt.toNat)
          ∧ ∀ k, (requestCtx s ref .preempt).rawByte k = s.rawByte k ∧ (requestCtx s ref .halt).rawByte k = s.rawByte k))

/-- R149, R363-R365, CTXSV of a halted or shadowed context whose chains have ended, at a 4 KiB aligned address that can be written: the image and its
slots are written as one access and the context leaves its slot, with DONE; R149, R364, CTXLD of a genuine image into a free slot installs the saved
context. Misaligned addresses raise ADDR_ALIGN; a running context answers NOT_HALTED; no genuine image, BAD_IMAGE. -/
def Obligations.ContextImageResult : Prop :=
  ∀ (s : State) (d b : SReg) (a : AReg) (oc : Fin 16), 1 ≤ s.cx.priv.val →
    let ea := s.getA a
    (ea.toNat % 4096 ≠ 0 → TakesTrap s (exec (.ctxsv d a b oc) s) 0x07 0 ea ∧ TakesTrap s (exec (.ctxld d a b oc) s) 0x07 0 ea)
    ∧ (∀ ref x, ea.toNat % 4096 = 0 → ctxOfName s (s.getS b).toNat = some ref → ref ≠ .resident s.focus.core s.focus.slot →
        s.findCtx ref = some x → x.prot = false →
        (x.rung ≠ .halted → x.rung ≠ .shadowed → Completes s (exec (.ctxsv d a b oc) s) (s.status d 6))
        ∧ (x.rung = .halted ∨ x.rung = .shadowed → x.ductsIn = true → s.maHeld x.block.toNat 0x180000 = false →
            x.vPoison = [] → x.mPoison = [] → x.semPoison = [] → (s.core (refCore ref)).opPoison = [] →
            ∀ xs, s.writeVa s.agent ea (49152 + 8192 * x.opslots.length) = .ok xs →
              let s1 := countFlips (spillAll s ref) ref x
              ∀ y, s1.findCtx ref = some y →
              let body := imageBody s1 (refCore ref) y
              let slots := slotBytes (s1.core (refCore ref)) y
              let tag := Config.imageTag (body ++ slots)
              exec (.ctxsv d a b oc) s
                = .next (s1.withWrite ea (body ++ leBytes 32 tag.toNat ++ slots) fun u => (leaveSlot u ref y tag).status d 0)))
    ∧ (∀ ref, ea.toNat % 4096 = 0 → loadTarget s (s.getS b) = .ok ref →
        exec (.ctxld d a b oc) s = .next (s.withRead .rd ea 49152 fun s1 img => s1.withRead .rd (ea + 49152) (8192 * imageSlots img) fun s2 slots =>
          let k := s2.core (refCore ref)
          match s2.images.find? fun e => e.1.toNat == leNat ((img.drop 0xBFE0).take 32) with
          | none => s2.status d 9
          | some (_, x) =>
            if imageOk s2 img slots = false then s2.status d 9
            else match k.loadEntry with
              | none => s2.status d 11
              | some pe =>
                if k.freeSlots.length < imageSlots img then s2.status d 11
                else match gatherLeaves s2 (refCore ref) x.pinnedLeaves.length (.load s2.cx.uid (strandIx s2.focus).val) with
                  | (t, none) => t.hold
                  | (t, some phys) => (installCtx t ref x pe phys slots).status d 0))

/-! ## Memory (R113-R134, R172-R188, R411-R415) -/

/-- R115, R117, R118, LD: a misaligned address raises ADDR_ALIGN; a readable one loads its little-endian bytes, extended by the type, into sD or aD and
writes no memory; a failing one traps with its cause at the first failing byte, or waits where the page is absent.
R115, R117, R118, ST: exactly the access-size low bytes of the register are performed, little-endian, at the translated bytes of the effective address. -/
def Obligations.MemoryAccess : Prop :=
  (∀ (s : State) (d : SaReg) (ty : ETy) (m : MemOp), ty.inI = true →
      let n := ty.width / 8
      let ea := s.getA m.base + m.disp.signExtend 64
      (ea.toNat % n ≠ 0 → TakesTrap s (exec (.ld d ty m) s) 0x07 0 ea)
      ∧ (ea.toNat % n = 0 →
        (∀ xs bs, s.readVa s.agent .rd ea n = .ok (xs, bs) → hostWaits s s.cx xs false = false →
          Completes s (exec (.ld d ty m) s) ((counted s xs false n).setSA d (extend ty.width ty.isSigned (leNat bs))).retire)
        ∧ (∀ e a code info, s.readVa s.agent .rd ea n = .error (e, a) → e.cause false false = some (code, info) →
          exec (.ld d ty m) s = .next ((countError s s.agent e a).trap code info a))
        ∧ (∀ a, s.readVa s.agent .rd ea n = .error (.absent, a) → exec (.ld d ty m) s = .next (askResident s s.agent a).hold)))
  ∧
  (∀ (s : State) (b : SaReg) (ty : ETy) (m : MemOp), ty.inI = true →
      let n := ty.width / 8
      let ea := s.getA m.base + m.disp.signExtend 64
      (ea.toNat % n ≠ 0 → TakesTrap s (exec (.st b ty m) s) 0x07 0 ea)
      ∧ (ea.toNat % n = 0 →
        (∀ xs, s.writeVa s.agent ea n = .ok xs → hostWaits s s.cx xs true = false →
          exec (.st b ty m) s = .next ((counted s xs true n).perform (xs.zip ((List.range n).map fun i => (s.getSA b >>> (8 * i)).setWidth 8))).retire)
        ∧ ∀ e a code info, s.writeVa s.agent ea n = .error (e, a) → e.cause false false = some (code, info) →
          exec (.st b ty m) s = .next ((countError s s.agent e a).trap code info a)))

/-- R5, R117, the frame of a store: performing bytes of unencrypted pages whose D bits are set leaves each byte in its place and every other byte of
memory as it was. `e.1.key` is the address the store computes, `e.1.hkey + 7` the byte of the page's leaf entry that holds D.
R411, R412, R414, one byte of near memory written under a page's keys: read back under those keys it is the byte written and the tag passes; the other bytes
of its 64-byte sector read under those keys as they did; every other sector is untouched. -/
def Obligations.StoredBytes : Prop :=
  (∀ (s : State) (bs : List (Xl × Byte)),
      (∀ e ∈ bs, e.1.enc = none ∧ (s.sector e.1.key).keys = none ∧ (s.rawByte (e.1.hkey + 7)).getLsbD 2 = true) →
      (∀ e ∈ bs, ∀ f ∈ bs, e.1.key ≠ f.1.hkey + 7) → (bs.map fun e => e.1.key).Nodup →
        (∀ e ∈ bs, (s.perform bs).rawByte e.1.key = e.2) ∧ ∀ k, (∀ e ∈ bs, k ≠ e.1.key) → (s.perform bs).rawByte k = s.rawByte k)
  ∧
  (∀ (s : State) (k : Nat) (keys : BitVec 768) (b : Byte), keyNear k = true →
      let t := s.writeByte k (some keys) b
      t.clearByte keys k = b ∧ t.tagOk keys k = true
      ∧ ∀ j, j ≠ k → if j / 64 = k / 64 then t.clearByte keys j = s.clearByte keys j else t.rawByte j = s.rawByte j ∧ t.sector j = s.sector j)

/-- R119-R121, contiguous, strided and indexed vector loads from memory: where every enabled chunk's address is aligned and readable, each enabled lane takes
its bytes and the others keep their contents; a misaligned enabled address raises ADDR_ALIGN at the first such lane. -/
def Obligations.VectorLoadResult : Prop :=
  ∀ (s : State) (d b : VNum) (r : SReg) (ty : ETy) (sz : Fin 3) (scl : Bool) (m : VMemOp), m.folio = false →
    let g := 2 ^ sz.val
    let ea := s.getA m.mem.base + m.mem.disp.signExtend 64
    let loads := fun (out : Out) (g : Nat) (addrs : List Word) =>
      let want := addrs.zipIdx.map fun e => if s.chunkOn ty m.mask e.2 then some e.1 else none
      (∀ vals, s.readLanes s.agent (chunkBytes ty) want none = .ok vals →
        let xs := vals.filterMap fun v => v.map (·.1)
        hostWaits s s.cx xs false = false → Completes s out
          ((noteAll (hostChargeN s s.cx xs false (chunkBytes ty * xs.length)) xs false).loadLanes ty m.mask d g (vals.map fun v => v.map (·.2))).retire)
      ∧ ∀ a, s.readLanes s.agent (chunkBytes ty) want none = .error (.align, a) → TakesTrap s out 0x07 0 a
    loads (exec (.vld d ty sz m) s) g ((List.range (g * (512 / chunkBytes ty))).map fun c => ea + BitVec.ofNat 64 (c * chunkBytes ty))
    ∧ loads (exec (.vlds d r ty m) s) 1 ((List.range (512 / chunkBytes ty)).map fun i => ea + BitVec.ofNat 64 i * s.getS r)
    ∧ loads (exec (.vgath d b ty scl m) s) 1 (s.gatherAddrs ty ea b scl)

/-- R120, R121, vector stores to memory: where every enabled chunk's address is aligned and writable, exactly the enabled chunks' bytes are
performed in lane order, a 4-bit lane keeping its neighbour's half of the byte; a misaligned enabled address raises ADDR_ALIGN and stores nothing. -/
def Obligations.VectorStoreResult : Prop :=
  ∀ (s : State) (b c : VNum) (r : SReg) (ty : ETy) (sz : Fin 3) (scl : Bool) (m : VMemOp), m.folio = false →
    let g := 2 ^ sz.val
    let n := chunkBytes ty
    let ea := s.getA m.mem.base + m.mem.disp.signExtend 64
    let stores := fun (out : Out) (addrs : List Word) (data : List Nat) =>
      let want := addrs.zipIdx.map fun e => if s.chunkOn ty m.mask e.2 then some e.1 else none
      (∀ xs, s.writeLanes s.agent n want none = .ok xs →
        let items := (xs.zip data).zipIdx.filterMap fun e => e.1.1.map fun x => (x, e.1.2, e.2)
        let bytes := fun (x : List Xl) (v i : Nat) =>
          if ty.width = 4 then [blend (s.chunkMask ty m.mask i) ((x.head?.map s.oldByte).getD 0) (BitVec.ofNat 8 v)] else leBytes n v
        let all := items.flatMap fun e => e.1
        hostWaits s s.cx all true = false →
          out = .next ((noteAll (hostChargeN s s.cx all true all.length) all true).perform (items.flatMap fun e => e.1.zip (bytes e.1 e.2.1 e.2.2))).retire)
      ∧ ∀ a, s.writeLanes s.agent n want none = .error (.align, a) → TakesTrap s out 0x07 0 a
    stores (exec (.vst b ty sz m) s) ((List.range (g * (512 / n))).map fun c => ea + BitVec.ofNat 64 (c * n)) (lanesOf (8 * n) (g * (512 / n)) (s.groupNat b g))
    ∧ stores (exec (.vsts r c ty m) s) ((List.range (512 / n)).map fun i => ea + BitVec.ofNat 64 i * s.getS r) (lanesOf (8 * n) (512 / n) (s.groupNat c 1))
    ∧ stores (exec (.vscat b c ty scl m) s) (s.gatherAddrs ty ea b scl) (lanesOf (8 * n) (512 / n) (s.groupNat c 1))

/-- R122-R124, versioned tiles: TSTA makes the version odd, stores the enabled bytes, then makes it even again; TLDV with an even version takes the enabled
bytes, with an odd one waits; a tile address that is no multiple of 64 raises ADDR_ALIGN; a retry waits for a change or 256 cycles and gives up with TILE_BUSY. -/
def Obligations.VersionedTile : Prop :=
  ∀ (s : State) (v : VNum) (sz : Fin 3) (m : MemOp) (mask : Option MNum) (f : StrandRef),
    let t := s.getA m.base + m.disp.signExtend 64
    let n := 512 * 2 ^ sz.val
    let lanes := (List.range n).map fun j => if s.laneOn mask (j % 512) then some (t + 64 + BitVec.ofNat 64 j) else none
    (t.toNat % 64 ≠ 0 → TakesTrap s (exec (.tldv v sz m mask) s) 0x07 0 t ∧ TakesTrap s (exec (.tsta v sz m mask) s) 0x07 0 t)
    ∧ (t.toNat % 64 = 0 → ∀ vx vb xs, s.writeVa s.homeAgent t 8 = .ok vx → s.readXl t vx = .ok vb → s.writeLanes s.agent 1 lanes none = .ok xs →
        let ver := leNat vb / 2 * 2 + 1
        let bytes := (xs.zip (lanesOf 8 n (s.groupNat v (2 ^ sz.val)))).flatMap fun e => match e.1 with | some l => l.zip [BitVec.ofNat 8 e.2] | none => []
        let all := vx ++ bytes.map (·.1)
        hostWaits s s.cx all true = false →
          exec (.tsta v sz m mask) s = .next (((((noteAll (hostChargeN s s.cx all true all.length) all true).perform (vx.zip (leBytes 8 ver))).perform
            bytes).perform (vx.zip (leBytes 8 (ver + 1)))).retire))
    ∧ (t.toNat % 64 = 0 → ∀ vx vb, s.readVa s.homeAgent .rd t 8 = .ok (vx, vb) → leNat vb % 2 = 1 →
        Completes s (exec (.tldv v sz m mask) s) (s.modSt fun u => { u with wait := some (.tldv v sz t mask 1 (leWord vb) s.time) }))
    ∧ (t.toNat % 64 = 0 → ∀ vx vb vals, s.readVa s.homeAgent .rd t 8 = .ok (vx, vb) → leNat vb % 2 = 0 → s.readLanes s.homeAgent 1 lanes none = .ok vals →
        hostWaits s s.cx (vx ++ vals.filterMap fun v => v.map (·.1)) false = false →
        ∃ u, exec (.tldv v sz m mask) s = .next u ∧ (∀ k, u.rawByte k = s.rawByte k) ∧ u.st = { s.st.retire 1 with wait := none }
          ∧ ∀ j < n, laneOf 8 (u.groupNat v (2 ^ sz.val)) j =
              if s.laneOn mask (j % 512) then ((vals[j]?.bind id).map (·.2)).getD 0 % 256 else laneOf 8 (s.groupNat v (2 ^ sz.val)) j)
    ∧ (∀ d z a mk attempt seen since vx vb, (s.strandAt f).wait = some (.tldv d z a mk attempt seen since) →
        ({ s with focus := f }).readVa ({ s with focus := f }).homeAgent .rd a 8 = .ok (vx, vb) →
        (leWord vb = seen → s.time < since + 256 → exec (.tldvRetry f) s = .next { s with focus := f })
        ∧ (leWord vb ≠ seen ∨ since + 256 ≤ s.time → 64 ≤ attempt → exec (.tldvRetry f) s = .next (({ s with focus := f }).trap 0x0E 0 a))
        ∧ (leWord vb ≠ seen ∨ since + 256 ≤ s.time → attempt < 64 → exec (.tldvRetry f) s =
            .next (tldvAfter { s with focus := f } (tldvAttempt { s with focus := f } d z a mk attempt) d z mk)))

/-- R125-R127, FENCE, PREF and CMO: with accesses performed in order a fence only moves on; a prefetch writes no memory and raises nothing; it takes a copy of the line into the margin
cache where one may be kept and its home L2, and `.near` counts one access; `.wb` of a readable byte leaves its line clean, `.wbinv` takes it out of the L2 and every
margin cache of the package; `.zero` of an aligned writable line performs 128 zero bytes. -/
def Obligations.FencePrefetchCmo : Prop :=
  ∀ (s : State) (sc : Scope) (fl : Flavour) (mask : BitVec 16) (kind : PrefKind) (a : AReg) (disp : BitVec 32) (oc : Fin 16),
    let ea := s.getA a + disp.signExtend 64
    Completes s (exec (.fence sc fl mask) s) s.retire
    ∧ (∀ x, s.xlate s.agent .rd ea = .ok x →
        let u := marginTake (s.useLines [x]) x
        Completes s (exec (.pref kind a disp) s) (if kind = .near then noteAccess u s.here x false else u).retire)
    ∧ (∀ e, s.xlate s.agent .rd ea = .error e → Completes s (exec (.pref kind a disp) s) s.retire)
    ∧ (∀ xs bs, s.readVa s.homeAgent .rd ea 1 = .ok (xs, bs) → hostWaits s s.cx xs false = false →
        Completes s (exec (.cmoWb a disp oc) s) (xs.foldl (fun u x => u.cleanLine x.key) (counted s xs false 1)).retire
        ∧ Completes s (exec (.cmoWbinv a disp oc) s) (xs.foldl (fun u x =>
            (List.range 4).foldl (fun t d => t.dropCopies (s.package * 4 + d) (x.key / 128)) (u.dropLine x.key)) (counted s xs false 1)).retire)
    ∧ (ea.toNat % 128 ≠ 0 → TakesTrap s (exec (.cmoZero a disp oc) s) 0x07 0 ea)
    ∧ (ea.toNat % 128 = 0 → ∀ xs, s.writeVa s.agent ea 128 = .ok xs → hostWaits s s.cx xs true = false →
        exec (.cmoZero a disp oc) s = .next ((counted s xs true 128).perform (xs.zip (List.replicate 128 0))).retire)

/-- R128-R130, the atomics: ATOM and ATOMN perform the operation's value on the old one in one access, ATOM and CAS write the old value extended,
and CAS writes memory only where the old value equals its expected one. -/
def Obligations.AtomicResult : Prop :=
  ∀ (s : State) (op : AtomOp) (d b c : SReg) (ty : ETy) (m : MemOp), 32 ≤ ty.width →
    let n := ty.width / 8
    let ea := s.getA m.base + m.disp.signExtend 64
    let arg := (s.getS b).toNat % 2 ^ ty.width
    (ea.toNat % n ≠ 0 → TakesTrap s (exec (.atom op d b ty m) s) 0x07 0 ea ∧ TakesTrap s (exec (.atomn op b ty m) s) 0x07 0 ea
      ∧ TakesTrap s (exec (.cas d b c ty m) s) 0x07 0 ea)
    ∧ (ea.toNat % n = 0 → ∀ xs bs, s.readVa s.agent .rmw ea n = .ok (xs, bs) → (∀ x ∈ xs, x.enc = none) → hostWaits s s.cx xs true = false →
        let old := leNat bs
        let s1 := counted s xs true n
        let put := fun v : Nat => s1.perform (xs.zip (leBytes n v))
        let v : Nat := match op with
          | .add => (old + arg) % 2 ^ ty.width
          | .min => if elemInt ty arg < elemInt ty old then arg else old
          | .max => if elemInt ty old < elemInt ty arg then arg else old
          | .and => old &&& arg
          | .or => old ||| arg
          | .xor => old ^^^ arg
          | .swap => arg
          | .fadd => toF32 (numAdd (ofF32 old) (ofF32 arg))
        exec (.atom op d b ty m) s = .next ((put v).setS d (extend ty.width ty.isSigned old)).retire
        ∧ exec (.atomn op b ty m) s = .next (put v).retire
        ∧ (old = arg → exec (.cas d b c ty m) s
            = .next ((put ((s.getS c).toNat % 2 ^ ty.width)).setS d (extend ty.width ty.isSigned old)).retire)
        ∧ (old ≠ arg → Completes s (exec (.cas d b c ty m) s) (s1.setS d (extend ty.width ty.isSigned old)).retire))

/-! ## Synchronisation (R200-R215) -/

/-- R202, R203, the semaphore instructions: SEMSIG adds with saturation at 2^32 - 1 and SEMSET sets, both write the old value and serve the queue; SEMWAIT of 0 only moves on, one that fits
takes its count at once when nobody waits, else the strand joins the queue's end; SEMTRY takes its count and writes true when nobody waits and it fits, else writes false alone.
R203, serving a semaphore's queue after its counter changes to v: what the served waiters took is exactly what the counter lost; the queue keeps its order and
only loses its oldest waiters on that semaphore; the waiter left at the head does not fit; no other counter changes. -/
def Obligations.Semaphores : Prop :=
  (∀ (s : State) (d b : SReg) (p : PReg) (sem : BitVec 8) (k : SemCount),
      let c := s.cx.getSem sem.toNat
      let n := match k with | .reg r => (s.getS r).toNat % 2 ^ 32 | .imm v => v.toNat
      let idle := ∀ w ∈ s.cx.semq, w.1 ≠ sem.toNat
      Completes s (exec (.semsig d sem k) s)
        ((s.modCx fun x => x.writeSem sem.toNat (BitVec.ofNat 32 (min (c.toNat + n) (2 ^ 32 - 1)))).status d (c.setWidth 64))
      ∧ Completes s (exec (.semset d b sem) s) ((s.modCx fun x => x.writeSem sem.toNat ((s.getS b).setWidth 32)).status d (c.setWidth 64))
      ∧ (n = 0 → Completes s (exec (.semwait sem k) s) s.retire)
      ∧ (n ≠ 0 → idle → n ≤ c.toNat → ∃ t, exec (.semwait sem k) s = .next t ∧ (∀ j, t.rawByte j = s.rawByte j)
          ∧ (t.cx.getSem sem.toNat).toNat = c.toNat - n ∧ t.cx.semq = s.cx.semq ∧ t.st.wait = none ∧ t.st.pc = (s.st.retire 1).pc ∧ t.st.s = s.st.s)
      ∧ (n ≠ 0 → (match s.cx.semq.find? fun w => w.1 == sem.toNat with | some w => c.toNat < w.2.2 | none => c.toNat < n) →
          Completes s (exec (.semwait sem k) s) (s.modCx fun x =>
            { x with semq := x.semq ++ [(sem.toNat, (strandIx s.focus).val, n)] }.modStrand (strandIx s.focus) fun u => { u with wait := some (.sem sem.toNat n) }))
      ∧ (idle → n ≤ c.toNat → ∃ t, exec (.semtry p sem k) s = .next t ∧ (∀ j, t.rawByte j = s.rawByte j)
          ∧ (t.cx.getSem sem.toNat).toNat = c.toNat - n ∧ t.cx.semq = s.cx.semq ∧ t.getP p = true ∧ ∀ q, q ≠ p → t.getP q = s.getP q)
      ∧ (¬(idle ∧ n ≤ c.toNat) → PredWrite s (exec (.semtry p sem k) s) p false))
  ∧
  (∀ (x : Ctx) (sem : Nat) (v : BitVec 32),
      let y := x.writeSem sem v
      (y.getSem sem).toNat + x.waiting sem = v.toNat + y.waiting sem
      ∧ (∃ served, x.semq.filter (fun w => w.1 == sem) = served ++ y.semq.filter (fun w => w.1 == sem))
      ∧ y.semq.filter (fun w => w.1 != sem) = x.semq.filter (fun w => w.1 != sem)
      ∧ (∀ w, y.semq.find? (fun w => w.1 == sem) = some w → (y.getSem sem).toNat < w.2.2)
      ∧ ∀ k, k ≠ sem → y.getSem k = x.getSem k)

/-- R210, R211, R239, WADDR and WAKE on an aligned readable word: WADDR whose condition already holds writes the word and 0, else it registers behind every earlier waiter and waits; WAKE takes the
oldest waiters on the word, at most its count of them, off the list, sends each its release with the word and the reason 2, and writes how many it released. A misaligned word raises ADDR_ALIGN.
R212, R214, R215, QBIND, QUNBIND and QDEPTH: a free queue between two free well-formed endpoints of the launch is bound at its depth, with DONE, else BUSY; a malformed endpoint answers BAD_TARGET; an empty queue is unbound at
once, one with entries closes and the strand waits, an unbound one answers BAD_TARGET; QDEPTH writes BOUND, DEPTH and USED. -/
def Obligations.WordWaitsAndQueues : Prop :=
  (∀ (s : State) (c : WaitCond) (wide : Bool) (d b e : SReg) (m : MemOp),
      let n := if wide then 8 else 4
      let ea := s.getA m.base + m.disp.signExtend 64
      (ea.toNat % n ≠ 0 → TakesTrap s (exec (.waddr c wide d b e m) s) 0x07 0 ea ∧ TakesTrap s (exec (.wake wide d b m) s) 0x07 0 ea)
      ∧ (ea.toNat % n = 0 → ∀ x xs bs, s.readVa s.homeAgent .rd ea n = .ok (x :: xs, bs) → hostWaits s s.cx (x :: xs) false = false →
          let u := counted s (x :: xs) false n
          let v := leWord bs
          let home := s.die x.owner
          let word := resolveOwner s.here ea
          let go := (home.waitersOn s.cx.asid word).take ((s.getS b).toNat % 2 ^ 32)
          (waitCond c wide v (s.getS b) (s.getS e) = true →
            Completes s (exec (.waddr c wide d b e m) s) (u.modSt fun t => (t.setS d v).setS (d + 1) 0).retire)
          ∧ (waitCond c wide v (s.getS b) (s.getS e) = false → ∃ t w, exec (.waddr c wide d b e m) s = .next t ∧ (∀ j, t.rawByte j = s.rawByte j)
              ∧ (t.die x.owner).waiters = home.waiters ++ [w] ∧ w.asid = s.cx.asid ∧ w.ea = word ∧ w.who = s.focus ∧ w.mask = s.getS b ∧ w.expected = s.getS e
              ∧ w.cond = c ∧ w.d = d ∧ w.owner = x.owner ∧ w.stamp = home.stamp ∧ (t.die x.owner).stamp = home.stamp + 1
              ∧ t.st = { s.st with wait := some (.addr x.owner home.stamp d) })
          ∧ ∃ t, exec (.wake wide d b m) s = .next t ∧ (∀ j, t.rawByte j = s.rawByte j) ∧ WritesS s.st t.st d (BitVec.ofNat 64 go.length)
              ∧ t.st = { s.st.retire 1 with s := t.st.s } ∧ (t.die x.owner).waiters = home.waiters.filter (fun w => !go.any fun g => g.stamp == w.stamp)
              ∧ t.releases = s.releases ++ go.map (fun w => { uid := w.uid, strand := (strandIx w.who).val, owner := w.owner, stamp := w.stamp, d := w.d
                                                              val := u.waitWord w, how := 2, part := w.part
                                                              rgen := (SMap.get {} s.parts w.part.val).gen })))
  ∧
  (∀ (s : State) (d a b : SReg) (q : Fin 8) (depth1 : Fin 32),
      let die := s.focus.core / 96
      let here := SMap.find s.cx.boundQs q.val
      (endpoint die (s.getS a) = none ∨ endpoint die (s.getS b) = none → ScalarWrite s (exec (.qbind d a b q depth1) s) d 5)
      ∧ (∀ p c, endpoint die (s.getS a) = some p → endpoint die (s.getS b) = some c →
          (p = c ∨ p.eng = 0 ∨ c.eng = 2 → ScalarWrite s (exec (.qbind d a b q depth1) s) d 5)
          ∧ (p ≠ c → p.eng ≠ 0 → c.eng ≠ 2 → endpointOk s s.cx.launch p = true → endpointOk s s.cx.launch c = true →
              (here ≠ none ∨ (∃ o ∈ allQueues s, o.prod = p ∨ o.prod = c ∨ o.cons = p ∨ o.cons = c) → ScalarWrite s (exec (.qbind d a b q depth1) s) d 11)
              ∧ (here = none → (∀ o ∈ allQueues s, o.prod ≠ p ∧ o.prod ≠ c ∧ o.cons ≠ p ∧ o.cons ≠ c) → Completes s (exec (.qbind d a b q depth1) s)
                  ((s.modCx fun x => { x with boundQs := SMap.set x.boundQs q.val { prod := p, cons := c, depth := depth1.val + 1 } }).status d 0))))
      ∧ (here = none → ScalarWrite s (exec (.qunbind d q) s) d 5 ∧ ScalarWrite s (exec (.qdepth d q) s) d 0)
      ∧ ∀ o, here = some o →
          (o.entries = [] → Completes s (exec (.qunbind d q) s) ((s.modCx fun x => { x with boundQs := SMap.erase x.boundQs q.val }).status d 0))
          ∧ (o.entries ≠ [] → Completes s (exec (.qunbind d q) s)
              ((s.modCx fun x => { x with boundQs := SMap.set x.boundQs q.val { o with closing := true } }).modSt fun t => { t with wait := some (.unbind d q) }))
          ∧ ScalarWrite s (exec (.qdepth d q) s) d (0x10000 ||| BitVec.ofNat 64 o.depth <<< 8 ||| BitVec.ofNat 64 o.entries.length))

/-! ## Engine commands (R247-R259, R300-R321) -/

/-- R247-R250, R252, R258, a command that its engine queue accepts: TSEM with a free place among the 16 joins the queue's end as queued, with the next task number and its task word, and
the pc passes its two words; with no free place every engine command waits without effect. A tile command takes the oldest format word with it, and discards one that is not valid. -/
def Obligations.TaskAcceptance : Prop :=
  ∀ (s : State) (eng : Engine) (ch : Fin 4) (oc : Fin 16) (bar : Bool) (word : TaskWord) (q : Fin 6),
    q.val = (match eng with | .le => 0 | .ve => 1 | .ce => 2 + ch.val) →
    (s.cx.queued q < 16 → ∃ u t, exec (.tsem eng ch oc bar word) s = .next u ∧ (∀ k, u.rawByte k = s.rawByte k) ∧ u.st = s.st.retire 2
      ∧ u.cx.queues[q] = s.cx.queues[q] ++ [t] ∧ (∀ p, p ≠ q → u.cx.queues[p] = s.cx.queues[p]) ∧ u.cx.fwq = s.cx.fwq ∧ u.cx.nextTask = s.cx.nextTask + 1
      ∧ t.num = s.cx.nextTask ∧ t.cmd = .null ∧ t.st = .queued ∧ t.strand = (strandIx s.focus).val ∧ t.word = word ∧ t.oc = oc ∧ t.bar = bar)
    ∧ (16 ≤ s.cx.queued q → Completes s (exec (.tsem eng ch oc bar word) s) s.hold)
    ∧ (∀ c : CpyCmd, q.val = 2 + c.ch.val → 16 ≤ s.cx.queued q → Completes s (exec (.cpy c) s) s.hold)
    ∧ (∀ c : CpyoCmd, q.val = 2 + c.ch.val → 16 ≤ s.cx.queued q → Completes s (exec (.cpyo c) s) s.hold)
    ∧ (q = 0 → 16 ≤ s.cx.queued q → ∀ (c : MatCmd) (tag : Fin 16), Completes s (exec (.mma c) s) s.hold ∧ Completes s (exec (.qmma c tag) s) s.hold)
    ∧ (q = 1 → 16 ≤ s.cx.queued q → ∀ c : ChainCmd, Completes s (exec (.chain c) s) s.hold)
    ∧ ∀ (x : Ctx) (i : Fin 4) (c : Accept), ∃ t, (x.accept q i c).queues[q] = x.queues[q] ++ [t] ∧ t.cmd = c.cmd ∧ t.num = x.nextTask ∧ t.st = .queued
        ∧ t.fmt = (if c.cmd.isMatrix = true then x.fwq.head?.filter (fun w => (fmtOf w).isSome) else none) ∧ (x.accept q i c).fwq = (if c.cmd.isMatrix = true then x.fwq.tail else x.fwq)

/-- R144, R187, HSET, HFREE and HQRY: HSET of a length from 1 to 2^48 raises the entry's generation (mod 255, then + 1), moves its in-flight count
into DRAIN, fills it live and answers the new handle, else HANDLE_RANGE; HFREE of the present handle raises the generation and leaves the entry dead, else
HANDLE_STALE; HQRY answers whether the handle is live and whether transfers of older generations drain.
R144, R253, a handle operand: a handle that is not the live present one of its entry raises HANDLE_STALE; an extent beyond the length or a right the entry does not
give raises HANDLE_RANGE; else the extent's address is the base plus the offset above bit 20. -/
def Obligations.Handles : Prop :=
  (∀ (s : State) (d b : SReg) (a : AReg) (rights : Fin 4) (idx : BitVec 12),
      let e := s.handle s.cx idx.toNat
      let v := s.getS b
      let q := s.handle s.cx (fld v 11 0)
      let current := fld v 63 20 = 0 ∧ fld v 19 12 ≠ 0 ∧ fld v 19 12 = (hGen q).toNat
      (1 ≤ v.toNat → v.toNat ≤ 2 ^ 48 → ∃ n : HEntry,
          exec (.hset d a b rights idx) s = .next ((s.setHandle s.cx idx.toNat n).status d ((hGen n ++ idx).setWidth 64))
          ∧ (hGen n).toNat = (hGen e).toNat % 255 + 1 ∧ hLive n = true ∧ (hRights n).toNat = rights.val ∧ (hLen1 n).toNat = v.toNat - 1
          ∧ hBase n = s.getA a ∧ hDrain n = hDrain e + hInfl e ∧ hInfl n = 0)
      ∧ (¬(1 ≤ v.toNat ∧ v.toNat ≤ 2 ^ 48) → TakesTrap s (exec (.hset d a b rights idx) s) 0x11 0 0)
      ∧ (current → ∃ n : HEntry, exec (.hfree b) s = .next (s.setHandle s.cx (fld v 11 0) n).retire
          ∧ (hGen n).toNat = (hGen q).toNat % 255 + 1 ∧ hLive n = false ∧ hDrain n = hDrain q + hInfl q ∧ hInfl n = 0)
      ∧ (¬current → TakesTrap s (exec (.hfree b) s) 0x10 0 0)
      ∧ ScalarWrite s (exec (.hqry d b) s) d
          (if fld v 63 20 = 0 then (if hDrain q = 0 then 0 else 2) ||| (if current ∧ hLive q = true then 1 else 0) else 0))
  ∧
  (∀ (s : State) (v : Word) (extent : Nat) (write : Bool),
      let e := s.handle s.cx (v.toNat % 4096)
      let gen := (v.extractLsb' 12 8).toNat
      let offset := v.toNat / 2 ^ 20
      let live := gen ≠ 0 ∧ gen = (hGen e).toNat ∧ hLive e = true
      (¬live → useHandle s v extent write = .error 0x10)
      ∧ (live → (hLen1 e).toNat + 1 < offset + extent ∨ (hRights e).getLsbD (if write then 1 else 0) = false → useHandle s v extent write = .error 0x11)
      ∧ (live → offset + extent ≤ (hLen1 e).toNat + 1 → (hRights e).getLsbD (if write then 1 else 0) = true →
          useHandle s v extent write = .ok (.mem (hBase e + BitVec.ofNat 64 offset) (v.toNat % 4096) (hGen e))))

/-- R253-R256, CPY and CPYO without a follow-on, in a queue with a free place: a row length of 0 or above 2^24, a reserved bit, a slot above 511 or an operand length of 0 or above 65536 raises HANDLE_RANGE;
with good endpoints the copy is accepted with its rows and strides and the issued pointer of its channel rises by the bytes it moves; a folio to folio copy changes no byte of memory. -/
def Obligations.CopyCommand : Prop :=
  ∀ (s : State) (c : CpyCmd) (o : CpyoCmd),
    let h := s.getS c.c
    let rowLen := h.toNat % 2 ^ 25
    let rows := (h.extractLsb' 32 16).toNat + 1
    let ss := (s.getS c.d).toNat % 2 ^ 32
    let ds := (s.getS c.d).toNat / 2 ^ 32
    let good := 1 ≤ rowLen ∧ rowLen ≤ 2 ^ 24 ∧ h.extractLsb' 25 7 = 0 ∧ h.extractLsb' 48 16 = 0
    let q : Fin 6 := Fin.ofNat 6 (2 + c.ch.val)
    let len := (s.getS o.c).toNat
    (c.fo = none → s.cx.queued q < 16 →
      (¬good → TakesTrap s (exec (.cpy c) s) 0x11 0 0)
      ∧ (good → c.dir = .f2f → ∃ u t, exec (.cpy c) s = .next u ∧ (∀ k, u.rawByte k = s.rawByte k) ∧ u.st = s.st.retire 2
          ∧ u.cx.queues[q] = s.cx.queues[q] ++ [t] ∧ t.cmd = .copy (.fol (s.getS c.a)) (.fol (s.getS c.b)) (s.getS c.b) rowLen rows ss ds c.crc
          ∧ u.cx.it[c.ch] = s.cx.it[c.ch] + BitVec.ofNat 64 (rows * rowLen) ∧ u.cx.wp = s.cx.wp)
      ∧ (good → ∀ src dst, endpointOf s (c.dir = .f2m ∨ c.dir = .f2f) (s.getS c.a) ((rows - 1) * ss + rowLen) false = .ok src →
          endpointOf s (c.dir = .m2f ∨ c.dir = .f2f) (s.getS c.b) ((rows - 1) * ds + rowLen) true = .ok dst →
          ∃ a : Accept, a.cmd = .copy src dst (s.getS c.b) rowLen rows ss ds c.crc ∧ a.word = c.task
            ∧ exec (.cpy c) s = .next (((s.acceptCmd q a).modCx fun x => { x with it := x.it.set c.ch (x.it[c.ch] + BitVec.ofNat 64 (rows * rowLen)) }).retireCmds 1)))
    ∧ (o.fo = none → s.cx.queued (Fin.ofNat 6 (2 + o.ch.val)) < 16 →
      (512 ≤ (s.getS o.b).toNat ∨ len = 0 ∨ 65536 < len → TakesTrap s (exec (.cpyo o) s) 0x11 0 0)
      ∧ ((s.getS o.b).toNat < 512 → 1 ≤ len → len ≤ 65536 → ∀ src, endpointOf s o.fol (s.getS o.a) len false = .ok src →
          ∃ a : Accept, a.cmd = .copyO src (s.getS o.b).toNat len ∧ a.word = o.task
            ∧ exec (.cpyo o) s = .next (((s.acceptCmd (Fin.ofNat 6 (2 + o.ch.val)) a).modCx fun x =>
                { x with it := x.it.set o.ch (x.it[o.ch] + BitVec.ofNat 64 len) }).retireCmds 1)))

/-- R317, R318, MMA and QMMA without an epilogue, with a free place in the ligature engine's queue and A in the folio: an A offset or a stride that is no multiple of 8, a C offset that is no multiple of 512, a slot above 511 or a
reserved bit raises HANDLE_RANGE, and a QMMA in a quad with a fenced core ACCESS_FAULT; else the command is accepted and takes a format word, and no byte of memory changes.
R300-R303, CHAIN with a free place in the vector engine's queue: an operation list with an error raises HANDLE_RANGE; one whose three streams lie in the folio is accepted with its list and folio
offsets, and no byte of memory changes. -/
def Obligations.MatrixAndChainCommands : Prop :=
  (∀ (s : State) (c : MatCmd) (tag : Fin 16), c.epi = none → s.cx.queued 0 < 16 → c.ka = false → (s.getS c.a).toNat < 2 ^ 60 →
      let good := (s.getS c.a).toNat % 8 = 0 ∧ (s.getS c.d).toNat < 2 ^ 32 ∧ (s.getS c.d).toNat % 8 = 0 ∧ (s.getS c.b).toNat < 512 ∧ (s.getS c.c).toNat % 512 = 0
      let fenced := ∃ k < 4, s.fencedCore (s.focus.core / 4 * 4 + k) = true
      let accepted := fun (o : Out) (tag : Option (Fin 16)) => ∃ u t, o = .next u ∧ (∀ k, u.rawByte k = s.rawByte k) ∧ u.st = s.st.retire 2
        ∧ u.cx.queues[(0 : Fin 6)] = s.cx.queues[(0 : Fin 6)] ++ [t] ∧ t.st = .queued ∧ t.fmt = s.cx.fwq.head?.filter (fun w => (fmtOf w).isSome) ∧ u.cx.fwq = s.cx.fwq.tail
        ∧ t.cmd = .matrix (.fol (s.getS c.a)) none (s.getS c.b).toNat (s.getS c.c) (s.getS c.d).toNat c.chk c.zero tag
      (¬good → TakesTrap s (exec (.mma c) s) 0x11 0 0 ∧ TakesTrap s (exec (.qmma c tag) s) 0x11 0 0)
      ∧ (good → accepted (exec (.mma c) s) none)
      ∧ (good → fenced → TakesTrap s (exec (.qmma c tag) s) 0x09 0 0)
      ∧ (good → ¬fenced → s.cx.phase = none → accepted (exec (.qmma c tag) s) (some tag)))
  ∧
  (∀ (s : State) (c : ChainCmd), s.cx.queued 1 < 16 →
      (chainList (s.getV c.list) c.crc = none → TakesTrap s (exec (.chain c) s) 0x11 0 0)
      ∧ ∀ l, chainList (s.getV c.list) c.crc = some l → l.afol = true → (l.buse = true → l.bfol = true) → l.dfol = true →
          ∃ u t, exec (.chain c) s = .next u ∧ (∀ k, u.rawByte k = s.rawByte k) ∧ u.st = s.st.retire 2
            ∧ u.cx.queues[(1 : Fin 6)] = s.cx.queues[(1 : Fin 6)] ++ [t] ∧ t.st = .queued
            ∧ t.cmd = .chain (s.getV c.list) (.fol (s.getS c.a)) (.fol (if l.buse then s.getS c.c else 0)) (.fol (s.getS c.d)) c.crc)

/-- R256, R258, R305, CWPTR, FWPUT and CHPOP: the landed and issued pointers of a channel are read; a format word joins its queue of 16 or the strand waits; CHPOP on a bound port raises ACCESS_FAULT, takes the
oldest element that is not held, and waits where there is none. -/
def Obligations.EngineRegisterResult : Prop :=
  ∀ (s : State) (d a : SReg) (ch port : Fin 4),
    let bound := producerQueue s s.focus.core s.focus.slot 1 port.val
    ScalarWrite s (exec (.cwptrLand d ch) s) d s.cx.wp[ch]
    ∧ ScalarWrite s (exec (.cwptrIss d ch) s) d s.cx.it[ch]
    ∧ (s.cx.fwq.length < 16 → Completes s (exec (.fwput a) s) (s.modCx fun x => { x with fwq := x.fwq ++ [s.getS a] }).retire)
    ∧ (16 ≤ s.cx.fwq.length → Completes s (exec (.fwput a) s) s.hold)
    ∧ (bound ≠ none → TakesTrap s (exec (.chpop d port) s) 0x09 0 0)
    ∧ (bound = none → s.cx.popq = [] → ∀ v r, s.cx.ports[port] = ⟨v, none⟩ :: r → ∃ t, exec (.chpop d port) s = .next t ∧ (∀ k, t.rawByte k = s.rawByte k)
        ∧ t.cx.ports[port] = r ∧ t.cx.popq = [] ∧ t.st = { s.st.retire 1 with s := t.st.s, wait := none } ∧ WritesS s.st t.st d v)
    ∧ (bound = none → s.cx.popq = [] → (∀ e ∈ s.cx.ports[port], e.held ≠ none) → ∃ t, exec (.chpop d port) s = .next t ∧ (∀ k, t.rawByte k = s.rawByte k)
        ∧ t.cx.ports = s.cx.ports ∧ t.cx.popq = [(port.val, (strandIx s.focus).val)] ∧ t.st = { s.st with wait := some (.chpop d port) })

/-! ## Work objects (R260-R265) -/

/-- R262-R265, GRAPH, WPHASE, CNTR and CANCEL: an open with good operands makes the object under its parent and answers DONE and its id; a notice with high bits, a parent that is not open or a closed job answers BAD_TARGET, a full
table BUSY; a close seals an open object of the job and answers DONE and its id, any other BAD_TARGET; CNTR writes the counter word of a named object of the job, 0 for any other; CANCEL of a named object answers DONE and cancels what
is under it, else BAD_TARGET. -/
def Obligations.WorkObjectResult : Prop :=
  ∀ (s : State) (d a b : SReg),
    let v := s.getS a
    let p := s.getS b
    let job := s.cx.job
    let room := s.works.length + workNeed s job ≤ 65536
    let notice := if (v.extractLsb' 8 24).toNat = 0 then none else some (s.cx.uid, v.toNat % 256, (v.extractLsb' 8 24).toNat)
    let under := p = 0 ∨ (p.toNat < 2 ^ 32 ∧ openOf s 3 p.toNat job = true)
    let graph := newWork s { level := 2, job := job, notice := notice } (if p = 0 then jobKey job else workKey 3 p.toNat)
    let phase := newWork s { level := 3, job := job, notice := notice } (jobKey job)
    let sealed := fun (level : Nat) (w : Work) =>
      pruneWorks (reportWork 4 { s.status d v with works := SMap.set s.works (workKey level v.toNat) { w with sealed_ := true } } (workKey level v.toNat))
    (v.toNat < 2 ^ 32 → under → jobOpen s job = true → room →
      Completes s (exec (.graphOpen d a b) s) (graph.1.status d (BitVec.ofNat 64 (s.fresh % 2 ^ 32))))
    ∧ (v.toNat < 2 ^ 32 → under → jobOpen s job = true → ¬room → ScalarWrite s (exec (.graphOpen d a b) s) d (11 <<< 32))
    ∧ (2 ^ 32 ≤ v.toNat ∨ ¬under ∨ jobOpen s job = false → ScalarWrite s (exec (.graphOpen d a b) s) d (5 <<< 32))
    ∧ (v.toNat < 2 ^ 32 → jobOpen s job = true → room →
        Completes s (exec (.wphaseOpen d a) s) (phase.1.status d (BitVec.ofNat 64 (s.fresh % 2 ^ 32))))
    ∧ (v.toNat < 2 ^ 32 → jobOpen s job = true → ¬room → ScalarWrite s (exec (.wphaseOpen d a) s) d (11 <<< 32))
    ∧ (2 ^ 32 ≤ v.toNat ∨ jobOpen s job = false → ScalarWrite s (exec (.wphaseOpen d a) s) d (5 <<< 32))
    ∧ (∀ w, v.toNat < 2 ^ 32 → SMap.find s.works (workKey 2 v.toNat) = some w → w.sealed_ = false → w.job = job →
        Completes s (exec (.graphClose d a) s) (sealed 2 w))
    ∧ (2 ^ 32 ≤ v.toNat ∨ openOf s 2 v.toNat job = false → ScalarWrite s (exec (.graphClose d a) s) d (5 <<< 32))
    ∧ (∀ w, v.toNat < 2 ^ 32 → SMap.find s.works (workKey 3 v.toNat) = some w → w.sealed_ = false → w.job = job →
        Completes s (exec (.wphaseClose d a) s) (sealed 3 w))
    ∧ (2 ^ 32 ≤ v.toNat ∨ openOf s 3 v.toNat job = false → ScalarWrite s (exec (.wphaseClose d a) s) d (5 <<< 32))
    ∧ (namedWork s v = none → ScalarWrite s (exec (.cntr d a) s) d 0 ∧ ScalarWrite s (exec (.cancel d a) s) d 5)
    ∧ ∀ key w, namedWork s v = some (key, w) →
        ScalarWrite s (exec (.cntr d a) s) d
          ((if w.sealed_ = true ∧ w.ndone + w.nfailed = w.total then 1 <<< 63 else 0) ||| (if w.cancelled then 1 <<< 62 else 0) ||| (if w.sealed_ then 1 <<< 61 else 0)
            ||| BitVec.ofNat 64 (w.level % 16) <<< 57 ||| BitVec.ofNat 64 (w.total % 2 ^ 19) <<< 38 ||| BitVec.ofNat 64 (w.ndone % 2 ^ 19) <<< 19 ||| BitVec.ofNat 64 (w.nfailed % 2 ^ 19))
        ∧ exec (.cancel d a) s = .next (cancelWork (s.status d 0) key)

/-! ## Vector registers (R285-R299) -/

/-- R291, element-wise arithmetic: integer elements exactly, wrapped, or clamped by `.sat`; floating elements by the exact result rounded once. R292, the widening sum and product
into the pair, lane by lane.
R293, logic, shifts and bit counts lane by lane: the register form of a shift takes its count modulo the element's width, the immediate form its immediate; VSAR copies the top bit whatever
the type's sign. -/
def Obligations.VectorLaneResult : Prop :=
  (∀ (s : State) (d a b c : VNum) (ty : ETy) (sat : Bool) (m : Option MNum),
      let x := s.lane ty a
      let y := s.lane ty b
      let z := s.lane ty c
      let X := fun i => elemInt ty (x i)
      let Y := fun i => elemInt ty (y i)
      let Z := fun i => elemInt ty (z i)
      let lo : Int := if ty.isSigned then -(2 ^ (ty.width - 1)) else 0
      let hi : Int := if ty.isSigned then 2 ^ (ty.width - 1) - 1 else 2 ^ ty.width - 1
      let wrap := fun v : Int => (v % 2 ^ ty.width).toNat
      let sum := fun v : Int => wrap (if sat then max lo (min hi v) else v)
      let F := fun i => decodeElem ty (x i)
      let G := fun i => decodeElem ty (y i)
      let H := fun i => decodeElem ty (z i)
      let fl := floatBits ty
      (ty.inF = false →
        LaneWrite s (exec (.vadd d a b ty sat m) s) d ty m (fun i => sum (X i + Y i))
        ∧ LaneWrite s (exec (.vsub d a b ty sat m) s) d ty m (fun i => sum (X i - Y i))
        ∧ LaneWrite s (exec (.vabs d a ty sat m) s) d ty m (fun i => sum |X i|)
        ∧ LaneWrite s (exec (.vneg d a ty sat m) s) d ty m (fun i => sum (-X i))
        ∧ LaneWrite s (exec (.vmul d a b ty m) s) d ty m (fun i => wrap (X i * Y i))
        ∧ LaneWrite s (exec (.vmulh d a b ty m) s) d ty m (fun i => wrap (Int.fdiv (X i * Y i) (2 ^ ty.width)))
        ∧ LaneWrite s (exec (.vmin d a b ty m) s) d ty m (fun i => wrap (min (X i) (Y i)))
        ∧ LaneWrite s (exec (.vmax d a b ty m) s) d ty m (fun i => wrap (max (X i) (Y i)))
        ∧ LaneWrite s (exec (.vfma .fma d a b c ty m) s) d ty m (fun i => wrap (X i * Y i + Z i))
        ∧ LaneWrite s (exec (.vfma .ms d a b c ty m) s) d ty m (fun i => wrap (X i * Y i - Z i))
        ∧ LaneWrite s (exec (.vfma .nma d a b c ty m) s) d ty m (fun i => wrap (-(X i * Y i) + Z i))
        ∧ LaneWrite s (exec (.vfma .nms d a b c ty m) s) d ty m (fun i => wrap (-(X i * Y i) - Z i)))
      ∧ (ty.inF = true →
        LaneWrite s (exec (.vadd d a b ty sat m) s) d ty m (fun i => fl (numAdd (F i) (G i)))
        ∧ LaneWrite s (exec (.vsub d a b ty sat m) s) d ty m (fun i => fl (numAdd (F i) (numNeg (G i))))
        ∧ LaneWrite s (exec (.vabs d a ty sat m) s) d ty m (fun i => fl (numAbs (F i)))
        ∧ LaneWrite s (exec (.vneg d a ty sat m) s) d ty m (fun i => fl (numNeg (F i)))
        ∧ LaneWrite s (exec (.vmul d a b ty m) s) d ty m (fun i => fl (numMul (F i) (G i)))
        ∧ LaneWrite s (exec (.vdiv d a b ty m) s) d ty m (fun i => fl (numDiv (F i) (G i)))
        ∧ LaneWrite s (exec (.vmin d a b ty m) s) d ty m (fun i => fl (numMin (F i) (G i)))
        ∧ LaneWrite s (exec (.vmax d a b ty m) s) d ty m (fun i => fl (numMax (F i) (G i)))
        ∧ LaneWrite s (exec (.vfma .fma d a b c ty m) s) d ty m (fun i => fl (numAdd (numMul (F i) (G i)) (H i)))
        ∧ LaneWrite s (exec (.vfma .ms d a b c ty m) s) d ty m (fun i => fl (numAdd (numMul (F i) (G i)) (numNeg (H i))))
        ∧ LaneWrite s (exec (.vfma .nma d a b c ty m) s) d ty m (fun i => fl (numAdd (numMul (numNeg (F i)) (G i)) (H i)))
        ∧ LaneWrite s (exec (.vfma .nms d a b c ty m) s) d ty m (fun i => fl (numAdd (numMul (numNeg (F i)) (G i)) (numNeg (H i)))))
      ∧ (ty.inN = true →
        let w := 2 * ty.width
        let wide := fun (o : Out) (f : Nat → Nat) => GroupWrite s o d 2 fun u =>
          ∀ i < ty.lanes, u.glane w d 2 i = if s.laneOn m i then f i % 2 ^ w else s.glane w d 2 i
        wide (exec (.vaddw d a b ty m) s) (fun i => if ty.inF then toF32 (numAdd (F i) (G i)) else ((X i + Y i) % 2 ^ w).toNat)
        ∧ wide (exec (.vmulw d a b ty m) s) (fun i => if ty.inF then toF32 (numMul (F i) (G i)) else ((X i * Y i) % 2 ^ w).toNat)))
  ∧
  (∀ (s : State) (d a b : VNum) (k : Fin 64) (ty : ETy) (m : Option MNum),
      let w := ty.width
      let x := s.lane ty a
      let y := s.lane ty b
      let sar := fun (v n : Nat) => (Int.fdiv (BitVec.ofNat w v).toInt (2 ^ n) % 2 ^ w).toNat
      let per := fun (o : Out) (p : Nat → Nat → Prop) => ∃ f, LaneWrite s o d ty m f ∧ ∀ i < ty.lanes, p (x i) (f i)
      LaneWrite s (exec (.vand d a b ty m) s) d ty m (fun i => x i &&& y i)
      ∧ LaneWrite s (exec (.vor d a b ty m) s) d ty m (fun i => x i ||| y i)
      ∧ LaneWrite s (exec (.vxor d a b ty m) s) d ty m (fun i => x i ^^^ y i)
      ∧ LaneWrite s (exec (.vshl d a (.reg b) ty m) s) d ty m (fun i => x i * 2 ^ (y i % w))
      ∧ LaneWrite s (exec (.vshr d a (.reg b) ty m) s) d ty m (fun i => x i / 2 ^ (y i % w))
      ∧ LaneWrite s (exec (.vsar d a (.reg b) ty m) s) d ty m (fun i => sar (x i) (y i % w))
      ∧ LaneWrite s (exec (.vshl d a (.imm k) ty m) s) d ty m (fun i => x i * 2 ^ k.val)
      ∧ LaneWrite s (exec (.vshr d a (.imm k) ty m) s) d ty m (fun i => x i / 2 ^ k.val)
      ∧ LaneWrite s (exec (.vsar d a (.imm k) ty m) s) d ty m (fun i => sar (x i) k.val)
      ∧ per (exec (.vbit .popc d a ty m) s) (fun v r => r = (List.range w).countP fun j => v.testBit j)
      ∧ per (exec (.vbit .clz d a ty m) s) (fun v r => r ≤ w ∧ v < 2 ^ (w - r) ∧ (r < w → 2 ^ (w - r - 1) ≤ v))
      ∧ per (exec (.vbit .ctz d a ty m) s) (fun v r => (v = 0 → r = w) ∧ (v ≠ 0 → r < w ∧ 2 ^ r ∣ v ∧ v.testBit r = true))
      ∧ per (exec (.vbit .brev d a ty m) s) (fun v r => r < 2 ^ w ∧ ∀ j < w, r.testBit j = v.testBit (w - 1 - j)))

/-- R294, R295, compares into masks, mask logic, counts, MSET and the select by a mask. -/
def Obligations.VectorMaskResult : Prop :=
  ∀ (s : State) (c : Cond) (d ma mb : MNum) (vd a b : VNum) (r : SReg) (ty : ETy) (m : Option MNum) (ia ib : Bool),
    let x := s.lane ty a
    let y := s.lane ty b
    let p := if ia then ~~~s.getM ma else s.getM ma
    let q := if ib then ~~~s.getM mb else s.getM mb
    (ty.inF = false → MaskWrite s (exec (.vcmp c d a b ty m) s) d ty.lanes m fun i => ElemHolds c ty (x i) (y i))
    ∧ (ty.inF = true → MaskWrite s (exec (.vcmp c d a b ty m) s) d ty.lanes m fun i => numCond c (decodeElem ty (x i)) (decodeElem ty (y i)) = true)
    ∧ LaneWrite s (exec (.vsel vd a b ty ma) s) vd ty none (fun i => if (s.getM ma).getLsbD i then x i else y i)
    ∧ Completes s (exec (.mand d ma mb ia ib) s) (s.setM d (p &&& q)).retire
    ∧ Completes s (exec (.mor d ma mb ia ib) s) (s.setM d (p ||| q)).retire
    ∧ Completes s (exec (.mxor d ma mb ia ib) s) (s.setM d (p ^^^ q)).retire
    ∧ MaskWrite s (exec (.mset d r) s) d 1024 none (fun i => i < (s.getS r).toNat)
    ∧ ScalarWrite s (exec (.mpop r ma ty) s) r (BitVec.ofNat 64 ((List.range ty.lanes).countP (s.getM ma).getLsbD))
    ∧ ((∀ i < ty.lanes, (s.getM ma).getLsbD i = false) → ScalarWrite s (exec (.mfirst r ma ty) s) r (BitVec.allOnes 64))
    ∧ ∀ i < ty.lanes, (s.getM ma).getLsbD i = true → (∀ j < i, (s.getM ma).getLsbD j = false) → ScalarWrite s (exec (.mfirst r ma ty) s) r (BitVec.ofNat 64 i)

/-- R271, R272, R277-R280, R296, VCVT: each enabled operation lane's source value, scaled where XS is set, is converted under the policy, or each block of 32 quantised with its scale byte; under POL 3 an overflow
event in an enabled lane writes the predicate true and nothing else, and otherwise the predicate false; other elements and registers keep their contents. -/
def Obligations.ConversionResult : Prop :=
  ∀ (s : State) (o : VcvtOp),
    let sh := cvtShape o
    let w := o.td.width
    let val := fun j =>
      let x := s.glane o.ts.width o.a sh.gs (sh.src0 + j)
      if o.xs then scaleBy (decodeMx o.ts x) (laneOf 8 (s.getV o.scale).toNat ((sh.src0 + j) / 32)) else decodeElem o.ts x
    let pred := fun (u : State) (ev : Bool) => ∀ q, u.getP q = if o.pol = .trap ∧ q = o.pn ∧ q ≠ 7 then ev else s.getP q
    let one := fun j => convertTo o.td o.pol o.sm (val j)
    let block := fun b => mxQuantise o.td o.pol ((List.range 32).map fun i => val (32 * b + i))
    let done := fun (f : Nat → Nat) (u : State) => (∀ k, u.rawByte k = s.rawByte k) ∧ u.st = { s.st.retire 1 with p := u.st.p } ∧ pred u false
      ∧ ∀ i < sh.gd * o.td.lanes, u.glane w o.d sh.gd i =
          if sh.dst0 ≤ i ∧ i < sh.dst0 + sh.lanes ∧ s.laneOn o.mask (i - sh.dst0) = true then f (i - sh.dst0) % 2 ^ w else s.glane w o.d sh.gd i
    (o.xd = false → (∃ j < sh.lanes, s.laneOn o.mask j = true ∧ (one j).2 = true) → PredWrite s (exec (.vcvt o) s) o.pn true)
    ∧ (o.xd = false → sh.dst0 + sh.lanes ≤ sh.gd * o.td.lanes → (∀ j < sh.lanes, s.laneOn o.mask j = true → (one j).2 = false) →
        ∃ u, exec (.vcvt o) s = .next u ∧ done (fun j => (one j).1) u ∧ ∀ r, (∀ k < sh.gd, r ≠ vplus o.d k) → u.getV r = s.getV r)
    ∧ (o.xd = true → (∃ b < sh.lanes / 32, (block b).2.2 = true) → PredWrite s (exec (.vcvt o) s) o.pn true)
    ∧ (o.xd = true → sh.dst0 + sh.lanes ≤ sh.gd * o.td.lanes → (∀ b < sh.lanes / 32, (block b).2.2 = false) → (∀ k < sh.gd, o.scale ≠ vplus o.d k) →
        ∃ u, exec (.vcvt o) s = .next u ∧ done (fun j => (block (j / 32)).2.1.getD (j % 32) 0) u
          ∧ (∀ r, r ≠ o.scale → (∀ k < sh.gd, r ≠ vplus o.d k) → u.getV r = s.getV r)
          ∧ ∀ i < 512, laneOf 8 (u.getV o.scale).toNat i =
              if sh.dst0 / 32 ≤ i ∧ i < sh.dst0 / 32 + sh.lanes / 32 then (block (i - sh.dst0 / 32)).1 % 256 else laneOf 8 (s.getV o.scale).toNat i)

/-- R297, reductions over the enabled lanes: integer sum modulo 2^64 and extremes, with 0, the type's least or greatest value where no lane is enabled; floating sums by the fixed tree of FP32 additions and extremes by the order of
R291, written as FP32 bits. R298, VSF: each lane widened to FP32, the function, and one rounding to the type, with its special values. -/
def Obligations.ReductionSpecialResult : Prop :=
  ∀ (s : State) (d : SReg) (v a : VNum) (ty : ETy) (m : Option MNum) (f : SpecFn) (x : Nat),
    let on := fun i => s.laneOn m i = true
    let X := fun i => elemInt ty (s.lane ty a i)
    let lo : Int := if ty.isSigned then -(2 ^ (ty.width - 1)) else 0
    let hi : Int := if ty.isSigned then 2 ^ (ty.width - 1) - 1 else 2 ^ ty.width - 1
    let idle := ∀ i < ty.lanes, ¬on i
    let fin := fun (n : Bool) (k : Nat) (e : Int) => ofF32 x = .fin n k e
    (ty.inF = false →
      ScalarWrite s (exec (.vrsum d a ty m) s) d (BitVec.ofInt 64 ((List.range ty.lanes).map fun i => if s.laneOn m i then X i else 0).sum)
      ∧ (∃ r : Int, ScalarWrite s (exec (.vrmax d a ty m) s) d (BitVec.ofInt 64 r) ∧ (idle → r = lo) ∧ (¬idle → (∃ i < ty.lanes, on i ∧ r = X i) ∧ ∀ i < ty.lanes, on i → X i ≤ r))
      ∧ (∃ r : Int, ScalarWrite s (exec (.vrmin d a ty m) s) d (BitVec.ofInt 64 r) ∧ (idle → r = hi) ∧ (¬idle → (∃ i < ty.lanes, on i ∧ r = X i) ∧ ∀ i < ty.lanes, on i → r ≤ X i)))
    ∧ (ty.inF = true →
      (idle → ScalarWrite s (exec (.vrsum d a ty m) s) d 0 ∧ ScalarWrite s (exec (.vrmax d a ty m) s) d 0xFF800000 ∧ ScalarWrite s (exec (.vrmin d a ty m) s) d 0x7F800000)
      ∧ (¬idle → ScalarWrite s (exec (.vrsum d a ty m) s) d (BitVec.ofNat 64 (toF32 ((treeSum (Nat.log2 ty.lanes)
          ((List.range ty.lanes).map fun i => if s.laneOn m i then decodeElem ty (s.lane ty a i) else .fin true 0 0)).headD .nan))))
      ∧ ScalarWrite s (exec (.vrmax d a ty m) s) d (BitVec.ofNat 64 (toF32 ((((List.range ty.lanes).filter fun i => s.laneOn m i).map fun i => decodeElem ty (s.lane ty a i)).foldl numMax (.inf true))))
      ∧ ScalarWrite s (exec (.vrmin d a ty m) s) d (BitVec.ofNat 64 (toF32 ((((List.range ty.lanes).filter fun i => s.laneOn m i).map fun i => decodeElem ty (s.lane ty a i)).foldl numMin (.inf false)))))
    ∧ LaneWrite s (exec (.vsf f v a ty m) s) v ty m (fun i => floatBits ty (ofF32 (specFn32 f (toF32 (decodeElem ty (s.lane ty a i))))))
    ∧ (ofF32 x = .nan → specFn32 f x = 0x7FC00000)
    ∧ (∀ k e, k ≠ 0 → fin true k e → specFn32 .rsqrt x = 0x7FC00000 ∧ specFn32 .sqrt x = 0x7FC00000 ∧ specFn32 .log2 x = 0x7FC00000)
    ∧ specFn32 .rcp 0 = 0x7F800000 ∧ specFn32 .rcp 0x80000000 = 0xFF800000 ∧ specFn32 .rcp 0x7F800000 = 0 ∧ specFn32 .rcp 0xFF800000 = 0x80000000
    ∧ specFn32 .rsqrt 0 = 0x7F800000 ∧ specFn32 .rsqrt 0x80000000 = 0xFF800000 ∧ specFn32 .rsqrt 0x7F800000 = 0 ∧ specFn32 .sqrt 0x80000000 = 0x80000000
    ∧ specFn32 .exp2 0xFF800000 = 0 ∧ specFn32 .exp2 0x7F800000 = 0x7F800000 ∧ specFn32 .log2 0 = 0xFF800000 ∧ specFn32 .log2 0x80000000 = 0xFF800000
    ∧ specFn32 .tanh 0x7F800000 = 0x3F800000 ∧ specFn32 .tanh 0xFF800000 = 0xBF800000 ∧ specFn32 .sigm 0xFF800000 = 0 ∧ specFn32 .sigm 0x7F800000 = 0x3F800000
    ∧ ∀ n < 128, specFn32 .exp2 (toF32 (.fin false n 0)) = (n + 127) * 2 ^ 23 ∧ specFn32 .log2 ((n + 127) * 2 ^ 23) = toF32 (.fin false n 0)

/-- R299, permutes and moves, lane by lane. -/
def Obligations.PermuteResult : Prop :=
  ∀ (s : State) (d a b : VNum) (r : SReg) (ty : ETy) (m : Option MNum) (mk : MNum) (k : Fin 1024) (odd : Bool) (sz : Fin 3),
    let n := ty.lanes
    let w := ty.width
    let x := s.lane ty a
    let y := s.lane ty b
    let by_ := min (s.getS r).toNat n
    let on := (List.range n).filter fun i => (s.getM mk).getLsbD i
    LaneWrite s (exec (.vperm d a b ty m) s) d ty m (fun i => x (s.glane 16 b (if n ≤ 256 then 1 else n / 256) i % n))
    ∧ LaneWrite s (exec (.vslide d a b r ty m) s) d ty m (fun i => if i + by_ < n then x (i + by_) else y (i + by_ - n))
    ∧ LaneWrite s (exec (.vbcast d r ty m) s) d ty m (fun _ => (s.getS r).toNat)
    ∧ LaneWrite s (exec (.vins d r ty k) s) d ty none (fun i => if i = k.val then (s.getS r).toNat else s.lane ty d i)
    ∧ ScalarWrite s (exec (.vext r a ty k) s) r (if ty.isSigned then BitVec.ofInt 64 (elemInt ty (x k.val)) else BitVec.ofNat 64 (x k.val))
    ∧ GroupWrite s (exec (.vzip d a b ty) s) d 2 (fun u => ∀ i < n, u.glane w d 2 (2 * i) = x i ∧ u.glane w d 2 (2 * i + 1) = y i)
    ∧ LaneWrite s (exec (.vunzip d a ty odd) s) d ty none (fun i => s.glane w a 2 (2 * i + if odd then 1 else 0))
    ∧ LaneWrite s (exec (.vrev d a ty m) s) d ty m (fun i => x (n - 1 - i))
    ∧ LaneWrite s (exec (.vcmpr d a ty mk) s) d ty none (fun i => match on[i]? with | some j => x j | none => 0)
    ∧ GroupWrite s (exec (.vmov d a sz) s) d (2 ^ sz.val) (fun u => ∀ j < 2 ^ sz.val, u.getV (vplus d j) = s.getV (vplus a j))

/-! ## Ligature instructions (R308-R314) -/

/-- R309-R314: LADD modulo 2^4096; LPACK the low 4096 bits of the elements' sum at their slots; LMUL the 8192-bit product, with LIG_GUARD or the sticky flag where a coefficient does not fit its slot; LEXT the balanced digits of
its source, cut or clamped; LGW the slot width. -/
def Obligations.LigatureResult : Prop :=
  ∀ (s : State) (d a b : VNum) (ty : ETy) (rev sub sg sat pair : Bool) (o : LigOp) (sw : BitVec 7),
    let width := fun v : BitVec 7 => if v = 0 then s.cx.ligGw.toNat else v.toNat
    let w := width o.sw
    let c := o.count.toNat
    let X := fun i => elemInt ty (s.lane ty a i)
    let place := fun i => o.first.val + o.stride.val * (if rev then c - 1 - i else i)
    let va : Int := if sg then (s.getV a).toInt else (s.getV a).toNat
    let vb : Int := if sg then (s.getV b).toInt else (s.getV b).toNat
    let guard := ligGuard (width sw) sg (s.getV a) (s.getV b)
    let src : Int := if pair then (s.getV (vplus a 1) ++ s.getV a).toInt else (s.getV a).toInt
    let ds := (digits w true ((if pair then 8192 else 4096) / w) src).1
    let lo : Int := if ty.isSigned then -(2 ^ (ty.width - 1)) else 0
    let hi : Int := if ty.isSigned then 2 ^ (ty.width - 1) - 1 else 2 ^ ty.width - 1
    let product := fun u : State => ((u.getV (vplus d 1)).toNat * 2 ^ 4096 + (u.getV d).toNat : Int) = (va * vb) % 2 ^ 8192
    Completes s (exec (.ladd d a b sub) s) (s.setV d (if sub then s.getV a - s.getV b else s.getV a + s.getV b)).retire
    ∧ (c ≤ ty.lanes → Completes s (exec (.lpack d a ty rev o) s)
        (s.setV d (BitVec.ofInt 4096 ((List.range c).map fun i => X i * 2 ^ (w * place i)).sum)).retire)
    ∧ (guard = false → GroupWrite s (exec (.lmul d a b sg sw) s) d 2 product)
    ∧ (guard = true → s.cx.ligTrap = true → TakesTrap s (exec (.lmul d a b sg sw) s) 0x15 0 0)
    ∧ (guard = true → s.cx.ligTrap = false → ∃ u, exec (.lmul d a b sg sw) s = .next u ∧ (∀ k, u.rawByte k = s.rawByte k)
        ∧ u.cx = { s.cx with v := u.cx.v, ligGf := true, strands := u.cx.strands } ∧ u.st = s.st.retire 1 ∧ product u)
    ∧ LaneWrite s (exec (.lext d a ty sat pair o) s) d ty none
        (fun i => if i < c then ((let v := ds.getD (o.first.val + o.stride.val * i) 0; if sat then max lo (min hi v) else v) % 2 ^ ty.width).toNat else s.lane ty d i)
    ∧ Completes s (exec (.lgw sw) s) (s.modCx fun x => { x with ligGw := sw }).retire
    ∧ (8 ≤ w → w ≤ 64 → ∀ j < ds.length, -(2 ^ (w - 1)) ≤ ds.getD j 0 ∧ ds.getD j 0 < 2 ^ (w - 1))

/-- R63, R64, FLD and FLDX at their offset: a misaligned offset raises FOLIO_ALIGN with nothing read; inside a resident leaf the bytes load
little-endian and extended; past the context's leaves they read zero and the access is recorded; a spilled leaf makes the strand wait.
R63, R64, FST and FSTX at their offset: exactly the n low bytes of the data register are stored in the leaf, little-endian, and no other byte
of the folio or of memory changes; past the context's leaves the write is dropped and recorded.
R104, R119-R121, the folio forms of the vector loads and stores: the first misaligned enabled offset raises FOLIO_ALIGN, for a load once no earlier lane is spilled or past correction; where every enabled chunk lies in a resident leaf the loads take its bytes into the enabled
lanes and write no memory, and the stores write exactly the enabled chunks' bytes in lane order. -/
def Obligations.FolioAccess : Prop :=
  (∀ (s : State) (d b : SReg) (a : AReg) (disp : BitVec 32) (oc : Fin 16) (size : Fin 4) (sx : Bool),
      let n := 2 ^ size.val
      ∀ (o : Word) (out : Out), (o = s.getA a + disp.signExtend 64 ∧ out = exec (.fld d a disp oc size sx) s)
          ∨ (o = s.getA a + disp.signExtend 64 + s.getS b * BitVec.ofNat 64 n ∧ out = exec (.fldx d a b disp oc size sx) s) →
        (o.toNat % n ≠ 0 → TakesTrap s out 0x08 0 o)
        ∧ (o.toNat % n = 0 → ∀ p, InLeaf s o n p → ∃ t, out = .next t
            ∧ t = { s with dies := t.dies }.modSt (fun _ => t.st) ∧ (s.co.inject = 0 → s.co.flips = [] → t.dies = s.dies) ∧ (∀ k, t.rawByte k = s.rawByte k)
            ∧ t.st = { s.st.retire 1 with s := t.st.s }
            ∧ WritesS s.st t.st d (extend (8 * n) sx (leNat ((List.range n).map fun i => SMap.get 0 s.co.folio (leafByte p (o.toNat + i))))))
        ∧ (o.toNat % n = 0 → s.cx.diag = false → s.cx.leaves.length * 16384 ≤ o.toNat → ∃ t, out = .next t ∧ OnlyCtx s t
            ∧ t.cx = { s.cx with strands := t.cx.strands, oob := t.cx.oob, oobAt := t.cx.oobAt } ∧ t.cx.oob.getLsbD 63 = true
            ∧ t.st = { s.st.retire 1 with s := t.st.s } ∧ WritesS s.st t.st d 0)
        ∧ (o.toNat % n = 0 → s.cx.diag = false → o.toNat < s.cx.leaves.length * 16384 → (s.cx.leaves[o.toNat / 16384]?).bind (·.phys) = none →
            ∃ t, out = .next t ∧ OnlyStrand s t ∧ t.st = { s.st with wait := some .retry, wants := [o.toNat / 16384] }))
  ∧
  (∀ (s : State) (d b : SReg) (a : AReg) (disp : BitVec 32) (oc : Fin 16) (size : Fin 4),
      let n := 2 ^ size.val
      ∀ (o v : Word) (out : Out), (o = s.getA a + disp.signExtend 64 ∧ v = s.getS b ∧ out = exec (.fst a b disp oc size) s)
          ∨ (o = s.getA a + disp.signExtend 64 + s.getS b * BitVec.ofNat 64 n ∧ v = s.getS d ∧ out = exec (.fstx d a b disp oc size) s) →
        (o.toNat % n ≠ 0 → TakesTrap s out 0x08 0 o)
        ∧ (o.toNat % n = 0 → ∀ p, InLeaf s o n p → ∃ t, out = .next t
            ∧ t = (s.modCo fun k => { k with folio := t.co.folio, folioPoison := t.co.folioPoison, flips := t.co.flips }).retire
            ∧ (∀ k, t.rawByte k = s.rawByte k)
            ∧ (∀ i < n, SMap.get 0 t.co.folio (leafByte p (o.toNat + i)) = (v >>> (8 * i)).setWidth 8)
            ∧ ∀ c, (∀ i < n, c ≠ leafByte p (o.toNat + i)) → SMap.get 0 t.co.folio c = SMap.get 0 s.co.folio c)
        ∧ (o.toNat % n = 0 → s.cx.diag = false → s.cx.leaves.length * 16384 ≤ o.toNat → ∃ t, out = .next t ∧ OnlyCtx s t
            ∧ t.cx = { s.cx with strands := t.cx.strands, oob := t.cx.oob, oobAt := t.cx.oobAt } ∧ t.cx.oob.getLsbD 63 = true ∧ t.st = s.st.retire 1))
  ∧
  (∀ (s : State) (d b c : VNum) (r : SReg) (ty : ETy) (sz : Fin 3) (scl : Bool) (m : VMemOp), m.folio = true →
      let g := 2 ^ sz.val
      let n := chunkBytes ty
      let ea := s.getA m.mem.base + m.mem.disp.signExtend 64
      let leaf := fun a : Word => (s.cx.leaves[a.toNat / 16384]?).bind (·.phys)
      let cell := fun (a : Word) (i : Nat) => leafByte ((leaf a).getD 0) (a.toNat + i)
      let good := fun a : Word => a.toNat % n = 0 ∧ a.toNat + n ≤ s.cx.leaves.length * 16384 ∧ leaf a ≠ none ∧ ∀ i < n, s.co.folioBad (cell a i / 8) = false
      let want := fun addrs : List Word => addrs.zipIdx.map fun e => if s.chunkOn ty m.mask e.2 then some e.1 else none
      let traps := fun (out : Out) (addrs : List Word) =>
        ∀ a, (want addrs).find? (fun e => e.any fun a => decide (a.toNat % n ≠ 0)) = some (some a) → TakesTrap s out 0x08 0 a
      let fits := fun a : Word => a.toNat % n = 0 ∧ ∀ i < n, (a + BitVec.ofNat 64 i).toNat < s.cx.leaves.length * 16384 →
        leaf (a + BitVec.ofNat 64 i) ≠ none ∧ s.co.folioBad (leafByte ((leaf (a + BitVec.ofNat 64 i)).getD 0) (a + BitVec.ofNat 64 i).toNat / 8) = false
      let loads := fun (out : Out) (g : Nat) (addrs : List Word) =>
        (∀ (k : Nat) (a : Word), (want addrs)[k]? = some (some a) → a.toNat % n ≠ 0 → (∀ j < k, ∀ e, (want addrs)[j]? = some (some e) → fits e) →
          TakesTrap s out 0x08 0 a)
        ∧ (s.co.inject = 0 → s.co.flips = [] → (∀ a, some a ∈ want addrs → good a) → Completes s out
          (s.loadLanes ty m.mask d g ((want addrs).map fun e => e.map fun a => leNat ((List.range n).map fun i => SMap.get 0 s.co.folio (cell a i)))).retire)
      let stores := fun (out : Out) (addrs : List Word) (data : List Nat) =>
        traps out addrs ∧ ((∀ a, some a ∈ want addrs → good a) →
          let items := ((want addrs).zip data).zipIdx.filterMap fun e => e.1.1.map fun a => (a, e.1.2, e.2)
          let cells := items.flatMap fun e => (List.range n).map fun i => FolCell.fol (cell e.1 i)
          let bytes := items.flatMap fun e =>
            if ty.width = 4 then [blend (s.chunkMask ty m.mask e.2.2) (SMap.get 0 s.co.folio (cell e.1 0)) (BitVec.ofNat 8 e.2.1)] else leBytes n e.2.1
          Completes s out (s.modCo fun k => k.writeCells false cells bytes).retire)
      let contiguous := (List.range (g * (512 / n))).map fun c => ea + BitVec.ofNat 64 (c * n)
      let strided := (List.range (512 / n)).map fun i => ea + BitVec.ofNat 64 i * s.getS r
      loads (exec (.vld d ty sz m) s) g contiguous
      ∧ loads (exec (.vlds d r ty m) s) 1 strided
      ∧ loads (exec (.vgath d b ty scl m) s) 1 (s.gatherAddrs ty ea b scl)
      ∧ stores (exec (.vst b ty sz m) s) contiguous (lanesOf (8 * n) (g * (512 / n)) (s.groupNat b g))
      ∧ stores (exec (.vsts r c ty m) s) strided (lanesOf (8 * n) (512 / n) (s.groupNat c 1))
      ∧ stores (exec (.vscat b c ty scl m) s) (s.gatherAddrs ty ea b scl) (lanesOf (8 * n) (512 / n) (s.groupNat c 1)))

/-! ## Events of chains, waits and phases (R134, R147, R148, R159-R171, R192-R196, R242, R259) -/

/-- R131, R133, DUCT and DCOL: DUCT on a free slot marks it busy with the next sequence number and hands one packet to its own die, on a busy one raises DUCT_TAG; DCOL
on a free slot raises DUCT_TAG, without a result waits, and with one writes the pointer or the data and the status word, and frees the slot.
R132, one step of a chain at a die: an address of another owner with no hop left ends with HOP_LIMIT; else the hop counts and the packet goes on to that owner, or, where it is absent or
in this package and outside the partition, ends with ALIGN or with FAULT and FK 3. Here a misaligned address ends with ALIGN and a page that is not mapped with FAULT and FK 1; a readable intermediate word masked is
the next pointer, the chain's last pointer too where nothing more is loaded, and the last read's first word is masked.
R134, R192, R194, R196, the ductus events. DUCTUS_STEP_SERVE first drops stale packets; of two packets the more urgent one is served, the older one on a tie: its end sends its result, a
step made leaves it in its place, a forward hands it to the next owner. DUCTUS_RESULT_ACCEPT fills the busy slot of the same number and discards a stale or unmatched result; one that comes after 1,048,576 cycles is discarded as the slot's chain is lost. DUCTUS_LOST
completes a chain after 1,048,576 cycles with LOST and its start pointer. -/
def Obligations.DuctusChains : Prop :=
  (∀ (s : State) (tag : Fin 16) (a : AReg) (b d : VNum) (n1 h1 : Fin 8) (lc : Fin 5) (oc : Fin 16) (r : SReg),
      let t := s.cx.ducts[tag]
      let free : State := s.modCx fun x => { x with ducts := x.ducts.set tag { t with busy := false, result := false } }
      (t.busy = true → TakesTrap s (exec (.duct tag a b n1 h1 lc oc) s) 0x0F 0 0)
      ∧ (t.busy = false → ∃ u p, exec (.duct tag a b n1 h1 lc oc) s = .next u ∧ (∀ k, u.rawByte k = s.rawByte k) ∧ u.st = s.st.retire 1
          ∧ u.di.packets = s.di.packets ++ [p] ∧ p.p = s.getA a ∧ p.n = n1.val + 1 ∧ p.h = h1.val + 1 ∧ p.k = 0 ∧ p.hops = 0 ∧ p.asid = s.cx.asid ∧ p.part = s.cx.part
          ∧ p.uid = s.cx.uid ∧ p.tag = tag ∧ p.seq = t.seq + 1 ∧ p.oc = oc ∧ p.lc = lc
          ∧ p.steps = (List.range (n1.val + 1)).map (fun i => ((s.getV b).extractLsb' (128 * i) 64, (s.getV b).extractLsb' (128 * i + 64) 32))
          ∧ u.cx.ducts[tag].busy = true ∧ u.cx.ducts[tag].result = false ∧ u.cx.ducts[tag].seq = t.seq + 1 ∧ u.cx.ducts[tag].start = s.getA a
          ∧ ∀ g, g ≠ tag → u.cx.ducts[g] = s.cx.ducts[g])
      ∧ (t.busy = false → ∀ x, TakesTrap s (exec (.dcol x tag) s) 0x0F 0 0)
      ∧ (t.busy = true → t.result = false → ∀ x, Completes s (exec (.dcol x tag) s) s.hold)
      ∧ (t.busy = true → t.result = true →
          Completes s (exec (.dcol (.s r) tag) s)
            (free.modSt fun k => (k.setS r (if t.status.extractLsb' 0 8 = 0 ∧ t.len ≠ 0 then leWord (t.data.take 8) else t.p)).setS (r + 1) t.status).retire
          ∧ (t.data.length ≤ 64 → ∃ v, Completes s (exec (.dcol (.v d) tag) s) (free.setV d v).retire
              ∧ (∀ i < 64, laneOf 8 v.toNat i = (t.data.getD i 0).toNat) ∧ v.extractLsb' 512 64 = t.p ∧ v.extractLsb' 576 64 = t.status
              ∧ ∀ i, 80 ≤ i → laneOf 8 v.toNat i = 0)))
  ∧
  (∀ (s : State) (here : Nat) (p : Packet) (m : Word) (o : BitVec 32), p.steps[p.k]? = some (m, o) →
      let addr := p.p + o.signExtend 64
      let owner := if addr.extractLsb' 48 16 = 0xFFFF then here else (addr.extractLsb' 48 16).toNat
      let last := decide (p.k + 1 = p.n ∧ p.lc ≠ 0)
      let size := if last = true then 4 * 2 ^ p.lc.val else 8
      let by_ := s.issuer p
      let ag : Agent := { die := here, part := p.part, asid := p.asid, vi := by_.bind (·.vi), home := true }
      let there := owner / 4 ∈ s.domain ∧ (owner / 4 ≠ here / 4 ∨ s.partIn (owner / 4) p.part = true)
      let q := { p with hops := p.hops + 1 }
      (owner ≠ here → p.hops = p.h → serveStep s here p = .done s p (ductStatus 2 p.k p.hops 0) [])
      ∧ (owner ≠ here → p.hops ≠ p.h →
          (there → serveStep s here p = .forward q owner)
          ∧ (¬there → serveStep s here p = if addr.toNat % size = 0 then .done s q (ductStatus 1 p.k q.hops 3) [] else .done s q (ductStatus 3 p.k q.hops 0) []))
      ∧ (owner = here → addr.toNat % size ≠ 0 → serveStep s here p = .done s p (ductStatus 3 p.k p.hops 0) [])
      ∧ (owner = here → addr.toNat % size = 0 →
          (∀ st va, s.readVa ag .rd addr size = .error (.xlateMiss st, va) →
            serveStep s here p = .done (countError s ag (.xlateMiss st) va) p (ductStatus 1 p.k p.hops 1) [])
          ∧ ∀ xs bs, s.readVa ag .rd addr size = .ok (xs, bs) → (∀ c, by_ = some c → hostWaits s c xs false = false) →
              let u := noteRead (match by_ with | some c => hostChargeN s c xs false size | none => s) here xs
              let w := leWord (bs.take 8) &&& m
              (last = true → serveStep s here p = .done u p (ductStatus 0 p.k p.hops 0) (leBytes 8 w.toNat ++ bs.drop 8))
              ∧ (p.k + 1 = p.n → p.lc = 0 → serveStep s here p = .done u { p with p := w } (ductStatus 0 p.k p.hops 0) [])
              ∧ (p.k + 1 < p.n → serveStep s here p = .again u { p with p := w, k := p.k + 1 })))
  ∧
  ((∀ (s : State) (o : Nat),
      let s1 := s.modDie o fun d => { d with packets := d.packets.filter fun p => !staleGen s p.part p.rgen }
      let serves := fun (p : Packet) (i : Nat) =>
        let off := fun t : State => t.modDie o fun d => { d with packets := d.packets.eraseIdx i }
        (∀ t q w bs, serveStep s1 o p = .done t q w bs →
          (q.rpkg = s.package → t.package = s.package → exec (.ductusStepServe o) s = .next { off t with results := t.results ++ [ductResult q w bs] })
          ∧ exec (.ductusStepServe o) s = .next (sendResult (off t) q w bs))
        ∧ (∀ t q, serveStep s1 o p = .again t q → exec (.ductusStepServe o) s = .next (t.modDie o fun d => { d with packets := d.packets.set i q }))
        ∧ ∀ q x, serveStep s1 o p = .forward q x →
          exec (.ductusStepServe o) s = .next (if x / 4 = s.package then (off s1).modDie x fun d => { d with packets := d.packets ++ [q] } else sendOn (off s1) q x)
      ((s1.die o).packets = [] → exec (.ductusStepServe o) s = .next s1)
      ∧ (∀ p, (s1.die o).packets = [p] → serves p 0)
      ∧ ∀ p q, (s1.die o).packets = [p, q] → if p.urg.toNat < q.urg.toNat then serves q 1 else serves p 0)
    ∧ (∀ (s : State) (i : Nat) (r : DuctResult), s.results[i]? = some r →
        let s1 : State := { s with results := s.results.eraseIdx i }
        let uid := if r.uid = 0 then s1.requester r.rcore r.rslot r.tag r.seq else r.uid
        (staleGen s r.part r.rgen = true ∨ s.findUid uid = none → exec (.ductusResultAccept i) s = .next s1)
        ∧ ∀ ref x, staleGen s r.part r.rgen = false → s.findUid uid = some (ref, x) →
            let t := x.ducts[r.tag]
            let waits := t.busy = true ∧ t.result = false
            let inTime := s.time < t.at_ + 1048576
            (waits → inTime → t.seq = r.seq → exec (.ductusResultAccept i) s = .next (s1.putCtx ref
              ({ x with ducts := x.ducts.set r.tag { t with result := true, p := r.p, status := r.status, data := r.data } }.modStrand (Fin.ofNat 4 t.strand) (·.event 2))))
            ∧ (waits → ¬inTime → exec (.ductusResultAccept i) s = .next (s1.putCtx ref
                { x with ducts := x.ducts.set r.tag { t with result := true, p := t.start, status := 6, data := [] } }))
            ∧ (¬waits ∨ (inTime ∧ t.seq ≠ r.seq) → exec (.ductusResultAccept i) s = .next (s1.putCtx ref x)))
    ∧ ∀ (s : State) (c : CtxRef) (x : Ctx) (tag : Fin 16), s.findCtx c = some x →
        let t := x.ducts[tag]
        (t.busy = true → t.result = false → t.at_ + 1048576 ≤ s.time →
          exec (.ductusLost c tag) s = .next (s.putCtx c { x with ducts := x.ducts.set tag { t with result := true, p := t.start, status := 6, data := [] } }))
        ∧ (t.busy = false ∨ t.result = true ∨ s.time < t.at_ + 1048576 → exec (.ductusLost c tag) s = .next (s.putCtx c x)))

/-- R205-R208, BARR and BMEMB: on a group of another partition ACCESS_FAULT, on one that has lost its root a wait; else a non-member gets a token with NM, a member arrives in the oldest of C and C + 1 it
has not arrived in, and one that has arrived in both waits; a join of an empty group takes effect at once, another one is pending, and a leave or join that cannot be answers its status.
R209, BWAIT and BTRY: by the signed distance d of the token's generation from C: DONE with STALE for d ≤ -2, DONE for d = -1, pending for d = 0 or for d = 1 with an arrival in
C + 1 (BWAIT waits, BTRY answers), else BAR_FUTURE; on a group of another partition ACCESS_FAULT, on one that has lost its root a wait (R244).
R207, R208, R244, when a generation completes: with a member, here or counted from another package, that has neither arrived in C nor leaves nothing changes, nor where
the root is another package; where every member has arrived or leaves, C becomes C + 1, leavers go, pending joins become members and arrivals in the old C + 1 count in the new C; a second
generation completes at once only where everyone stands in it.
R147, R148, R209, R242, the ends of waits: a barrier wait ends with DONE and the next generation's number once its generation is complete, whatever has completed since, and goes on until then, or for ever where the group's root is lost (R244); WFE ends at its time with 0 and BLWAIT with
the progress word of its die, and neither ends before its time. -/
def Obligations.Barriers : Prop :=
  (∀ (s : State) (d a : SReg) (sc : Scope),
      let n := (s.getS a).toNat % 4096
      let g := s.group n
      let me := strandIx s.focus
      let uid := s.cx.uid
      let agent := match sc with | .core => s.focus.core | .quad => s.focus.core / 4 | .die => s.focus.core / 96 | _ => 0
      let isMe := fun m : Member => m.uid == uid && m.strand == me.val
      let total := memberships s uid
      let at' := g.members.find? isMe
      (g.owner ≠ some s.cx.part → TakesTrap s (exec (.barr d a) s) 0x09 0 0 ∧ TakesTrap s (exec (.bmembJoin d a sc) s) 0x09 0 0
        ∧ TakesTrap s (exec (.bmembLeave d a) s) 0x09 0 0)
      ∧ (g.owner = some s.cx.part → g.lost = true → Completes s (exec (.barr d a) s) s.hold ∧ Completes s (exec (.bmembJoin d a sc) s) s.hold
        ∧ Completes s (exec (.bmembLeave d a) s) s.hold)
      ∧ (g.owner = some s.cx.part → g.lost = false →
          (at' = none → Completes s (exec (.barr d a) s) (s.status d (g.c.setWidth 64 <<< 32 ||| 0x2000 ||| BitVec.ofNat 64 n)))
          ∧ (∀ m, at' = some m → m.inC = false → m.leaving = false → Completes s (exec (.barr d a) s)
              ((s.putGroup n { g with members := g.members.map fun m => if isMe m then { m with inC := true } else m }.settle).status d
                (g.c.setWidth 64 <<< 32 ||| BitVec.ofNat 64 n)))
          ∧ (∀ m, at' = some m → m.inC = true → m.inC1 = false → Completes s (exec (.barr d a) s)
              ((s.putGroup n { g with members := g.members.map fun m => if isMe m then { m with inC1 := true } else m }.settle).status d
                ((g.c + 1).setWidth 64 <<< 32 ||| BitVec.ofNat 64 n)))
          ∧ (∀ m, at' = some m → m.inC = true → m.inC1 = true → Completes s (exec (.barr d a) s) s.hold)
          ∧ (g.vacant = true → total < 64 → Completes s (exec (.bmembJoin d a sc) s)
              ((s.putGroup n { g with scope := sc, agent := agent, root := s.package, members := [{ uid := uid, strand := me.val }] }).status d 0))
          ∧ (g.vacant = true → 64 ≤ total → Completes s (exec (.bmembJoin d a sc) s) ((s.putGroup n g).status d 11))
          ∧ (g.vacant = false → g.scope ≠ sc ∨ g.agent ≠ agent → Completes s (exec (.bmembJoin d a sc) s) ((s.putGroup n g).status d 5))
          ∧ (g.vacant = false → g.scope = sc → g.agent = agent → at' = none → (uid, me.val) ∉ g.joins → g.members.length + g.joins.length < 16777215 → total < 64 →
              Completes s (exec (.bmembJoin d a sc) s) ((s.putGroup n { g with joins := g.joins ++ [(uid, me.val)] }).status d 0))
          ∧ (g.vacant = false → g.scope = sc → g.agent = agent → at'.isSome = true ∨ (uid, me.val) ∈ g.joins →
              Completes s (exec (.bmembJoin d a sc) s) ((s.putGroup n g).status d 0))
          ∧ (at' = none → (uid, me.val) ∉ g.joins → Completes s (exec (.bmembLeave d a) s) ((s.putGroup n g).status d 5))
          ∧ ((uid, me.val) ∈ g.joins → Completes s (exec (.bmembLeave d a) s)
              ((s.putGroup n { g with joins := g.joins.filter fun j => j ≠ (uid, me.val) }).status d 0))
          ∧ (∀ m, at' = some m → (uid, me.val) ∉ g.joins → Completes s (exec (.bmembLeave d a) s)
              ((s.putGroup n { g with members := g.members.map fun m => if isMe m then { m with leaving := true, inC1 := false } else m }.settle).status d 0))))
  ∧
  (∀ (s : State) (d a : SReg),
      let v := s.getS a
      let n := v.toNat % 4096
      let g := s.group n
      let dist := (v.extractLsb' 32 32 - g.c).toInt
      let now := g.c.setWidth 64 <<< 32
      let early := ∃ m ∈ g.members, m.inC1 = true
      let both := [exec (.bwait d a) s, exec (.btry d a) s]
      (g.owner ≠ some s.cx.part → ∀ o ∈ both, TakesTrap s o 0x09 0 0)
      ∧ (g.owner = some s.cx.part → g.lost = true → ∀ o ∈ both, Completes s o s.hold)
      ∧ (g.owner = some s.cx.part → g.lost = false →
          (dist ≤ -2 → ∀ o ∈ both, ScalarWrite s o d (now ||| 3))
          ∧ (dist = -1 → ∀ o ∈ both, ScalarWrite s o d (now ||| 2))
          ∧ (dist = 0 ∨ (dist = 1 ∧ early) → ScalarWrite s (exec (.btry d a) s) d now
              ∧ Completes s (exec (.bwait d a) s) (s.modSt fun t => { t with wait := some (.barrier d n (v.extractLsb' 32 32)) }))
          ∧ (2 ≤ dist ∨ (dist = 1 ∧ ¬early) → ∀ o ∈ both, TakesTrap s o 0x14 0 0)))
  ∧
  (∀ g : Group,
      let all := (∀ m ∈ g.members, m.inC = true ∨ m.leaving = true) ∧ ∀ r ∈ g.remote, r.2.leaving = true ∨ r.2.members ≤ r.2.inC
      let stays := (∃ m ∈ g.members, m.leaving = false) ∨ ∃ r ∈ g.remote, r.2.leaving = false ∧ r.2.members ≠ 0
      let late := (∃ m ∈ g.members, m.leaving = false ∧ m.inC1 = false) ∨ ∃ r ∈ g.remote, r.2.leaving = false ∧ r.2.inC1 < r.2.members
      let next : Group := { g with c := g.c + 1, joins := []
                                   members := (g.members.filter fun m => !m.leaving).map (fun m => { m with inC := m.inC1, inC1 := false })
                                     ++ g.joins.map fun j => { uid := j.1, strand := j.2 }
                                   remote := (g.remote.filter fun r => !r.2.leaving).map fun r => (r.1, { r.2 with inC := r.2.inC1, inC1 := 0 }) }
      (g.elsewhere = true ∨ ¬all → g.settle = g)
      ∧ (g.vacant = false → g.elsewhere = false → all →
          (late ∨ g.joins ≠ [] ∨ ¬stays → g.settle = next) ∧ (¬late → g.joins = [] → stays → g.settle.c = g.c + 2))
      ∧ (g.settle.c = g.c ∨ g.settle.c = g.c + 1 ∨ g.settle.c = g.c + 2))
  ∧
  (∀ (s : State) (r : StrandRef) (d : SReg),
      (∀ n gen, (s.strandAt r).wait = some (.barrier d n gen) →
        let c := (s.group n).c
        ((s.group n).lost = false → (gen - c).toInt < 0 → exec (.barrierCompletionArrival r) s =
          .next (s.modStrandAt r fun t => ({ (t.setS d (((gen + 1) ++ (0 : BitVec 32)) ||| 2)) with wait := none }).retire 1))
        ∧ (0 ≤ (gen - c).toInt ∨ (s.group n).lost = true → exec (.barrierCompletionArrival r) s = .next s))
      ∧ (∀ at_, (s.strandAt r).wait = some (.event d (some at_)) →
          (at_ ≤ s.time → exec (.wfeTimeout r) s = .next (s.modStrandAt r fun t => ({ (t.setS d 0) with wait := none }).retire 1))
          ∧ (s.time < at_ → exec (.wfeTimeout r) s = .next s))
      ∧ ∀ job at_, (s.strandAt r).wait = some (.blot d job (some at_)) →
          (at_ ≤ s.time → exec (.blwaitTimeout r) s = .next (s.modStrandAt r fun t =>
            ({ (t.setS d (s.die (s.package * 4 + r.core / 96)).progress) with wait := none }).retire 1))
          ∧ (s.time < at_ → exec (.blwaitTimeout r) s = .next s))

/-- R165, R259, BSWAP: an open with good pairs whose back leaves are resident opens a phase with DONE; while a phase is open BUSY; a pair count outside 1 to 32, a leaf named twice or not there BAD_TARGET. A swap or a close without a phase
answers BAD_TARGET; else the strand waits for the commit.
R165, R166, R259, PHASE_COMMIT: while a task of the phase is not done, or the phase is held, or no swap waits, or a store of it would reach a byte of a blotter job (R389), nothing happens; else the stores of its tasks reach memory and their transfers end, and the phase closes or the
next one opens with fronts and backs exchanged and its back leaves set up; a commit counts SEQ and clears RUN. Where a held row differs from its CRC the phase aborts with STORE_SDC and, below
the replay limit, no byte reaches memory; where a leaf to be set up holds C bytes of a QMMA accepted since, the swap is refused (log 111). -/
def Obligations.PhaseSwapAndCommit : Prop :=
  (∀ (s : State) (d : SReg) (v : VNum) (n : BitVec 6),
      let pairs : List LeafPair := (List.range n.toNat).map fun i =>
        { front := ((s.getV v).extractLsb' (16 * i) 7).toNat, back := ((s.getV v).extractLsb' (16 * i + 7) 7).toNat, copy := (s.getV v).getLsbD (16 * i + 14) }
      let named := pairs.flatMap fun p => [p.front, p.back]
      let range := n.toNat = 0 ∨ 32 < n.toNat
      let bad := (∃ l ∈ named, s.cx.leaves.length ≤ l) ∨ ¬named.Nodup ∨ ∃ p ∈ pairs, s.cx.jointHolds p.back = true
      (s.cx.phase ≠ none → ScalarWrite s (exec (.bswapOpen d v n) s) d 11)
      ∧ (s.cx.phase = none → range ∨ bad → ScalarWrite s (exec (.bswapOpen d v n) s) d 5)
      ∧ (s.cx.phase = none → ¬range → ¬bad →
          ((∃ p ∈ pairs, s.cx.leafHere p.back = false) → Completes s (exec (.bswapOpen d v n) s)
              (s.holdLeaves ((pairs.map (·.back)).filter fun l => !s.cx.leafHere l)))
          ∧ ((∀ p ∈ pairs, s.cx.leafHere p.back = true) → exec (.bswapOpen d v n) s = .next
              (((setUpLeaves s s.focus.core s.cx pairs).modCx fun x => { x with phase := some { num := x.nextPhase, pairs := pairs }, nextPhase := x.nextPhase + 1 }).status d 0)))
      ∧ (s.cx.phase = none → ScalarWrite s (exec (.bswap d) s) d 5 ∧ ScalarWrite s (exec (.bswapClose d) s) d 5)
      ∧ ∀ h, s.cx.phase = some h → h.committing = none →
          let waits := fun (o : Out) (reopen : Bool) => Completes s o ((s.modCx fun x =>
            { x with phase := some { h with committing := some ((strandIx s.focus).val, reopen) } }).modSt fun t => { t with wait := some (.swap d reopen) })
          waits (exec (.bswapClose d) s) false
          ∧ ((∀ p ∈ h.pairs, s.cx.jointHolds p.front = false) → waits (exec (.bswap d) s) true)
          ∧ ((∃ p ∈ h.pairs, s.cx.jointHolds p.front = true) → ScalarWrite s (exec (.bswap d) s) d 5))
  ∧
  (∀ (s : State) (c : CtxRef) (x : Ctx) (h : Phase), s.findCtx c = some x → x.phase = some h →
      let done := commitPhase s c (.opened h.num)
      let ps := h.pairs.map fun p : LeafPair => { front := p.back, back := p.front, copy := p.copy }
      (h.committing = none ∨ h.hold.isSome = true ∨ (∃ e ∈ x.tasks, e.2.phase = some h.num ∧ e.2.committed = false ∧ e.2.st ≠ .done)
          ∨ storesWait s x (.opened h.num) = true → exec (.phaseCommit c) s = .next s)
      ∧ (x.rung = .running → h.hold = none → storesWait s x (.opened h.num) = false → (∀ e ∈ x.tasks, e.2.phase = some h.num → e.2.committed = false → e.2.st = .done) →
          (∀ i q t, h.committing = some (i, false) → rowBadIn x (.opened h.num) = some (q, t) →
            exec (.phaseCommit c) s = .next (storeSdc s c (.opened h.num) q t)
              ∧ (h.run + 1 < x.limit.toNat → (storeSdc s c (.opened h.num) q t).mem = s.mem))
          ∧ (∀ i, h.committing = some (i, false) → rowBadIn x (.opened h.num) = none → exec (.phaseCommit c) s = .next (done.modRef c fun y => finishSwap { y with phase := none } i))
          ∧ (∀ i, h.committing = some (i, true) → (∀ p ∈ h.pairs, x.leafHere p.front = true) → (∃ p ∈ h.pairs, x.jointHolds p.front = true) →
              exec (.phaseCommit c) s = .next (s.modRef c fun y => refuseSwap y h i))
          ∧ ∀ i, h.committing = some (i, true) → rowBadIn x (.opened h.num) = none → (∀ p ∈ h.pairs, x.leafHere p.front = true) → (∀ p ∈ h.pairs, x.jointHolds p.front = false) →
              ∀ y, done.findCtx c = some y → exec (.phaseCommit c) s = .next ((setUpLeaves done (refCore c) y ps).modRef c fun y =>
                finishSwap { y with phase := some { num := y.nextPhase, pairs := ps }, nextPhase := y.nextPhase + 1 } i))
      ∧ (rowBadIn x (.opened h.num) = none → (∃ y, done.findCtx c = some y ∧ y.seqNo = x.seqNo + 1 ∧ y.run = 0)
          ∧ done.mem = ((x.tasksOf (.opened h.num)).foldl (fun u e => dropTransfer u x e.2) (s.perform (storesOf (x.tasksOf (.opened h.num))))).mem))

/-- R163, R164, R167-R171, PHASE_ABORT: a cause that may be reported aborts the task's phase. An abort of the open phase below the replay limit writes no byte of memory, requeues every task of the phase without held stores, counts itself, and for
a class D cause holds the phase and lists one event with the engine, the stage and the code; a remote fetch of A keeps the rows before the failing one (R322). A second class A cause of the same cycle makes no abort of its own: LAST has the lower code. -/
def Obligations.PhaseAborts : Prop :=
  (∀ (s : State) (c : CtxRef) (q pos : Nat) (x : Ctx) (t : Task) (addr : Word), taskAt s c q pos = some (x, t) →
    let aborts := fun (s : State) (code stage : Nat) (classD : Bool) (hold : Option Hold) =>
      abortPhase s c t.phaseId { code := code, engine := min q 2, stage := stage, addr := addr, strand := t.strand, classD := classD, hold := hold, halt := false }
    let kept := fun (u : State) => match fetchedBefore s c x t addr with | some (r, bs) => keepRows u c t r bs | none => u
    (t.committed = false → t.st = .running → t.written = false →
      (∀ st, exec (.phaseAbort c q pos (.xlateMiss st) addr) s = .next (kept (aborts s 0x0A st.toNat true none)))
      ∧ (∀ st, exec (.phaseAbort c q pos (.xlatePerm st) addr) s = .next (kept (aborts s 0x0B st.toNat true none)))
      ∧ (∀ st, exec (.phaseAbort c q pos (.accessFault st) addr) s = .next (kept (aborts s 0x09 st.toNat true none)))
      ∧ exec (.phaseAbort c q pos .memUe addr) s = .next (aborts (countEng s c 0x0C addr) 0x0C 0 false none)
      ∧ exec (.phaseAbort c q pos .memIntegrity addr) s = .next (kept (aborts (countEng s c 0x0D addr) 0x0D 0 true none))
      ∧ exec (.phaseAbort c q pos .pageAbsent addr) s = .next (askHold (aborts s 0x20 0 false (some (.page addr t.num))) c (some (.page addr t.num)))
      ∧ exec (.phaseAbort c q pos .traceMismatch addr) s =
          .next (aborts (s.modCore (refCore c) fun k => { k with rasSdcTrace := satInc k.rasSdcTrace }) 0x21 0 false none))
    ∧ (t.st ≠ .running → t.stoppedAt ≠ some s.time → ∀ st, exec (.phaseAbort c q pos (.xlateMiss st) addr) s = .next s))
  ∧ ∀ (s : State) (c : CtxRef) (x : Ctx) (h : Phase) (a : AbortOf), s.findCtx c = some x → x.phase = some h → a.halt = false →
      let t := abortPhase s c (.opened h.num) a
      (∀ code, x.struckNow s.time (.opened h.num) = some (code, false) → a.classD = false →
        t.mem = s.mem ∧ ∃ y, t.findCtx c = some y ∧ y.last = BitVec.ofNat 8 (min code a.code) ∧ y.aborts = x.aborts ∧ y.phase = x.phase ∧ y.queues = x.queues ∧ y.pendD = x.pendD)
      ∧ (x.struckNow s.time (.opened h.num) = none → h.hold = none → h.run + 1 < x.limit.toNat →
      t.mem = s.mem ∧ ∃ y, t.findCtx c = some y ∧ y.last = BitVec.ofNat 8 a.code ∧ y.aborts = satInc x.aborts
        ∧ (∀ e ∈ y.tasks, e.2.phase = some h.num → e.2.committed = false → e.2.st = .queued ∧ e.2.stores = [])
        ∧ (a.classD = true → y.phase = some { h with run := h.run + 1, hold := some .pending }
            ∧ y.pendD = x.pendD ++ [{ strand := a.strand, cause := BitVec.ofNat 64 (a.engine * 2 ^ 24 + a.stage * 2 ^ 18 + 0x100 + a.code), addr := a.addr
                                      phase := .opened h.num }])
        ∧ (a.classD = false → y.phase = some { h with run := h.run + 1, hold := a.hold } ∧ y.pendD = x.pendD))

/-- R159, R162, R169: CLASS_D_DELIVERY enters level 1 of the issuing strand, or of the lowest live one where that has stopped, with the event's cause and address and a return to its own pc, and holds the phase for its TRET; it stays pending above level 0; with no live strand it kills the context with ORPHAN_KILL, whose record names the strand that issued the task and where it stopped. TRACE_MISMATCH at an upper-half instruction that a ready strand is
about to issue counts itself, loads the tracer's registers anew, aborts the open phase and marks the pc; a second mismatch at the same pc traps with TRACE_MISMATCH and the guard outcome that the strand found (R157). -/
def Obligations.EventDelivery : Prop :=
  (∀ (s : State) (core slot : Nat) (x : Ctx) (p : PendD) (rest : List PendD), s.findCtx (.resident core slot) = some x → x.rung = .running → x.pendD = p :: rest →
    let dest := fun i : Fin 4 => x.strands[i].live = true ∧ ((Fin.ofNat 4 p.strand : Fin 4) = i ∨ (x.strands[(Fin.ofNat 4 p.strand : Fin 4)].live = false ∧ ∀ j < i, x.strands[j].live = false))
    (∀ i : Fin 4, dest i → x.strands[i].level = 0 → x.strands[i].ahead = [] →
      ∃ t, exec (.classDDelivery (.resident core slot)) s = .next t ∧ (∃ y, t.findCtx (.resident core slot) = some y ∧ y.pendD = rest
          ∧ (∀ h, x.phase = some h → p.phase = .opened h.num → h.hold = some .pending → ∃ g, y.phase = some g ∧ g.num = h.num ∧ g.hold = some (.strand i.val))) ∧
        let u := t.strandAt { core := core, slot := slot, strand := i.val }
        u.level = 1 ∧ u.pc = x.strands[i].entry &&& ~~~0xF ∧ u.bank1 = { cause := p.cause, ret := x.strands[i].pc, addr := p.addr, force := false, out := false }
        ∧ u.s = x.strands[i].s ∧ u.a = x.strands[i].a ∧ u.p = x.strands[i].p ∧ (∀ k, t.rawByte k = s.rawByte k))
    ∧ (∀ i : Fin 4, dest i → x.strands[i].level ≠ 0 → rest = [] → exec (.classDDelivery (.resident core slot)) s = .next s)
    ∧ ((∀ i : Fin 4, x.strands[i].live = false) → exec (.classDDelivery (.resident core slot)) s =
        .next (killCtx (s.putCtx (.resident core slot) { x with pendD := rest }) (.resident core slot) 0x33 (p.cause.toNat % 256) (x.strands[(Fin.ofNat 4 p.strand : Fin 4)]).pc p.addr (some (Fin.ofNat 4 p.strand)))))
  ∧ ∀ (s : State) (r : StrandRef) (x : Ctx) (u v : State) (sc : Sched) (i : Instr) (on : Bool), s.findCtx (strandCtx r) = some x → x.rung = .running →
      readyStrand s r = true → prepare s r = .go u v sc i on → upperHalf i = true →
      let t := x.strands[strandIx r]
      let s1 := (s.modCore r.core fun k => { k with rasSdcTrace := satInc k.rasSdcTrace }).modStrandAt r fun t => { t with tracer := {} }
      (t.mismatchAt = some t.pc → exec (.traceMismatch r) s = .next ((withdrawWaits s1 r).trapAt r 0x21 0 t.pc 0 true on))
      ∧ (t.mismatchAt ≠ some t.pc → x.phase = none → exec (.traceMismatch r) s = .next (s1.modStrandAt r fun k => { k with mismatchAt := some t.pc }))
      ∧ ∀ h, t.mismatchAt ≠ some t.pc → x.phase = some h → exec (.traceMismatch r) s =
          .next ((abortPhase s1 (strandCtx r) (.opened h.num)
            { code := 0x21, engine := commandEngine i, stage := 0, addr := 0, strand := (strandIx r).val, classD := false, hold := none, halt := false }).modStrandAt r fun k => { k with mismatchAt := some t.pc })

/-! ## Tasks and joints (R325, R334-R350, R382-R387) -/

/-- R338-R340, an ordinary draw: no step where every value is 0; else the generator steps once, and the entry wins whose interval of the running sum holds floor(output x W / 2^64). -/
def Obligations.DrawByValue : Prop :=
  ∀ (g : Tdu) (ws : List Nat),
    (ws.sum = 0 → g.draw ws = none)
    ∧ (0 < ws.sum → ∃ i, g.draw ws = some (i, g.next.2) ∧ i < ws.length
        ∧ (ws.take i).sum ≤ g.next.1.toNat * ws.sum / 2 ^ 64 ∧ g.next.1.toNat * ws.sum / 2 ^ 64 < (ws.take (i + 1)).sum)
    ∧ g.next.2.cnt = g.cnt ∧ g.next.2.x = g.y ∧ g.next.1 = g.y + g.next.2.y
    ∧ g.next.2.y = (g.x ^^^ (g.x <<< 23)) ^^^ g.y ^^^ ((g.x ^^^ (g.x <<< 23)) >>> 17) ^^^ (g.y >>> 26)

/-- R249, R325, R334, R340, R344-R346, R349, R382-R385, the events of tasks: a draw or an overdue slot marks the winner, which starts in the next cycle, and stores the unit after it; a completion runs the command, pushes its result and completes the task, or aborts its
phase; a budget release comes when the lesser of the task's budget and the BCAP of its start is used up and makes the task ready now; a stall release comes where the task may be unable to go on and has not moved for the STALL x 64 cycles of its start, marks it stalled and pays for the unused rest; a joint's release at member 0 releases every member, a release elsewhere none, and no member completes before all have written; a matrix command waits for older ones that write the same C (R323); a joint wins at member 0 or, with
differing formats, aborts every member; at the write instant each member writes its quadrant. -/
def Obligations.TaskEvents : Prop :=
  (∀ (s : State) (core : Nat) (eng : Engine) (e : Entry) (g : Tdu) (n : Named), e.members = [n] →
    let started := markWin (s.modCore core fun k => { k with tdu := k.tdu.set (unitOf eng) g }) e
    (pickEntry s core eng = some (e, g, false) → exec (.taskDraw core eng) s = .next started ∧ exec (.overdueSlot core eng) s = .next s)
    ∧ (pickEntry s core eng = some (e, g, true) → exec (.overdueSlot core eng) s = .next started ∧ exec (.taskDraw core eng) s = .next s))
  ∧ (∀ (s : State) (core slot q pos : Nat) (x : Ctx) (t : Task), taskAt s (.resident core slot) q pos = some (x, t) →
      let ref : CtxRef := .resident core slot
      let me : Named := { ref := ref, q := q, task := t }
      let budget := min (if t.word.budget = 0 then x.budget.toNat else t.word.budget.toNat) t.cap
      let used := s.time - t.startAt
      let late := max t.startAt t.movedAt + t.lim
      let ready := fun (t : Task) => { t with st := .ready, started := true, won := none, since := s.time }
      (t.st ≠ .running → exec (.taskComplete core slot q pos) s = .next s ∧ exec (.taskBudgetRelease core slot q pos) s = .next s
        ∧ exec (.taskStallRelease core slot q pos) s = .next s)
      ∧ (channelBusy x q t = true ∨ (t.written = false ∧ (t.cmd.jointTag ≠ none ∨ cWaits x t = true)) → exec (.taskComplete core slot q pos) s = .next s)
      ∧ (t.st = .running → t.written = true ∨ (t.cmd.jointTag = none ∧ cWaits x t = false) → channelBusy x q t = false → hostLate s core x t = false →
          (∀ u v w, runCmd s ref x t = .ok (u, v) → pushResult u ref q x t v = .ok w →
            (ownWaits w ref t = true → exec (.taskComplete core slot q pos) s = .next s)
            ∧ (ownWaits w ref t = false → exec (.taskComplete core slot q pos) s = .next (taskDone ((noteStreams (hostPaid w core x t) core x t).modRef ref fun x =>
              let y := (x.land t.num (q - 2) (landedBytes t.cmd)).modTask t.num fun t => { t with pages := [], acc := [], stage := none }
              if y.fetchTask = t.num && t.cmd.isMatrix then { y with fetchV := false, fetchRows := 0, fetchBytes := [] } else y) ref t.num)))
          ∧ (∀ u v, runCmd s ref x t = .ok (u, v) → pushResult u ref q x t v = .closed → exec (.taskComplete core slot q pos) s = .next (abortPhase s ref t.phaseId
              { code := 0x09, engine := min q 2, stage := 0, addr := 0, strand := t.strand, classD := true, hold := none, halt := false }))
          ∧ (∀ u v, runCmd s ref x t = .ok (u, v) → pushResult u ref q x t v = .full → exec (.taskComplete core slot q pos) s = .next s)
          ∧ ∀ er, runCmd s ref x t = .error er →
              (er.err = .waits → exec (.taskComplete core slot q pos) s = .next s)
              ∧ ∀ code stage addr d h, er.err = .fault code stage addr d h → exec (.taskComplete core slot q pos) s = .next (matFail s ref q t er))
      ∧ (t.st = .running → t.cmd.jointTag = none → t.startAt + budget ≤ s.time →
          exec (.taskBudgetRelease core slot q pos) s = .next (s.modRef ref fun x => x.modTask t.num ready))
      ∧ (s.time < t.startAt + budget → exec (.taskBudgetRelease core slot q pos) s = .next s)
      ∧ (t.st = .running → t.cmd.jointTag ≠ none → core % 4 = 0 → t.written = false → t.startAt + budget ≤ s.time →
          exec (.taskBudgetRelease core slot q pos) s = .next ((releasedWith s core slot q t).foldl (fun s' n => s'.modRef n.ref fun x => x.modTask n.task.num fun t =>
            t.letGo s'.time) s))
      ∧ (t.cmd.jointTag ≠ none → core % 4 ≠ 0 ∨ t.written = true → exec (.taskBudgetRelease core slot q pos) s = .next s ∧ exec (.taskStallRelease core slot q pos) s = .next s)
      ∧ (t.st = .running → t.cmd.jointTag = none → mayStall s me = true → late ≤ s.time →
          exec (.taskStallRelease core slot q pos) s = .next (s.modRef ref fun x => x.modTask t.num fun t =>
            { ready t with stalled := true, comp := if 1 ≤ used ∧ used < budget then some (budget, used) else none }))
      ∧ (s.time < late ∨ (t.cmd.jointTag = none ∧ mayStall s me = false) → exec (.taskStallRelease core slot q pos) s = .next s))
  ∧ (∀ (s : State) (quad : Nat),
      (∀ e, (readySet s (4 * quad) .le).find? (fun e => e.members.length = 4 && !formatsAgree e.members) = some e →
        exec (.jointQmmaStart quad) s = .next (e.members.foldl (fun s n => abortPhase s n.ref n.task.phaseId
          { code := 0x09, engine := 0, stage := 0, addr := 0, strand := n.task.strand, classD := true, hold := none, halt := false }) s))
      ∧ (∀ e g late a b c d, (∀ e ∈ readySet s (4 * quad) .le, formatsAgree e.members = true) → pickEntry s (4 * quad) .le = some (e, g, late) → e.members = [a, b, c, d] →
          exec (.jointQmmaStart quad) s = .next (markWin (s.modCore (4 * quad) fun k => { k with tdu := k.tdu.set (0 : Fin 3) g }) e))
      ∧ (∀ a b c d, jointRunning s quad = [a, b, c, d] →
          let order := ∃ n ∈ [a, b, c, d], ∃ x, s.findCtx n.ref = some x ∧ cWaits x n.task = true
          (order → exec (.jointWriteInstant quad) s = .next s)
          ∧ (¬order →
            (∀ t gs u, jointStages [a, b, c, d] s = .ok (t, gs) → jointWrites (jointParts gs) [(a, 0), (b, 1), (c, 2), (d, 3)] t = .ok u →
              exec (.jointWriteInstant quad) s = .next u)
            ∧ ∀ n er, jointStages [a, b, c, d] s = .error (n, er) →
                (er.err = .waits → exec (.jointWriteInstant quad) s = .next s)
                ∧ ∀ code stage addr d h, er.err = .fault code stage addr d h → exec (.jointWriteInstant quad) s = .next (matFail s n.ref 0 n.task er)))
      ∧ ((jointRunning s quad).length ≠ 4 → exec (.jointWriteInstant quad) s = .next s))

/-! ## Pages and units (R170, R182, R186, R261, R262, R353) -/

/-- R170, R182, R186, the owner's events: a request for a page that is there is struck off the list, one for a page that is not takes a frame of the near pool and copies the page in, at the cost of its interface's budget (R402) and once its backing can be read, and is struck off unless a table page
came and the access's own page is still to come; with no frame and nothing to evict the waiting phases starve and a starvation record is sent, and again after 2^20 cycles; a placement
epoch ends after EPOCH x 1,024 cycles, clears the tracker, and moves no page that stays. A page stays when it is barred, when its weighted accesses are below the threshold or when the frames are scarce; a page not written
is replicated where that is allowed; else it moves when its weighted accesses are more than twice the others'. -/
def Obligations.PageEvents : Prop :=
  (∀ (s : State) (o : Nat) (asid : BitVec 12) (off : BitVec 48),
    let want := off.setWidth 64 &&& ~~~(0xFFF : Word)
    let page := starvedPage s o asid off.toNat
    let off_ := fun s : State => s.modDie o fun d => { d with fetching := d.fetching.filter (· ≠ (asid, want)), starved := d.starved.filter fun e => (e.1, e.2.1) ≠ (asid, page) }
    (((asid, want) ∉ (s.die o).fetching) → exec (.pageMadeResident o asid off) s = .next s)
    ∧ ((asid, want) ∈ (s.die o).fetching → (∀ x, s.xlateAt o asid none off.toNat = .ok x → x.resident = true → exec (.pageMadeResident o asid off) s = .next (off_ s))
        ∧ ∀ ia hent, missingPage s o asid off.toNat = some (ia, hent) →
            (fillLate s o asid hent = true → exec (.pageMadeResident o asid off) s = .next s)
            ∧ (∀ f rest, fillLate s o asid hent = false → takeFrame s o (leafSize hent) = some (f, rest) →
              let t := viCharge (fillPage s o asid ia hent f rest) (tierVi s asid (baseOf hent)) false (2 ^ (12 + leafSize hent))
              (missingPage t o asid off.toNat = none → exec (.pageMadeResident o asid off) s = .next (off_ t))
              ∧ ((missingPage t o asid off.toNat).isSome = true → exec (.pageMadeResident o asid off) s = .next t))
            ∧ (fillLate s o asid hent = false → takeFrame s o (leafSize hent) = none → evictable s o (leafSize hent) = [] → (∀ e ∈ (s.die o).starved, (e.1, e.2.1) ≠ (asid, page)) →
                exec (.pageMadeResident o asid off) s =
                  .next (noticeStarved (starveStuck s o asid (leafSize hent) (pageWaits s o asid (leafSize hent) off.toNat)) o asid page (leafSize hent))))
    ∧ ∀ e, (s.die o).starved.find? (fun e => (e.1, e.2.1) == (asid, page)) = some e →
        (∀ ia hent, missingPage s o asid off.toNat = some (ia, hent) → takeFrame s o (leafSize hent) = none → e.2.2 + 2 ^ 20 ≤ s.time →
          exec (.frameStarvationNotice o asid off) s = .next (noticeStarved s o asid page (leafSize hent)))
        ∧ (s.time < e.2.2 + 2 ^ 20 → exec (.frameStarvationNotice o asid off) s = .next s))
  ∧ (∀ (s : State) (o : Nat), (s.die o).placeEn = true → (s.die o).epoch ≠ 0 →
      ((s.die o).epochAt + 1024 * (s.die o).epoch.toNat ≤ s.time →
        (∀ t ∈ (s.die o).tracked, ∃ x, s.xlateAt o t.asid none t.off.toNat = .ok x ∧ placeMove s o t x = .stay) →
        exec (.placementEpochEnd o) s = .next (s.modDie o fun d => { d with tracked := [], written := [], epochAt := s.time }))
      ∧ (s.time < (s.die o).epochAt + 1024 * (s.die o).epoch.toNat → exec (.placementEpochEnd o) s = .next s))
  ∧ ∀ (a w r thresh free reserve x : Nat) (wrote rm : Bool),
      decideMove true a w r thresh free reserve x wrote rm = .stay
      ∧ (a * w < thresh ∨ free ≤ reserve → decideMove false a w r thresh free reserve x wrote rm = .stay)
      ∧ (thresh ≤ a * w → reserve < free →
          decideMove false a w r thresh free reserve x false true = .replicate x
          ∧ decideMove false a w r thresh free reserve x true rm = (if 2 * r < a * w then .migrate x else .stay)
          ∧ decideMove false a w r thresh free reserve x wrote false = (if 2 * r < a * w then .migrate x else .stay))

/-- R260, R261, LAUNCH on an aligned readable record: the bytes are read as one record and its creation answers a status and an id in one register; a misaligned address raises ADDR_ALIGN. A record that breaks its layout answers
BAD_IMAGE; a core named twice or a graph that is not open BAD_TARGET; with no graph and no predecessor named, a full table BUSY, else DONE and a fresh id.
R261, R262, R353, UNIT_PLACEMENT and UNIT_COMPLETE: a unit whose launch may start takes the lowest empty slot with a free backing block, its leaves and its operand-folio slots, and starts with the record's registers and its image's handle table, writing no other byte of memory; it leaves the waiting
list. A finished unit leaves its slot, its resources are freed and its launch counts one unit done; an unfinished one stays. -/
def Obligations.LaunchAndUnits : Prop :=
  (∀ (s : State) (d : SReg) (a : AReg) (disp : BitVec 32) (oc : Fin 16),
      let ea := s.getA a + disp.signExtend 64
      (ea.toNat % 64 ≠ 0 → TakesTrap s (exec (.launch d a disp oc) s) 0x07 0 ea)
      ∧ (ea.toNat % 64 = 0 → ∀ xs hb ys tb,
          s.readVa s.agent .rd ea 128 = .ok (xs, hb) → hostWaits s s.cx xs false = false →
          let s1 := counted s xs false 128
          let tail := recordTail (wordsOf hb)
          s1.readVa s1.agent .rd (ea + 128) tail = .ok (ys, tb) → hostWaits s1 s1.cx ys false = false →
          let s2 := counted s1 ys false tail
          let r := createLaunch s2 (makerOf s2.cx) (wordsOf (hb ++ tb))
          exec (.launch d a disp oc) s = .next (r.1.status d (r.2.1 <<< 32 ||| BitVec.ofNat 64 (r.2.2 % 2 ^ 32))))
      ∧ ∀ (m : Maker) (ws : List Word),
          (parseRecord s m ws = none → createLaunch s m ws = (s, 9, 0))
          ∧ ∀ r, parseRecord s m ws = some r →
              (¬r.spec.cores.Nodup → createLaunch s m ws = (s, 5, 0))
              ∧ (r.graph ≠ 0 → openOf s 2 r.graph m.job = false → createLaunch s m ws = (s, 5, 0))
              ∧ (r.graph = 0 → r.spec.cores.Nodup → (∀ c ∈ r.spec.cores, coreAllowed s m c = true) → jobOpen s m.job = true → r.spec.preds = [] →
                  65536 < s.works.length + workNeed s m.job → createLaunch s m ws = (s, 11, 0))
              ∧ (r.graph = 0 → r.spec.cores.Nodup → (∀ c ∈ r.spec.cores, coreAllowed s m c = true) → jobOpen s m.job = true → r.spec.preds = [] →
                  s.works.length + workNeed s m.job ≤ 65536 → ∃ t, createLaunch s m ws = (t, 0, s.fresh % 2 ^ 32)))
  ∧
  ((∀ (s : State) (core slot : Nat) (u : WaitUnit) (w : Work) (p : LaunchSpec) (pe : Fin 12) (ls : List Nat),
      nextUnit s core = some (u, w, p) → u.core = core → (s.core core).emptySlot = some slot → (s.core core).poolEntry .free = some pe →
      (s.core core).pool[pe].ma.toNat % 64 = 0 → (s.core core).admits p.prot = true → p.opslots ≤ (s.core core).freeSlots.length → gatherLeaves s core p.leaves (.place u.launch u.unit) = (s, some ls) →
        ∃ t x, exec (.unitPlacement core) s = .next t ∧ t.findCtx (.resident core slot) = some x ∧ u ∉ t.waitUnits
          ∧ (∀ k, k < maKey s.pkgOwner x.handleBase.toNat ∨ maKey s.pkgOwner x.handleBase.toNat + 131072 ≤ k → t.rawByte k = s.rawByte k)
          ∧ x = startCtx s (s.core core) (u.launch * 1024 + u.unit) u.launch u.unit w.total p ls ((s.core core).freeSlots.take p.opslots) (s.core core).pool[pe].ma
          ∧ x.priv = p.priv ∧ x.asid = p.asid ∧ x.part = p.part ∧ x.tickets = p.tickets ∧ x.leaves.length = ls.length ∧ x.rung = .running ∧ x.phase = none)
    ∧ (∀ (s : State) (core : Nat), nextUnit s core = none → exec (.unitPlacement core) s = .next s)
    ∧ ∀ (s : State) (c : CtxRef) (x : Ctx), s.findCtx c = some x →
        (x.finished = true → x.rung ≠ .shadowed →
          exec (.unitComplete c) s = .next (unitDone ((removeCtx s c x).modCore (refCore c) (·.release x)) x.launch false))
        ∧ (x.finished = false → exec (.unitComplete c) s = .next s))

/-! ## The ladder, leaves and slots (R353-R362, R427) -/

/-- R355-R357, leaf events: a spill writes a drawn leaf to its backing, zeroes it and gives it to the request it was drawn for, in a free copy position and with its backing in no blotter job (R389); of the requests that wait for a draw the first
no longer waits once a leaf is there for it or it is made no more, and otherwise draws again; a wanted spilled leaf comes back into the lowest physical leaf that is free or given to its request, with the bytes of its backing. That a sector of
the leaf that cannot be corrected moves as one is this model's choice (log 112).
R359-R361, the ladder's events: at the soft boundary a context under PREEMPT begins to halt; at the end of its grace any soft context does, and one still halting too, with a kill time KILLT later, and the partners of a joint QMMA that has not written are held with it (R384); a halting context stands halted with its started phases aborted, or is
killed with GRACE_KILL under CANCEL, once its strands have issued what stands before the instructions they ran ahead of; on a context in the diagnostic view none of these acts (R72); a kill time that runs out kills it with GRACE_KILL. A timer that has not run out does nothing.
R362, R427, swaps: a context halted under PREEMPT moves to the lowest free shadow slot, and counts one swap-out; with no unit waiting and a slot empty, the context swapped out earliest that has no HALT request comes back and runs under no
request, the waits of its tasks counted anew. A context that is not so halted stays. -/
def Obligations.Residency : Prop :=
  ((∀ (s : State) (core leaf : Nat) (p : Spill), (s.core core).spills.find? (fun p => p.phys == leaf) = some p →
      let ma := p.block.toNat + 16384 * p.leaf
      let room := s.ttripHold = false ∧ (s.core core).zeroising = false ∧ runningOn s core .ce < (s.core core).lanes.toNat ∧ s.maHeld ma 16384 = false
      (room → exec (.leafSpill core leaf) s = .next (finishSpill s core p))
      ∧ (room → (s.core core).badSectors p.phys = [] →
          let t := (noteLeaf s core p.phys).writeMa s.pkgOwner ma ((s.core core).leafBytes p.phys)
          exec (.leafSpill core leaf) s = .next (t.modCore core fun k =>
            { k.zeroLeaf p.phys with spills := k.spills.filter (· ≠ p), given := k.given ++ (p.who.toList.filter (·.live t)).map fun r => (p.phys, r) }))
      ∧ (¬room → exec (.leafSpill core leaf) s = .next s))
    ∧ (∀ (s : State) (core : Nat),
        ((s.core core).drawWaits = [] → exec (.inverseDrawRetry core) s = .next s)
        ∧ ∀ r rest, (s.core core).drawWaits = r :: rest →
            (r.live s = false ∨ (s.core core).leavesFor r ≠ [] →
              exec (.inverseDrawRetry core) s = .next (s.modCore core fun k => { k with drawWaits := k.drawWaits.filter (· ≠ r) }))
            ∧ (r.live s = true → (s.core core).leavesFor r = [] →
                (∀ t, inverseDraw s core r = some t → exec (.inverseDrawRetry core) s = .next t)
                ∧ (inverseDraw s core r = none → exec (.inverseDrawRetry core) s = .next s)))
    ∧ ∀ (s : State) (c : CtxRef) (leaf : Nat) (x : Ctx), s.findCtx c = some x →
        (x.wantsLeaf leaf = false → exec (.leafReload c leaf) s = .next s)
        ∧ ∀ pin p r, x.wantsLeaf leaf = true → x.leaves[leaf]? = some { phys := none, pinned := pin } → (s.core (refCore c)).spillOf x.block leaf = none →
            s.maHeld (leafBacking x leaf) 16384 = false → (s.core (refCore c)).leavesFor (.reload x.uid leaf) = p :: r →
            let t := s.modCore (refCore c) fun k => { k with given := k.given.filter fun g => g.2 ≠ .reload x.uid leaf }
            let y := { x with leaves := x.leaves.set leaf { phys := some p, pinned := pin } }
            exec (.leafReload c leaf) s = .next ((loadLeaf t (refCore c) p (leafBacking x leaf)).putCtx c y)
            ∧ ((∀ j < 256, t.poisoned (maKey t.pkgOwner (leafBacking x leaf) + 64 * j) = false) →
                loadLeaf t (refCore c) p (leafBacking x leaf) = t.modCore (refCore c) fun k => k.fillLeaf p (t.readMa t.pkgOwner (leafBacking x leaf) 16384)))
  ∧
  (∀ (s : State) (core slot : Nat) (x : Ctx), s.findCtx (.resident core slot) = some x →
      let ref : CtxRef := .resident core slot
      let halted := (haltPhases (haltStrands s core slot) core slot).modCtx core slot fun x =>
        { x.mapTasks (fun t : Task => { t with won := none, since := (haltPhases (haltStrands s core slot) core slot).time }) with rung := .halted, graceAt := none, killAt := none }
      let stopped := ∀ i : Fin 4, x.strands[i].live = true → x.strands[i].ahead = []
      (x.diag = true → exec (.softBoundary core slot) s = .next s ∧ exec (.graceExpiry core slot) s = .next s ∧ exec (.haltComplete core slot) s = .next s)
      ∧ (x.rung = .soft → x.intent = some .preempt → x.atBoundary = true → x.diag = false →
          exec (.softBoundary core slot) s = .next (holdJoints (s.putCtx ref { x with rung := .halting }) core x x.tasks))
      ∧ (x.rung ≠ .soft ∨ x.intent ≠ some .preempt ∨ x.atBoundary = false → exec (.softBoundary core slot) s = .next s)
      ∧ (∀ d, x.rung = .soft ∨ x.rung = .halting → x.graceAt = some d → x.diag = false →
          (d ≤ s.time → exec (.graceExpiry core slot) s =
            .next (holdJoints (s.putCtx ref { x with rung := .halting, graceAt := none, killAt := some (s.time + (s.core core).killt.toNat) }) core x x.tasks))
          ∧ (s.time < d → exec (.graceExpiry core slot) s = .next s))
      ∧ (x.rung = .halting → stopped → x.diag = false → x.intent ≠ some .cancel → exec (.haltComplete core slot) s = .next halted)
      ∧ (x.rung = .halting → stopped → x.diag = false → x.intent = some .cancel → exec (.haltComplete core slot) s = .next (killCtx halted ref 0x31 0 x.killPc 0 none))
      ∧ (x.rung ≠ .halting → exec (.haltComplete core slot) s = .next s ∧ exec (.killTimerExpiry core slot) s = .next s)
      ∧ ∀ d, x.rung = .halting → x.killAt = some d →
          (d ≤ s.time → exec (.killTimerExpiry core slot) s = .next (killCtx s ref 0x31 0 x.killPc 0 none))
          ∧ (s.time < d → exec (.killTimerExpiry core slot) s = .next s))
  ∧
  ((∀ (s : State) (core slot i : Nat) (x : Ctx), s.findCtx (.resident core slot) = some x → (s.core core).freeShadow = some i →
      (x.rung = .halted → x.intent = some .preempt → x.diag = false →
        ∃ t y, exec (.swapOut core slot) s = .next t ∧ t.findCtx (.resident core slot) = none ∧ t.findCtx (.shadow core i) = some y
          ∧ y.rung = .shadowed ∧ y.swaps = satInc x.swaps ∧ y.swapOrder = s.fresh ∧ y.strands = x.strands ∧ y.v = x.v ∧ y.m = x.m ∧ y.leaves = x.leaves ∧ y.queues = x.queues
          ∧ ∀ k, t.rawByte k = s.rawByte k)
      ∧ (x.rung ≠ .halted ∨ x.intent ≠ some .preempt ∨ x.diag = true → exec (.swapOut core slot) s = .next s))
    ∧ ∀ (s : State) (core slot i : Nat) (x : Ctx), (s.core core).emptySlot = some slot → (s.core core).nextBack = some (i, x) →
        (nextUnit s core = none →
          ∃ t y, exec (.swapIn core) s = .next t ∧ t.findCtx (.shadow core i) = none ∧ t.findCtx (.resident core slot) = some y
            ∧ y.rung = .running ∧ y.intent = none ∧ y.graceAt = none ∧ y.killAt = none ∧ y.strands = x.strands ∧ y.v = x.v ∧ y.m = x.m ∧ y.leaves = x.leaves
            ∧ y.queues = (x.mapTasks fun t => { t with since := s.time }).queues ∧ ∀ k, t.rawByte k = s.rawByte k)
        ∧ ((nextUnit s core).isSome = true → exec (.swapIn core) s = .next s))

/-! ## Blotter, resets and the boot (R107-R112, R388-R392, R411, R414) -/

/-- R389, R392, R411, R422, the blotter's events: the unit that is due is performed and counted; with the last one the job ends, its held resources are free, its waiters end with the progress word and the next job starts; a job that a reset
cut off goes on once HBM is trained; a scrub empties the list of corrected sectors. -/
def Obligations.BlotterEvents : Prop :=
  (∀ (s : State) (o : Nat) (j : BlotJob) (rest : List BlotJob) (u : Extent × Nat),
    (s.die o).blotRun = true → (s.die o).blotCut = false → (s.die o).blotJobs = j :: rest → unitAt j.extents (s.die o).blotDone.toNat = some u →
      let t := (doUnit s o u).modDie o fun d => { d with blotDone := d.blotDone + 1 }
      ((t.die o).blotDone ≠ (s.die o).blotTotal → exec (.blotterUnitComplete o) s = .next t)
      ∧ ((t.die o).blotDone = (s.die o).blotTotal →
          let e := (freeHeld t j rest).modDie o fun d => { d with blotRun := false, blotJobs := rest }
          exec (.blotterUnitComplete o) s = .next (continueBoot ((wakeBlot e o j.num.toNat (e.die o).progress).modDie o Die.startBlot))))
  ∧ ∀ (s : State) (o : Nat),
      ((s.die o).blotRun = false → exec (.blotterUnitComplete o) s = .next s)
      ∧ (4 ≤ s.boot → (s.die o).blotCut = true → exec (.blotterResume o) s = .next (s.modDie o fun d => { d with blotCut := false }))
      ∧ (s.boot < 4 → exec (.blotterResume o) s = .next s)
      ∧ exec (.hbmScrub o) s = .next (s.modDie o fun d => { d with corrected := [] })

/-- R107-R110, R392, R422, the resets: a power-on reset empties the package's own HBM, the repair tables and the key slots, a package reset keeps them; both put cr.time at 0, leave no context on any core, put every core into zeroisation with
its reset cause, empty the groups, currencies and work objects, and keep the blotter's running job; a core reset does so for one core. The end of zeroisation rebuilds the remap from the
repair table and zeroes the folio and the operand folio. That HBM and the key slots are cleared at power-on, and the key slots kept over a package reset, is this model's choice (logs 23, 54).
R111, R112, the boot: HBM training ends step 2 only, after a power-on reset offers each core's records of the repair store and resets it once more, fills every backing pool and goes on with step 4 or waits for the blotter; the march's end or 50 ms decide every core of the round; a core without DONE, or with OVF or UNREP, is fenced,
one without FAIL is available, one with FAIL is fenced unless it has a new record and has not run twice. With no core left to run again the part has booted. -/
def Obligations.ResetAndBoot : Prop :=
  ((∀ (s : State) (power : Bool), ∃ t, (power = true → exec .powerOnReset s = .next t) ∧ (power = false → exec .packageReset s = .next t)
      ∧ t.time = 0 ∧ t.powerUp = power ∧ t.poweredOff = false ∧ t.groups = [] ∧ t.currencies = [] ∧ t.works = [] ∧ t.waitUnits = [] ∧ t.powerLimit = 2800 ∧ t.thot = 95 ∧ t.ttripHold = false
      ∧ (∀ c < 384, (t.core c).slots = [] ∧ (t.core c).shadows = [] ∧ (t.core c).zeroising = true ∧ (t.core c).resetCause = (if power then 1 else 2)
          ∧ (t.core c).repair = (if power then [] else (s.core c).repair) ∧ (t.core c).grace = 40000 ∧ (t.core c).lanes = 1)
      ∧ (∀ d < 4, (t.die (s.package * 4 + d)).blotRun = (s.die (s.package * 4 + d)).blotRun ∧ (t.die (s.package * 4 + d)).blotDone = (s.die (s.package * 4 + d)).blotDone
          ∧ (t.die (s.package * 4 + d)).asdbase = 0)
      ∧ (power = false → t.mem = s.mem ∧ t.keys = s.keys) ∧ (power = true → t.keys = [])
      ∧ (power = true → ∀ k, k / 2 ^ 52 = s.package → keyNear k = true → t.rawByte k = 0)
      ∧ ∀ k, k / 2 ^ 52 ≠ s.package ∨ keyNear k = false → t.rawByte k = s.rawByte k)
    ∧ (∀ (s : State) (c : Nat),
        (c < 384 → ∃ t, exec (.coreReset c) s = .next t ∧ (t.core c).slots = [] ∧ (t.core c).shadows = [] ∧ (t.core c).zeroising = true ∧ (t.core c).resetCause = 4)
        ∧ (c < 384 → (s.core c).contexts c = [] → exec (.coreReset c) s = .next (s.modCore c (·.afterReset 4)))
        ∧ ((s.core c).zeroising = false → exec (.zeroisationComplete c) s = .next s)
        ∧ ((s.core c).zeroising = true → exec (.zeroisationComplete c) s = .next (s.modCore c fun k =>
            { k.applyRepair with folio := [], folioPoison := [], flips := [], opfolio := [], opPoison := [], idleV := [], idleSem := [], inject := 0, zeroising := false }))))
  ∧
  ((∀ s : State,
      (s.boot ≠ 2 → exec .hbmTrainingComplete s = .next s)
      ∧ (s.boot = 2 → s.powerUp = false →
          exec .hbmTrainingComplete s = .next (continueBoot { allCores.foldl (fun s c => s.modCore c (·.fillPool c)) s with boot := 4 }))
      ∧ (s.boot = 2 → s.powerUp = true →
          exec .hbmTrainingComplete s = .next (continueBoot { allCores.foldl (fun s c =>
            (resetCore (s.modCore c fun k => (SMap.get [] s.repairStore c).foldl Core.offer { k with repair := [] }) c 4).modCore c (·.fillPool c)) s with boot := 4 }))
      ∧ (s.boot ≠ 5 ∨ (marchOver s = false ∧ s.time < s.marchAt + 80000000) → exec .bootMarchTimeout s = .next s)
      ∧ (s.boot = 5 → marchOver s = true ∨ s.marchAt + 80000000 ≤ s.time →
          let t := ((if s.retested = [] then allCores else s.retested).filter fun c => !(s.core c).fenced).foldl applyFate s
          (t.retested = s.retested → exec .bootMarchTimeout s = .next { t with boot := 7, hypLoaded := Config.imageAccepted 2 })
          ∧ (t.retested ≠ s.retested → exec .bootMarchTimeout s = .next { t with marchAt := s.time })))
    ∧ ∀ (k : Core) (known : List Word) (second : Bool),
        (k.done = false ∨ k.ovf = true ∨ k.unrep = true → fateOf k known second = .fence)
        ∧ (k.done = true → k.ovf = false → k.unrep = false →
            (k.fail = false → fateOf k known second = .available)
            ∧ (k.fail = true → fateOf k known true = .fence)
            ∧ (k.fail = true → (∃ r ∈ k.repair, r ∉ known) → fateOf k known false = .retest)
            ∧ (k.fail = true → (∀ r ∈ k.repair, r ∈ known) → fateOf k known false = .fence)))

/-! ## Virtual interfaces and partitions (R397-R406, R410) -/

/-- R397, R398, R401-R403, the host's events: a launch header in a free slot of an enabled VI leaves it pending, and the device then processes the record as LAUNCH would, after which the slot is valid and answers the status and the id; on a VI that takes none, or on a slot with PEND set, it is dropped and counted.
An ADD reaches the bound semaphore of the bound unit of the VI's job, else it is dropped and counted. STOP drops what follows and, with no context of the job left to halt and the interface's budget above 0, ends with STOPPED, STOP clear (log 58) and the generation raised. A write of
VCTL with STOP = 0 sets the fields, clears STOPPED and leaves STOP as it is; for each window of 12,800 cycles that has begun each VI of the port pays of its debt what its budget allows, and event records that waited for it are delivered.
R109, R245, R265, R405, R406, R410, the PF's writes: quads of two partitions, or the removal of a quad that holds a context, set ERR and change nothing else; a good write sets the quads and clears ERR; WAYS is stored; a reset start raises the generation, sets BUSY and
drops the partition's flits of the older generation at the egress, and is ignored while BUSY; its end, with no stale packet left, empties its groups, resets the partition's cores and clears BUSY; a free group is allocated and one that is taken answers TAKEN; a
release needs the owner and an empty group; JOBREL seals and frees a job that no enabled VI names. -/
def Obligations.HostAndPartitions : Prop :=
  ((∀ (s : State) (vi : Nat) (slot : Fin 8) (record : List Byte), 7 ≤ s.boot → vi < 512 →
      let v := s.vi vi
      let dropped := s.setViAt vi { v with drop := satInc v.drop }
      (v.en = false ∨ v.stop = true ∨ v.stopped = true ∨ v.window[slot].pend = true → exec (.launchWindowSubmit vi slot.val record) s = .next dropped)
      ∧ (v.en = true → v.stop = false → v.stopped = false → v.window[slot].pend = false →
          exec (.launchWindowSubmit vi slot.val record) s =
            .next (s.setViAt vi { v with window := v.window.set slot { v.window[slot] with valid := false, pend := true, bytes := record } }))
      ∧ (v.window[slot].pend = false → serveWindow vi slot s = s)
      ∧ (v.window[slot].pend = true →
          let ws := wordsOf v.window[slot].bytes
          let r := if 128 + recordTail ws > 4088 then (s, 9, 0) else createLaunch s (windowMaker vi v) ws
          let w : WinSlot := { v.window[slot] with valid := true, pend := false, status := r.2.1.setWidth 16, id := BitVec.ofNat 32 r.2.2 }
          serveWindow vi slot s = r.1.setViAt vi { r.1.vi vi with window := (r.1.vi vi).window.set slot w })
      ∧ ∀ (e : Nat) (k : BitVec 32), e < 64 →
          let b := SMap.get 0 v.bind e
          (v.en = false ∨ v.stop = true ∨ v.stopped = true ∨ boundUnit s v b = none → exec (.hostSemaphoreAdd vi e k) s = .next dropped)
          ∧ ∀ ref, v.en = true → v.stop = false → v.stopped = false → boundUnit s v b = some ref →
              exec (.hostSemaphoreAdd vi e k) s = .next (s.modRef ref fun x => (x.addSem (b.extractLsb' 48 8).toNat k.toNat).serveSem (b.extractLsb' 48 8).toNat))
    ∧ (∀ (s : State) (vi : Nat), 512 ≤ vi → exec (.viStop vi) s = .next s ∧ ∀ w, exec (.viEnableWrite vi w) s = .next s)
    ∧ (∀ (s : State) (vi : Nat), vi < 512 → (s.vi vi).stopping = false →
        exec (.viStop vi) s = .next (finishStop (startStop s vi) vi)
        ∧ (jobContexts s (s.vi vi).job.toNat = [] → viWaits (startStop s vi) (some vi) true = false → ∃ t, exec (.viStop vi) s = .next t ∧ (t.vi vi).stop = false ∧ (t.vi vi).stopped = true ∧ (t.vi vi).stopping = false
            ∧ (t.vi vi).stopGen = (s.vi vi).stopGen + 1))
    ∧ (∀ (s : State) (vi : Nat) (w : Word), vi < 512 → w.getLsbD 62 = false →
        exec (.viEnableWrite vi w) s = .next (s.setViAt vi
          { s.vi vi with en := w.getLsbD 63, part := Fin.ofNat 16 (w.extractLsb' 48 4).toNat, job := w.extractLsb' 32 16
                         asid := w.extractLsb' 20 12, pasid := w.extractLsb' 0 20, stopped := false }))
    ∧ ∀ (s : State) (port : Fin 2),
        (s.time / 12800 ≤ s.windows[port] → exec (.hostLinkWindow port.val) s = .next s)
        ∧ (s.windows[port] < s.time / 12800 →
            let left := fun (q : Nat) (r : Int) => (q : Int) + min (r + (s.time / 12800 - s.windows[port] - 1 : Nat) * (q : Int)) 0
            let t : State := { s with
              windows := s.windows.set port (s.time / 12800)
              vis := s.vis.map fun e : Nat × Vi => (e.1, if e.1 / 256 = port.val then
                { e.2 with remrd := left e.2.qosrd.toNat e.2.remrd, remwr := left e.2.qoswr.toNat e.2.remwr, remxl := left e.2.qosxl.toNat e.2.remxl } else e.2) }
            exec (.hostLinkWindow port.val) s =
                .next ((t.vis.filter fun e => e.1 / 256 = port.val && !e.2.outbox.isEmpty).foldl (fun u e => viDrain e.1 e.2.outbox.length u) t)
            ∧ ((∀ e ∈ s.vis, e.1 / 256 = port.val → e.2.outbox = []) → exec (.hostLinkWindow port.val) s = .next t)))
  ∧
  (∀ (s : State) (q : Nat), q < 16 →
      let p := s.part q
      (∀ high v, let new := newQuads p.quads high v
        (quadsRefused s q new = true → exec (.partitionQuadsWrite q high v) s = .next (s.setPart q { p with err := true }))
        ∧ (quadsRefused s q new = false → exec (.partitionQuadsWrite q high v) s = .next (s.setPart q { p with quads := new, err := false }))
        ∧ (∀ e ∈ s.parts, e.1 < 16 → e.1 ≠ q → e.2.quads &&& new ≠ 0 → quadsRefused s q new = true)
        ∧ (∀ i < 96, p.quads.getLsbD i = true → new.getLsbD i = false → quadBusy s i = true → quadsRefused s q new = true))
      ∧ (∀ v, exec (.partitionWaysWrite q v) s = .next (s.setPart q { p with ways := v }))
      ∧ (p.busy = true → exec (.partitionResetStart q) s = .next s)
      ∧ (p.busy = false →
          let u := s.setPart q { p with busy := true, gen := p.gen + 1 }
          exec (.partitionResetStart q) s = .next { u with ports := SMap.mapVals (fun (t : Port) => { t with out := t.out.filter fun f => !staleFlit u f }) s.ports }
          ∧ u.partGen (Fin.ofNat 16 q) = s.partGen (Fin.ofNat 16 q) + 1
          ∧ staleGen u (Fin.ofNat 16 q) (s.partGen (Fin.ofNat 16 q)) = true ∧ staleGen u (Fin.ofNat 16 q) (u.partGen (Fin.ofNat 16 q)) = false)
      ∧ (p.busy = false ∨ staleLeft s q = true → exec (.partitionResetComplete q) s = .next s)
      ∧ (p.busy = true → staleLeft s q = false →
          let t : State := { s with groups := SMap.mapVals (fun g => if g.owner = some (Fin.ofNat 16 q) then { g with members := [], joins := [], elsewhere := false, lost := false, remote := [] } else g) s.groups }
          let u := (quadSetCores p.quads).foldl (fun s c => resetCore s c 3) t
          exec (.partitionResetComplete q) s = .next (u.setPart q { u.part q with busy := false }))
      ∧ ∀ (b : BitVec 12) (job : BitVec 16),
          let g := s.group b.toNat
          (g.owner ≠ none → exec (.bgrpAlloc q b) s = .next (s.setPart q { p with bgrp := b, taken := true, nonempty := false }))
          ∧ (g.owner = none → exec (.bgrpAlloc q b) s = .next ((s.setPart q { p with bgrp := b, taken := false, nonempty := false }).setGroup b.toNat { g with owner := some (Fin.ofNat 16 q) }))
          ∧ (g.owner = some (Fin.ofNat 16 q) → g.members = [] →
              exec (.bgrpRelease q b) s = .next ((s.setPart q { p with bgrp := b, taken := false, nonempty := false }).setGroup b.toNat { g with owner := none, elsewhere := false, lost := false, remote := [] }))
          ∧ (g.owner ≠ some (Fin.ofNat 16 q) ∨ g.members ≠ [] → exec (.bgrpRelease q b) s = .next (s.setPart q { p with bgrp := b, taken := false, nonempty := true }))
          ∧ ((∃ v ∈ s.vis, v.2.en = true ∧ v.2.job = job) → exec (.jobrel job) s = .next s)
          ∧ ((∀ v ∈ s.vis, v.2.en = false ∨ v.2.job ≠ job) →
              (SMap.find s.works (workKey 4 job.toNat) = none → exec (.jobrel job) s = .next s)
              ∧ ∀ w, SMap.find s.works (workKey 4 job.toNat) = some w →
                  exec (.jobrel job) s = .next (pruneWorks (reportWork 4 { s with works := SMap.set s.works (workKey 4 job.toNat) { w with sealed_ := true, released := true } } (workKey 4 job.toNat)))))

/-! ## Ports, the root of trust, heat and power (R407-R409, R419, R420, R423) -/

/-- R407-R409, R419, R420, the port and root-of-trust events: lane failures go from eight lanes to erasure, to a retrain at four and to down, each with an interrupt; the sixteenth unauthentic flit in a row takes the port down; an authentic flit
clears the count and moves on its counter, a data flit's or a management flit's, and a data flit with no counter value left is not taken; a warning at 2^47 interrupts, the last counter stops the direction with a record, and a key switch puts the counter at 0; a
measurement request gets one reply; the fused minimum never falls.
R423, heat and power: a hot region steps its throttle level up, at most to 7, a cool one down, at least to 0, and no other region's; over the power limit every region of the package steps up; a region at TTRIP holds every engine and interrupts, until it has cooled;
after 16,000,000 cycles at TTRIP power is removed, and not before. That the hold ends with the region's step down is this model's reading (log 24). -/
def Obligations.PortsAndHeat : Prop :=
  ((∀ (s : State) (port lane : Nat), port < 16 → lane < 8 → lane ∉ (s.port port).failedLanes →
      let p := s.port port
      let q := { p with failedLanes := p.failedLanes ++ [lane] }
      let change := fun q : Port => .next { s.setPort port q with hkInterrupts := s.hkInterrupts + 1 }
      (p.lanes = .full → exec (.laneFailure port lane) s = change { q with lanes := .erased })
      ∧ (p.lanes = .erased → exec (.laneFailure port lane) s = change { q with lanes := .half, retraining := true })
      ∧ (p.lanes = .half → exec (.laneFailure port lane) s = change { q with lanes := .down })
      ∧ (p.lanes = .down → exec (.laneFailure port lane) s = .next (s.setPort port q))
      ∧ (p.retraining = false → exec (.portRetrainComplete port) s = .next s)
      ∧ (p.retraining = true → p.wide = false → exec (.portRetrainComplete port) s = .next (s.setPort port { p with retraining := false }))
      ∧ (p.retraining = true → p.wide = true → exec (.portRetrainComplete port) s =
          change { p with retraining := false, wide := false, lanes := .full, failedLanes := [], authFails := 0 })
      ∧ (∀ flit, p.lanes ≠ .down → p.retraining = false →
          (p.authFails + 1 < 16 → exec (.flitReceive port false flit) s = .next (s.setPort port { p with authFails := p.authFails + 1 }))
          ∧ (16 ≤ p.authFails + 1 → exec (.flitReceive port false flit) s = change { p with authFails := p.authFails + 1, lanes := .down })
          ∧ ((flit.headD 0).toNat % 16 = 15 → exec (.flitReceive port true flit) s =
              .next (handOn (s.setPort port { p with authFails := 0, ingress := { p.ingress with mgmt := satInc p.ingress.mgmt } }) port flit))
          ∧ ((flit.headD 0).toNat % 16 ≠ 15 → p.ingress.exhausted = true ∨ p.ingress.counter.toNat = 2 ^ 48 - 1 → exec (.flitReceive port true flit) s = .next s)
          ∧ ((flit.headD 0).toNat % 16 ≠ 15 → p.ingress.exhausted = false → p.ingress.counter.toNat < 2 ^ 48 - 1 →
              exec (.flitReceive port true flit) s = .next (handOn (s.setPort port { p with authFails := 0, ingress := { p.ingress with counter := p.ingress.counter + 1 } }) port flit)))
      ∧ ∀ ingress, let d := if ingress then p.ingress else p.egress
          let put := fun d : Direction => s.setPort port (if ingress then { p with ingress := d } else { p with egress := d })
          (d.counter.toNat = 2 ^ 47 → exec (.keyCounterWarning port ingress) s = .next { s with hkInterrupts := s.hkInterrupts + 1 })
          ∧ (d.counter.toNat ≠ 2 ^ 47 → exec (.keyCounterWarning port ingress) s = .next s)
          ∧ (d.counter.toNat = 2 ^ 48 - 1 → d.newKey = false → d.exhausted = false →
              exec (.keyExhausted port ingress) s = .next (pfRecord { put { d with exhausted := true } with hkInterrupts := s.hkInterrupts + 1 } 1
                (recordOf [BitVec.ofNat 64 port, if ingress then 1 else 0, BitVec.ofNat 64 s.time])))
          ∧ (d.newKey = true → exec (.keySwitchFlit port ingress) s = .next (put { d with counter := 0, newKey := false, exhausted := false, keyGen := d.keyGen + 1, mgmt := satInc d.mgmt }))
          ∧ (d.newKey = false → exec (.keySwitchFlit port ingress) s = .next s))
    ∧ (∀ (s : State) (port code : Nat) (vi : Option Nat) (nonce : List Byte),
        (port < 2 → (∀ n, vi = some n → (s.vi n).tdisp = true ∧ n / 256 = port) →
          exec (.spdmRequest port vi code nonce) s = .next { s with spdmOut := s.spdmOut ++ [(port, Config.spdmReply code nonce (measurements s vi))] })
        ∧ (∀ n, vi = some n → (s.vi n).tdisp = false → exec (.spdmRequest port vi code nonce) s = .next s))
    ∧ ∀ (s : State) (kind : Fin 4), kind ≠ 0 → ∃ t, exec (.minimumSvnRaise kind) s = .next t
        ∧ (SMap.get 0 t.minSvn kind.val).toNat = max (SMap.get 0 s.minSvn kind.val).toNat (Config.runningSvn (BitVec.ofNat 8 kind.val)).toNat
        ∧ ∀ k, k ≠ kind.val → SMap.get 0 t.minSvn k = SMap.get 0 s.minSvn k)
  ∧
  (∀ (s : State) (die : Fin 4) (region : Fin 6),
      let o := s.package * 4 + die.val
      (∃ t, exec (.thermalStepUp die.val region.val) s = .next t
        ∧ (t.die o).throttle[region].val = min 7 ((s.die o).throttle[region].val + 1) ∧ (∀ r, r ≠ region → (t.die o).throttle[r] = (s.die o).throttle[r])
        ∧ (∀ e, e ≠ o → t.die e = s.die e) ∧ t.cores = s.cores ∧ t.mem = s.mem)
      ∧ (∃ t, exec (.thermalStepDown die.val region.val) s = .next t
          ∧ (t.die o).throttle[region].val = (s.die o).throttle[region].val - 1 ∧ (∀ r, r ≠ region → (t.die o).throttle[r] = (s.die o).throttle[r])
          ∧ ((∀ e ∈ s.ttripIn, e = (die.val, region.val)) → t.ttripHold = false) ∧ ((∃ e ∈ s.ttripIn, e ≠ (die.val, region.val)) → t.ttripHold = true)
          ∧ (∀ e, e ≠ o → t.die e = s.die e) ∧ t.cores = s.cores ∧ t.mem = s.mem)
      ∧ (∃ t, exec .powerLimitExceeded s = .next t
          ∧ (∀ (d : Fin 4) (r : Fin 6), (t.die (s.package * 4 + d.val)).throttle[r].val = min 7 ((s.die (s.package * 4 + d.val)).throttle[r].val + 1))
          ∧ (∀ e, e / 4 ≠ s.package → t.die e = s.die e) ∧ t.cores = s.cores ∧ t.mem = s.mem)
      ∧ (∃ t, exec (.ttripReached die.val region.val) s = .next t ∧ t.ttripHold = true ∧ t.hkInterrupts = s.hkInterrupts + 1 ∧ (die.val, region.val) ∈ t.ttripIn
          ∧ t.ttripAt = some (s.ttripAt.getD s.time) ∧ t.cores = s.cores ∧ t.dies = s.dies ∧ t.mem = s.mem)
      ∧ (∀ a, s.ttripAt = some a →
          (a + 16000000 ≤ s.time → exec .thermalTrip s = .next { s with poweredOff := true })
          ∧ (s.time < a + 16000000 → exec .thermalTrip s = .next s))
      ∧ (s.ttripAt = none → exec .thermalTrip s = .next s))

/-! ## A step, decoding, and what every step keeps (R12-R28, R80-R83, R97, R111, R423) -/

/-- R28, R80, R94, R97: when the agenda names a strand that its cluster serves next and that is ready (R81), and the words at its pc decode to an instruction without SYNC in checked mode, nothing has issued ahead and the tracer's copy agrees, the step is that instruction's meaning with what stands
around it (the guard, tokens, latches and counters), then the coming to rest; one that would write what an older chain has yet to read waits (R221). Guarded off, it has no effect but leaving issue. An event at the head of the agenda runs its own meaning, one of a host once the part has booted. That the agenda chooses is this model's choice (log 2). -/
def Obligations.StepRunsDecoded : Prop :=
  (∀ (s : State) (r : StrandRef) (rest : List Act) (w : Word128) (ws : List Word128) (sc : Sched) (i : Instr),
    let s0 : State := { s with agenda := rest }
    let s1 := noteFetch ((s0.modStrandAt r fun t => { t with wait := if t.wait = some .retry then none else t.wait, wants := [] }).serve r) r
    let s2 := s1.modCx fun x => x.landResults (strandIx r) sc i s1.time s1.tick
    let x := s1.ctx r.core r.slot
    let t := s1.strandAt r
    s.agenda = .strand r :: rest → s.poweredOff = false → s.boot ≠ 1 → canIssue s0 r = true → able s0 r = true →
    s1.fetchWord (s1.agentAt r) t.pc = .ok w → s1.fetchSeq (s1.agentAt r) t.pc = .ok ws → decode ws = .ok (sc, i) → sc.sync = false → x.trusted = false →
    t.ahead = [] → t.tracer = {} → (∀ k : Fin 4, x.strands[k].flight.all (fun f => f.vals.isEmpty) = true) →
      (guardOn t sc = true → stateOk t (strandIx r) i = true → levelAt s1 i ≤ x.priv.val → readsPoison s2.cx i = false →
        (∀ u, exec (specialise i s2) s2 = .next u → step s = .next (afterStep (if overtakesChain s2 u then s2.hold else finishIssue s2 s2 u sc i)))
        ∧ (∀ f, exec (specialise i s2) s2 = .fault f → step s = .fault f) ∧ (∀ f, exec (specialise i s2) s2 = .refused f → step s = .refused f))
      ∧ (guardOn t sc = false → stateOk t (strandIx r) i = true → levelAt s1 i ≤ x.priv.val → step s = .next (afterStep (guardedOff s2 sc i)))
      ∧ (stateOk t (strandIx r) i = false → step s = .next (afterStep (s1.trapAt r 0x01 0 t.pc 0 true (guardOn t (schedOf w)))))
      ∧ (stateOk t (strandIx r) i = true → x.priv.val < levelAt s1 i → step s = .next (afterStep (s1.trapAt r 0x02 0 t.pc 0 true (guardOn t (schedOf w))))))
  ∧ ∀ (s : State) (i : Instr) (rest : List Act) (u : State), s.agenda = .event i :: rest → s.poweredOff = false → s.boot ≠ 1 → isEvent i = true → (hostEvent i = true → s.boot = 7) →
      exec i { s with agenda := rest } = .next u → step s = .next (afterStep u)

/-- R13, R18-R20, R28: words written out from the encoding tables decode to what they stand for, unguarded; a reserved operation number, a field that must be zero, a bit 96 that is set and an address register in a scalar's place decode to nothing. -/
def Obligations.DecodeWords : Prop :=
  [0xE0008C2230000000000000000, 0xE0018C202FFFFFFFFFFFFFFF8, 0xE485011000000001000000040, 0xE404801880000000000000000, 0xE701860080000000000000011, 0xE684862000000000000000000,
    0xE504D14D55A00E08000000000, 0xE600D14D40000004000000000].map (decodeTableWord 768) =
    [some (.add 3 1 2 true true), some (.addi 3 1 0xFFFFFFFFFFFFFFF8 false true), some (.pref .wr 2 0x40), some (.curset 3 4), some (.semset 3 4 0x11), some (.cntr 3 4),
     some (.vfma .nma 40 41 42 43 .f32 (some 3)), some (.ladd 40 41 42 true)]
  ∧ [0xE3FF800000000000000000000, 0xE000000000000000000000001, 0xF0008C2230000000000000000, 0xE684872000000000000000000].map (decodeTableWord 768) = [none, none, none, none]

/-- R12-R22, decoding gives back what was encoded: every well-formed instruction with a well-formed scheduling field that carries no second command encodes, unless it is an event or a row that a written value selects, and its words decode to it with every operand. -/
def Obligations.DecodeEncode : Prop :=
  ∀ (sc : Sched) (i : Instr), i.wellFormedWith sc = true → isEvent i = false → byValue i = false → carries i = false →
    ∃ ws, encode sc i = some ws ∧ decode ws = .ok (sc, i)

/-- R22, R26, R257, R321: the same for a copy and a matrix command that carry a matrix command or an epilogue, whose words follow unannotated. -/
def Obligations.DecodeEncodePairs : Prop :=
  ∀ (sc : Sched) (i : Instr), i.wellFormedWith sc = true → carries i = true → ∃ ws, encode sc i = some ws ∧ decode ws = .ok (sc, i)

/-- The canonical form of memory (log 1: what an unlisted byte reads as is the model's choice) is kept by every step, from every state: no instruction, event or engine stores a byte out of order, twice, or at its unlisted value. -/
def Obligations.StepKeepsMemory : Prop :=
  ∀ s t : State, s.memOk → step s = .next t → t.memOk

/-- R111, R423: a part without core power, or whose housekeeping image failed, stays so through every step whose input is no power-on or package reset: no core, no byte of memory and no register of a die changes; only the input is used up and time passes. -/
def Obligations.OffStaysOff : Prop :=
  ∀ s : State, (s.poweredOff = true ∨ s.boot = 1) → (∀ a rest, s.agenda = a :: rest → a ≠ .event .powerOnReset ∧ a ≠ .event .packageReset) →
    ∃ t, step s = .next t ∧ t.poweredOff = s.poweredOff ∧ t.boot = s.boot ∧ t.cores = s.cores ∧ t.dies = s.dies ∧ t.mem = s.mem ∧ t.agenda = s.agenda.tail ∧ s.time ≤ t.time ∧ t.tick = s.tick + 1

/-- R109, R111, R336, R406, R409, R411: after reset the memory is canonical, cr.time is 0, no context exists, every core zeroises with a power-on reset cause, no group, currency, key, partition or work object exists, no VI is enabled, and the power and temperature limits stand at
their defaults. What an unlisted byte reads as is this model's choice (log 1). -/
def Obligations.ResetState : Prop :=
  State.reset.memOk ∧ State.reset.time = 0 ∧ State.reset.contexts = [] ∧ (∀ c, (State.reset.core c).zeroising = true ∧ (State.reset.core c).resetCause = 1 ∧ (State.reset.core c).lanes = 1
    ∧ (State.reset.core c).grace = 40000 ∧ (State.reset.core c).shlim = 224)
  ∧ (∀ g, (State.reset.group g).owner = none) ∧ (∀ n, 2 ≤ n → State.reset.currency n = none) ∧ (∀ k, State.reset.liveKeys k = none) ∧ (∀ q, (State.reset.part q).quads = 0)
  ∧ State.reset.works = [] ∧ (∀ n, (State.reset.vi n).en = false) ∧ State.reset.powerLimit = 2800 ∧ State.reset.thot = 95
end

