-- ==== Sys2Proof/Laws/State.lean ====
section
/-! SUPPORT. What each update of a state leaves alone: one clause per field, true by definition. -/

namespace Sys2Proof.Machine

@[simp] theorem State.setCore_frame (s : State) (c : Nat) (k : Core) :
    (s.setCore c k).time = s.time ∧ (s.setCore c k).tick = s.tick ∧ (s.setCore c k).fresh = s.fresh ∧ (s.setCore c k).focus = s.focus ∧
    (s.setCore c k).turn = s.turn ∧ (s.setCore c k).agenda = s.agenda ∧ (s.setCore c k).poweredOff = s.poweredOff ∧
    (s.setCore c k).powerUp = s.powerUp ∧ (s.setCore c k).boot = s.boot ∧ (s.setCore c k).marchAt = s.marchAt ∧
    (s.setCore c k).package = s.package ∧ (s.setCore c k).domain = s.domain ∧ (s.setCore c k).mem = s.mem ∧
    (s.setCore c k).sectors = s.sectors ∧ (s.setCore c k).dies = s.dies ∧ (s.setCore c k).keys = s.keys ∧
    (s.setCore c k).groups = s.groups ∧ (s.setCore c k).currencies = s.currencies ∧ (s.setCore c k).repay = s.repay ∧
    (s.setCore c k).works = s.works ∧ (s.setCore c k).sections = s.sections ∧ (s.setCore c k).waitUnits = s.waitUnits ∧
    (s.setCore c k).vis = s.vis ∧ (s.setCore c k).pfq = s.pfq ∧ (s.setCore c k).pfAttached = s.pfAttached ∧
    (s.setCore c k).pfMsix = s.pfMsix ∧ (s.setCore c k).hostReads = s.hostReads ∧ (s.setCore c k).parts = s.parts ∧
    (s.setCore c k).ports = s.ports ∧ (s.setCore c k).results = s.results ∧ (s.setCore c k).releases = s.releases ∧
    (s.setCore c k).powerLimit = s.powerLimit ∧ (s.setCore c k).thot = s.thot ∧ (s.setCore c k).ttripHold = s.ttripHold ∧
    (s.setCore c k).ttripAt = s.ttripAt ∧ (s.setCore c k).ttripIn = s.ttripIn ∧ (s.setCore c k).windows = s.windows ∧
    (s.setCore c k).repairStore = s.repairStore ∧ (s.setCore c k).minSvn = s.minSvn ∧ (s.setCore c k).health = s.health ∧
    (s.setCore c k).healthCores = s.healthCores ∧ (s.setCore c k).retested = s.retested ∧ (s.setCore c k).hkInterrupts = s.hkInterrupts ∧
    (s.setCore c k).spdmOut = s.spdmOut ∧ (s.setCore c k).hypLoaded = s.hypLoaded ∧ (s.setCore c k).images = s.images :=
  ⟨rfl, rfl, rfl, rfl, rfl, rfl, rfl, rfl, rfl, rfl, rfl, rfl, rfl, rfl, rfl, rfl, rfl, rfl, rfl, rfl, rfl, rfl, rfl, rfl, rfl, rfl, rfl, rfl, rfl, rfl, rfl, rfl, rfl, rfl, rfl, rfl, rfl, rfl, rfl, rfl, rfl, rfl, rfl, rfl, rfl, rfl⟩

@[simp] theorem State.modCore_frame (s : State) (c : Nat) (f : Core → Core) :
    (s.modCore c f).time = s.time ∧ (s.modCore c f).tick = s.tick ∧ (s.modCore c f).fresh = s.fresh ∧ (s.modCore c f).focus = s.focus ∧
    (s.modCore c f).turn = s.turn ∧ (s.modCore c f).agenda = s.agenda ∧ (s.modCore c f).poweredOff = s.poweredOff ∧
    (s.modCore c f).powerUp = s.powerUp ∧ (s.modCore c f).boot = s.boot ∧ (s.modCore c f).marchAt = s.marchAt ∧
    (s.modCore c f).package = s.package ∧ (s.modCore c f).domain = s.domain ∧ (s.modCore c f).mem = s.mem ∧
    (s.modCore c f).sectors = s.sectors ∧ (s.modCore c f).dies = s.dies ∧ (s.modCore c f).keys = s.keys ∧
    (s.modCore c f).groups = s.groups ∧ (s.modCore c f).currencies = s.currencies ∧ (s.modCore c f).repay = s.repay ∧
    (s.modCore c f).works = s.works ∧ (s.modCore c f).sections = s.sections ∧ (s.modCore c f).waitUnits = s.waitUnits ∧
    (s.modCore c f).vis = s.vis ∧ (s.modCore c f).pfq = s.pfq ∧ (s.modCore c f).pfAttached = s.pfAttached ∧
    (s.modCore c f).pfMsix = s.pfMsix ∧ (s.modCore c f).hostReads = s.hostReads ∧ (s.modCore c f).parts = s.parts ∧
    (s.modCore c f).ports = s.ports ∧ (s.modCore c f).results = s.results ∧ (s.modCore c f).releases = s.releases ∧
    (s.modCore c f).powerLimit = s.powerLimit ∧ (s.modCore c f).thot = s.thot ∧ (s.modCore c f).ttripHold = s.ttripHold ∧
    (s.modCore c f).ttripAt = s.ttripAt ∧ (s.modCore c f).ttripIn = s.ttripIn ∧ (s.modCore c f).windows = s.windows ∧
    (s.modCore c f).repairStore = s.repairStore ∧ (s.modCore c f).minSvn = s.minSvn ∧ (s.modCore c f).health = s.health ∧
    (s.modCore c f).healthCores = s.healthCores ∧ (s.modCore c f).retested = s.retested ∧ (s.modCore c f).hkInterrupts = s.hkInterrupts ∧
    (s.modCore c f).spdmOut = s.spdmOut ∧ (s.modCore c f).hypLoaded = s.hypLoaded ∧ (s.modCore c f).images = s.images :=
  ⟨rfl, rfl, rfl, rfl, rfl, rfl, rfl, rfl, rfl, rfl, rfl, rfl, rfl, rfl, rfl, rfl, rfl, rfl, rfl, rfl, rfl, rfl, rfl, rfl, rfl, rfl, rfl, rfl, rfl, rfl, rfl, rfl, rfl, rfl, rfl, rfl, rfl, rfl, rfl, rfl, rfl, rfl, rfl, rfl, rfl, rfl⟩

@[simp] theorem State.setCtx_frame (s : State) (c i : Nat) (x : Ctx) :
    (s.setCtx c i x).time = s.time ∧ (s.setCtx c i x).tick = s.tick ∧ (s.setCtx c i x).fresh = s.fresh ∧ (s.setCtx c i x).focus = s.focus ∧
    (s.setCtx c i x).turn = s.turn ∧ (s.setCtx c i x).agenda = s.agenda ∧ (s.setCtx c i x).poweredOff = s.poweredOff ∧
    (s.setCtx c i x).powerUp = s.powerUp ∧ (s.setCtx c i x).boot = s.boot ∧ (s.setCtx c i x).marchAt = s.marchAt ∧
    (s.setCtx c i x).package = s.package ∧ (s.setCtx c i x).domain = s.domain ∧ (s.setCtx c i x).mem = s.mem ∧
    (s.setCtx c i x).sectors = s.sectors ∧ (s.setCtx c i x).dies = s.dies ∧ (s.setCtx c i x).keys = s.keys ∧
    (s.setCtx c i x).groups = s.groups ∧ (s.setCtx c i x).currencies = s.currencies ∧ (s.setCtx c i x).repay = s.repay ∧
    (s.setCtx c i x).works = s.works ∧ (s.setCtx c i x).sections = s.sections ∧ (s.setCtx c i x).waitUnits = s.waitUnits ∧
    (s.setCtx c i x).vis = s.vis ∧ (s.setCtx c i x).pfq = s.pfq ∧ (s.setCtx c i x).pfAttached = s.pfAttached ∧
    (s.setCtx c i x).pfMsix = s.pfMsix ∧ (s.setCtx c i x).hostReads = s.hostReads ∧ (s.setCtx c i x).parts = s.parts ∧
    (s.setCtx c i x).ports = s.ports ∧ (s.setCtx c i x).results = s.results ∧ (s.setCtx c i x).releases = s.releases ∧
    (s.setCtx c i x).powerLimit = s.powerLimit ∧ (s.setCtx c i x).thot = s.thot ∧ (s.setCtx c i x).ttripHold = s.ttripHold ∧
    (s.setCtx c i x).ttripAt = s.ttripAt ∧ (s.setCtx c i x).ttripIn = s.ttripIn ∧ (s.setCtx c i x).windows = s.windows ∧
    (s.setCtx c i x).repairStore = s.repairStore ∧ (s.setCtx c i x).minSvn = s.minSvn ∧ (s.setCtx c i x).health = s.health ∧
    (s.setCtx c i x).healthCores = s.healthCores ∧ (s.setCtx c i x).retested = s.retested ∧
    (s.setCtx c i x).hkInterrupts = s.hkInterrupts ∧ (s.setCtx c i x).spdmOut = s.spdmOut ∧ (s.setCtx c i x).hypLoaded = s.hypLoaded ∧
    (s.setCtx c i x).images = s.images :=
  ⟨rfl, rfl, rfl, rfl, rfl, rfl, rfl, rfl, rfl, rfl, rfl, rfl, rfl, rfl, rfl, rfl, rfl, rfl, rfl, rfl, rfl, rfl, rfl, rfl, rfl, rfl, rfl, rfl, rfl, rfl, rfl, rfl, rfl, rfl, rfl, rfl, rfl, rfl, rfl, rfl, rfl, rfl, rfl, rfl, rfl, rfl⟩

@[simp] theorem State.modCtx_frame (s : State) (c i : Nat) (f : Ctx → Ctx) :
    (s.modCtx c i f).time = s.time ∧ (s.modCtx c i f).tick = s.tick ∧ (s.modCtx c i f).fresh = s.fresh ∧ (s.modCtx c i f).focus = s.focus ∧
    (s.modCtx c i f).turn = s.turn ∧ (s.modCtx c i f).agenda = s.agenda ∧ (s.modCtx c i f).poweredOff = s.poweredOff ∧
    (s.modCtx c i f).powerUp = s.powerUp ∧ (s.modCtx c i f).boot = s.boot ∧ (s.modCtx c i f).marchAt = s.marchAt ∧
    (s.modCtx c i f).package = s.package ∧ (s.modCtx c i f).domain = s.domain ∧ (s.modCtx c i f).mem = s.mem ∧
    (s.modCtx c i f).sectors = s.sectors ∧ (s.modCtx c i f).dies = s.dies ∧ (s.modCtx c i f).keys = s.keys ∧
    (s.modCtx c i f).groups = s.groups ∧ (s.modCtx c i f).currencies = s.currencies ∧ (s.modCtx c i f).repay = s.repay ∧
    (s.modCtx c i f).works = s.works ∧ (s.modCtx c i f).sections = s.sections ∧ (s.modCtx c i f).waitUnits = s.waitUnits ∧
    (s.modCtx c i f).vis = s.vis ∧ (s.modCtx c i f).pfq = s.pfq ∧ (s.modCtx c i f).pfAttached = s.pfAttached ∧
    (s.modCtx c i f).pfMsix = s.pfMsix ∧ (s.modCtx c i f).hostReads = s.hostReads ∧ (s.modCtx c i f).parts = s.parts ∧
    (s.modCtx c i f).ports = s.ports ∧ (s.modCtx c i f).results = s.results ∧ (s.modCtx c i f).releases = s.releases ∧
    (s.modCtx c i f).powerLimit = s.powerLimit ∧ (s.modCtx c i f).thot = s.thot ∧ (s.modCtx c i f).ttripHold = s.ttripHold ∧
    (s.modCtx c i f).ttripAt = s.ttripAt ∧ (s.modCtx c i f).ttripIn = s.ttripIn ∧ (s.modCtx c i f).windows = s.windows ∧
    (s.modCtx c i f).repairStore = s.repairStore ∧ (s.modCtx c i f).minSvn = s.minSvn ∧ (s.modCtx c i f).health = s.health ∧
    (s.modCtx c i f).healthCores = s.healthCores ∧ (s.modCtx c i f).retested = s.retested ∧
    (s.modCtx c i f).hkInterrupts = s.hkInterrupts ∧ (s.modCtx c i f).spdmOut = s.spdmOut ∧ (s.modCtx c i f).hypLoaded = s.hypLoaded ∧
    (s.modCtx c i f).images = s.images :=
  ⟨rfl, rfl, rfl, rfl, rfl, rfl, rfl, rfl, rfl, rfl, rfl, rfl, rfl, rfl, rfl, rfl, rfl, rfl, rfl, rfl, rfl, rfl, rfl, rfl, rfl, rfl, rfl, rfl, rfl, rfl, rfl, rfl, rfl, rfl, rfl, rfl, rfl, rfl, rfl, rfl, rfl, rfl, rfl, rfl, rfl, rfl⟩

@[simp] theorem State.modStrandAt_frame (s : State) (r : StrandRef) (f : Strand → Strand) :
    (s.modStrandAt r f).time = s.time ∧ (s.modStrandAt r f).tick = s.tick ∧ (s.modStrandAt r f).fresh = s.fresh ∧
    (s.modStrandAt r f).focus = s.focus ∧ (s.modStrandAt r f).turn = s.turn ∧ (s.modStrandAt r f).agenda = s.agenda ∧
    (s.modStrandAt r f).poweredOff = s.poweredOff ∧ (s.modStrandAt r f).powerUp = s.powerUp ∧ (s.modStrandAt r f).boot = s.boot ∧
    (s.modStrandAt r f).marchAt = s.marchAt ∧ (s.modStrandAt r f).package = s.package ∧ (s.modStrandAt r f).domain = s.domain ∧
    (s.modStrandAt r f).mem = s.mem ∧ (s.modStrandAt r f).sectors = s.sectors ∧ (s.modStrandAt r f).dies = s.dies ∧
    (s.modStrandAt r f).keys = s.keys ∧ (s.modStrandAt r f).groups = s.groups ∧ (s.modStrandAt r f).currencies = s.currencies ∧
    (s.modStrandAt r f).repay = s.repay ∧ (s.modStrandAt r f).works = s.works ∧ (s.modStrandAt r f).sections = s.sections ∧
    (s.modStrandAt r f).waitUnits = s.waitUnits ∧ (s.modStrandAt r f).vis = s.vis ∧ (s.modStrandAt r f).pfq = s.pfq ∧
    (s.modStrandAt r f).pfAttached = s.pfAttached ∧ (s.modStrandAt r f).pfMsix = s.pfMsix ∧ (s.modStrandAt r f).hostReads = s.hostReads ∧
    (s.modStrandAt r f).parts = s.parts ∧ (s.modStrandAt r f).ports = s.ports ∧ (s.modStrandAt r f).results = s.results ∧
    (s.modStrandAt r f).releases = s.releases ∧ (s.modStrandAt r f).powerLimit = s.powerLimit ∧ (s.modStrandAt r f).thot = s.thot ∧
    (s.modStrandAt r f).ttripHold = s.ttripHold ∧ (s.modStrandAt r f).ttripAt = s.ttripAt ∧ (s.modStrandAt r f).ttripIn = s.ttripIn ∧
    (s.modStrandAt r f).windows = s.windows ∧ (s.modStrandAt r f).repairStore = s.repairStore ∧ (s.modStrandAt r f).minSvn = s.minSvn ∧
    (s.modStrandAt r f).health = s.health ∧ (s.modStrandAt r f).healthCores = s.healthCores ∧ (s.modStrandAt r f).retested = s.retested ∧
    (s.modStrandAt r f).hkInterrupts = s.hkInterrupts ∧ (s.modStrandAt r f).spdmOut = s.spdmOut ∧
    (s.modStrandAt r f).hypLoaded = s.hypLoaded ∧ (s.modStrandAt r f).images = s.images :=
  ⟨rfl, rfl, rfl, rfl, rfl, rfl, rfl, rfl, rfl, rfl, rfl, rfl, rfl, rfl, rfl, rfl, rfl, rfl, rfl, rfl, rfl, rfl, rfl, rfl, rfl, rfl, rfl, rfl, rfl, rfl, rfl, rfl, rfl, rfl, rfl, rfl, rfl, rfl, rfl, rfl, rfl, rfl, rfl, rfl, rfl, rfl⟩

@[simp] theorem State.modSt_frame (s : State) (f : Strand → Strand) :
    (s.modSt f).time = s.time ∧ (s.modSt f).tick = s.tick ∧ (s.modSt f).fresh = s.fresh ∧ (s.modSt f).focus = s.focus ∧
    (s.modSt f).turn = s.turn ∧ (s.modSt f).agenda = s.agenda ∧ (s.modSt f).poweredOff = s.poweredOff ∧ (s.modSt f).powerUp = s.powerUp ∧
    (s.modSt f).boot = s.boot ∧ (s.modSt f).marchAt = s.marchAt ∧ (s.modSt f).package = s.package ∧ (s.modSt f).domain = s.domain ∧
    (s.modSt f).mem = s.mem ∧ (s.modSt f).sectors = s.sectors ∧ (s.modSt f).dies = s.dies ∧ (s.modSt f).keys = s.keys ∧
    (s.modSt f).groups = s.groups ∧ (s.modSt f).currencies = s.currencies ∧ (s.modSt f).repay = s.repay ∧ (s.modSt f).works = s.works ∧
    (s.modSt f).sections = s.sections ∧ (s.modSt f).waitUnits = s.waitUnits ∧ (s.modSt f).vis = s.vis ∧ (s.modSt f).pfq = s.pfq ∧
    (s.modSt f).pfAttached = s.pfAttached ∧ (s.modSt f).pfMsix = s.pfMsix ∧ (s.modSt f).hostReads = s.hostReads ∧
    (s.modSt f).parts = s.parts ∧ (s.modSt f).ports = s.ports ∧ (s.modSt f).results = s.results ∧ (s.modSt f).releases = s.releases ∧
    (s.modSt f).powerLimit = s.powerLimit ∧ (s.modSt f).thot = s.thot ∧ (s.modSt f).ttripHold = s.ttripHold ∧
    (s.modSt f).ttripAt = s.ttripAt ∧ (s.modSt f).ttripIn = s.ttripIn ∧ (s.modSt f).windows = s.windows ∧
    (s.modSt f).repairStore = s.repairStore ∧ (s.modSt f).minSvn = s.minSvn ∧ (s.modSt f).health = s.health ∧
    (s.modSt f).healthCores = s.healthCores ∧ (s.modSt f).retested = s.retested ∧ (s.modSt f).hkInterrupts = s.hkInterrupts ∧
    (s.modSt f).spdmOut = s.spdmOut ∧ (s.modSt f).hypLoaded = s.hypLoaded ∧ (s.modSt f).images = s.images :=
  ⟨rfl, rfl, rfl, rfl, rfl, rfl, rfl, rfl, rfl, rfl, rfl, rfl, rfl, rfl, rfl, rfl, rfl, rfl, rfl, rfl, rfl, rfl, rfl, rfl, rfl, rfl, rfl, rfl, rfl, rfl, rfl, rfl, rfl, rfl, rfl, rfl, rfl, rfl, rfl, rfl, rfl, rfl, rfl, rfl, rfl, rfl⟩

@[simp] theorem State.modCx_frame (s : State) (f : Ctx → Ctx) :
    (s.modCx f).time = s.time ∧ (s.modCx f).tick = s.tick ∧ (s.modCx f).fresh = s.fresh ∧ (s.modCx f).focus = s.focus ∧
    (s.modCx f).turn = s.turn ∧ (s.modCx f).agenda = s.agenda ∧ (s.modCx f).poweredOff = s.poweredOff ∧ (s.modCx f).powerUp = s.powerUp ∧
    (s.modCx f).boot = s.boot ∧ (s.modCx f).marchAt = s.marchAt ∧ (s.modCx f).package = s.package ∧ (s.modCx f).domain = s.domain ∧
    (s.modCx f).mem = s.mem ∧ (s.modCx f).sectors = s.sectors ∧ (s.modCx f).dies = s.dies ∧ (s.modCx f).keys = s.keys ∧
    (s.modCx f).groups = s.groups ∧ (s.modCx f).currencies = s.currencies ∧ (s.modCx f).repay = s.repay ∧ (s.modCx f).works = s.works ∧
    (s.modCx f).sections = s.sections ∧ (s.modCx f).waitUnits = s.waitUnits ∧ (s.modCx f).vis = s.vis ∧ (s.modCx f).pfq = s.pfq ∧
    (s.modCx f).pfAttached = s.pfAttached ∧ (s.modCx f).pfMsix = s.pfMsix ∧ (s.modCx f).hostReads = s.hostReads ∧
    (s.modCx f).parts = s.parts ∧ (s.modCx f).ports = s.ports ∧ (s.modCx f).results = s.results ∧ (s.modCx f).releases = s.releases ∧
    (s.modCx f).powerLimit = s.powerLimit ∧ (s.modCx f).thot = s.thot ∧ (s.modCx f).ttripHold = s.ttripHold ∧
    (s.modCx f).ttripAt = s.ttripAt ∧ (s.modCx f).ttripIn = s.ttripIn ∧ (s.modCx f).windows = s.windows ∧
    (s.modCx f).repairStore = s.repairStore ∧ (s.modCx f).minSvn = s.minSvn ∧ (s.modCx f).health = s.health ∧
    (s.modCx f).healthCores = s.healthCores ∧ (s.modCx f).retested = s.retested ∧ (s.modCx f).hkInterrupts = s.hkInterrupts ∧
    (s.modCx f).spdmOut = s.spdmOut ∧ (s.modCx f).hypLoaded = s.hypLoaded ∧ (s.modCx f).images = s.images :=
  ⟨rfl, rfl, rfl, rfl, rfl, rfl, rfl, rfl, rfl, rfl, rfl, rfl, rfl, rfl, rfl, rfl, rfl, rfl, rfl, rfl, rfl, rfl, rfl, rfl, rfl, rfl, rfl, rfl, rfl, rfl, rfl, rfl, rfl, rfl, rfl, rfl, rfl, rfl, rfl, rfl, rfl, rfl, rfl, rfl, rfl, rfl⟩

@[simp] theorem State.modCo_frame (s : State) (f : Core → Core) :
    (s.modCo f).time = s.time ∧ (s.modCo f).tick = s.tick ∧ (s.modCo f).fresh = s.fresh ∧ (s.modCo f).focus = s.focus ∧
    (s.modCo f).turn = s.turn ∧ (s.modCo f).agenda = s.agenda ∧ (s.modCo f).poweredOff = s.poweredOff ∧ (s.modCo f).powerUp = s.powerUp ∧
    (s.modCo f).boot = s.boot ∧ (s.modCo f).marchAt = s.marchAt ∧ (s.modCo f).package = s.package ∧ (s.modCo f).domain = s.domain ∧
    (s.modCo f).mem = s.mem ∧ (s.modCo f).sectors = s.sectors ∧ (s.modCo f).dies = s.dies ∧ (s.modCo f).keys = s.keys ∧
    (s.modCo f).groups = s.groups ∧ (s.modCo f).currencies = s.currencies ∧ (s.modCo f).repay = s.repay ∧ (s.modCo f).works = s.works ∧
    (s.modCo f).sections = s.sections ∧ (s.modCo f).waitUnits = s.waitUnits ∧ (s.modCo f).vis = s.vis ∧ (s.modCo f).pfq = s.pfq ∧
    (s.modCo f).pfAttached = s.pfAttached ∧ (s.modCo f).pfMsix = s.pfMsix ∧ (s.modCo f).hostReads = s.hostReads ∧
    (s.modCo f).parts = s.parts ∧ (s.modCo f).ports = s.ports ∧ (s.modCo f).results = s.results ∧ (s.modCo f).releases = s.releases ∧
    (s.modCo f).powerLimit = s.powerLimit ∧ (s.modCo f).thot = s.thot ∧ (s.modCo f).ttripHold = s.ttripHold ∧
    (s.modCo f).ttripAt = s.ttripAt ∧ (s.modCo f).ttripIn = s.ttripIn ∧ (s.modCo f).windows = s.windows ∧
    (s.modCo f).repairStore = s.repairStore ∧ (s.modCo f).minSvn = s.minSvn ∧ (s.modCo f).health = s.health ∧
    (s.modCo f).healthCores = s.healthCores ∧ (s.modCo f).retested = s.retested ∧ (s.modCo f).hkInterrupts = s.hkInterrupts ∧
    (s.modCo f).spdmOut = s.spdmOut ∧ (s.modCo f).hypLoaded = s.hypLoaded ∧ (s.modCo f).images = s.images :=
  ⟨rfl, rfl, rfl, rfl, rfl, rfl, rfl, rfl, rfl, rfl, rfl, rfl, rfl, rfl, rfl, rfl, rfl, rfl, rfl, rfl, rfl, rfl, rfl, rfl, rfl, rfl, rfl, rfl, rfl, rfl, rfl, rfl, rfl, rfl, rfl, rfl, rfl, rfl, rfl, rfl, rfl, rfl, rfl, rfl, rfl, rfl⟩

@[simp] theorem State.setDie_frame (s : State) (o : Nat) (d : Die) :
    (s.setDie o d).time = s.time ∧ (s.setDie o d).tick = s.tick ∧ (s.setDie o d).fresh = s.fresh ∧ (s.setDie o d).focus = s.focus ∧
    (s.setDie o d).turn = s.turn ∧ (s.setDie o d).agenda = s.agenda ∧ (s.setDie o d).poweredOff = s.poweredOff ∧
    (s.setDie o d).powerUp = s.powerUp ∧ (s.setDie o d).boot = s.boot ∧ (s.setDie o d).marchAt = s.marchAt ∧
    (s.setDie o d).package = s.package ∧ (s.setDie o d).domain = s.domain ∧ (s.setDie o d).mem = s.mem ∧
    (s.setDie o d).sectors = s.sectors ∧ (s.setDie o d).cores = s.cores ∧ (s.setDie o d).keys = s.keys ∧ (s.setDie o d).groups = s.groups ∧
    (s.setDie o d).currencies = s.currencies ∧ (s.setDie o d).repay = s.repay ∧ (s.setDie o d).works = s.works ∧
    (s.setDie o d).sections = s.sections ∧ (s.setDie o d).waitUnits = s.waitUnits ∧ (s.setDie o d).vis = s.vis ∧
    (s.setDie o d).pfq = s.pfq ∧ (s.setDie o d).pfAttached = s.pfAttached ∧ (s.setDie o d).pfMsix = s.pfMsix ∧
    (s.setDie o d).hostReads = s.hostReads ∧ (s.setDie o d).parts = s.parts ∧ (s.setDie o d).ports = s.ports ∧
    (s.setDie o d).results = s.results ∧ (s.setDie o d).releases = s.releases ∧ (s.setDie o d).powerLimit = s.powerLimit ∧
    (s.setDie o d).thot = s.thot ∧ (s.setDie o d).ttripHold = s.ttripHold ∧ (s.setDie o d).ttripAt = s.ttripAt ∧
    (s.setDie o d).ttripIn = s.ttripIn ∧ (s.setDie o d).windows = s.windows ∧ (s.setDie o d).repairStore = s.repairStore ∧
    (s.setDie o d).minSvn = s.minSvn ∧ (s.setDie o d).health = s.health ∧ (s.setDie o d).healthCores = s.healthCores ∧
    (s.setDie o d).retested = s.retested ∧ (s.setDie o d).hkInterrupts = s.hkInterrupts ∧ (s.setDie o d).spdmOut = s.spdmOut ∧
    (s.setDie o d).hypLoaded = s.hypLoaded ∧ (s.setDie o d).images = s.images :=
  ⟨rfl, rfl, rfl, rfl, rfl, rfl, rfl, rfl, rfl, rfl, rfl, rfl, rfl, rfl, rfl, rfl, rfl, rfl, rfl, rfl, rfl, rfl, rfl, rfl, rfl, rfl, rfl, rfl, rfl, rfl, rfl, rfl, rfl, rfl, rfl, rfl, rfl, rfl, rfl, rfl, rfl, rfl, rfl, rfl, rfl, rfl⟩

@[simp] theorem State.modDie_frame (s : State) (o : Nat) (f : Die → Die) :
    (s.modDie o f).time = s.time ∧ (s.modDie o f).tick = s.tick ∧ (s.modDie o f).fresh = s.fresh ∧ (s.modDie o f).focus = s.focus ∧
    (s.modDie o f).turn = s.turn ∧ (s.modDie o f).agenda = s.agenda ∧ (s.modDie o f).poweredOff = s.poweredOff ∧
    (s.modDie o f).powerUp = s.powerUp ∧ (s.modDie o f).boot = s.boot ∧ (s.modDie o f).marchAt = s.marchAt ∧
    (s.modDie o f).package = s.package ∧ (s.modDie o f).domain = s.domain ∧ (s.modDie o f).mem = s.mem ∧
    (s.modDie o f).sectors = s.sectors ∧ (s.modDie o f).cores = s.cores ∧ (s.modDie o f).keys = s.keys ∧ (s.modDie o f).groups = s.groups ∧
    (s.modDie o f).currencies = s.currencies ∧ (s.modDie o f).repay = s.repay ∧ (s.modDie o f).works = s.works ∧
    (s.modDie o f).sections = s.sections ∧ (s.modDie o f).waitUnits = s.waitUnits ∧ (s.modDie o f).vis = s.vis ∧
    (s.modDie o f).pfq = s.pfq ∧ (s.modDie o f).pfAttached = s.pfAttached ∧ (s.modDie o f).pfMsix = s.pfMsix ∧
    (s.modDie o f).hostReads = s.hostReads ∧ (s.modDie o f).parts = s.parts ∧ (s.modDie o f).ports = s.ports ∧
    (s.modDie o f).results = s.results ∧ (s.modDie o f).releases = s.releases ∧ (s.modDie o f).powerLimit = s.powerLimit ∧
    (s.modDie o f).thot = s.thot ∧ (s.modDie o f).ttripHold = s.ttripHold ∧ (s.modDie o f).ttripAt = s.ttripAt ∧
    (s.modDie o f).ttripIn = s.ttripIn ∧ (s.modDie o f).windows = s.windows ∧ (s.modDie o f).repairStore = s.repairStore ∧
    (s.modDie o f).minSvn = s.minSvn ∧ (s.modDie o f).health = s.health ∧ (s.modDie o f).healthCores = s.healthCores ∧
    (s.modDie o f).retested = s.retested ∧ (s.modDie o f).hkInterrupts = s.hkInterrupts ∧ (s.modDie o f).spdmOut = s.spdmOut ∧
    (s.modDie o f).hypLoaded = s.hypLoaded ∧ (s.modDie o f).images = s.images :=
  ⟨rfl, rfl, rfl, rfl, rfl, rfl, rfl, rfl, rfl, rfl, rfl, rfl, rfl, rfl, rfl, rfl, rfl, rfl, rfl, rfl, rfl, rfl, rfl, rfl, rfl, rfl, rfl, rfl, rfl, rfl, rfl, rfl, rfl, rfl, rfl, rfl, rfl, rfl, rfl, rfl, rfl, rfl, rfl, rfl, rfl, rfl⟩

@[simp] theorem State.modDi_frame (s : State) (f : Die → Die) :
    (s.modDi f).time = s.time ∧ (s.modDi f).tick = s.tick ∧ (s.modDi f).fresh = s.fresh ∧ (s.modDi f).focus = s.focus ∧
    (s.modDi f).turn = s.turn ∧ (s.modDi f).agenda = s.agenda ∧ (s.modDi f).poweredOff = s.poweredOff ∧ (s.modDi f).powerUp = s.powerUp ∧
    (s.modDi f).boot = s.boot ∧ (s.modDi f).marchAt = s.marchAt ∧ (s.modDi f).package = s.package ∧ (s.modDi f).domain = s.domain ∧
    (s.modDi f).mem = s.mem ∧ (s.modDi f).sectors = s.sectors ∧ (s.modDi f).cores = s.cores ∧ (s.modDi f).keys = s.keys ∧
    (s.modDi f).groups = s.groups ∧ (s.modDi f).currencies = s.currencies ∧ (s.modDi f).repay = s.repay ∧ (s.modDi f).works = s.works ∧
    (s.modDi f).sections = s.sections ∧ (s.modDi f).waitUnits = s.waitUnits ∧ (s.modDi f).vis = s.vis ∧ (s.modDi f).pfq = s.pfq ∧
    (s.modDi f).pfAttached = s.pfAttached ∧ (s.modDi f).pfMsix = s.pfMsix ∧ (s.modDi f).hostReads = s.hostReads ∧
    (s.modDi f).parts = s.parts ∧ (s.modDi f).ports = s.ports ∧ (s.modDi f).results = s.results ∧ (s.modDi f).releases = s.releases ∧
    (s.modDi f).powerLimit = s.powerLimit ∧ (s.modDi f).thot = s.thot ∧ (s.modDi f).ttripHold = s.ttripHold ∧
    (s.modDi f).ttripAt = s.ttripAt ∧ (s.modDi f).ttripIn = s.ttripIn ∧ (s.modDi f).windows = s.windows ∧
    (s.modDi f).repairStore = s.repairStore ∧ (s.modDi f).minSvn = s.minSvn ∧ (s.modDi f).health = s.health ∧
    (s.modDi f).healthCores = s.healthCores ∧ (s.modDi f).retested = s.retested ∧ (s.modDi f).hkInterrupts = s.hkInterrupts ∧
    (s.modDi f).spdmOut = s.spdmOut ∧ (s.modDi f).hypLoaded = s.hypLoaded ∧ (s.modDi f).images = s.images :=
  ⟨rfl, rfl, rfl, rfl, rfl, rfl, rfl, rfl, rfl, rfl, rfl, rfl, rfl, rfl, rfl, rfl, rfl, rfl, rfl, rfl, rfl, rfl, rfl, rfl, rfl, rfl, rfl, rfl, rfl, rfl, rfl, rfl, rfl, rfl, rfl, rfl, rfl, rfl, rfl, rfl, rfl, rfl, rfl, rfl, rfl, rfl⟩

@[simp] theorem State.setRaw_frame (s : State) (k : Nat) (b : Byte) :
    (s.setRaw k b).time = s.time ∧ (s.setRaw k b).tick = s.tick ∧ (s.setRaw k b).fresh = s.fresh ∧ (s.setRaw k b).focus = s.focus ∧
    (s.setRaw k b).turn = s.turn ∧ (s.setRaw k b).agenda = s.agenda ∧ (s.setRaw k b).poweredOff = s.poweredOff ∧
    (s.setRaw k b).powerUp = s.powerUp ∧ (s.setRaw k b).boot = s.boot ∧ (s.setRaw k b).marchAt = s.marchAt ∧
    (s.setRaw k b).package = s.package ∧ (s.setRaw k b).domain = s.domain ∧ (s.setRaw k b).sectors = s.sectors ∧
    (s.setRaw k b).cores = s.cores ∧ (s.setRaw k b).dies = s.dies ∧ (s.setRaw k b).keys = s.keys ∧ (s.setRaw k b).groups = s.groups ∧
    (s.setRaw k b).currencies = s.currencies ∧ (s.setRaw k b).repay = s.repay ∧ (s.setRaw k b).works = s.works ∧
    (s.setRaw k b).sections = s.sections ∧ (s.setRaw k b).waitUnits = s.waitUnits ∧ (s.setRaw k b).vis = s.vis ∧
    (s.setRaw k b).pfq = s.pfq ∧ (s.setRaw k b).pfAttached = s.pfAttached ∧ (s.setRaw k b).pfMsix = s.pfMsix ∧
    (s.setRaw k b).hostReads = s.hostReads ∧ (s.setRaw k b).parts = s.parts ∧ (s.setRaw k b).ports = s.ports ∧
    (s.setRaw k b).results = s.results ∧ (s.setRaw k b).releases = s.releases ∧ (s.setRaw k b).powerLimit = s.powerLimit ∧
    (s.setRaw k b).thot = s.thot ∧ (s.setRaw k b).ttripHold = s.ttripHold ∧ (s.setRaw k b).ttripAt = s.ttripAt ∧
    (s.setRaw k b).ttripIn = s.ttripIn ∧ (s.setRaw k b).windows = s.windows ∧ (s.setRaw k b).repairStore = s.repairStore ∧
    (s.setRaw k b).minSvn = s.minSvn ∧ (s.setRaw k b).health = s.health ∧ (s.setRaw k b).healthCores = s.healthCores ∧
    (s.setRaw k b).retested = s.retested ∧ (s.setRaw k b).hkInterrupts = s.hkInterrupts ∧ (s.setRaw k b).spdmOut = s.spdmOut ∧
    (s.setRaw k b).hypLoaded = s.hypLoaded ∧ (s.setRaw k b).images = s.images :=
  ⟨rfl, rfl, rfl, rfl, rfl, rfl, rfl, rfl, rfl, rfl, rfl, rfl, rfl, rfl, rfl, rfl, rfl, rfl, rfl, rfl, rfl, rfl, rfl, rfl, rfl, rfl, rfl, rfl, rfl, rfl, rfl, rfl, rfl, rfl, rfl, rfl, rfl, rfl, rfl, rfl, rfl, rfl, rfl, rfl, rfl, rfl⟩

@[simp] theorem State.freshen_frame (s : State) :
    (s.freshen).time = s.time ∧ (s.freshen).tick = s.tick ∧ (s.freshen).focus = s.focus ∧ (s.freshen).turn = s.turn ∧
    (s.freshen).agenda = s.agenda ∧ (s.freshen).poweredOff = s.poweredOff ∧ (s.freshen).powerUp = s.powerUp ∧ (s.freshen).boot = s.boot ∧
    (s.freshen).marchAt = s.marchAt ∧ (s.freshen).package = s.package ∧ (s.freshen).domain = s.domain ∧ (s.freshen).mem = s.mem ∧
    (s.freshen).sectors = s.sectors ∧ (s.freshen).cores = s.cores ∧ (s.freshen).dies = s.dies ∧ (s.freshen).keys = s.keys ∧
    (s.freshen).groups = s.groups ∧ (s.freshen).currencies = s.currencies ∧ (s.freshen).repay = s.repay ∧ (s.freshen).works = s.works ∧
    (s.freshen).sections = s.sections ∧ (s.freshen).waitUnits = s.waitUnits ∧ (s.freshen).vis = s.vis ∧ (s.freshen).pfq = s.pfq ∧
    (s.freshen).pfAttached = s.pfAttached ∧ (s.freshen).pfMsix = s.pfMsix ∧ (s.freshen).hostReads = s.hostReads ∧
    (s.freshen).parts = s.parts ∧ (s.freshen).ports = s.ports ∧ (s.freshen).results = s.results ∧ (s.freshen).releases = s.releases ∧
    (s.freshen).powerLimit = s.powerLimit ∧ (s.freshen).thot = s.thot ∧ (s.freshen).ttripHold = s.ttripHold ∧
    (s.freshen).ttripAt = s.ttripAt ∧ (s.freshen).ttripIn = s.ttripIn ∧ (s.freshen).windows = s.windows ∧
    (s.freshen).repairStore = s.repairStore ∧ (s.freshen).minSvn = s.minSvn ∧ (s.freshen).health = s.health ∧
    (s.freshen).healthCores = s.healthCores ∧ (s.freshen).retested = s.retested ∧ (s.freshen).hkInterrupts = s.hkInterrupts ∧
    (s.freshen).spdmOut = s.spdmOut ∧ (s.freshen).hypLoaded = s.hypLoaded ∧ (s.freshen).images = s.images :=
  ⟨rfl, rfl, rfl, rfl, rfl, rfl, rfl, rfl, rfl, rfl, rfl, rfl, rfl, rfl, rfl, rfl, rfl, rfl, rfl, rfl, rfl, rfl, rfl, rfl, rfl, rfl, rfl, rfl, rfl, rfl, rfl, rfl, rfl, rfl, rfl, rfl, rfl, rfl, rfl, rfl, rfl, rfl, rfl, rfl, rfl, rfl⟩

@[simp] theorem State.hold_frame (s : State) :
    (s.hold).time = s.time ∧ (s.hold).tick = s.tick ∧ (s.hold).fresh = s.fresh ∧ (s.hold).focus = s.focus ∧ (s.hold).turn = s.turn ∧
    (s.hold).agenda = s.agenda ∧ (s.hold).poweredOff = s.poweredOff ∧ (s.hold).powerUp = s.powerUp ∧ (s.hold).boot = s.boot ∧
    (s.hold).marchAt = s.marchAt ∧ (s.hold).package = s.package ∧ (s.hold).domain = s.domain ∧ (s.hold).mem = s.mem ∧
    (s.hold).sectors = s.sectors ∧ (s.hold).dies = s.dies ∧ (s.hold).keys = s.keys ∧ (s.hold).groups = s.groups ∧
    (s.hold).currencies = s.currencies ∧ (s.hold).repay = s.repay ∧ (s.hold).works = s.works ∧ (s.hold).sections = s.sections ∧
    (s.hold).waitUnits = s.waitUnits ∧ (s.hold).vis = s.vis ∧ (s.hold).pfq = s.pfq ∧ (s.hold).pfAttached = s.pfAttached ∧
    (s.hold).pfMsix = s.pfMsix ∧ (s.hold).hostReads = s.hostReads ∧ (s.hold).parts = s.parts ∧ (s.hold).ports = s.ports ∧
    (s.hold).results = s.results ∧ (s.hold).releases = s.releases ∧ (s.hold).powerLimit = s.powerLimit ∧ (s.hold).thot = s.thot ∧
    (s.hold).ttripHold = s.ttripHold ∧ (s.hold).ttripAt = s.ttripAt ∧ (s.hold).ttripIn = s.ttripIn ∧ (s.hold).windows = s.windows ∧
    (s.hold).repairStore = s.repairStore ∧ (s.hold).minSvn = s.minSvn ∧ (s.hold).health = s.health ∧ (s.hold).healthCores = s.healthCores ∧
    (s.hold).retested = s.retested ∧ (s.hold).hkInterrupts = s.hkInterrupts ∧ (s.hold).spdmOut = s.spdmOut ∧
    (s.hold).hypLoaded = s.hypLoaded ∧ (s.hold).images = s.images :=
  ⟨rfl, rfl, rfl, rfl, rfl, rfl, rfl, rfl, rfl, rfl, rfl, rfl, rfl, rfl, rfl, rfl, rfl, rfl, rfl, rfl, rfl, rfl, rfl, rfl, rfl, rfl, rfl, rfl, rfl, rfl, rfl, rfl, rfl, rfl, rfl, rfl, rfl, rfl, rfl, rfl, rfl, rfl, rfl, rfl, rfl, rfl⟩

@[simp] theorem State.retire_frame (s : State) :
    (s.retire).time = s.time ∧ (s.retire).tick = s.tick ∧ (s.retire).fresh = s.fresh ∧ (s.retire).focus = s.focus ∧
    (s.retire).turn = s.turn ∧ (s.retire).agenda = s.agenda ∧ (s.retire).poweredOff = s.poweredOff ∧ (s.retire).powerUp = s.powerUp ∧
    (s.retire).boot = s.boot ∧ (s.retire).marchAt = s.marchAt ∧ (s.retire).package = s.package ∧ (s.retire).domain = s.domain ∧
    (s.retire).mem = s.mem ∧ (s.retire).sectors = s.sectors ∧ (s.retire).dies = s.dies ∧ (s.retire).keys = s.keys ∧
    (s.retire).groups = s.groups ∧ (s.retire).currencies = s.currencies ∧ (s.retire).repay = s.repay ∧ (s.retire).works = s.works ∧
    (s.retire).sections = s.sections ∧ (s.retire).waitUnits = s.waitUnits ∧ (s.retire).vis = s.vis ∧ (s.retire).pfq = s.pfq ∧
    (s.retire).pfAttached = s.pfAttached ∧ (s.retire).pfMsix = s.pfMsix ∧ (s.retire).hostReads = s.hostReads ∧ (s.retire).parts = s.parts ∧
    (s.retire).ports = s.ports ∧ (s.retire).results = s.results ∧ (s.retire).releases = s.releases ∧ (s.retire).powerLimit = s.powerLimit ∧
    (s.retire).thot = s.thot ∧ (s.retire).ttripHold = s.ttripHold ∧ (s.retire).ttripAt = s.ttripAt ∧ (s.retire).ttripIn = s.ttripIn ∧
    (s.retire).windows = s.windows ∧ (s.retire).repairStore = s.repairStore ∧ (s.retire).minSvn = s.minSvn ∧ (s.retire).health = s.health ∧
    (s.retire).healthCores = s.healthCores ∧ (s.retire).retested = s.retested ∧ (s.retire).hkInterrupts = s.hkInterrupts ∧
    (s.retire).spdmOut = s.spdmOut ∧ (s.retire).hypLoaded = s.hypLoaded ∧ (s.retire).images = s.images :=
  ⟨rfl, rfl, rfl, rfl, rfl, rfl, rfl, rfl, rfl, rfl, rfl, rfl, rfl, rfl, rfl, rfl, rfl, rfl, rfl, rfl, rfl, rfl, rfl, rfl, rfl, rfl, rfl, rfl, rfl, rfl, rfl, rfl, rfl, rfl, rfl, rfl, rfl, rfl, rfl, rfl, rfl, rfl, rfl, rfl, rfl, rfl⟩

@[simp] theorem State.retireN_frame (s : State) (n : Nat) :
    (s.retireN n).time = s.time ∧ (s.retireN n).tick = s.tick ∧ (s.retireN n).fresh = s.fresh ∧ (s.retireN n).focus = s.focus ∧
    (s.retireN n).turn = s.turn ∧ (s.retireN n).agenda = s.agenda ∧ (s.retireN n).poweredOff = s.poweredOff ∧
    (s.retireN n).powerUp = s.powerUp ∧ (s.retireN n).boot = s.boot ∧ (s.retireN n).marchAt = s.marchAt ∧
    (s.retireN n).package = s.package ∧ (s.retireN n).domain = s.domain ∧ (s.retireN n).mem = s.mem ∧ (s.retireN n).sectors = s.sectors ∧
    (s.retireN n).dies = s.dies ∧ (s.retireN n).keys = s.keys ∧ (s.retireN n).groups = s.groups ∧ (s.retireN n).currencies = s.currencies ∧
    (s.retireN n).repay = s.repay ∧ (s.retireN n).works = s.works ∧ (s.retireN n).sections = s.sections ∧
    (s.retireN n).waitUnits = s.waitUnits ∧ (s.retireN n).vis = s.vis ∧ (s.retireN n).pfq = s.pfq ∧
    (s.retireN n).pfAttached = s.pfAttached ∧ (s.retireN n).pfMsix = s.pfMsix ∧ (s.retireN n).hostReads = s.hostReads ∧
    (s.retireN n).parts = s.parts ∧ (s.retireN n).ports = s.ports ∧ (s.retireN n).results = s.results ∧
    (s.retireN n).releases = s.releases ∧ (s.retireN n).powerLimit = s.powerLimit ∧ (s.retireN n).thot = s.thot ∧
    (s.retireN n).ttripHold = s.ttripHold ∧ (s.retireN n).ttripAt = s.ttripAt ∧ (s.retireN n).ttripIn = s.ttripIn ∧
    (s.retireN n).windows = s.windows ∧ (s.retireN n).repairStore = s.repairStore ∧ (s.retireN n).minSvn = s.minSvn ∧
    (s.retireN n).health = s.health ∧ (s.retireN n).healthCores = s.healthCores ∧ (s.retireN n).retested = s.retested ∧
    (s.retireN n).hkInterrupts = s.hkInterrupts ∧ (s.retireN n).spdmOut = s.spdmOut ∧ (s.retireN n).hypLoaded = s.hypLoaded ∧
    (s.retireN n).images = s.images :=
  ⟨rfl, rfl, rfl, rfl, rfl, rfl, rfl, rfl, rfl, rfl, rfl, rfl, rfl, rfl, rfl, rfl, rfl, rfl, rfl, rfl, rfl, rfl, rfl, rfl, rfl, rfl, rfl, rfl, rfl, rfl, rfl, rfl, rfl, rfl, rfl, rfl, rfl, rfl, rfl, rfl, rfl, rfl, rfl, rfl, rfl, rfl⟩

@[simp] theorem State.jump_frame (s : State) (a : Word) :
    (s.jump a).time = s.time ∧ (s.jump a).tick = s.tick ∧ (s.jump a).fresh = s.fresh ∧ (s.jump a).focus = s.focus ∧
    (s.jump a).turn = s.turn ∧ (s.jump a).agenda = s.agenda ∧ (s.jump a).poweredOff = s.poweredOff ∧ (s.jump a).powerUp = s.powerUp ∧
    (s.jump a).boot = s.boot ∧ (s.jump a).marchAt = s.marchAt ∧ (s.jump a).package = s.package ∧ (s.jump a).domain = s.domain ∧
    (s.jump a).mem = s.mem ∧ (s.jump a).sectors = s.sectors ∧ (s.jump a).dies = s.dies ∧ (s.jump a).keys = s.keys ∧
    (s.jump a).groups = s.groups ∧ (s.jump a).currencies = s.currencies ∧ (s.jump a).repay = s.repay ∧ (s.jump a).works = s.works ∧
    (s.jump a).sections = s.sections ∧ (s.jump a).waitUnits = s.waitUnits ∧ (s.jump a).vis = s.vis ∧ (s.jump a).pfq = s.pfq ∧
    (s.jump a).pfAttached = s.pfAttached ∧ (s.jump a).pfMsix = s.pfMsix ∧ (s.jump a).hostReads = s.hostReads ∧ (s.jump a).parts = s.parts ∧
    (s.jump a).ports = s.ports ∧ (s.jump a).results = s.results ∧ (s.jump a).releases = s.releases ∧ (s.jump a).powerLimit = s.powerLimit ∧
    (s.jump a).thot = s.thot ∧ (s.jump a).ttripHold = s.ttripHold ∧ (s.jump a).ttripAt = s.ttripAt ∧ (s.jump a).ttripIn = s.ttripIn ∧
    (s.jump a).windows = s.windows ∧ (s.jump a).repairStore = s.repairStore ∧ (s.jump a).minSvn = s.minSvn ∧ (s.jump a).health = s.health ∧
    (s.jump a).healthCores = s.healthCores ∧ (s.jump a).retested = s.retested ∧ (s.jump a).hkInterrupts = s.hkInterrupts ∧
    (s.jump a).spdmOut = s.spdmOut ∧ (s.jump a).hypLoaded = s.hypLoaded ∧ (s.jump a).images = s.images :=
  ⟨rfl, rfl, rfl, rfl, rfl, rfl, rfl, rfl, rfl, rfl, rfl, rfl, rfl, rfl, rfl, rfl, rfl, rfl, rfl, rfl, rfl, rfl, rfl, rfl, rfl, rfl, rfl, rfl, rfl, rfl, rfl, rfl, rfl, rfl, rfl, rfl, rfl, rfl, rfl, rfl, rfl, rfl, rfl, rfl, rfl, rfl⟩

end Sys2Proof.Machine
end

