-- ==== Sys2Proof/Laws/Store.lean ====
section
/-! SUPPORT. Sparse stores: a read after a write, and the canonical form. -/

namespace Sys2Proof.Machine.SMap

variable {α : Type}

@[simp] theorem get_set_same (d : α) (m : SMap α) (i : Nat) (x : α) : get d (set m i x) i = x := by
  induction m with
  | nil => simp [set, get]
  | cons e m ih =>
    obtain ⟨k, v⟩ := e
    simp only [set]
    split
    · simp [get]
    · split
      · simp_all [get]
      · simp_all [get]

theorem get_set_other (d : α) (m : SMap α) (i j : Nat) (x : α) (h : j ≠ i) : get d (set m i x) j = get d m j := by
  induction m with
  | nil => simp [set, get, h]
  | cons e m ih =>
    obtain ⟨k, v⟩ := e
    simp only [set]
    split
    · simp [get, h]
    · split
      · subst_vars; simp [get, h]
      · simp [get, ih]

@[simp] theorem find_set_same (m : SMap α) (i : Nat) (x : α) : find (set m i x) i = some x := by
  induction m with
  | nil => simp [set, find]
  | cons e m ih =>
    obtain ⟨k, v⟩ := e
    simp only [set]
    split
    · simp [find]
    · split
      · simp_all [find]
      · simp_all [find]

theorem find_set_other (m : SMap α) (i j : Nat) (x : α) (h : j ≠ i) : find (set m i x) j = find m j := by
  induction m with
  | nil => simp [set, find, h]
  | cons e m ih =>
    obtain ⟨k, v⟩ := e
    simp only [set]
    split
    · simp [find, h]
    · split
      · subst_vars; simp [find, h]
      · simp [find, ih]

@[simp] theorem set_set (m : SMap α) (i : Nat) (x y : α) : set (set m i x) i y = set m i y := by
  induction m with
  | nil => simp [set]
  | cons e m ih =>
    obtain ⟨k, v⟩ := e
    simp only [set]
    split
    · simp [set, *]
    · split
      · subst_vars; simp [set]
      · simp [set, *]

theorem get_of_find (d : α) (m : SMap α) (i : Nat) (x : α) (h : find m i = some x) : get d m i = x := by
  induction m with
  | nil => simp [find] at h
  | cons e m ih =>
    obtain ⟨k, v⟩ := e
    simp only [find] at h
    simp only [get]
    split <;> simp_all

@[simp] theorem get_erase_same (d : α) (m : SMap α) (i : Nat) : get d (erase m i) i = d := by
  induction m with
  | nil => rfl
  | cons e m ih =>
    obtain ⟨k, v⟩ := e
    simp only [erase]
    split
    · exact ih
    · simp_all [get]

theorem get_erase_other (d : α) (m : SMap α) (i j : Nat) (h : j ≠ i) : get d (erase m i) j = get d m j := by
  induction m with
  | nil => rfl
  | cons e m ih =>
    obtain ⟨k, v⟩ := e
    simp only [erase]
    split
    · subst_vars; simp [get, h, ih]
    · simp [get, ih]

@[simp] theorem find_erase_same (m : SMap α) (i : Nat) : find (erase m i) i = none := by
  induction m with
  | nil => rfl
  | cons e m ih =>
    obtain ⟨k, v⟩ := e
    simp only [erase]
    split
    · exact ih
    · simp_all [find]

theorem find_erase_other (m : SMap α) (i j : Nat) (h : j ≠ i) : find (erase m i) j = find m j := by
  induction m with
  | nil => rfl
  | cons e m ih =>
    obtain ⟨k, v⟩ := e
    simp only [erase]
    split
    · subst_vars; simp [find, h, ih]
    · simp [find, ih]

variable [DecidableEq α]

@[simp] theorem get_put_same (d : α) (m : SMap α) (i : Nat) (x : α) : get d (put d m i x) i = x := by
  unfold put
  split <;> simp_all

theorem get_put_other (d : α) (m : SMap α) (i j : Nat) (x : α) (h : j ≠ i) : get d (put d m i x) j = get d m j := by
  unfold put
  split
  · exact get_erase_other d m i j h
  · exact get_set_other d m i j x h

theorem wfFrom_mono (d : α) (m : SMap α) (a b : Nat) (hab : a ≤ b) (h : wfFrom d b m = true) : wfFrom d a m = true := by
  cases m with
  | nil => rfl
  | cons e m =>
    obtain ⟨k, v⟩ := e
    simp only [wfFrom, Bool.and_eq_true, decide_eq_true_eq] at h ⊢
    exact ⟨⟨Nat.le_trans hab h.1.1, h.1.2⟩, h.2⟩

theorem wfFrom_erase (d : α) (m : SMap α) (lo i : Nat) (h : wfFrom d lo m = true) : wfFrom d lo (erase m i) = true := by
  induction m generalizing lo with
  | nil => rfl
  | cons e m ih =>
    obtain ⟨k, v⟩ := e
    simp only [wfFrom, Bool.and_eq_true, decide_eq_true_eq] at h
    simp only [erase]
    split
    · exact wfFrom_mono d _ lo (k + 1) (by omega) (ih _ h.2)
    · simp only [wfFrom, Bool.and_eq_true, decide_eq_true_eq]
      exact ⟨h.1, ih _ h.2⟩

theorem wfFrom_set (d : α) (m : SMap α) (lo i : Nat) (x : α) (hx : x ≠ d) (hi : lo ≤ i) (h : wfFrom d lo m = true) :
    wfFrom d lo (set m i x) = true := by
  induction m generalizing lo with
  | nil => simp [set, wfFrom, hx, hi]
  | cons e m ih =>
    obtain ⟨k, v⟩ := e
    simp only [wfFrom, Bool.and_eq_true, decide_eq_true_eq] at h
    simp only [set]
    split
    · simp only [wfFrom, Bool.and_eq_true, decide_eq_true_eq]
      exact ⟨⟨hi, hx⟩, ⟨by omega, h.1.2⟩, h.2⟩
    · split
      · simp only [wfFrom, Bool.and_eq_true, decide_eq_true_eq]
        exact ⟨⟨h.1.1, hx⟩, h.2⟩
      · simp only [wfFrom, Bool.and_eq_true, decide_eq_true_eq]
        exact ⟨h.1, ih _ (by omega) h.2⟩

/-- A write keeps the canonical form. -/
theorem wf_put (d : α) (m : SMap α) (i : Nat) (x : α) (h : wf d m = true) : wf d (put d m i x) = true := by
  unfold put
  split
  · exact wfFrom_erase d m 0 i h
  · exact wfFrom_set d m 0 i x ‹_› (Nat.zero_le i) h

/-- Dropping entries keeps the canonical form. -/
theorem wfFrom_filter (d : α) (m : SMap α) (lo : Nat) (p : Nat × α → Bool) (h : wfFrom d lo m = true) :
    wfFrom d lo (m.filter p) = true := by
  induction m generalizing lo with
  | nil => rfl
  | cons e m ih =>
    obtain ⟨k, v⟩ := e
    simp only [wfFrom, Bool.and_eq_true, decide_eq_true_eq] at h
    simp only [List.filter]
    split
    · simp only [wfFrom, Bool.and_eq_true, decide_eq_true_eq]
      exact ⟨h.1, ih _ h.2⟩
    · exact wfFrom_mono d _ lo (k + 1) (by omega) (ih _ h.2)

theorem wf_filter (d : α) (m : SMap α) (p : Nat × α → Bool) (h : wf d m = true) : wf d (m.filter p) = true :=
  wfFrom_filter d m 0 p h

end Sys2Proof.Machine.SMap
end

