-- ==== Sys2Proof/Laws/Access.lean ====
section
/-! SUPPORT. Reading back what an update of a core, a die, a context, a strand or a register wrote. -/

namespace Sys2Proof.Machine

@[simp] theorem core_setCore (s : State) (c : Nat) (k : Core) : (s.setCore c k).core c = k := by
  simp [State.core, State.setCore]
@[simp] theorem core_modCore (s : State) (c : Nat) (f : Core → Core) : (s.modCore c f).core c = f (s.core c) := by
  simp [State.modCore]
theorem core_modCore_other (s : State) (c j : Nat) (f : Core → Core) (h : j ≠ c) : (s.modCore c f).core j = s.core j := by
  simp [State.modCore, State.core, State.setCore, SMap.get_set_other _ _ _ _ _ h]
@[simp] theorem die_setDie (s : State) (o : Nat) (d : Die) : (s.setDie o d).die o = d := by simp [State.die, State.setDie]
@[simp] theorem die_modDie (s : State) (o : Nat) (f : Die → Die) : (s.modDie o f).die o = f (s.die o) := by simp [State.modDie]
theorem die_modDie_other (s : State) (o j : Nat) (f : Die → Die) (h : j ≠ o) : (s.modDie o f).die j = s.die j := by
  simp [State.modDie, State.die, State.setDie, SMap.get_set_other _ _ _ _ _ h]
@[simp] theorem ctx_setCtx (s : State) (c i : Nat) (x : Ctx) : (s.setCtx c i x).ctx c i = x := by
  simp [State.ctx, State.setCtx]
@[simp] theorem ctx_modCtx (s : State) (c i : Nat) (f : Ctx → Ctx) : (s.modCtx c i f).ctx c i = f (s.ctx c i) := by
  simp [State.modCtx]
@[simp] theorem findCtx_setCtx (s : State) (c i : Nat) (x : Ctx) : (s.setCtx c i x).findCtx (.resident c i) = some x := by
  simp [State.findCtx, State.setCtx]
@[simp] theorem setCtx_setCtx (s : State) (c i : Nat) (x y : Ctx) : (s.setCtx c i x).setCtx c i y = s.setCtx c i y := by
  simp [State.setCtx, State.modCore, State.setCore, State.core]
@[simp] theorem ctx_modDie (s : State) (o c i : Nat) (f : Die → Die) : (s.modDie o f).ctx c i = s.ctx c i := rfl
@[simp] theorem cx_modDie (s : State) (o : Nat) (f : Die → Die) : (s.modDie o f).cx = s.cx := rfl
@[simp] theorem st_modDie (s : State) (o : Nat) (f : Die → Die) : (s.modDie o f).st = s.st := rfl
@[simp] theorem cx_modCx (s : State) (f : Ctx → Ctx) : (s.modCx f).cx = f s.cx := by
  simp [State.cx, State.modCx]
@[simp] theorem modCx_modCx (s : State) (f g : Ctx → Ctx) : (s.modCx f).modCx g = s.modCx fun x => g (f x) := by
  simp [State.modCx, State.modCtx]
@[simp] theorem strands_modStrand (x : Ctx) (i : Fin 4) (f : Strand → Strand) :
    (x.modStrand i f).strands[i.val] = f x.strands[i.val] := by
  simp [Ctx.modStrand]
theorem strands_modStrand_other (x : Ctx) (i j : Fin 4) (f : Strand → Strand) (h : j ≠ i) :
    (x.modStrand i f).strands[j.val] = x.strands[j.val] := by
  have : i.val ≠ j.val := fun e => h (Fin.ext e.symm)
  simp [Ctx.modStrand, this]
/-- A strand's update is its context's. -/
theorem modSt_eq (s : State) (f : Strand → Strand) : s.modSt f = s.modCx fun x => x.modStrand (strandIx s.focus) f := rfl
theorem st_eq (s : State) : s.st = s.cx.strands[(strandIx s.focus).val] := rfl
@[simp] theorem st_modSt (s : State) (f : Strand → Strand) : (s.modSt f).st = f s.st := by
  rw [modSt_eq, st_eq, st_eq]; simp
@[simp] theorem cx_modSt (s : State) (f : Strand → Strand) : (s.modSt f).cx = s.cx.modStrand (strandIx s.focus) f := by
  rw [modSt_eq]; simp
@[simp] theorem modSt_modSt (s : State) (f g : Strand → Strand) : (s.modSt f).modSt g = s.modSt fun t => g (f t) := by
  simp [modSt_eq, Ctx.modStrand]
/-- Only the strand's new contents matter. -/
theorem modSt_const (s : State) (f : Strand → Strand) : (s.modSt fun _ => f s.st) = s.modSt f := rfl
@[simp] theorem modSt_st (s : State) (f : Strand → Strand) : (s.modSt fun _ => (s.modSt f).st) = s.modSt f := by
  rw [st_modSt, modSt_const]
@[simp] theorem rawByte_modSt (s : State) (f : Strand → Strand) (k : Nat) : (s.modSt f).rawByte k = s.rawByte k := rfl
@[simp] theorem rawByte_modCx (s : State) (f : Ctx → Ctx) (k : Nat) : (s.modCx f).rawByte k = s.rawByte k := rfl
@[simp] theorem rawByte_modCore (s : State) (c : Nat) (f : Core → Core) (k : Nat) : (s.modCore c f).rawByte k = s.rawByte k := rfl
@[simp] theorem rawByte_modDie (s : State) (o : Nat) (f : Die → Die) (k : Nat) : (s.modDie o f).rawByte k = s.rawByte k := rfl

/-! ## Registers -/

@[simp] theorem getS_zero (t : Strand) : t.getS 0 = 0 := by simp [Strand.getS]
theorem getS_setS (t : Strand) (d r : SReg) (v : Word) : (t.setS d v).getS r = if r = d then (if d = 0 then 0 else v) else t.getS r := by
  unfold Strand.getS Strand.setS
  by_cases hd : d = 0
  · subst hd; by_cases hr : r = 0 <;> simp [hr]
  · by_cases hr : r = d
    · subst hr; simp [hd]
    · have : d.val ≠ r.val := fun e => hr (Fin.ext e.symm)
      simp [hd, hr, this]
theorem getA_setA (t : Strand) (d r : AReg) (v : Word) : (t.setA d v).getA r = if r = d then v else t.getA r := by
  unfold Strand.getA Strand.setA
  by_cases hr : r = d
  · subst hr; simp
  · have : d.val ≠ r.val := fun e => hr (Fin.ext e.symm)
    simp [hr, this]
theorem getL_setL (t : Strand) (d r : LReg) (v : BitVec 32) : (t.setL d v).getL r = if r = d then v else t.getL r := by
  unfold Strand.getL Strand.setL
  by_cases hr : r = d
  · subst hr; simp
  · have : d.val ≠ r.val := fun e => hr (Fin.ext e.symm)
    simp [hr, this]
@[simp] theorem getP_seven (t : Strand) : t.getP 7 = true := by simp [Strand.getP]
theorem getV_setV (x : Ctx) (d r : Nat) (v : VecWord) : (x.setV d v).getV r = if r = d then v else x.getV r := by
  unfold Ctx.getV Ctx.setV
  by_cases h : r = d
  · simp [h]
  · simp [h, SMap.get_put_other]
theorem getM_setM (x : Ctx) (d r : Nat) (v : MaskWord) : (x.setM d v).getM r = if r = d then v else x.getM r := by
  unfold Ctx.getM Ctx.setM
  by_cases h : r = d
  · simp [h]
  · simp [h, SMap.get_put_other]
theorem getSem_setSem (x : Ctx) (d r : Nat) (v : BitVec 32) : (x.setSem d v).getSem r = if r = d then v else x.getSem r := by
  unfold Ctx.getSem Ctx.setSem
  by_cases h : r = d
  · simp [h]
  · simp [h, SMap.get_put_other]

/-! ## The repeat rule reads and writes the loop registers only (R61) -/

/-- The scan changes loop counters only. -/
theorem loopScan_lc (t : Strand) (pc : Word) (n : Nat) (next : Word) (l : List (Fin 4)) :
    (loopScan t pc n next l).1 = { t with lc := (loopScan t pc n next l).1.lc } := by
  induction l generalizing t with
  | nil => rfl
  | cons j l ih =>
    simp only [loopScan]
    split
    · split
      · rfl
      · rw [ih]
    · exact ih t

/-- The scan depends on the loop registers only. -/
theorem loopScan_congr (t u : Strand) (pc : Word) (n : Nat) (next : Word) (l : List (Fin 4)) (h1 : u.lc = t.lc) (h2 : u.loopEnd = t.loopEnd)
    (h3 : u.loopStart = t.loopStart) :
    (loopScan u pc n next l).1.lc = (loopScan t pc n next l).1.lc ∧ (loopScan u pc n next l).2 = (loopScan t pc n next l).2 := by
  induction l generalizing t u with
  | nil => exact ⟨h1, rfl⟩
  | cons j l ih =>
    simp only [loopScan, h1, h2]
    split
    · split
      · simp [h3]
      · exact ih _ _ rfl rfl h3
    · exact ih t u h1 h2 h3

/-- What retirement writes: the counters and the pc of the repeat rule, and a forced guard is used up. -/
theorem retire_eq (t : Strand) (n : Nat) : t.retire n = { t with lc := (t.retire n).lc, pc := (t.retire n).pc, forced := none } := by
  simp only [Strand.retire]
  conv_lhs => rw [loopScan_lc]

/-- Two strands with the same pc and loop registers retire alike. -/
theorem retire_congr (t u : Strand) (n : Nat) (h0 : u.pc = t.pc) (h1 : u.lc = t.lc) (h2 : u.loopEnd = t.loopEnd)
    (h3 : u.loopStart = t.loopStart) (h4 : u.loopAge = t.loopAge) :
    (u.retire n).lc = (t.retire n).lc ∧ (u.retire n).pc = (t.retire n).pc := by
  have ho : loopOrder u = loopOrder t := by simp only [loopOrder, h4]
  simp only [Strand.retire, h0, ho]
  exact loopScan_congr t u _ _ _ _ h1 h2 h3

end Sys2Proof.Machine
end

