-- ==== Sys2Proof/Laws/Encode.lean ====
section
/-! SUPPORT. The layout of a word gives back what was laid: fields, scheduling field, and the words of a sequence. -/

namespace Sys2Proof

theorem extract_append_low {m n : Nat} (x : BitVec m) (y : BitVec n) (k w : Nat) (h : k + w ≤ n) :
    (x ++ y).extractLsb' k w = y.extractLsb' k w := by
  ext i hi
  simp only [BitVec.getElem_extractLsb', BitVec.getLsbD_append]
  have : k + i < n := by omega
  simp [this]
theorem extract_append_high {m n : Nat} (x : BitVec m) (y : BitVec n) (k w : Nat) (h : n ≤ k) :
    (x ++ y).extractLsb' k w = x.extractLsb' (k - n) w := by
  ext i hi
  simp only [BitVec.getElem_extractLsb', BitVec.getLsbD_append]
  have h1 : ¬ k + i < n := by omega
  have h2 : k + i - n = k - n + i := by omega
  simp [h1, h2]
theorem bit_append_low {m n : Nat} (x : BitVec m) (y : BitVec n) (k : Nat) (h : k < n) :
    (x ++ y).getLsbD k = y.getLsbD k := by
  simp [BitVec.getLsbD_append, h]
theorem bit_append_high {m n : Nat} (x : BitVec m) (y : BitVec n) (k : Nat) (h : n ≤ k) :
    (x ++ y).getLsbD k = x.getLsbD (k - n) := by
  simp [BitVec.getLsbD_append, show ¬ k < n by omega]
theorem extract_all {n : Nat} (x : BitVec n) : x.extractLsb' 0 n = x := by
  ext i hi; simp

/-- The scheduling field reads back as laid (R13). -/
theorem Sched.unpack_pack (s : Sched) : Sched.unpack s.pack = s := by
  obtain ⟨a, b, c, d, e, f, g, h, i, j⟩ := s
  simp only [Sched.unpack, Sched.pack]
  congr 1 <;> simp (disch := omega) only [extract_append_low, extract_append_high, bit_append_low, bit_append_high,
    Nat.sub_self, Nat.reduceSub, extract_all] <;> simp [bf4, bf3]

/-- The operation field reads back as laid (R18-R20). -/
theorem OpFields.unpack_pack (f : OpFields) : OpFields.unpack f.pack = f := by
  cases f with
  | ctl c =>
    obtain ⟨l, op, d, a, b, f, imm⟩ := c
    simp only [OpFields.unpack, OpFields.pack]
    simp (disch := omega) only [extract_append_low, extract_append_high, bit_append_low, bit_append_high,
      Nat.sub_self, Nat.reduceSub, extract_all]
    simp
  | eng c =>
    obtain ⟨l, cls, op, d, a, b, c, t, x, oc, msel, men, spec⟩ := c
    simp only [OpFields.unpack, OpFields.pack]
    simp (disch := omega) only [extract_append_low, extract_append_high, bit_append_low, bit_append_high,
      Nat.sub_self, Nat.reduceSub, extract_all]
    simp

/-- The literal flag of a field record (R17). -/
def OpFields.hasLit : OpFields → Bool
  | .ctl c => c.lit
  | .eng u => u.lit

theorem schedOf_lay (sc : Sched) (f : OpFields) : schedOf (sc.pack ++ f.pack) = sc := by
  rw [schedOf, extract_append_high _ _ _ _ (by omega), Nat.sub_self, extract_all, Sched.unpack_pack]
theorem opFieldsOf_lay (sc : Sched) (f : OpFields) : opFieldsOf (sc.pack ++ f.pack) = f := by
  rw [opFieldsOf, extract_append_low _ _ _ _ (by omega), extract_all, OpFields.unpack_pack]
theorem bit96_lay (sc : Sched) (f : OpFields) : (sc.pack ++ f.pack).getLsbD 96 = false := by
  rw [bit_append_high _ _ _ (by omega)]
  simp only [Sched.pack]
  rw [bit_append_low _ _ _ (by omega)]
  rfl
theorem hasLiteral_lay (sc : Sched) (f : OpFields) : hasLiteral (sc.pack ++ f.pack) = f.hasLit := by
  rw [hasLiteral, bit_append_low _ _ _ (by omega)]
  cases f with
  | ctl c =>
    simp only [OpFields.pack, OpFields.hasLit]
    simp (disch := omega) only [bit_append_high]
    simp
  | eng c =>
    simp only [OpFields.pack, OpFields.hasLit]
    simp (disch := omega) only [bit_append_high]
    simp

/-- The slots of laid words: each record with its literal, the first under its scheduling field. -/
def layoutSlots (sc : Sched) : List (OpFields × Option Word128) → List Slot
  | [] => []
  | (f, l) :: rest => { word := sc.pack ++ f.pack, lit := l } :: layoutSlots Sched.plain rest

/-- Laid words group back into their records, where each literal flag says whether a literal follows. -/
theorem slotsOf_layWords (sc : Sched) (fs : List (OpFields × Option Word128)) (h : ∀ e ∈ fs, e.1.hasLit = e.2.isSome) :
    slotsOf (layWords sc fs) = layoutSlots sc fs := by
  induction fs generalizing sc with
  | nil => rfl
  | cons e r ih =>
    obtain ⟨f, l⟩ := e
    have hf : f.hasLit = l.isSome := h (f, l) (by simp)
    have hr := ih Sched.plain fun x hx => h x (by simp [hx])
    have hl := hasLiteral_lay sc f
    cases l with
    | none =>
      rw [hf] at hl
      simp only [layWords, layoutSlots, Option.toList_none, List.nil_append]
      rw [slotsOf.eq_def]
      simp only [hl]
      simp [hr]
    | some l =>
      rw [hf] at hl
      simp only [layWords, layoutSlots, Option.toList_some, List.singleton_append]
      rw [slotsOf.eq_def]
      simp only [hl]
      simp [hr]

end Sys2Proof
end

