-- ==== Sys2Proof/Laws/Memory.lean ====
section
/-! SUPPORT. Memory: reading back what was written, and that every operation over memory keeps its canonical form. -/

namespace Sys2Proof.Machine

/-! ## Read after write -/

theorem rawByte_setRaw (s : State) (k j : Nat) (b : Byte) : (s.setRaw k b).rawByte j = if j = k then b else s.rawByte j := by
  unfold State.rawByte State.setRaw
  by_cases h : j = k
  · subst h; simp
  · simp [h, SMap.get_put_other]

/-- The bytes of a run are read back, and no other byte changes. -/
theorem rawByte_setRaws (s : State) (k j : Nat) (bs : List Byte) :
    (s.setRaws k bs).rawByte j = if k ≤ j ∧ j < k + bs.length then bs.getD (j - k) 0 else s.rawByte j := by
  induction bs generalizing s k with
  | nil =>
    have : ¬ (k ≤ j ∧ j < k) := by omega
    simp [State.setRaws, this]
  | cons b bs ih =>
    rw [State.setRaws, ih, rawByte_setRaw]
    by_cases h0 : j = k
    · subst h0
      have h1 : ¬ (j + 1 ≤ j ∧ j < j + 1 + bs.length) := by omega
      simp
    · by_cases h1 : k + 1 ≤ j ∧ j < k + 1 + bs.length
      · have h2 : k ≤ j ∧ j < k + (b :: bs).length := by simp only [List.length_cons]; omega
        have h3 : j - k = (j - (k + 1)) + 1 := by omega
        simp only [h1, h2, h3, List.getD_cons_succ, if_true, and_self]
      · have h2 : ¬ (k ≤ j ∧ j < k + (b :: bs).length) := by simp only [List.length_cons]; omega
        simp only [h1, h2, h0, if_false]

/-! ## What leaves memory alone -/

@[simp] theorem mem_modStrandAt (s : State) (r : StrandRef) (f : Strand → Strand) : (s.modStrandAt r f).mem = s.mem := rfl
@[simp] theorem mem_modDie (s : State) (o : Nat) (f : Die → Die) : (s.modDie o f).mem = s.mem := rfl
@[simp] theorem mem_modCore (s : State) (c : Nat) (f : Core → Core) : (s.modCore c f).mem = s.mem := rfl

/-- A fold of operations that leave memory alone leaves it alone. -/
theorem mem_foldl {α : Type} (f : State → α → State) (h : ∀ s x, (f s x).mem = s.mem) (l : List α) (s : State) :
    (l.foldl f s).mem = s.mem := by
  induction l generalizing s with
  | nil => rfl
  | cons x l ih => rw [List.foldl_cons, ih, h]

theorem mem_serveAddr (s : State) (o : Nat) (asid : Option (BitVec 12)) (k n : Nat) : (serveAddr s o asid k n).mem = s.mem := by
  unfold serveAddr
  exact (mem_foldl _ (fun _ _ => by rfl) _ _).trans rfl
theorem mem_clearPoison (s : State) (k n : Nat) : (clearPoison s k n).mem = s.mem := by
  unfold clearPoison; dsimp only; split <;> rfl
/-- Every owner's waiters on the written bytes may be released; no byte changes by it. -/
theorem mem_serveEvery (s : State) (k n : Nat) : (serveEvery s k n).mem = s.mem := mem_foldl _ (fun s _ => mem_serveAddr s _ _ _ _) _ _
theorem mem_dropCopies (s : State) (d line : Nat) : (s.dropCopies d line).mem = s.mem := by unfold State.dropCopies; split <;> rfl
theorem mem_useLine (s : State) (x : Xl) (wrote : Bool) : (s.useLine x wrote).mem = s.mem := by
  unfold State.useLine
  split
  · rfl
  · dsimp only; split <;> rfl
theorem mem_dropLine (s : State) (k : Nat) : (s.dropLine k).mem = s.mem := mem_modDie _ _ _
theorem mem_noteError (s : State) (o : Nat) (e : MemErr) (key : Nat) : (noteError s o e key).mem = s.mem := by
  unfold noteError
  cases e with
  | memUe =>
    dsimp only
    generalize hu : (s.modDie o fun d => { d with ueUe := satInc d.ueUe }) = u
    have h : u.mem = s.mem := hu ▸ mem_modDie s o _
    split
    · rw [mem_modDie, mem_dropLine, h]
    · exact h
  | _ => rfl
/-- An error that moves with a copied sector is told beside memory. -/
theorem mem_copyError (s : State) (o src dst : Nat) (e : MemErr) : (copyError s o src dst e).mem = s.mem := by
  refine Eq.trans ?_ (mem_noteError s o e (maKey o src))
  cases e with
  | memUe =>
    simp only [copyError]
    generalize noteError s o .memUe (maKey o src) = t
    generalize maKey o dst = k
    split
    · exact mem_modDie _ _ _
    · rfl
  | _ => rfl
theorem mem_dropReplicas (s : State) (o key size : Nat) : (dropReplicas s o key size).mem = s.mem := by
  unfold dropReplicas
  dsimp only
  split
  · rfl
  · exact (mem_foldl _ (fun _ _ => by rfl) _ _).trans rfl

/-! ## The canonical form is kept (log 1) -/

/-- A fold of operations that keep the form keeps it. -/
theorem memOk_foldl {α : Type} (f : State → α → State) (h : ∀ s x, s.memOk → (f s x).memOk) (l : List α) (s : State) (hs : s.memOk) :
    (l.foldl f s).memOk := by
  induction l generalizing s with
  | nil => exact hs
  | cons x l ih => exact ih _ (h _ _ hs)

/-- Equal memories are alike canonical. -/
theorem memOk_of_mem {s t : State} (h : t.mem = s.mem) (hs : s.memOk) : t.memOk := by
  unfold State.memOk at *; rwa [h]

theorem memOk_reset : State.reset.memOk := rfl
theorem memOk_setRaw (s : State) (k : Nat) (b : Byte) (h : s.memOk) : (s.setRaw k b).memOk := SMap.wf_put _ _ _ _ h
theorem memOk_setRaws (s : State) (k : Nat) (bs : List Byte) (h : s.memOk) : (s.setRaws k bs).memOk := by
  induction bs generalizing s k with
  | nil => exact h
  | cons b bs ih => exact ih _ _ (memOk_setRaw s k b h)
theorem memOk_setEntry (s : State) (k : Nat) (e : Word) (h : s.memOk) : (setEntry s k e).memOk := memOk_setRaws s k _ h
theorem memOk_prepSector (s : State) (k : Nat) (keys : Option (BitVec 768)) (h : s.memOk) : (s.prepSector k keys).memOk := by
  unfold State.prepSector
  dsimp only
  split
  · exact h
  · exact memOk_of_mem (s := s.setRaws _ _) rfl (memOk_setRaws s _ _ h)
theorem memOk_writeByte (s : State) (k : Nat) (keys : Option (BitVec 768)) (b : Byte) (h : s.memOk) : (s.writeByte k keys b).memOk :=
  memOk_setRaw _ k b (memOk_prepSector s k keys h)
/-- A write to a page sets D in its group; what else it changes is no memory. -/
theorem memOk_touchIa (s : State) (o : Nat) (asid : BitVec 12) (ia : Nat) (hent : Word) (key : Nat) (dirty : Bool) (h : s.memOk) :
    (touchIa s o asid ia hent key dirty).memOk := by
  have h1 : (if dirty then s else (groupKeys s o asid ia (leafSize hent)).foldl (fun s k => s.setRaw (k + 7) (s.rawByte (k + 7) ||| 4)) s).memOk := by
    split
    · exact h
    · exact memOk_foldl _ (fun s k hs => memOk_setRaw s _ _ hs) _ _ h
  unfold touchIa
  dsimp only
  generalize (if dirty then s else (groupKeys s o asid ia (leafSize hent)).foldl (fun s k => s.setRaw (k + 7) (s.rawByte (k + 7) ||| 4)) s) = u at h1 ⊢
  refine memOk_of_mem (mem_dropReplicas _ _ _ _) ?_
  split
  · exact memOk_of_mem (mem_modDie _ _ _) h1
  · exact h1
theorem memOk_touchPage (s : State) (x : Xl) (h : s.memOk) : (touchPage s x).memOk := by
  unfold touchPage
  refine memOk_touchIa _ _ _ _ _ _ _ (memOk_of_mem (mem_useLine _ _ _) ?_)
  split
  · exact memOk_of_mem (mem_dropCopies _ _ _) h
  · exact h
theorem memOk_pokeXl (s : State) (bs : List (Xl × Byte)) (h : s.memOk) : (s.pokeXl bs).memOk := by
  induction bs generalizing s with
  | nil => exact h
  | cons e bs ih => exact ih _ (memOk_writeByte _ _ _ _ (memOk_touchPage s e.1 h))
/-- A write of translated bytes. -/
theorem memOk_perform (s : State) (bs : List (Xl × Byte)) (h : s.memOk) : (s.perform bs).memOk := by
  unfold State.perform
  refine memOk_of_mem (mem_foldl _ (fun s r => ?_) _ _) (memOk_pokeXl s bs h)
  rw [mem_serveAddr, mem_clearPoison]
/-- A write of machine bytes. -/
theorem memOk_writeMa (s : State) (o ma : Nat) (bs : List Byte) (h : s.memOk) : (s.writeMa o ma bs).memOk := by
  unfold State.writeMa
  refine memOk_of_mem ((mem_serveEvery _ _ _).trans (mem_clearPoison _ _ _)) (memOk_setRaws _ _ _ ?_)
  exact memOk_foldl _ (fun s i hs => memOk_prepSector s _ _ hs) _ _ h
theorem memOk_copyFrame (s : State) (o : Nat) (enc : Option Nat) (src dst size : Nat) (h : s.memOk) : (copyFrame s o enc src dst size).memOk :=
  memOk_of_mem ((mem_foldl _ (fun s _ => mem_copyError s _ _ _ _) _ _).trans (mem_clearPoison _ _ _))
    (memOk_foldl _ (fun s _ hs => memOk_writeByte s _ _ _ hs) _ _ h)
theorem memOk_zeroFrame (s : State) (o ma size : Nat) (h : s.memOk) : (zeroFrame s o ma size).memOk :=
  memOk_of_mem (mem_clearPoison _ _ _) (memOk_foldl _ (fun s _ hs => memOk_writeByte s _ _ _ hs) _ _ h)
theorem memOk_remapFrame (s : State) (o base ma : Nat) (h : s.memOk) : (remapFrame s o base ma).memOk :=
  memOk_foldl _ (fun s _ hs => memOk_foldl _ (fun s _ hs => memOk_setEntry s _ _ hs) _ s hs) _ _ h
/-- A tenant-stage entry written for a page that is allocated (R143). -/
theorem memOk_writeTenant (s : State) (o : Nat) (asid : BitVec 12) (ia : Nat) (entry : Word) (h : s.memOk) : (writeTenant s o asid ia entry).memOk := by
  unfold writeTenant
  split
  · exact memOk_of_mem (mem_serveEvery _ _ _) (memOk_foldl _ (fun s _ hs => memOk_writeByte s _ _ _ hs) _ _ (memOk_touchIa _ _ _ _ _ _ _ h))
  · exact h
/-- A leaf that is brought back changes no byte of memory; one that is written out keeps the form (R357). -/
theorem mem_loadLeaf (s : State) (core phys ma : Nat) : (loadLeaf s core phys ma).mem = s.mem := mem_modCore _ _ _
theorem mem_noteLeaf (s : State) (core phys : Nat) : (noteLeaf s core phys).mem = s.mem := by
  unfold noteLeaf; split <;> rfl
theorem memOk_finishSpill (s : State) (core : Nat) (p : Spill) (h : s.memOk) : (finishSpill s core p).memOk := by
  have h1 := memOk_writeMa (noteLeaf s core p.phys) s.pkgOwner (p.block.toNat + 16384 * p.leaf) ((s.core core).leafBytes p.phys)
    (memOk_of_mem (mem_noteLeaf _ _ _) h)
  unfold finishSpill
  refine memOk_of_mem (mem_modCore _ _ _) ?_
  split
  · exact h1
  · exact memOk_of_mem (mem_modDie _ _ _) h1
/-- A scrub of the blotter. -/
theorem memOk_scrubUnit (s : State) (o ma : Nat) (h : s.memOk) : (scrubUnit s o ma).memOk := by
  unfold scrubUnit
  refine memOk_of_mem (mem_serveAddr _ _ _ _ _) ?_
  exact SMap.wf_filter _ _ _ h
/-- A package or power-on reset. -/
theorem memOk_packageReset (s : State) (power : Bool) (h : s.memOk) : (packageReset s power).memOk := by
  cases power
  · exact h
  · exact SMap.wf_filter _ _ _ h

/-! ## Ranges that translate -/

/-- Translating a range succeeds, with no byte of an encrypted page, when the first byte and every byte that begins 4 KiB translate so. -/
theorem xlateRange_ok (s : State) (ag : Agent) (k : Kind) : ∀ (n : Nat) (va : Word) (prev : Option Xl), (∀ p ∈ prev, p.enc = none) →
    (∀ i < n, (i = 0 ∧ prev = none) ∨ fld (va + BitVec.ofNat 64 i) 11 0 = 0 → ∃ x, s.xlate ag k (va + BitVec.ofNat 64 i) = .ok x ∧ x.enc = none) →
    ∃ xs, s.xlateRange ag k va n prev = .ok xs ∧ ∀ x ∈ xs, x.enc = none := by
  intro n
  induction n with
  | zero => intro va prev _ _; exact ⟨[], rfl, by simp⟩
  | succ n ih =>
    intro va prev hp h
    have next : ∀ x : Xl, x.enc = none → ∃ xs, s.xlateRange ag k (va + 1#64) n (some x) = .ok xs ∧ ∀ x ∈ xs, x.enc = none := by
      intro x hx
      refine ih (va + 1#64) (some x) (by simpa using hx) fun i hi hc => ?_
      have e : va + 1#64 + BitVec.ofNat 64 i = va + BitVec.ofNat 64 (i + 1) := by
        rw [BitVec.add_assoc]; congr 1; simp [BitVec.ofNat_add, BitVec.add_comm]
      rw [e] at hc ⊢
      exact h (i + 1) (by omega) (.inr (by simpa using hc))
    have first := h 0 (by omega)
    simp only [BitVec.add_zero] at first
    have put : ∀ x : Xl, x.enc = none → (∀ xs, s.xlateRange ag k (va + 1#64) n (some x) = .ok xs → s.xlateRange ag k va (n + 1) prev = .ok (x :: xs)) →
        ∃ xs, s.xlateRange ag k va (n + 1) prev = .ok xs ∧ ∀ x ∈ xs, x.enc = none := by
      intro x hx hput
      obtain ⟨xs, he, hxs⟩ := next x hx
      exact ⟨x :: xs, hput xs he, by simpa [hx] using hxs⟩
    cases prev with
    | none =>
      obtain ⟨x, he, hx⟩ := first (.inl ⟨trivial, rfl⟩)
      exact put x hx fun xs hxs => by simp [State.xlateRange, he, hxs]
    | some p =>
      by_cases h0 : fld va 11 0 = 0
      · obtain ⟨x, he, hx⟩ := first (.inr h0)
        exact put x hx fun xs hxs => by simp [State.xlateRange, h0, he, hxs]
      · exact put { p with key := p.key + 1, off := p.off + 1 } (hp p rfl) fun xs hxs => by simp [State.xlateRange, h0, hxs]
/-- A range of pages that are not encrypted, each translated for a write, can be written. -/
theorem writeVa_ok (s : State) (ag : Agent) (n : Nat) (va : Word)
    (h : ∀ i < n, i = 0 ∨ fld (va + BitVec.ofNat 64 i) 11 0 = 0 → ∃ x, s.xlate ag .wr (va + BitVec.ofNat 64 i) = .ok x ∧ x.enc = none) :
    ∃ xs, s.writeVa ag va n = .ok xs := by
  obtain ⟨xs, he, hx⟩ := xlateRange_ok s ag .wr n va none (by simp) fun i hi hc => h i hi (hc.imp_left (·.1))
  refine ⟨xs, ?_⟩
  simp only [State.writeVa, he]
  split
  · rename_i x hm
    have hx' := hx x.1 (by have := List.mem_of_find?_eq_some hm; exact List.fst_mem_of_mem_zipIdx this)
    have := List.find?_some hm
    revert this
    simp [State.writeKeys, hx']
  · rfl
end Sys2Proof.Machine
end

