-- ==== Sys2Proof/Laws/Results.lean ====
section
/-! SUPPORT. What the shared ways of completing an instruction do: one lemma for each. -/

namespace Sys2Proof.Machine

theorem onlyStrand_modSt (s : State) (f : Strand → Strand) : OnlyStrand s (s.modSt f) := ⟨by rw [modSt_st], fun _ => rfl⟩

/-- An update of the strand that leaves the loop registers alone, then retirement, is the retired strand with that update. -/
theorem retire_of (t u : Strand) (n : Nat) (h : u.pc = t.pc ∧ u.lc = t.lc ∧ u.loopEnd = t.loopEnd ∧ u.loopStart = t.loopStart ∧ u.loopAge = t.loopAge) :
    u.retire n = { u with lc := (t.retire n).lc, pc := (t.retire n).pc, forced := none } := by
  obtain ⟨a, b⟩ := retire_congr t u n h.1 h.2.1 h.2.2.1 h.2.2.2.1 h.2.2.2.2
  rw [retire_eq u n, a, b]

theorem retire_setS (t : Strand) (d : SReg) (v : Word) (n : Nat) : (t.setS d v).retire n = { t.retire n with s := (t.setS d v).s } := by
  rw [retire_of t (t.setS d v) n (by unfold Strand.setS; split <;> simp), retire_eq t n]
  unfold Strand.setS; split <;> rfl
theorem retire_setA (t : Strand) (d : AReg) (v : Word) (n : Nat) : (t.setA d v).retire n = { t.retire n with a := (t.setA d v).a } := by
  rw [retire_of t (t.setA d v) n (by simp [Strand.setA]), retire_eq t n]
  rfl
theorem retire_setP (t : Strand) (d : PReg) (v : Bool) (n : Nat) : (t.setP d v).retire n = { t.retire n with p := (t.setP d v).p } := by
  rw [retire_of t (t.setP d v) n (by unfold Strand.setP; split <;> simp), retire_eq t n]
  unfold Strand.setP; split <;> rfl

theorem writesS_set (t u : Strand) (d : SReg) (v : Word) (h : u.s = (t.setS d v).s) : WritesS t u d v := by
  have g : ∀ r, u.getS r = (t.setS d v).getS r := fun r => by simp only [Strand.getS, h]
  exact ⟨by rw [g, getS_setS]; simp, fun r hr => by rw [g, getS_setS]; simp [hr]⟩
theorem writesA_set (t u : Strand) (d : AReg) (v : Word) (h : u.a = (t.setA d v).a) : WritesA t u d v := by
  have g : ∀ r, u.getA r = (t.setA d v).getA r := fun r => by simp only [Strand.getA, h]
  exact ⟨by rw [g, getA_setA]; simp, fun r hr => by rw [g, getA_setA]; simp [hr]⟩
theorem getP_setP (t : Strand) (d r : PReg) (v : Bool) :
    (t.setP d v).getP r = if r = 7 then true else if r = d then v else t.getP r := by
  unfold Strand.getP Strand.setP
  by_cases hr : r = 7
  · simp [hr]
  · by_cases hd : d = 7
    · subst hd; simp [hr]
    · have h1 : r.val < 7 := by have := r.isLt; have : r.val ≠ 7 := fun e => hr (Fin.ext e); omega
      have h2 : d.val < 7 := by have := d.isLt; have : d.val ≠ 7 := fun e => hd (Fin.ext e); omega
      simp only [hr, hd, if_false]
      by_cases he : r = d
      · subst he; simp [h1]
      · have hne : r.val ≠ d.val := fun e => he (Fin.ext e)
        simp only [he, if_false]
        rcases Nat.lt_or_gt_of_ne hne with hl | hg
        · simp [h1, hl]
        · have : ¬ (r.val < d.val) := by omega
          have h3 : r.val - d.val ≠ 0 := by omega
          cases v <;> simp [h1, this, h3]
theorem writesP_set (t u : Strand) (d : PReg) (v : Bool) (h : u.p = (t.setP d v).p) : WritesP t u d v := by
  have g : ∀ r, u.getP r = (t.setP d v).getP r := fun r => by simp only [Strand.getP, h]
  refine ⟨by rw [g, getP_setP]; by_cases hd : d = 7 <;> simp [hd], fun r hr => ?_⟩
  rw [g, getP_setP]
  by_cases h7 : r = 7
  · simp [h7]
  · simp [h7, hr]

theorem scalarResult_writes (s : State) (d : SReg) (v : Word) : ScalarWrite s (scalarResult s d v) d v := by
  refine ⟨_, rfl, onlyStrand_modSt _ _, ?_, ?_⟩
  · rw [st_modSt, retire_setS]
  · exact writesS_set _ _ _ _ (by rw [st_modSt, retire_setS])
theorem addrResult_writes (s : State) (d : AReg) (v : Word) : AddrWrite s (addrResult s d v) d v := by
  refine ⟨_, rfl, onlyStrand_modSt _ _, ?_, ?_⟩
  · rw [st_modSt, retire_setA]
  · exact writesA_set _ _ _ _ (by rw [st_modSt, retire_setA])
theorem predResult_writes (s : State) (d : PReg) (v : Bool) : PredWrite s (predResult s d v) d v := by
  refine ⟨_, rfl, onlyStrand_modSt _ _, ?_, ?_⟩
  · rw [st_modSt, retire_setP]
  · exact writesP_set _ _ _ _ (by rw [st_modSt, retire_setP])
theorem jump_jumps (s : State) (a : Word) : JumpsTo s (.next (s.jump a)) a :=
  ⟨_, rfl, onlyStrand_modSt _ _, by rw [State.jump, st_modSt]; rfl⟩
/-- Cancelling what was issued ahead changes two token counters and the results in flight. -/
theorem cancelAhead_eq (t : Strand) :
    t.cancelAhead = { t with ac := t.cancelAhead.ac, ca := t.cancelAhead.ca, flight := t.cancelAhead.flight, ahead := [] } := by
  have fold : ∀ (l : List Ahead) (t : Strand) (f : Strand → Ahead → Strand),
      (∀ t e, f t e = { t with ac := (f t e).ac, ca := (f t e).ca }) → l.foldl f t = { t with ac := (l.foldl f t).ac, ca := (l.foldl f t).ca } := by
    intro l t f hf
    induction l generalizing t with
    | nil => rfl
    | cons e l ih => simp only [List.foldl_cons]; rw [ih, hf]
  simp only [Strand.cancelAhead]
  rw [fold _ _ _ fun _ _ => rfl]
/-- Taking back a wait's tokens changes token counters. -/
theorem unwind_eq (t : Strand) : t.unwind = { t with ac := t.unwind.ac, ca := t.unwind.ca, cs := t.unwind.cs, sc := t.unwind.sc, owed := t.unwind.owed, domAcquire := t.unwind.domAcquire } := by
  simp only [Strand.unwind]
  split
  · rename_i q tok _; cases q <;> rfl
  · rfl
@[simp] theorem cancelAhead_unwind_entry (t : Strand) : t.cancelAhead.unwind.entry = t.entry := by rw [unwind_eq, cancelAhead_eq]
@[simp] theorem cancelAhead_unwind_bank1 (t : Strand) : t.cancelAhead.unwind.bank1 = t.bank1 := by rw [unwind_eq, cancelAhead_eq]
@[simp] theorem cancelAhead_unwind_bank2 (t : Strand) : t.cancelAhead.unwind.bank2 = t.bank2 := by rw [unwind_eq, cancelAhead_eq]
theorem trap_takes (s : State) (code info : Nat) (addr : Word) : TakesTrap s (.next (s.trap code info addr)) code info addr := by
  intro h
  have e : s.trap code info addr =
      s.modSt (·.enter { cause := causeWord 0 info code, ret := s.st.pc, addr := addr, force := true, out := true }) := by
    have h' : (s.strandAt s.focus).level ≠ 2 := h
    simp only [State.trap, State.trapAt, h', if_false]; rfl
  refine ⟨_, rfl, ?_, ?_⟩
  · rw [e]; exact onlyStrand_modSt _ _
  · rw [e, st_modSt]
    unfold Strand.enter
    by_cases h0 : s.st.level = 0
    · simp [h0]
    · have h1 : s.st.level = 1 := by omega
      simp [h1]

end Sys2Proof.Machine
end

