-- ==== Sys2Proof/Tests/Slice0.lean ====
section
/-! SUPPORT. Tests: the checks refuse, single steps give what the spec states, and each statement's hypotheses are met. -/

namespace Sys2Proof.Tests
open Sys2Proof.Machine
set_option Elab.async false

/-! ## Well-formedness: an ill-formed term for each check, which the check refuses (R28 step 3) -/

/-- An address operand with the given ordering field and scope. -/
def memOp (fl : Flavour) (sc : Scope) : MemOp := { base := 1, disp := 0, oc := 0, fl := fl, scope := sc }
def plainOp : MemOp := memOp .none .strand
def vecOp (m : MemOp) : VMemOp := { mem := m, folio := false, mask := none }
def cpyBase (dir : CpyDir) (crc : Bool) : CpyCmd :=
  { a := 1, b := 2, c := 3, d := 4, dir := dir, ch := 0, oc := 0, bar := false, crc := crc,
    task := { budget := 0, tickets := 1, scount := 0, ssem := 0, wcount := 0, wsem := 0 }, fo := none }
def cvt : VcvtOp :=
  { d := 0, a := 1, scale := 0, td := .f32, ts := .f32, xd := false, xs := false, pol := .sat, sm := false, pn := 0, k := 0, mask := none }
def ligOp (count : BitVec 11) (sw : BitVec 7) : LigOp := { first := 0, stride := 1, count := count, sw := sw }

theorem test_wf_scalar :
    [Instr.addi 1 2 0x100000000 true false, .shli 1 2 32 true, .shri 1 2 32 true, .sari 1 2 63 true, .bext 1 2 0 0 false, .bext 1 2 63 2 false,
     .bins 1 2 0 0, .bins 1 2 33 32, .lit 3 0, .lita 5 0, .awrap 1 2 0 3, .awrap 1 2 0 49, .abnd 1 2 3 0 0, .loop 0 1 0, .loopi 0 0 4,
     .fld 1 2 0 0 3 true, .fldx 1 2 3 0 0 3 true, .crr 1 0xFFF].all (fun i => !i.wellFormed) = true := by decide +kernel

theorem test_wf_memory :
    [Instr.crw 1 0xFFF, .crs 1 2 0xFFF, .crc 1 2 0xFFF, .ld (.s 1) .i4 plainOp, .ld (.s 1) .i8 (memOp .rel .core), .ld (.s 1) .i8 (memOp .none .core),
     .st (.s 1) .i8 (memOp .acq .core), .st (.s 1) .i4 plainOp, .vld 1 .i8 1 (vecOp plainOp), .vld 0 .i8 0 (vecOp (memOp .rel .core)), .vst 2 .i8 2 (vecOp plainOp),
     .vst 0 .i8 0 (vecOp (memOp .acq .core)), .vlds 0 1 .i4 (vecOp plainOp), .vsts 1 0 .i4 (vecOp plainOp), .vgath 0 1 .i8 false (vecOp plainOp),
     .vgath 0 1 .i16 false (vecOp plainOp), .vscat 1 0 .i16 false (vecOp plainOp), .tldv 1 1 plainOp none, .tsta 1 1 plainOp none,
     .tldv 0 0 (memOp .full .core) none, .fence .core .none 1, .fence .core .acq 0].all (fun i => !i.wellFormed) = true := by decide +kernel

theorem test_wf_system :
    [Instr.atom .add 1 2 .i16 plainOp, .atom .fadd 1 2 .i32 plainOp, .atomn .swap 2 .f32 plainOp, .cas 1 2 3 .f32 plainOp, .cas 1 2 3 .i32 (memOp .none .die),
     .dcol (.s 3) 0, .bkw 1 .cause, .bkw 1 .addr, .bkw 1 .level, .hset 1 2 3 0 0, .bmembJoin 1 2 .strand, .bmembJoin 1 2 .ctx, .waddr .eq true 3 1 1 plainOp,
     .waddr .eq true 2 1 1 (memOp .rel .core), .wake true 1 2 (memOp .acq .core), .qbind 1 2 3 0 16, .tsem .le 1 0 false (cpyBase .m2f false).task,
     .cpy (cpyBase .m2f true), .cpy (cpyBase .f2f true)].all (fun i => !i.wellFormed) = true := by decide +kernel

theorem test_wf_vector :
    [Instr.vadd 0 1 2 .f32 true none, .vadd 0 1 2 .i4 false none, .vmul 0 1 2 .e4m3 none, .vmulh 0 1 2 .f32 none, .vdiv 0 1 2 .i32 none, .vabs 0 1 .f16 true none,
     .vfma .fma 0 1 2 3 .e2m1 none, .vaddw 1 2 3 .i8 none, .vaddw 0 2 3 .f32 none, .vand 0 1 2 .f32 none, .vshl 0 1 (.imm 8) .i8 none, .vbit .clz 0 1 .f32 none,
     .vcmp .ltu 0 1 2 .f32 none, .vsel 0 1 2 .e3m2 0, .vrsum 1 0 .e4m3 none, .vsf .rcp 0 1 .i32 none, .vperm 0 1 3 .i8 none, .vins 0 1 .i32 128, .vext 1 0 .i64 64,
     .vzip 1 2 3 .i8, .vunzip 0 1 .i8 false, .vmov 2 0 2, .vmov 0 1 1].all (fun i => !i.wellFormed) = true := by decide +kernel

theorem test_wf_convert :
    [Instr.vcvt { cvt with xd := true, xs := true, td := .e4m3, ts := .e4m3 }, .vcvt { cvt with xd := true }, .vcvt { cvt with xs := true },
     .vcvt { cvt with scale := 3 }, .vcvt { cvt with td := .e4m3, xd := true, mask := some 1 }, .vcvt { cvt with pn := 1 }, .vcvt { cvt with k := 1 },
     .vcvt { cvt with td := .f32, ts := .f16, d := 1 }, .lpack 0 1 .i64 false (ligOp 1 16), .lpack 0 1 .i8 false (ligOp 0 16), .lpack 0 1 .i32 false (ligOp 129 16),
     .lpack 0 1 .i8 false (ligOp 1 7), .lmul 1 2 3 false 16, .lmul 0 2 3 false 65, .lext 0 1 .i8 false true (ligOp 1 16), .lext 0 1 .i4 false false (ligOp 1 16),
     .lgw 7, .lgw 65].all (fun i => !i.wellFormed) = true := by decide +kernel

/-- R14, R15: a reuse bit for a slot the instruction lacks, and a token of a queue that does not take it, are refused. -/
theorem test_wf_sched :
    Instr.wellFormedWith (.abs 1 2 false false) { Sched.plain with reuse := 0b0100 } = false
    ∧ Instr.wellFormedWith (.abs 1 2 false false) { Sched.plain with reuse := 0b1000 } = true
    ∧ Instr.wellFormedWith (.ld (.s 1) .i8 plainOp) { Sched.plain with acc := true, tok := 0b0010 } = false
    ∧ Instr.wellFormedWith (.st (.s 1) .i8 plainOp) { Sched.plain with acc := true, tok := 0b0001 } = false := by decide +kernel

/-- The same terms with their operands put right are accepted. -/
theorem test_wf_accepts :
    [Instr.addi 1 2 0xFFFFFFFF true false, .shli 1 2 31 true, .bext 1 2 63 1 false, .bins 1 2 0 64, .lit 2 0, .awrap 1 2 0 4, .awrap 1 2 0 48, .abnd 1 2 3 0 1,
     .fld 1 2 0 0 3 false, .ld (.s 1) .i8 (memOp .acq .core), .st (.s 1) .n64 (memOp .rel .dom), .vld 4 .i8 2 (vecOp plainOp), .vgath 0 2 .i16 false (vecOp plainOp),
     .cas 1 2 3 .i32 (memOp .full .die), .bkw 1 .guard, .qbind 1 2 3 0 15, .cpy (cpyBase .m2m true), .vadd 0 1 2 .i8 true none, .vadd 0 1 2 .f32 false none,
     .vins 0 1 .i32 127, .vcvt cvt, .lgw 8, .lgw 64, .lext 0 2 .i8 false true (ligOp 512 16)].all Instr.wellFormed = true := by decide +kernel

/-! ## Small states -/

/-- One strand at firmware privilege on a booted part. Its address space on die 0 has a page of 4 KiB at offset 0x1000, readable and writable, its D bit
set: the tables are a descriptor at 0, a host root and leaf node, a tenant root and leaf node. -/
def page : State :=
  { State.reset.withFetchWord 128 0 with boot := 7, agenda := [], parts := [(0, { quads := 1 })], mem := [
    (0x2, 0x20), (0x7, 0x80), (0xA, 0x20), (0xF, 0x80), (0x200002, 0x40), (0x200007, 0x40), (0x400009, 0x20), (0x40000A, 0x60), (0x40000F, 0x5C),
    (0x401002, 0x60), (0x401007, 0x48), (0x402001, 0x10), (0x402002, 0x60), (0x402007, 0x48), (0x600002, 0x40), (0x600007, 0x40), (0x601009, 0x10),
    (0x60100F, 0x58)] }
/-- That state with the strand changed. -/
def onStrand (f : Strand → Strand) : State := page.modSt f
/-- That state with the context changed. -/
def onCtx (f : Ctx → Ctx) : State := page.modCx f
/-- Scalar registers 1 and 2 hold these words, a1 the middle of the page. -/
def regs (x y : Word) : State := onStrand fun t => ((t.setS 1 x).setS 2 y).setA 1 0xFFFF000000001400

/-! ## Witnesses: the scalar statements -/

/-- R49: a zero divisor with dz set and clear, the overflowing pair, and an ordinary pair at the ends of the range. -/
theorem witness_DivideResult :
    (sval true ((regs 5 0x100000000).getS 2) = 0 ∧ ((regs 5 0x100000000).modSt fun t => { t with dz := true }).st.dz = true)
    ∧ (sval false ((regs 5 0).getS 2) = 0 ∧ (regs 5 0).st.dz = false)
    ∧ (sval false ((regs 0x8000000000000000 0xFFFFFFFFFFFFFFFF).getS 1) = -(2 ^ (widthOf false - 1)) ∧ sval false ((regs 0x8000000000000000 0xFFFFFFFFFFFFFFFF).getS 2) = -1)
    ∧ (sval false ((regs 0x8000000000000000 1).getS 2) ≠ 0) ∧ sval true ((regs 0 0xFFFFFFFF).getS 2) = -1 := by decide +kernel

theorem witness_BitResult : (1 : BitVec 7) ≠ 0 ∧ (63 : Fin 64).val + (1 : BitVec 7).toNat ≤ 64 ∧ (64 : BitVec 7) ≠ 0 ∧ (0 : Fin 64).val + (64 : BitVec 7).toNat ≤ 64 := by decide

theorem witness_MoveAddressResult : (30 : SReg).val % 2 = 0 ∧ (14 : AReg).val % 2 = 0 ∧ (1 : BitVec 32) ≠ 0 := by decide

theorem witness_BranchResult : ((onStrand fun t => t.setA 1 0x1000).getA 1).toNat % 16 = 0 ∧ ((onStrand fun t => t.setA 1 0x1008).getA 1).toNat % 16 ≠ 0
    ∧ page.st.level ≠ 2 := by decide +kernel

/-- R61: two loops that end at the pc, each with one turn left; and an older one with turns left under a younger one with one. -/
def twoLoops (turns : BitVec 32) : Strand :=
  { pc := 0x40, loopEnd := Vector.replicate 4 0x40, loopAge := Vector.ofFn fun i => i.val
    lc := (Vector.replicate 4 0).set 0 turns |>.set 1 1 }

theorem witness_LoopControl :
    (∀ j : LReg, (twoLoops 1).lc[j] ≠ 0 ∧ (∃ k < 1, (twoLoops 1).loopEnd[j] = (twoLoops 1).pc + BitVec.ofNat 64 (16 * k)) → (twoLoops 1).lc[j] = 1)
    ∧ ((twoLoops 2).lc[(0 : LReg)] ≠ 0 ∧ (∃ k < 2, (twoLoops 2).loopEnd[(0 : LReg)] = (twoLoops 2).pc + BitVec.ofNat 64 (16 * k)) ∧ (twoLoops 2).lc[(0 : LReg)] > 1)
    ∧ (∃ k < 2, ({ twoLoops 2 with pc := 0x30 } : Strand).loopEnd[(0 : LReg)] = ({ twoLoops 2 with pc := 0x30 } : Strand).pc + BitVec.ofNat 64 (16 * k))
    ∧ (∀ k : LReg, k ≠ 0 → (twoLoops 2).lc[k] ≠ 0 ∧ (twoLoops 2).loopEnd[k] = (twoLoops 2).pc →
        (twoLoops 2).loopAge[k] ≠ (twoLoops 2).loopAge[(0 : LReg)] ∧ ((twoLoops 2).loopAge[k] > (twoLoops 2).loopAge[(0 : LReg)] → (twoLoops 2).lc[k] = 1))
    ∧ ((regs 0 1).getS 1).setWidth 32 = 0#32 ∧ ((regs 0 1).getS 2).setWidth 32 ≠ 0#32
    ∧ ((State.reset.withFetchWord 128 0).successor 0xFFFF000000001000).toOption.isSome = true ∧ page.st.level ≠ 2
    ∧ (match page.successor 0xFFFF000000900000 with | .error e => (e.cause true false).isSome && e != .memUe && e != .memIntegrity | .ok _ => false) = true := by decide +kernel

/-- Another strand that lives: one has not arrived as often, and where it has. -/
def pair (arrived : Nat) : State := onCtx fun x => { x with strands := x.strands.set 1 { present := true, sbarCount := arrived } }

theorem witness_StopYieldSbarResult :
    (∃ j : Fin 4, j ≠ strandIx (pair 0).focus ∧ (pair 0).cx.strands[j].live = true)
    ∧ (∃ j : Fin 4, j ≠ strandIx (pair 0).focus ∧ (0b0010 : BitVec 4).getLsbD j.val = true ∧ (pair 0).cx.strands[j].live = true ∧ (pair 0).cx.strands[j].sbarCount < (pair 0).st.sbarCount + 1)
    ∧ ¬ (∃ j : Fin 4, j ≠ strandIx (pair 1).focus ∧ (0b0010 : BitVec 4).getLsbD j.val = true ∧ (pair 1).cx.strands[j].live = true ∧ (pair 1).cx.strands[j].sbarCount < (pair 1).st.sbarCount + 1) := by
  decide +kernel

/-- A context at user privilege whose strand has selected another context. -/
def user : State := (onCtx fun x => { x with priv := 0 }).modSt fun t => { t with ctxSelV := true, ctxSel := 5 }

theorem witness_ControlRegisterAccess :
    (CReg.ofNum 0x100 = some .trapEntry ∧ CReg.trapEntry.level false ≤ page.cx.priv.val ∧ crReadOk page .trapEntry = true)
    ∧ (CReg.ofNum 0x423 = some .preCtl ∧ user.cx.priv.val < CReg.preCtl.level false)
    ∧ (CReg.ofNum 0x424 = some .preStat ∧ CReg.preStat.level false ≤ user.cx.priv.val ∧ crReadOk user .preStat = false) := by decide +kernel

/-! ## Witnesses: special registers, traps, page service, requests -/

/-- R74: an ill-formed record, a known one, a new one; R75, R370, R415, R426: values that name a reset, a leaf, a slot. -/
theorem witness_CoreRegisterWrites :
    recordOk 0 = false
    ∧ (recordOk 0x1000010000000000 = true ∧ (page.co.repair.any fun r => fld r 63 40 = fld 0x1000010000000000 63 40) = false)
    ∧ ((page.modCo fun k => { k with repair := [0x1000010000000000] }).co.repair.any fun r => fld r 63 40 = fld 0x1000010000000000 63 40) = true
    ∧ ((0x100 : Word).getLsbD 8 = true ∧ (0x100 : Word).getLsbD 9 = false) ∧ ((0x200 : Word).getLsbD 9 = true ∧ (0x200 : Word).getLsbD 8 = false)
    ∧ (fld 0xB400000000000000 63 60 = (11 : Fin 12).val ∧ (0xB400000000000000 : Word).getLsbD 58 = true)
    ∧ 2 ≤ page.cx.priv.val ∧ ¬ 1 ≤ user.cx.priv.val := by decide +kernel

/-- A currency of level 1 below the root, selected, and a child of it. -/
def minted : State := { (onStrand fun t => { t with curSel := 3 }) with currencies := [(2, ⟨1, 1, 5⟩)] }

theorem witness_PackageRegisterWrites :
    (fld 0x40 7 6 < 2 ∧ 2 ≤ fld 0x80 7 6 ∧ user.cx.priv.val = 0)
    ∧ (minted.st.curSel.toNat > 1 ∧ (0x8002000000000007 : Word).getLsbD 63 = true ∧ SMap.find minted.currencies minted.st.curSel.toNat = none
        ∧ minted.currency (fld 0x8002000000000007 59 48) = some ⟨1, 1, 5⟩ ∧ (1 : Fin 4).val ≤ 2)
    ∧ ((minted.modSt fun t => { t with curSel := 2 }).st.curSel.toNat > 1 ∧ SMap.find minted.currencies 2 = some ⟨1, 1, 5⟩)
    ∧ (0 : Word).getLsbD 63 = false ∧ currencyUsed minted 2 = false := by decide +kernel

/-- A context with two leaves, the second spilled. -/
def leafed : State := onCtx fun x => { x with leaves := [{ phys := some 3 }, { phys := none, pinned := true }] }

theorem witness_LeafKeyPlaneWrites :
    (leafed.selected = some (.resident 0 0) ∧ leafed.findCtx (.resident 0 0) = some leafed.cx ∧ leafed.cx.leaves[fld 0x100 6 0]? = some { phys := some 3 }
      ∧ (0x100 : Word).getLsbD 8 = true ∧ ({ phys := some 3 } : Leaf).phys.isSome = true)
    ∧ (leafed.cx.leaves[fld 0x1 6 0]? = some { phys := none, pinned := true } ∧ (0x1 : Word).getLsbD 8 = false)
    ∧ ((0x80000000000007FF : Word).getLsbD 63 = true ∧ (0x80000000000007FF : Word).getLsbD 62 = false
        ∧ (SMap.get {} page.keys (fld 0x80000000000007FF 10 0)).st ≠ .live ∧ 1 ≤ page.cx.priv.val)
    ∧ (2 ≤ page.cx.priv.val ∧ (1 : Nat) ≠ page.focus.core ∧ (leNat ((page.readMa page.pkgOwner (fld 0x1000 51 6 * 64) 64).drop 16)).testBit 1 = false) := by
  decide +kernel

/-- The three trap levels. -/
def level (n : Fin 3) : State := onStrand fun t => { t with level := n }

theorem witness_TrapAndBanks :
    page.st.level ≠ 2 ∧ (level 0).st.level = 0 ∧ (level 1).st.level = 1 ∧ (level 2).st.level = 2
    ∧ (level 1).cx.heldFor (strandIx (level 1).focus).val = [] := by decide +kernel

/-- R154, R160: a context in its slot, and an empty slot. -/
theorem witness_KillRemovesContext : page.findCtx (.resident 0 0) = some page.cx ∧ page.findCtx (.resident 0 1) = none := by decide +kernel

/-- That page with its frame not resident, and pinned to the end. -/
def absent : State := page.setRaw 0x40000E 5
def pinned : State := page.modDi fun d => { d with frames := [(0x602000, { pin := 65535 })] }

theorem witness_PageService_mapped :
    (∃ x ∈ (page.page 0xFFFF000000001400).toOption, x.resident = true ∧ (page.frameOf x).pin ≠ BitVec.allOnes 16 ∧ (page.frameOf x).pin = 0)
    ∧ (∃ x ∈ (absent.page 0xFFFF000000001400).toOption, x.resident = false)
    ∧ ∃ x ∈ (pinned.page 0xFFFF000000001400).toOption, x.resident = true ∧ (pinned.frameOf x).pin = BitVec.allOnes 16 ∧ (pinned.frameOf x).pin ≠ 0 := by decide +kernel

theorem witness_PageService_unmapped :
    page.page 0xFFFF000000003000 = .error (.xlateMiss 1) ∧ MemErr.xlateMiss 1 ≠ .absent ∧ MemErr.xlateMiss 1 ≠ .held
    ∧ page.pageOwner 0x0FFF000000000000 = none := by decide +kernel

/-- A demand page at 0x1000, the record of its size code naming a list of one frame. -/
def demand : State := (((page.setRaw 0x60100F 0x98).setRaw 0x601009 0).setRaw 0x12 0x70).setRaws 0x700001 [0x08, 0x70, 0, 0, 0, 0, 0, 1] |>.setRaw 0x700801 0x10

theorem witness_PageAllocation :
    groupAway demand 0 demand.cx.asid (fld 0xFFFF000000001400 47 0) 0 = none ∧ demand.pageOwner 0xFFFF000000001400 = some 0 ∧ descOk (demand.desc 0 demand.cx.asid) = true
    ∧ (∃ e ∈ (demand.tenWalk 0 demand.cx.asid (fld 0xFFFF000000001400 47 0)).toOption, demandOk e.2 = true ∧ leafSize e.2 = 0)
    ∧ (∃ e ∈ (page.tenWalk 0 page.cx.asid (fld 0xFFFF000000001400 47 0)).toOption, fld e.2 63 62 = 1 ∧ tenZero e.2 = true ∧ baseAligned e.2 = true)
    ∧ (∃ e ∈ (page.tenWalk 0 page.cx.asid (fld 0xFFFF000000003000 47 0)).toOption, fld e.2 63 62 ≠ 1 ∧ demandOk e.2 = false)
    ∧ fld (demand.desc 0 demand.cx.asid)[2] 51 6 * 64 = 0x700000 ∧ leNat (demand.readMa 0 0x700008 4) = 1 ∧ leNat (demand.readMa 0 0x700000 8) = 0x700800
    ∧ leWord (demand.readMa 0 0x700800 8) = 0x1000
    ∧ ∃ ps ∈ framePieces demand 0 (demand.desc 0 demand.cx.asid) 0x1000 0,
        ∀ p ∈ ps, holdCount demand (maDie 0 (fld p.2 51 0)) (fld p.2 51 48 * 2 ^ 48 + fld p.2 47 12 * 4096 + p.1 % 2 ^ (12 + leafSize p.2)) 4096 = 0 := by decide +kernel

theorem witness_TicketSeedKeyResult :
    (1 ≤ (0xFFFFFFFF : Word).toNat ∧ (0xFFFFFFFF : Word).toNat < 2 ^ 32) ∧ 2 ^ 32 ≤ (0x100000000 : Word).toNat ∧ 2 ^ 16 ≤ (0x10000 : Word).toNat
    ∧ minted.currency 9 = none ∧ (minted.currency 2 = some ⟨1, 1, 5⟩ ∧ cursetOk minted 2 ⟨1, 1, 5⟩ = true ∧ (2 : Nat) ≠ 1)
    ∧ 1 ≤ page.cx.priv.val
    ∧ ¬(1 ≤ (user.setCtx 0 1 noCtx).cx.priv.val ∨ (user.setCtx 0 1 noCtx).co.slots.length = 1)
    ∧ 2047 < (2048 : Word).toNat ∧ ((2047 : Word).toNat ≤ 2047 ∧ (SMap.get {} page.keys 2047).prot = false) := by decide +kernel

/-- A blotter descriptor of one extent of the die's memory at 0x1400, and a die whose queue holds job 3. -/
def blotted : State := (page.setRaws 0x602400 [1, 1]).setRaws 0x602412 [0x20, 0, 0, 0, 0, 0x80, 1]
def busyDie : State := page.modDi fun d => { d with blotJobs := [{ num := 3, extents := [] }] }

theorem witness_BlotterEventResult :
    (∃ r ∈ (blotted.readVa blotted.agent .rd 0xFFFF000000001400 16).toOption, hostWaits blotted blotted.cx r.1 false = false
      ∧ blotHeader (leWord (r.2.take 8)) (leWord (r.2.drop 8)) = some 1
      ∧ ∃ q ∈ ((counted blotted r.1 false 16).readVa (counted blotted r.1 false 16).agent .rd 0xFFFF000000001410 16).toOption,
          hostWaits (counted blotted r.1 false 16) (counted blotted r.1 false 16).cx q.1 false = false ∧ ∃ es ∈ parseExtents 0 1 (wordsOf q.2), unitsOf es < 2 ^ 24)
    ∧ (∃ r ∈ (page.readVa page.agent .rd 0xFFFF000000001400 16).toOption, blotHeader (leWord (r.2.take 8)) (leWord (r.2.drop 8)) = none)
    ∧ (0xFFFF000000001420 : Word).toNat % 64 ≠ 0 ∧ page.di.blotJobs.length < 16
    ∧ (page.di.blotJobs.any fun j => decide (j.num.toNat = 3)) = false ∧ (busyDie.di.blotJobs.any fun j => decide (j.num.toNat = 3)) = true
    ∧ (onStrand fun t => { t with latch := true }).st.latch = true ∧ page.st.latch = false := by decide +kernel

/-- A second context in slot 1, on a rung, with an intent. -/
def second (r : Rung) (i : Option Intent) : State :=
  page.setCtx 0 1 { fetchCtx with uid := 2048, launch := 2, rung := r, intent := i, graceAt := some 5, killAt := some 9 }

theorem witness_ContextRequests :
    1 ≤ page.cx.priv.val ∧ ctxOfName page 0xFFFF = none ∧ ctxOfName page 0 = some (.resident page.focus.core page.focus.slot)
    ∧ (ctxOfName page 1 = some (.resident 0 1) ∧ page.findCtx (.resident 0 1) = none)
    ∧ (∃ x ∈ (second .running none).findCtx (.resident 0 1), x.prot = false ∧ x.rung = .running ∧ x.intent = none ∧ x.diag = false ∧ x.rung ≠ .halted ∧ x.rung ≠ .shadowed)
    ∧ (∃ x ∈ (second .halted (some .halt)).findCtx (.resident 0 1), x.prot = false ∧ x.rung = .halted)
    ∧ (∃ x ∈ ((second .running none).modCtx 0 1 fun x => { x with prot := true }).findCtx (.resident 0 1), x.prot = true)
    ∧ (∃ x ∈ ((second .running none).modCtx 0 1 fun x => { x with diag := true }).findCtx (.resident 0 1), x.diag = true)
    ∧ CtxRef.resident 0 1 ≠ .resident page.focus.core page.focus.slot
    ∧ (∃ i : Fin 4, (level 2).cx.strands[i].level = 2) ∧ ∀ i : Fin 4, page.cx.strands[i].level ≠ 2 := by decide +kernel

/-- Bytes of twelve leaf entries of one 4 KiB page each, with bases in a row. -/
def wideLeaves (at_ : Nat) (base top : Byte) : List (Nat × Byte) :=
  (List.range 12).flatMap fun j =>
    (if j = 0 then [] else [(at_ + 8 * j + 1, BitVec.ofNat 8 (16 * j))]) ++ [(at_ + 8 * j + 2, base), (at_ + 8 * j + 7, top)]

/-- Tables whose entries map twelve pages at 0xFFFF000000010000. -/
def wide (s : State) : State :=
  { s with mem := [(0x2, 0x20), (0x7, 0x80), (0xA, 0x20), (0xF, 0x80), (0x200002, 0x40), (0x200007, 0x40)] ++ wideLeaves 0x400080 0x61 0x5C
      ++ [(0x401002, 0x60), (0x401007, 0x48), (0x402001, 0x10), (0x402002, 0x60), (0x402007, 0x48), (0x600002, 0x40), (0x600007, 0x40)]
      ++ wideLeaves 0x601080 0x1 0x58 }

/-- R178: two entries written alike are found so, and two that differ are not. -/
theorem test_uniform_group :
    ({ State.reset with mem := [(0x1006, 0x10), (0x1007, 0x58), (0x100E, 0x10), (0x100F, 0x58), (0x1017, 0x58)] } : State).uniform 0x1000 2 0x5810000000000000 = true
    ∧ ({ State.reset with mem := [(0x1006, 0x10), (0x1007, 0x58), (0x100E, 0x10), (0x1017, 0x58)] } : State).uniform 0x1000 2 0x5810000000000000 = false := by decide +kernel

/-- Page j of twelve from 0xFFFF000000010000 translates for a write and is not encrypted. -/
def wideOk (s : State) (j : Nat) : Bool :=
  match s.xlate s.agent .wr (0xFFFF000000010000 + BitVec.ofNat 64 (4096 * j)) with
  | .ok x => decide (x.enc = none)
  | .error _ => false

theorem wide_writes_of (s : State) (h : ∀ j < 12, wideOk s j = true) : ∃ xs, s.writeVa s.agent 0xFFFF000000010000 49152 = .ok xs := by
  refine writeVa_ok _ _ _ _ fun i hi hc => ?_
  have h0 : i % 4096 = 0 := by
    rcases hc with rfl | hc
    · rfl
    · have : (0xFFFF000000010000#64 + BitVec.ofNat 64 i).toNat % 4096 = 0 := by simpa [fld] using hc
      simp [BitVec.toNat_add, BitVec.toNat_ofNat] at this; omega
  have hj := h (i / 4096) (by omega)
  have he : 4096 * (i / 4096) = i := by omega
  simp only [wideOk, he] at hj
  split at hj
  · rename_i x hx; exact ⟨x, hx, by simpa using hj⟩
  · cases hj

theorem wide_pages_0 : wideOk (wide (second .halted none)) 0 = true ∧ wideOk (wide (second .halted none)) 1 = true ∧ wideOk (wide (second .halted none)) 2 = true := by decide +kernel
theorem wide_pages_3 : wideOk (wide (second .halted none)) 3 = true ∧ wideOk (wide (second .halted none)) 4 = true ∧ wideOk (wide (second .halted none)) 5 = true := by decide +kernel
theorem wide_pages_6 : wideOk (wide (second .halted none)) 6 = true ∧ wideOk (wide (second .halted none)) 7 = true ∧ wideOk (wide (second .halted none)) 8 = true := by decide +kernel
theorem wide_pages_9 : wideOk (wide (second .halted none)) 9 = true ∧ wideOk (wide (second .halted none)) 10 = true ∧ wideOk (wide (second .halted none)) 11 = true := by decide +kernel

theorem wide_writes : ∃ xs, (wide (second .halted none)).writeVa (wide (second .halted none)).agent 0xFFFF000000010000 49152 = .ok xs :=
  wide_writes_of _ fun j h => by
    match j, h with
    | 0, _ => exact wide_pages_0.1
    | 1, _ => exact wide_pages_0.2.1
    | 2, _ => exact wide_pages_0.2.2
    | 3, _ => exact wide_pages_3.1
    | 4, _ => exact wide_pages_3.2.1
    | 5, _ => exact wide_pages_3.2.2
    | 6, _ => exact wide_pages_6.1
    | 7, _ => exact wide_pages_6.2.1
    | 8, _ => exact wide_pages_6.2.2
    | 9, _ => exact wide_pages_9.1
    | 10, _ => exact wide_pages_9.2.1
    | 11, _ => exact wide_pages_9.2.2

theorem witness_ContextImageResult :
    (∃ x ∈ (wide (second .halted none)).findCtx (.resident 0 1), x.prot = false ∧ x.rung = .halted ∧ x.ductsIn = true ∧ x.opslots = []
      ∧ (wide (second .halted none)).maHeld x.block.toNat 0x180000 = false ∧ x.vPoison = [] ∧ x.mPoison = [] ∧ x.semPoison = []
      ∧ ((countFlips (spillAll (wide (second .halted none)) (.resident 0 1)) (.resident 0 1) x).findCtx (.resident 0 1)).isSome = true)
    ∧ ((wide (second .halted none)).core 0).opPoison = []
    ∧ ctxOfName (wide (second .halted none)) 1 = some (.resident 0 1) ∧ (0xFFFF000000010000 : Word).toNat % 4096 = 0 ∧ (0xFFFF000000010800 : Word).toNat % 4096 ≠ 0
    ∧ (∃ x ∈ (second .running none).findCtx (.resident 0 1), x.rung ≠ .halted ∧ x.rung ≠ .shadowed)
    ∧ loadTarget page 1 = .ok (.resident 0 1) := by decide +kernel

/-! ## Witnesses: memory -/

/-- a1 at the middle of the page; the page read-only, not mapped, not resident. -/
def loads : State := regs 1 2
def readOnly : State := loads.setRaw 0x60100F 0x48

theorem witness_MemoryAccess_load :
    ETy.i32.inI = true ∧ (loads.getA 1 + (0 : BitVec 32).signExtend 64).toNat % 4 = 0 ∧ (loads.getA 1 + (2 : BitVec 32).signExtend 64).toNat % 4 ≠ 0
    ∧ (∃ r ∈ (loads.readVa loads.agent .rd 0xFFFF000000001400 4).toOption, hostWaits loads loads.cx r.1 false = false)
    ∧ loads.readVa loads.agent .rd 0xFFFF000000003000 4 = .error (.xlateMiss 1, 0xFFFF000000003000) ∧ (MemErr.xlateMiss 1).cause false false = some (0x0A, 4)
    ∧ (loads.setRaw 0x402006 5).readVa loads.agent .rd 0xFFFF000000001400 4 = .error (.absent, 0xFFFF000000001400) := by decide +kernel

theorem witness_MemoryAccess_store :
    (∃ xs ∈ (loads.writeVa loads.agent 0xFFFF000000001400 8).toOption, hostWaits loads loads.cx xs true = false)
    ∧ readOnly.writeVa readOnly.agent 0xFFFF000000001400 8 = .error (.xlatePerm 1, 0xFFFF000000001400) ∧ ((MemErr.xlatePerm 1).cause false false).isSome = true := by
  decide +kernel

/-- R117: the bytes of an aligned word of the page, whose D bit is set, and a near key. -/
theorem witness_StoredBytes :
    (∃ xs ∈ (loads.writeVa loads.agent 0xFFFF000000001400 8).toOption,
      (∀ x ∈ xs, x.enc = none ∧ (loads.sector x.key).keys = none ∧ (loads.rawByte (x.hkey + 7)).getLsbD 2 = true)
      ∧ (∀ x ∈ xs, ∀ y ∈ xs, x.key ≠ y.hkey + 7) ∧ (xs.map fun x => x.key).Nodup) ∧ keyNear 0 = true := by decide +kernel

/-- Mask register 0 enables the first and the last of 64 lanes; a vector of indices. -/
def lanesOn : State := (loads.setM 0 0x8000000000000001).setV 2 0
def vmem (d : BitVec 32) (folio : Bool) : VMemOp := { mem := { base := 1, disp := d, oc := 0, fl := .none, scope := .strand }, folio := folio, mask := some 0 }
def wantOf (addrs : List Word) : List (Option Word) := addrs.zipIdx.map fun e => if lanesOn.chunkOn .i64 (some 0) e.2 then some e.1 else none
def sixtyFour (d : Word) : List Word := (List.range 64).map fun c => 0xFFFF000000001400 + d + BitVec.ofNat 64 (c * 8)

theorem witness_VectorLoadResult :
    (∃ vals ∈ (lanesOn.readLanes lanesOn.agent 8 (wantOf (sixtyFour 0)) none).toOption, hostWaits lanesOn lanesOn.cx (vals.filterMap fun v => v.map (·.1)) false = false)
    ∧ lanesOn.readLanes lanesOn.agent 8 (wantOf (sixtyFour 4)) none = .error (.align, 0xFFFF000000001404)
    ∧ (lanesOn.readLanes lanesOn.agent 8 (wantOf ((List.range 64).map fun i => 0xFFFF000000001400 + BitVec.ofNat 64 i * lanesOn.getS 1)) none).toOption = none
    ∧ (lanesOn.readLanes lanesOn.agent 8 (wantOf (lanesOn.gatherAddrs .i64 0xFFFF000000001400 2 true)) none).isOk = true := by decide +kernel

theorem witness_VectorStoreResult :
    (∃ items ∈ (lanesOn.writeLanes lanesOn.agent 8 (wantOf (sixtyFour 0)) none).toOption, hostWaits lanesOn lanesOn.cx (items.flatMap fun e => e.getD []) true = false)
    ∧ lanesOn.writeLanes lanesOn.agent 8 (wantOf (sixtyFour 4)) none = .error (.align, 0xFFFF000000001404)
    ∧ (lanesOn.writeLanes lanesOn.agent 8 (wantOf (lanesOn.gatherAddrs .i64 0xFFFF000000001400 2 true)) none).isOk = true := by decide +kernel

/-- A tile at a1 with an even and with an odd version, one lane enabled; a strand between two attempts. -/
def odd : State := lanesOn.setRaw 0x602400 7
def tileLanes : List (Option Word) := (List.range 512).map fun j => if lanesOn.laneOn (some 0) j then some (0xFFFF000000001440 + BitVec.ofNat 64 j) else none
def retrying (attempt : Nat) (seen : Word) : State := loads.modSt fun t => { t with wait := some (.tldv 0 0 0xFFFF000000001400 (some 0) attempt seen 0) }

theorem witness_VersionedTile :
    ((0xFFFF000000001400 : Word).toNat % 64 = 0 ∧ (0xFFFF000000001420 : Word).toNat % 64 ≠ 0)
    ∧ (∃ vx ∈ (lanesOn.writeVa lanesOn.homeAgent 0xFFFF000000001400 8).toOption, (lanesOn.readXl 0xFFFF000000001400 vx).isOk = true
        ∧ ∃ items ∈ (lanesOn.writeLanes lanesOn.agent 1 tileLanes none).toOption, hostWaits lanesOn lanesOn.cx (vx ++ items.flatMap fun e => e.getD []) true = false)
    ∧ (∃ r ∈ (lanesOn.readVa lanesOn.homeAgent .rd 0xFFFF000000001400 8).toOption, leNat r.2 % 2 = 0
        ∧ ∃ vals ∈ (lanesOn.readLanes lanesOn.homeAgent 1 tileLanes none).toOption, hostWaits lanesOn lanesOn.cx (r.1 ++ vals.filterMap fun v => v.map (·.1)) false = false)
    ∧ ∃ r ∈ (odd.readVa odd.homeAgent .rd 0xFFFF000000001400 8).toOption, leNat r.2 % 2 = 1 := by decide +kernel

/-- The version still as seen before 256 cycles; changed, below and at the limit of attempts. -/
theorem witness_VersionedTile_retry :
    ((retrying 1 0).strandAt (retrying 1 0).focus).wait = some (.tldv 0 0 0xFFFF000000001400 (some 0) 1 0 0) ∧ (retrying 1 0).time < 0 + 256
    ∧ (∃ r ∈ ((retrying 1 0).readVa loads.homeAgent .rd 0xFFFF000000001400 8).toOption, leWord r.2 = 0)
    ∧ (∃ r ∈ ((retrying 64 1).readVa loads.homeAgent .rd 0xFFFF000000001400 8).toOption, leWord r.2 ≠ 1) ∧ 64 ≤ 64 ∧ 63 < 64 := by decide +kernel

theorem witness_FencePrefetchCmo :
    (loads.xlate loads.agent .rd 0xFFFF000000001400).isOk = true ∧ (loads.xlate loads.agent .rd 0xFFFF000000003000).toOption = none
    ∧ (∃ r ∈ (loads.readVa loads.homeAgent .rd 0xFFFF000000001400 1).toOption, hostWaits loads loads.cx r.1 false = false)
    ∧ (0xFFFF000000001400 : Word).toNat % 128 = 0 ∧ (0xFFFF000000001440 : Word).toNat % 128 ≠ 0
    ∧ ∃ xs ∈ (loads.writeVa loads.agent 0xFFFF000000001400 128).toOption, hostWaits loads loads.cx xs true = false := by decide +kernel

theorem witness_AtomicResult :
    32 ≤ ETy.i32.width ∧ (∃ r ∈ (loads.readVa loads.agent .rmw 0xFFFF000000001400 4).toOption, (∀ x ∈ r.1, x.enc = none) ∧ hostWaits loads loads.cx r.1 true = false ∧ leNat r.2 ≠ (loads.getS 2).toNat % 2 ^ 32
      ∧ leNat r.2 = (loads.getS 3).toNat % 2 ^ 32) := by decide +kernel

/-- Leaf 0 of the folio is physical leaf 3, leaf 1 is spilled; a1 at an offset of the folio. -/
def folio (off : Word) : State := leafed.setA 1 off

theorem witness_FolioAccess_scalar :
    (InLeaf (folio 0x3FF8) 0x3FF8 8 3 ∧ (0x3FF8 : Word).toNat % 8 = 0 ∧ (folio 0).co.inject = 0)
    ∧ ((0x3FFC : Word).toNat % 8 ≠ 0)
    ∧ ((folio 0).cx.diag = false ∧ (folio 0).cx.leaves.length * 16384 ≤ (0x8000 : Word).toNat ∧ (folio 0).co.folioPoison = [])
    ∧ ((0x4000 : Word).toNat < (folio 0).cx.leaves.length * 16384 ∧ ((folio 0).cx.leaves[(0x4000 : Word).toNat / 16384]?).bind (·.phys) = none) := by
  unfold InLeaf; decide +kernel

/-- The vector forms, one lane enabled: inside the leaf, and at a misaligned offset. -/
def folioLane : State := (folio 0x10).setM 0 1
def folioWant (o : Word) : List (Option Word) :=
  ((List.range 64).map fun c => o + BitVec.ofNat 64 (c * 8)).zipIdx.map fun e => if folioLane.chunkOn .i64 (some 0) e.2 then some e.1 else none

theorem witness_FolioAccess_vector :
    (folioWant 0x14).find? (fun e => e.any fun a => decide (a.toNat % 8 ≠ 0)) = some (some 0x14) ∧ (folioWant 0x10).filterMap id = [0x10]
    ∧ ((0x10 : Word).toNat % 8 = 0 ∧ (0x10 : Word).toNat + 8 ≤ folioLane.cx.leaves.length * 16384 ∧ (folioLane.cx.leaves[(0x10 : Word).toNat / 16384]?).bind (·.phys) = some 3
        ∧ folioLane.co.folioPoison = []) := by decide +kernel

/-! ## Witnesses: ductus chains, semaphores, barriers, waits, queues -/

/-- Ductus slot 3 free, busy, and with a result. -/
def duct (busy result : Bool) : State := onCtx fun x => { x with ducts := x.ducts.set 3 { busy := busy, result := result, data := [1, 2, 3, 4, 5, 6, 7, 8] } }

theorem witness_DuctusChains_slot :
    page.cx.ducts[(3 : Fin 16)].busy = false ∧ ((duct true false).cx.ducts[(3 : Fin 16)].busy = true ∧ (duct true false).cx.ducts[(3 : Fin 16)].result = false)
    ∧ (duct true true).cx.ducts[(3 : Fin 16)].result = true ∧ (duct true true).cx.ducts[(3 : Fin 16)].data.length ≤ 64 := by decide +kernel

/-- A packet of one or two steps over the page. -/
def packet (p : Word) (n hops : Nat) (urg : BitVec 3) : Packet :=
  { part := 0, rgen := 0, oc := 0, urg := urg, priv := 2, k := 0, n := n, lc := 1, h := 2, hops := hops, asid := 0, rpkg := 0, rdie := 0, rcore := 0, rslot := 0,
    uid := 1024, tag := 3, seq := 0, p := p, steps := List.replicate n (BitVec.allOnes 64, 0) }

theorem witness_DuctusChains_step :
    ((packet 0xFFFF000000001400 1 0 0).steps[0]? = some (BitVec.allOnes 64, 0)
      ∧ ∃ c ∈ page.issuer (packet 0xFFFF000000001400 1 0 0), ∃ r ∈ (page.readVa { die := 0, part := 0, asid := 0, vi := c.vi, home := true } .rd 0xFFFF000000001400 8).toOption,
          hostWaits page c r.1 false = false)
    ∧ (((0x0001000000000000 : Word).extractLsb' 48 16).toNat ≠ 0 ∧ (packet 0x0001000000000000 1 2 0).hops = (packet 0x0001000000000000 1 2 0).h)
    ∧ (0xFFFF000000001404 : Word).toNat % 8 ≠ 0 ∧ page.readVa page.agent .rd 0xFFFF000000003000 8 = .error (.xlateMiss 1, 0xFFFF000000003000)
    ∧ (packet 0xFFFF000000001400 2 0 0).k + 1 < (packet 0xFFFF000000001400 2 0 0).n
    ∧ (1 / 4 ∈ page.domain ∧ page.partIn (1 / 4) 0 = true ∧ ((0x0001000000000000 : Word).extractLsb' 48 16).toNat = 1 ∧ (packet 0x0001000000000000 1 1 0).hops ≠ (packet 0x0001000000000000 1 1 0).h)
    ∧ (0x7FF0 / 4 ∉ page.domain ∧ ((0x7FF0000000000000 : Word).extractLsb' 48 16).toNat = 0x7FF0 ∧ (0x7FF0000000000004 : Word).toNat % 8 ≠ 0)
    ∧ (packet 0 1 0 0).k + 1 = (packet 0 1 0 0).n ∧ (packet 0 1 0 0).lc ≠ 0 := by decide +kernel

def result : DuctResult := { part := 0, rgen := 0, rpkg := 0, rcore := 0, rslot := 0, uid := 1024, tag := 3, seq := 0, p := 0, status := 0, data := [] }

/-- Two packets at die 0, the second more urgent; a result on the way to the busy slot; the slot after 1,048,576 cycles. -/
def twoPackets : State := page.modDie 0 fun d => { d with packets := [packet 0x0001000000000000 1 2 0, packet 0xFFFF000000001404 1 0 1] }
def arriving : State := { duct true false with results := [result] }
def overdue : State := { duct true false with time := 1048576 }
def late : State := { arriving with time := 1048576 }

theorem witness_DuctusChains_events :
    ((twoPackets.die 0).packets.filter fun p => !staleGen twoPackets p.part p.rgen) = [packet 0x0001000000000000 1 2 0, packet 0xFFFF000000001404 1 0 1]
    ∧ (match serveStep twoPackets 0 (packet 0x0001000000000000 1 2 0) with | .done _ _ w _ => decide (w = ductStatus 2 0 2 0) | _ => false) = true
    ∧ (match serveStep twoPackets 0 (packet 0x0001000000000000 1 1 0) with | .forward q x => decide (q.hops = 2 ∧ x = 1 ∧ x / 4 = twoPackets.package) | _ => false) = true
    ∧ (match serveStep twoPackets 0 (packet 0xFFFF000000001400 2 0 0) with | .again _ q => decide (q.k = 1) | _ => false) = true
    ∧ (arriving.results[0]? = some result ∧ staleGen arriving 0 0 = false ∧ (arriving.findUid 1024).isSome = true ∧ arriving.cx.ducts[(3 : Fin 16)].seq = result.seq
        ∧ (arriving.cx.ducts[(3 : Fin 16)].busy = true ∧ arriving.cx.ducts[(3 : Fin 16)].result = false) ∧ arriving.time < arriving.cx.ducts[(3 : Fin 16)].at_ + 1048576)
    ∧ ¬ late.time < late.cx.ducts[(3 : Fin 16)].at_ + 1048576
    ∧ page.findUid 7 = none
    ∧ overdue.cx.ducts[(3 : Fin 16)].at_ + 1048576 ≤ overdue.time ∧ (duct true false).time < (duct true false).cx.ducts[(3 : Fin 16)].at_ + 1048576 := by decide +kernel

/-- Semaphore 5 at 2, and with a waiter for 3. -/
def sems (q : List (Nat × Nat × Nat)) : State := onCtx fun x => { x with sem := [(5, 2)], semq := q }

theorem witness_Semaphores :
    ((∀ w ∈ (sems []).cx.semq, w.1 ≠ 5) ∧ (2 : Nat) ≤ ((sems []).cx.getSem 5).toNat ∧ ((sems []).cx.getSem 5).toNat < 3)
    ∧ (sems [(5, 1, 3)]).cx.semq.find? (fun w => w.1 == 5) = some (5, 1, 3) ∧ ((sems [(5, 1, 3)]).cx.getSem 5).toNat < 3
    ∧ ¬((∀ w ∈ (sems [(5, 1, 3)]).cx.semq, w.1 ≠ 5) ∧ 1 ≤ ((sems [(5, 1, 3)]).cx.getSem 5).toNat) := by decide +kernel

/-- Group 7 of partition 0 with these members; `me` is the executing strand, `other` another. -/
def grouped (ms : List Member) (js : List (Nat × Nat)) : State := page.setGroup 7 { owner := some 0, c := 4, scope := .die, members := ms, joins := js }
def me (a b : Bool) : Member := { uid := 1024, strand := 0, inC := a, inC1 := b }
def other (a b : Bool) : Member := { uid := 2048, strand := 1, inC := a, inC1 := b }

theorem witness_Barriers_arrive :
    ((grouped [] []).group 7).lost = false ∧ ((page.setGroup 7 { owner := some 0, lost := true }).group 7).lost = true ∧ ((grouped [] []).group 7).vacant = true
    ∧ ((grouped [other true false] []).group 7).vacant = false ∧ (page.group 7).owner ≠ some page.cx.part ∧ ((grouped [] []).group 7).owner = some (grouped [] []).cx.part
    ∧ ((grouped [me false false, other false false] []).group 7).members.find? (fun m => m.uid == 1024 && m.strand == 0) = some (me false false)
    ∧ ((grouped [me true false] []).group 7).members.find? (fun m => m.uid == 1024 && m.strand == 0) = some (me true false)
    ∧ ((grouped [me true true] []).group 7).members.find? (fun m => m.uid == 1024 && m.strand == 0) = some (me true true)
    ∧ ((grouped [] []).group 7).members = [] ∧ memberships (grouped [] []) 1024 < 64
    ∧ (((grouped [other true false] []).group 7).members.find? (fun m => m.uid == 1024 && m.strand == 0) = none ∧ ((grouped [other true false] []).group 7).members ≠ []
        ∧ ((grouped [other true false] []).group 7).scope = .die ∧ ((grouped [other true false] []).group 7).agent = page.focus.core / 96
        ∧ (1024, 0) ∉ ((grouped [other true false] []).group 7).joins)
    ∧ (1024, 0) ∈ ((grouped [other true false] [(1024, 0)]).group 7).joins ∧ ((grouped [other true false] []).group 7).scope ≠ .core := by decide +kernel

/-- R209: tokens of generations C - 2, C - 1, C, C + 1 and C + 2 of group 7, whose C is 4. -/
def token (gen : BitVec 32) : Word := gen.setWidth 64 <<< 32 ||| 7

theorem witness_Barriers_token :
    [2, 3, 4, 5, 6].map (fun gen => ((token gen).toNat % 4096, (((token gen).extractLsb' 32 32) - ((grouped [other true true] []).group 7).c).toInt))
      = [(7, -2), (7, -1), (7, 0), (7, 1), (7, 2)]
    ∧ (∃ m ∈ ((grouped [other true true] []).group 7).members, m.inC1 = true) ∧ ¬ ∃ m ∈ ((grouped [other true false] []).group 7).members, m.inC1 = true := by decide +kernel

theorem witness_Barriers_generation :
    (∃ m ∈ [other false false], m.inC = false ∧ m.leaving = false)
    ∧ ([me true true, other true false] ≠ [] ∧ (∀ m ∈ [me true true, other true false], m.inC = true ∨ m.leaving = true) ∧ ∃ m ∈ [me true true, other true false], m.leaving = false ∧ m.inC1 = false)
    ∧ ((∀ m ∈ [me true true], m.inC = true ∨ m.leaving = true) ∧ (∀ m ∈ [me true true], m.leaving = true ∨ m.inC1 = true) ∧ ∃ m ∈ [me true true], m.leaving = false) := by decide

/-- Strands that wait at a barrier, for an event, for the blotter. -/
def waiting (w : Wait) : State := (grouped [other true false] []).modSt fun t => { t with wait := some w }

theorem witness_Barriers_waits :
    ((waiting (.barrier 3 7 3)).strandAt page.focus).wait = some (.barrier 3 7 3) ∧ ((3 : BitVec 32) - ((waiting (.barrier 3 7 3)).group 7).c).toInt = -1
    ∧ ((2 : BitVec 32) - ((waiting (.barrier 3 7 2)).group 7).c).toInt ≤ -2 ∧ 0 ≤ ((4 : BitVec 32) - ((waiting (.barrier 3 7 4)).group 7).c).toInt
    ∧ ((waiting (.event 3 (some 0))).strandAt page.focus).wait = some (.event 3 (some 0)) ∧ 0 ≤ (waiting (.event 3 (some 0))).time ∧ (waiting (.event 3 (some 1))).time < 1
    ∧ ((waiting (.blot 3 9 (some 1))).strandAt page.focus).wait = some (.blot 3 9 (some 1)) := by decide +kernel

/-- A waiter of another strand on the word at a1. -/
def waiter : Waiter :=
  { asid := 0, ea := 0x0000000000001400, owner := 0, wide := true, mask := 1, expected := 1, cond := .eq, stamp := 0, who := { core := 0, slot := 0, strand := 1 },
    uid := 1024, d := 2, slot := some 0 }
def waited : State := loads.modDie 0 fun d => { d with waiters := [waiter], stamp := 1 }

theorem witness_WordWaitsAndQueues_words :
    (∃ r ∈ (loads.readVa loads.homeAgent .rd 0xFFFF000000001400 8).toOption, hostWaits loads loads.cx r.1 false = false ∧ waitCond .eq true (leWord r.2) 1 0 = true ∧ waitCond .eq true (leWord r.2) 1 1 = false
      ∧ ∃ x ∈ r.1.head?, x.owner = 0 ∧ ((loads.die x.owner).waitersOn 0 (resolveOwner loads.here 0xFFFF000000001400)).take 1 = []
          ∧ ((waited.die x.owner).waitersOn waited.cx.asid (resolveOwner waited.here 0xFFFF000000001400)).take ((regs 1 0).getS 1).toNat = [waiter])
    ∧ ((waited.die 0).waitersOn waited.cx.asid (resolveOwner waited.here 0xFFFF000000001400)).take 1 = [waiter]
    ∧ waiter.who ≠ waited.focus
    ∧ (0xFFFF000000001404 : Word).toNat % 8 ≠ 0 := by decide +kernel

/-- Endpoints: the vector engine of slot 0 of core 0, the ligature engine of slot 1, and words that name none; a second context of the launch. -/
def ends : State := (page.setCtx 0 1 { fetchCtx with uid := 1025 })
def boundQ (es : List QEntry) : State :=
  ends.modCx fun x => { x with boundQs := [(0, { prod := ⟨0, 0, 1, 0⟩, cons := ⟨0, 1, 0, 0⟩, depth := 16, entries := es })] }

theorem witness_WordWaitsAndQueues_queues :
    endpoint 0 0x2000 = none ∧ endpoint 0 0x60 = none ∧ endpoint 0 0x200 = some ⟨0, 0, 1, 0⟩ ∧ endpoint 0 0x800 = some ⟨0, 1, 0, 0⟩ ∧ endpoint 0 0x400 = some ⟨0, 0, 2, 0⟩
    ∧ (endpointOk ends ends.cx.launch ⟨0, 0, 1, 0⟩ = true ∧ endpointOk ends ends.cx.launch ⟨0, 1, 0, 0⟩ = true ∧ SMap.find ends.cx.boundQs 0 = none ∧ allQueues ends = [])
    ∧ (SMap.find (boundQ []).cx.boundQs 0).isSome = true ∧ (∃ o ∈ allQueues (boundQ []), o.prod = ⟨0, 0, 1, 0⟩)
    ∧ ∃ o ∈ SMap.find (boundQ [⟨7, .ready, (1024, .own 0)⟩]).cx.boundQs 0, o.entries ≠ [] := by decide +kernel

/-! ## Witnesses: engine commands, phases, work objects -/

def tw : TaskWord := { budget := 0, tickets := 1, scount := 0, ssem := 0, wcount := 0, wsem := 0 }
def task (cmd : Cmd) (st : TaskState) (ph : Option Nat) : Task := { num := 1, strand := 0, cmd := cmd, oc := 0, word := tw, bar := false, st := st, phase := ph, lead := 1 }
/-- A context whose queue q holds `n` queued tasks. -/
def queueing (q : Fin 6) (n : Nat) : State := onCtx fun x => { x with queues := x.queues.set q (List.replicate n (task .null .queued none)) }

theorem witness_TaskAcceptance :
    ((queueing 0 15).cx.queued 0 < 16 ∧ 16 ≤ (queueing 0 16).cx.queued 0) ∧ ((queueing 1 15).cx.queued 1 < 16 ∧ 16 ≤ (queueing 1 16).cx.queued 1)
    ∧ ((queueing 5 15).cx.queued 5 < 16 ∧ 16 ≤ (queueing 5 16).cx.queued 5) ∧ (5 : Fin 6).val = 2 + (3 : Fin 4).val := by decide +kernel

/-- Entry 1 of the handle table is live, generation 1, read and write, 256 bytes at the page; entry 2 is not. -/
def handles (rights : BitVec 2) : State :=
  (onCtx fun x => { x with handleBase := 0x20000 }).setHandle { fetchCtx with handleBase := 0x20000 } 1 (hEntry 0 0 1 true rights 255 0xFFFF000000001000)

theorem witness_Handles :
    (1 ≤ (0x1000000000000 : Word).toNat ∧ (0x1000000000000 : Word).toNat ≤ 2 ^ 48) ∧ ¬(1 ≤ (0 : Word).toNat) ∧ ¬((0x1000000000001 : Word).toNat ≤ 2 ^ 48)
    ∧ (fld 0x1001 63 20 = 0 ∧ fld 0x1001 19 12 ≠ 0 ∧ fld 0x1001 19 12 = (hGen ((handles 3).handle (handles 3).cx 1)).toNat ∧ hLive ((handles 3).handle (handles 3).cx 1) = true)
    ∧ ¬(fld 0x1002 19 12 = (hGen ((handles 3).handle (handles 3).cx 2)).toNat)
    ∧ (hLen1 ((handles 3).handle (handles 3).cx 1)).toNat + 1 < 1 + 256 ∧ 0 + 256 ≤ (hLen1 ((handles 3).handle (handles 3).cx 1)).toNat + 1
    ∧ (hRights ((handles 3).handle (handles 3).cx 1)).getLsbD 1 = true ∧ (hRights ((handles 1).handle (handles 1).cx 1)).getLsbD 1 = false := by decide +kernel

/-- Scalar registers 1 to 4 hold the operands of a command. -/
def operands (a b c d : Word) : State := onStrand fun t => (((t.setS 1 a).setS 2 b).setS 3 c).setS 4 d
def cpyoCmd : CpyoCmd := { a := 1, b := 2, c := 3, fol := true, ch := 0, oc := 0, bar := false, task := tw, fo := none }

def goodRows (h : Word) : Prop := 1 ≤ h.toNat % 2 ^ 25 ∧ h.toNat % 2 ^ 25 ≤ 2 ^ 24 ∧ h.extractLsb' 25 7 = 0 ∧ h.extractLsb' 48 16 = 0

theorem witness_CopyCommand :
    ((cpyBase .f2f false).fo = none ∧ (operands 0 64 16 0).cx.queued (Fin.ofNat 6 (2 + (cpyBase .f2f false).ch.val)) < 16)
    ∧ goodRows 1 ∧ goodRows 0x1000000 ∧ goodRows 0xFFFF01000000 ∧ ¬ goodRows 0 ∧ ¬ goodRows 0x1000001 ∧ ¬ goodRows 0x2000001 ∧ ¬ goodRows 0x1000000000001
    ∧ endpointOf (operands 0 64 16 0) true 0 16 false = .ok (.fol 0) ∧ endpointOf (operands 0 64 16 0) true 64 16 true = .ok (.fol 64)
    ∧ (cpyoCmd.fo = none ∧ (operands 0 511 65536 0).cx.queued (Fin.ofNat 6 (2 + cpyoCmd.ch.val)) < 16 ∧ ((operands 0 511 65536 0).getS 2).toNat < 512 ∧ ((operands 0 511 65536 0).getS 3).toNat ≤ 65536
        ∧ 512 ≤ (512 : Word).toNat ∧ 65536 < (65537 : Word).toNat) := by
  unfold goodRows; decide +kernel

def matCmd : MatCmd := { a := 1, b := 2, c := 3, d := 4, oc := 0, bar := false, chk := false, zero := false, ka := false, task := tw, epi := none }
def goodMat (s : State) : Prop :=
  (s.getS 1).toNat % 8 = 0 ∧ (s.getS 4).toNat < 2 ^ 32 ∧ (s.getS 4).toNat % 8 = 0 ∧ (s.getS 2).toNat < 512 ∧ (s.getS 3).toNat % 512 = 0
/-- An operation list of one addition of a constant over FP32 in the folio, and an empty word. -/
def listed (w : VecWord) : State := page.setV 5 w
def goodList : VecWord := (0x01 : VecWord) <<< 256 ||| (0x0008 ||| 0x0008 <<< 16 : VecWord) <<< 64 ||| (0x0140000000000001 : VecWord)

theorem witness_MatrixAndChainCommands :
    (matCmd.epi = none ∧ page.cx.queued 0 < 16 ∧ matCmd.ka = false ∧ ((operands 8 511 512 8).getS 1).toNat < 2 ^ 60)
    ∧ goodMat (operands 8 511 512 8) ∧ ¬ goodMat (operands 4 511 512 8) ∧ ¬ goodMat (operands 8 512 512 8) ∧ ¬ goodMat (operands 8 511 256 8) ∧ ¬ goodMat (operands 8 511 512 4)
    ∧ (∃ k < 4, (page.modCore 2 fun c => { c with fenced := true }).fencedCore k = true) ∧ (¬ ∃ k < 4, page.fencedCore k = true) ∧ page.cx.phase = none
    ∧ chainList (page.getV 5) false = none ∧ (∃ l ∈ chainList ((listed goodList).getV 5) false, l.afol = true ∧ l.buse = false ∧ l.dfol = true) ∧ page.cx.queued 1 < 16 := by
  unfold goodMat; decide +kernel

/-- Result port 2 with a result, with one still held; a producer bound to it. -/
def port (es : List PortElem) : State := onCtx fun x => { x with ports := x.ports.set 2 es }
def bound : State := ends.modCx fun x => { x with boundQs := [(0, { prod := ⟨0, 0, 1, 2⟩, cons := ⟨0, 1, 0, 0⟩, depth := 16 })] }

theorem witness_EngineRegisterResult :
    (page.cx.fwq.length < 16 ∧ 16 ≤ (onCtx fun x => { x with fwq := List.replicate 16 0 }).cx.fwq.length)
    ∧ producerQueue bound 0 0 1 2 ≠ none ∧ (producerQueue (port [⟨9, none⟩]) 0 0 1 2 = none ∧ (port [⟨9, none⟩]).cx.popq = [] ∧ (port [⟨9, none⟩]).cx.ports[(2 : Fin 4)] = [⟨9, none⟩])
    ∧ ∀ e ∈ (port [⟨9, some 1⟩]).cx.ports[(2 : Fin 4)], e.held ≠ none := by decide +kernel

/-- Leaves 0 and 1 resident, leaf 2 spilled; an open phase of one pair with or without a commit asked for. -/
def phased (h : Option Phase) : State := onCtx fun x => { x with leaves := [{ phys := some 3 }, { phys := some 4 }, { phys := none }], phase := h, nextPhase := 8 }
def openPhase (c : Option (Nat × Bool)) : Phase := { num := 7, pairs := [{ front := 0, back := 1, copy := false }], committing := c }
/-- A pair word of the front leaf f and the back leaf b. -/
def pairWord (f b : Nat) : VecWord := BitVec.ofNat 4096 (f + 128 * b)

theorem witness_PhaseSwapAndCommit :
    (phased (some (openPhase none))).cx.phase ≠ none ∧ (phased none).cx.phase = none
    ∧ ((0 : BitVec 6).toNat = 0 ∧ 32 < (33 : BitVec 6).toNat ∧ ¬((1 : BitVec 6).toNat = 0 ∨ 32 < (1 : BitVec 6).toNat) ∧ ¬ 32 < (32 : BitVec 6).toNat)
    ∧ (∀ l ∈ [0, 1], l < (phased none).cx.leaves.length) ∧ (phased none).cx.jointHolds 1 = false ∧ (phased none).cx.leafHere 1 = true ∧ (phased none).cx.leafHere 2 = false
    ∧ ((pairWord 0 1).extractLsb' 0 7).toNat = 0 ∧ ((pairWord 0 1).extractLsb' 7 7).toNat = 1 ∧ (pairWord 0 1).getLsbD 14 = false ∧ (phased none).cx.leaves.length ≤ 3
    ∧ (openPhase none).committing = none ∧ (∀ p ∈ (openPhase none).pairs, (phased (some (openPhase none))).cx.jointHolds p.front = false) := by decide +kernel

/-- A finished copy of the open phase that holds a row which differs from its CRC. -/
def badRow : Ctx :=
  { (phased (some (openPhase none))).cx with
    queues := (Vector.replicate 6 []).set 2 [{ task (.copy (.fol 0) (.fol 64) 64 16 1 0 0 true) .done (some 7) with sums := [(0, 0, 1)] }] }

theorem witness_PhaseSwapAndCommit_commit :
    (phased (some (openPhase (some (0, false))))).findCtx (.resident 0 0) = some (phased (some (openPhase (some (0, false))))).cx
    ∧ (phased (some (openPhase (some (0, false))))).cx.rung = .running ∧ (openPhase (some (0, false))).hold = none
    ∧ (phased (some (openPhase (some (0, false))))).cx.tasks = [] ∧ storesWait (phased (some (openPhase none))) (phased (some (openPhase none))).cx (.opened 7) = false
    ∧ (∀ p ∈ (openPhase none).pairs, (phased (some (openPhase none))).cx.jointHolds p.front = false)
    ∧ (∀ p ∈ (openPhase (some (0, true))).pairs, (phased (some (openPhase (some (0, true))))).cx.leafHere p.front = true)
    ∧ ((commitPhase (phased (some (openPhase (some (0, true))))) (.resident 0 0) (.opened 7)).findCtx (.resident 0 0)).isSome = true
    ∧ rowBadIn (phased (some (openPhase none))).cx (.opened 7) = none ∧ (rowBadIn badRow (.opened 7)).isSome = true := by decide +kernel

/-- A running copy in the open phase, and a joint product whose front leaf it holds. -/
def running : State :=
  (phased (some (openPhase none))).modCx fun x => { x with queues := x.queues.set 2 [task (.copy (.fol 0) (.fol 64) 64 16 1 0 0 false) .running (some 7)] }
def aborting (classD : Bool) : AbortOf := { code := 0x0A, engine := 2, stage := 1, addr := 0x42, strand := 0, classD := classD, hold := none, halt := false }

theorem witness_PhaseAborts :
    (∃ e ∈ taskAt running (.resident 0 0) 2 0, e.2.committed = false ∧ e.2.st = .running ∧ e.2.written = false)
    ∧ (∃ e ∈ taskAt (queueing 2 1) (.resident 0 0) 2 0, e.2.st ≠ .running ∧ e.2.stoppedAt ≠ some (queueing 2 1).time)
    ∧ running.cx.struckNow running.time (.opened 7) = none
    ∧ (running.modCx fun x => { x with struck := some (running.time, .opened 7, 0x24, false) }).cx.struckNow running.time (.opened 7) = some (0x24, false)
    ∧ running.findCtx (.resident 0 0) = some running.cx ∧ running.cx.phase = some (openPhase none) ∧ (openPhase none).hold = none ∧ (aborting true).halt = false
    ∧ (openPhase none).run + 1 < running.cx.limit.toNat ∧ (aborting false).classD = false := by decide +kernel

/-- An event that waits for delivery, with its strand alive, and with none alive. -/
def delivering (present : Bool) : State :=
  (onCtx fun x => { x with pendD := [{ strand := 0, cause := 0x10A, addr := 0x99, phase := .opened 7 }] }).modSt fun t => { t with present := present }
/-- A strand about to issue PREF, and one that has met a mismatch there. -/
def prefetching : State := { State.reset.withFetchWord 128 0xE485011000000001000000040 with agenda := [] }
def mismatched : State := prefetching.modSt fun t => { t with mismatchAt := some t.pc }

/-- The event of strand 0, which has stopped, with strand 1 alive. -/
def elsewhere : State := (delivering false).modCx fun x => { x with strands := x.strands.set 1 { present := true } }

theorem witness_EventDelivery :
    ((delivering true).findCtx (.resident 0 0) = some (delivering true).cx ∧ (delivering true).cx.rung = .running ∧ (delivering true).cx.pendD.length = 1
      ∧ (delivering true).cx.strands[(0 : Fin 4)].live = true ∧ (delivering true).cx.strands[(0 : Fin 4)].level = 0 ∧ (delivering true).cx.strands[(0 : Fin 4)].ahead = [])
    ∧ (∀ i : Fin 4, (delivering false).cx.strands[i].live = false)
    ∧ ((delivering true).modSt fun t => { t with level := 1 }).cx.strands[(0 : Fin 4)].level ≠ 0
    ∧ (elsewhere.cx.strands[(1 : Fin 4)].live = true ∧ elsewhere.cx.strands[(0 : Fin 4)].live = false ∧ ∀ j < (1 : Fin 4), elsewhere.cx.strands[j].live = false)
    ∧ (mismatched.cx.strands[strandIx mismatched.focus].mismatchAt = some mismatched.cx.strands[strandIx mismatched.focus].pc ∧ readyStrand mismatched { core := 0, slot := 0, strand := 0 } = true)
    ∧ (match prepare prefetching { core := 0, slot := 0, strand := 0 } with | .go _ _ _ i _ => upperHalf i | .stop _ => false) = true
    ∧ prefetching.findCtx (.resident 0 0) = some prefetching.cx ∧ prefetching.cx.rung = .running
    ∧ running.cx.strands[strandIx running.focus].mismatchAt ≠ some running.cx.strands[strandIx running.focus].pc ∧ page.cx.phase = none := by decide +kernel

/-- A launch record of one unit on core 5 with one strand at 0x1000, and variants. -/
def record (graph core2 : Word) : List Word := [1 ||| (if core2 = 0 then 0 else 0x10000), 1, 0x100000000, 0, 0x1000, 0, 0, 0, 0, graph, 0, 0, 0, 0, 0, 0, 5 ||| core2 <<< 16]
def launching : State := page.setPart 0 { quads := 3 }
/-- A table of work objects with every place taken, the job's own record first. -/
def full : State := { launching with works := (jobKey 0, { level := 4 }) :: (List.range 65535).map fun i => (10 ^ 12 + i, { level := 1 }) }

theorem witness_LaunchAndUnits_record :
    parseRecord launching (makerOf launching.cx) [0] = none
    ∧ (∃ r ∈ parseRecord launching (makerOf launching.cx) (record 0 0), r.graph = 0 ∧ r.spec.cores = [5] ∧ r.spec.cores.Nodup ∧ (∀ c ∈ r.spec.cores, coreAllowed launching (makerOf launching.cx) c = true)
        ∧ jobOpen launching (makerOf launching.cx).job = true ∧ r.spec.preds = [] ∧ launching.works.length + workNeed launching (makerOf launching.cx).job ≤ 65536)
    ∧ (∃ r ∈ parseRecord launching (makerOf launching.cx) (record 0 5), ¬ r.spec.cores.Nodup)
    ∧ (∃ r ∈ parseRecord launching (makerOf launching.cx) (record 9 0), r.graph ≠ 0 ∧ openOf launching 2 r.graph (makerOf launching.cx).job = false) := by decide +kernel

theorem witness_WorkObjectResult_full : ¬ full.works.length + workNeed full full.cx.job ≤ 65536 ∧ jobOpen full full.cx.job = true := by
  have hl : full.works.length = 65536 := by simp only [full, List.length_cons, List.length_map, List.length_range]
  have hw : workNeed full full.cx.job = 1 ∧ jobOpen full full.cx.job = true := by decide +kernel
  exact ⟨by omega, hw.2⟩

theorem witness_LaunchAndUnits_full : 65536 < full.works.length + workNeed full 0 ∧ jobOpen full 0 = true := by
  have hl : full.works.length = 65536 := by simp only [full, List.length_cons, List.length_map, List.length_range]
  have hw : workNeed full 0 = 1 ∧ jobOpen full 0 = true := by decide +kernel
  exact ⟨by omega, hw.2⟩

theorem witness_LaunchAndUnits_fetch :
    ∃ r ∈ (launching.readVa launching.agent .rd 0xFFFF000000001400 128).toOption, hostWaits launching launching.cx r.1 false = false
      ∧ recordTail (wordsOf r.2) = 8 ∧ (counted launching r.1 false 128).agent = launching.agent
      ∧ ∃ q ∈ ((counted launching r.1 false 128).readVa launching.agent .rd 0xFFFF000000001480 8).toOption, hostWaits (counted launching r.1 false 128) (counted launching r.1 false 128).cx q.1 false = false := by
  decide +kernel

/-- A unit that waits for core 5, and a unit that has finished. -/
def spec : LaunchSpec :=
  { cores := [5], nstrands := 1, leaves := 2, opslots := 1, tickets := 1, currency := 1, latency := 0, budget := 1, seedv := false, seed := 0, entries := [0x1000], inits := [], sems := [],
    preds := [], priv := 0, part := 0, asid := 0, job := 0, vi := none, prot := false, housekeeping := false }
def unitWork : Work := { level := 1, sealed_ := true, total := 1, spec := some spec, unplaced := [0] }
def placing : State :=
  { launching.modCore 5 fun k => { k with zeroising := false, pool := k.pool.set 0 { st := .free, ma := 0x200000 } } with
    works := [(workKey 1 9, unitWork)], waitUnits := [{ launch := 9, unit := 0, core := 5 }] }
def finished : State := onCtx fun x => { x with strands := Vector.replicate 4 {} }

theorem witness_LaunchAndUnits_units :
    (nextUnit placing 5 = some ({ launch := 9, unit := 0, core := 5 }, unitWork, spec) ∧ (placing.core 5).emptySlot = some 0 ∧ (placing.core 5).poolEntry .free = some 0
      ∧ (placing.core 5).admits false = true ∧ spec.opslots ≤ (placing.core 5).freeSlots.length ∧ (placing.core 5).freeLeaves.length ≥ 2)
    ∧ nextUnit page 5 = none ∧ (finished.cx.finished = true ∧ finished.cx.rung ≠ .shadowed ∧ finished.findCtx (.resident 0 0) = some finished.cx) ∧ page.cx.finished = false := by
  decide +kernel

theorem witness_LaunchAndUnits_leaves : gatherLeaves placing 5 2 (.place 9 0) = (placing, some [0, 1]) := by
  have h : 2 ≤ ((placing.core 5).leavesFor (.place 9 0)).length ∧ ((placing.core 5).leavesFor (.place 9 0)).take 2 = [0, 1]
      ∧ (placing.modCore 5 fun k => { k with given := k.given.filter fun g => g.2 ≠ .place 9 0 }) = placing := by decide +kernel
  simp only [gatherLeaves, h.1, h.2.1, h.2.2, if_true]

/-- Work phase 9 of job 0, open. -/
def working : State := { page with works := [(jobKey 0, { level := 4 }), (workKey 3 9, { level := 3 })] }

/-- Graph 9 of job 0, open. -/
def graphed : State := { page with works := [(jobKey 0, { level := 4 }), (workKey 2 9, { level := 2 })] }

theorem witness_WorkObjectResult :
    2 ^ 32 ≤ (0x100000000 : Word).toNat ∧ (jobOpen page page.cx.job = true ∧ page.works.length + workNeed page page.cx.job ≤ 65536)
    ∧ (openOf working 3 9 working.cx.job = true ∧ jobOpen working working.cx.job = true) ∧ openOf working 2 9 working.cx.job = false
    ∧ (SMap.find working.works (workKey 3 (9 : Word).toNat)).isSome = true ∧ namedWork working 0 = none ∧ (namedWork working 0x3000000000000009).isSome = true
    ∧ (2 ^ 32 ≤ (0x100000000 : Word).toNat ∧ openOf working 3 8 working.cx.job = false ∧ (8 : Word) ≠ 0) ∧ openOf working 2 9 working.cx.job = false
    ∧ (∃ w ∈ SMap.find working.works (workKey 3 (9 : Word).toNat), w.sealed_ = false ∧ w.job = working.cx.job)
    ∧ (∃ w ∈ SMap.find graphed.works (workKey 2 (9 : Word).toNat), w.sealed_ = false ∧ w.job = graphed.cx.job)
    ∧ jobOpen { page with works := [(jobKey 0, { level := 4, sealed_ := true })] } page.cx.job = false := by decide +kernel

/-! ## Witnesses: vectors and ligature words -/

theorem witness_VectorLaneResult : ETy.i64.inF = false ∧ ETy.f32.inF = true ∧ ETy.n16.inN = true := by decide
/-- A mask with no lane, and one whose first lane is the last of 64. -/
def masked (m : MaskWord) : State := page.setM 1 m
theorem witness_VectorMaskResult :
    (∀ i < ETy.i64.lanes, ((masked 0).getM 1).getLsbD i = false)
    ∧ (63 < ETy.i64.lanes ∧ ((masked 0x8000000000000000).getM 1).getLsbD 63 = true ∧ ∀ j < 63, ((masked 0x8000000000000000).getM 1).getLsbD j = false) := by decide +kernel

/-- FP32 values all 2^100, out of the range of FP16, under the policy that traps; and all zero. -/
def cvtDown (pol : Pol) : VcvtOp := { cvt with td := .f16, ts := .f32, pol := pol }
def huge : State := (page.setV 1 0x71800000).setM 2 1
theorem witness_ConversionResult :
    ((cvtDown .trap).xd = false ∧ 0 < (cvtShape (cvtDown .trap)).lanes ∧ huge.laneOn none 0 = true
      ∧ (convertTo .f16 .trap false (decodeElem .f32 (huge.glane 32 1 (cvtShape (cvtDown .trap)).gs 0))).2 = true)
    ∧ (cvtShape (cvtDown .sat)).dst0 + (cvtShape (cvtDown .sat)).lanes ≤ (cvtShape (cvtDown .sat)).gd * ETy.f16.lanes
    ∧ (convertTo .f16 .sat false (decodeElem .f32 0)).2 = false ∧ page.getV 1 = 0 := by decide +kernel

/-- Quantised blocks: none meets an event where every source is zero; one does under the trapping policy where a source is a NaN. -/
def blocked (pol : Pol) : VcvtOp := { cvt with td := .e4m3, ts := .f32, xd := true, scale := 9, pol := pol }
theorem witness_ConversionResult_blocks :
    (blocked .sat).xd = true ∧ 0 < (cvtShape (blocked .sat)).lanes / 32 ∧ (cvtShape (blocked .sat)).dst0 + (cvtShape (blocked .sat)).lanes ≤ (cvtShape (blocked .sat)).gd * ETy.e4m3.lanes
    ∧ (mxQuantise .e4m3 .sat (List.replicate 32 (.fin false 0 0))).2.2 = false ∧ (mxQuantise .e4m3 .trap (List.replicate 32 .nan)).2.2 = true
    ∧ ∀ k < (cvtShape (blocked .sat)).gd, (blocked .sat).scale ≠ vplus (blocked .sat).d k := by decide +kernel

theorem witness_ReductionSpecialResult :
    (∀ i < ETy.i64.lanes, ¬ (masked 0).laneOn (some 1) i = true) ∧ ¬ (∀ i < ETy.i64.lanes, ¬ (masked 1).laneOn (some 1) i = true)
    ∧ ofF32 0x7FC00000 = .nan ∧ (∃ e, ofF32 0xBF800000 = .fin true 0x800000 e) := by
  refine ⟨by decide +kernel, by decide +kernel, by decide +kernel, -23, by decide +kernel⟩

/-- Products that fit their slots and that do not, under the guard's trap and without it. -/
def ligWords (v : VecWord) (trap : Bool) : State := ((onCtx fun x => { x with ligTrap := trap }).setV 4 v).setV 5 v
theorem witness_LigatureResult :
    ligGuard 64 false ((ligWords 1 true).getV 4) ((ligWords 1 true).getV 5) = false
    ∧ ligGuard 64 false ((ligWords 0x7FFFFFFFFFFFFFFF true).getV 4) ((ligWords 0x7FFFFFFFFFFFFFFF true).getV 5) = true
    ∧ (ligWords 1 true).cx.ligTrap = true ∧ (ligWords 1 false).cx.ligTrap = false ∧ (8 ≤ 64 ∧ 64 ≤ 64) ∧ (64 : BitVec 11).toNat ≤ ETy.i64.lanes := by decide +kernel

/-! ## Witnesses: the events -/

theorem witness_DrawByValue : ([0, 0] : List Nat).sum = 0 ∧ 0 < ([0, 3] : List Nat).sum := by decide

/-- A ready task of the ligature engine on core 0, which its unit draws; the same, long overdue, at the eighth draw. -/
def ready (cnt : Word) (late : Bool) : State :=
  { (onCtx fun x => { x with queues := x.queues.set 0 [task .null .ready none], admitted := late, bound := 4 }).modCore 0 fun k =>
      { k with tdu := k.tdu.set 0 { k.tdu[0] with cnt := cnt } } with time := 100 }
/-- The same task running since 0, on a booted part. -/
def taskRunning : State := { queueing 0 0 with time := 5000 }.modCx fun x => { x with queues := x.queues.set 0 [task .null .running none] }

theorem witness_TaskEvents_draw :
    (∃ e ∈ pickEntry (ready 0 false) 0 .le, e.2.2 = false ∧ e.1.members.length = 1) ∧ ∃ e ∈ pickEntry (ready 7 true) 0 .le, e.2.2 = true ∧ e.1.members.length = 1 := by decide +kernel

/-- Two copies of one channel, both started; a context where a task pushes to a queue that is gone. -/
def twoCopies : State :=
  onCtx fun x => { x with queues := x.queues.set 2 [{ task (.copyO (.fol 0) 0 64) .running none with started := true }, { task .null .running none with num := 2, started := true }] }
/-- A copy that stands at a memory access; two products of one C, the older not written. -/
def stalling : State := { onCtx (fun x => { x with queues := x.queues.set 2 [task (.copy (.mem 0xFFFF000000001400 0 0) (.fol 64) 64 16 1 0 0 false) .running none] }) with time := 5000 }
def product (num : Nat) : Task := { task (.matrix (.fol 0) none 0 0 64 false false none) .running none with num := num }
def products : State := onCtx fun x => { x with queues := x.queues.set 0 [product 1, product 2] }
def pushing : Task := { task (.copyO (.fol 0) 0 64) .running none with pushes := true }
def unbound : State := onCtx fun x => { x with queues := x.queues.set 2 [pushing] }

theorem witness_TaskEvents_task :
    (∃ e ∈ taskAt taskRunning (.resident 0 0) 0 0, e.2.cmd.jointTag = none ∧ e.2.st = .running ∧ hostLate taskRunning 0 e.1 e.2 = false ∧ e.2.startAt = 0
      ∧ (match runCmd taskRunning (.resident 0 0) e.1 e.2 with | .ok (_, none) => true | _ => false) = true
      ∧ (match pushResult taskRunning (.resident 0 0) 0 e.1 e.2 none with | .ok _ => true | _ => false) = true)
    ∧ (∃ e ∈ taskAt taskRunning (.resident 0 0) 0 0, channelBusy e.1 0 e.2 = false) ∧ channelBusy twoCopies.cx 2 { task .null .running none with num := 2 } = true
    ∧ (match pushResult unbound (.resident 0 0) 2 unbound.cx pushing (some 0) with | .closed => true | _ => false) = true
    ∧ ((∃ e ∈ taskAt taskRunning (.resident 0 0) 0 0, cWaits e.1 e.2 = false ∧ e.2.written = false ∧ ownWaits taskRunning (.resident 0 0) e.2 = false) ∧ cWaits products.cx (product 2) = true)
    ∧ (∃ e ∈ taskAt stalling (.resident 0 0) 2 0, e.2.st = .running ∧ mayStall stalling { ref := .resident 0 0, q := 2, task := e.2 } = true ∧ max e.2.startAt e.2.movedAt + e.2.lim ≤ stalling.time)
    ∧ (taskRunning.core 0).stall.toNat * 64 ≤ taskRunning.time - 0 ∧ (taskRunning.core 0).bcap.toNat = 65536 ∧ taskRunning.cx.budget.toNat = 65536 ∧ taskRunning.time < 0 + 65536
    ∧ 0 + 65536 ≤ ({ taskRunning with time := 65536 } : State).time := by decide +kernel

/-- Four members of quad 0 with one tag, running, and ready with formats that agree or differ. -/
def member (st : TaskState) (fmt : Word) : Task := { task (.matrix (.fol 0) none 0 0 64 false false (some 3)) st none with fmt := some fmt }
def joint (st : TaskState) (fmt : Nat → Word) : State :=
  (List.range 4).foldl (fun s c => (s.modCore c fun k => { k with zeroising := false }).setCtx c 0
    { fetchCtx with uid := 1024 + c, unit := c, leaves := [{ phys := some 0 }], queues := (Vector.replicate 6 []).set 0 [member st (fmt c)] }) page

theorem witness_TaskEvents_joint :
    (jointRunning (joint .running fun _ => 0) 0).length = 4 ∧ (jointRunning page 0).length ≠ 4
    ∧ ((readySet (joint .ready fun c => BitVec.ofNat 64 c) 0 .le).find? (fun e => e.members.length = 4 && !formatsAgree e.members)).isSome = true
    ∧ (∀ e ∈ readySet (joint .ready fun _ => 0) 0 .le, formatsAgree e.members = true) ∧ (∃ e ∈ pickEntry (joint .ready fun _ => 0) 0 .le, e.1.members.length = 4) := by decide +kernel

/-- A requested page: resident; absent with a frame in the pool; absent with none. -/
def requested (s : State) (pool : SMap (List Word)) : State := s.modDie 0 fun d => { d with fetching := [(0, 0x1000)], nearPool := pool }
def backed : State := (page.setRaw 0x40000E 4)

theorem witness_PageEvents_request :
    (0, (0x1400 : BitVec 48).setWidth 64 &&& ~~~(0xFFF : Word)) ∈ ((requested page []).die 0).fetching
    ∧ missingPage (requested page []) 0 0 0x1400 = none ∧ (missingPage (requested backed []) 0 0 0x1400).isSome = true ∧ ((requested backed []).die 0).starved = []
    ∧ (∃ x ∈ ((requested page []).xlateAt 0 0 none 0x1400).toOption, x.resident = true)
    ∧ (∃ x ∈ ((requested backed [(0, [0x700000])]).xlateAt 0 0 none 0x1400).toOption, x.resident = false ∧ (takeFrame (requested backed [(0, [0x700000])]) 0 (leafSize x.hent)).isSome = true)
    ∧ (∃ x ∈ ((requested backed []).xlateAt 0 0 none 0x1400).toOption, x.resident = false ∧ takeFrame (requested backed []) 0 (leafSize x.hent) = none
        ∧ evictable (requested backed []) 0 (leafSize x.hent) = []) ∧ (page.die 0).fetching = [] := by decide +kernel

/-- Whether the backing cannot be read yet is a free choice, for a page of the host tier (log 74). -/
theorem witness_PageEvents_late : fillLate backed 0 0 0x0004000000602000 = Config.atsRefuses backed.tick (maKey 0 (backed.maFor 0 0x0004000000602000)) := by
  have h : tierVi backed 0 (baseOf 0x0004000000602000) = none ∧ decide (4 ≤ baseOf 0x0004000000602000 / 2 ^ 48) = true
      ∧ baseOf 0x0004000000602000 = 0x0004000000602000 := by decide +kernel
  unfold fillLate
  rw [h.1, h.2.1, h.2.2, Bool.true_and]
  exact Bool.false_or _

/-- A page whose starvation was reported at time 0, at 2^20 cycles; an epoch that has ended, with a pinned page in the tracker. -/
def starved : State := { backed.modDie 0 fun d => { d with starved := [(0, 0x1000, 0)] } with time := 2 ^ 20 }
def epoch : State :=
  { pinned.modDie 0 fun d => { d with placeEn := true, tracked := [{ asid := 0, off := 0x1000, counts := Vector.replicate 4 0 }] } with time := 1024 * 64 }

theorem witness_PageEvents_starved :
    (starved.die 0).starved.find? (fun e => (e.1, e.2.1) == (0, 0x1000)) = some (0, 0x1000, 0) ∧ 0 + 2 ^ 20 ≤ starved.time
    ∧ (∃ x ∈ (starved.xlateAt 0 0 none 0x1400).toOption, x.resident = false ∧ takeFrame starved 0 (leafSize x.hent) = none)
    ∧ (missingPage starved 0 0 0x1400).isSome = true
    ∧ ((epoch.die 0).placeEn = true ∧ (epoch.die 0).epoch ≠ 0 ∧ (epoch.die 0).epochAt + 1024 * (epoch.die 0).epoch.toNat ≤ epoch.time)
    ∧ (∃ x ∈ (epoch.xlateAt 0 0 none 0x1000).toOption, ∃ t ∈ (epoch.die 0).tracked, placeMove epoch 0 t x = .stay)
    ∧ (256 ≤ 257 * 1 ∧ 4 < 5) := by decide +kernel

/-- A leaf drawn for a spill; a request that waits for a leaf; a context that wants its spilled leaf. -/
def spilling : State := page.modCore 0 fun k => { k with spills := [{ phys := 3, block := 0x200000, leaf := 1 }], drawWaits := [.reload 1024 1] }
def wanting : State := leafed.modSt fun t => { t with wait := some .retry, wants := [1] }
def asking : State := wanting.modCore 0 fun k => { k with drawWaits := [.reload 1024 1] }

theorem witness_Residency_leaf :
    ((spilling.core 0).spills.find? (fun p => p.phys == 3) = some { phys := 3, block := 0x200000, leaf := 1 }
      ∧ spilling.ttripHold = false ∧ (spilling.core 0).zeroising = false ∧ runningOn spilling 0 .ce < (spilling.core 0).lanes.toNat
      ∧ spilling.maHeld (0x200000 + 16384) 16384 = false ∧ (spilling.core 0).badSectors 3 = [])
    ∧ ¬({ spilling with ttripHold := true } : State).ttripHold = false
    ∧ ((spilling.core 0).drawWaits = [.reload 1024 1] ∧ (LeafReq.reload 1024 1).live spilling = false) ∧ (page.core 0).drawWaits = []
    ∧ ((asking.core 0).drawWaits = [.reload 1024 1] ∧ (LeafReq.reload 1024 1).live asking = true ∧ (asking.core 0).leavesFor (.reload 1024 1) ≠ [])
    ∧ (wanting.findCtx (.resident 0 0) = some wanting.cx ∧ wanting.cx.wantsLeaf 1 = true ∧ wanting.cx.leaves[1]? = some { phys := none, pinned := true }
        ∧ (wanting.core 0).spillOf wanting.cx.block 1 = none ∧ wanting.maHeld (leafBacking wanting.cx 1) 16384 = false
        ∧ ((wanting.core 0).leavesFor (.reload wanting.cx.uid 1)).head? = some 0) ∧ leafed.cx.wantsLeaf 1 = false := by decide +kernel

/-- Every physical leaf taken, with one more leaf wanted: with one that may be drawn, and with all pinned. -/
def crowded (pinned : Bool) : State :=
  ((onCtx fun x => { x with leaves := (List.range 96).map (fun i => { phys := some i, pinned := pinned }) ++ [{ phys := none }] }).modSt fun t =>
    { t with wait := some .retry, wants := [96] }).modCore 0 fun k => { k with drawWaits := [.reload 1024 96] }
theorem witness_Residency_draw :
    (LeafReq.reload 1024 96).live (crowded false) = true ∧ ((crowded false).core 0).leavesFor (.reload 1024 96) = [] ∧ (inverseDraw (crowded false) 0 (.reload 1024 96)).isSome = true
    ∧ (inverseDraw (crowded true) 0 (.reload 1024 96)).isNone = true := by decide +kernel

theorem witness_Residency_ladder :
    (∃ x ∈ (second .soft (some .preempt)).findCtx (.resident 0 1), x.rung = .soft ∧ x.intent = some .preempt ∧ x.atBoundary = true ∧ x.graceAt = some 5)
    ∧ (∃ x ∈ (second .halting (some .halt)).findCtx (.resident 0 1), x.rung = .halting ∧ x.intent ≠ some .cancel ∧ x.killAt = some 9)
    ∧ (∃ x ∈ (second .halting (some .cancel)).findCtx (.resident 0 1), x.rung = .halting ∧ x.intent = some .cancel)
    ∧ (∃ x ∈ (second .running none).findCtx (.resident 0 1), x.rung ≠ .halting ∧ x.rung ≠ .soft)
    ∧ (page.time < 5 ∧ 9 ≤ ({ page with time := 9 } : State).time)
    ∧ (∃ x ∈ (second .halting none).findCtx (.resident 0 1), x.diag = false ∧ ∀ i : Fin 4, x.strands[i].live = true → x.strands[i].ahead = [])
    ∧ ∃ x ∈ ((second .soft (some .preempt)).modCtx 0 1 fun x => { x with diag := true }).findCtx (.resident 0 1), x.diag = true := by decide +kernel

/-- A context swapped out; a part with no empty slot admitted. -/
def swapped : State := page.modCore 0 fun k => { k with shadows := [(0, { fetchCtx with uid := 4096, rung := .shadowed })] }
theorem witness_Residency_swap :
    ((second .halted (some .preempt)).core 0).freeShadow = some 0
    ∧ (∃ x ∈ (second .halted (some .preempt)).findCtx (.resident 0 1), x.rung = .halted ∧ x.intent = some .preempt ∧ x.diag = false)
    ∧ ((swapped.core 0).emptySlot = some 1 ∧ (swapped.core 0).nextBack.isSome = true ∧ nextUnit swapped 0 = none)
    ∧ (nextUnit placing 5).isSome = true := by decide +kernel

/-- A running job of two units; the same at its last unit. -/
def blotting (done : BitVec 24) : State :=
  page.modDie 0 fun d => { d with blotJobs := [{ num := 3, extents := [.mem 0x200000 2] }], blotRun := true, blotTotal := 2, blotDone := done }
theorem witness_BlotterEvents :
    (((blotting 0).die 0).blotRun = true ∧ ((blotting 0).die 0).blotCut = false ∧ (unitAt [.mem 0x200000 2] ((blotting 0).die 0).blotDone.toNat).isSome = true
      ∧ (unitAt [.mem 0x200000 2] ((blotting 1).die 0).blotDone.toNat).isSome = true)
    ∧ (page.die 0).blotRun = false ∧ 4 ≤ page.boot ∧ State.reset.boot < 4 ∧ ((page.modDie 0 fun d => { d with blotCut := true }).die 0).blotCut = true := by decide +kernel

/-- The part at boot step 2 from power-on, and from another reset; at step 5. -/
theorem witness_ResetAndBoot :
    (State.reset.boot = 2 ∧ State.reset.powerUp = true) ∧ (({ State.reset with powerUp := false } : State).boot = 2 ∧ ({ State.reset with powerUp := false } : State).powerUp = false)
    ∧ (({ State.reset with boot := 5 } : State).boot = 5 ∧ marchOver { State.reset with boot := 5 } = true) ∧ page.boot ≠ 5
    ∧ marchOver (page.modCtx 0 0 fun x => { x with housekeeping := true }) = false
    ∧ ((page.core 7).contexts 7 = [] ∧ (page.core 7).zeroising = true ∧ (page.core 0).zeroising = false)
    ∧ (keyNear 5 = true ∧ 5 / 2 ^ 52 = page.package) ∧ (keyNear (2 ^ 52) = true ∧ 2 ^ 52 / 2 ^ 52 ≠ page.package) := by decide +kernel

/-- R112: what a core reports, and whether its records are known. -/
theorem witness_ResetAndBoot_fate :
    (({} : Core).done = false) ∧ (∃ k : Core, k.done = true ∧ k.ovf = false ∧ k.unrep = false ∧ k.fail = true ∧ ∃ r ∈ k.repair, r ∉ ([] : List Word))
    ∧ ∃ k : Core, k.done = true ∧ k.ovf = false ∧ k.unrep = false ∧ k.fail = false ∧ ∀ r ∈ k.repair, r ∈ [(3 : Word)] :=
  ⟨rfl, ⟨{ done := true, fail := true, repair := [3] }, rfl, rfl, rfl, rfl, 3, by simp, by simp⟩, { done := true, repair := [3] }, rfl, rfl, rfl, rfl, by simp⟩

/-- VI 3 takes events, and its semaphore slot 0 is bound to unit 0 of launch 1. -/
def host : State := page.setViAt 3 { en := true, bind := [(0, 0x8005000000000001)] }
theorem witness_HostAndPartitions_host :
    7 ≤ host.boot ∧ ((host.vi 3).en = true ∧ (host.vi 3).stop = false ∧ (host.vi 3).window[(7 : Fin 8)].pend = false) ∧ (page.vi 3).en = false
    ∧ boundUnit host (host.vi 3) (SMap.get 0 (host.vi 3).bind 0) = some (.resident 0 0) ∧ boundUnit host (host.vi 3) (SMap.get 0 (host.vi 3).bind 63) = none
    ∧ ((host.vi 3).stopping = false ∧ jobContexts host 9 = []) ∧ 3 < 512
    ∧ ((host.setViAt 3 { (host.vi 3) with window := (host.vi 3).window.set 0 { pend := true } }).vi 3).window[(0 : Fin 8)].pend = true
    ∧ (∀ e ∈ host.vis, e.1 / 256 = (1 : Fin 2).val → e.2.outbox = []) ∧ ((0x8000000000000000 : Word).getLsbD 62 = false)
    ∧ (host.time / 12800 ≤ host.windows[(1 : Fin 2)]) ∧ ({ host with time := 12800 } : State).windows[(1 : Fin 2)] < 12800 / 12800 := by decide +kernel

theorem witness_HostAndPartitions_stop : viWaits (startStop host 3) (some 3) true = false := by
  have h : (SMap.get {} (startStop host 3).vis 3).qoswr = 0 ∧ (SMap.get {} (startStop host 3).vis 3).qosxl = 0 := by decide +kernel
  generalize startStop host 3 = s at h ⊢
  unfold viWaits Vi.waits
  rw [Option.any_some, h.1, h.2]
  simp

/-- Partition 1 wants a quad of partition 0; partition 0 gives up the quad of its context. -/
theorem witness_HostAndPartitions_quads :
    (15 < 16) ∧ quadsRefused page 1 (newQuads (page.part 1).quads false 1) = true ∧ quadsRefused page 0 (newQuads (page.part 0).quads false 0) = true
    ∧ quadsRefused page 1 (newQuads (page.part 1).quads true 1) = false := by decide +kernel

/-- A partition in reset, with and without a stale result left; groups owned and free; a job that a VI names and that none does. -/
def resetting : State := page.setPart 0 { quads := 1, busy := true, gen := 1 }
theorem witness_HostAndPartitions_reset :
    ((resetting.part 0).busy = true ∧ staleLeft resetting 0 = false) ∧ staleLeft { resetting with results := [result] } 0 = true ∧ (page.part 0).busy = false
    ∧ ((grouped [] []).group 7).owner = some (Fin.ofNat 16 0) ∧ ((grouped [me true true] []).group 7).members ≠ [] ∧ (page.group 7).owner = none
    ∧ (∃ v ∈ host.vis, v.2.en = true ∧ v.2.job = 0) ∧ (∀ v ∈ host.vis, v.2.en = false ∨ v.2.job ≠ 9)
    ∧ (SMap.find working.works (workKey 4 (0 : BitVec 16).toNat)).isSome = true ∧ working.vis = [] ∧ SMap.find working.works (workKey 4 9) = none := by decide +kernel

/-- A port in each lane state, retraining, one short of sixteen failures, with its counter at each bound. -/
def portAt (p : Port) : State := page.setPort 2 p
theorem witness_PortsAndHeat :
    (7 : Nat) ∉ ((portAt {}).port 2).failedLanes ∧ ((portAt {}).port 2).lanes = .full ∧ ((portAt { lanes := .erased }).port 2).lanes = .erased
    ∧ ((portAt { retraining := true, wide := true }).port 2).retraining = true ∧ ((portAt { authFails := 15 }).port 2).authFails + 1 = 16
    ∧ ([(15 : Byte)].headD 0).toNat % 16 = 15 ∧ ([(0 : Byte)].headD 0).toNat % 16 ≠ 15
    ∧ ((portAt { egress := { counter := 0x800000000000 } }).port 2).egress.counter.toNat = 2 ^ 47
    ∧ ((portAt { egress := { counter := 0xFFFFFFFFFFFF } }).port 2).egress.counter.toNat = 2 ^ 48 - 1
    ∧ ((portAt {}).port 2).ingress.exhausted = false ∧ ((portAt {}).port 2).ingress.counter.toNat < 2 ^ 48 - 1
    ∧ ((portAt { ingress := { newKey := true } }).port 2).ingress.newKey = true
    ∧ (((host.setViAt 3 { tdisp := true }).vi 3).tdisp = true ∧ 3 / 256 = 0) ∧ (host.vi 3).tdisp = false ∧ (3 : Fin 4) ≠ 0 := by decide +kernel

theorem witness_PortsAndHeat_heat :
    ({ page with ttripAt := some 0, time := 16000000, ttripIn := [(0, 5)] } : State).ttripAt = some 0 ∧ 0 + 16000000 ≤ (16000000 : Nat) ∧ page.ttripAt = none
    ∧ (∀ e ∈ [((0 : Nat), (5 : Nat))], e = (0, 5)) ∧ ∃ e ∈ [((0 : Nat), (5 : Nat))], e ≠ (1, 5) := by decide +kernel

/-! ## Witnesses: steps, encodings, invariants -/

/-- The word of NOP placed where the next step fetches. -/
def nopWord : Nat := 0xE000000000000000000000000
def fetching : State := State.reset.withFetchWord 128 nopWord
theorem witness_StepRunsDecoded :
    fetching.agenda = [.strand { core := 0, slot := 0, strand := 0 }] ∧ fetching.poweredOff = false ∧ fetching.boot ≠ 1 ∧ canIssue { fetching with agenda := [] } { core := 0, slot := 0, strand := 0 } = true ∧ able { fetching with agenda := [] } { core := 0, slot := 0, strand := 0 } = true
    ∧ fetching.fetchWord (fetching.agentAt { core := 0, slot := 0, strand := 0 }) fetching.st.pc = .ok (BitVec.ofNat 128 nopWord)
    ∧ (∃ ws ∈ (fetching.fetchSeq (fetching.agentAt { core := 0, slot := 0, strand := 0 }) fetching.st.pc).toOption, decode ws = .ok (Sched.plain, .nop))
    ∧ Sched.plain.sync = false ∧ fetching.cx.trusted = false ∧ guardOn fetching.st Sched.plain = true ∧ stateOk fetching.st 0 .nop = true ∧ instrLevel .nop ≤ fetching.cx.priv.val ∧ readsPoison fetching.cx .nop = false
    ∧ fetching.st.ahead = [] ∧ fetching.st.tracer = {} ∧ (∀ k : Fin 4, (fetching.cx.strands[k].flight.all fun f => f.vals.isEmpty) = true) ∧ levelAt fetching .nop ≤ fetching.cx.priv.val
    ∧ isEvent .hbmTrainingComplete = true ∧ user.cx.priv.val < instrLevel (.ctxctlSoft 1 2) := by decide +kernel

/-- The step that the statement speaks of: NOP at the first fetch moves the pc on by one word. -/
theorem test_step_nop : (match step fetching with | .next t => decide (t.st.pc = 0xFFFF000000001010 ∧ t.tick = 1) | _ => false) = true := by decide +kernel

theorem witness_DecodeEncode :
    Instr.wellFormedWith (.addi 3 1 0xFFFFFFFFFFFFFFF8 false true) Sched.plain = true ∧ isEvent (.addi 3 1 0xFFFFFFFFFFFFFFF8 false true) = false
    ∧ byValue (.addi 3 1 0xFFFFFFFFFFFFFFF8 false true) = false ∧ carries (.addi 3 1 0xFFFFFFFFFFFFFFF8 false true) = false := by decide +kernel

theorem witness_DecodeEncodePairs :
    Instr.wellFormedWith (.mma { matCmd with epi := some { a := 1, list := 2, c := 3, d := 4, oc := 0, bar := false, crc := false, task := tw } }) Sched.plain = true
    ∧ carries (.mma { matCmd with epi := some { a := 1, list := 2, c := 3, d := 4, oc := 0, bar := false, crc := false, task := tw } }) = true := by decide +kernel

theorem witness_StepKeepsMemory : fetching.memOk ∧ (match step fetching with | .next _ => true | _ => false) = true := by
  unfold State.memOk; decide +kernel

theorem witness_OffStaysOff :
    ({ page with poweredOff := true, agenda := [.event .hbmTrainingComplete] } : State).poweredOff = true ∧ ({ page with boot := 1 } : State).boot = 1
    ∧ (Act.event .hbmTrainingComplete ≠ .event .powerOnReset ∧ Act.event .hbmTrainingComplete ≠ .event .packageReset) := by decide +kernel

/-! ## Single instructions on small states; each expected value is worked out by hand from the rule named -/
/-- Scalar register r after an instruction; the pc; whether a property holds of the next state. -/
def sAfter (o : Out) (r : SReg) : Word := match o with | .next t => t.getS r | _ => 0xBAD
def after (o : Out) (p : State → Bool) : Bool := match o with | .next t => p t | _ => false
/-- R46: 0x7FFFFFFF + 1 in `.w.sat` stays at the greatest value and sets satf; without `.sat` it wraps to the least. -/
theorem test_add_sat : sAfter (exec (.add 3 1 2 true true) (regs 0x7FFFFFFF 1)) 3 = 0x7FFFFFFF ∧ after (exec (.add 3 1 2 true true) (regs 0x7FFFFFFF 1)) (·.st.satf) = true
    ∧ sAfter (exec (.add 3 1 2 true false) (regs 0x7FFFFFFF 1)) 3 = 0xFFFFFFFF80000000 := by decide +kernel
/-- R42: a write of s0 is dropped. -/
theorem test_s0 : sAfter (exec (.addi 0 1 7 false false) (regs 5 0)) 0 = 0 := by decide +kernel
/-- R46: the absolute value of the least number, clamped. -/
theorem test_abs_sat : sAfter (exec (.abs 3 1 false true) (regs 0x8000000000000000 0)) 3 = 0x7FFFFFFFFFFFFFFF := by decide +kernel
/-- R46: -1 is less than 1 signed, greater unsigned. -/
theorem test_min : sAfter (exec (.min 3 1 2 false false) (regs 0xFFFFFFFFFFFFFFFF 1)) 3 = 0xFFFFFFFFFFFFFFFF ∧ sAfter (exec (.min 3 1 2 false true) (regs 0xFFFFFFFFFFFFFFFF 1)) 3 = 1 := by
  decide +kernel
/-- R47: a count of 33 in `.w` is 1; the arithmetic shift copies bit 31. -/
theorem test_shift : sAfter (exec (.shl 3 1 2 true) (regs 1 33)) 3 = 2 ∧ sAfter (exec (.sari 3 1 31 true) (regs 0x80000000 0)) 3 = 0xFFFFFFFFFFFFFFFF := by decide +kernel
/-- R48: the high halves of (-1) x (-1) and of its unsigned reading. -/
theorem test_mulh : sAfter (exec (.mulh 3 1 2 false) (regs 0xFFFFFFFFFFFFFFFF 0xFFFFFFFFFFFFFFFF)) 3 = 0
    ∧ sAfter (exec (.mulhu 3 1 2 false) (regs 0xFFFFFFFFFFFFFFFF 0xFFFFFFFFFFFFFFFF)) 3 = 0xFFFFFFFFFFFFFFFE := by decide +kernel
/-- R49: -7 / 2 is -3 with remainder -1. -/
theorem test_div : sAfter (exec (.div 3 1 2 false) (regs 0xFFFFFFFFFFFFFFF9 2)) 3 = 0xFFFFFFFFFFFFFFFD
    ∧ sAfter (exec (.rem 3 1 2 false) (regs 0xFFFFFFFFFFFFFFF9 2)) 3 = 0xFFFFFFFFFFFFFFFF := by decide +kernel
/-- R51: a signed field, a field put in, counts and a reversal at 32 bits. -/
theorem test_bits : sAfter (exec (.bext 3 1 4 4 true) (regs 0x80 0)) 3 = 0xFFFFFFFFFFFFFFF8 ∧ sAfter (exec (.bins 2 1 8 8) (regs 0x1FF 0xABCD)) 2 = 0xFFCD
    ∧ sAfter (exec (.clz 3 1 true) (regs 1 0)) 3 = 31 ∧ sAfter (exec (.ctz 3 1 false) (regs 0 0)) 3 = 64 ∧ sAfter (exec (.brev 3 1 true) (regs 1 0)) 3 = 0xFFFFFFFF80000000 := by decide +kernel
/-- R52: signed and unsigned order differ at the top bit; R53: inversion. -/
theorem test_cmp : after (exec (.cmp 2 1 2 .ltu) (regs 1 0x8000000000000000)) (·.getP 2) = true ∧ after (exec (.cmp 2 1 2 .lt) (regs 1 0x8000000000000000)) (·.getP 2) = false
    ∧ after (exec (.pand 2 7 7 false true) (regs 0 0)) (·.getP 2) = false := by decide +kernel
/-- R57: 0x1000 - 16 within 4 KiB wraps to 0x1FF0; R56: an index scaled by 8. -/
theorem test_address : after (exec (.awrap 2 1 0xFFFFFFF0 12) (onStrand fun t => t.setA 1 0x1000)) (fun t => t.getA 2 == 0x1FF0) = true
    ∧ after (exec (.aidx 2 1 1 3) (onStrand fun t => (t.setA 1 0x1000).setS 1 5)) (fun t => t.getA 2 == 0x1028) = true := by decide +kernel
/-- R58: a branch back by two words; a call leaves the next word's address. -/
theorem test_branch : after (exec (.br 0xFFFFFFFFFFFFFFFE) page) (fun t => t.st.pc == 0xFFFF000000000FE0) = true
    ∧ after (exec (.call 4 3) page) (fun t => t.st.pc == 0xFFFF000000001030 && t.getA 4 == 0xFFFF000000001010) = true := by decide +kernel
/-- R61: at the last instruction of a loop with two turns left the pc goes back to its start. -/
theorem test_loop : ((twoLoops 2).retire 1).pc = 0 ∧ ((twoLoops 2).retire 1).lc[(0 : LReg)] = 1 ∧ ((twoLoops 2).retire 1).lc[(1 : LReg)] = 0
    ∧ ((twoLoops 1).retire 1).pc = 0x50 := by decide +kernel
/-- R117: the stored half word lies little-endian at the page's frame and loads back sign-extended. -/
theorem test_store_load :
    after (exec (.st (.s 2) .n16 { plainOp with disp := 6 }) (regs 0 0x1BEEF)) (fun t => t.rawByte 0x602406 == 0xEF && t.rawByte 0x602407 == 0xBE && t.rawByte 0x602408 == 0) = true
    ∧ sAfter (exec (.ld (.s 3) .i16 { plainOp with disp := 6 }) ((regs 0 0).setRaws 0x602406 [0xEF, 0xBE])) 3 = 0xFFFFFFFFFFFFBEEF := by decide +kernel
/-- R128, R129: the old value comes back; CAS with a wrong expectation stores nothing. -/
theorem test_atomic :
    sAfter (exec (.atom .add 3 2 .i32 plainOp) ((regs 0 2).setRaws 0x602400 [0xFF, 0xFF, 0xFF, 0xFF])) 3 = 0xFFFFFFFFFFFFFFFF
    ∧ after (exec (.atom .add 3 2 .i32 plainOp) ((regs 0 2).setRaws 0x602400 [0xFF, 0xFF, 0xFF, 0xFF])) (fun t => t.rawByte 0x602400 == 1 && t.rawByte 0x602403 == 0) = true
    ∧ after (exec (.cas 3 1 2 .i32 plainOp) ((regs 5 9).setRaw 0x602400 4)) (fun t => t.rawByte 0x602400 == 4 && t.getS 3 == 4) = true := by decide +kernel
/-- R154, R157: TRAP #7 from level 0: cause code 4 with INFO 7, a return past the TRAP; R141: TRET goes back to it. -/
theorem test_trap : after (exec (.trap 7) (onStrand fun t => { t with entry := 0x5550 })) (fun t =>
      t.st.level == 1 && t.st.pc == 0x5550 && t.st.bank1.ret == 0xFFFF000000001010 && t.st.bank1.cause &&& 0xFF == 0x04) = true
    ∧ after (exec .tret (onStrand fun t => { t with level := 1, bank1 := { t.bank1 with ret := 0x1234 } })) (fun t => t.st.level == 0 && t.st.pc == 0x1230) = true := by decide +kernel
/-- R202, R203: a signal saturates at 2^32 - 1; a try that does not fit writes false and takes nothing. -/
theorem test_sem : sAfter (exec (.semsig 3 5 (.imm 0xFF)) ((onCtx fun x => { x with sem := [(5, 0xFFFFFFF0)] }))) 3 = 0xFFFFFFF0
    ∧ after (exec (.semsig 3 5 (.imm 0xFF)) ((onCtx fun x => { x with sem := [(5, 0xFFFFFFF0)] }))) (fun t => t.cx.getSem 5 == 0xFFFFFFFF) = true
    ∧ after (exec (.semtry 2 5 (.imm 3)) (sems [])) (fun t => t.getP 2 == false && t.cx.getSem 5 == 2) = true := by decide +kernel
/-- R144: generation 255 is followed by 1; the handle is generation and index. -/
theorem test_hset : sAfter (exec (.hset 3 1 2 3 1) ((regs 0 16).setHandle fetchCtx 1 (hEntry 0 0 255 false 0 0 0))) 3 = 0x1001 := by decide +kernel
/-- R205, R209: an arrival in generation 4 gives its token; the token is pending, and done once C has moved on. -/
theorem test_barrier : sAfter (exec (.barr 3 1) ((grouped [me false false, other false false] []).setS 1 7)) 3 = 0x0000000400000007
    ∧ sAfter (exec (.btry 3 1) ((grouped [other false false] []).setS 1 (token 3))) 3 = 0x0000000400000002 := by decide +kernel
/-- R291: 127 + 1 in signed bytes clamps; 2 x 3 + 1 is 7 in FP32. -/
theorem test_vector : after (exec (.vadd 3 4 5 .i8 true none) ((page.setV 4 0x7F).setV 5 0x01)) (fun t => t.getV 3 == 0x7F) = true
    ∧ after (exec (.vfma .fma 3 4 5 6 .f32 none) (((page.setV 4 0x40000000).setV 5 0x40400000).setV 6 0x3F800000)) (fun t => t.getV 3 == 0x40E00000) = true := by decide +kernel
/-- R286: a lane the mask leaves out keeps its contents. -/
theorem test_vector_mask : after (exec (.vadd 3 4 5 .i8 false (some 1)) ((((page.setV 4 0x0101).setV 5 0x0202).setV 3 0xAAAA).setM 1 1)) (fun t => t.getV 3 == 0xAA03) = true := by decide +kernel
/-- R296: 1.0 in FP32 is 0x38 in E4M3; 1000 is beyond its greatest value 448, 0x7E, to which the saturating policy clamps. -/
theorem test_vcvt : (convertTo .e4m3 .sat false (decodeElem .f32 0x3F800000)).1 = 0x38 ∧ (convertTo .e4m3 .sat true (decodeElem .f32 0x447A0000)).1 = 0x7E := by decide +kernel
/-- R297: a sum of signed bytes over the enabled lanes; R295: the enabled lanes counted. -/
theorem test_reduce : sAfter (exec (.vrsum 3 4 .i8 (some 1)) ((page.setV 4 0x05FF02).setM 1 3)) 3 = 1 ∧ sAfter (exec (.mpop 3 1 .i64) (page.setM 1 0x8000000000000001)) 3 = 2 := by decide +kernel
/-- R299: interleaving two registers of 32-bit elements. -/
theorem test_vzip : after (exec (.vzip 2 4 5 .i32) ((page.setV 4 0x1111).setV 5 0x2222)) (fun t => t.getV 2 == 0x0000222200001111) = true := by decide +kernel
/-- R309, R310: a difference modulo 2^4096; digits packed 16 bits apart, a negative one borrowing from above. -/
theorem test_ligature : after (exec (.ladd 3 4 5 true) ((page.setV 4 1).setV 5 2)) (fun t => t.getV 3 == BitVec.allOnes 4096) = true
    ∧ after (exec (.lpack 3 4 .i8 false (ligOp 2 16)) (page.setV 4 0x01FF)) (fun t => t.getV 3 == 0xFFFF) = true := by decide +kernel

/-- R340: the three outputs that the spec's table gives for seed 1, and the state after the first step. -/
theorem test_generator : (Tdu.seed 1).next.1 = 0x64F301F7795C9429 ∧ (Tdu.seed 1).next.2.next.1 = 0xEEDE08B120DE7A8B
    ∧ (Tdu.seed 1).next.2.next.2.next.1 = 0x85AE8C288556E83E ∧ (Tdu.seed 1).next.2.x = 0xD1B54A325192ED03 ∧ (Tdu.seed 1).next.2.y = 0x933DB7C527C9A726 := by
  decide +kernel
/-- R63: bytes of the folio little-endian, sign-extended. -/
theorem test_fld : sAfter (exec (.fld 3 1 0 0 1 true) ((folio 0x10).modCo fun k => { k with folio := [(leafByte 3 0x10, 0x34), (leafByte 3 0x11, 0xF2)] })) 3 = 0xFFFFFFFFFFFFF234 := by
  decide +kernel
/-- R67: a register number that is not assigned is no word of the set; R135: user code may not write cr.pre.ctl. -/
theorem test_privilege : after (exec (.preCtlWrite 1) user) (fun t => t.st.level == 1 && t.st.bank1.cause &&& 0xFF == 0x02) = true := by decide +kernel
/-- R359: a soft request opens the grace period of the core, 40,000 cycles. -/
theorem test_soft : after (exec (.ctxctlSoft 3 1) ((second .running none).setS 1 1)) (fun t => (t.ctx 0 1).rung == .soft && (t.ctx 0 1).graceAt == some 40000 && t.getS 3 == 0) = true := by
  decide +kernel
/-- R423: 16,000,000 cycles after TTRIP the power goes, and one cycle earlier it does not. -/
theorem test_trip : after (exec .thermalTrip { page with ttripAt := some 0, time := 16000000 }) (·.poweredOff) = true
    ∧ after (exec .thermalTrip { page with ttripAt := some 0, time := 15999999 }) (·.poweredOff) = false := by decide +kernel

end Sys2Proof.Tests
end

/-! ## Every step keeps the canonical form of memory (log 1)

One lemma per operation of the model, in the order of the definitions, named after the operation: `State.memOk.f` for a state that `f` returns,
`Out.memOk.f` for an outcome. Each is used by the type that is expected, as `.f h`. -/

namespace Sys2Proof.Machine

/-- An outcome whose next state, if it has one, holds memory in canonical form. -/
def Out.memOk : Out → Prop
  | .next t => t.memOk
  | _ => True

theorem Out.memOk.next {s : State} (h : s.memOk) : Out.memOk (.next s) := h

theorem Out.memOk.fault {r : Fault} : Out.memOk (.fault r) := trivial

theorem Out.memOk.refused {r : Refusal} : Out.memOk (.refused r) := trivial

theorem Out.memOk.ite {c : Prop} {_ : Decidable c} {a b : Out} (ha : a.memOk) (hb : b.memOk) : Out.memOk (if c then a else b) := by
  split
  · exact ha
  · exact hb

theorem State.memOk.ite {c : Prop} {_ : Decidable c} {a b : State} (ha : a.memOk) (hb : b.memOk) : (if c then a else b).memOk := by
  split
  · exact ha
  · exact hb

theorem State.memOk.foldl {α : Type} {f : State → α → State} {l : List α} {s : State} (h : s.memOk) (hf : ∀ s x, s.memOk → (f s x).memOk) :
    (l.foldl f s).memOk := memOk_foldl f hf l s h

/-- The next state of an outcome that keeps the form. -/
theorem State.memOk.of_next {o : Out} {t : State} (ho : o.memOk) (e : o = .next t) : t.memOk := by
  subst e
  exact ho

/-! ### Reading and updating the parts of the state -/

theorem State.memOk.setCore {s : State} {c : Nat} {k : Core} (h : s.memOk) : (s.setCore c k).memOk :=
  h

theorem State.memOk.modCore {s : State} {c : Nat} {f : Core → Core} (h : s.memOk) : (s.modCore c f).memOk :=
  h

theorem State.memOk.modDie {s : State} {o : Nat} {f : Die → Die} (h : s.memOk) : (s.modDie o f).memOk :=
  h

theorem State.memOk.modCtx {s : State} {core slot : Nat} {f : Ctx → Ctx} (h : s.memOk) : (s.modCtx core slot f).memOk :=
  h

theorem State.memOk.putCtx {s : State} {r : CtxRef} {x : Ctx} (h : s.memOk) : (s.putCtx r x).memOk := by
  unfold State.putCtx
  split
  · exact h
  · exact h

theorem State.memOk.dropCtx {s : State} {r : CtxRef} (h : s.memOk) : (s.dropCtx r).memOk := by
  unfold State.dropCtx
  split
  · exact h
  · exact h

theorem State.memOk.modRef {s : State} {r : CtxRef} {f : Ctx → Ctx} (h : s.memOk) : (s.modRef r f).memOk := by
  unfold State.modRef
  split
  · exact .putCtx h
  · exact h

theorem State.memOk.modUid {s : State} {uid : Nat} {f : Ctx → Ctx} (h : s.memOk) : (s.modUid uid f).memOk := by
  unfold State.modUid
  split
  · exact .putCtx h
  · exact h

theorem State.memOk.modStrandAt {s : State} {r : StrandRef} {f : Strand → Strand} (h : s.memOk) : (s.modStrandAt r f).memOk :=
  h

theorem State.memOk.modSt {s : State} {f : Strand → Strand} (h : s.memOk) : (s.modSt f).memOk :=
  h

theorem State.memOk.modCx {s : State} {f : Ctx → Ctx} (h : s.memOk) : (s.modCx f).memOk :=
  h

theorem State.memOk.modCo {s : State} {f : Core → Core} (h : s.memOk) : (s.modCo f).memOk :=
  h

theorem State.memOk.modDi {s : State} {f : Die → Die} (h : s.memOk) : (s.modDi f).memOk :=
  h

theorem State.memOk.setSA {s : State} {r : SaReg} {v : Word} (h : s.memOk) : (s.setSA r v).memOk := by
  unfold State.setSA
  split
  · exact h
  · exact h

theorem State.memOk.setV {s : State} {r : VNum} {v : VecWord} (h : s.memOk) : (s.setV r v).memOk :=
  h

theorem State.memOk.retire {s : State} (h : s.memOk) : (s.retire).memOk :=
  h

theorem State.memOk.hold {s : State} (h : s.memOk) : (s.hold).memOk :=
  h

theorem State.memOk.freshen {s : State} (h : s.memOk) : (s.freshen).memOk :=
  h

/-! ### What reaches a strand from outside its own stream -/

theorem State.memOk.arriveRelease {i : Nat} {s : State} (h : s.memOk) : (arriveRelease i s).memOk := by
  unfold Machine.arriveRelease
  split
  · exact h
  · exact .modUid h

theorem State.memOk.withdrawWaits {s : State} {r : StrandRef} (h : s.memOk) : (withdrawWaits s r).memOk :=
  h

/-! ### Memory -/

theorem State.memOk.setPort {s : State} {n : Nat} {p : Port} (h : s.memOk) : (s.setPort n p).memOk :=
  h

theorem State.memOk.crossLinks {s : State} {xs : List Xl} (h : s.memOk) : (s.crossLinks xs).memOk :=
  .foldl h (fun _ _ h1 => h1)

theorem State.memOk.marginTake {s : State} {x : Xl} (h : s.memOk) : (marginTake s x).memOk := by
  unfold Machine.marginTake
  split
  · split
    · exact .ite h h
    · exact h
  · exact h

theorem State.memOk.marginFill {s : State} {x : Xl} (h : s.memOk) : (marginFill s x).memOk :=
  .ite (.marginTake h) h

theorem State.memOk.useLine {s : State} {x : Xl} {wrote : Bool} (h : s.memOk) : (s.useLine x wrote).memOk :=
  memOk_of_mem (mem_useLine _ _ _) h

theorem State.memOk.useLines {s : State} {xs : List Xl} (h : s.memOk) : (s.useLines xs).memOk :=
  .foldl (.crossLinks h) (fun _ _ h1 => .useLine h1)

theorem State.memOk.dropLine {s : State} {k : Nat} (h : s.memOk) : (s.dropLine k).memOk :=
  memOk_of_mem (mem_dropLine _ _) h

theorem State.memOk.noteAccess {s : State} {from_ : Nat} {x : Xl} {wrote : Bool} (h : s.memOk) : (noteAccess s from_ x wrote).memOk := by
  unfold Machine.noteAccess
  extract_lets +onlyGivenNames s1 dd
  have h1 : s1.memOk := .ite h (.marginFill h)
  exact .ite h1 (.ite h1 (.ite h1 h1))

theorem State.memOk.noteRead {s : State} {from_ : Nat} {xs : List Xl} (h : s.memOk) : (noteRead s from_ xs).memOk := by
  unfold Machine.noteRead
  split
  · exact .noteAccess (.useLines h)
  · exact h

theorem State.memOk.noteError {s : State} {o : Nat} {e : MemErr} {key : Nat} (h : s.memOk) : (noteError s o e key).memOk :=
  memOk_of_mem (mem_noteError _ _ _ _) h

theorem State.memOk.dropMargin {s : State} {die : Nat} (h : s.memOk) : (s.dropMargin die).memOk :=
  .ite h h

theorem State.memOk.evictMargin {die line : Nat} {s : State} (h : s.memOk) : (State.evictMargin die line s).memOk :=
  h

theorem State.memOk.dropReplicas {s : State} {o key size : Nat} (h : s.memOk) : (dropReplicas s o key size).memOk :=
  memOk_of_mem (mem_dropReplicas _ _ _ _) h

theorem State.memOk.dropCopies {s : State} {d line : Nat} (h : s.memOk) : (s.dropCopies d line).memOk :=
  memOk_of_mem (mem_dropCopies _ _ _) h

/-! ### The folio, its leaves and the diagnostic view -/

theorem State.memOk.noteLeaf {s : State} {core phys : Nat} (h : s.memOk) : (noteLeaf s core phys).memOk :=
  memOk_of_mem (mem_noteLeaf _ _ _) h

/-! ### Interrupt records, work-object counters, barrier-group generations -/

theorem State.memOk.viCharge {s : State} {vi : Option Nat} {write : Bool} {n : Nat} (h : s.memOk) : (viCharge s vi write n).memOk := by
  unfold Machine.viCharge
  split
  · exact h
  · exact h

theorem State.memOk.queueRecord {s t : State} {port pasid : Nat} {q r : EvQueue} {bs : List Byte} (h : s.memOk)
    (e : queueRecord s port pasid q bs = some (t, r)) : t.memOk := by
  simp only [Machine.queueRecord] at e
  split at e
  · cases e
  · cases e
    exact memOk_writeMa _ _ _ _ h

theorem State.memOk.viDeliver {s : State} {n vector : Nat} {bs : List Byte} (h : s.memOk) : (viDeliver s n vector bs).memOk := by
  unfold Machine.viDeliver
  extract_lets v
  split
  next t q he =>
    have ht : t.memOk := .queueRecord h he
    exact .viCharge ht
  next => exact h

theorem State.memOk.viDrain {n k : Nat} {s : State} (h : s.memOk) : (viDrain n k s).memOk := by
  induction k generalizing s with
  | zero => exact h
  | succ k ih =>
    unfold Machine.viDrain
    extract_lets v
    split
    · exact h
    · exact .ite h (ih (.viDeliver h))

theorem State.memOk.viRecord {s : State} {n vector : Nat} {bs : List Byte} (h : s.memOk) : (viRecord s n vector bs).memOk :=
  .ite (.viDrain h) (.ite h (memOk_writeMa _ _ _ _ h))

theorem State.memOk.pfRecord {s : State} {vector : Nat} {bs : List Byte} (h : s.memOk) : (pfRecord s vector bs).memOk := by
  unfold Machine.pfRecord
  extract_lets p
  split
  next t q he =>
    have ht : t.memOk := .queueRecord h he
    exact ht
  next => exact h

theorem State.memOk.sendRecord {s : State} {vi : Option Nat} {vector : Nat} {bs : List Byte} (h : s.memOk) : (sendRecord s vi vector bs).memOk := by
  unfold Machine.sendRecord
  split
  · exact .viRecord h
  · exact .pfRecord h

theorem State.memOk.pruneWorks {s : State} (h : s.memOk) : (pruneWorks s).memOk :=
  h

theorem State.memOk.reportWork {n key : Nat} {s : State} (h : s.memOk) : (reportWork n s key).memOk := by
  induction n generalizing s key with
  | zero => exact h
  | succ n ih =>
    unfold Machine.reportWork
    split
    · exact h
    · split
      · exact h
      · extract_lets +onlyGivenNames s1 s2
        have h2 : s2.memOk := by
          unfold s2
          split
          · exact .modUid h
          · exact h
        split
        · exact h2
        · extract_lets +onlyGivenNames bad s3
          refine ih ?_
          unfold s3
          split
          · exact h2
          · exact h2

theorem State.memOk.cancelUnplaced {s : State} {key : Nat} (h : s.memOk) : (cancelUnplaced s key).memOk := by
  unfold Machine.cancelUnplaced
  split
  · exact .reportWork h
  · exact h

theorem State.memOk.cascade {n : Nat} {s : State} (h : s.memOk) : (cascade n s).memOk := by
  induction n generalizing s with
  | zero => exact h
  | succ n ih =>
    unfold Machine.cascade
    split
    · exact h
    · exact ih (.cancelUnplaced h)

theorem State.memOk.unitDone {s : State} {launch : Nat} {failed : Bool} (h : s.memOk) : (unitDone s launch failed).memOk := by
  unfold Machine.unitDone
  split
  · exact .pruneWorks (.cascade (.reportWork h))
  · exact h

theorem State.memOk.tellGroup {s : State} {n : Nat} {old new : Group} (h : s.memOk) : (tellGroup s n old new).memOk :=
  .ite (.ite h h) (.ite h (.foldl h (fun _ _ h1 => h1)))

theorem State.memOk.putGroup {s : State} {n : Nat} {x : Group} (h : s.memOk) : (s.putGroup n x).memOk :=
  .tellGroup h

theorem State.memOk.leaveAll {s : State} {uid : Nat} (h : s.memOk) : (leaveAll s uid).memOk :=
  .foldl h (fun _ _ h1 => .putGroup h1)

/-! ### Handle tables, frame holds and the end of a transfer -/

theorem State.memOk.setHandle {s : State} {x : Ctx} {i : Nat} {e : HEntry} (h : s.memOk) : (s.setHandle x i e).memOk :=
  memOk_writeMa _ _ _ _ h

theorem State.memOk.endTransfer {s : State} {x : Ctx} {i : Nat} {gen : BitVec 8} (h : s.memOk) : (endTransfer s x i gen).memOk :=
  .setHandle h

theorem State.memOk.holdAll {s : State} {fs : List (Nat × Nat × Nat)} {up : Bool} (h : s.memOk) : (holdAll s fs up).memOk :=
  .foldl h (fun _ _ h1 => h1)

theorem State.memOk.dropTransfer {s : State} {x : Ctx} {t : Task} (h : s.memOk) : (dropTransfer s x t).memOk :=
  .ite h (.foldl (.holdAll h) (fun _ _ h1 => .endTransfer h1))

/-! ### Engine queues and phases -/

theorem State.memOk.setUpLeaf {s : State} {core : Nat} {x : Ctx} {p : LeafPair} (h : s.memOk) : (setUpLeaf s core x p).memOk := by
  unfold Machine.setUpLeaf
  split
  · extract_lets +onlyGivenNames s1
    have h1 : s1.memOk := by
      unfold s1
      split
      · exact .noteLeaf h
      · exact h
    exact h1
  · exact h

theorem State.memOk.setUpLeaves {s : State} {core : Nat} {x : Ctx} {ps : List LeafPair} (h : s.memOk) : (setUpLeaves s core x ps).memOk :=
  .foldl h (fun _ _ h1 => .setUpLeaf h1)

theorem State.memOk.holdJoint {s : State} {core launch uid : Nat} {tag : Fin 16} (h : s.memOk) : (holdJoint s core launch uid tag).memOk :=
  .foldl h (fun _ _ h1 => h1)

theorem State.memOk.holdJoints {s : State} {core : Nat} {x : Ctx} {ts : List (Nat × Task)} (h : s.memOk) : (holdJoints s core x ts).memOk := by
  unfold Machine.holdJoints
  refine .foldl h fun _ _ h1 => ?_
  split
  · exact .ite (.holdJoint h1) h1
  · exact h1

theorem State.memOk.discardPhase {s : State} {ref : CtxRef} {id : PhaseId} (h : s.memOk) : (discardPhase s ref id).memOk := by
  unfold Machine.discardPhase
  split
  · exact h
  · exact .putCtx (.foldl h (fun _ _ h1 => .dropTransfer h1))

theorem State.memOk.joinAbort {s : State} {ref : CtxRef} {id : PhaseId} {a : AbortOf} {code : Nat} {classD : Bool}
    (h : s.memOk) : (joinAbort s ref id a code classD).memOk :=
  .ite h (.modRef h)

theorem State.memOk.abortPhase {s : State} {ref : CtxRef} {id : PhaseId} {a : AbortOf} (h : s.memOk) : (abortPhase s ref id a).memOk := by
  unfold Machine.abortPhase
  split
  · exact h
  · split
    · exact .joinAbort h
    · split
      · exact h
      · extract_lets +onlyGivenNames back s1 s2 s3 s4 s5
        have h1 : s1.memOk := .foldl h (fun _ _ h1 => .holdAll h1)
        have h2 : s2.memOk := .holdJoints h1
        have h3 : s3.memOk := h2
        have h4 : s4.memOk := .modRef h3
        have h5 : s5.memOk := by
          unfold s5
          split
          · exact .setUpLeaves h4
          · exact h4
        split
        · exact .modRef h5
        · extract_lets +onlyGivenNames s6
          have h6 : s6.memOk := .modRef h5
          split
          · exact h6
          · exact .ite (.modRef (.discardPhase h6)) (.ite (.modRef h6) (.modRef h6))

theorem State.memOk.abortPartners {s : State} {ref : CtxRef} {x : Ctx} (h : s.memOk) : (abortPartners s ref x).memOk := by
  unfold Machine.abortPartners
  extract_lets +onlyGivenNames tags core hit
  refine .foldl h fun _ _ h1 => ?_
  split
  · exact h1
  · split
    · exact .abortPhase h1
    · exact h1

/-! ### The shared operations -/

theorem State.memOk.pruneLeaves {s : State} {core : Nat} (h : s.memOk) : (pruneLeaves s core).memOk :=
  .ite h h

theorem State.memOk.removeCtx {s : State} {ref : CtxRef} {x : Ctx} (h : s.memOk) : (removeCtx s ref x).memOk :=
  .dropCtx h

theorem State.memOk.retireHandles {s : State} {x : Ctx} (h : s.memOk) : (retireHandles s x).memOk :=
  .foldl h (fun _ _ h1 => .ite (.setHandle h1) h1)

theorem State.memOk.killCtx {s : State} {ref : CtxRef} {code info : Nat} {pc addr : Word} {who : Option (Fin 4)}
    (h : s.memOk) : (killCtx s ref code info pc addr who).memOk := by
  unfold Machine.killCtx
  split
  · exact h
  · extract_lets +onlyGivenNames bs s1 s2 s3 s4 s5 s6 s7
    have h1 : s1.memOk := .abortPartners h
    have h2 : s2.memOk := .foldl h1 (fun _ _ h2 => .dropTransfer h2)
    have h3 : s3.memOk := .retireHandles h2
    have h4 : s4.memOk := .leaveAll (.removeCtx h3)
    have h5 : s5.memOk := .ite h4 h4
    have h6 : s6.memOk := .sendRecord h5
    have h7 : s7.memOk := .ite h6 h6
    exact .unitDone h7

theorem State.memOk.trapAt {s : State} {r : StrandRef} {code info : Nat} {ret addr : Word} {force out : Bool}
    (h : s.memOk) : (s.trapAt r code info ret addr force out).memOk :=
  .ite (.killCtx h) h

theorem State.memOk.trap {s : State} {code info : Nat} {addr : Word} (h : s.memOk) : (s.trap code info addr).memOk :=
  .trapAt h

theorem State.memOk.privFault {s : State} (h : s.memOk) : (s.privFault).memOk :=
  .trap h

theorem State.memOk.trapState {s : State} (h : s.memOk) : (s.trapState).memOk :=
  .trap h

theorem State.memOk.pcAlign {s : State} (h : s.memOk) : (s.pcAlign).memOk :=
  .trap h

theorem State.memOk.divZero {s : State} (h : s.memOk) : (s.divZero).memOk :=
  .trap h

theorem State.memOk.addrAlign {s : State} {a : Word} (h : s.memOk) : (s.addrAlign a).memOk :=
  .trap h

theorem State.memOk.folioAlign {s : State} {a : Word} (h : s.memOk) : (s.folioAlign a).memOk :=
  .trap h

theorem State.memOk.fileTrap {s : State} (h : s.memOk) : (fileTrap s).memOk :=
  .trap h

theorem State.memOk.atPriv {s : State} {n : Nat} {t : State} (h : s.memOk) (ht : t.memOk) : (s.atPriv n t).memOk :=
  .ite ht (.privFault h)

theorem State.memOk.haltNow {s : State} {ref : CtxRef} {x : Ctx} (h : s.memOk) : (haltNow s ref x).memOk :=
  .holdJoints (.putCtx h)

theorem State.memOk.requestCtx {s : State} {ref : CtxRef} {i : Intent} (h : s.memOk) : (requestCtx s ref i).memOk := by
  unfold Machine.requestCtx
  split
  · exact h
  · split
    · exact h
    · extract_lets +onlyGivenNames k y
      extract_lets +onlyGivenNames y1
      split
      · exact .ite (.haltNow h) (.putCtx h)
      · exact .ite (.haltNow h) (.putCtx h)
      · exact .ite (.haltNow h) (.putCtx h)
      · exact .ite (.killCtx (.putCtx h)) (.putCtx h)
      · exact .ite (.killCtx (.putCtx h)) (.putCtx h)

theorem State.memOk.askResident {s : State} {ag : Agent} {va : Word} (h : s.memOk) : (askResident s ag va).memOk := by
  unfold Machine.askResident
  split
  · exact .ite h h
  · exact h

/-- The translation is made a variable first: the kernel would else run it to compare the two sides of a split. -/
theorem State.memOk.countError {s : State} {ag : Agent} {e : MemErr} {va : Word} (h : s.memOk) : (countError s ag e va).memOk := by
  unfold Machine.countError
  obtain ⟨xl, hxl⟩ : ∃ xl, xl = s.xlateAt := ⟨_, rfl⟩
  rw [← hxl]
  split
  · split
    · exact .ite (.modDie (.evictMargin h)) (.noteError h)
    · exact h
  · exact h

theorem State.memOk.memFail {s : State} {e : MemErr} {va : Word} (h : s.memOk) : (s.memFail e va).memOk := by
  unfold State.memFail
  split
  · exact .trap (.countError h)
  · exact .hold (.ite (.askResident h) h)

theorem State.memOk.hostChargeN {s : State} {x : Ctx} {xs : List Xl} {write : Bool} {n : Nat} (h : s.memOk) : (hostChargeN s x xs write n).memOk := by
  unfold Machine.hostChargeN
  split
  · exact h
  · exact h

theorem State.memOk.charged {s : State} {xs : List Xl} {write : Bool} {n : Nat} {f : State → State}
    (h : s.memOk) (hf : ∀ s, s.memOk → (f s).memOk) : (s.charged xs write n f).memOk :=
  .ite h (hf _ (.hostChargeN h))

theorem State.memOk.countRead {s : State} {xs : List Xl} (h : s.memOk) : (s.countRead xs).memOk :=
  .noteRead h

theorem State.memOk.countWrite {s : State} {xs : List Xl} (h : s.memOk) : (s.countWrite xs).memOk := by
  unfold State.countWrite
  split
  · exact .noteAccess (.crossLinks h)
  · exact h

theorem State.memOk.withRead {s : State} {k : Kind} {va : Word} {n : Nat} {f : State → List Byte → State}
    (h : s.memOk) (hf : ∀ s x1, s.memOk → (f s x1).memOk) : (s.withRead k va n f).memOk := by
  unfold State.withRead
  split
  · exact .memFail h
  · exact .charged h (fun _ h1 => hf _ _ (.countRead h1))

theorem State.memOk.withWrite {s : State} {va : Word} {bs : List Byte} {f : State → State}
    (h : s.memOk) (hf : ∀ s, s.memOk → (f s).memOk) : (s.withWrite va bs f).memOk := by
  unfold State.withWrite
  split
  · exact .memFail h
  · exact .charged h (fun _ h1 => hf _ (memOk_perform _ _ (.countWrite h1)))

theorem State.memOk.noteOob {s : State} {kind : Nat} {o : Option Word} (h : s.memOk) : (s.noteOob kind o).memOk := by
  unfold State.noteOob
  split
  · exact h
  · exact h

theorem State.memOk.noteCorrected {s : State} {cells : List FolCell} (h : s.memOk) : (s.noteCorrected cells).memOk :=
  .ite h h

theorem State.memOk.withFolRead {s : State} {diag : Bool} {kind : Nat} {offs : List Word} {f : State → List Byte → State}
    (h : s.memOk) (hf : ∀ s x1, s.memOk → (f s x1).memOk) : (s.withFolRead diag kind offs f).memOk := by
  unfold State.withFolRead
  extract_lets +onlyGivenNames a raw
  split
  · exact h
  · split
    · exact .trap h
    · exact hf _ _ (.noteOob (.ite h (.noteCorrected h)))

theorem State.memOk.withFolWrite {s : State} {diag : Bool} {kind : Nat} {offs : List Word} {bs : List Byte} {f : State → State}
    (h : s.memOk) (hf : ∀ s, s.memOk → (f s).memOk) : (s.withFolWrite diag kind offs bs f).memOk :=
  .ite h (hf _ (.modCo (.noteOob h)))

/-! ### Integer arithmetic, logic, shifts, multiply, divide and bit fields -/

theorem Out.memOk.arithResult {s : State} {d : SReg} {v : Int} {w sat : Bool} (h : s.memOk) : Out.memOk (arithResult s d v w sat) :=
  .next h

theorem Out.memOk.scalarResult {s : State} {d : SReg} {v : Word} (h : s.memOk) : Out.memOk (scalarResult s d v) :=
  .next h

theorem Out.memOk.divResult {s : State} {d : SReg} {x y : Int} {w signed q : Bool} (h : s.memOk) : Out.memOk (divResult s d x y w signed q) :=
  .ite (.ite (.next (.divZero h)) (.next h)) (.ite (.next h) (.scalarResult h))

/-! ### Compares, predicate logic, moves, immediates and address arithmetic -/

theorem Out.memOk.predResult {s : State} {p : PReg} {v : Bool} (h : s.memOk) : Out.memOk (predResult s p v) :=
  .next h

theorem Out.memOk.addrResult {s : State} {d : AReg} {v : Word} (h : s.memOk) : Out.memOk (addrResult s d v) :=
  .next h

/-! ### Branches, hardware loops, scalar folio access, stopping and strand barriers -/

theorem State.memOk.passOver {s : State} {pc : Word} {f : Strand → Strand} (h : s.memOk) : (s.passOver pc f).memOk := by
  unfold State.passOver
  split
  · exact h
  · split
    · exact .trapAt (.modSt (.countError h))
    · exact .hold (.ite (.askResident h) h)

theorem Out.memOk.startLoop {s : State} {d : LReg} {last count : BitVec 32} (h : s.memOk) : Out.memOk (startLoop s d last count) :=
  .next (.ite (.passOver h) h)

theorem Out.memOk.folLoad {s : State} {d : SReg} {o : Word} {size : Fin 4} {sx : Bool} (h : s.memOk) : Out.memOk (folLoad s d o size sx) :=
  .ite (.next (.folioAlign h)) (.next (.withFolRead h (fun _ _ h1 => h1)))

theorem Out.memOk.folStore {s : State} {v o : Word} {size : Fin 4} (h : s.memOk) : Out.memOk (folStore s v o size) :=
  .ite (.next (.folioAlign h)) (.next (.withFolWrite h (fun _ h1 => h1)))

/-! ### Currencies and base values, the generator of a task draw unit, the inverse draw, spills and reloads -/

theorem State.memOk.markSpill {s : State} {ref : CtxRef} {leaf : Nat} {who : Option LeafReq} (h : s.memOk) : (markSpill s ref leaf who).memOk := by
  unfold Machine.markSpill
  split
  · exact h
  · split
    · exact .putCtx h
    · exact h

theorem State.memOk.loadLeaf {s : State} {core phys ma : Nat} (h : s.memOk) : (loadLeaf s core phys ma).memOk :=
  memOk_of_mem (mem_loadLeaf _ _ _ _) h

theorem State.memOk.inverseDraw {s t : State} {core : Nat} {r : LeafReq} (h : s.memOk) (e : inverseDraw s core r = some t) : t.memOk := by
  simp only [Machine.inverseDraw] at e
  split at e
  · cases e
  · split at e
    · cases e
    · cases e
      exact .markSpill h

theorem State.memOk.markDrawWait {s : State} {core : Nat} {r : LeafReq} (h : s.memOk) : (markDrawWait s core r).memOk :=
  h

theorem State.memOk.needLeaves {core want n : Nat} {r : LeafReq} {s : State} (h : s.memOk) : (needLeaves core want r n s).memOk := by
  induction n generalizing s with
  | zero => exact h
  | succ n ih =>
    unfold Machine.needLeaves
    split
    · exact h
    · split
      · exact ih (.inverseDraw h ‹_›)
      · exact .markDrawWait h

theorem State.memOk.gatherLeaves {s t : State} {core want : Nat} {r : LeafReq} {o : Option (List Nat)} (h : s.memOk)
    (e : gatherLeaves s core want r = (t, o)) : t.memOk := by
  simp only [Machine.gatherLeaves] at e
  split at e
  · cases e
    exact h
  · cases e
    exact .needLeaves h

theorem State.memOk.reloadLeaf {s t : State} {ref : CtxRef} {leaf : Nat} {r : LeafReq} {b : Bool} (h : s.memOk)
    (e : reloadLeaf s ref leaf r = (t, b)) : t.memOk := by
  unfold Machine.reloadLeaf at e
  split at e
  · cases e
    exact h
  · split at e
    · split at e
      · cases e
        exact h
      · split at e
        · cases e
          exact .putCtx (.loadLeaf (.gatherLeaves h ‹_›))
        · cases e
          exact .gatherLeaves h ‹_›
    · cases e
      exact h

/-! ### The control registers -/

theorem State.memOk.writeFolioDiag {s : State} {v : Word} (h : s.memOk) : (writeFolioDiag s v).memOk :=
  .ite (.ite h h) h

theorem State.memOk.writeCurDef {s : State} {v : Word} (h : s.memOk) : (writeCurDef s v).memOk := by
  unfold Machine.writeCurDef
  extract_lets +onlyGivenNames n
  split
  · exact h
  · split
    · split
      · exact h
      · split
        · exact .ite h h
        · exact h
    · exact .ite h h

theorem State.memOk.writeRepay {s : State} {v : Word} (h : s.memOk) : (writeRepay s v).memOk := by
  unfold Machine.writeRepay
  split
  · exact .ite h h
  · exact h

theorem State.memOk.writeLeafPin {s : State} {v : Word} {go : State → State} (h : s.memOk) (hgo : ∀ s, s.memOk → (go s).memOk) :
    (writeLeafPin s v go).memOk := by
  unfold Machine.writeLeafPin
  split
  · exact hgo _ h
  · split
    · exact hgo _ h
    · split
      · exact hgo _ h
      · split
        · split
          · exact hgo _ (.putCtx h)
          · split
            · exact hgo _ (.modRef (.reloadLeaf h ‹_›))
            · exact .hold (.reloadLeaf h ‹_›)
        · exact hgo _ (.putCtx h)

theorem State.memOk.writePlaneLoad {s : State} {v : Word} (h : s.memOk) : (writePlaneLoad s v).memOk :=
  .foldl h (fun _ _ h1 => .ite h1 h1)

theorem State.memOk.writeKeyCtl {s : State} {v : Word} (h : s.memOk) : (writeKeyCtl s v).memOk := by
  unfold Machine.writeKeyCtl
  extract_lets +onlyGivenNames slot s1
  have h1 : s1.memOk := h
  split
  · extract_lets +onlyGivenNames blob k
    split
    exact .ite h1 h1
  · exact h1

theorem State.memOk.renewStores {s : State} {names : Xl → Bool} (h : s.memOk) : (renewStores s names).memOk := by
  unfold Machine.renewStores
  refine .foldl h fun _ _ h1 => ?_
  refine .foldl h1 fun _ _ h2 => ?_
  split
  · exact h2
  · split
    · exact .modRef h2
    · split
      · exact .abortPhase h2
      · exact h2

theorem State.memOk.writeInval {s : State} {v : Word} {go : State → State}
    (h : s.memOk) (hgo : ∀ s, s.memOk → (go s).memOk) : (writeInval s v go).memOk :=
  .ite (.privFault h) (.ite (hgo _ h) (hgo _ (.renewStores h)))

theorem State.memOk.crWrite {s : State} {r : CReg} {v : Word} {go : State → State} (h : s.memOk) (hgo : ∀ s, s.memOk → (go s).memOk) :
    (crWrite s r v go).memOk := by
  unfold Machine.crWrite
  cases r
  case phaseStat | phaseLimit | folioOob | ligGw => exact hgo _ (.ite h h)
  case folioDiag => exact hgo _ (.writeFolioDiag h)
  case curDef => exact hgo _ (.writeCurDef h)
  case curRepay => exact hgo _ (.writeRepay h)
  case leafPin => exact .writeLeafPin h hgo
  case planeLoad => exact hgo _ (.writePlaneLoad h)
  case xlateInval => exact .writeInval h hgo
  case keyCtl => exact hgo _ (.writeKeyCtl h)
  all_goals exact hgo _ h

theorem Out.memOk.crwReg {r : CReg} {a : SReg} {s : State} (h : s.memOk) : Out.memOk (crwReg r a s) :=
  .next (.atPriv h (.crWrite h (fun _ h1 => h1)))

theorem Out.memOk.crModify {r : CReg} {d a : SReg} {f : Word → Word → Word} {s : State} (h : s.memOk) : Out.memOk (crModify r d a f s) :=
  .next (.atPriv h (.ite (.privFault h) (.ite h (.crWrite h (fun _ h1 => h1)))))

/-! ### System instructions but for CTXSV and CTXLD -/

theorem State.memOk.status {s : State} {d : SReg} {v : Word} (h : s.memOk) : (s.status d v).memOk :=
  h

theorem State.memOk.pageFail {s : State} {d : SReg} {va : Word} {e : MemErr} (h : s.memOk) : (s.pageFail d va e).memOk := by
  unfold State.pageFail
  split
  · exact .hold (.askResident h)
  · exact h
  · exact h

theorem State.memOk.withResident {s : State} {d : SReg} {va : Word} {f : Xl → State}
    (h : s.memOk) (hf : ∀ x0, (f x0).memOk) : (s.withResident d va f).memOk := by
  unfold State.withResident
  split
  · exact .pageFail h
  · exact .ite (hf _) (.hold (.askResident h))

theorem Out.memOk.execPgsvcUnpin {d : SReg} {a : AReg} {s : State} (h : s.memOk) : Out.memOk (execPgsvcUnpin d a s) := by
  unfold Machine.execPgsvcUnpin
  refine .next ?_
  split
  · exact .pageFail h
  · exact .ite h h

theorem Out.memOk.execPgsvcQuery {d : SReg} {a : AReg} {s : State} (h : s.memOk) : Out.memOk (execPgsvcQuery d a s) := by
  unfold Machine.execPgsvcQuery
  refine .next ?_
  split
  · exact .hold (.askResident h)
  · exact h
  · exact h

theorem State.memOk.zeroPieces {s : State} {o : Nat} {asid : BitVec 12} {ps : List (Nat × Word)} (h : s.memOk) : (zeroPieces s o asid ps).memOk :=
  .foldl h (fun _ _ h1 => .foldl (memOk_touchIa _ _ _ _ _ _ _ h1) (fun _ _ h2 => memOk_writeByte _ _ _ _ h2))

theorem State.memOk.allocPage {s t : State} {o : Nat} {asid : BitVec 12} {off : Nat} {r : Except Nat Word} (h : s.memOk)
    (e : allocPage s o asid off = (t, r)) : t.memOk := by
  have hp : (Machine.allocPage s o asid off).1.memOk := by
    unfold Machine.allocPage
    extract_lets +onlyGivenNames desc
    split
    · exact h
    · split
      · exact h
      · exact h
      · exact h
      · split
        · exact h
        · split
          · exact h
          · extract_lets +onlyGivenNames size
            split
            · exact h
            · extract_lets +onlyGivenNames rec_ count list entries bad held r s1
              have h1 : s1.memOk := memOk_writeMa _ _ _ _ (memOk_writeMa _ _ _ _ h)
              split
              · exact h1
              · exact .foldl (.zeroPieces h1) fun _ _ h2 => memOk_writeTenant _ _ _ _ _ h2
  rwa [e] at hp

theorem Out.memOk.execPgsvcAlloc {d : SReg} {a : AReg} {s : State} (h : s.memOk) : Out.memOk (execPgsvcAlloc d a s) := by
  unfold Machine.execPgsvcAlloc
  refine .next ?_
  split
  · exact h
  · split
    · exact .status (.allocPage h ‹_›)
    · exact .hold (.askResident (.allocPage h ‹_›))

theorem Out.memOk.execCurset {a b : SReg} {s : State} (h : s.memOk) : Out.memOk (execCurset a b s) := by
  unfold Machine.execCurset
  extract_lets +onlyGivenNames n r
  split
  · exact .next (.trap h)
  · split
    · exact .next (.trap h)
    · exact .ite (.next (.privFault h)) (.ite (.next h) (.next h))

theorem State.memOk.queueJob {s : State} {d : SReg} {es : List (Extent × Nat)} (h : s.memOk) : (queueJob s d es).memOk :=
  .ite h (.status (.ite h h))

theorem Out.memOk.execBlot {d : SReg} {a : AReg} {s : State} (h : s.memOk) : Out.memOk (execBlot d a s) := by
  unfold Machine.execBlot
  extract_lets +onlyGivenNames ea
  refine .next ?_
  refine .atPriv h ?_
  split
  · exact .addrAlign h
  · refine .withRead h fun _ _ h1 => ?_
    split
    · exact h1
    · refine .withRead h1 fun _ _ h2 => ?_
      split
      · exact h2
      · exact .ite h2 (.queueJob h2)

theorem State.memOk.withTarget {s : State} {d : SReg} {name : Word} {f : CtxRef → Ctx → State}
    (h : s.memOk) (hf : ∀ x0 x1, (f x0 x1).memOk) : (withTarget s d name f).memOk := by
  unfold Machine.withTarget
  split
  · exact h
  · split
    · exact h
    · split
      · exact h
      · exact hf _ _

theorem Out.memOk.execCtxctlSoft {d a : SReg} {s : State} (h : s.memOk) : Out.memOk (execCtxctlSoft d a s) :=
  .next (.atPriv h (.withTarget h (fun _ _ => .ite h (.status (.requestCtx h)))))

theorem Out.memOk.execCtxctlHalt {d a : SReg} {s : State} (h : s.memOk) : Out.memOk (execCtxctlHalt d a s) :=
  .next (.atPriv h (.withTarget h (fun _ _ => .ite h (.status (.requestCtx h)))))

theorem Out.memOk.execCtxctlResume {d a : SReg} {s : State} (h : s.memOk) : Out.memOk (execCtxctlResume d a s) := by
  unfold Machine.execCtxctlResume
  refine .next ?_
  refine .atPriv h ?_
  refine .withTarget h fun _ _ => ?_
  split
  · exact h
  · split
    · exact .status (.putCtx h)
    · exact .status (.putCtx h)
    · exact h

/-! ### Synchronisation instructions -/

theorem State.memOk.withGroup {s : State} {g : Nat} {f : Group → State} (h : s.memOk) (hf : ∀ x0, (f x0).memOk) : (s.withGroup g f).memOk :=
  .ite (hf _) (.trap h)

theorem State.memOk.atRoot {s : State} {g : Nat} {f : Group → State} (h : s.memOk) (hf : ∀ x0, (f x0).memOk) : (s.atRoot g f).memOk :=
  .withGroup h (fun _ => .ite h (hf _))

theorem Out.memOk.execBarr {d a : SReg} {s : State} (h : s.memOk) : Out.memOk (execBarr d a s) := by
  unfold Machine.execBarr
  extract_lets +onlyGivenNames n
  refine .next ?_
  refine .atRoot h fun _ => ?_
  split
  · exact h
  · split
    · exact h
    · exact .status (.putGroup h)

theorem Out.memOk.execBwait {d a : SReg} {s : State} (h : s.memOk) : Out.memOk (execBwait d a s) := by
  unfold Machine.execBwait
  extract_lets +onlyGivenNames v
  refine .next ?_
  refine .atRoot h fun _ => ?_
  split
  · exact h
  · exact h
  · exact h
  · exact .trap h

theorem Out.memOk.execBtry {d a : SReg} {s : State} (h : s.memOk) : Out.memOk (execBtry d a s) := by
  unfold Machine.execBtry
  extract_lets +onlyGivenNames v
  refine .next ?_
  refine .atRoot h fun _ => ?_
  split
  · exact h
  · exact h
  · exact h
  · exact .trap h

theorem Out.memOk.execBarrierCompletionArrival {r : StrandRef} {s : State} (h : s.memOk) : Out.memOk (execBarrierCompletionArrival r s) := by
  unfold Machine.execBarrierCompletionArrival
  split
  · split
    · exact .next h
    · split
      · exact .next h
      · exact .next h
      · exact .next h
  · exact .next h

theorem State.memOk.remoteGroup {s : State} {n pkg members inC inC1 : Nat} (h : s.memOk) : (remoteGroup s n pkg members inC inC1).memOk :=
  .ite h (.putGroup h)

theorem State.memOk.rootGeneration {s : State} {n root : Nat} {c : BitVec 32} (h : s.memOk) : (rootGeneration s n root c).memOk :=
  .ite h (.ite (.putGroup h) (.ite h (.putGroup h)))

theorem State.memOk.otherPackageReset {s : State} {pkg : Nat} (h : s.memOk) : (otherPackageReset s pkg).memOk :=
  .ite h (.foldl (.foldl h (fun _ _ h1 => .putGroup h1)) (fun _ _ h1 => .pfRecord h1))

theorem Out.memOk.execWaddr {c : WaitCond} {wide : Bool} {d b e : SReg} {m : MemOp} {s : State}
    (h : s.memOk) : Out.memOk (execWaddr c wide d b e m s) := by
  unfold Machine.execWaddr
  extract_lets +onlyGivenNames ea mask expected
  split
  · exact .next (.addrAlign h)
  · refine .next ?_
    split
    · exact .memFail h
    · extract_lets +onlyGivenNames v
      split
      · exact h
      · exact .charged h (fun _ h1 => .ite (.modSt (.countRead h1)) (.modSt (.modDie (.countRead h1))))

theorem Out.memOk.execWake {wide : Bool} {d b : SReg} {m : MemOp} {s : State} (h : s.memOk) : Out.memOk (execWake wide d b m s) := by
  unfold Machine.execWake
  extract_lets +onlyGivenNames ea n
  split
  · exact .next (.addrAlign h)
  · refine .next ?_
    split
    · exact .memFail h
    · split
      · exact h
      · exact .charged h (fun _ h1 => .status (.foldl (.modDie (.countRead h1)) (fun _ _ h2 => h2)))

theorem Out.memOk.execQbind {d a b : SReg} {q : Fin 8} {depth1 : Fin 32} {s : State} (h : s.memOk) : Out.memOk (execQbind d a b q depth1 s) := by
  unfold Machine.execQbind
  extract_lets +onlyGivenNames die
  refine .next ?_
  split
  · exact .ite h (.ite h h)
  · exact h

theorem Out.memOk.execQunbind {d : SReg} {q : Fin 8} {s : State} (h : s.memOk) : Out.memOk (execQunbind d q s) := by
  unfold Machine.execQunbind
  refine .next ?_
  split
  · exact h
  · exact .ite h h

/-! ### Issue of engine commands -/

theorem State.memOk.beginTransfer {s : State} {x : Ctx} {i : Nat} (h : s.memOk) : (beginTransfer s x i).memOk :=
  .setHandle h

theorem State.memOk.acceptCmd {s : State} {q : Fin 6} {c : Accept} (h : s.memOk) : (s.acceptCmd q c).memOk :=
  .modCx (.foldl h (fun _ _ h1 => .beginTransfer h1))

theorem State.memOk.acceptPair {s : State} {p : Accept × Option Accept} {after : Option Nat} (h : s.memOk) : (s.acceptPair p after).memOk := by
  unfold State.acceptPair
  extract_lets +onlyGivenNames mat src s1
  have h1 : s1.memOk := .acceptCmd h
  split
  · exact .acceptCmd h1
  · exact h1

theorem State.memOk.retireCmds {s : State} {n : Nat} (h : s.memOk) : (s.retireCmds n).memOk :=
  h

theorem State.memOk.issueCopy {s : State} {ch : Fin 4} {fo : Option FollowOn} {p : Except Nat (Accept × Nat)}
    (h : s.memOk) : (issueCopy s ch fo p).memOk := by
  unfold Machine.issueCopy
  split
  · exact h
  · split
    · exact .trap h
    · split
      · exact .trap h
      · extract_lets +onlyGivenNames num s1
        have h1 : s1.memOk := .modCx (.acceptCmd h)
        refine .retireCmds ?_
        split
        · exact .acceptPair h1
        · exact h1

theorem State.memOk.issueMat {s : State} {m : MatCmd} {tag : Option (Fin 16)} (h : s.memOk) : (issueMat s m tag).memOk := by
  unfold Machine.issueMat
  split
  · exact h
  · split
    · exact .trap h
    · exact .retireCmds (.acceptPair h)

theorem Out.memOk.execChain {c : ChainCmd} {s : State} (h : s.memOk) : Out.memOk (execChain c s) := by
  unfold Machine.execChain
  split
  · exact .next h
  · refine .next ?_
    split
    · exact .trap h
    · exact .retireCmds (.acceptCmd h)

theorem State.memOk.putBound {s : State} {f : CtxRef × Nat × BoundQ} (h : s.memOk) : (putBound s f).memOk :=
  .modRef h

theorem Out.memOk.execBswapOpen {d : SReg} {v : VNum} {n : BitVec 6} {s : State} (h : s.memOk) : Out.memOk (execBswapOpen d v n s) := by
  unfold Machine.execBswapOpen
  extract_lets +onlyGivenNames x
  exact .ite (.next h) (.ite (.next h) (.ite (.next h) (.ite (.next h) (.next (.status (.modCx (.setUpLeaves h)))))))

theorem State.memOk.startCommit {s : State} {d : SReg} {reopen : Bool} (h : s.memOk) : (startCommit s d reopen).memOk := by
  unfold Machine.startCommit
  split
  · exact h
  · exact .ite h (.ite h h)

/-! ### Vector register instructions -/

theorem State.memOk.setGroupNat {s : State} {base : VNum} {g x : Nat} (h : s.memOk) : (s.setGroupNat base g x).memOk :=
  .foldl h (fun _ _ h1 => h1)

theorem Out.memOk.vecWrite {s : State} {d : VNum} {t : ETy} {m : Option MNum} {new : List Nat} (h : s.memOk) : Out.memOk (vecWrite s d t m new) :=
  .next h

theorem Out.memOk.vecOp1 {f : Nat → Nat} {d a : VNum} {t : ETy} {m : Option MNum} {s : State} (h : s.memOk) : Out.memOk (vecOp1 f d a t m s) :=
  .vecWrite h

theorem Out.memOk.vecOp2 {f : Nat → Nat → Nat} {d a b : VNum} {t : ETy} {m : Option MNum} {s : State}
    (h : s.memOk) : Out.memOk (vecOp2 f d a b t m s) :=
  .vecWrite h

theorem Out.memOk.vecWiden {fi : Int → Int → Int} {ff : Num → Num → Num} {d a b : VNum} {ty : ETy} {m : Option MNum} {s : State}
    (h : s.memOk) : Out.memOk (vecWiden fi ff d a b ty m s) :=
  .next (.retire (.setGroupNat h))

theorem Out.memOk.vecShift {f : Nat → Nat → Nat} {d a : VNum} {n : VCount} {ty : ETy} {m : Option MNum} {s : State}
    (h : s.memOk) : Out.memOk (vecShift f d a n ty m s) :=
  .vecWrite h

theorem State.memOk.cvtWrite {s : State} {o : VcvtOp} {new : List Nat} (h : s.memOk) : (cvtWrite s o new).memOk :=
  .setGroupNat h

theorem State.memOk.cvtPred {s : State} {o : VcvtOp} {ev : Bool} (h : s.memOk) : (s.cvtPred o ev).memOk :=
  .ite h h

theorem Out.memOk.execVcvt {o : VcvtOp} {s : State} (h : s.memOk) : Out.memOk (execVcvt o s) := by
  unfold Machine.execVcvt
  extract_lets +onlyGivenNames vals
  exact .ite (.ite (.next (.retire (.cvtPred h))) (.next (.retire (.cvtPred (.setV (.cvtWrite h))))))
    (.ite (.next (.retire (.cvtPred h))) (.next (.retire (.cvtPred (.cvtWrite h)))))

/-! ### What a copy and a chain do to bytes when they run -/

theorem State.memOk.noteTile {s : State} {e : Eng} {kind : Nat} {oobs : List Word} (h : s.memOk) : (noteTile s e kind oobs).memOk := by
  unfold Machine.noteTile
  split
  · exact .modRef h
  · exact h

theorem State.memOk.noteFixed {s : State} {e : Eng} {rs : List RowRead} (h : s.memOk) : (noteFixed s e rs).memOk :=
  .ite h h

theorem State.memOk.noteReads {s : State} {e : Eng} {rs : List RowRead} (h : s.memOk) : (noteReads s e rs).memOk :=
  .noteTile (.noteFixed h)

theorem State.memOk.landRow {e : Eng} {num : Nat} {pages : List (Word × Xl)} {crc : Bool} {l : Landed} {w : RowWrite} (h : l.state.memOk) :
    (landRow e num pages crc l w).state.memOk := by
  unfold Machine.landRow
  split
  · split
    · exact h
    · exact .modRef h
    · exact h
  · exact h

theorem State.memOk.landRows {s : State} {e : Eng} {num : Nat} {pages : List (Word × Xl)} {crc : Bool} {rows : List RowWrite} (h : s.memOk) :
    (landRows s e num pages crc rows).state.memOk :=
  List.foldlRecOn (motive := fun l : Landed => l.state.memOk) rows _ h fun _ hl _ _ => .landRow hl

theorem State.memOk.runPieces {s : State} {e : Eng} {x : Ctx} {t : Task} {src dst : Place} {rowLen rows ss ds : Nat} {crc : Bool} {ps : List Piece}
    (h : s.memOk) : (runPieces s e x t src dst rowLen rows ss ds crc ps).state.memOk :=
  .landRows (.noteFixed h)

theorem State.memOk.runCopy {s : State} {e : Eng} {x : Ctx} {t : Task} {src dst : Place} {rowLen rows ss ds : Nat} {crc : Bool}
    (h : s.memOk) : (runCopy s e x t src dst rowLen rows ss ds crc).state.memOk :=
  .noteTile (.noteTile (.runPieces h))

theorem State.memOk.runChunk {s u : State} {e : Eng} {x : Ctx} {t : Task} {src : Place} {slot off len : Nat} (h : s.memOk)
    (he : runChunk s e x t src slot off len = .ok u) : u.memOk := by
  unfold Machine.runChunk at he
  split at he
  · cases he
  · cases he
    exact .modCore (.noteFixed h)

theorem State.memOk.runCopyO {s u : State} {e : Eng} {x : Ctx} {t : Task} {src : Place} {slot len : Nat} (h : s.memOk)
    (he : runCopyO s e x t src slot len = .ok u) : u.memOk := by
  unfold Machine.runCopyO at he
  cases hr : Machine.runChunk s e x t src slot t.progress (len - t.progress) with
  | error er => rw [hr] at he; cases he
  | ok v =>
    rw [hr] at he
    cases he
    exact .noteTile (.noteTile (.runChunk h hr))

theorem State.memOk.chainRows {s : State} {e : Eng} {x : Ctx} {t : Task} {l : ChainList} {a b d : Place} {crc : Bool} {start n : Nat}
    (h : s.memOk) : (chainRows s e x t l a b d crc start n).1.state.memOk :=
  .landRows (.noteFixed (.noteFixed h))

theorem State.memOk.noteChain {s : State} {e : Eng} {x : Ctx} {l : ChainList} {a b d : Place} {n : Nat}
    (h : s.memOk) : (noteChain s e x l a b d n).memOk :=
  .noteTile (.noteTile (.noteTile h))

theorem State.memOk.runChain {s : State} {e : Eng} {x : Ctx} {t : Task} {list : VecWord} {a b d : Place} {crc : Bool}
    (h : s.memOk) : (runChain s e x t list a b d crc).1.state.memOk := by
  unfold Machine.runChain
  split
  · exact h
  · exact .noteChain (.chainRows h)

/-! ### Tile products -/

theorem State.memOk.noteSlot {s : State} {e : Eng} {x : Ctx} {slot : Nat} (h : s.memOk) : (noteSlot s e x slot).memOk :=
  .ite h (.noteTile h)

theorem State.memOk.fetchStage {s u : State} {e : Eng} {x : Ctx} {t : Task} {f : Fmt} {a : Place} {port : Option Nat} {slot stride lines : Nat}
    {g : Stage} (h : s.memOk) (he : fetchStage s e x t f a port slot stride lines = .ok (u, g)) : u.memOk := by
  unfold Machine.fetchStage at he
  split at he
  · cases he
    exact h
  · split at he
    · cases he
    · split at he
      · cases he
      · cases he
      · cases he
      · cases he
        exact .noteSlot (.noteReads (.noteReads (.noteReads h)))

theorem State.memOk.writeProduct {s u : State} {e : Eng} {x : Ctx} {num : Nat} {c : Word} {zero : Bool} {p : MatPart} (h : s.memOk)
    (he : writeProduct s e x num c zero p = .ok u) : u.memOk := by
  unfold Machine.writeProduct at he
  split at he
  · cases he
  · dsimp only at he
    split at he
    · cases he
    · cases he
      exact .noteTile (.landRows (.noteReads h))

theorem State.memOk.runMatrix {s u : State} {e : Eng} {x : Ctx} {t : Task} {f : Fmt} {a : Place} {port : Option Nat} {slot stride : Nat} {c : Word}
    {zero : Bool} (h : s.memOk) (he : runMatrix s e x t f a port slot c stride zero = .ok u) : u.memOk := by
  unfold Machine.runMatrix at he
  split at he
  · cases he
  · split at he
    · cases he
    · cases he
      exact .writeProduct (.fetchStage h ‹_›) ‹_›

/-! ### The life of a task before it runs -/

theorem State.memOk.countSdc {s : State} {core : Nat} {c : EngineCause} (h : s.memOk) : (countSdc s core c).memOk := by
  unfold Machine.countSdc
  split
  · exact h
  · exact h
  · exact h
  · exact h

theorem State.memOk.storeSdc {s : State} {ref : CtxRef} {id : PhaseId} {q : Nat} {t : Task} (h : s.memOk) : (storeSdc s ref id q t).memOk :=
  .abortPhase (.countSdc h)

theorem State.memOk.commitPhase {s : State} {ref : CtxRef} {id : PhaseId} (h : s.memOk) : (commitPhase s ref id).memOk := by
  unfold Machine.commitPhase
  split
  · exact h
  · split
    · exact .storeSdc h
    · extract_lets +onlyGivenNames s1 s2 s3
      have h1 : s1.memOk := memOk_perform _ _ h
      have h2 : s2.memOk := .foldl h1 (fun _ _ h2 => .dropTransfer h2)
      have h3 : s3.memOk := h2
      exact .modRef h3

theorem State.memOk.commitOwn {s : State} {ref : CtxRef} {t : Task} (h : s.memOk) : (commitOwn s ref t).memOk := by
  unfold Machine.commitOwn
  split
  · exact h
  · exact .ite h (.commitPhase h)

theorem State.memOk.taskDone {s : State} {ref : CtxRef} {num : Nat} (h : s.memOk) : (taskDone s ref num).memOk := by
  unfold Machine.taskDone
  split
  · exact h
  · split
    · exact h
    · exact .modRef (.commitOwn (.modRef h))

theorem State.memOk.waitPoisoned {s : State} {ref : CtxRef} {q : Fin 6} {t : Task} (h : s.memOk) : (waitPoisoned s ref q t).memOk :=
  .abortPhase h

theorem State.memOk.advanceFront {s t : State} {ref : CtxRef} {q : Fin 6} (h : s.memOk) (e : advanceFront s ref q = some t) : t.memOk := by
  unfold Machine.advanceFront at e
  split at e
  · cases e
  · split at e
    · cases e
    · extract_lets +onlyGivenNames put at e
      have hp : ∀ f, (put f).memOk := fun _ => .modRef h
      split at e
      · split at e
        · cases e
          exact hp _
        · cases e
      · split at e
        · split at e
          · cases e
            exact .waitPoisoned h
          · split at e
            · cases e
              exact .modRef h
            · cases e
        · split at e
          · cases e
            exact .taskDone h
          · split at e
            · cases e
              exact hp _
            · cases e
      · cases e

theorem State.memOk.advanceQueue {ref : CtxRef} {q : Fin 6} {n : Nat} {s : State} (h : s.memOk) : (advanceQueue ref q n s).memOk := by
  induction n generalizing s with
  | zero => exact h
  | succ n ih =>
    unfold Machine.advanceQueue
    split
    · exact ih (.advanceFront h ‹_›)
    · exact h

theorem State.memOk.releaseHolds {s : State} {ref : CtxRef} (h : s.memOk) : (releaseHolds s ref).memOk := by
  unfold Machine.releaseHolds
  split
  · exact h
  · exact .foldl h (fun _ _ h1 => .modRef h1)

theorem State.memOk.settleAcquires {s : State} {ref : CtxRef} (h : s.memOk) : (settleAcquires s ref).memOk := by
  unfold Machine.settleAcquires
  split
  · exact h
  · exact .ite (.modRef (.dropMargin h)) h

theorem State.memOk.settleCtx {s : State} {ref : CtxRef} (h : s.memOk) : (settleCtx s ref).memOk := by
  unfold Machine.settleCtx
  split
  · exact h
  · extract_lets +onlyGivenNames s1 x
    have h1 : s1.memOk := .ite h (.modRef h)
    exact .ite (.modRef h1) (.modRef (.settleAcquires (.modRef (.foldl (.releaseHolds (.ite h1 (.putCtx h1))) (fun _ _ h2 => .advanceQueue h2)))))

/-! ### Engine events -/

theorem State.memOk.abortFor {s : State} {ref : CtxRef} {q : Nat} {t : Task} {code stage : Nat} {addr : Word} {classD : Bool} {hold : Option Hold}
    (h : s.memOk) : (abortFor s ref q t code stage addr classD hold).memOk :=
  .abortPhase h

theorem State.memOk.askHold {s : State} {ref : CtxRef} {h3 : Option Hold} (h : s.memOk) : (askHold s ref h3).memOk := by
  unfold Machine.askHold
  split
  · exact .askResident h
  · exact h

theorem State.memOk.countEng {s : State} {ref : CtxRef} {code : Nat} {addr : Word} (h : s.memOk) : (countEng s ref code addr).memOk := by
  unfold Machine.countEng
  split
  · exact .ite (.countError h) (.ite (.countError h) h)
  · exact h

theorem State.memOk.engFail {s : State} {ref : CtxRef} {q : Nat} {t : Task} {e : EngErr} (h : s.memOk) : (engFail s ref q t e).memOk := by
  unfold Machine.engFail
  split
  · exact .askHold (.abortFor (.countEng h))
  · exact h

theorem State.memOk.takePages {s : State} {ref : CtxRef} {q : Nat} {x : Ctx} {t : Task} (h : s.memOk) : (takePages s ref q x t).memOk := by
  unfold Machine.takePages
  split
  · exact h
  · split
    · exact .engFail h
    · exact .modRef (.holdAll h)

theorem State.memOk.popOperand {s : State} {ref : CtxRef} {q : Nat} {x : Ctx} {t : Task} (h : s.memOk) : (popOperand s ref q x t).memOk := by
  unfold Machine.popOperand
  split
  · exact h
  · extract_lets +onlyGivenNames fail
    have hf : ∀ u : State, u.memOk → (fail u).memOk := fun _ hu => .abortFor hu
    split
    · exact hf _ h
    · split
      · exact h
      · extract_lets +onlyGivenNames s1 ext s2
        have h2 : s2.memOk := .modRef (.putBound h)
        exact .ite (hf _ h2) h2

theorem State.memOk.startTask {s : State} {n : Named} (h : s.memOk) : (startTask s n).memOk := by
  unfold Machine.startTask
  split
  · exact h
  · extract_lets +onlyGivenNames s1 s2
    have h1 : s1.memOk := .modRef h
    have h2 : s2.memOk := .popOperand h1
    split
    · exact .ite (.takePages h2) h2
    · exact h2

theorem State.memOk.markWin {s : State} {e : Entry} (h : s.memOk) : (markWin s e).memOk :=
  .ite (.foldl h (fun _ _ h1 => .modRef h1)) h

theorem State.memOk.startWinners {s : State} {core : Nat} (h : s.memOk) : (startWinners s core).memOk := by
  unfold Machine.startWinners
  split
  · exact h
  · refine .foldl h fun _ _ h1 => ?_
    split
    · exact .ite (.startTask h1) h1
    · exact h1

theorem State.memOk.setUnit {s : State} {core : Nat} {eng : Engine} {g : Tdu} (h : s.memOk) : (setUnit s core eng g).memOk :=
  h

theorem Out.memOk.execTaskDraw {core : Nat} {eng : Engine} {s : State} (h : s.memOk) : Out.memOk (execTaskDraw core eng s) := by
  unfold Machine.execTaskDraw
  split
  · split
    · exact .next (.markWin h)
    · exact .next h
  · exact .next h

theorem Out.memOk.execOverdueSlot {core : Nat} {eng : Engine} {s : State} (h : s.memOk) : Out.memOk (execOverdueSlot core eng s) := by
  unfold Machine.execOverdueSlot
  split
  · split
    · exact .next (.markWin h)
    · exact .next h
  · exact .next h

theorem Out.memOk.execJointQmmaStart {quad : Nat} {s : State} (h : s.memOk) : Out.memOk (execJointQmmaStart quad s) := by
  unfold Machine.execJointQmmaStart
  extract_lets bad
  clear_value bad
  split
  · exact .next (.foldl h fun _ _ h1 => .abortFor h1)
  · split
    · split
      · exact .next (.markWin (.setUnit h))
      · exact .next h
    · exact .next h

theorem State.memOk.stageTask {s u : State} {ref : CtxRef} {x : Ctx} {t : Task} {g : Stage} (h : s.memOk) (he : stageTask s ref x t = .ok (u, g)) :
    u.memOk := by
  unfold Machine.stageTask at he
  split at he
  · exact .fetchStage h he
  · cases he
    exact h

theorem State.memOk.jointStages {ns : List Named} {s u : State} {gs : List (Named × Stage)} (h : s.memOk) (he : jointStages ns s = .ok (u, gs)) :
    u.memOk := by
  induction ns generalizing s gs with
  | nil => cases he; exact h
  | cons m r ih =>
    unfold Machine.jointStages at he
    split at he
    · split at he
      · cases he
      next t g hs =>
        cases hr : Machine.jointStages r t with
        | error p => rw [hr] at he; cases he
        | ok q => rw [hr] at he; cases he; exact ih (.stageTask h hs) hr
    · exact ih h he

theorem State.memOk.jointWrites {parts : List MatPart} {ns : List (Named × Nat)} {s u : State} (h : s.memOk) (he : jointWrites parts ns s = .ok u) :
    u.memOk := by
  induction ns generalizing s with
  | nil => cases he; exact h
  | cons m r ih =>
    unfold Machine.jointWrites at he
    split at he
    · split at he
      · cases he
      · exact ih (.modRef (.writeProduct h ‹_›)) he
    · exact ih h he

theorem State.memOk.keepRows {s : State} {ref : CtxRef} {t : Task} {rows : Nat} {bs : List Byte} (h : s.memOk) : (keepRows s ref t rows bs).memOk :=
  .modRef h

theorem State.memOk.matFail {s : State} {ref : CtxRef} {q : Nat} {t : Task} {er : MatErr} (h : s.memOk) (hl : ∀ u, er.left = some u → u.memOk) :
    (matFail s ref q t er).memOk := by
  have hu : (er.left.getD s).memOk := by
    cases he : er.left with
    | none => exact h
    | some u => exact hl u he
  unfold Machine.matFail
  extract_lets +onlyGivenNames u
  split
  · exact .keepRows (.engFail hu)
  · exact .engFail hu

/-- A fetch that fails before a row is written leaves the state as it was. -/
theorem left_of_fetchRows_error {s : State} {e : Eng} {x : Ctx} {base : Place} {stride n : Nat} {kept : List Byte} {js : List Nat} {er : MatErr}
    (he : fetchRows s e x base stride n kept js = .error er) : er.left = none := by
  induction js generalizing kept with
  | nil => cases he
  | cons j js ih =>
    unfold fetchRows at he
    split at he
    · cases he
      rfl
    · exact ih he

theorem left_of_readA_error {s : State} {e : Eng} {x : Ctx} {t : Task} {a : Place} {port : Option Nat} {rows stride n : Nat} {er : MatErr}
    (he : readA s e x t a port rows stride n = .error er) : er.left = none := by
  unfold readA at he
  split at he
  · split at he
    · cases he
      exact left_of_fetchRows_error ‹_›
    · cases he
  · dsimp only at he
    split at he
    · cases he
      rfl
    · cases he

theorem left_of_readScales_error {s : State} {e : Eng} {x : Ctx} {used : Bool} {so lines nb : Nat} {er : MatErr}
    (he : readScales s e x used so lines nb = .error er) : er.left = none := by
  unfold readScales at he
  split at he
  · cases he
  · split at he
    · cases he
      rfl
    · cases he

theorem left_of_fetchStage_error {s : State} {e : Eng} {x : Ctx} {t : Task} {f : Fmt} {a : Place} {port : Option Nat} {slot stride lines : Nat} {er : MatErr}
    (he : fetchStage s e x t f a port slot stride lines = .error er) : er.left = none := by
  unfold fetchStage at he
  split at he
  · cases he
  · split at he
    · cases he
      exact left_of_readA_error ‹_›
    · split at he
      · cases he
        exact left_of_readScales_error ‹_›
      · cases he
        exact left_of_readScales_error ‹_›
      · cases he
        rfl
      · cases he

theorem left_of_stageTask_error {s : State} {ref : CtxRef} {x : Ctx} {t : Task} {er : MatErr} (he : stageTask s ref x t = .error er) : er.left = none := by
  unfold stageTask at he
  split at he
  · exact left_of_fetchStage_error he
  · cases he

theorem left_of_jointStages_error {ns : List Named} {s : State} {n : Named} {er : MatErr} (he : jointStages ns s = .error (n, er)) : er.left = none := by
  induction ns generalizing s with
  | nil => cases he
  | cons m r ih =>
    unfold jointStages at he
    split at he
    · split at he
      · cases he
        exact left_of_stageTask_error ‹_›
      next t g hs =>
        cases hr : jointStages r t with
        | error p => rw [hr] at he; cases he; exact ih hr
        | ok q => rw [hr] at he; cases he
    · exact ih he

theorem Out.memOk.execJointWriteInstant {quad : Nat} {s : State} (h : s.memOk) : Out.memOk (execJointWriteInstant quad s) := by
  unfold Machine.execJointWriteInstant
  split
  · split
    · exact .next h
    · split
      · split
        · exact .next h
        · exact .next (.matFail h fun _ hu => by rw [left_of_jointStages_error ‹_›] at hu; cases hu)
      · split
        · exact .next (.engFail h)
        · exact .next (.jointWrites (.jointStages h ‹_›) ‹_›)
  · exact .next h

theorem State.memOk.pushResult {s u : State} {ref : CtxRef} {q : Nat} {x : Ctx} {t : Task} {v : Option Word} (h : s.memOk)
    (e : pushResult s ref q x t v = .ok u) : u.memOk := by
  unfold Machine.pushResult at e
  split at e
  · split at e
    · split at e
      · cases e
      · split at e
        · cases e
        · cases e
          exact .putBound h
    · split at e
      · cases e
      · split at e
        · cases e
          exact h
        · dsimp only at e
          split at e
          · cases e
          · cases e
            exact .modRef h
  · cases e
    exact h

theorem State.memOk.runCmd {s u : State} {ref : CtxRef} {x : Ctx} {t : Task} {v : Option Word} (h : s.memOk) (e : runCmd s ref x t = .ok (u, v)) :
    u.memOk := by
  unfold Machine.runCmd at e
  extract_lets eng landed at e
  have hl : ∀ (l : Landed) (w : Option Word), l.state.memOk → landed l w = Except.ok (u, v) → u.memOk := by
    intro l w hl hw
    unfold landed at hw
    split at hw
    · cases hw
      exact hl
    · cases hw
  split at e
  · cases e
    exact h
  · exact hl _ _ (.runCopy h) e
  · split at e
    · cases e
      exact .runCopyO h ‹_›
    · cases e
  · exact hl _ _ (.runChain h) e
  · split at e
    · next f _ =>
      cases hm : Machine.runMatrix s eng x t f _ _ _ _ _ _ with
      | error er => rw [hm] at e; cases e
      | ok w => rw [hm] at e; cases e; exact .runMatrix h hm
    · cases e
      exact h
  · cases e
    exact h

theorem State.memOk.hostPaid {s : State} {core : Nat} {x : Ctx} {t : Task} (h : s.memOk) : (hostPaid s core x t).memOk :=
  .foldl h (fun _ _ h1 => .hostChargeN h1)

theorem State.memOk.noteStreams {s : State} {core : Nat} {x : Ctx} {t : Task} (h : s.memOk) : (noteStreams s core x t).memOk :=
  .foldl h (fun _ _ h1 => .foldl h1 (fun _ _ h2 => .noteAccess (.ite (.crossLinks h2) (.useLines h2))))

theorem Out.memOk.landPiece {core slot queue pos : Nat} {s : State} (h : s.memOk) : Out.memOk (landPiece core slot queue pos s) := by
  unfold Machine.landPiece
  extract_lets +onlyGivenNames ref e landed
  have hl : ∀ (u : State) (t : Task) (n : Nat), u.memOk → (landed u t n).memOk := fun _ _ _ hu => .modRef hu
  split
  · exact .next h
  · split
    · exact .next h
    · split
      · extract_lets +onlyGivenNames c l
        have h1 : l.state.memOk := .runPieces h
        split
        · exact .next (.engFail h1)
        · exact .next (hl _ _ _ h1)
      · extract_lets +onlyGivenNames n
        split
        · exact .next (.engFail h)
        · exact .next (hl _ _ _ (.runChunk h ‹_›))
      · split
        · exact .next h
        · extract_lets +onlyGivenNames r
          have h1 : r.1.state.memOk := .chainRows h
          split
          · exact .next (.engFail h1)
          · exact .next (.modRef h1)
      · extract_lets +onlyGivenNames ns
        split
        · exact .next h
        · split
          · exact .next (.matFail h fun _ hu => by rw [left_of_jointStages_error ‹_›] at hu; cases hu)
          · exact .next (.foldl (.jointStages h ‹_›) fun _ _ h1 => .modRef h1)
      · exact .next h

theorem left_of_runMatrix_error {s : State} {e : Eng} {x : Ctx} {t : Task} {f : Fmt} {a : Place} {port : Option Nat} {slot stride : Nat} {c : Word}
    {zero : Bool} {er : MatErr} (he : runMatrix s e x t f a port slot c stride zero = .error er) : er.left = none := by
  unfold runMatrix at he
  split at he
  · cases he
    exact left_of_fetchStage_error ‹_›
  · split at he
    · cases he
      rfl
    · cases he

theorem State.memOk.runCmd_left {s u : State} {ref : CtxRef} {x : Ctx} {t : Task} {er : MatErr}
    (h : s.memOk) (e : Machine.runCmd s ref x t = .error er)
    (hu : er.left = some u) : u.memOk := by
  unfold Machine.runCmd at e
  extract_lets eng landed at e
  have hl : ∀ (l : Landed) (w : Option Word), l.state.memOk → landed l w = Except.error er → u.memOk := by
    intro l w hl hw
    unfold landed at hw
    split at hw
    · cases hw
    · cases hw
      cases hu
      exact hl
  split at e
  · cases e
  · exact hl _ _ (.runCopy h) e
  · split at e
    · cases e
    · cases e
      cases hu
  · exact hl _ _ (.runChain h) e
  · split at e
    · next f _ =>
      cases hm : Machine.runMatrix s eng x t f _ _ _ _ _ _ with
      | error er => rw [hm] at e; cases e; rw [left_of_runMatrix_error hm] at hu; cases hu
      | ok w => rw [hm] at e; cases e
    · cases e
  · cases e

theorem Out.memOk.execTaskComplete {core slot queue pos : Nat} {s : State} (h : s.memOk) : Out.memOk (execTaskComplete core slot queue pos s) := by
  unfold Machine.execTaskComplete
  extract_lets +onlyGivenNames ref
  split
  · exact .next h
  · split
    · exact .next h
    · split
      · split
        · exact .next h
        · exact .next (.matFail h fun _ hu => .runCmd_left h ‹_› hu)
      · split
        · exact .next h
        · exact .next (.abortFor h)
        · exact .ite (.next h) (.next (.taskDone (.modRef (.noteStreams (.hostPaid (.pushResult (.runCmd h ‹_›) ‹_›))))))

theorem Out.memOk.execTaskBudgetRelease {core slot queue pos : Nat} {s : State}
    (h : s.memOk) : Out.memOk (execTaskBudgetRelease core slot queue pos s) := by
  unfold Machine.execTaskBudgetRelease
  split
  · exact .next h
  · exact .ite (.next h) (.next (.foldl h (fun _ _ h1 => .modRef h1)))

theorem Out.memOk.execTaskStallRelease {core slot queue pos : Nat} {s : State}
    (h : s.memOk) : Out.memOk (execTaskStallRelease core slot queue pos s) := by
  unfold Machine.execTaskStallRelease
  split
  · exact .next h
  · exact .ite (.next h) (.next (.foldl h (fun _ _ h1 => .modRef h1)))

theorem State.memOk.clearStalls {s : State} {ref : CtxRef} {i : Nat} (h : s.memOk) : (clearStalls s ref i).memOk := by
  unfold Machine.clearStalls
  split
  · exact h
  · exact .ite (.putCtx h) h

theorem Out.memOk.execPhaseCommit {c : CtxRef} {s : State} (h : s.memOk) : Out.memOk (execPhaseCommit c s) := by
  unfold Machine.execPhaseCommit
  split
  · exact .next h
  · split
    · exact .next h
    · split
      · exact .next h
      · extract_lets +onlyGivenNames ps
        split
        · exact .next h
        · split
          · exact .next (.modRef h)
          · split
            · exact .next (.commitPhase h)
            · extract_lets +onlyGivenNames s1
              have h1 : s1.memOk := .commitPhase h
              split
              · refine .next ?_
                refine .modRef ?_
                split
                · exact .setUpLeaves h1
                · exact h1
              · exact .next (.modRef h1)

theorem State.memOk.starvePhase {s : State} {ref : CtxRef} {q : Nat} {t : Task} {addr : Word} (h : s.memOk) : (starvePhase s ref q t addr).memOk :=
  .modRef h

theorem Out.memOk.execPhaseAbort {c : CtxRef} {queue pos : Nat} {cause : EngineCause} {addr : Word} {s : State}
    (h : s.memOk) : Out.memOk (execPhaseAbort c queue pos cause addr s) := by
  unfold Machine.execPhaseAbort
  split
  · exact .next h
  · split
    · exact .next (.starvePhase h)
    · split
      · exact .next h
      · split
        extract_lets +onlyGivenNames u
        have h1 : u.memOk := .askHold (.abortFor (.countEng (.countSdc h)))
        refine .next ?_
        split
        · exact .keepRows h1
        · exact h1

theorem State.memOk.orphanKill {s : State} {c : CtxRef} {x : Ctx} {p : PendD} {code : Nat} (h : s.memOk) : (orphanKill s c x p code).memOk :=
  .killCtx h

theorem State.memOk.nestKill {s : State} {c : CtxRef} {x : Ctx} {code : Nat} (h : s.memOk) : (nestKill s c x code).memOk := by
  unfold Machine.nestKill
  split
  · exact .killCtx h
  · exact h

theorem Out.memOk.execClassDDelivery {c : CtxRef} {s : State} (h : s.memOk) : Out.memOk (execClassDDelivery c s) := by
  unfold Machine.execClassDDelivery
  split
  · exact .next h
  · split
    · exact .next h
    · extract_lets +onlyGivenNames drop
      split
      · exact .next (.modRef (.modStrandAt (.withdrawWaits (.modRef h))))
      · exact .next (.orphanKill (.modRef h))

theorem Out.memOk.execContextKill {c : CtxRef} {cause : KillCause} {s : State} (h : s.memOk) : Out.memOk (execContextKill c cause s) := by
  unfold Machine.execContextKill
  split
  · exact .next h
  · split
    · exact .next (.nestKill h)
    · exact .next (.killCtx h)
    · exact .next (.killCtx h)
    · refine .next ?_
      split
      · exact .orphanKill h
      · exact .killCtx h

theorem State.memOk.passTime {s : State} {c : Nat} (h : s.memOk) : (passTime s c).memOk :=
  h

theorem State.memOk.settle {s : State} (h : s.memOk) : (settle s).memOk := by
  unfold Machine.settle
  extract_lets +onlyGivenNames s1
  have h1 : s1.memOk := .foldl h (fun _ _ h1 => .startWinners (.pruneLeaves h1))
  exact .foldl h1 (fun _ _ h2 => .settleCtx (.clearStalls h2))

/-! ### Launch records, work objects, placement and completion of units, cancellation -/

theorem State.memOk.ensureJob {s : State} {job : Nat} (h : s.memOk) : (ensureJob s job).memOk :=
  .ite h h

theorem State.memOk.addChild {s : State} {key : Nat} (h : s.memOk) : (addChild s key).memOk := by
  unfold Machine.addChild
  split
  · exact h
  · exact h

theorem State.memOk.noteAsid {s : State} {job : Nat} {asid : BitVec 12} (h : s.memOk) : (noteAsid s job asid).memOk := by
  unfold Machine.noteAsid
  split
  · exact .ite h h
  · exact h

theorem State.memOk.newWork {s t : State} {w : Work} {parent id : Nat} (h : s.memOk) (e : newWork s w parent = (t, id)) : t.memOk := by
  cases e
  exact .addChild (.ensureJob h)

theorem State.memOk.createLaunch {s : State} {m : Maker} {ws : List Word} (h : s.memOk) : (createLaunch s m ws).1.memOk := by
  unfold Machine.createLaunch
  split
  · exact h
  · extract_lets +onlyGivenNames parent parentOk predOk
    split
    · exact h
    · split
      · exact h
      · exact .cascade (.noteAsid (.newWork h rfl))

theorem Out.memOk.execLaunch {d : SReg} {a : AReg} {disp : BitVec 32} {x4 : Fin 16} {s : State}
    (h : s.memOk) : Out.memOk (execLaunch d a disp x4 s) := by
  unfold Machine.execLaunch
  extract_lets +onlyGivenNames ea
  exact .ite (.next (.addrAlign h)) (.next (.withRead h (fun _ _ h1 => .withRead h1 (fun _ _ h2 => .status (.createLaunch h2)))))

theorem State.memOk.openWork {s : State} {d : SReg} {level parent : Nat} {notice : Word} {ok : Bool}
    (h : s.memOk) : (openWork s d level parent notice ok).memOk :=
  .ite h (.ite h (.status (.newWork h rfl)))

theorem State.memOk.closeWork {s : State} {d : SReg} {level : Nat} {v : Word} (h : s.memOk) : (closeWork s d level v).memOk := by
  unfold Machine.closeWork
  extract_lets +onlyGivenNames key
  split
  · exact .ite h (.pruneWorks (.reportWork h))
  · exact h

theorem State.memOk.cancelWork {s : State} {key : Nat} (h : s.memOk) : (cancelWork s key).memOk := by
  unfold Machine.cancelWork
  extract_lets +onlyGivenNames ks s1 s2 s3
  have h1 : s1.memOk := h
  have h2 : s2.memOk := .foldl h1 (fun _ _ h2 => .requestCtx h2)
  have h3 : s3.memOk := .foldl h2 (fun _ _ h3 => .ite (.cancelUnplaced h3) (.reportWork h3))
  exact .pruneWorks (.cascade h3)

theorem Out.memOk.execCancel {d a : SReg} {s : State} (h : s.memOk) : Out.memOk (execCancel d a s) := by
  unfold Machine.execCancel
  refine .next ?_
  split
  · exact h
  · exact .cancelWork h

theorem State.memOk.loadSections {s : State} {core : Nat} {x : Ctx} {p : Sections} (h : s.memOk) : (loadSections s core x p).memOk :=
  memOk_writeMa _ _ _ _ (SMap.wf_filter _ _ _ h)

theorem State.memOk.placeUnit {s : State} {u : WaitUnit} {w : Work} {p : LaunchSpec} (h : s.memOk) : (placeUnit s u w p).memOk := by
  unfold Machine.placeUnit
  extract_lets +onlyGivenNames k
  split
  · split
    · exact h
    · split
      · exact .gatherLeaves h ‹_›
      next t ls he =>
        have ht : t.memOk := .gatherLeaves h he
        extract_lets +onlyGivenNames k1 alone x src k2 t1
        have h1 : t1.memOk := .loadSections (.setCore ht)
        exact h1
  · exact h

theorem Out.memOk.execUnitPlacement {core : Nat} {s : State} (h : s.memOk) : Out.memOk (execUnitPlacement core s) := by
  unfold Machine.execUnitPlacement
  split
  · exact .next (.placeUnit h)
  · exact .next h

theorem Out.memOk.execUnitComplete {c : CtxRef} {s : State} (h : s.memOk) : Out.memOk (execUnitComplete c s) := by
  unfold Machine.execUnitComplete
  split
  · exact .next h
  · exact .ite (.next h) (.next (.unitDone (.modCore (.removeCtx h))))

/-! ### Spills and reloads, the pre-emption ladder, the shadow slots, context images -/

theorem Out.memOk.execLeafSpill {core leaf : Nat} {s : State} (h : s.memOk) : Out.memOk (execLeafSpill core leaf s) := by
  unfold Machine.execLeafSpill
  split
  · exact .ite (.next h) (.next (memOk_finishSpill _ _ _ h))
  · exact .next h

theorem Out.memOk.execInverseDrawRetry {core : Nat} {s : State} (h : s.memOk) : Out.memOk (execInverseDrawRetry core s) := by
  unfold Machine.execInverseDrawRetry
  split
  · exact .next h
  · split
    · exact .next h
    · refine .next ?_
      cases hd : inverseDraw s core _ with
      | none => exact h
      | some t => exact .inverseDraw h hd

theorem Out.memOk.execLeafReload {c : CtxRef} {leaf : Nat} {s : State} (h : s.memOk) : Out.memOk (execLeafReload c leaf s) := by
  unfold Machine.execLeafReload
  split
  · exact .ite (.next (.reloadLeaf h rfl)) (.next h)
  · exact .next h

theorem State.memOk.haltStrands {s : State} {core slot : Nat} (h : s.memOk) : (haltStrands s core slot).memOk := by
  unfold Machine.haltStrands
  exact .modCtx (.foldl h (fun _ _ h1 => h1))

theorem State.memOk.haltPhases {s : State} {core slot : Nat} (h : s.memOk) : (haltPhases s core slot).memOk :=
  .foldl h (fun _ _ h1 => .abortPhase h1)

theorem Out.memOk.execHaltComplete {core slot : Nat} {s : State} (h : s.memOk) : Out.memOk (execHaltComplete core slot s) := by
  unfold Machine.execHaltComplete
  split
  · exact .next h
  · exact .ite (.next h) (.ite (.next (.killCtx (.modCtx (.haltPhases (.haltStrands h))))) (.next (.modCtx (.haltPhases (.haltStrands h)))))

theorem Out.memOk.execSoftBoundary {core slot : Nat} {s : State} (h : s.memOk) : Out.memOk (execSoftBoundary core slot s) := by
  unfold Machine.execSoftBoundary
  split
  · exact .next h
  · exact .ite (.next (.holdJoints (.putCtx h))) (.next h)

theorem Out.memOk.execGraceExpiry {core slot : Nat} {s : State} (h : s.memOk) : Out.memOk (execGraceExpiry core slot s) := by
  unfold Machine.execGraceExpiry
  split
  · exact .next h
  · exact .ite (.next (.haltNow h)) (.next h)

theorem Out.memOk.execKillTimerExpiry {core slot : Nat} {s : State} (h : s.memOk) : Out.memOk (execKillTimerExpiry core slot s) := by
  unfold Machine.execKillTimerExpiry
  split
  · exact .next h
  · exact .ite (.next (.killCtx h)) (.next h)

theorem State.memOk.moveEnds {s : State} {core slot core2 slot2 : Nat} (h : s.memOk) : (moveEnds s core slot core2 slot2).memOk :=
  h

theorem Out.memOk.execSwapOut {core slot : Nat} {s : State} (h : s.memOk) : Out.memOk (execSwapOut core slot s) := by
  unfold Machine.execSwapOut
  split
  · exact .ite (.next (.moveEnds (.freshen (.putCtx (.dropCtx h))))) (.next h)
  · exact .next h

theorem Out.memOk.execSwapIn {core : Nat} {s : State} (h : s.memOk) : Out.memOk (execSwapIn core s) := by
  unfold Machine.execSwapIn
  extract_lets +onlyGivenNames k
  split
  · exact .ite (.next h) (.next (.moveEnds (.putCtx (.dropCtx h))))
  · exact .next h

theorem State.memOk.spillAll {s : State} {ref : CtxRef} (h : s.memOk) : (spillAll s ref).memOk := by
  unfold Machine.spillAll
  extract_lets +onlyGivenNames core
  split
  · exact h
  · extract_lets +onlyGivenNames s1
    have h1 : s1.memOk := .foldl h (fun _ _ h1 => .markSpill h1)
    exact .foldl h1 (fun _ _ h2 => memOk_finishSpill _ _ _ h2)

theorem State.memOk.leaveSlot {s : State} {ref : CtxRef} {x : Ctx} {tag : BitVec 256} (h : s.memOk) : (leaveSlot s ref x tag).memOk := by
  unfold Machine.leaveSlot
  extract_lets +onlyGivenNames core s1 s2
  have h1 : s1.memOk := .moveEnds (.dropCtx h)
  exact h1

theorem State.memOk.countFlips {s : State} {ref : CtxRef} {x : Ctx} (h : s.memOk) : (countFlips s ref x).memOk :=
  h

theorem Out.memOk.execCtxsv {d : SReg} {a : AReg} {b : SReg} {x4 : Fin 16} {s : State} (h : s.memOk) : Out.memOk (execCtxsv d a b x4 s) := by
  unfold Machine.execCtxsv
  extract_lets +onlyGivenNames ea
  refine .next ?_
  refine .atPriv h ?_
  split
  · exact .addrAlign h
  · refine .withTarget h fun _ _ => ?_
    split
    · exact h
    · split
      · exact h
      · split
        · exact h
        · split
          · exact .fileTrap h
          · split
            · exact .memFail h
            · extract_lets +onlyGivenNames s1
              have h1 : s1.memOk := .countFlips (.spillAll h)
              split
              · exact h1
              · exact .withWrite h1 (fun _ h2 => .status (.leaveSlot h2))

theorem State.memOk.installCtx {s : State} {ref : CtxRef} {x : Ctx} {pe : Fin 12} {phys : List Nat} {slots : List Byte} (h : s.memOk) :
    (installCtx s ref x pe phys slots).memOk := by
  have h1 : ((x.pinnedLeaves.zip phys).foldl (fun s e => Machine.loadLeaf s (refCore ref) e.2 (leafBacking x e.1)) s).memOk :=
    .foldl h fun _ _ h1 => .loadLeaf h1
  exact .moveEnds (.freshen (.putCtx (.modCore h1)))

theorem Out.memOk.execCtxld {d : SReg} {a : AReg} {b : SReg} {x4 : Fin 16} {s : State} (h : s.memOk) : Out.memOk (execCtxld d a b x4 s) := by
  unfold Machine.execCtxld
  extract_lets +onlyGivenNames ea
  refine .next ?_
  refine .atPriv h ?_
  split
  · exact .addrAlign h
  · split
    · exact h
    · refine .withRead h fun _ _ h1 => ?_
      refine .withRead h1 fun _ _ h2 => ?_
      extract_lets +onlyGivenNames k
      split
      · exact h2
      · split
        · exact h2
        · split
          · exact h2
          · split
            · exact h2
            · split
              · exact .hold (.gatherLeaves h2 ‹_›)
              · exact .status (.installCtx (.gatherLeaves h2 ‹_›))

/-! ### Resets, zeroisation and repair, the boot sequence, the blotter, the HBM scrub -/

theorem Out.memOk.execZeroisationComplete {core : Nat} {s : State} (h : s.memOk) : Out.memOk (execZeroisationComplete core s) :=
  .ite (.next h) (.next h)

theorem State.memOk.resetKill {s : State} {ref : CtxRef} (h : s.memOk) : (resetKill s ref).memOk := by
  unfold Machine.resetKill
  split
  · exact h
  · extract_lets +onlyGivenNames s1 s2 s3 s4
    have h1 : s1.memOk := .abortPartners h
    have h2 : s2.memOk := .foldl h1 (fun _ _ h2 => .dropTransfer h2)
    have h3 : s3.memOk := .leaveAll (.removeCtx (.retireHandles h2))
    have h4 : s4.memOk := .ite h3 h3
    exact .unitDone h4

theorem State.memOk.resetCore {s : State} {core : Nat} {code : BitVec 3} (h : s.memOk) : (resetCore s core code).memOk :=
  .modCore (.foldl h (fun _ _ h1 => .resetKill h1))

/-- The body is compared as a function: at an argument the kernel would run the launch. -/
theorem State.memOk.launchMarch {s : State} {cores : List Nat} (h : s.memOk) : (launchMarch s cores).memOk := by
  have e : Machine.launchMarch = fun s cores => (Machine.createLaunch s (firmware 0 0 0) (marchRecord cores)).1 := rfl
  rw [e]
  exact .createLaunch h

theorem State.memOk.continueBoot {s : State} (h : s.memOk) : (continueBoot s).memOk := by
  unfold Machine.continueBoot
  split
  · extract_lets +onlyGivenNames s1 s2
    have h1 : s1.memOk := .foldl h fun _ _ h1 => .modCore h1
    have h2 : s2.memOk := .launchMarch h1
    clear_value s1 s2
    exact h2
  · exact h

theorem Out.memOk.execHbmTrainingComplete {s : State} (h : s.memOk) : Out.memOk (execHbmTrainingComplete s) := by
  unfold Machine.execHbmTrainingComplete
  split
  · exact .next h
  · extract_lets +onlyGivenNames power s1
    have h1 : s1.memOk := .foldl h fun _ _ h1 => .modCore (.ite (.resetCore (.modCore h1)) h1)
    clear_value s1
    exact .next (.continueBoot h1)

theorem State.memOk.applyFate {s : State} {c : Nat} (h : s.memOk) : (applyFate s c).memOk := by
  unfold Machine.applyFate
  extract_lets +onlyGivenNames k known
  split
  · exact h
  · exact h
  · exact .launchMarch (.resetCore h)

theorem Out.memOk.execBootMarchTimeout {s : State} (h : s.memOk) : Out.memOk (execBootMarchTimeout s) :=
  .ite (.next h) (.ite (.next (.foldl h (fun _ _ h1 => .applyFate h1))) (.next (.foldl h (fun _ _ h1 => .applyFate h1))))

theorem State.memOk.scrubHeld {s : State} {o core slot : Nat} (h : s.memOk) : (scrubHeld s o core slot).memOk :=
  .modCore (.foldl h (fun _ _ h1 => memOk_scrubUnit _ _ _ h1))

theorem State.memOk.doUnit {s : State} {o : Nat} {u : Extent × Nat} (h : s.memOk) : (doUnit s o u).memOk := by
  unfold Machine.doUnit
  split
  · exact .scrubHeld h
  · exact memOk_scrubUnit _ _ _ h

theorem State.memOk.freeHeld {s : State} {j : BlotJob} {later : List BlotJob} (h : s.memOk) : (freeHeld s j later).memOk := by
  unfold Machine.freeHeld
  refine .foldl h fun _ _ h1 => ?_
  split
  · exact .ite h1 h1
  · exact h1

theorem State.memOk.wakeBlot {s : State} {o job : Nat} {v : Word} (h : s.memOk) : (wakeBlot s o job v).memOk :=
  h

theorem Out.memOk.execBlotterUnitComplete {owner : Nat} {s : State} (h : s.memOk) : Out.memOk (execBlotterUnitComplete owner s) := by
  unfold Machine.execBlotterUnitComplete
  extract_lets +onlyGivenNames d
  split
  · exact .next h
  · split
    · exact .next h
    · split
      · exact .next h
      · extract_lets +onlyGivenNames s1
        have h1 : s1.memOk := .modDie (.doUnit h)
        exact .ite (.next h1) (.next (.continueBoot (.modDie (.wakeBlot (.modDie (.freeHeld h1))))))

theorem Out.memOk.execBlotterResume {owner : Nat} {s : State} (h : s.memOk) : Out.memOk (execBlotterResume owner s) :=
  .next (.ite h h)

theorem Out.memOk.execHbmScrub {owner : Nat} {s : State} (h : s.memOk) : Out.memOk (execHbmScrub owner s) :=
  .next h

/-! ### Ductus chains -/

theorem Out.memOk.execDcol {dst : DcolDst} {tag : Fin 16} {s : State} (h : s.memOk) : Out.memOk (execDcol dst tag s) := by
  unfold Machine.execDcol
  extract_lets +onlyGivenNames t
  split
  · exact .next (.trap h)
  · split
    · exact .next h
    · extract_lets +onlyGivenNames free
      have h1 : free.memOk := h
      split
      · exact .next h1
      · exact .next h1

/-- The state that a chain's step leaves, where it does not go on to another owner, holds memory in canonical form. -/
def Served.memOk : Served → Prop
  | .waits s | .again s _ | .done s .. => s.memOk
  | .forward .. => True

theorem Served.memOk.serveStep {s : State} {here : Nat} {p : Packet} (h : s.memOk) : (serveStep s here p).memOk := by
  unfold Machine.serveStep
  split
  · exact h
  · extract_lets +onlyGivenNames addr owner last size
    split
    · split
      · exact h
      · extract_lets +onlyGivenNames q
        split
        · trivial
        · split
          · exact h
          · exact h
    · split
      · exact h
      · extract_lets +onlyGivenNames issuer ag
        split
        · split
          · exact State.memOk.countError h
          · exact State.memOk.ite (.askResident h) h
        · split
          · exact h
          · extract_lets +onlyGivenNames s1 w
            have h1 : s1.memOk := by
              refine .noteRead ?_
              clear_value issuer
              split
              · exact .hostChargeN h
              · exact h
            split
            · exact h1
            · split
              · exact h1
              · exact h1

theorem State.memOk.sendResult {s : State} {p : Packet} {status : Word} {data : List Byte} (h : s.memOk) : (sendResult s p status data).memOk :=
  .ite h h

theorem State.memOk.sendOn {s : State} {p : Packet} {owner : Nat} (h : s.memOk) : (sendOn s p owner).memOk :=
  .ite h h

theorem State.memOk.serveFirst {o : Nat} {ps : List (Packet × Nat)} {s : State} (h : s.memOk) : (serveFirst o ps s).memOk := by
  induction ps generalizing s with
  | nil => exact h
  | cons e r ih =>
    unfold Machine.serveFirst
    extract_lets +onlyGivenNames drop
    have hp : (serveStep s o e.1).memOk := .serveStep h
    split
    case h_1 he => rw [he] at hp; exact ih hp
    case h_2 he => rw [he] at hp; exact hp
    case h_3 => exact .sendOn h
    case h_4 he => rw [he] at hp; exact .sendResult hp

theorem Out.memOk.execDuctusStepServe {owner : Nat} {s : State} (h : s.memOk) : Out.memOk (execDuctusStepServe owner s) :=
  .next (.serveFirst h)

theorem Out.memOk.execDuctusResultAccept {idx : Nat} {s : State} (h : s.memOk) : Out.memOk (execDuctusResultAccept idx s) := by
  unfold Machine.execDuctusResultAccept
  split
  · exact .next h
  · exact .next (.ite h (.modUid h))

theorem Out.memOk.execDuctusLost {c : CtxRef} {tag : Fin 16} {s : State} (h : s.memOk) : Out.memOk (execDuctusLost c tag s) :=
  .next (.modRef h)

theorem State.memOk.loseLate {s : State} (h : s.memOk) : (loseLate s).memOk :=
  .foldl h (fun _ _ h1 => .modRef h1)

/-! ### Making pages resident, eviction, starvation, and the placement of pages at an epoch's end -/

theorem State.memOk.leaveFrame {s : State} {o base size : Nat} (h : s.memOk) : (leaveFrame s o base size).memOk :=
  .renewStores h

theorem State.memOk.evictFrame {s : State} {o base size : Nat} (h : s.memOk) : (evictFrame s o base size).memOk := by
  unfold Machine.evictFrame
  split
  · extract_lets +onlyGivenNames s1 s2
    have h1 : s1.memOk := .ite (memOk_copyFrame _ _ _ _ _ _ h) h
    have h2 : s2.memOk := .leaveFrame (.dropReplicas (memOk_remapFrame _ _ _ _ h1))
    exact .modDie (memOk_zeroFrame _ _ _ _ h2)
  · exact h

theorem State.memOk.fillPage {s : State} {o : Nat} {asid : BitVec 12} {ia : Nat} {hent frame : Word} {rest : List Word}
    (h : s.memOk) : (fillPage s o asid ia hent frame rest).memOk := by
  unfold Machine.fillPage
  extract_lets +onlyGivenNames size ma s1
  have h1 : s1.memOk := h
  exact .foldl (memOk_copyFrame _ _ _ _ _ _ h1) (fun _ _ h2 => memOk_setEntry _ _ _ h2)

theorem State.memOk.noticeStarved {s : State} {o : Nat} {asid : BitVec 12} {off : Word} {size : Nat}
    (h : s.memOk) : (noticeStarved s o asid off size).memOk :=
  .modDie (.pfRecord h)

theorem State.memOk.starveStuck {s : State} {o : Nat} {asid : BitVec 12} {size : Nat} {ws : List Waits}
    (h : s.memOk) : (starveStuck s o asid size ws).memOk :=
  .foldl h (fun _ _ h1 => .starvePhase h1)

theorem Out.memOk.execPageMadeResident {owner : Nat} {asid : BitVec 12} {off : BitVec 48} {s : State} (h : s.memOk) :
    Out.memOk (execPageMadeResident owner asid off s) := by
  unfold Machine.execPageMadeResident
  extract_lets +onlyGivenNames want page
  split
  · exact .next h
  · extract_lets +onlyGivenNames done
    have hd : ∀ t : State, t.memOk → (done t).memOk := fun _ ht => ht
    split
    · exact .next (hd _ h)
    · extract_lets +onlyGivenNames size
      split
      · exact .next h
      · extract_lets +onlyGivenNames ws vs s1 v s2
        have h1 : s1.memOk := .starveStuck h
        have h2 : s2.memOk := .ite h (.ite h1 (.evictFrame (.viCharge h1)))
        split
        · extract_lets +onlyGivenNames t
          have ht : t.memOk := .viCharge (.fillPage h2)
          exact .next (.ite (hd _ ht) ht)
        · exact .ite (.next h2) (.next (.noticeStarved h2))

theorem Out.memOk.execFrameStarvationNotice {owner : Nat} {asid : BitVec 12} {off : BitVec 48} {s : State}
    (h : s.memOk) : Out.memOk (execFrameStarvationNotice owner asid off s) := by
  unfold Machine.execFrameStarvationNotice
  extract_lets +onlyGivenNames page
  split
  · exact .ite (.next (.noticeStarved h)) (.next h)
  · exact .next h

theorem State.memOk.carryOut {s : State} {o : Nat} {x : Xl} {x4 : Move} (h : s.memOk) : (carryOut s o x x4).memOk := by
  unfold Machine.carryOut
  split
  · exact h
  · extract_lets +onlyGivenNames dd here
    split
    · exact h
    · exact .modDie (memOk_copyFrame _ _ _ _ _ _ h)
  · extract_lets +onlyGivenNames dd size
    split
    · exact h
    · extract_lets +onlyGivenNames ma old s1 s2 s3
      have h1 : s1.memOk := h
      have h2 : s2.memOk := .dropReplicas (memOk_remapFrame _ _ _ _ (memOk_copyFrame _ _ _ _ _ _ h1))
      have h3 : s3.memOk := .leaveFrame h2
      exact .modDie (memOk_zeroFrame _ _ _ _ h3)

theorem Out.memOk.execPlacementEpochEnd {owner : Nat} {s : State} (h : s.memOk) : Out.memOk (execPlacementEpochEnd owner s) := by
  unfold Machine.execPlacementEpochEnd
  extract_lets +onlyGivenNames d
  split
  · exact .next h
  · extract_lets +onlyGivenNames s1
    have h1 : s1.memOk := by
      unfold s1
      refine .foldl h fun _ _ h1 => ?_
      split
      · exact .ite h1 (.carryOut h1)
      · exact h1
    exact .next h1

/-! ### Virtual interfaces, partitions and jobs as the host hypervisor and hosts act on them -/

theorem State.memOk.setViAt {s : State} {n : Nat} {v : Vi} (h : s.memOk) : (s.setViAt n v).memOk :=
  h

theorem State.memOk.setPart {s : State} {q : Nat} {p : Part} (h : s.memOk) : (s.setPart q p).memOk :=
  h

theorem State.memOk.windowLaunch {s : State} {n : Nat} {bs : List Byte} (h : s.memOk) : (windowLaunch s n bs).1.memOk := by
  unfold Machine.windowLaunch
  extract_lets +onlyGivenNames ws
  split
  · exact h
  · exact .createLaunch h

theorem Out.memOk.execLaunchWindowSubmit {vi slot : Nat} {record : List Byte} {s : State}
    (h : s.memOk) : Out.memOk (execLaunchWindowSubmit vi slot record s) := by
  unfold Machine.execLaunchWindowSubmit
  split
  · exact .next h
  · split
    · exact .ite (.next h) (.next h)
    · exact .next h

theorem State.memOk.serveWindow {vi : Nat} {slot : Fin 8} {s : State} (h : s.memOk) : (serveWindow vi slot s).memOk :=
  .ite h (.setViAt (.windowLaunch h))

theorem Out.memOk.execHostSemaphoreAdd {vi entry : Nat} {k : BitVec 32} {s : State}
    (h : s.memOk) : Out.memOk (execHostSemaphoreAdd vi entry k s) := by
  unfold Machine.execHostSemaphoreAdd
  extract_lets +onlyGivenNames v b
  split
  · exact .next h
  · split
    · exact .next h
    · split
      · exact .next (.modRef h)
      · exact .next h

theorem State.memOk.clearDirty {s : State} {p : Nat × BitVec 12 × Nat × Word} (h : s.memOk) : (clearDirty s p).memOk :=
  .foldl h (fun _ _ h1 => memOk_setEntry _ _ _ h1)

theorem State.memOk.dirtyReport {s : State} {n : Nat} (h : s.memOk) : (dirtyReport s n).memOk := by
  unfold Machine.dirtyReport
  extract_lets +onlyGivenNames v asids all cap ps hdr
  exact .viCharge (memOk_writeMa _ _ _ _ (.foldl h (fun _ _ h1 => .clearDirty h1)))

theorem State.memOk.finishStop {s : State} {n : Nat} (h : s.memOk) : (finishStop s n).memOk :=
  .ite (.viRecord (.setViAt (.dirtyReport h))) h

theorem State.memOk.startStop {s : State} {n : Nat} (h : s.memOk) : (startStop s n).memOk :=
  .foldl h (fun _ _ h1 => .requestCtx h1)

theorem Out.memOk.execViStop {vi : Nat} {s : State} (h : s.memOk) : Out.memOk (execViStop vi s) :=
  .next (.ite h (.finishStop (.ite h (.startStop h))))

theorem State.memOk.finishStops {s : State} (h : s.memOk) : (finishStops s).memOk :=
  .foldl h (fun _ _ h1 => .finishStop h1)

theorem Out.memOk.execViEnableWrite {vi : Nat} {vctl : Word} {s : State} (h : s.memOk) : Out.memOk (execViEnableWrite vi vctl s) :=
  .ite (.next h) (.ite (.execViStop h) (.next h))

theorem Out.memOk.execHostLinkWindow {port : Nat} {s : State} (h : s.memOk) : Out.memOk (execHostLinkWindow port s) := by
  unfold Machine.execHostLinkWindow
  split
  · exact .ite (.next h) (.next (.foldl h (fun _ _ h1 => .viDrain h1)))
  · exact .next h

theorem Out.memOk.execPartitionQuadsWrite {q : Nat} {high : Bool} {v : Word} {s : State}
    (h : s.memOk) : Out.memOk (execPartitionQuadsWrite q high v s) :=
  .ite (.next h) (.ite (.next h) (.next h))

theorem Out.memOk.execPartitionWaysWrite {q : Nat} {v : Word} {s : State} (h : s.memOk) : Out.memOk (execPartitionWaysWrite q v s) :=
  .next (.ite h h)

theorem Out.memOk.execPartitionResetStart {q : Nat} {s : State} (h : s.memOk) : Out.memOk (execPartitionResetStart q s) :=
  .ite (.next h) (.next h)

theorem Out.memOk.execPartitionResetComplete {q : Nat} {s : State} (h : s.memOk) : Out.memOk (execPartitionResetComplete q s) := by
  unfold Machine.execPartitionResetComplete
  extract_lets +onlyGivenNames p
  exact .ite (.next h) (.next (.setPart (.foldl h (fun _ _ h1 => .resetCore h1))))

theorem Out.memOk.execBgrpAlloc {q : Nat} {group : BitVec 12} {s : State} (h : s.memOk) : Out.memOk (execBgrpAlloc q group s) :=
  .ite (.next h) (.ite (.next h) (.next h))

theorem Out.memOk.execBgrpRelease {q : Nat} {group : BitVec 12} {s : State} (h : s.memOk) : Out.memOk (execBgrpRelease q group s) :=
  .ite (.next h) (.ite (.next h) (.next h))

theorem Out.memOk.execJobrel {job : BitVec 16} {s : State} (h : s.memOk) : Out.memOk (execJobrel job s) := by
  unfold Machine.execJobrel
  split
  · exact .next h
  · split
    · exact .next (.pruneWorks (.reportWork h))
    · exact .next h

/-! ### Fetch, the checks of R28, guards, tokens, lockstep groups and trusted mode -/

theorem State.memOk.issueTrap {s : State} {r : StrandRef} {code info : Nat} {addr : Word} {force out : Bool}
    (h : s.memOk) : (issueTrap s r code info addr force out).memOk :=
  .trapAt h

theorem State.memOk.fetchFail {s : State} {r : StrandRef} {e : FetchErr} {out : Bool} (h : s.memOk) : (fetchFail s r e out).memOk := by
  unfold Machine.fetchFail
  split
  · exact .issueTrap (.countError h)
  · exact .modStrandAt (.ite (.askResident h) h)

theorem State.memOk.serve {s : State} {r : StrandRef} (h : s.memOk) : (s.serve r).memOk :=
  h

theorem State.memOk.noteFetch {s : State} {r : StrandRef} (h : s.memOk) : (noteFetch s r).memOk := by
  unfold Machine.noteFetch
  extract_lets +onlyGivenNames ag
  split
  · split
    · split
      · exact .noteAccess h
      · exact h
    · exact h
  · exact h

/-- What preparing an instruction leaves holds memory in canonical form: the state of a trap or a wait, or the state and the view to execute on. -/
def Prep.memOk : Prep → Prop
  | .stop s => s.memOk
  | .go s v .. => s.memOk ∧ v.memOk

theorem Prep.memOk.prepare {s : State} {r : StrandRef} (h : s.memOk) : (prepare s r).memOk := by
  unfold Machine.prepare
  extract_lets +onlyGivenNames s1 ag t
  have h1 : s1.memOk := .noteFetch (.serve (.modStrandAt h))
  split
  · exact State.memOk.fetchFail h1
  · extract_lets +onlyGivenNames on0
    split
    · exact State.memOk.fetchFail h1
    · split
      · exact State.memOk.issueTrap h1
      · split
        · exact State.memOk.issueTrap h1
        · split
          · exact State.memOk.issueTrap h1
          · extract_lets +onlyGivenNames s2 v
            have h2 : s2.memOk := .modCx h1
            have hv : v.memOk := .ite (.modCx h2) h2
            split
            · exact State.memOk.fileTrap h2
            · exact ⟨h2, hv⟩

theorem State.memOk.guardedOff {s : State} {sc : Sched} {i : Instr} (h : s.memOk) : (guardedOff s sc i).memOk :=
  h

theorem State.memOk.finishIssue {s v t : State} {sc : Sched} {i : Instr} (ht : t.memOk) : (finishIssue s v t sc i).memOk := by
  unfold Machine.finishIssue
  extract_lets +onlyGivenNames ix
  split
  · exact ht
  · extract_lets u count
    have hu : u.memOk := .ite ht ht
    clear_value u
    split
    · exact hu
    · split
      · exact .modCx hu
      · have hw : ∀ f, (State.modCx (if readsFlip s.cx u.cx i then u.modDi fun d => { d with ceFolio := satInc d.ceFolio } else u) f).memOk :=
          fun _ => .modCx (.ite (.modDi hu) hu)
        exact .ite (.modSt (hw _)) (.ite (.modSt (.modSt (hw _))) (.dropMargin (.modSt (hw _))))

theorem State.memOk.landMember {s : State} {r : StrandRef} (h : s.memOk) : (landMember s r).memOk := by
  unfold Machine.landMember
  split
  · exact h
  · exact h

theorem State.memOk.groupView {before s : State} (h : s.memOk) : (groupView before s).memOk :=
  h

theorem State.memOk.groupJoin {s u : State} {i : Instr} (hu : u.memOk) : (groupJoin s u i).memOk :=
  .ite hu hu

theorem State.memOk.traceMismatch {s : State} {r : StrandRef} {i : Instr} {on : Bool} (h : s.memOk) : (traceMismatch s r i on).memOk := by
  unfold Machine.traceMismatch
  extract_lets +onlyGivenNames s1 t
  have h1 : s1.memOk := .modStrandAt (.countSdc h)
  split
  · exact .trapAt h1
  · extract_lets +onlyGivenNames s2
    have h2 : s2.memOk := by
      unfold s2
      split
      · exact .abortPhase h1
      · exact h1
    exact h2

theorem Out.memOk.execTraceMismatch {r : StrandRef} {s : State} (h : s.memOk) : Out.memOk (execTraceMismatch r s) := by
  unfold Machine.execTraceMismatch
  split
  · exact .next h
  · split
    · exact .next h
    · split
      · exact .next (.ite (.traceMismatch h) h)
      · exact .next h

theorem State.memOk.withEntry {v : State} {e : Option Ahead} (hv : v.memOk) : (v.withEntry e).memOk := by
  unfold State.withEntry
  split
  · exact .ite hv hv
  · exact hv

theorem State.memOk.withAddress {v s : State} (hv : v.memOk) : (v.withAddress s).memOk :=
  .withEntry hv

theorem State.memOk.finishAhead {s v u : State} {n : AheadNext} (h : s.memOk) (hu : u.memOk) : (finishAhead s v u n).memOk := by
  unfold Machine.finishAhead
  extract_lets +onlyGivenNames ix k
  exact .ite (.modSt (.finishIssue hu)) (.ite (.dropMargin (.ite h h)) (.ite h h))

theorem State.memOk.takeAhead {s u : State} {e : Ahead} {i : Instr} (h : s.memOk) (hu : u.memOk) : (takeAhead s u e i).memOk := by
  unfold Machine.takeAhead
  extract_lets +onlyGivenNames ix w w1 w2
  have h1 : w.memOk := .ite h hu
  have h2 : w1.memOk := .ite h1 h1
  have h3 : w2.memOk := .ite h2 h2
  exact h3

theorem State.memOk.toIssue {s : State} (h : s.memOk) : (s.toIssue).memOk := by
  unfold State.toIssue
  split
  · exact h
  · split
    · exact h
    · exact h

/-! ### Loads, stores, gathers, scatters, versioned tiles, fences, prefetch, cache maintenance, atomics -/

theorem Out.memOk.execLd {d : SaReg} {ty : ETy} {m : MemOp} {s : State} (h : s.memOk) : Out.memOk (execLd d ty m s) := by
  unfold Machine.execLd
  extract_lets +onlyGivenNames ea
  exact .ite (.next (.addrAlign h)) (.next (.withRead h (fun _ _ h1 => .retire (.setSA h1))))

theorem State.memOk.laneFail {s : State} {e : LaneErr} {a : Word} (h : s.memOk) : (s.laneFail e a).memOk := by
  unfold State.laneFail
  split
  · exact .addrAlign h
  · exact .memFail h

theorem State.memOk.noteAll {s : State} {xs : List Xl} {wrote : Bool} (h : s.memOk) : (noteAll s xs wrote).memOk :=
  .foldl (.ite (.crossLinks h) (.useLines h)) (fun _ _ h1 => .noteAccess h1)

theorem State.memOk.loadLanes {s : State} {t : ETy} {m : Option MNum} {d : VNum} {g : Nat} {vals : List (Option Nat)}
    (h : s.memOk) : (s.loadLanes t m d g vals).memOk :=
  .setGroupNat h

theorem State.memOk.vecLoad {s : State} {t : ETy} {folio : Bool} {m : Option MNum} {d : VNum} {g : Nat} {addrs : List Word}
    (h : s.memOk) : (vecLoad s t folio m d g addrs).memOk := by
  unfold Machine.vecLoad
  extract_lets +onlyGivenNames n want
  split
  · split
    · exact .ite (.withFolRead h (fun _ _ h1 => h1)) (.folioAlign h)
    · exact .withFolRead h (fun _ _ h1 => .retire (.loadLanes h1))
  · split
    · exact .laneFail h
    · exact .charged h (fun _ h1 => .retire (.loadLanes (.noteAll h1)))

theorem State.memOk.vecStore {s : State} {t : ETy} {folio : Bool} {m : Option MNum} {addrs : List Word} {data : List Nat}
    (h : s.memOk) : (vecStore s t folio m addrs data).memOk := by
  unfold Machine.vecStore
  extract_lets +onlyGivenNames n want
  split
  · split
    · exact .folioAlign h
    · exact .withFolWrite h (fun _ h1 => h1)
  · split
    · exact .laneFail h
    · exact .charged h (fun _ h1 => .retire (memOk_perform _ _ (.noteAll h1)))

theorem State.memOk.tstaPlan {s t : State} {b : VNum} {sz : Fin 3} {m : MemOp} {mask : Option MNum} (h : s.memOk)
    (e : tstaPlan s b sz m mask = .error t) : t.memOk := by
  simp only [Machine.tstaPlan] at e
  split at e
  · cases e
    exact .addrAlign h
  · split at e
    · cases e
      exact .memFail h
    · split at e
      · cases e
        exact .memFail h
      · split at e
        · cases e
          exact .laneFail h
        · cases e

theorem Out.memOk.execTsta {b : VNum} {sz : Fin 3} {m : MemOp} {mask : Option MNum} {s : State}
    (h : s.memOk) : Out.memOk (execTsta b sz m mask s) := by
  unfold Machine.execTsta
  split
  · exact .next (.tstaPlan h ‹_›)
  · extract_lets +onlyGivenNames xs
    exact .next (.charged h (fun _ h1 => .retire (memOk_perform _ _ (memOk_perform _ _ (memOk_perform _ _ (.noteAll h1))))))

theorem State.memOk.cutTile {s : State} {b : VNum} {sz : Fin 3} {m : MemOp} {mask : Option MNum} (h : s.memOk) : (cutTile s b sz m mask).memOk := by
  unfold Machine.cutTile
  split
  · exact h
  · exact .ite h (memOk_perform _ _ (memOk_perform _ _ h))

theorem State.memOk.tldvAttempt {s : State} {d : VNum} {sz : Fin 3} {t : Word} {mask : Option MNum} {attempt : Nat}
    (h : s.memOk) : (tldvAttempt s d sz t mask attempt).memOk := by
  unfold Machine.tldvAttempt
  extract_lets +onlyGivenNames n
  split
  · exact .memFail h
  · split
    · split
      · exact .laneFail h
      · exact .charged h (fun _ h1 => .modSt (.setGroupNat (.noteAll h1)))
    · exact h

theorem State.memOk.tldvAfter {s u : State} {d : VNum} {sz : Fin 3} {mask : Option MNum} (hu : u.memOk) : (tldvAfter s u d sz mask).memOk :=
  .ite hu (.ite hu hu)

theorem Out.memOk.execTldvRetry {r : StrandRef} {s : State} (h : s.memOk) : Out.memOk (execTldvRetry r s) := by
  unfold Machine.execTldvRetry
  split
  · extract_lets +onlyGivenNames s1 changed
    have h1 : s1.memOk := h
    exact .ite (.next h1) (.ite (.next (.trap h1)) (.next (.tldvAfter (.tldvAttempt h1))))
  · exact .next h

theorem Out.memOk.execPref {kind : PrefKind} {a : AReg} {disp : BitVec 32} {s : State} (h : s.memOk) : Out.memOk (execPref kind a disp s) := by
  unfold Machine.execPref
  extract_lets +onlyGivenNames ea
  refine .next ?_
  split
  · extract_lets +onlyGivenNames s1
    have h1 : s1.memOk := .marginTake (.useLines h)
    exact .retire (.ite (.noteAccess h1) h1)
  · exact h

theorem State.memOk.cmoRead {s : State} {ea : Word} {f : State → Nat → State}
    (h : s.memOk) (hf : ∀ s x1, s.memOk → (f s x1).memOk) : (cmoRead s ea f).memOk := by
  unfold Machine.cmoRead
  split
  · exact .memFail h
  · exact .charged h (fun _ h1 => .retire (.foldl (.countRead h1) (fun _ _ h2 => hf _ _ h2)))

theorem Out.memOk.execCmoWbinv {a : AReg} {disp : BitVec 32} {x3 : Fin 16} {s : State} (h : s.memOk) : Out.memOk (execCmoWbinv a disp x3 s) :=
  .next (.cmoRead h (fun _ _ h1 => .foldl (.dropLine h1) (fun _ _ h2 => .dropCopies h2)))

theorem State.memOk.atomic {s : State} {t : ETy} {ea : Word} {f : Nat → Option Nat} {k : State → Nat → State}
    (h : s.memOk) (hk : ∀ s x1, s.memOk → (k s x1).memOk) : (atomic s t ea f k).memOk := by
  unfold Machine.atomic
  extract_lets +onlyGivenNames n
  split
  · exact .addrAlign h
  · split
    · exact .memFail h
    · split
      · exact .memFail h
      · refine .charged h fun _ h1 => ?_
        extract_lets +onlyGivenNames s1
        have h2 : s1.memOk := .countWrite h1
        split
        · exact hk _ _ (memOk_perform _ _ h2)
        · exact hk _ _ h2

/-! ### Krytnudal ports, the root of trust, heat and power, timed waits, and inputs that the table gives no row -/

theorem Out.memOk.execLaneFailure {port lane : Nat} {s : State} (h : s.memOk) : Out.memOk (execLaneFailure port lane s) := by
  unfold Machine.execLaneFailure
  extract_lets +onlyGivenNames p
  split
  · exact .next h
  · extract_lets +onlyGivenNames q
    split
    · exact .next h
    · exact .next h
    · exact .next h
    · exact .next h

theorem State.memOk.flitAnswer {s : State} {flit : List Byte} {code : Nat} {data : List Byte} (h : s.memOk) : (flitAnswer s flit code data).memOk :=
  h

theorem State.memOk.flitFail {s t : State} {flit : List Byte} {e : MemErr} {va : Word}
    (h : s.memOk) (he : flitFail s flit e va = some t) : t.memOk := by
  unfold Machine.flitFail at he
  split at he
  · cases he
    exact .flitAnswer (.countError h)
  · cases he

theorem State.memOk.flitPerform {s t : State} {flit : List Byte} (h : s.memOk) (he : flitPerform s flit = some t) : t.memOk := by
  unfold Machine.flitPerform at he
  extract_lets +onlyGivenNames b va ag n at he
  split at he
  · split at he
    · exact .flitFail h he
    · cases he
      exact .flitAnswer (.noteRead h)
  · extract_lets +onlyGivenNames bs at he
    split at he
    · exact .flitFail h he
    · cases he
      exact memOk_perform _ _ h
  · extract_lets +onlyGivenNames ty at he
    split at he
    · exact .flitFail h he
    · split at he
      · exact .flitFail h he
      · extract_lets +onlyGivenNames old arg new at he
        cases he
        refine .flitAnswer ?_
        clear_value new
        split
        · exact memOk_perform _ _ h
        · exact h
  · cases he
    exact h

theorem State.memOk.flitBarrier {s : State} {flit : List Byte} (h : s.memOk) : (flitBarrier s flit).memOk :=
  .ite (.rootGeneration h) (.remoteGroup h)

theorem State.memOk.handOn {s : State} {port : Nat} {flit : List Byte} (h : s.memOk) : (handOn s port flit).memOk := by
  unfold Machine.handOn
  extract_lets +onlyGivenNames h1 ws
  split
  · exact h
  · split
    · exact h
    · split
      · exact h
      · exact h
      · exact h
      · exact h
      · exact h
      · exact .flitBarrier h
      · exact h

theorem State.memOk.serveHanded {port : Nat} {s : State} (h : s.memOk) : (serveHanded port s).memOk := by
  unfold Machine.serveHanded
  extract_lets +onlyGivenNames fs src s1
  have h1 : s1.memOk := .ite h (.setPort h)
  clear_value s1
  split
  · next t i he =>
    obtain ⟨f, -, hf⟩ := List.exists_of_findSome?_eq_some he
    obtain ⟨u, hu, ht⟩ := Option.map_eq_some_iff.mp hf
    cases ht
    exact .setPort (.flitPerform h1 hu)
  · exact h1

theorem State.memOk.sendFlit {port : Nat} {s : State} (h : s.memOk) : (sendFlit port s).memOk := by
  unfold Machine.sendFlit
  extract_lets +onlyGivenNames p
  split
  · exact h
  · exact .ite h (.ite h (.ite h h))

theorem State.memOk.flitAck {port : Nat} {s : State} (h : s.memOk) : (flitAck port s).memOk :=
  h

theorem State.memOk.flitRefused {port : Nat} {s : State} (h : s.memOk) : (flitRefused port s).memOk :=
  h

theorem Out.memOk.execFlitReceive {port : Nat} {authentic : Bool} {flit : List Byte} {s : State}
    (h : s.memOk) : Out.memOk (execFlitReceive port authentic flit s) := by
  unfold Machine.execFlitReceive
  extract_lets +onlyGivenNames p
  exact .ite (.next h) (.ite (.ite (.next h) (.next h)) (.ite (.next h) (.next (.handOn h))))

theorem Out.memOk.execThermalTrip {s : State} (h : s.memOk) : Out.memOk (execThermalTrip s) := by
  unfold Machine.execThermalTrip
  refine .next ?_
  split
  · exact .ite h h
  · exact h

theorem Out.memOk.execWfeTimeout {r : StrandRef} {s : State} (h : s.memOk) : Out.memOk (execWfeTimeout r s) := by
  unfold Machine.execWfeTimeout
  refine .next ?_
  split
  · exact .ite h h
  · exact h

theorem Out.memOk.execBlwaitTimeout {r : StrandRef} {s : State} (h : s.memOk) : Out.memOk (execBlwaitTimeout r s) := by
  unfold Machine.execBlwaitTimeout
  refine .next ?_
  split
  · exact .ite h h
  · exact h

theorem State.memOk.andThen {o : Out} {s : State} (ho : o.memOk) (h : s.memOk) : (andThen o s).memOk := by
  unfold Machine.andThen
  split
  · exact ho
  · exact h

theorem State.memOk.windowWrite {s : State} {n off : Nat} {v : Word} (h : s.memOk) : (windowWrite s n off v).memOk :=
  .ite (.andThen (.execLaunchWindowSubmit h) h) (.ite h h)

theorem State.memOk.barWrite {s : State} {n off : Nat} {v : Word} (h : s.memOk) : (barWrite s n off v).memOk := by
  unfold Machine.barWrite
  extract_lets +onlyGivenNames i
  exact .ite h (.ite (.windowWrite h) (.ite (.ite h (.ite (.andThen (.execHostSemaphoreAdd h) h) h)) (.ite h (.ite h (.ite h h)))))

theorem State.memOk.setTdisp {s : State} {n : Nat} {on : Bool} (h : s.memOk) : (setTdisp s n on).memOk :=
  .ite h h

theorem State.memOk.setIde {s : State} {port : Fin 2} {secure : Bool} (h : s.memOk) : (setIde s port secure).memOk :=
  h

theorem State.memOk.pfWrite {s : State} {port off : Nat} {v : Word} (h : s.memOk) : (pfWrite s port off v).memOk := by
  unfold Machine.pfWrite
  split
  · extract_lets +onlyGivenNames n i
    split
    · exact .andThen (.execViEnableWrite h) h
    · exact h
    · exact h
    · exact h
    · exact h
    · exact h
    · exact h
  · split
    · extract_lets +onlyGivenNames q
      split
      · exact .andThen (.execPartitionQuadsWrite h) h
      · exact .andThen (.execPartitionQuadsWrite h) h
      · exact .andThen (.execPartitionWaysWrite h) h
      · exact .ite (.andThen (.execPartitionResetStart h) h) h
      · exact .andThen (.ite (.execBgrpAlloc h) (.execBgrpRelease h)) h
      · exact h
    · split
      · exact .andThen (.execJobrel h) h
      · split
        · exact .ite h (.ite h h)
        · exact h

theorem State.memOk.hostRead {s : State} {v : Word} (h : s.memOk) : (hostRead s v).memOk :=
  h

theorem State.memOk.memError {s : State} {key : Nat} {l2 uncorrectable integrity : Bool}
    (h : s.memOk) : (memError s key l2 uncorrectable integrity).memOk :=
  .ite h h

/-! ### Every instruction and event -/

/-- The meaning of every instruction and event keeps the form: grouped by the shared way of completing it. -/
theorem Out.memOk.exec {i : Instr} {s : State} (h : s.memOk) : Out.memOk (exec i s) := by
  cases i
  all_goals unfold Machine.exec
  case nop | pput | lit | lita | br | call | lcset | stop | yield | fence | semsig | semset | vcmp | mand | mor | mxor | mset | lpack
    | ladd | lext | lgw => exact .next h
  case add | sub | addi | abs => exact .arithResult h
  case min | max | and | or | xor | andi | ori | xori | shl | shr | sar | shli | shri | sari | mul | mulh | mulhu | bext | bins | clz
    | ctz | popc | brev | pget | sel | movs | li | asub | lcget | bkr | hqry | qdepth | cwptrLand | cwptrIss | cntr | mpop | mfirst
    | vrsum | vrmax | vrmin | vext => exact .scalarResult h
  case div | divu | rem | remu => exact .divResult h
  case cmp | cmpi | cmpW | cmpiW | pand | por | pxor | acmp => exact .predResult h
  case mova | lia | adr | aadd | aaddi | aidx | awrap | abnd | aalign => exact .addrResult h
  case brr | callr | ret => exact .ite (.next h) (.next (.pcAlign h))
  case loop | loopi => exact .startLoop h
  case lbreak => exact .next (.passOver h)
  case fld | fldx => exact .folLoad h
  case fst | fstx => exact .folStore h
  case crr => exact .next (.atPriv h (.ite h (.privFault h)))
  case crw | folioDiagWrite | repairPut | repairTableClear | summaryClear | folioInjectWrite | hintModeWrite | xlateInval | frameSelect
    | leafPin | leafUnpin | poolBlockSet | preCtlWrite | planeLoad | viLogWrite | tduCtlWrite | currencyCreate | currencyRateWrite
    | currencyDelete | keyLoad | powerLimitWrite | thermLimitWrite => exact .crwReg h
  case crs | crc => exact .crModify h
  case sbar | wfe | semwait | semtry | fwput | keySwitchFlit | thermalStepDown | ttripReached | minimumSvnRaise => exact .ite (.next h) (.next h)
  case ld => exact .execLd h
  case st | cmoZero => exact .ite (.next (.addrAlign h)) (.next (.withWrite h (fun _ h1 => h1)))
  case vld | vlds | vgath => exact .next (.vecLoad h)
  case vst | vsts | vscat => exact .next (.vecStore h)
  case tldv => exact .ite (.next (.addrAlign h)) (.next (.tldvAttempt h))
  case tsta => exact .execTsta h
  case pref => exact .execPref h
  case cmoWb => exact .next (.cmoRead h (fun _ _ h1 => h1))
  case cmoWbinv => exact .execCmoWbinv h
  case atom | atomn | cas => exact .next (.atomic h (fun _ _ h1 => h1))
  case duct | chpop => exact .ite (.next (.trap h)) (.next h)
  case dcol => exact .execDcol h
  case trap => exact .next (.trapAt h)
  case tret => exact .ite (.next (.trapState h)) (.next (.ite h h))
  case bkw => exact .ite (.next (.trapState h)) (.next h)
  case pgsvcTouch => exact .next (.withResident h (fun _ => h))
  case pgsvcAlloc => exact .execPgsvcAlloc h
  case pgsvcPin => exact .next (.withResident h (fun _ => .ite h h))
  case pgsvcUnpin => exact .execPgsvcUnpin h
  case pgsvcQuery => exact .execPgsvcQuery h
  case hset => exact .ite (.next (.status (.setHandle h))) (.next (.trap h))
  case hfree => exact .ite (.next (.retire (.setHandle h))) (.next (.trap h))
  case tkset => exact .ite (.next h) (.next (.trap h))
  case curset => exact .execCurset h
  case rseed => exact .ite (.next h) (.next (.privFault h))
  case kzero => exact .next (.atPriv h (.ite h (.ite (.privFault h) h)))
  case blot => exact .execBlot h
  case blwait => exact .next (.atPriv h (.ite h h))
  case ctxctlSoft => exact .execCtxctlSoft h
  case ctxctlHalt => exact .execCtxctlHalt h
  case ctxctlKill => exact .next (.atPriv h (.withTarget h (fun _ _ => .status (.killCtx h))))
  case ctxctlResume => exact .execCtxctlResume h
  case ctxsv => exact .execCtxsv h
  case ctxld => exact .execCtxld h
  case barr => exact .execBarr h
  case bwait => exact .execBwait h
  case btry => exact .execBtry h
  case bmembJoin | bmembLeave => exact .next (.atRoot h (fun _ => .status (.putGroup h)))
  case waddr => exact .execWaddr h
  case wake => exact .execWake h
  case qbind => exact .execQbind h
  case qunbind => exact .execQunbind h
  case tsem => exact .ite (.next h) (.next (.retireCmds (.acceptCmd h)))
  case cpy | cpyo => exact .next (.issueCopy h)
  case bswapOpen => exact .execBswapOpen h
  case bswap | bswapClose => exact .next (.startCommit h)
  case launch => exact .execLaunch h
  case graphOpen | wphaseOpen => exact .next (.openWork h)
  case graphClose | wphaseClose => exact .next (.closeWork h)
  case cancel => exact .execCancel h
  case vadd | vsub | vmul | vmulh | vdiv | vmin | vmax | vand | vor | vxor => exact .vecOp2 h
  case vabs | vneg | vbit | vsf => exact .vecOp1 h
  case vfma | vsel | vperm | vslide | vbcast | vins | vunzip | vrev | vcmpr => exact .vecWrite h
  case vaddw | vmulw => exact .vecWiden h
  case vshl | vshr | vsar => exact .vecShift h
  case vcvt => exact .execVcvt h
  case vzip | vmov => exact .next (.retire (.setGroupNat h))
  case chain => exact .execChain h
  case lmul => exact .ite (.next (.trap h)) (.next (.retire (.setV (.setV (.ite h h)))))
  case mma | qmma => exact .next (.issueMat h)
  case tldvRetry => exact .execTldvRetry h
  case ductusStepServe => exact .execDuctusStepServe h
  case ductusResultAccept => exact .execDuctusResultAccept h
  case ductusLost => exact .execDuctusLost h
  case contextKill => exact .execContextKill h
  case classDDelivery => exact .execClassDDelivery h
  case phaseAbort => exact .execPhaseAbort h
  case traceMismatch => exact .execTraceMismatch h
  case pageMadeResident => exact .execPageMadeResident h
  case frameStarvationNotice => exact .execFrameStarvationNotice h
  case placementEpochEnd => exact .execPlacementEpochEnd h
  case barrierCompletionArrival => exact .execBarrierCompletionArrival h
  case phaseCommit => exact .execPhaseCommit h
  case unitPlacement => exact .execUnitPlacement h
  case unitComplete => exact .execUnitComplete h
  case taskDraw => exact .execTaskDraw h
  case overdueSlot => exact .execOverdueSlot h
  case taskComplete => exact .execTaskComplete h
  case taskBudgetRelease => exact .execTaskBudgetRelease h
  case taskStallRelease => exact .execTaskStallRelease h
  case jointQmmaStart => exact .execJointQmmaStart h
  case jointWriteInstant => exact .execJointWriteInstant h
  case leafSpill => exact .execLeafSpill h
  case inverseDrawRetry => exact .execInverseDrawRetry h
  case leafReload => exact .execLeafReload h
  case softBoundary => exact .execSoftBoundary h
  case graceExpiry => exact .execGraceExpiry h
  case haltComplete => exact .execHaltComplete h
  case killTimerExpiry => exact .execKillTimerExpiry h
  case swapOut => exact .execSwapOut h
  case swapIn => exact .execSwapIn h
  case blotterUnitComplete => exact .execBlotterUnitComplete h
  case blotterResume => exact .execBlotterResume h
  case hbmScrub => exact .execHbmScrub h
  case powerOnReset | packageReset => exact .next (memOk_packageReset _ _ h)
  case coreReset => exact .next (.ite (.resetCore h) h)
  case zeroisationComplete => exact .execZeroisationComplete h
  case hbmTrainingComplete => exact .execHbmTrainingComplete h
  case bootMarchTimeout => exact .execBootMarchTimeout h
  case launchWindowSubmit => exact .execLaunchWindowSubmit h
  case hostSemaphoreAdd => exact .execHostSemaphoreAdd h
  case viStop => exact .execViStop h
  case viEnableWrite => exact .execViEnableWrite h
  case hostLinkWindow => exact .execHostLinkWindow h
  case partitionQuadsWrite => exact .execPartitionQuadsWrite h
  case partitionWaysWrite => exact .execPartitionWaysWrite h
  case partitionResetStart => exact .execPartitionResetStart h
  case partitionResetComplete => exact .execPartitionResetComplete h
  case bgrpAlloc => exact .execBgrpAlloc h
  case bgrpRelease => exact .execBgrpRelease h
  case jobrel => exact .execJobrel h
  case flitReceive => exact .execFlitReceive h
  case laneFailure => exact .execLaneFailure h
  case portRetrainComplete => exact .ite (.next h) (.ite (.next h) (.next h))
  case keyCounterWarning | spdmRequest | thermalStepUp => exact .next (.ite h h)
  case keyExhausted => exact .ite (.next h) (.next (.pfRecord h))
  case powerLimitExceeded => exact .next (.foldl h (fun _ _ h1 => h1))
  case thermalTrip => exact .execThermalTrip h
  case wfeTimeout => exact .execWfeTimeout h
  case blwaitTimeout => exact .execBlwaitTimeout h

/-! ### One step of the machine -/

theorem State.memOk.traceStep {s v t : State} {i : Instr} {on : Bool} {u : State} (hu : u.memOk) : (traceStep s v t i on u).memOk :=
  .ite hu hu

theorem Out.memOk.issueMember {before : State} {alone : Bool} {s : State} {r : StrandRef} (h : s.memOk) :
    Out.memOk (issueMember before alone s r) := by
  unfold Machine.issueMember
  have hp : (prepare s r).memOk := .prepare h
  split
  next t he =>
    rw [he] at hp
    exact .next hp
  next s1 v sc i on he =>
    rw [he] at hp
    obtain ⟨h1, hv⟩ := hp
    split
    next e _ =>
      have hm : Out.memOk (if e.kind = .made then .next s1 else Machine.exec (specialise i v) v) := .ite (.next h1) (.exec hv)
      split
      next u hu => exact .next (.takeAhead h1 (.of_next hm hu))
      next => exact hm
    · extract_lets +onlyGivenNames w
      have hw : w.memOk := .withAddress hv
      split
      · exact .next (.traceMismatch h1)
      · split
        · exact .next (.traceStep (.guardedOff h1))
        · extract_lets +onlyGivenNames g
          have hg : g.memOk := .ite hw (.groupView hw)
          split
          next t ht =>
            have hu := State.memOk.finishIssue (s := s1) (v := g) (sc := sc) (i := i) (.of_next (.exec hg) ht)
            exact .next (.ite h1 (.ite (.traceStep hu) (.groupJoin (.traceStep hu))))
          next => exact .exec hg

theorem Out.memOk.issueMembers {before : State} {alone : Bool} {rs : List StrandRef} {s : State} (h : s.memOk) :
    Out.memOk (issueMembers before alone rs s) := by
  induction rs generalizing s with
  | nil => exact .next h
  | cons r rs ih =>
    unfold Machine.issueMembers
    split
    · exact ih h
    · split
      · exact ih (.of_next (.issueMember h) ‹_›)
      · exact .issueMember h

theorem Out.memOk.issueAhead {r : StrandRef} {s : State} (h : s.memOk) : Out.memOk (issueAhead r s) := by
  unfold Machine.issueAhead
  split
  · exact .next h
  · extract_lets +onlyGivenNames s1
    have h1 : s1.memOk := h
    split
    · exact .next h1
    · extract_lets +onlyGivenNames s' v
      have h2 : s'.memOk := h1
      have h3 : v.memOk := .withEntry (.modSt (.ite h2 h2))
      split
      · exact .next (.ite h1 (.finishAhead h2 (.of_next (.exec h3) ‹_›)))
      · exact .exec h3

theorem Out.memOk.issueStrand {s : State} {r : StrandRef} (h : s.memOk) : Out.memOk (issueStrand s r) := by
  unfold Machine.issueStrand
  split
  · exact .issueAhead h
  · split
    · exact .issueMember h
    · extract_lets +onlyGivenNames s1
      have h1 : s1.memOk := .foldl h (fun _ _ h1 => .landMember h1)
      split
      · exact .ite (.next (.of_next (.issueMembers h1) ‹_›)) (.issueMembers h1)
      · exact .issueMembers h1

theorem Out.memOk.issueNext {s : State} (h : s.memOk) : Out.memOk (issueNext s) := by
  unfold Machine.issueNext
  extract_lets +onlyGivenNames s1
  have h1 : s1.memOk := .toIssue h
  split
  · exact .issueStrand h1
  · exact .next h1

/-- A move that keeps the canonical form of memory. -/
def KeepsMem (f : State → Out) : Prop := ∀ s : State, s.memOk → Out.memOk (f s)

theorem ctxMoves_keepMem {core slot : Nat} {x : Ctx} : ∀ f ∈ ctxMoves core slot x, KeepsMem f := by
  unfold ctxMoves
  extract_lets ref
  simp only [List.forall_mem_append, List.forall_mem_cons, List.forall_mem_flatMap]
  refine ⟨⟨⟨⟨⟨fun _ h => .execPhaseCommit h, fun _ h => .execUnitComplete h, fun _ h => .execClassDDelivery h, fun _ h => .execSoftBoundary h,
    fun _ h => .execGraceExpiry h, fun _ h => .execHaltComplete h, fun _ h => .execKillTimerExpiry h, fun _ h => .execSwapOut h, by simp⟩,
    fun q _ t _ => ?_⟩, fun l _ => ?_⟩, fun tag _ => ?_⟩, fun i _ => ?_⟩
  · split
    · simp only [List.forall_mem_cons]
      exact ⟨fun _ h => .landPiece h, fun _ h => .execTaskComplete h, fun _ h => .execTaskBudgetRelease h,
        fun _ h => .execTaskStallRelease h, by simp⟩
    · exact List.forall_mem_singleton.mpr fun _ h => .execPhaseAbort h
  · split
    · exact List.forall_mem_singleton.mpr fun _ h => .execLeafReload h
    · simp
  · split
    · exact List.forall_mem_singleton.mpr fun _ h => .execDuctusLost h
    · simp
  · split
    · exact List.forall_mem_singleton.mpr fun _ h => .execWfeTimeout h
    · exact List.forall_mem_singleton.mpr fun _ h => .execBlwaitTimeout h
    · exact List.forall_mem_singleton.mpr fun _ h => .execTldvRetry h
    · exact List.forall_mem_singleton.mpr fun _ h => .execBarrierCompletionArrival h
    · exact List.forall_mem_singleton.mpr fun _ h => .issueAhead h
    · exact List.forall_mem_singleton.mpr fun _ h => .issueAhead h
    · simp

theorem coreMoves_keepMem {core : Nat} {k : Core} : ∀ f ∈ coreMoves core k, KeepsMem f := by
  unfold coreMoves
  simp only [List.forall_mem_append, List.forall_mem_cons, List.forall_mem_flatMap, List.forall_mem_map]
  exact ⟨⟨⟨fun _ h => .execTaskDraw h, fun _ h => .execTaskDraw h, fun _ h => .execTaskDraw h, fun _ h => .execOverdueSlot h,
    fun _ h => .execOverdueSlot h, fun _ h => .execOverdueSlot h, fun _ h => .execJointQmmaStart h, fun _ h => .execJointWriteInstant h,
    fun _ h => .execSwapIn h, fun _ h => .execInverseDrawRetry h, by simp⟩, fun _ _ _ h => .execLeafSpill h⟩, fun _ _ => ctxMoves_keepMem⟩

theorem dieMoves_keepMem {o : Nat} {d : Die} : ∀ f ∈ dieMoves o d, KeepsMem f := by
  unfold dieMoves
  simp only [List.forall_mem_append, List.forall_mem_cons, List.forall_mem_flatMap, List.forall_mem_map]
  exact ⟨⟨⟨fun _ h => .execDuctusStepServe h, fun _ h => .execPlacementEpochEnd h, fun _ h => .execBlotterUnitComplete h,
    fun _ h => .execBlotterResume h, fun _ h => .execHbmScrub h, by simp⟩, fun _ _ _ h => .next (.evictMargin h)⟩,
    fun _ _ => ⟨fun _ h => .execPageMadeResident h, fun _ h => .execFrameStarvationNotice h, by simp⟩⟩

theorem ownMoves_keepMem {s : State} : ∀ f ∈ ownMoves s, KeepsMem f := by
  unfold ownMoves
  simp only [List.forall_mem_append, List.forall_mem_cons, List.forall_mem_flatMap, List.forall_mem_map]
  refine ⟨⟨⟨⟨⟨⟨⟨⟨⟨fun _ h => .execHbmTrainingComplete h, fun _ h => .execBootMarchTimeout h, fun _ h => .execHostLinkWindow h,
    fun _ h => .execHostLinkWindow h, by simp⟩, fun _ _ => ⟨fun _ h => .execZeroisationComplete h, fun _ h => .execUnitPlacement h, by simp⟩⟩,
    fun _ _ => coreMoves_keepMem⟩, fun _ _ => dieMoves_keepMem⟩, fun _ _ _ h => .execDuctusResultAccept h⟩,
    fun _ _ _ h => .next (.arriveRelease h)⟩, fun e _ => ⟨?_, ?_⟩⟩, fun v _ i _ => ?_⟩, fun _ _ _ h => .execPartitionResetComplete h⟩
  · split
    · simp
    · exact List.forall_mem_singleton.mpr fun _ h => .next (.sendFlit h)
  · split
    · simp
    · exact List.forall_mem_singleton.mpr fun _ h => .next (.serveHanded h)
  · split
    · exact List.forall_mem_singleton.mpr fun _ h => .next (.serveWindow h)
    · simp

theorem Out.memOk.ownMove {s : State} (h : s.memOk) : Out.memOk (ownMove s) := by
  unfold Machine.ownMove
  extract_lets ms
  split
  · exact .issueNext h
  next n _ =>
    cases hg : ms[n]? with
    | none => exact .next h
    | some f => exact ownMoves_keepMem f (List.mem_of_getElem? hg) s h

theorem Out.memOk.applyAct {a : Act} {s : State} (h : s.memOk) : Out.memOk (applyAct a s) := by
  cases a with
  | event i => exact .ite (.exec h) (.next h)
  | strand r =>
    have ht : (if canIssue s r then s else s.toIssue).memOk := .ite h (.toIssue h)
    exact .ite (.issueStrand ht) (.next h)
  | firmwareLaunch | hypervisorLaunch => exact .next (.ite (.createLaunch h) h)
  | barWrite => exact .next (.ite h (.barWrite h))
  | pfWrite => exact .next (.ite h (.pfWrite h))
  | barRead | pfRead => exact .next (.ite h (.hostRead h))
  | tdisp => exact .next (.setTdisp h)
  | ide => exact .next (.setIde h)
  | retrain | newKey => exact .next (.ite h (.setPort h))
  | flitSent => exact .next (.sendFlit h)
  | flitAck => exact .next (.flitAck h)
  | flitRefused => exact .next (.flitRefused h)
  | remoteGroup => exact .next (.remoteGroup h)
  | rootGeneration => exact .next (.rootGeneration h)
  | packageReset => exact .next (.otherPackageReset h)
  | nearFrame => exact .next (.modDie (memOk_zeroFrame _ _ _ _ h))
  | memError => exact .next (.memError h)
  | tracerError | bitError | sections | marginError | opError | folioError => exact .next h
  | fileError | fileBit | storeError => exact .next (.modRef h)
  | load => exact .next (memOk_writeMa _ _ _ _ h)
  | cutTsta r =>
    unfold Machine.applyAct
    have hp : (prepare s r).memOk := .prepare h
    dsimp only
    split
    next he =>
      rw [he] at hp
      exact memOk_packageReset _ _ (.cutTile hp.2)
    next => exact .next h

theorem Out.memOk.act {s : State} (h : s.memOk) : Out.memOk (act s) := by
  unfold Machine.act
  split
  · exact .ite (.applyAct h) (.next h)
  · exact .ite (.ownMove h) (.next h)

theorem State.memOk.afterStep {s : State} (h : s.memOk) : (afterStep s).memOk := by
  unfold Machine.afterStep
  extract_lets +onlyGivenNames s1
  have h1 : s1.memOk := .ite (.finishStops (.settle (.loseLate h))) h
  have h2 : (Machine.passTime s1 (Config.cycles s1.tick)).memOk := .passTime h1
  exact h2

theorem Out.memOk.cycle {s : State} (h : s.memOk) : Out.memOk (cycle s) := by
  unfold Machine.cycle
  split
  · exact .next (.afterStep (.of_next (.act h) ‹_›))
  · exact .act h

/-- Settles O58: a step is one cycle of the machine, and a cycle is an outcome that keeps the canonical form of memory. -/
theorem stepKeepsMemory : Obligations.StepKeepsMemory := by
  intro s t h e
  exact .of_next (.cycle h) e

end Sys2Proof.Machine

/-! ## Stored bytes (R5, R117, R411, R412, R414) -/

namespace Sys2Proof.Machine

/-! ### What a byte and a sector are read from -/

theorem sector_of_sectors {s t : State} (h : t.sectors = s.sectors) (j : Nat) : t.sector j = s.sector j := by
  unfold State.sector
  rw [h]

theorem rawByte_of_mem {s t : State} (h : t.mem = s.mem) (j : Nat) : t.rawByte j = s.rawByte j := by
  unfold State.rawByte
  rw [h]

theorem sector_of_div (s : State) {j k : Nat} (h : j / 64 = k / 64) : s.sector j = s.sector k := by
  unfold State.sector
  rw [h]

/-! ### What leaves the sectors' keys and tags alone -/

/-- A fold of operations that leave the sectors alone leaves them alone. -/
theorem sectors_foldl {α : Type} (f : State → α → State) (h : ∀ s x, (f s x).sectors = s.sectors) (l : List α) (s : State) :
    (l.foldl f s).sectors = s.sectors := by
  induction l generalizing s with
  | nil => rfl
  | cons x l ih => rw [List.foldl_cons, ih, h]

theorem sectors_dropCopies (s : State) (d line : Nat) : (s.dropCopies d line).sectors = s.sectors := by
  unfold State.dropCopies
  split <;> rfl

theorem sectors_useLine (s : State) (x : Xl) (wrote : Bool) : (s.useLine x wrote).sectors = s.sectors := by
  unfold State.useLine
  split
  · rfl
  · dsimp only
    split <;> rfl

theorem sectors_dropReplicas (s : State) (o key size : Nat) : (dropReplicas s o key size).sectors = s.sectors := by
  unfold dropReplicas
  dsimp only
  split
  · rfl
  · exact (sectors_foldl _ (fun _ _ => by rfl) _ _).trans rfl

/-! ### A write reaches a page whose D bit is set -/

/-- Where D is set already, the write of a page is noted beside memory only. -/
theorem touchIa_dirty (s : State) (o : Nat) (asid : BitVec 12) (ia : Nat) (hent : Word) (key : Nat) :
    (touchIa s o asid ia hent key true).mem = s.mem ∧ (touchIa s o asid ia hent key true).sectors = s.sectors := by
  unfold touchIa
  simp only [if_true, mem_dropReplicas, sectors_dropReplicas]
  split <;> exact ⟨rfl, rfl⟩

theorem touchPage_dirty (s : State) (x : Xl) (hd : (s.rawByte (x.hkey + 7)).getLsbD 2 = true) :
    (touchPage s x).mem = s.mem ∧ (touchPage s x).sectors = s.sectors := by
  obtain ⟨u, hu⟩ : ∃ u, u = (match x.via with | some d => s.dropCopies d (x.key / 128) | none => s).useLine x true := ⟨_, rfl⟩
  have hmem : u.mem = s.mem := by
    rw [hu, mem_useLine]
    cases x.via with
    | none => rfl
    | some d => exact mem_dropCopies ..
  have hsec : u.sectors = s.sectors := by
    rw [hu, sectors_useLine]
    cases x.via with
    | none => rfl
    | some d => exact sectors_dropCopies ..
  have hdu : (u.rawByte (x.hkey + 7)).getLsbD 2 = true := by unfold State.rawByte; rw [hmem]; exact hd
  have hdef : touchPage s x = touchIa u x.owner x.asid x.ia x.hent x.key ((u.rawByte (x.hkey + 7)).getLsbD 2) := by
    rw [hu]; rfl
  rw [hdef, hdu]
  obtain ⟨h1, h2⟩ := touchIa_dirty u x.owner x.asid x.ia x.hent x.key
  exact ⟨h1.trans hmem, h2.trans hsec⟩

/-! ### Bringing a sector under the keys of a write -/

/-- The sector of a key is ready for a write under given keys: it was written under them, and no fault or scrub stands in it. -/
def State.sectorReady (s : State) (k : Nat) (keys : Option (BitVec 768)) : Prop :=
  (s.sector k).keys = keys ∧ (s.sector k).clean = false ∧ (s.sector k).badTag = false

/-- One byte of HBM as a writer under given keys, or under none, reads it. -/
def State.byteUnder (s : State) (keys : Option (BitVec 768)) (k : Nat) : Byte :=
  match keys with
  | none => s.cipherByte k
  | some ks => s.clearByte ks k

theorem prepSector_far (s : State) (k : Nat) (keys : Option (BitVec 768)) (h : keyNear k = false) : s.prepSector k keys = s := by
  simp [State.prepSector, h]

theorem prepSector_ready (s : State) (k : Nat) (keys : Option (BitVec 768)) (h : s.sectorReady k keys) : s.prepSector k keys = s := by
  obtain ⟨hk, hc, hb⟩ := h
  simp [State.prepSector, hk, hc, hb]

/-- Otherwise the sector's bytes are written anew, under the keys of the write. -/
theorem prepSector_not_ready (s : State) (k : Nat) (keys : Option (BitVec 768)) (hn : keyNear k = true) (h : ¬ s.sectorReady k keys) :
    (s.prepSector k keys).mem = (s.setRaws (k / 64 * 64) ((List.range 64).map fun i => s.byteUnder keys (k / 64 * 64 + i))).mem
    ∧ (s.prepSector k keys).sectors = SMap.put {} s.sectors (k / 64) { keys := keys } := by
  have hc : ((s.sector k).keys = keys && !(s.sector k).clean && !(s.sector k).badTag) = false := by
    simpa [State.sectorReady, Bool.and_eq_false_iff, not_and_or, or_assoc] using h
  unfold State.prepSector
  simp only [hn, hc]
  exact ⟨rfl, rfl⟩

/-- Once brought under them, the sector of a near key is ready for the keys. -/
theorem prepSector_sectorReady (s : State) (k : Nat) (keys : Option (BitVec 768)) (hn : keyNear k = true) :
    (s.prepSector k keys).sectorReady k keys := by
  by_cases h : s.sectorReady k keys
  · rwa [prepSector_ready s k keys h]
  · have hs : (s.prepSector k keys).sector k = { keys := keys } := by
      unfold State.sector
      rw [(prepSector_not_ready s k keys hn h).2]
      exact SMap.get_put_same ..
    unfold State.sectorReady
    rw [hs]
    exact ⟨rfl, rfl, rfl⟩

/-- No other sector's state is touched. -/
theorem sector_prepSector_other (s : State) (k j : Nat) (keys : Option (BitVec 768)) (hj : j / 64 ≠ k / 64) :
    (s.prepSector k keys).sector j = s.sector j := by
  cases hn : keyNear k with
  | false => rw [prepSector_far s k keys hn]
  | true =>
    by_cases h : s.sectorReady k keys
    · rw [prepSector_ready s k keys h]
    · unfold State.sector
      rw [(prepSector_not_ready s k keys hn h).2]
      exact SMap.get_put_other _ _ _ _ _ hj

/-- No byte outside the sector is touched. -/
theorem rawByte_prepSector_other (s : State) (k j : Nat) (keys : Option (BitVec 768)) (hj : j / 64 ≠ k / 64) :
    (s.prepSector k keys).rawByte j = s.rawByte j := by
  cases hn : keyNear k with
  | false => rw [prepSector_far s k keys hn]
  | true =>
    by_cases h : s.sectorReady k keys
    · rw [prepSector_ready s k keys h]
    · rw [rawByte_of_mem (prepSector_not_ready s k keys hn h).1, rawByte_setRaws, List.length_map, List.length_range, if_neg (by omega)]

/-- A ready sector holds its bytes in the clear. -/
theorem byteUnder_of_ready (s : State) (j : Nat) (keys : Option (BitVec 768)) (h : s.sectorReady j keys) : s.byteUnder keys j = s.rawByte j := by
  obtain ⟨hk, hc, -⟩ := h
  cases keys with
  | none => simp [State.byteUnder, State.cipherByte, hk]
  | some ks => simp [State.byteUnder, State.clearByte, hk, hc]

/-- Within the sector the bytes brought under the keys are what the writer reads there. -/
theorem rawByte_prepSector_same (s : State) (k j : Nat) (keys : Option (BitVec 768)) (hn : keyNear k = true) (hj : j / 64 = k / 64) :
    (s.prepSector k keys).rawByte j = s.byteUnder keys j := by
  by_cases h : s.sectorReady k keys
  · rw [prepSector_ready s k keys h]
    refine (byteUnder_of_ready s j keys ?_).symm
    unfold State.sectorReady
    rw [sector_of_div s hj]
    exact h
  · have hin : k / 64 * 64 ≤ j ∧ j < k / 64 * 64 + 64 := by omega
    rw [rawByte_of_mem (prepSector_not_ready s k keys hn h).1, rawByte_setRaws, List.length_map, List.length_range, if_pos hin]
    have hlt : j - k / 64 * 64 < 64 := by omega
    rw [List.getD_eq_getElem _ _ (by simpa using hlt), List.getElem_map, List.getElem_range, Nat.add_sub_cancel' hin.1]

/-! ### One byte written -/

theorem sector_writeByte (s : State) (k j : Nat) (keys : Option (BitVec 768)) (b : Byte) :
    (s.writeByte k keys b).sector j = (s.prepSector k keys).sector j := rfl

theorem rawByte_writeByte (s : State) (k j : Nat) (keys : Option (BitVec 768)) (b : Byte) :
    (s.writeByte k keys b).rawByte j = if j = k then b else (s.prepSector k keys).rawByte j := rawByte_setRaw ..

/-- A byte written outside every key to a sector written so changes no other byte, whatever the sector's tag says. -/
theorem rawByte_writeByte_plain (s : State) (k j : Nat) (b : Byte) (hk : (s.sector k).keys = none) :
    (s.writeByte k none b).rawByte j = if j = k then b else s.rawByte j := by
  rw [rawByte_writeByte]
  congr 1
  cases hn : keyNear k with
  | false => rw [prepSector_far s k none hn]
  | true =>
    by_cases hj : j / 64 = k / 64
    · rw [rawByte_prepSector_same s k j none hn hj]
      have hkj : (s.sector j).keys = none := by rw [sector_of_div s hj, hk]
      simp [State.byteUnder, State.cipherByte, hkj]
    · exact rawByte_prepSector_other s k j none hj

/-- A sector outside every key stays so where a byte is written outside every key. -/
theorem keys_writeByte_plain (s : State) (k j : Nat) (b : Byte) (hj : (s.sector j).keys = none) :
    ((s.writeByte k none b).sector j).keys = none := by
  rw [sector_writeByte]
  by_cases h : j / 64 = k / 64
  · cases hn : keyNear k with
    | false => rwa [prepSector_far s k none hn]
    | true =>
      rw [sector_of_div _ h]
      exact (prepSector_sectorReady s k none hn).1
  · rwa [sector_prepSector_other s k j none h]

theorem sectorReady_writeByte (s : State) (k j : Nat) (keys : Option (BitVec 768)) (b : Byte) (hn : keyNear k = true) (hj : j / 64 = k / 64) :
    (s.writeByte k keys b).sectorReady j keys := by
  unfold State.sectorReady
  rw [sector_writeByte, sector_of_div _ hj]
  exact prepSector_sectorReady s k keys hn

/-- In the sector of a byte written under keys, its writer reads that byte and the others as they were. -/
theorem clearByte_writeByte (s : State) (k j : Nat) (keys : BitVec 768) (b : Byte) (hn : keyNear k = true) (hj : j / 64 = k / 64) :
    (s.writeByte k (some keys) b).clearByte keys j = if j = k then b else s.clearByte keys j := by
  have hr : (s.writeByte k (some keys) b).clearByte keys j = (s.writeByte k (some keys) b).rawByte j :=
    byteUnder_of_ready _ j (some keys) (sectorReady_writeByte s k j (some keys) b hn hj)
  rw [hr, rawByte_writeByte, rawByte_prepSector_same s k j (some keys) hn hj]
  rfl

/-- A sector written under keys passes under them (R412). -/
theorem tagOk_writeByte (s : State) (k : Nat) (keys : BitVec 768) (b : Byte) (hn : keyNear k = true) :
    (s.writeByte k (some keys) b).tagOk keys k = true := by
  obtain ⟨hk, -, hb⟩ := sectorReady_writeByte s k k (some keys) b hn rfl
  simp [State.tagOk, hk, hb]

/-! ### The bytes of a store -/

/-- The bytes of a store are of unencrypted pages whose D bits are set. -/
def State.storesPlain (s : State) (bs : List (Xl × Byte)) : Prop :=
  ∀ e ∈ bs, e.1.enc = none ∧ (s.sector e.1.key).keys = none ∧ (s.rawByte (e.1.hkey + 7)).getLsbD 2 = true

theorem writeKeys_none (s : State) (k : Nat) : s.writeKeys k none = .ok none := by
  unfold State.writeKeys
  split <;> rfl

theorem pokeXl_cons_plain (s : State) (x : Xl) (b : Byte) (r : List (Xl × Byte)) (h : x.enc = none) :
    s.pokeXl ((x, b) :: r) = ((touchPage s x).writeByte x.key none b).pokeXl r := by
  rw [State.pokeXl, h, writeKeys_none]

/-- What the first byte of a store leaves: itself, every other byte, and the rest of the store as plain as it was. -/
theorem pokeXl_head_plain (s : State) (x : Xl) (b : Byte) (r : List (Xl × Byte)) (hs : s.storesPlain ((x, b) :: r))
    (hd : ∀ f ∈ r, x.key ≠ f.1.hkey + 7) :
    ((touchPage s x).writeByte x.key none b).storesPlain r
    ∧ ∀ j, ((touchPage s x).writeByte x.key none b).rawByte j = if j = x.key then b else s.rawByte j := by
  obtain ⟨-, hk, hD⟩ := hs (x, b) List.mem_cons_self
  obtain ⟨hmem, hsec⟩ := touchPage_dirty s x hD
  have hraw : ∀ j, ((touchPage s x).writeByte x.key none b).rawByte j = if j = x.key then b else s.rawByte j := fun j => by
    rw [rawByte_writeByte_plain _ _ _ _ (by rw [sector_of_sectors hsec, hk]), rawByte_of_mem hmem]
  refine ⟨fun f hf => ?_, hraw⟩
  obtain ⟨hfe, hfk, hfD⟩ := hs f (List.mem_cons_of_mem _ hf)
  refine ⟨hfe, keys_writeByte_plain _ _ _ _ (by rw [sector_of_sectors hsec, hfk]), ?_⟩
  rw [hraw, if_neg (hd f hf).symm, hfD]

/-- The bytes of a plain store land, and no other byte changes. -/
theorem rawByte_pokeXl (s : State) (bs : List (Xl × Byte)) (hs : s.storesPlain bs) (hd : ∀ e ∈ bs, ∀ f ∈ bs, e.1.key ≠ f.1.hkey + 7)
    (hn : (bs.map fun e => e.1.key).Nodup) :
    (∀ e ∈ bs, (s.pokeXl bs).rawByte e.1.key = e.2) ∧ ∀ k, (∀ e ∈ bs, k ≠ e.1.key) → (s.pokeXl bs).rawByte k = s.rawByte k := by
  induction bs generalizing s with
  | nil => exact ⟨fun e he => absurd he List.not_mem_nil, fun _ _ => rfl⟩
  | cons e r ih =>
    obtain ⟨x, b⟩ := e
    obtain ⟨hx, hr⟩ := List.nodup_cons.mp hn
    obtain ⟨hs', hraw⟩ := pokeXl_head_plain s x b r hs fun f hf => hd (x, b) List.mem_cons_self f (List.mem_cons_of_mem _ hf)
    obtain ⟨hland, hframe⟩ := ih _ hs' (fun e he f hf => hd e (List.mem_cons_of_mem _ he) f (List.mem_cons_of_mem _ hf)) hr
    rw [pokeXl_cons_plain s x b r (hs (x, b) List.mem_cons_self).1]
    refine ⟨fun e he => ?_, fun k hk => ?_⟩
    · rcases List.mem_cons.mp he with rfl | he
      · have hne : ∀ f ∈ r, x.key ≠ f.1.key := fun f hf h => hx (List.mem_map.mpr ⟨f, hf, h.symm⟩)
        rw [hframe _ hne, hraw, if_pos rfl]
      · exact hland e he
    · rw [hframe k fun f hf => hk f (List.mem_cons_of_mem _ hf), hraw, if_neg (hk (x, b) List.mem_cons_self)]

/-- Beyond the bytes themselves a store changes poison and waiters only. -/
theorem mem_perform (s : State) (bs : List (Xl × Byte)) : (s.perform bs).mem = (s.pokeXl bs).mem :=
  mem_foldl _ (fun _ _ => (mem_serveAddr ..).trans (mem_clearPoison ..)) _ _

/-- Settles O19: the bytes of a store by induction on them, each leaving the rest of the store as plain as it was; a byte under keys by what stands in
its sector once that is brought under them. -/
theorem storedBytes : Obligations.StoredBytes := by
  refine ⟨fun s bs hs hd hn => ?_, fun s k keys b hn => ⟨?_, tagOk_writeByte s k keys b hn, fun j hj => ?_⟩⟩
  · simp only [rawByte_of_mem (mem_perform s bs)]
    exact rawByte_pokeXl s bs hs hd hn
  · rw [clearByte_writeByte s k k keys b hn rfl, if_pos rfl]
  · split
    next h => rw [clearByte_writeByte s k j keys b hn h, if_neg hj]
    next h =>
      exact ⟨by rw [rawByte_writeByte, if_neg hj, rawByte_prepSector_other s k j _ h], sector_prepSector_other s k j _ h⟩

end Sys2Proof.Machine

/-! ## Decoding gives back what was encoded (R12-R22, R26, R257, R321)

Each code, register field and packed field reads back as laid; then, class by class, the record of an instruction decodes to it; then the words of the
records. -/

namespace Sys2Proof
open Machine

/-! ### The decoder's steps -/

@[simp] theorem ok_bind {α β : Type} (x : α) (f : α → Dec β) : ((Except.ok x : Dec α) >>= f) = f x := rfl
@[simp] theorem map_ok {α β : Type} (f : α → β) (x : α) : (f <$> (Except.ok x : Dec α)) = .ok (f x) := rfl
@[simp] theorem pure_ok {α : Type} (x : α) : (pure x : Dec α) = .ok x := rfl
@[simp] theorem zero_zero (n : Nat) : zero 0#n = .ok () := by simp [zero]
@[simp] theorem need_true (r : Reject) : need true r = .ok () := rfl
@[simp] theorem code_some {α : Type} (x : α) : code (some x) = .ok x := rfl

/-! ### Codes (R30-R32, R52, R114, R126, R128, R142, R210, R251, R253, R278, R291, R293, R298) -/

@[simp] theorem ETy.ofCode_code (t : ETy) : ETy.ofCode t.code = some t := by cases t <;> rfl
@[simp] theorem Cond.ofCode_code (c : Cond) : Cond.ofCode c.code = some c := by cases c <;> rfl
@[simp] theorem Scope.ofCode_code (s : Scope) : Scope.ofCode s.code = some s := by cases s <;> rfl
@[simp] theorem Flavour.ofCode_code (f : Flavour) : Flavour.ofCode f.code = f := by cases f <;> rfl
@[simp] theorem AtomOp.ofCode_code (o : AtomOp) : AtomOp.ofCode o.code = some o := by cases o <;> rfl
@[simp] theorem BankField.ofCode_code (f : BankField) : BankField.ofCode f.code = some f := by cases f <;> rfl
@[simp] theorem WaitCond.ofCode_code (c : WaitCond) : WaitCond.ofCode c.code = some c := by cases c <;> rfl
@[simp] theorem Engine.ofCode_code (e : Engine) : Engine.ofCode e.code = some e := by cases e <;> rfl
@[simp] theorem CpyDir.ofCode_code (d : CpyDir) : CpyDir.ofCode d.code = some d := by cases d <;> rfl
@[simp] theorem SpecFn.ofCode_code (f : SpecFn) : SpecFn.ofCode f.code = some f := by cases f <;> rfl
@[simp] theorem Pol.ofCode_code (p : Pol) : Pol.ofCode p.code = p := by cases p <;> rfl
@[simp] theorem FmaForm.ofCode_code (f : FmaForm) : FmaForm.ofCode f.code = some f := by cases f <;> rfl
@[simp] theorem BitFn.ofCode_code (f : BitFn) : BitFn.ofCode f.code = some f := by cases f <;> rfl
@[simp] theorem PrefKind.ofCode_code (k : PrefKind) : PrefKind.ofCode k.code = some k := by cases k <;> rfl

/-! ### Registers and small fields (R19, R20) -/

@[simp] theorem toFin_bf2 (x : Fin 4) : (bf2 x).toFin = x := rfl
@[simp] theorem toFin_bf3 (x : Fin 8) : (bf3 x).toFin = x := rfl
@[simp] theorem toFin_bf4 (x : Fin 16) : (bf4 x).toFin = x := rfl
@[simp] theorem toFin_bf5 (x : Fin 32) : (bf5 x).toFin = x := rfl
@[simp] theorem toFin_bf6 (x : Fin 64) : (bf6 x).toFin = x := rfl
@[simp] theorem toFin_bf9 (x : Fin 512) : (bf9 x).toFin = x := rfl
@[simp] theorem toFin_bf10 (x : Fin 1024) : (bf10 x).toFin = x := rfl

@[simp] theorem cS_eS (r : SReg) : cS (eS r) = r := rfl
@[simp] theorem cA_eA : ∀ r : AReg, cA (eA r) = .ok r := by decide
@[simp] theorem cP_eP : ∀ r : PReg, cP (eP r) = .ok r := by decide
@[simp] theorem cL_eL : ∀ r : LReg, cL (eL r) = .ok r := by decide
@[simp] theorem uS_gS : ∀ r : SReg, uS (gS r) = .ok r := by decide
@[simp] theorem uA_gA : ∀ r : AReg, uA (gA r) = .ok r := by decide
@[simp] theorem uP_gP : ∀ r : PReg, uP (gP r) = .ok r := by decide
@[simp] theorem uM_gM : ∀ r : MNum, uM (gM r) = .ok r := by decide
@[simp] theorem uV_gV (r : VNum) : uV (gV r) = r := rfl
@[simp] theorem uSA_gSA (r : SaReg) : uSA (gSA r) = .ok r := by
  cases r with
  | s r => revert r; decide
  | a r => revert r; decide

@[simp] theorem fPair_eF : ∀ f0 f1 : Bool, fPair (eF f0 f1) = .ok (f0, f1) := by decide
@[simp] theorem fOne_eF : ∀ f0 : Bool, fOne (eF f0 false) = .ok f0 := by decide
@[simp] theorem eF_high : ∀ f0 f1 : Bool, (eF f0 f1).extractLsb' 2 2 = 0#2 := by decide
@[simp] theorem eF_bit0 : ∀ f0 f1 : Bool, (eF f0 f1)[0] = f0 := by decide
@[simp] theorem eF_bit1 : ∀ f0 f1 : Bool, (eF f0 f1)[1] = f1 := by decide
@[simp] theorem eVar1_high : ∀ x : Bool, (eVar1 x).extractLsb' 1 3 = 0#3 := by decide
@[simp] theorem eVar1_bit0 : ∀ x : Bool, (eVar1 x)[0] = x := by decide
@[simp] theorem szOf_eSz : ∀ x : Fin 3, szOf (eSz x) = .ok x := by decide
theorem laidSz_high : ∀ x : Fin 3, (0#29 ++ eSz x).extractLsb' 2 30 = 0#30 := by decide
theorem laidSz_low : ∀ x : Fin 3, 0#1 ++ (0#29 ++ eSz x).extractLsb' 0 2 = eSz x := by decide
@[simp] theorem lcOf_ofNat : ∀ x : Fin 5, lcOf (BitVec.ofNat 3 x.val) = .ok x := by decide
@[simp] theorem wideOf_eWide : ∀ w : Bool, wideOf (eWide w) = .ok w := by decide

/-- A field of two joined bit vectors that lies within one of them is that one's. -/
theorem append_reads {m n : Nat} (x : BitVec m) (y : BitVec n) :
    (∀ k w, k + w ≤ n → (x ++ y).extractLsb' k w = y.extractLsb' k w) ∧ (∀ k w, n ≤ k → (x ++ y).extractLsb' k w = x.extractLsb' (k - n) w)
    ∧ (∀ k, k < n → (x ++ y).getLsbD k = y.getLsbD k) ∧ ∀ k, n ≤ k → (x ++ y).getLsbD k = x.getLsbD (k - n) :=
  ⟨extract_append_low x y, extract_append_high x y, bit_append_low x y, bit_append_high x y⟩

/-! ### SPEC fields of the classes -/

/-- The lane mask reads back as laid (R20). -/
@[simp] theorem maskOf_eMsel (lit : Bool) (cls : BitVec 3) (op : BitVec 8) (d a b c : BitVec 6) (t : BitVec 5) (x : Bool) (oc : BitVec 4)
    (m : Option MNum) (spec : BitVec 45) : maskOf ⟨lit, cls, op, d, a, b, c, t, x, oc, eMsel m, eMen m, spec⟩ = .ok m := by
  cases m <;> rfl
@[simp] theorem noMask_zero (lit : Bool) (cls : BitVec 3) (op : BitVec 8) (d a b c : BitVec 6) (t : BitVec 5) (x : Bool) (oc : BitVec 4)
    (spec : BitVec 45) : noMask ⟨lit, cls, op, d, a, b, c, t, x, oc, 0#3, false, spec⟩ = .ok () := by
  simp [noMask]

/-- Memory access (R114). -/
@[simp] theorem MemSpec.of_eMem (scope : BitVec 3) (fl : BitVec 2) (sp : Bool) (var : BitVec 4) (sz : BitVec 3) (disp : BitVec 32) :
    MemSpec.of (eMem scope fl sp var sz disp) = ⟨scope, fl, sp, var, sz, disp⟩ := by
  simp (disch := omega) only [MemSpec.of, eMem, append_reads, extract_all, Nat.sub_self, Nat.reduceSub]
  simp
@[simp] theorem MemSpec.of_eMemOp (m : MemOp) (sp : Bool) (var : BitVec 4) (sz : BitVec 3) :
    MemSpec.of (eMemOp m sp var sz) = ⟨m.scope.code, m.fl.code, sp, var, sz, m.disp⟩ := MemSpec.of_eMem ..
@[simp] theorem memOpOf_eMemOp (lit : Bool) (cls : BitVec 3) (op : BitVec 8) (d b c : BitVec 6) (t : BitVec 5) (x : Bool)
    (msel : BitVec 3) (men : Bool) (m : MemOp) (sp : Bool) (var : BitVec 4) (sz : BitVec 3) :
    memOpOf ⟨lit, cls, op, d, gA m.base, b, c, t, x, bf4 m.oc, msel, men, eMemOp m sp var sz⟩ = .ok m := by
  simp [memOpOf]

/-- Vector registers (R289). -/
@[simp] theorem VecSpec.of_eVec (pol : BitVec 2) (sm : Bool) (var : BitVec 4) (ts : BitVec 5) (xs : Bool) (imm : BitVec 32) :
    VecSpec.of (eVec pol sm var ts xs imm) = ⟨pol, sm, var, ts, xs, imm⟩ := by
  simp (disch := omega) only [VecSpec.of, eVec, append_reads, extract_all, Nat.sub_self, Nat.reduceSub]
  simp
@[simp] theorem vecPlain_zero (lit : Bool) (cls : BitVec 3) (op : BitVec 8) (d a b c : BitVec 6) (t : BitVec 5) (oc : BitVec 4)
    (msel : BitVec 3) (men : Bool) (var : BitVec 4) (imm : BitVec 32) :
    vecPlain ⟨lit, cls, op, d, a, b, c, t, false, oc, msel, men, eVec 0#2 false var 0#5 false imm⟩ = .ok () := by
  simp [vecPlain]

/-- Copies and tasks (R251). -/
theorem eTask_reads (bar fo crc : Bool) (ch : Fin 4) (var : BitVec 4) (eng : BitVec 2) (imm : BitVec 32) :
    (eTask bar fo crc ch var eng imm).extractLsb' 34 2 = 0#2 ∧ (eTask bar fo crc ch var eng imm).extractLsb' 36 4 = var
    ∧ (eTask bar fo crc ch var eng imm).extractLsb' 0 32 = imm ∧ (eTask bar fo crc ch var eng imm).extractLsb' 40 2 = bf2 ch
    ∧ (eTask bar fo crc ch var eng imm).extractLsb' 32 2 = eng ∧ (eTask bar fo crc ch var eng imm).getLsbD 44 = bar
    ∧ (eTask bar fo crc ch var eng imm).getLsbD 43 = fo ∧ (eTask bar fo crc ch var eng imm).getLsbD 42 = crc := by
  simp (disch := omega) only [eTask, append_reads, extract_all, Nat.sub_self, Nat.reduceSub]
  simp

/-- Task words (R248). -/
@[simp] theorem TaskWord.unpack_pack (t : TaskWord) : TaskWord.unpack t.pack = t := by
  simp (disch := omega) only [TaskWord.unpack, TaskWord.pack, append_reads, extract_all, Nat.sub_self, Nat.reduceSub]

/-! ### One record -/

/-- A record and its literal lay an instruction: the literal flag says whether a literal follows, and the fields decode to the instruction. -/
def Lays (i : Instr) (f : OpFields) (l : Option Word128) (rest : List Slot) : Prop :=
  f.hasLit = l.isSome ∧ decodeFields f l rest = .ok i

section
variable {i : Instr} {u : EngFields} {l : Option Word128} {rest : List Slot}

theorem lays_sys (hc : u.cls = 0) (hl : u.lit = false) (h : decodeSys u = .ok i) : Lays i (.eng u) none rest := by
  simp [Lays, OpFields.hasLit, decodeFields, decodeEng, hc, hl, h]
theorem lays_mem (hc : u.cls = 1) (hl : u.lit = false) (h : decodeMem u = .ok i) : Lays i (.eng u) none rest := by
  simp [Lays, OpFields.hasLit, decodeFields, decodeEng, hc, hl, h]
theorem lays_vec (hc : u.cls = 2) (hl : u.lit = false) (h : decodeVec u = .ok i) : Lays i (.eng u) none rest := by
  simp [Lays, OpFields.hasLit, decodeFields, decodeEng, hc, hl, h]
theorem lays_lig (hc : u.cls = 4) (hl : u.lit = l.isSome) (h : decodeLig u l rest = .ok i) : Lays i (.eng u) l rest := by
  simp [Lays, OpFields.hasLit, decodeFields, decodeEng, hc, hl, h]
theorem lays_task (hc : u.cls = 5) (hl : u.lit = l.isSome) (h : decodeTask u l rest = .ok i) : Lays i (.eng u) l rest := by
  simp [Lays, OpFields.hasLit, decodeFields, decodeEng, hc, hl, h]
theorem lays_sync (hc : u.cls = 6) (hl : u.lit = false) (h : decodeSync u = .ok i) : Lays i (.eng u) none rest := by
  simp [Lays, OpFields.hasLit, decodeFields, decodeEng, hc, hl, h]

end

/-! ### The control subset (R45) -/

section
variable (op : BitVec 11)

theorem cDABF_laid (d a b : SReg) (w x : Bool) (k : SReg → SReg → SReg → Bool → Bool → Instr) :
    cDABF { op := op, d := eS d, a := eS a, b := eS b, f := eF w x } k = .ok (k d a b w x) := by simp [cDABF]
theorem cDABW_laid (d a b : SReg) (w : Bool) (k : SReg → SReg → SReg → Bool → Instr) :
    cDABW { op := op, d := eS d, a := eS a, b := eS b, f := eF w false } k = .ok (k d a b w) := by simp [cDABW]
theorem cDAB_laid (d a b : SReg) (k : SReg → SReg → SReg → Instr) :
    cDAB { op := op, d := eS d, a := eS a, b := eS b } k = .ok (k d a b) := by simp [cDAB]
theorem cDAI_laid (d a : SReg) (imm : Word) (k : SReg → SReg → Word → Instr) :
    cDAI { op := op, d := eS d, a := eS a, imm := imm } k = .ok (k d a imm) := by simp [cDAI]
theorem cDAW_laid (d a : SReg) (w : Bool) (k : SReg → SReg → Bool → Instr) :
    cDAW { op := op, d := eS d, a := eS a, f := eF w false } k = .ok (k d a w) := by simp [cDAW]
theorem cPPP_laid (d a b : PReg) (ia ib : Bool) (k : PReg → PReg → PReg → Bool → Bool → Instr) :
    cPPP { op := op, d := eP d, a := eP a, b := eP b, f := eF ia ib } k = .ok (k d a b ia ib) := by simp [cPPP]
theorem cShI_laid (d a : SReg) (n : Fin 64) (w : Bool) (k : SReg → SReg → Fin 64 → Bool → Instr) :
    cShI { op := op, d := eS d, a := eS a, f := eF w false, imm := eCount n } k = .ok (k d a n w) := by
  simp (disch := omega) only [cShI, eCount, append_reads, extract_all, Nat.sub_self]
  simp

end

/-- A control-register write lays the row of its number, if it has one (R65). -/
theorem lays_write {i : Instr} (a : SReg) (n : BitVec 16) (rest : List Slot) (h : (crwRow n a).getD (.crw a n) = i) :
    Lays i (.ctl { op := 0x141, a := eS a, imm := eNum n }) none rest := by
  refine ⟨rfl, ?_⟩
  show (_ >>= _) = _
  simp (disch := omega) only [cNum, eNum, append_reads, extract_all, Nat.sub_self]
  simp [h]

/-- The record of a control-subset instruction lays it: by its format, or by reading its own fields. -/
theorem lays_of_encodeCtl (i : Instr) {c : CtlFields} {l : Option Word128} (rest : List Slot) (hw : i.wellFormed = true)
    (h : encodeCtl i = some (c, l)) : Lays i (.ctl c) l rest := by
  cases i with
  | add | sub | min | max => cases h; exact ⟨rfl, cDABF_laid ..⟩
  | and | or | xor => cases h; exact ⟨rfl, cDAB_laid ..⟩
  | andi | ori | xori => cases h; exact ⟨rfl, cDAI_laid ..⟩
  | shl | shr | sar | mul | mulh | mulhu | div | divu | rem | remu => cases h; exact ⟨rfl, cDABW_laid ..⟩
  | shli | shri | sari => cases h; exact ⟨rfl, cShI_laid ..⟩
  | clz | ctz | popc | brev => cases h; exact ⟨rfl, cDAW_laid ..⟩
  | pand | por | pxor => cases h; exact ⟨rfl, cPPP_laid ..⟩
  | nop | stop | yield | sbar | addi | abs | pget | mova | movs | li | lia | lit | lita | adr | cmp | cmpi | cmpW
  | aadd | aaddi | asub | aidx | acmp | br | brr | call | callr | ret | lcget | lcset | lbreak =>
    cases h
    refine ⟨rfl, ?_⟩
    show (_ >>= _) = _
    simp
  | bext | bins | cmpiW | pput | sel | awrap | abnd | aalign | loop | loopi | fld | fst | fldx | fstx | crr | crs | crc =>
    cases h
    refine ⟨rfl, ?_⟩
    show (_ >>= _) = _
    simp (disch := omega) only [eCount, eSx, cFol, eFol, cNum, eNum, append_reads, extract_all, Nat.sub_self, Nat.reduceSub]
    simp
  | folioDiagWrite | repairPut | folioInjectWrite | hintModeWrite | tduCtlWrite | preCtlWrite | planeLoad | viLogWrite | xlateInval
  | frameSelect | powerLimitWrite | thermLimitWrite => cases h; exact lays_write _ _ _ rfl
  | crw a n =>
    cases h
    obtain ⟨-, hrow⟩ := Bool.and_eq_true_iff.mp hw
    exact lays_write a n rest (by rw [Option.isNone_iff_eq_none.mp hrow]; rfl)
  | _ => cases h

/-! ### The memory, system, synchronisation, vector and ligature classes (R113, R137, R200, R288, R307) -/

theorem lays_of_encodeMem (i : Instr) {u : EngFields} (rest : List Slot) (h : encodeMem i = some u) : Lays i (.eng u) none rest := by
  cases i with
  | ld | st | vld | vst | vlds | vsts | tldv | tsta | pref | cmoWb | cmoWbinv | cmoZero | atom | atomn | cas =>
    cases h
    refine lays_mem rfl rfl ?_
    simp [decodeMem, memF, vmemF]
  | vgath | vscat | fence | duct =>
    cases h
    refine lays_mem rfl rfl ?_
    simp (disch := omega) only [decodeMem, vmemF, MemSpec.of_eMemOp, MemSpec.of_eMem, append_reads, extract_all, Nat.sub_self,
      Nat.reduceSub, BitVec.ofNat_eq_ofNat, BitVec.reduceToNat]
    simp
  | dcol d tag =>
    cases d with
    | s | v =>
      cases h
      refine lays_mem rfl rfl ?_
      simp (disch := omega) only [decodeMem, MemSpec.of_eMem, append_reads, extract_all, Nat.sub_self, BitVec.ofNat_eq_ofNat,
        BitVec.reduceToNat]
      simp
  | _ => cases h

theorem lays_of_encodeSys (i : Instr) {u : EngFields} (rest : List Slot) (h : encodeSys i = some u) : Lays i (.eng u) none rest := by
  cases i with
  | trap | tret | bkr | bkw | pgsvcTouch | pgsvcAlloc | pgsvcPin | pgsvcUnpin | pgsvcQuery | hset | hfree | hqry | tkset | curset
  | rseed | kzero | blot | blwait | wfe | ctxctlSoft | ctxctlHalt | ctxctlKill | ctxctlResume | ctxsv | ctxld =>
    cases h
    refine lays_sys rfl rfl ?_
    simp (disch := omega) only [decodeSys, sysF, append_reads, extract_all, Nat.sub_self, Nat.reduceSub, BitVec.ofNat_eq_ofNat,
      BitVec.reduceToNat]
    simp
  | _ => cases h

theorem lays_of_encodeSync (i : Instr) {u : EngFields} (rest : List Slot) (h : encodeSync i = some u) : Lays i (.eng u) none rest := by
  cases i with
  | semset | barr | bwait | btry | bmembJoin | bmembLeave | waddr | wake | qbind | qunbind | qdepth =>
    cases h
    refine lays_sync rfl rfl ?_
    simp (disch := omega) only [decodeSync, syncPlain, syncMem, syncF, eSync, append_reads, extract_all, Nat.sub_self, Nat.reduceSub,
      BitVec.ofNat_eq_ofNat, BitVec.reduceToNat]
    simp
  | semsig _ _ k | semwait _ k | semtry _ _ k =>
    cases k with
    | reg | imm =>
      cases h
      refine lays_sync rfl rfl ?_
      simp (disch := omega) only [decodeSync, syncPlain, semCount, syncF, eCnt, eSync, append_reads, extract_all, Nat.sub_self,
        BitVec.ofNat_eq_ofNat, BitVec.reduceToNat]
      simp
  | _ => cases h

theorem lays_of_encodeVec (i : Instr) {u : EngFields} (rest : List Slot) (h : encodeVec i = some u) : Lays i (.eng u) none rest := by
  cases i with
  | vadd | vsub | vmul | vmulh | vdiv | vmin | vmax | vabs | vneg | vfma | vaddw | vmulw | vand | vor | vxor | vbit | vcmp
  | vrsum | vrmax | vrmin | vsf | vperm | vslide | vbcast | vrev =>
    cases h
    refine lays_vec rfl rfl ?_
    simp [decodeVec, vecF, vDAB, vDABs, vDAs, vDA, vRed]
  | vsel | vcmpr | mpop | mfirst | vzip | vunzip =>
    cases h
    refine lays_vec rfl rfl ?_
    simp [decodeVec, vecF, eMen, eMsel]
  | mand | mor | mxor | mset =>
    cases h
    refine lays_vec rfl rfl ?_
    simp [decodeVec, vecN, vMMM]
  | vins | vext =>
    cases h
    refine lays_vec rfl rfl ?_
    simp (disch := omega) only [decodeVec, vecF, eMsel, eMen, VecSpec.of_eVec, append_reads, extract_all, Nat.sub_self,
      BitVec.ofNat_eq_ofNat, BitVec.reduceToNat]
    simp
  | vcvt =>
    cases h
    refine lays_vec rfl rfl ?_
    simp (disch := omega) only [decodeVec, VecSpec.of_eVec, append_reads, extract_all, Nat.sub_self, Nat.reduceSub,
      BitVec.ofNat_eq_ofNat, BitVec.reduceToNat]
    simp
  | vmov =>
    cases h
    refine lays_vec rfl rfl ?_
    simp only [decodeVec, vecN, VecSpec.of_eVec, laidSz_low, laidSz_high, BitVec.ofNat_eq_ofNat, BitVec.reduceToNat]
    simp
  | vshl _ _ n | vshr _ _ n | vsar _ _ n =>
    cases n with
    | reg =>
      cases h
      refine lays_vec rfl rfl ?_
      simp [decodeVec, eVcount, vecF, vShift]
    | imm =>
      cases h
      refine lays_vec rfl rfl ?_
      simp (disch := omega) only [decodeVec, eVcount, vecF, vShift, VecSpec.of_eVec, append_reads, extract_all, Nat.sub_self,
        BitVec.ofNat_eq_ofNat, BitVec.reduceToNat]
      simp
  | _ => cases h

theorem lays_of_encodeLig (i : Instr) {u : EngFields} (rest : List Slot) (h : encodeLig i = some u) : Lays i (.eng u) none rest := by
  cases i with
  | lpack | ladd | lmul | lext | lgw =>
    cases h
    refine lays_lig rfl rfl ?_
    simp (disch := omega) only [decodeLig, ligOpOf, eLig, eLigImm, append_reads, extract_all, Nat.sub_self, Nat.reduceSub,
      BitVec.ofNat_eq_ofNat, BitVec.reduceToNat]
    simp
  | _ => cases h

/-- The record of one of these classes lays its instruction. -/
theorem lays_of_encodeEng (i : Instr) {u : EngFields} (rest : List Slot)
    (h : (encodeMem i <|> encodeSys i <|> encodeSync i <|> encodeVec i <|> encodeLig i) = some u) : Lays i (.eng u) none rest := by
  simp only [Option.orElse_eq_orElse, Option.orElse_eq_or, Option.or_eq_some_iff] at h
  rcases h with h | ⟨-, h | ⟨-, h | ⟨-, h | ⟨-, h⟩⟩⟩⟩
  · exact lays_of_encodeMem i rest h
  · exact lays_of_encodeSys i rest h
  · exact lays_of_encodeSync i rest h
  · exact lays_of_encodeVec i rest h
  · exact lays_of_encodeLig i rest h

/-! ### Commands and the words that follow them (R251, R257, R300, R307, R321) -/

/-- A following word is laid unannotated, so it is legal in its place (R26, R257, R321). -/
@[simp] theorem followSched_plain (i : Instr) (f : OpFields) (l : Option Word128) :
    followSched i { word := Sched.plain.pack ++ f.pack, lit := l } = .ok () := by
  simp only [followSched, followOk, schedOf_lay, bit96_lay, reuseOk, tokOk, queueOf]
  simp [Sched.plain, List.range, List.range.loop]

@[simp] theorem chainOf_chainF (c : ChainCmd) : chainOf (chainF c) (some c.task.pack) = .ok c := by
  simp (disch := omega) only [chainOf, chainF, append_reads, extract_all, Nat.sub_self, Nat.reduceSub]
  simp

/-- The epilogue of a matrix command is read from the word after it (R321). -/
theorem epilogueOf_chainF (c : ChainCmd) (l : List Slot) :
    epilogueOf ({ word := Sched.plain.pack ++ (OpFields.eng (chainF c)).pack, lit := some c.task.pack } :: l) = .ok c := by
  simp [epilogueOf, opFieldsOf_lay]

/-- The bits between KA and the tag of a matrix command's SPEC field are zero (R307). -/
theorem matUnused_zero : ∀ v w x y z : Bool, (BitVec.ofBool v ++ BitVec.ofBool w ++ BitVec.ofBool x ++ BitVec.ofBool y ++ BitVec.ofBool z
    ++ 0#2 ++ 0#7 ++ 0#1).extractLsb' 0 10 = 0#10 := by decide

/-- A matrix command is read from its record and its epilogue's (R307, R308, R321). -/
@[simp] theorem matOf_matF (op : BitVec 8) (c : MatCmd) (tag : BitVec 4) :
    matOf (matF op c tag) (some c.task.pack) (layoutSlots Sched.plain (encodeFields.epi c)) = .ok c := by
  obtain ⟨a, b, c, d, oc, bar, chk, zero, ka, task, epi⟩ := c
  simp (disch := omega) only [matOf, matF, append_reads, matUnused_zero, extract_all, Nat.sub_self, Nat.reduceSub]
  cases epi with
  | none => simp
  | some k => simp [encodeFields.epi, layoutSlots, epilogueOf_chainF, Except.map]

@[simp] theorem matF_cls (op : BitVec 8) (c : MatCmd) (tag : BitVec 4) : (matF op c tag).cls = 4#3 := rfl
@[simp] theorem matF_op (op : BitVec 8) (c : MatCmd) (tag : BitVec 4) : (matF op c tag).op = op := rfl
@[simp] theorem matF_tag (op : BitVec 8) (c : MatCmd) (tag : BitVec 4) : (matF op c tag).spec.extractLsb' 0 4 = tag := by
  simp (disch := omega) only [matF, append_reads, extract_all]

/-- The matrix command that a copy carries is read from the words after it (R257). -/
theorem followOnOf_follow (f : FollowOn) : followOnOf (layoutSlots Sched.plain (encodeFields.follow (some f))) = .ok f := by
  obtain ⟨c, tag⟩ := f
  cases tag with
  | none | some => simp [encodeFields.follow, layoutSlots, followOnOf, opFieldsOf_lay]

theorem lays_mma (c : MatCmd) :
    Lays (.mma c) (.eng (matF 0x08 c 0)) (some c.task.pack) (layoutSlots Sched.plain (encodeFields.epi c)) :=
  lays_lig rfl rfl (by simp [decodeLig])
theorem lays_qmma (c : MatCmd) (tag : Fin 16) :
    Lays (.qmma c tag) (.eng (matF 0x09 c (bf4 tag))) (some c.task.pack) (layoutSlots Sched.plain (encodeFields.epi c)) :=
  lays_lig rfl rfl (by simp [decodeLig])
theorem lays_chain (c : ChainCmd) (rest : List Slot) : Lays (.chain c) (.eng (chainF c)) (some c.task.pack) rest := by
  refine ⟨rfl, ?_⟩
  show (need true .literal >>= fun _ => _) = _
  simp

/-- The word of a copy lays it with the command it carries (R253, R257). -/
theorem lays_cpy (c : CpyCmd) :
    Lays (.cpy c) (.eng { taskF 0x01 (gS c.d) (gS c.a) (gS c.b) (gS c.c) (eTask c.bar c.fo.isSome c.crc c.ch c.dir.code 0 0) with
      lit := true, oc := bf4 c.oc }) (some c.task.pack) (layoutSlots Sched.plain (encodeFields.follow c.fo)) := by
  refine lays_task rfl rfl ?_
  obtain ⟨a, b, c, d, dir, ch, oc, bar, crc, task, fo⟩ := c
  simp only [decodeTask, taskF, eTask_reads, BitVec.ofNat_eq_ofNat, BitVec.reduceToNat]
  cases fo with
  | none => simp
  | some f => simp [followOnOf_follow, Except.map]
theorem lays_cpyo (c : CpyoCmd) :
    Lays (.cpyo c) (.eng { taskF 0x02 0 (gS c.a) (gS c.b) (gS c.c) (eTask c.bar c.fo.isSome false c.ch (eVar1 c.fol) 0 0) with
      lit := true, oc := bf4 c.oc }) (some c.task.pack) (layoutSlots Sched.plain (encodeFields.follow c.fo)) := by
  refine lays_task rfl rfl ?_
  obtain ⟨a, b, c, fol, ch, oc, bar, task, fo⟩ := c
  simp only [decodeTask, taskF, eTask_reads, BitVec.ofNat_eq_ofNat, BitVec.reduceToNat]
  cases fo with
  | none => simp
  | some f => simp [followOnOf_follow, Except.map]

theorem hasLit_epi (c : MatCmd) : ∀ e ∈ encodeFields.epi c, e.1.hasLit = e.2.isSome := by
  unfold encodeFields.epi
  split <;> simp [OpFields.hasLit, chainF]
theorem hasLit_follow (f : Option FollowOn) : ∀ e ∈ encodeFields.follow f, e.1.hasLit = e.2.isSome := by
  unfold encodeFields.follow
  split
  · simp only [List.mem_cons, forall_eq_or_imp]
    refine ⟨?_, hasLit_epi _⟩
    split <;> rfl
  · simp

/-! ### Every instruction -/

/-- An instruction has records: the first lays it before those that follow, and each says whether a literal comes after it. -/
def Laid (i : Instr) : Prop :=
  ∃ f l rest, encodeFields i = some ((f, l) :: rest) ∧ (∀ e ∈ rest, e.1.hasLit = e.2.isSome) ∧ Lays i f l (layoutSlots Sched.plain rest)

theorem laid_single {i : Instr} {f : OpFields} {l : Option Word128} (h : encodeFields i = some [(f, l)]) (hl : Lays i f l []) : Laid i :=
  ⟨f, l, [], h, fun _ he => absurd he List.not_mem_nil, hl⟩

/-- The records of an instruction of one record outside the task, chain and matrix commands. -/
def encodeOne (i : Instr) : Option (List (OpFields × Option Word128)) :=
  match encodeCtl i with
  | some (c, l) => some [(.ctl c, l)]
  | none => (encodeMem i <|> encodeSys i <|> encodeSync i <|> encodeVec i <|> encodeLig i).map fun u => [(.eng u, none)]

theorem laid_of_encodeOne {i : Instr} {fs : List (OpFields × Option Word128)} (hw : i.wellFormed = true) (hi : encodeFields i = some fs)
    (h : encodeOne i = some fs) : Laid i := by
  unfold encodeOne at h
  split at h
  next c l hc =>
    cases h
    exact laid_single hi (lays_of_encodeCtl i [] hw hc)
  next =>
    obtain ⟨u, hu, rfl⟩ := Option.map_eq_some_iff.mp h
    exact laid_single hi (lays_of_encodeEng i [] hu)

/-- Events and the rows that a written value selects have no record, and no other instruction is without one (log 25). -/
theorem encodeFields_isSome (i : Instr) : (encodeFields i).isSome = !(isEvent i || byValue i) := by
  cases i with
  | dcol d => cases d <;> rfl
  | _ => rfl

/-- What an instruction encodes to lays it: a command with what follows it, any other by the record of its class. -/
theorem laid_of_encodeFields {i : Instr} {fs : List (OpFields × Option Word128)} (hw : i.wellFormed = true)
    (h : encodeFields i = some fs) : Laid i := by
  cases i with
  | chain c => exact laid_single rfl (lays_chain c [])
  | mma c => exact ⟨_, _, _, rfl, hasLit_epi c, lays_mma c⟩
  | qmma c tag => exact ⟨_, _, _, rfl, hasLit_epi c, lays_qmma c tag⟩
  | cpy c => exact ⟨_, _, _, rfl, hasLit_follow c.fo, lays_cpy c⟩
  | cpyo c => exact ⟨_, _, _, rfl, hasLit_follow c.fo, lays_cpyo c⟩
  | chpop =>
    refine laid_single rfl ⟨rfl, ?_⟩
    show (_ >>= _) = _
    simp (disch := omega) only [append_reads, extract_all, Nat.sub_self]
    simp
  | tsem | cwptrLand | cwptrIss | fwput | bswap | bswapClose | launch | graphOpen | graphClose | wphaseOpen | wphaseClose | cntr | cancel =>
    refine laid_single rfl (lays_task rfl rfl ?_)
    simp only [decodeTask, taskF, eTask_reads, BitVec.ofNat_eq_ofNat, BitVec.reduceToNat]
    simp
  | bswapOpen =>
    refine laid_single rfl (lays_task rfl rfl ?_)
    simp (disch := omega) only [decodeTask, taskF, eTask_reads, append_reads, extract_all, Nat.sub_self, BitVec.ofNat_eq_ofNat,
      BitVec.reduceToNat]
    simp
  | dcol d =>
    cases d with
    | s | v => exact laid_of_encodeOne hw h h
  | _ => exact laid_of_encodeOne hw h h

theorem wellFormedWith_iff (i : Instr) (sc : Sched) :
    i.wellFormedWith sc = true ↔ i.wellFormed = true ∧ reuseOk i sc.reuse = true ∧ tokOk i sc.acc sc.tok = true := by
  simp only [Instr.wellFormedWith, Bool.and_eq_true, and_assoc]

/-- The words of an instruction that its records lay decode to it. -/
theorem decode_encode_of_laid {sc : Sched} {i : Instr} (hw : i.wellFormedWith sc = true) (h : Laid i) :
    ∃ ws, encode sc i = some ws ∧ decode ws = .ok (sc, i) := by
  obtain ⟨f, l, rest, hi, hrest, hlit, hdec⟩ := h
  refine ⟨layWords sc ((f, l) :: rest), by rw [encode, hi]; rfl, ?_⟩
  obtain ⟨hcheck, hreuse, htok⟩ := (wellFormedWith_iff i sc).mp hw
  rw [Instr.wellFormed] at hcheck
  rw [decode, slotsOf_layWords sc _ (List.forall_mem_cons.mpr ⟨hlit, hrest⟩)]
  simp only [layoutSlots, decodeSlots, bit96_lay, schedOf_lay, opFieldsOf_lay, hdec, hcheck, hreuse, htok, Bool.not_false, need_true,
    ok_bind, pure_ok]

/-- Every instruction that a word decodes to encodes, and its words decode to it. -/
theorem decode_encode {sc : Sched} {i : Instr} (hw : i.wellFormedWith sc = true) (he : isEvent i = false) (hv : byValue i = false) :
    ∃ ws, encode sc i = some ws ∧ decode ws = .ok (sc, i) := by
  obtain ⟨fs, hfs⟩ := Option.isSome_iff_exists.mp ((encodeFields_isSome i).trans (by rw [he, hv]; rfl))
  exact decode_encode_of_laid hw (laid_of_encodeFields ((wellFormedWith_iff i sc).mp hw).1 hfs)

/-- Settles O56: the record of each class reads back by its own fields, and the words give back the records. -/
theorem decodeEncode : Obligations.DecodeEncode :=
  fun _ _ hw he hv _ => decode_encode hw he hv

theorem encoded_of_carries {i : Instr} (h : carries i = true) : isEvent i = false ∧ byValue i = false := by
  cases i with
  | cpy | cpyo | mma | qmma => exact ⟨rfl, rfl⟩
  | _ => cases h

/-- Settles O57: the commands that follow are read, each from its own word, before the copy or matrix command that carries them. -/
theorem decodeEncodePairs : Obligations.DecodeEncodePairs := fun _ _ hw hc =>
  decode_encode hw (encoded_of_carries hc).1 (encoded_of_carries hc).2

end Sys2Proof

/-! ## A step of a strand that stands alone (R28, R80, R94, R97)

What landing leaves alone where nothing in flight holds a value, what a strand's turn prepares, and what its one member issues. -/

namespace Sys2Proof.Machine

/-! ### Landing in checked mode (R85, R87) -/

/-- No result in flight holds a value that the register file lacks: checked mode's own state (R88). -/
def Ctx.settled (x : Ctx) : Prop := ∀ k : Fin 4, x.strands[k].flight.all (fun f => f.vals.isEmpty) = true

/-- `y` differs from `x` in the results in flight and the scoreboards of its strands at most, and is settled too. -/
structure Ctx.LandsInto (x y : Ctx) : Prop where
  settled : y.settled
  trusted : y.trusted = x.trusted
  strand : ∀ k : Fin 4, ∃ fl sb, y.strands[k] = { x.strands[k] with flight := fl, sb := sb }

theorem Ctx.settled.landsInto {x : Ctx} (h : x.settled) : x.LandsInto x := ⟨h, rfl, fun _ => ⟨_, _, rfl⟩⟩

theorem Ctx.LandsInto.trans {x y z : Ctx} (hxy : x.LandsInto y) (hyz : y.LandsInto z) : x.LandsInto z := by
  refine ⟨hyz.settled, hyz.trusted.trans hxy.trusted, fun k => ?_⟩
  obtain ⟨fl, sb, hy⟩ := hxy.strand k
  obtain ⟨fl', sb', hz⟩ := hyz.strand k
  exact ⟨fl', sb', by rw [hz, hy]⟩

/-- A strand whose flights and scoreboards alone change, the flights still without values. -/
theorem Ctx.settled.modStrand {x : Ctx} (h : x.settled) (i : Fin 4) (f : Strand → Strand)
    (hf : ∃ fl sb, f x.strands[i] = { x.strands[i] with flight := fl, sb := sb } ∧ fl.all (fun f => f.vals.isEmpty) = true) :
    x.LandsInto (x.modStrand i f) := by
  obtain ⟨fl, sb, hf, hfl⟩ := hf
  have hi : (x.modStrand i f).strands[i] = { x.strands[i] with flight := fl, sb := sb } := (strands_modStrand x i f).trans hf
  refine ⟨fun k => ?_, rfl, fun k => ?_⟩
  · by_cases hk : k = i
    · subst hk
      rw [hi]
      exact hfl
    · exact (congrArg (fun t : Strand => t.flight.all fun f => f.vals.isEmpty) (strands_modStrand_other x i k f hk)).trans (h k)
  · by_cases hk : k = i
    · subst hk
      exact ⟨fl, sb, hi⟩
    · exact ⟨_, _, strands_modStrand_other x i k f hk⟩

theorem Ctx.settled.foldl {x : Ctx} (h : x.settled) (f : Ctx → Fin 4 → Ctx)
    (hf : ∀ (y : Ctx) (j : Fin 4), y.settled → y.LandsInto (f y j)) (l : List (Fin 4)) :
    x.LandsInto (l.foldl f x) := by
  induction l generalizing x with
  | nil => exact h.landsInto
  | cons j l ih => exact (hf x j h).trans (ih (hf x j h).settled)

/-- Results without values write nothing. -/
theorem foldl_writeElems_empty (i : Fin 4) (fs : List (Flight × Nat)) (x : Ctx) (h : ∀ f ∈ fs, f.1.vals = []) :
    fs.foldl (fun x f => writeElems x i f.1.vals) x = x := by
  induction fs generalizing x with
  | nil => rfl
  | cons f fs ih =>
    rw [List.foldl_cons, h f List.mem_cons_self]
    exact ih x fun g hg => h g (List.mem_cons_of_mem _ hg)

theorem Ctx.settled.landFlights {x : Ctx} (h : x.settled) (i : Fin 4) (stays : Flight → Nat → Bool) : x.LandsInto (x.landFlights i stays) := by
  have hempty : ∀ f ∈ x.strands[i].flight.zipIdx, f.1.vals = [] := fun f hf =>
    List.isEmpty_iff.mp (List.all_eq_true.mp (h i) f.1 (List.fst_mem_of_mem_zipIdx hf))
  unfold Ctx.landFlights
  dsimp only
  rw [foldl_writeElems_empty i _ x fun f hf => hempty f (List.mem_of_mem_filter hf)]
  refine h.modStrand i _ ⟨_, _, rfl, List.all_eq_true.mpr fun f hf => ?_⟩
  obtain ⟨g, hg, rfl⟩ := List.mem_map.mp hf
  exact List.isEmpty_iff.mpr (hempty g (List.mem_of_mem_filter hg))

/-- Landing before an issue changes no register where nothing in flight holds a value. -/
theorem Ctx.settled.landResults {x : Ctx} (h : x.settled) (i : Fin 4) (sc : Sched) (ins : Instr) (now tick : Nat) :
    x.LandsInto (x.landResults i sc ins now tick) := by
  have hfold := h.foldl (fun (x : Ctx) (j : Fin 4) =>
    if x.strands[j].flight.isEmpty then x
    else if j = i then x.landFlights j fun f k =>
      (x.trusted || f.vals.isEmpty) && !settlesFirst ins && f.out now tick k && !(f.sb != 0 && sc.wait.getLsbD (f.sb - 1))
    else x.landFlights j fun f _ => (x.trusted || f.vals.isEmpty) && !f.past now) (fun y j hy => by
      split
      · exact hy.landsInto
      · split
        · exact hy.landFlights j _
        · exact hy.landFlights j _) [0, 1, 2, 3]
  exact hfold.trans (hfold.settled.modStrand i _ ⟨_, _, rfl, hfold.settled i⟩)

/-! ### The turn of a strand (R80, R186) -/

/-- The state from which a strand fetches at its turn. -/
def State.atTurn (s : State) (r : StrandRef) : State :=
  noteFetch ((s.modStrandAt r fun t => { t with wait := if t.wait = some .retry then none else t.wait, wants := [] }).serve r) r

theorem focus_marginFill (s : State) (x : Xl) : (marginFill s x).focus = s.focus := by
  unfold marginFill
  split
  · unfold marginTake
    split
    · split
      · split <;> rfl
      · rfl
    · rfl
  · rfl
theorem focus_noteAccess (s : State) (d : Nat) (x : Xl) : (noteAccess s d x false).focus = s.focus := by
  unfold noteAccess
  extract_lets u dd ix bump isIt
  have hu : u.focus = s.focus := focus_marginFill s x
  split
  · exact hu
  · split
    · exact hu
    · split
      · exact hu
      · exact hu
theorem focus_noteFetch (s : State) (r : StrandRef) : (noteFetch s r).focus = s.focus := by
  unfold noteFetch
  extract_lets ag
  split
  · split
    · split
      · exact focus_noteAccess s _ _
      · rfl
    · rfl
  · rfl
theorem focus_atTurn (s : State) (r : StrandRef) : (s.atTurn r).focus = r := focus_noteFetch _ r

/-- The state in which an instruction executes: at its strand's turn, with what has landed. -/
def State.landed (s : State) (r : StrandRef) (sc : Sched) (i : Instr) : State :=
  (s.atTurn r).modCx fun x => x.landResults (strandIx r) sc i (s.atTurn r).time (s.atTurn r).tick

theorem cx_atTurn (s : State) (r : StrandRef) : (s.atTurn r).cx = (s.atTurn r).ctx r.core r.slot := by
  rw [State.cx, focus_atTurn]

/-- Where nothing in flight holds a value, the executing strand stands as it was fetched for, but for its flights and scoreboards. -/
theorem landed_settled (s : State) (r : StrandRef) (sc : Sched) (i : Instr) (h : ((s.atTurn r).ctx r.core r.slot).settled) :
    (s.landed r sc i).cx.trusted = ((s.atTurn r).ctx r.core r.slot).trusted
    ∧ ∃ fl sb, (s.landed r sc i).st = { (s.atTurn r).strandAt r with flight := fl, sb := sb } := by
  have hcx : (s.landed r sc i).cx = ((s.atTurn r).ctx r.core r.slot).landResults (strandIx r) sc i (s.atTurn r).time (s.atTurn r).tick := by
    rw [State.landed, cx_modCx, cx_atTurn]
  have hland := h.landResults (strandIx r) sc i (s.atTurn r).time (s.atTurn r).tick
  have hst : (s.landed r sc i).st = (s.landed r sc i).cx.strands[strandIx r] := by
    have hf : (s.landed r sc i).focus = r := focus_atTurn s r
    rw [State.st, hf, State.strandAt, State.cx, hf]
  rw [hst, hcx]
  exact ⟨hland.trusted, hland.strand (strandIx r)⟩

/-! ### What a turn prepares (R28) -/

section
variable {s : State} {r : StrandRef} {w : Word128} {ws : List Word128} {sc : Sched} {i : Instr}
  (hw : (s.atTurn r).fetchWord ((s.atTurn r).agentAt r) ((s.atTurn r).strandAt r).pc = .ok w)
  (hws : (s.atTurn r).fetchSeq ((s.atTurn r).agentAt r) ((s.atTurn r).strandAt r).pc = .ok ws) (hd : decode ws = .ok (sc, i))
include hw hws hd

theorem prepare_illegal (hst : stateOk ((s.atTurn r).strandAt r) (strandIx r) i = false) :
    prepare s r = .stop (issueTrap (s.atTurn r) r 0x01 0 0 true (guardOn ((s.atTurn r).strandAt r) (schedOf w))) := by
  unfold prepare
  extract_lets s1 ag t
  rw [show s.atTurn r = s1 from rfl] at hw hws hst ⊢
  simp only [ag, t, hw, hws, hd, hst, Bool.not_false, if_true]

theorem prepare_privileged (hst : stateOk ((s.atTurn r).strandAt r) (strandIx r) i = true)
    (hlv : ((s.atTurn r).ctx r.core r.slot).priv.val < levelAt (s.atTurn r) i) :
    prepare s r = .stop (issueTrap (s.atTurn r) r 0x02 0 0 true (guardOn ((s.atTurn r).strandAt r) (schedOf w))) := by
  unfold prepare
  extract_lets s1 ag t
  rw [show s.atTurn r = s1 from rfl] at hw hws hst hlv ⊢
  simp only [ag, t, hw, hws, hd, hst, hlv, Bool.not_true, Bool.false_eq_true, if_false, if_true]

theorem prepare_go (hst : stateOk ((s.atTurn r).strandAt r) (strandIx r) i = true)
    (hlv : levelAt (s.atTurn r) i ≤ ((s.atTurn r).ctx r.core r.slot).priv.val) (htr : (s.landed r sc i).cx.trusted = false)
    (hp : (guardOn (s.landed r sc i).st sc && readsPoison (s.landed r sc i).cx i) = false) :
    prepare s r = .go (s.landed r sc i) (s.landed r sc i) sc i (guardOn (s.landed r sc i).st sc) := by
  unfold prepare
  extract_lets s1 ag t
  have e : s.landed r sc i = s1.modCx fun x => x.landResults (strandIx r) sc i s1.time s1.tick := rfl
  rw [show s.atTurn r = s1 from rfl] at hw hws hst hlv
  rw [e] at htr hp ⊢
  simp only [ag, t, hw, hws, hd, hst, Nat.not_lt.mpr hlv, htr, hp, Bool.not_true, Bool.false_eq_true, if_false]

end

/-! ### What a strand alone issues (R82, R97, R221) -/

theorem issueStrand_stop {s t : State} {r : StrandRef} (ha : able s r = true) (hp : prepare s r = .stop t) : issueStrand s r = .next t := by
  simp [issueStrand, ha, issueGroup, issueMember, hp]

theorem issueStrand_alone {s u v : State} {r : StrandRef} {sc : Sched} {i : Instr} {on : Bool} (ha : able s r = true)
    (hp : prepare s r = .go u v sc i on) (hs : sc.sync = false) : issueStrand s r = issueMember s true s r := by
  simp [issueStrand, ha, issueGroup, hp, hs]

/-- With no difference of its own the tracer's copy stays in step with the strand (R98). -/
theorem traceStep_agrees {s v t u : State} {i : Instr} {on : Bool} (h : s.st.tracer = {}) : traceStep s v t i on u = u := by
  simp [traceStep, h]

section
variable {s u : State} {r : StrandRef} {sc : Sched} {i : Instr} {on : Bool} (hp : prepare s r = .go u u sc i on)
  (hah : u.st.ahead = []) (htr : u.st.tracer = {})
include hp hah htr

theorem issueMember_off (hon : on = false) : issueMember s true s r = .next (guardedOff u sc i) := by
  simp [issueMember, hp, hah, State.withAddress, State.withEntry, traceDiffers, htr, hon, traceStep_agrees htr]

/-- Guarded on, an instruction issues as its meaning on what it reads has it. -/
theorem issueMember_on (hon : on = true) :
    (∀ t, exec (specialise i u) u = .next t → issueMember s true s r = .next (if overtakesChain u t then u.hold else finishIssue u u t sc i))
    ∧ (∀ f, exec (specialise i u) u = .fault f → issueMember s true s r = .fault f)
    ∧ ∀ f, exec (specialise i u) u = .refused f → issueMember s true s r = .refused f := by
  refine ⟨fun t h => ?_, fun f h => ?_, fun f h => ?_⟩ <;>
    simp [issueMember, hp, hah, State.withAddress, State.withEntry, traceDiffers, htr, hon, h, traceStep_agrees htr]

end

/-! ### The step (R80, log 2) -/

theorem step_next {s t : State} (h : act s = .next t) : step s = .next (afterStep t) := by
  rw [step, cycle, h]
theorem step_fault {s : State} {f : Fault} (h : act s = .fault f) : step s = .fault f := by
  rw [step, cycle, h]
theorem step_refused {s : State} {f : Refusal} (h : act s = .refused f) : step s = .refused f := by
  rw [step, cycle, h]

/-- A part that runs takes the input at the head of its agenda. -/
theorem act_input {s : State} {a : Act} {rest : List Act} (h : s.agenda = a :: rest) (hp : s.poweredOff = false) (hb : s.boot ≠ 1) :
    act s = applyAct a { s with agenda := rest } := by
  simp [act, h, State.alive, hp, hb]

theorem act_strand {s : State} {r : StrandRef} {rest : List Act} (h : s.agenda = .strand r :: rest) (hp : s.poweredOff = false)
    (hb : s.boot ≠ 1) (hc : canIssue { s with agenda := rest } r = true) : act s = issueStrand { s with agenda := rest } r := by
  simp [act_input h hp hb, applyAct, hc]

theorem act_event {s : State} {i : Instr} {rest : List Act} (h : s.agenda = .event i :: rest) (hp : s.poweredOff = false) (hb : s.boot ≠ 1)
    (he : isEvent i = true) (hh : hostEvent i = true → s.boot = 7) : act s = exec i { s with agenda := rest } := by
  have hbooted : (s.boot == 7 || !hostEvent i) = true := by
    cases hi : hostEvent i with
    | false => simp
    | true => simp [hh hi]
  simp [act_input h hp hb, applyAct, he, hbooted]

/-- Settles O54: the input at the head of the agenda is the strand's turn, which prepares the decoded instruction, and that one issues alone; an event is
its own meaning. -/
theorem stepRunsDecoded : Obligations.StepRunsDecoded := by
  refine ⟨?_, fun s i rest u ha hp hb he hh hx => step_next ((act_event ha hp hb he hh).trans hx)⟩
  intro s r rest w ws sc i s0 s1 s2 x t ha hp hb hc hable hw hws hd hsync htrust hah htracer hset
  have hact : act s = issueStrand s0 r := act_strand ha hp hb hc
  obtain ⟨hcx, fl, sb, hst⟩ := landed_settled s0 r sc i hset
  have hlanded : s0.landed r sc i = s2 := rfl
  rw [hlanded] at hst hcx
  have hguard : guardOn s2.st sc = guardOn t sc := by rw [hst]; rfl
  have hah2 : s2.st.ahead = [] := by rw [hst]; exact hah
  have htr2 : s2.st.tracer = {} := by rw [hst]; exact htracer
  refine ⟨fun hon hok hlv hpo => ?_, fun hon hok hlv => ?_, fun hok => ?_, fun hok hlv => ?_⟩
  · have hgo := prepare_go hw hws hd hok hlv (hcx.trans htrust) (by rw [hlanded, hpo, Bool.and_false])
    obtain ⟨hn, hf, hr⟩ := issueMember_on hgo hah2 htr2 (hguard.trans hon)
    have hmem := hact.trans (issueStrand_alone hable hgo hsync)
    exact ⟨fun u hu => step_next (hmem.trans (hn u hu)), fun f h => step_fault (hmem.trans (hf f h)),
      fun f h => step_refused (hmem.trans (hr f h))⟩
  · have hgo := prepare_go hw hws hd hok hlv (hcx.trans htrust) (by rw [hlanded, hguard, hon, Bool.false_and])
    exact step_next ((hact.trans (issueStrand_alone hable hgo hsync)).trans (issueMember_off hgo hah2 htr2 (hguard.trans hon)))
  · exact step_next (hact.trans (issueStrand_stop hable (prepare_illegal hw hws hd hok)))
  · exact step_next (hact.trans (issueStrand_stop hable (prepare_privileged hw hws hd hok hlv)))

end Sys2Proof.Machine

/-! ## Words written out from the encoding tables (R13, R18-R20, R28) -/

namespace Sys2Proof
open Machine

/-- Settles O55: the decoder, run on each word. -/
theorem decodeWords : Obligations.DecodeWords := ⟨by decide +kernel, by decide +kernel⟩

end Sys2Proof

/-! ## The control subset (R42-R71, R104)

### Operands by width (R43, R44) -/

namespace Sys2Proof.Machine

@[simp] theorem widthOf_true : widthOf true = 32 := rfl
@[simp] theorem widthOf_false : widthOf false = 64 := rfl
@[simp] theorem sval_true (x : Word) : sval true x = (x.setWidth 32).toInt := rfl
@[simp] theorem sval_false (x : Word) : sval false x = x.toInt := rfl
@[simp] theorem uval_true (x : Word) : uval true x = (x.setWidth 32).toNat := rfl
@[simp] theorem uval_false (x : Word) : uval false x = x.toNat := rfl
@[simp] theorem wres_true (v : Int) : wres true v = (BitVec.ofInt 32 v).signExtend 64 := rfl
@[simp] theorem wres_false (v : Int) : wres false v = BitVec.ofInt 64 v := rfl

/-! ### Sums and differences, with the clamp (R46) -/

theorem retire_setSatf (t : Strand) (b : Bool) (n : Nat) : (t.setSatf b).retire n = { t.retire n with satf := t.satf || b } := by
  rw [retire_of t (t.setSatf b) n (by unfold Strand.setSatf; split <;> simp), retire_eq t n]
  cases b <;> simp [Strand.setSatf]

@[simp] theorem satf_setS (t : Strand) (d : SReg) (v : Word) : (t.setS d v).satf = t.satf := by
  unfold Strand.setS; split <;> rfl

theorem clampS_eq (w : Nat) (v : Int) :
    clampS w v = (max (-(2 ^ (w - 1))) (min (2 ^ (w - 1) - 1) v), decide (v > 2 ^ (w - 1) - 1) || decide (v < -(2 ^ (w - 1)))) := by
  have hpos : (0 : Int) < 2 ^ (w - 1) := by positivity
  unfold clampS
  split
  next h => simp [h]; omega
  next h =>
    split
    next hl => simp [h, hl]; omega
    next hl => simp [h, hl]; omega

theorem arithResult_writes (s : State) (d : SReg) (v : Int) (w sat : Bool) : AddSubWrites s (arithResult s d v w sat) d v w sat := by
  refine ⟨_, rfl, onlyStrand_modSt _ _, ?_, writesS_set _ _ _ _ ?_⟩
  · rw [st_modSt, retire_setSatf, retire_setS, satf_setS]
    cases sat <;> simp [clampS_eq]
  · rw [st_modSt, retire_setSatf, retire_setS]
    cases sat <;> simp [clampS_eq]

/-- Settles O1: the shared result of the four, with the clamp as a minimum and a maximum. -/
theorem addSubResult : Obligations.AddSubResult := by
  intro s d a b imm w sat
  have habs : exec (.abs d a w sat) s = arithResult s d (max (sval w (s.getS a)) (-(sval w (s.getS a)))) w sat := rfl
  refine ⟨arithResult_writes .., arithResult_writes .., arithResult_writes .., ?_⟩
  rw [habs]
  exact arithResult_writes ..

/-! ### Shifts, products, minimum and maximum (R46-R48) -/

theorem shiftLeft_eq_ofInt {m : Nat} (x : BitVec m) (n : Nat) : x <<< n = BitVec.ofInt m (x.toNat * 2 ^ n) := by
  apply BitVec.eq_of_toNat_eq
  rw [BitVec.toNat_shiftLeft, BitVec.toNat_ofInt, Nat.shiftLeft_eq]
  norm_cast
theorem ushiftRight_eq_ofInt {m : Nat} (x : BitVec m) (n : Nat) : x >>> n = BitVec.ofInt m ((x.toNat / 2 ^ n : Nat) : Int) := by
  apply BitVec.eq_of_toNat_eq
  have hle : x.toNat / 2 ^ n < 2 ^ m := (Nat.div_le_self ..).trans_lt x.isLt
  rw [BitVec.toNat_ushiftRight, BitVec.ofInt_natCast, BitVec.toNat_ofNat, Nat.shiftRight_eq_div_pow, Nat.mod_eq_of_lt hle]
theorem sshiftRight_eq_ofInt {m : Nat} (x : BitVec m) (n : Nat) : x.sshiftRight n = BitVec.ofInt m (Int.fdiv x.toInt (2 ^ n)) := by
  rw [BitVec.sshiftRight, Int.shiftRight_eq_div_pow, Int.fdiv_eq_ediv_of_nonneg _ (by positivity)]
  norm_cast

theorem shlOf_eq (w : Bool) (x : Word) (n : Nat) : shlOf w x n = wres w (uval w x * 2 ^ n) := by
  cases w <;> simp [shlOf, shiftLeft_eq_ofInt]
theorem shrOf_eq (w : Bool) (x : Word) (n : Nat) : shrOf w x n = wres w ((uval w x / 2 ^ n : Nat) : Int) := by
  cases w <;> simp [shrOf, ushiftRight_eq_ofInt]
theorem sarOf_eq (w : Bool) (x : Word) (n : Nat) : sarOf w x n = wres w (Int.fdiv (sval w x) (2 ^ n)) := by
  cases w <;> simp only [sarOf, sshiftRight_eq_ofInt] <;> simp

theorem ofInt_congr {m : Nat} {x y : Int} (h : x % 2 ^ m = y % 2 ^ m) : BitVec.ofInt m x = BitVec.ofInt m y := by
  apply BitVec.eq_of_toNat_eq
  rw [BitVec.toNat_ofInt, BitVec.toNat_ofInt]
  push_cast
  rw [h]

theorem wres_congr {w : Bool} {x y : Int} (h : x % 2 ^ widthOf w = y % 2 ^ widthOf w) : wres w x = wres w y := by
  cases w
  · exact ofInt_congr h
  · exact congrArg (BitVec.signExtend 64) (ofInt_congr h)

/-- Modulo 2^m the signed and the unsigned value of a word are one. -/
theorem toInt_emod {m : Nat} (x : BitVec m) : x.toInt % 2 ^ m = x.toNat := by
  have hlt : (x.toNat : Int) < 2 ^ m := by exact_mod_cast x.isLt
  have h : x.toInt % ((2 ^ m : Nat) : Int) = (x.toNat : Int) % ((2 ^ m : Nat) : Int) := by rw [BitVec.toInt_eq_toNat_bmod, Int.bmod_emod]
  push_cast at h
  rw [h, Int.emod_eq_of_lt (by positivity) hlt]

theorem sval_emod (w : Bool) (x : Word) : sval w x % 2 ^ widthOf w = uval w x := by
  cases w
  · exact toInt_emod x
  · exact toInt_emod (x.setWidth 32)

/-- The low half of a product is the same read signed or unsigned (R48). -/
theorem mulOf_unsigned (w : Bool) (x y : Word) : mulOf w x y = wres w (uval w x * uval w y) := by
  apply wres_congr
  rw [← sval_emod w x, ← sval_emod w y, ← Int.mul_emod]
theorem mulhOf_eq (w : Bool) (x y : Word) : mulhOf w x y = wres w (Int.fdiv (sval w x * sval w y) (2 ^ widthOf w)) := by
  rw [mulhOf, Int.fdiv_eq_ediv_of_nonneg _ (by positivity)]
theorem mulhuOf_eq (w : Bool) (x y : Word) : mulhuOf w x y = wres w (Int.fdiv (uval w x * uval w y) (2 ^ widthOf w)) := by
  rw [mulhuOf, Int.fdiv_eq_ediv_of_nonneg _ (by positivity)]
  norm_cast

theorem minOf_eq (w u : Bool) (x y : Word) :
    minOf w u x y = min (if u then (uval w x : Int) else sval w x) (if u then (uval w y : Int) else sval w y) := by
  cases u <;> rfl
theorem maxOf_eq (w u : Bool) (x y : Word) :
    maxOf w u x y = max (if u then (uval w x : Int) else sval w x) (if u then (uval w y : Int) else sval w y) := by
  cases u <;> rfl

theorem scalarWrite_of_eq {s : State} {d : SReg} {v v' : Word} (h : v = v') : ScalarWrite s (scalarResult s d v) d v' :=
  h ▸ scalarResult_writes s d v

/-- Settles O2: each result as the `wres` of an integer. -/
theorem scalarArithmeticResult : Obligations.ScalarArithmeticResult := by
  refine ⟨fun s d a b imm w u => ?_, fun s d a b k w => ?_, fun s d a b w => ?_⟩
  · intro x y
    refine ⟨scalarWrite_of_eq ?_, scalarWrite_of_eq ?_, scalarResult_writes .., scalarResult_writes .., scalarResult_writes ..,
      scalarResult_writes .., scalarResult_writes .., scalarResult_writes ..⟩
    · rw [minOf_eq, min_def]
    · rw [maxOf_eq, max_def]
  · exact ⟨scalarWrite_of_eq (shlOf_eq ..), scalarWrite_of_eq (shrOf_eq ..), scalarWrite_of_eq (sarOf_eq ..),
      scalarWrite_of_eq (shlOf_eq ..), scalarWrite_of_eq (shrOf_eq ..), scalarWrite_of_eq (sarOf_eq ..)⟩
  · exact ⟨scalarResult_writes .., scalarWrite_of_eq (mulOf_unsigned ..), scalarWrite_of_eq (mulhOf_eq ..), scalarWrite_of_eq (mulhuOf_eq ..)⟩

/-! ### Divides (R49) -/

theorem retire_setDzf (t : Strand) (n : Nat) : t.setDzf.retire n = { t.retire n with dzf := true } := by
  rw [retire_of t t.setDzf n (by simp [Strand.setDzf]), retire_eq t n]
  rfl
theorem retire_setDof (t : Strand) (n : Nat) : t.setDof.retire n = { t.retire n with dof := true } := by
  rw [retire_of t t.setDof n (by simp [Strand.setDof]), retire_eq t n]
  rfl

theorem retire_dzf_dof (t : Strand) (n : Nat) : (t.retire n).dzf = t.dzf ∧ (t.retire n).dof = t.dof := by
  rw [retire_eq t n]
  exact ⟨rfl, rfl⟩

theorem setDzf_divWrites (s : State) (d : SReg) (w : Bool) (v : Int) :
    DivWrites s (.next (s.modSt fun t => (t.setS d (wres w v)).setDzf.retire 1)) d w v true false := by
  refine ⟨_, rfl, onlyStrand_modSt _ _, ?_, writesS_set _ _ _ _ ?_⟩
  · rw [st_modSt, retire_setDzf, retire_setS]
    simp [(retire_dzf_dof s.st 1).2]
  · rw [st_modSt, retire_setDzf, retire_setS]
theorem setDof_divWrites (s : State) (d : SReg) (w : Bool) (v : Int) :
    DivWrites s (.next (s.modSt fun t => (t.setS d (wres w v)).setDof.retire 1)) d w v false true := by
  refine ⟨_, rfl, onlyStrand_modSt _ _, ?_, writesS_set _ _ _ _ ?_⟩
  · rw [st_modSt, retire_setDof, retire_setS]
    simp [(retire_dzf_dof s.st 1).1]
  · rw [st_modSt, retire_setDof, retire_setS]
theorem scalarResult_divWrites (s : State) (d : SReg) (w : Bool) (v : Int) :
    DivWrites s (scalarResult s d (wres w v)) d w v false false := by
  obtain ⟨t, ht, hs, hst, hw⟩ := scalarResult_writes s d (wres w v)
  refine ⟨t, ht, hs, hst.trans ?_, hw⟩
  simp [← (retire_dzf_dof s.st 1).1, ← (retire_dzf_dof s.st 1).2]

section
variable (s : State) (d : SReg) {x y : Int} (w signed q : Bool)

theorem divResult_trap (hy : y = 0) (hd : s.st.dz = true) : TakesTrap s (divResult s d x y w signed q) 0x06 0 0 := by
  rw [divResult, if_pos hy, if_pos hd]
  exact trap_takes s _ _ _
theorem divResult_zero (hy : y = 0) (hd : s.st.dz = false) :
    DivWrites s (divResult s d x y w signed q) d w (if q then 2 ^ widthOf w - 1 else x) true false := by
  rw [divResult, if_pos hy, if_neg (by simp [hd])]
  exact setDzf_divWrites ..
theorem divResult_overflow (h : signed = true ∧ x = -(2 ^ (widthOf w - 1)) ∧ y = -1) :
    DivWrites s (divResult s d x y w signed q) d w (if q then x else 0) false true := by
  rw [divResult, if_neg (by omega), if_pos h]
  exact setDof_divWrites ..
theorem divResult_parts (hy : y ≠ 0) (h : ¬(signed = true ∧ x = -(2 ^ (widthOf w - 1)) ∧ y = -1)) :
    DivWrites s (divResult s d x y w signed q) d w (if q then x.tdiv y else x.tmod y) false false := by
  rw [divResult, if_neg hy, if_neg h]
  exact scalarResult_divWrites ..
end

/-- A remainder that is rounded toward zero is smaller than the divisor and has the sign of the dividend. -/
theorem tmod_bounds {x y : Int} (hy : y ≠ 0) : |x.tmod y| < |y| ∧ (x.tmod y = 0 ∨ (0 < x.tmod y ↔ 0 < x)) := by
  constructor
  · have h : x.natAbs % y.natAbs < y.natAbs := Nat.mod_lt _ (Int.natAbs_pos.mpr hy)
    rw [← Int.natAbs_tmod] at h
    rw [Int.abs_eq_natAbs, Int.abs_eq_natAbs]
    exact_mod_cast h
  · rcases le_total 0 x with hx | hx
    · have := Int.tmod_nonneg y hx
      have hz : x = 0 → x.tmod y = 0 := fun h => by rw [h, Int.zero_tmod]
      omega
    · have := Int.tmod_nonneg y (neg_nonneg.mpr hx)
      rw [Int.neg_tmod] at this
      omega

/-- Settles O3: the four divides are one operation, by its branches. -/
theorem divideResult : Obligations.DivideResult := by
  intro s d a b w signed x y quot rem
  have hquot : quot = divResult s d x y w signed true := by
    cases signed <;> simp only [quot, x, y, if_true, Bool.false_eq_true, if_false] <;> rfl
  have hrem : rem = divResult s d x y w signed false := by
    cases signed <;> simp only [rem, x, y, if_true, Bool.false_eq_true, if_false] <;> rfl
  rw [hquot, hrem]
  refine ⟨fun hy hd => ⟨divResult_trap s d w _ _ hy hd, divResult_trap s d w _ _ hy hd⟩,
    fun hy hd => ⟨divResult_zero s d w _ true hy hd, divResult_zero s d w _ false hy hd⟩,
    fun hs hx hy => ⟨divResult_overflow s d w _ true ⟨hs, hx, hy⟩, divResult_overflow s d w _ false ⟨hs, hx, hy⟩⟩, fun hy h => ?_⟩
  obtain ⟨hlt, hsign⟩ := @tmod_bounds x y hy
  exact ⟨x.tdiv y, x.tmod y, (Int.mul_tdiv_add_tmod x y).symm, hlt, hsign, divResult_parts s d w _ true hy h, divResult_parts s d w _ false hy h⟩

/-! ### Bit fields and bit counts (R51) -/

theorem getLsbD_lowOnes (n i : Nat) : (lowOnes n).getLsbD i = (decide (i < 64) && decide (i < n)) := by
  rw [lowOnes, BitVec.getLsbD_ofNat, Nat.testBit_two_pow_sub_one]

theorem getLsbD_bextOf (x : Word) {pos width i : Nat} (sx : Bool) (hw : 0 < width) (hle : pos + width ≤ 64) (hi : i < 64) :
    (bextOf x pos width sx).getLsbD i = if i < width then x.getLsbD (pos + i) else sx && x.getLsbD (pos + width - 1) := by
  have hf : ∀ j < 64, ((x >>> pos) &&& lowOnes width).getLsbD j = (x.getLsbD (pos + j) && decide (j < width)) := fun j hj => by
    rw [BitVec.getLsbD_and, BitVec.getLsbD_ushiftRight, getLsbD_lowOnes, decide_eq_true hj, Bool.true_and]
  have htop : ((x >>> pos) &&& lowOnes width).getLsbD (width - 1) = x.getLsbD (pos + width - 1) := by
    rw [hf _ (by omega), decide_eq_true (by omega), Bool.and_true, Nat.add_sub_assoc hw]
  cases hs : (sx && x.getLsbD (pos + width - 1)) with
  | false =>
    have hdef : bextOf x pos width sx = (x >>> pos) &&& lowOnes width := by simp only [bextOf, htop, hs, Bool.false_eq_true, if_false]
    rw [hdef, hf i hi]
    by_cases hin : i < width <;> simp [hin]
  | true =>
    have hdef : bextOf x pos width sx = ((x >>> pos) &&& lowOnes width) ||| ~~~lowOnes width := by simp only [bextOf, htop, hs, if_true]
    rw [hdef, BitVec.getLsbD_or, hf i hi, BitVec.getLsbD_not, getLsbD_lowOnes, decide_eq_true hi]
    by_cases hin : i < width <;> simp [hin]

theorem getLsbD_binsOf (old x : Word) {pos width i : Nat} (hi : i < 64) :
    (binsOf old x pos width).getLsbD i = if pos ≤ i ∧ i < pos + width then x.getLsbD (i - pos) else old.getLsbD i := by
  simp only [binsOf, BitVec.getLsbD_or, BitVec.getLsbD_and, BitVec.getLsbD_not, BitVec.getLsbD_shiftLeft, getLsbD_lowOnes, hi]
  rcases Nat.lt_or_ge i pos with hlt | hge
  · simp [hlt, Nat.not_le.mpr hlt]
  · have hsub : i - pos < 64 := by omega
    have hiff : i - pos < width ↔ i < pos + width := by omega
    by_cases hin : i < pos + width <;> simp [hge, Nat.not_lt.mpr hge, hsub, hiff, hin]

theorem wres_natCast (w : Bool) {n : Nat} (h : n ≤ widthOf w) : wres w n = BitVec.ofNat 64 n := by
  cases w with
  | false => exact BitVec.ofInt_natCast 64 n
  | true =>
    have hn : n < 2 ^ 31 := lt_of_le_of_lt h (by decide)
    rw [wres_true, BitVec.ofInt_natCast]
    have hmsb : (BitVec.ofNat 32 n).msb = false := by
      rw [BitVec.msb_eq_false_iff_two_mul_lt, BitVec.toNat_ofNat]
      omega
    rw [BitVec.signExtend_eq_setWidth_of_msb_false hmsb, BitVec.setWidth_ofNat_of_le_of_lt (by decide) (by omega)]

theorem uval_lt (w : Bool) (x : Word) : uval w x < 2 ^ widthOf w := by
  cases w
  · exact x.isLt
  · exact (x.setWidth 32).isLt

/-- A number below 2^w with n leading zeros lies between 2^(w-n-1) and 2^(w-n). -/
theorem clzOf_bounds {w x : Nat} (hx : x < 2 ^ w) :
    clzOf w x ≤ w ∧ x < 2 ^ (w - clzOf w x) ∧ (clzOf w x < w → 2 ^ (w - clzOf w x - 1) ≤ x) := by
  unfold clzOf
  by_cases h0 : x = 0
  · simp [h0]
  · have hlog : Nat.log2 x < w := (Nat.log2_lt h0).mpr hx
    have hw : w - (w - 1 - Nat.log2 x) = Nat.log2 x + 1 := by omega
    rw [if_neg h0, hw]
    exact ⟨by omega, Nat.lt_log2_self, fun _ => Nat.log2_self_le h0⟩

theorem ctzOf_zero (w : Nat) : ctzOf w 0 = w := by
  induction w with
  | zero => rfl
  | succ w ih => rw [ctzOf, if_neg (by decide), Nat.zero_div, ih, Nat.add_comm]

theorem ctzOf_le (w x : Nat) : ctzOf w x ≤ w := by
  induction w generalizing x with
  | zero => exact Nat.le_refl 0
  | succ w ih =>
    have := ih (x / 2)
    rw [ctzOf]
    split <;> omega

/-- The lowest set bit of a number stands where its trailing zeros end. -/
theorem ctzOf_lowest {w x : Nat} (h0 : x ≠ 0) (hx : x < 2 ^ w) : ctzOf w x < w ∧ 2 ^ ctzOf w x ∣ x ∧ x.testBit (ctzOf w x) = true := by
  induction w generalizing x with
  | zero => omega
  | succ w ih =>
    rw [ctzOf]
    split
    next hodd => exact ⟨Nat.succ_pos w, one_dvd x, by rw [Nat.testBit_zero, decide_eq_true hodd]⟩
    next heven =>
      have h2 : x = 2 * (x / 2) := by omega
      obtain ⟨hlt, hdvd, hbit⟩ := @ih (x / 2) (by omega) (by omega)
      refine ⟨by omega, ?_, ?_⟩
      · rw [Nat.add_comm, Nat.pow_succ, Nat.mul_comm]
        exact (Nat.mul_dvd_mul_left 2 hdvd).trans (dvd_of_eq h2.symm)
      · rw [Nat.add_comm, Nat.testBit_add_one, hbit]

theorem popOf_eq_countP (w x : Nat) : popOf w x = (List.range w).countP fun i => x.testBit i := by
  induction w generalizing x with
  | zero => rfl
  | succ w ih =>
    have hsucc : ((fun i => x.testBit i) ∘ Nat.succ) = fun i => (x / 2).testBit i := funext fun i => Nat.testBit_add_one x i
    rw [popOf, ih, List.range_succ_eq_map, List.countP_cons, List.countP_map, hsucc, Nat.testBit_zero, Nat.add_comm]
    rcases Nat.mod_two_eq_zero_or_one x with h | h <;> simp [h]

theorem revOf_lt (w x : Nat) : revOf w x < 2 ^ w := by
  induction w generalizing x with
  | zero => exact Nat.one_pos
  | succ w ih =>
    have := ih (x / 2)
    rw [revOf, Nat.pow_succ]
    rcases Nat.mod_two_eq_zero_or_one x with h | h <;> rw [h] <;> omega

theorem testBit_revOf {w x i : Nat} (hi : i < w) : (revOf w x).testBit i = x.testBit (w - 1 - i) := by
  induction w generalizing x i with
  | zero => omega
  | succ w ih =>
    rw [revOf, Nat.mul_comm, Nat.testBit_two_pow_mul_add _ (revOf_lt w _)]
    split
    next h =>
      have : w + 1 - 1 - i = w - 1 - i + 1 := by omega
      rw [ih h, this, Nat.testBit_add_one]
    next h =>
      have : i = w := by omega
      subst this
      simp [Nat.testBit_zero]

/-- Settles O4: a field bit by bit, a count by recursion on the width. -/
theorem bitResult : Obligations.BitResult := by
  refine ⟨fun s d a pos width sx hne hle => ?_, fun s d a w => ?_⟩
  · have hw : 0 < width.toNat := Nat.pos_of_ne_zero fun h => hne (BitVec.eq_of_toNat_eq h)
    exact ⟨⟨_, scalarResult_writes .., fun i hi => getLsbD_bextOf _ sx hw hle hi⟩, ⟨_, scalarResult_writes .., fun i hi => getLsbD_binsOf _ _ hi⟩⟩
  · intro x
    have hx : x < 2 ^ widthOf w := uval_lt w _
    obtain ⟨hclz, hhi, hlo⟩ := clzOf_bounds hx
    refine ⟨⟨clzOf (widthOf w) x, scalarWrite_of_eq (wres_natCast w hclz), hclz, hhi, hlo⟩,
      ⟨ctzOf (widthOf w) x, scalarWrite_of_eq (wres_natCast w (ctzOf_le ..)), fun h0 => by rw [h0, ctzOf_zero], fun h0 => ctzOf_lowest h0 hx⟩, ?_,
      ⟨revOf (widthOf w) x, scalarResult_writes .., revOf_lt .., fun i hi => testBit_revOf hi⟩⟩
    rw [← popOf_eq_countP]
    refine scalarWrite_of_eq (wres_natCast w ?_)
    rw [popOf_eq_countP]
    exact List.countP_le_length.trans_eq List.length_range

/-! ## Compares, predicates, moves and addresses (R45, R52-R57) -/

theorem condHolds_iff {n : Nat} (c : Cond) (x y : BitVec n) : condHolds c x y = true ↔ CondTrue c x y := by
  cases c with
  | eq => exact beq_iff_eq
  | ne => exact bne_iff_ne
  | lt | gt => exact BitVec.slt_iff_toInt_lt
  | le | ge => exact BitVec.sle_iff_toInt_le
  | ltu | gtu => exact BitVec.ult_iff_toNat_lt
  | leu | geu => exact BitVec.ule_iff_toNat_le

theorem compare_writes {n : Nat} (s : State) (p : PReg) (c : Cond) (x y : BitVec n) :
    ∃ v : Bool, PredWrite s (predResult s p (condHolds c x y)) p v ∧ (v = true ↔ CondTrue c x y) :=
  ⟨_, predResult_writes .., condHolds_iff c x y⟩

theorem val_lt_seven {i : PReg} (h : i ≠ 7) : i.val < 7 := by
  have : i.val ≠ 7 := fun e => h (Fin.ext e)
  omega

theorem getLsbD_preds (t : Strand) (i : PReg) : t.preds.getLsbD i.val = t.getP i := by
  rw [Strand.preds, BitVec.getLsbD_setWidth, BitVec.getLsbD_append, Strand.getP]
  by_cases h7 : i = 7
  · subst h7; rfl
  · have h64 : i.val < 64 := i.isLt.trans (by decide)
    simp [h7, val_lt_seven h7, h64]

theorem preds_lt (t : Strand) : t.preds.toNat < 256 := by
  rw [Strand.preds, BitVec.toNat_setWidth]
  exact (Nat.mod_le _ _).trans_lt (1#1 ++ t.p).isLt

/-- The predicates after PPUT (R53): those the mask names come from the register's bits. -/
def Strand.putPreds (t : Strand) (v : Word) (mask : BitVec 7) : Strand :=
  { t with p := (t.p &&& ~~~mask) ||| (v.setWidth 7 &&& mask) }

theorem getP_putPreds (t : Strand) (v : Word) (mask : BitVec 7) (i : PReg) :
    (t.putPreds v mask).getP i = if i ≠ 7 ∧ mask.getLsbD i.val then v.getLsbD i.val else t.getP i := by
  by_cases h7 : i = 7
  · simp [h7, Strand.getP]
  · have hlt := val_lt_seven h7
    cases hm : mask.getLsbD i.val <;>
      simp only [Strand.putPreds, Strand.getP, h7, hm, hlt, BitVec.getLsbD_or, BitVec.getLsbD_and, BitVec.getLsbD_not,
        BitVec.getLsbD_setWidth] <;> simp [h7]

theorem retire_putPreds (t : Strand) (v : Word) (mask : BitVec 7) (n : Nat) :
    (t.putPreds v mask).retire n = { t.retire n with p := (t.putPreds v mask).p } := by
  rw [retire_of t (t.putPreds v mask) n (by simp [Strand.putPreds]), retire_eq t n]
  rfl

theorem pput_writes (s : State) (r : SReg) (mask : BitVec 7) :
    ∃ t, exec (.pput r mask) s = .next t ∧ OnlyStrand s t ∧ t.st = { s.st.retire 1 with p := t.st.p }
      ∧ ∀ i : PReg, t.getP i = if i ≠ 7 ∧ mask.getLsbD i.val then (s.getS r).getLsbD i.val else s.getP i := by
  have hst : (s.modSt fun t => (t.putPreds (s.getS r) mask).retire 1).st = { s.st.retire 1 with p := (s.st.putPreds (s.getS r) mask).p } := by
    rw [st_modSt, retire_putPreds]
  refine ⟨s.modSt fun t => (t.putPreds (s.getS r) mask).retire 1, rfl, onlyStrand_modSt _ _, by rw [hst], fun i => ?_⟩
  rw [State.getP, hst]
  exact getP_putPreds s.st _ mask i

/-- Settles O5: every compare writes what `condHolds` says of its operands; PGET and PPUT predicate by predicate. -/
theorem predicateLogicResult : Obligations.PredicateLogicResult := by
  refine ⟨fun s p a b ra rb imm imm32 c => ?_, fun s d a b r ia ib mask => ?_⟩
  · exact ⟨compare_writes .., compare_writes .., compare_writes .., compare_writes .., compare_writes ..⟩
  · exact ⟨predResult_writes .., predResult_writes .., predResult_writes ..,
      ⟨_, scalarResult_writes .., getLsbD_preds s.st, preds_lt s.st⟩, pput_writes s r mask⟩

/-! ### Moves and immediates (R45, R54) -/

theorem addrWrite_of_eq {s : State} {d : AReg} {v v' : Word} (h : v = v') : AddrWrite s (addrResult s d v) d v' :=
  h ▸ addrResult_writes s d v

theorem nop_completes (s : State) : ∃ t, exec .nop s = .next t ∧ OnlyStrand s t ∧ t.st = s.st.retire 1 :=
  ⟨s.retire, rfl, onlyStrand_modSt _ _, st_modSt _ _⟩

/-! ### Literal pairs (R55) -/

theorem extractLsb'_low (l : Word128) : l.extractLsb' 0 64 = l.setWidth 64 := by
  apply BitVec.eq_of_toNat_eq
  simp
theorem extractLsb'_high (l : Word128) : l.extractLsb' 64 64 = (l >>> 64).setWidth 64 := by
  apply BitVec.eq_of_toNat_eq
  simp

theorem pair_ne : ∀ d : SReg, d.val % 2 = 0 → d + 1 ≠ d ∧ d + 1 ≠ 0 := by decide
theorem addrPair_ne : ∀ d : AReg, d + 1 ≠ d := by decide

theorem retire_setS2 (t : Strand) (d : SReg) (l : Word128) (n : Nat) : (t.setS2 d l).retire n = { t.retire n with s := (t.setS2 d l).s } := by
  rw [Strand.setS2, retire_setS, retire_setS]
theorem retire_setA2 (t : Strand) (d : AReg) (l : Word128) (n : Nat) : (t.setA2 d l).retire n = { t.retire n with a := (t.setA2 d l).a } := by
  rw [Strand.setA2, retire_setA, retire_setA]

theorem lit_writes (s : State) {d : SReg} (l : Word128) (hd : d.val % 2 = 0) :
    ∃ t, exec (.lit d l) s = .next t ∧ OnlyStrand s t ∧ t.st = { s.st.retire 2 with s := t.st.s }
      ∧ t.getS d = (if d = 0 then 0 else l.setWidth 64) ∧ t.getS (d + 1) = (l >>> 64).setWidth 64
      ∧ ∀ r, r ≠ d → r ≠ d + 1 → t.getS r = s.getS r := by
  obtain ⟨hne, h0⟩ := pair_ne d hd
  have hst : (s.modSt fun t => (t.setS2 d l).retire 2).st = { s.st.retire 2 with s := (s.st.setS2 d l).s } := by rw [st_modSt, retire_setS2]
  have hget : ∀ r, (s.modSt fun t => (t.setS2 d l).retire 2).getS r = (s.st.setS2 d l).getS r := fun r => by rw [State.getS, hst]; rfl
  refine ⟨s.modSt fun t => (t.setS2 d l).retire 2, rfl, onlyStrand_modSt _ _, by rw [hst], ?_, ?_, fun r hr hr' => ?_⟩ <;>
    rw [hget, Strand.setS2, getS_setS, getS_setS]
  · rw [if_neg hne.symm, if_pos rfl, extractLsb'_low]
  · rw [if_pos rfl, if_neg h0, extractLsb'_high]
  · rw [if_neg hr', if_neg hr]; rfl

theorem lita_writes (s : State) (d : AReg) (l : Word128) :
    ∃ t, exec (.lita d l) s = .next t ∧ OnlyStrand s t ∧ t.st = { s.st.retire 2 with a := t.st.a }
      ∧ t.getA d = l.setWidth 64 ∧ t.getA (d + 1) = (l >>> 64).setWidth 64 ∧ ∀ r, r ≠ d → r ≠ d + 1 → t.getA r = s.getA r := by
  have hne := addrPair_ne d
  have hst : (s.modSt fun t => (t.setA2 d l).retire 2).st = { s.st.retire 2 with a := (s.st.setA2 d l).a } := by rw [st_modSt, retire_setA2]
  have hget : ∀ r, (s.modSt fun t => (t.setA2 d l).retire 2).getA r = (s.st.setA2 d l).getA r := fun r => by rw [State.getA, hst]; rfl
  refine ⟨s.modSt fun t => (t.setA2 d l).retire 2, rfl, onlyStrand_modSt _ _, by rw [hst], ?_, ?_, fun r hr hr' => ?_⟩ <;>
    rw [hget, Strand.setA2, getA_setA, getA_setA]
  · rw [if_neg hne.symm, if_pos rfl, extractLsb'_low]
  · rw [if_pos rfl, extractLsb'_high]
  · rw [if_neg hr', if_neg hr]; rfl

/-! ### Low and high bits of an address (R57) -/

theorem toNat_and_lowOnes (a : Word) {k : Nat} (hk : k ≤ 64) : (a &&& lowOnes k).toNat = a.toNat % 2 ^ k := by
  have hlt : 2 ^ k - 1 < 2 ^ 64 := by
    have := Nat.pow_le_pow_right (show 0 < 2 by decide) hk
    have := Nat.two_pow_pos k
    omega
  rw [BitVec.toNat_and, lowOnes, BitVec.toNat_ofNat, Nat.mod_eq_of_lt hlt, Nat.and_two_pow_sub_one_eq_mod]

theorem toNat_and_not_lowOnes (a : Word) (k : Nat) : (a &&& ~~~lowOnes k).toNat = a.toNat / 2 ^ k * 2 ^ k := by
  have hshift : a &&& ~~~lowOnes k = (a >>> k) <<< k := by
    apply BitVec.eq_of_getLsbD_eq
    intro i hi
    rw [BitVec.getLsbD_and, BitVec.getLsbD_not, getLsbD_lowOnes, BitVec.getLsbD_shiftLeft, BitVec.getLsbD_ushiftRight]
    rcases Nat.lt_or_ge i k with h | h
    · simp [hi, h]
    · simp [hi, Nat.not_lt.mpr h, Nat.add_sub_cancel' h]
  have hle : a.toNat / 2 ^ k * 2 ^ k < 2 ^ 64 := (Nat.div_mul_le_self ..).trans_lt a.isLt
  rw [hshift, BitVec.toNat_shiftLeft, BitVec.toNat_ushiftRight, Nat.shiftLeft_eq, Nat.shiftRight_eq_div_pow, Nat.mod_eq_of_lt hle]

/-- Within 2^k an address moves by the signed step (R57). -/
theorem toNat_add_signExtend_emod (a : Word) (stp : BitVec 32) {k : Nat} (hk : k ≤ 64) :
    (((a + stp.signExtend 64).toNat % 2 ^ k : Nat) : Int) = ((a.toNat % 2 ^ k : Nat) + stp.toInt) % 2 ^ k := by
  have hdvd : (2 : Int) ^ k ∣ 2 ^ 64 := pow_dvd_pow 2 hk
  have hstep : ((stp.signExtend 64).toNat : Int) = stp.toInt % 2 ^ 64 := by
    rw [← toInt_emod, BitVec.toInt_signExtend_of_le (by decide)]
  have hsum : ((a + stp.signExtend 64).toNat : Int) = (a.toNat + stp.toInt) % 2 ^ 64 := by
    rw [BitVec.toNat_add, Int.natCast_emod, Nat.cast_add, hstep]
    exact Int.add_emod_emod ..
  push_cast
  rw [hsum, Int.emod_emod_of_dvd _ hdvd, Int.emod_add_emod]

theorem eq_ofNat_of_toNat {a : Word} {n : Nat} (h : a.toNat = n) : a = BitVec.ofNat 64 n := by
  rw [← h, BitVec.ofNat_toNat, BitVec.setWidth_eq]

theorem awrapOf_eq (a : Word) (stp : BitVec 32) (k : Fin 64) :
    awrapOf a stp k.val = BitVec.ofInt 64 ((a.toNat / 2 ^ k.val * 2 ^ k.val : Nat) + ((a.toNat % 2 ^ k.val : Nat) + stp.toInt) % 2 ^ k.val) := by
  have hk : k.val ≤ 64 := k.isLt.le
  have hlow := Nat.mod_lt (a + stp.signExtend 64).toNat (Nat.two_pow_pos k.val)
  rw [← toNat_add_signExtend_emod a stp hk, ← Nat.cast_add, BitVec.ofInt_natCast]
  refine eq_ofNat_of_toNat ?_
  rw [awrapOf, BitVec.toNat_or, toNat_and_not_lowOnes, toNat_and_lowOnes _ hk, Nat.mul_comm, Nat.two_pow_add_eq_or_of_lt hlow]

theorem abndOf_window (a b : Word) (stp : BitVec 32) {len : BitVec 32} (h : len ≠ 0) :
    ∃ v : Int, abndOf a b stp len = BitVec.ofInt 64 v ∧ (b.toNat : Int) - len.toNat ≤ v ∧ v < b.toNat
      ∧ (len.toNat : Int) ∣ (a.toNat : Int) + stp.toInt - v := by
  have hpos : (0 : Int) < len.toNat := by exact_mod_cast Nat.pos_of_ne_zero fun e => h (BitVec.eq_of_toNat_eq e)
  obtain ⟨x, hx⟩ : ∃ x : Int, x = (a.toNat : Int) - ((b.toNat : Int) - len.toNat) + stp.toInt := ⟨_, rfl⟩
  have hlo := Int.emod_nonneg x hpos.ne'
  have hhi := Int.emod_lt_of_pos x hpos
  refine ⟨(b.toNat : Int) - len.toNat + x % len.toNat, by rw [hx]; rfl, by omega, by omega, x / len.toNat, ?_⟩
  have := Int.mul_ediv_add_emod x len.toNat
  omega

theorem aalignOf_down (a : Word) (k : Nat) : aalignOf a k false = BitVec.ofNat 64 (a.toNat / 2 ^ k * 2 ^ k) :=
  eq_ofNat_of_toNat (toNat_and_not_lowOnes a k)
theorem aalignOf_up (a : Word) (k : Fin 64) :
    aalignOf a k.val true = BitVec.ofNat 64 ((a.toNat + (2 ^ k.val - 1)) % 2 ^ 64 / 2 ^ k.val * 2 ^ k.val) := by
  have hsum : (a + lowOnes k.val).toNat = (a.toNat + (2 ^ k.val - 1)) % 2 ^ 64 := by
    rw [BitVec.toNat_add, lowOnes, BitVec.toNat_ofNat, Nat.add_mod_mod]
  rw [← hsum, ← aalignOf_down]
  rfl

theorem shiftLeft_eq_mul_pow (x : Word) (n : Nat) : x <<< n = x * 2 ^ n := by
  apply BitVec.eq_of_toNat_eq
  rw [BitVec.toNat_shiftLeft, BitVec.toNat_mul, BitVec.toNat_pow, Nat.shiftLeft_eq]
  simp

/-- Settles O6: each result as the shared writes leave it, the address arithmetic on `toNat`. -/
theorem moveAddressResult : Obligations.MoveAddressResult := by
  refine ⟨fun s d a b ra p inv imm l => ?_, fun s d rd ra rb b imm sh stp len k => ?_⟩
  · exact ⟨nop_completes s, scalarResult_writes .., addrResult_writes .., scalarResult_writes .., scalarResult_writes .., addrResult_writes ..,
      addrResult_writes .., lit_writes s l, fun _ => lita_writes s ra l⟩
  · intro A
    refine ⟨addrResult_writes .., addrResult_writes .., scalarResult_writes .., addrWrite_of_eq ?_, addrWrite_of_eq (awrapOf_eq ..), fun h => ?_,
      addrWrite_of_eq (aalignOf_down ..), addrWrite_of_eq (aalignOf_up ..)⟩
    · rw [shiftLeft_eq_mul_pow]
    · obtain ⟨v, hv, hlo, hhi, hdvd⟩ := abndOf_window (s.getA ra) (s.getA rb) stp h
      exact ⟨v, addrWrite_of_eq hv, hlo, hhi, hdvd⟩

/-! ## Branches, calls and returns (R58, R59) -/

theorem aligned16_iff (a : Word) : aligned16 a = true ↔ a.toNat % 16 = 0 := by
  rw [aligned16, decide_eq_true_iff, ← BitVec.toNat_inj]
  simp

theorem call_writes (s : State) (d : AReg) (target : Word) :
    ∃ t, (.next (s.modSt fun t => (t.setA d (t.pc + 16)).jump target) : Out) = .next t ∧ OnlyStrand s t
      ∧ t.st = { s.st with a := t.st.a, pc := target, forced := none } ∧ WritesA s.st t.st d (s.st.pc + 16) := by
  refine ⟨_, rfl, onlyStrand_modSt _ _, ?_, writesA_set _ _ _ _ ?_⟩ <;> rw [st_modSt] <;> rfl

/-- Control goes to a register target where it is aligned; else PC_ALIGN is raised (R59). -/
def toRegister (s : State) (a : AReg) (o : Out) : Out := if aligned16 (s.getA a) then o else .next s.pcAlign

theorem toRegister_aligned {s : State} {a : AReg} (o : Out) (h : (s.getA a).toNat % 16 = 0) : toRegister s a o = o :=
  if_pos ((aligned16_iff _).mpr h)

theorem toRegister_traps {s : State} {a : AReg} (o : Out) (h : (s.getA a).toNat % 16 ≠ 0) : TakesTrap s (toRegister s a o) 0x05 0 0 := by
  rw [toRegister, if_neg (mt (aligned16_iff _).mp h)]
  exact trap_takes s _ _ _

/-- Settles O7: a displacement is taken at once, a register target by its alignment. -/
theorem branchResult : Obligations.BranchResult := by
  intro s d a disp calls
  have hbrr : exec (.brr a) s = toRegister s a (.next (s.jump (s.getA a))) := rfl
  have hret : exec (.ret a) s = toRegister s a (.next (s.jump (s.getA a))) := rfl
  have hcallr : exec (.callr d a) s = toRegister s a (.next (s.modSt fun t => (t.setA d (t.pc + 16)).jump (s.getA a))) := rfl
  refine ⟨jump_jumps .., call_writes .., fun h => ?_, fun h => ?_⟩ <;> rw [hbrr, hret, hcallr]
  · rw [toRegister_aligned _ h, toRegister_aligned _ h]
    exact ⟨jump_jumps .., jump_jumps .., call_writes ..⟩
  · exact ⟨toRegister_traps _ h, toRegister_traps _ h, toRegister_traps _ h⟩

end Sys2Proof.Machine

namespace Sys2Proof.Machine

/-! ## The repeat rule (R23, R61) -/

/-- Loop `j` is active and ends at one of the `n` words at `pc`. -/
def Strand.endsAt (t : Strand) (pc : Word) (n : Nat) (j : LReg) : Prop :=
  t.lc[j] ≠ 0 ∧ ∃ k < n, t.loopEnd[j] = pc + BitVec.ofNat 64 (16 * k)

theorem covers_iff (pc : Word) (n : Nat) (a : Word) : covers pc n a = true ↔ ∃ k < n, a = pc + BitVec.ofNat 64 (16 * k) := by
  simp [covers]

theorem endsAt_iff (t : Strand) (pc : Word) (n : Nat) (j : LReg) : (t.lc[j] ≠ 0 ∧ covers pc n t.loopEnd[j] = true) ↔ t.endsAt pc n j := by
  rw [covers_iff]; rfl

theorem loopScan_cons_away {t : Strand} {pc next : Word} {n : Nat} {j : LReg} {l : List LReg} (h : ¬ t.endsAt pc n j) :
    loopScan t pc n next (j :: l) = loopScan t pc n next l := by
  rw [loopScan, if_neg (mt (endsAt_iff ..).mp h)]
theorem loopScan_cons_last {t : Strand} {pc next : Word} {n : Nat} {j : LReg} {l : List LReg} (h : t.endsAt pc n j) (h1 : t.lc[j] = 1) :
    loopScan t pc n next (j :: l) = loopScan (t.setL j 0) pc n next l := by
  rw [loopScan, if_pos ((endsAt_iff ..).mpr h), if_neg (by rw [h1]; decide)]
  rfl
theorem loopScan_cons_repeat {t : Strand} {pc next : Word} {n : Nat} {j : LReg} {l : List LReg} (h : t.endsAt pc n j) (h1 : t.lc[j] > 1) :
    loopScan t pc n next (j :: l) = (t.setL j (t.lc[j] - 1), t.loopStart[j]) := by
  rw [loopScan, if_pos ((endsAt_iff ..).mpr h), if_pos h1]
  rfl

theorem lc_setL (t : Strand) (j k : LReg) (v : BitVec 32) : (t.setL j v).lc[k] = if k = j then v else t.lc[k] := getL_setL t j k v

/-- A scan past loops that end here with one turn left each goes on without them. -/
theorem loopScan_past (t : Strand) (pc next : Word) (n : Nat) (l r : List LReg) (h1 : ∀ j ∈ l, t.endsAt pc n j → t.lc[j] = 1) :
    ∃ u : Strand, loopScan t pc n next (l ++ r) = loopScan u pc n next r ∧ u.loopEnd = t.loopEnd ∧ u.loopStart = t.loopStart
      ∧ ∀ k : LReg, (k ∈ l ∧ t.endsAt pc n k → u.lc[k] = 0) ∧ (¬ (k ∈ l ∧ t.endsAt pc n k) → u.lc[k] = t.lc[k]) := by
  induction l generalizing t with
  | nil => exact ⟨t, rfl, rfl, rfl, fun k => ⟨fun h => absurd h.1 List.not_mem_nil, fun _ => rfl⟩⟩
  | cons j l ih =>
    by_cases hj : t.endsAt pc n j
    · have hother : ∀ k : LReg, k ≠ j → ((t.setL j 0).endsAt pc n k ↔ t.endsAt pc n k) := fun k hk => by
        unfold Strand.endsAt
        rw [lc_setL, if_neg hk]
        rfl
      have hself : ¬ (t.setL j 0).endsAt pc n j := fun h => h.1 (by rw [lc_setL, if_pos rfl])
      obtain ⟨u, hu, he, hs, hlc⟩ := ih (t.setL j 0) fun k hk hend => by
        have hne : k ≠ j := fun e => hself (e ▸ hend)
        rw [lc_setL, if_neg hne]
        exact h1 k (List.mem_cons_of_mem _ hk) ((hother k hne).mp hend)
      refine ⟨u, (loopScan_cons_last hj (h1 j List.mem_cons_self hj)).trans hu, he, hs, fun k => ?_⟩
      obtain ⟨hin, hout⟩ := hlc k
      by_cases hk : k = j
      · subst hk
        refine ⟨fun _ => ?_, fun h => absurd ⟨List.mem_cons_self, hj⟩ h⟩
        rw [hout fun h => hself h.2, lc_setL, if_pos rfl]
      · rw [hother k hk] at hin hout
        rw [lc_setL, if_neg hk] at hout
        simpa [hk] using And.intro hin hout
    · obtain ⟨u, hu, he, hs, hlc⟩ := ih t fun k hk => h1 k (List.mem_cons_of_mem _ hk)
      refine ⟨u, (loopScan_cons_away hj).trans hu, he, hs, fun k => ?_⟩
      have hiff : (k ∈ j :: l ∧ t.endsAt pc n k) ↔ (k ∈ l ∧ t.endsAt pc n k) :=
        and_congr_left fun hk => by simp [show k ≠ j from fun e => hj (e ▸ hk)]
      rw [hiff]
      exact hlc k

theorem mem_loopOrder (t : Strand) (j : LReg) : j ∈ loopOrder t := by
  rw [loopOrder, List.mem_insertionSort]
  fin_cases j <;> decide

theorem nodup_loopOrder (t : Strand) : (loopOrder t).Nodup :=
  ((List.perm_insertionSort _ _).nodup_iff).mpr (by decide)

theorem loopOrder_sorted (t : Strand) : (loopOrder t).Pairwise fun i j => t.loopAge[j] ≤ t.loopAge[i] := by
  have : Std.Total fun i j : LReg => t.loopAge[j] ≤ t.loopAge[i] := ⟨fun i j => le_total _ _⟩
  have : IsTrans LReg fun i j => t.loopAge[j] ≤ t.loopAge[i] := ⟨fun _ _ _ hab hbc => hbc.trans hab⟩
  exact List.pairwise_insertionSort _ _

/-- The loops before a loop in the order of ages are those that started later; of two of one age either may come first. -/
theorem loopOrder_split (t : Strand) (j : LReg) :
    ∃ l r, loopOrder t = l ++ j :: r ∧ j ∉ l ∧ (∀ k ∈ l, t.loopAge[j] ≤ t.loopAge[k]) ∧ ∀ k, t.loopAge[j] < t.loopAge[k] → k ∈ l := by
  obtain ⟨l, r, hlr⟩ := List.append_of_mem (mem_loopOrder t j)
  have hs := loopOrder_sorted t
  have hn := nodup_loopOrder t
  rw [hlr, List.pairwise_append, List.pairwise_cons] at hs
  rw [hlr, List.nodup_append] at hn
  obtain ⟨-, ⟨hr, -⟩, hl⟩ := hs
  refine ⟨l, r, hlr, fun h => hn.2.2 j h j List.mem_cons_self rfl, fun k hk => hl k hk j List.mem_cons_self, fun k hk => ?_⟩
  have hmem : k ∈ l ++ j :: r := hlr ▸ mem_loopOrder t k
  rcases List.mem_append.mp hmem with h | h
  · exact h
  · rcases List.mem_cons.mp h with rfl | h
    · exact absurd hk (lt_irrefl _)
    · exact absurd hk (not_lt.mpr (hr k h))

theorem retire_no_repeat (t : Strand) (n : Nat) (h : ∀ j, t.endsAt t.pc n j → t.lc[j] = 1) :
    (t.retire n).pc = t.pc + BitVec.ofNat 64 (16 * n)
    ∧ ∀ j : LReg, (t.endsAt t.pc n j → (t.retire n).lc[j] = 0) ∧ (¬ t.endsAt t.pc n j → (t.retire n).lc[j] = t.lc[j]) := by
  obtain ⟨u, hu, -, -, hlc⟩ := loopScan_past t t.pc (t.pc + BitVec.ofNat 64 (16 * n)) n (loopOrder t) [] fun j _ => h j
  rw [List.append_nil] at hu
  have hret : t.retire n = { u with pc := t.pc + BitVec.ofNat 64 (16 * n), forced := none } := by
    rw [Strand.retire, hu]
    rfl
  rw [hret]
  exact ⟨rfl, fun j => by simpa [mem_loopOrder] using hlc j⟩

theorem retire_repeat (t : Strand) (n : Nat) (j : LReg) (hj : t.endsAt t.pc n j) (hlc : t.lc[j] > 1)
    (hy : ∀ k, k ≠ j → t.endsAt t.pc n k → t.loopAge[k] ≠ t.loopAge[j] ∧ (t.loopAge[k] > t.loopAge[j] → t.lc[k] = 1)) :
    (t.retire n).pc = t.loopStart[j] ∧ (t.retire n).lc[j] = t.lc[j] - 1
    ∧ ∀ k : LReg, k ≠ j → (t.endsAt t.pc n k ∧ t.loopAge[k] > t.loopAge[j] → (t.retire n).lc[k] = 0)
        ∧ (¬ (t.endsAt t.pc n k ∧ t.loopAge[k] > t.loopAge[j]) → (t.retire n).lc[k] = t.lc[k]) := by
  obtain ⟨l, r, hlr, hjl, hle, hlt⟩ := loopOrder_split t j
  have hiff : ∀ k : LReg, k ≠ j → (k ∈ l ∧ t.endsAt t.pc n k ↔ t.endsAt t.pc n k ∧ t.loopAge[k] > t.loopAge[j]) := fun k hk =>
    ⟨fun ⟨hm, he⟩ => ⟨he, lt_of_le_of_ne (hle k hm) (hy k hk he).1.symm⟩, fun ⟨he, ha⟩ => ⟨hlt k ha, he⟩⟩
  obtain ⟨u, hu, he, hs, hl⟩ := loopScan_past t t.pc (t.pc + BitVec.ofNat 64 (16 * n)) n l (j :: r) fun k hk hend => by
    have hne : k ≠ j := fun e => hjl (e ▸ hk)
    exact (hy k hne hend).2 ((hiff k hne).mp ⟨hk, hend⟩).2
  have huj : u.lc[j] = t.lc[j] := (hl j).2 fun h => hjl h.1
  have hend : u.endsAt t.pc n j := by
    unfold Strand.endsAt
    rw [huj, he]
    exact hj
  have hret : t.retire n = { u.setL j (t.lc[j] - 1) with pc := t.loopStart[j], forced := none } := by
    rw [Strand.retire, hlr, hu, loopScan_cons_repeat hend (by rw [huj]; exact hlc), huj, hs]
  rw [hret]
  refine ⟨rfl, by rw [lc_setL, if_pos rfl], fun k hk => ?_⟩
  rw [lc_setL, if_neg hk, ← hiff k hk]
  exact hl k

/-! ## Loop starts and counters (R44, R60, R62) -/

theorem trapAt_takes (s : State) (code info : Nat) (ret addr : Word) (force out : Bool) :
    TakesTrapWith s (.next (s.trapAt s.focus code info ret addr force out))
      { cause := causeWord 0 info code, ret := ret, addr := addr, force := force, out := out } := by
  intro h
  have hlevel : (s.strandAt s.focus).level ≠ 2 := h
  have he : s.trapAt s.focus code info ret addr force out =
      s.modSt (·.enter { cause := causeWord 0 info code, ret := ret, addr := addr, force := force, out := out }) := by
    simp only [State.trapAt, hlevel, if_false]; rfl
  refine ⟨_, rfl, he ▸ onlyStrand_modSt _ _, ?_⟩
  rw [he, st_modSt, Strand.enter]
  by_cases h0 : s.st.level = 0
  · simp [h0]
  · have h1 : s.st.level = 1 := by omega
    simp [h1]

theorem noteError_ordinary (s : State) (o : Nat) {e : MemErr} (key : Nat) (hu : e ≠ .memUe) (hi : e ≠ .memIntegrity) : noteError s o e key = s := by
  cases e with
  | memUe => exact absurd rfl hu
  | memIntegrity => exact absurd rfl hi
  | _ => rfl

/-- Only an error of storage is counted. The translation is made a variable first, as in `State.memOk.countError`. -/
theorem countError_ordinary (s : State) (ag : Agent) {e : MemErr} (va : Word) (hu : e ≠ .memUe) (hi : e ≠ .memIntegrity) :
    countError s ag e va = s := by
  unfold countError
  obtain ⟨xl, hxl⟩ : ∃ xl, xl = s.xlateAt := ⟨_, rfl⟩
  rw [← hxl]
  split
  · split
    · rw [noteError_ordinary _ _ _ hu hi, if_neg (by simp [hu])]
    · rfl
  · rfl

theorem passOver_next {s : State} {pc p : Word} (f : Strand → Strand) (h : s.successor pc = .ok p) :
    s.passOver pc f = s.modSt fun t => (f t).jump p := by
  rw [State.passOver, h]

theorem passOver_fault {s : State} {pc : Word} {e : MemErr} {code info : Nat} (f : Strand → Strand) (h : s.successor pc = .error e)
    (hc : e.cause true false = some (code, info)) (hu : e ≠ .memUe) (hi : e ≠ .memIntegrity) :
    s.passOver pc f = (s.modSt fun t => (f t).jump pc).trapAt s.focus code info pc pc false false := by
  simp only [State.passOver, h, hc, countError_ordinary s s.agent pc hu hi]

/-- Passing over the instruction at an address: the effect with the pc after it, or the effect and the fault at that address (log 8). -/
theorem passOver_takes (s : State) (pc : Word) (f : Strand → Strand) :
    (∀ p, s.successor pc = .ok p → ∃ t, (.next (s.passOver pc f) : Out) = .next t ∧ OnlyStrand s t ∧ t.st = (f s.st).jump p)
    ∧ ∀ e code info, s.successor pc = .error e → e.cause true false = some (code, info) → e ≠ .memUe → e ≠ .memIntegrity →
        TakesTrapWith (s.modSt fun _ => (f s.st).jump pc) (.next (s.passOver pc f))
          { cause := causeWord 0 info code, ret := pc, addr := pc, force := false, out := false } := by
  refine ⟨fun p h => ?_, fun e code info h hc hu hi => ?_⟩
  · rw [passOver_next f h]
    exact ⟨_, rfl, onlyStrand_modSt _ _, st_modSt _ _⟩
  · rw [passOver_fault f h hc hu hi]
    exact trapAt_takes (s.modSt fun t => (f t).jump pc) code info pc pc false false

/-- The stamp of a new loop is above every other. -/
theorem loopAge_lt_nextAge (t : Strand) (j : LReg) : t.loopAge[j] < t.nextAge := by
  have hfold : ∀ (l : List Nat) (a x : Nat), x ∈ l ∨ x ≤ a → x ≤ l.foldl Nat.max a := fun l => by
    induction l with
    | nil => simp
    | cons b l ih =>
      refine fun a x h => ih _ _ ?_
      rcases h with h | h
      · rcases List.mem_cons.mp h with rfl | h
        · exact .inr (Nat.le_max_right ..)
        · exact .inl h
      · exact .inr (h.trans (Nat.le_max_left ..))
  exact Nat.lt_succ_of_le (hfold _ _ _ (.inl (by simp)))

/-- What LOOP makes of a strand besides the pc (R60). -/
def Strand.startLoop (t : Strand) (d : LReg) (last count : BitVec 32) : Strand :=
  { t with loopStart := t.loopStart.set d (t.pc + 16), loopEnd := t.loopEnd.set d (t.pc + 16 * last.setWidth 64)
           loopAge := t.loopAge.set d t.nextAge, lc := t.lc.set d count }

theorem loopAge_set_nextAge (t : Strand) {d j : LReg} (h : j ≠ d) :
    (t.loopAge.set d t.nextAge)[j] = t.loopAge[j] ∧ t.loopAge[j] < (t.loopAge.set d t.nextAge)[d] := by
  have hne : d.val ≠ j.val := fun e => h (Fin.ext e.symm)
  have hlt := loopAge_lt_nextAge t j
  simp_all

theorem startLoop_eq (s : State) (d : LReg) (last count : BitVec 32) :
    startLoop s d last count = .next (if count = 0 then s.passOver (s.st.pc + 16 * last.setWidth 64) (·.startLoop d last count)
      else s.modSt fun t => (t.startLoop d last count).jump (t.pc + 16)) := rfl

theorem lcset_writes (s : State) (d : LReg) (r : SReg) :
    ∃ t, exec (.lcset d r) s = .next t ∧ OnlyStrand s t
          ∧ (∀ u : Strand, u = { s.st with lc := s.st.lc.set d ((s.getS r).setWidth 32), loopAge := t.st.loopAge } → t.st = u.retire 1)
          ∧ ((s.getS r).setWidth 32 = 0#32 → t.st.loopAge = s.st.loopAge)
          ∧ ((s.getS r).setWidth 32 ≠ 0#32 → ∀ j, j ≠ d → t.st.loopAge[j] = s.st.loopAge[j] ∧ s.st.loopAge[j] < t.st.loopAge[d]) := by
  obtain ⟨ages, hages⟩ : ∃ ages, ages = if (s.getS r).setWidth 32 = 0#32 then s.st.loopAge else s.st.loopAge.set d s.st.nextAge := ⟨_, rfl⟩
  obtain ⟨u, hu⟩ : ∃ u : Strand, u = { s.st with lc := s.st.lc.set d ((s.getS r).setWidth 32), loopAge := ages } := ⟨_, rfl⟩
  have hexec : exec (.lcset d r) s = .next (s.modSt fun _ => u.retire 1) := by rw [hu, hages]; rfl
  have hage : (u.retire 1).loopAge = ages := by rw [retire_eq, hu]
  refine ⟨_, hexec, ⟨by rw [st_modSt], fun _ => rfl⟩, fun v hv => ?_, fun h => ?_, fun h j hj => ?_⟩
  · rw [st_modSt, hage] at hv
    rw [st_modSt, hv, hu]
  · rw [st_modSt, hage, hages, if_pos h]
  · rw [st_modSt, hage, hages, if_neg h]
    exact loopAge_set_nextAge s.st hj

/-- Settles O8: starts and LBREAK by what passing over an instruction does, the repeat rule by the loops that stand before a loop in the order of ages. -/
theorem loopControl : Obligations.LoopControl := by
  refine ⟨fun s d r last count => ?_, fun t n => ?_⟩
  · intro past started starts
    have hpast : ∀ stop (f : Strand → Strand) (u : Strand → Word → Strand → Prop), (∀ p, u s.st p ((f s.st).jump p)) →
        past (.next (s.passOver stop f)) stop u := fun stop f u hu => by
      obtain ⟨hnext, hfault⟩ := passOver_takes s stop f
      refine ⟨fun p hp => ?_, fun e code info he hc h1 h2 => ⟨_, hu stop, hfault e code info he hc h1 h2⟩⟩
      obtain ⟨t, ht, hs, hst⟩ := hnext p hp
      exact ⟨t, ht, hs, hst ▸ hu p⟩
    have hstarted : ∀ n p, started n s.st p ((s.st.startLoop d last n).jump p) := fun n p =>
      ⟨rfl, fun j hj => loopAge_set_nextAge s.st hj⟩
    have hstarts : ∀ n, starts (startLoop s d last n) n := fun n => by
      refine ⟨fun h => ?_, fun h => ?_⟩ <;> rw [startLoop_eq]
      · rw [if_neg h]
        exact ⟨_, rfl, onlyStrand_modSt _ _, st_modSt s _ ▸ hstarted n _⟩
      · rw [if_pos h]
        exact hpast _ _ _ (hstarted n)
    have hbreak : exec (.lbreak d) s = .next (s.passOver s.st.loopEnd[d] fun t => t.setL d 0) := rfl
    exact ⟨hstarts _, hstarts _, scalarResult_writes .., lcset_writes s d r, by
      rw [hbreak]
      exact hpast s.st.loopEnd[d] (fun t => t.setL d 0)
        (fun t pc k => k = { t with lc := t.lc.set d 0, pc := pc, forced := none }) fun _ => rfl⟩
  · intro here next
    refine ⟨retire_eq t n, fun h => ?_, fun j hj hlc hy => ?_⟩
    · obtain ⟨hpc, hl⟩ := retire_no_repeat t n h
      refine ⟨hpc, fun j => ?_⟩
      split
      next hj => exact (hl j).1 hj
      next hj => exact (hl j).2 hj
    · obtain ⟨hpc, hself, hl⟩ := retire_repeat t n j hj hlc hy
      refine ⟨hpc, fun k => ?_⟩
      split
      next hk => rw [hk, hself]
      next hk =>
        split
        next h => exact (hl k hk).1 h
        next h => exact (hl k hk).2 h

/-! ## Stopping, yielding, the strand barrier (R69-R71) -/

theorem onlyCtx_modCx (s : State) (f : Ctx → Ctx) : OnlyCtx s (s.modCx f) := ⟨by rw [cx_modCx]; rfl, fun _ => rfl⟩

theorem strands_modStrand_ne (x : Ctx) {i j : Fin 4} (f : Strand → Strand) (h : j ≠ i) : (x.modStrand i f).strands[j] = x.strands[j] :=
  strands_modStrand_other x i j f h

theorem strands_closeIfStopped (x : Ctx) (i : Fin 4) : (x.closeIfStopped i).strands = x.strands := by
  unfold Ctx.closeIfStopped; split <;> rfl

theorem closeIfStopped_eq (x : Ctx) (i : Fin 4) : x.closeIfStopped i = { x with phase := (x.closeIfStopped i).phase } := by
  unfold Ctx.closeIfStopped; split <;> rfl

/-- While a strand is live the phase stays open (R262). -/
theorem closeIfStopped_of_live {x : Ctx} {i : Fin 4} (j : Fin 4) (h : x.strands[j].live = true) : x.closeIfStopped i = x := by
  have hany : x.strands.any (·.live) = true := Vector.any_eq_true.mpr ⟨j.val, j.isLt, h⟩
  rw [Ctx.closeIfStopped, if_pos hany]

theorem st_modCx (s : State) (f : Ctx → Ctx) : (s.modCx f).st = (f s.cx).strands[strandIx s.focus] := by
  rw [st_eq, cx_modCx]
  rfl

theorem stop_completes (s : State) :
    ∃ t, exec .stop s = .next t ∧ OnlyCtx s t ∧ t.st = { s.st with stopped := true, forced := none }
      ∧ t.cx = { s.cx with strands := t.cx.strands, phase := t.cx.phase } ∧ (∀ j : Fin 4, j ≠ strandIx s.focus → t.cx.strands[j] = s.cx.strands[j])
      ∧ ((∃ j : Fin 4, j ≠ strandIx s.focus ∧ s.cx.strands[j].live = true) → t.cx.phase = s.cx.phase) := by
  obtain ⟨i, hi⟩ : ∃ i, i = strandIx s.focus := ⟨_, rfl⟩
  obtain ⟨x, hx⟩ : ∃ x, x = s.cx.modStrand i fun t => { t with stopped := true, forced := none } := ⟨_, rfl⟩
  have hexec : exec .stop s = .next (s.modCx fun _ => x.closeIfStopped i) := by
    have h : exec .stop s = .next ((s.modSt fun t => { t with stopped := true, forced := none }).modCx (·.closeIfStopped (strandIx s.focus))) := rfl
    rw [h, modSt_eq, modCx_modCx, hx, hi]; rfl
  rw [← hi]
  refine ⟨_, hexec, onlyCtx_modCx _ _, ?_, ?_, fun j hj => ?_, fun ⟨j, hj, hl⟩ => ?_⟩
  · rw [st_modCx, strands_closeIfStopped, hx, hi]
    exact strands_modStrand ..
  · rw [cx_modCx, closeIfStopped_eq, hx]; rfl
  · rw [cx_modCx, strands_closeIfStopped, hx, strands_modStrand_ne _ _ hj]
  · rw [cx_modCx, closeIfStopped_of_live j (by rw [hx, strands_modStrand_ne _ _ hj, hl]), hx]
    rfl

/-- The strand once its arrival is registered (R71). -/
def Strand.arrive (t : Strand) : Strand := if t.sbarArrived then t else { t with sbarArrived := true, sbarCount := t.sbarCount + 1 }

theorem arrive_eq (t : Strand) : t.arrive = { t with sbarArrived := true, sbarCount := if t.sbarArrived then t.sbarCount else t.sbarCount + 1 } := by
  cases h : t.sbarArrived with
  | false => simp only [Strand.arrive, h, Bool.false_eq_true, if_false]
  | true =>
    simp only [Strand.arrive, h, if_true]
    rw [← h]

/-- A named live strand has not arrived as often as strand `i`, which keeps the barrier open (R71). -/
theorem sbarDone_iff (x : Ctx) (i : Fin 4) (mask : BitVec 4) :
    x.sbarDone i mask = true ↔
      ¬ ∃ j : Fin 4, j ≠ i ∧ mask.getLsbD j.val = true ∧ x.strands[j].live = true ∧ x.strands[j].sbarCount < x.strands[i].sbarCount := by
  have hall : ∀ p : Fin 4 → Bool, ([0, 1, 2, 3] : List (Fin 4)).all p = true ↔ ∀ j, p j = true := fun p => by
    simp [Fin.forall_fin_succ]
  rw [Ctx.sbarDone, hall, not_exists]
  refine forall_congr' fun j => ?_
  simp only [Bool.or_eq_true, beq_iff_eq, Bool.not_eq_true', decide_eq_true_iff]
  rw [← Bool.not_eq_true, ← Bool.not_eq_true, ge_iff_le, ← not_lt]
  tauto

theorem sbar_completes (s : State) (mask : BitVec 4) :
    let count := if s.st.sbarArrived then s.st.sbarCount else s.st.sbarCount + 1
    let missing := ∃ j : Fin 4, j ≠ strandIx s.focus ∧ mask.getLsbD j.val = true ∧ s.cx.strands[j].live = true ∧ s.cx.strands[j].sbarCount < count
    ∃ t, exec (.sbar mask) s = .next t ∧ OnlyStrand s t
      ∧ (missing → t.st = { s.st with sbarArrived := true, sbarCount := count, wait := some (.sbar mask) })
      ∧ (¬ missing → t.st = { s.st.retire 1 with sbarArrived := false, sbarCount := count, wait := none }) := by
  intro count missing
  obtain ⟨u, hu⟩ : ∃ u, u = s.modSt Strand.arrive := ⟨_, rfl⟩
  have hexec : exec (.sbar mask) s = if u.cx.sbarDone (strandIx s.focus) mask then
      .next (u.modSt fun t => { t with sbarArrived := false, wait := none }.retire 1) else .next (u.modSt fun t => { t with wait := some (.sbar mask) }) := by
    rw [hu]; rfl
  have hdone : u.cx.sbarDone (strandIx s.focus) mask = true ↔ ¬ missing := by
    rw [sbarDone_iff, hu, cx_modSt]
    refine not_congr (exists_congr fun j => and_congr_right fun hj => ?_)
    have hself : (s.cx.modStrand (strandIx s.focus) Strand.arrive).strands[strandIx s.focus] = s.st.arrive := strands_modStrand ..
    rw [strands_modStrand_ne _ _ hj, hself, arrive_eq]
  rw [hexec, hu]
  split
  next h =>
    refine ⟨_, rfl, ?_, fun hm => absurd hm (hdone.mp (hu ▸ h)), fun _ => ?_⟩
    · rw [modSt_modSt]; exact onlyStrand_modSt _ _
    · rw [st_modSt, st_modSt, arrive_eq, retire_of s.st _ 1 (by simp), retire_eq s.st 1]
  next h =>
    refine ⟨_, rfl, ?_, fun _ => ?_, fun hm => absurd (hdone.mpr hm) (hu ▸ h)⟩
    · rw [modSt_modSt]; exact onlyStrand_modSt _ _
    · rw [st_modSt, st_modSt, arrive_eq]

/-- Settles O9: STOP by the phase it may close, SBAR by the barrier its arrival leaves open or completes. -/
theorem stopYieldSbarResult : Obligations.StopYieldSbarResult := by
  intro s mask
  refine ⟨stop_completes s, ⟨_, rfl, ?_, ?_⟩, sbar_completes s mask⟩
  · rw [State.retire, modSt_modSt]; exact onlyStrand_modSt _ _
  · rw [st_modSt, State.retire, st_modSt]

/-! ## Control registers (R7, R50, R65-R67, R135) -/

theorem atPriv_of_le {s : State} {n : Nat} (t : State) (h : n ≤ s.cx.priv.val) : s.atPriv n t = t := by
  rw [State.atPriv, State.hasPriv, if_pos (decide_eq_true h)]
theorem atPriv_of_lt {s : State} {n : Nat} (t : State) (h : s.cx.priv.val < n) : s.atPriv n t = s.privFault := by
  rw [State.atPriv, State.hasPriv, if_neg (by simpa using h)]

theorem getLsbD_arith (t : Strand) (k : Nat) : t.arith.getLsbD k =
    ((decide (k = 10) && t.satf) || (decide (k = 9) && t.dof) || (decide (k = 8) && t.dzf) || (decide (k = 0) && t.dz)) := by
  have hflag : ∀ (b : Bool) (n : Nat), n < 64 → ((BitVec.ofBool b).setWidth 64 <<< n).getLsbD k = (decide (k = n) && b) := fun b n hn => by
    rw [BitVec.getLsbD_shiftLeft, BitVec.getLsbD_setWidth, BitVec.getLsbD_ofBool]
    by_cases hk : k = n
    · simp [hk, hn]
    · have : k < n ∨ k - n ≠ 0 := by omega
      rcases this with h | h <;> simp [hk, h]
  have hdz : ((BitVec.ofBool t.dz).setWidth 64).getLsbD k = (decide (k = 0) && t.dz) := by
    rw [← hflag t.dz 0 (by decide), BitVec.shiftLeft_zero]
  rw [Strand.arith, BitVec.getLsbD_or, BitVec.getLsbD_or, BitVec.getLsbD_or, hflag _ 10 (by decide), hflag _ 9 (by decide), hflag _ 8 (by decide), hdz]

section
variable {s : State} {n : BitVec 16} {r : CReg} (d : SReg) (h : CReg.ofNum n = some r)
include h

theorem crr_eq : exec (.crr d n) s = .next (s.atPriv (r.level false)
    (if crReadOk s r then s.modSt fun t => (t.setS d (crRead s r)).retire 1 else s.privFault)) := by
  have hr : crOf n = r := by rw [crOf, h]; rfl
  rw [← hr]
  rfl

theorem crr_below (hp : s.cx.priv.val < r.level false) : TakesTrap s (exec (.crr d n) s) 0x02 0 0 := by
  rw [crr_eq d h, atPriv_of_lt _ hp]
  exact trap_takes s _ _ _
theorem crr_reads (hp : r.level false ≤ s.cx.priv.val) (hok : crReadOk s r = true) : ScalarWrite s (exec (.crr d n) s) d (crRead s r) := by
  rw [crr_eq d h, atPriv_of_le _ hp, if_pos hok]
  exact scalarResult_writes ..
theorem crr_refused (hp : r.level false ≤ s.cx.priv.val) (hok : crReadOk s r = false) : TakesTrap s (exec (.crr d n) s) 0x02 0 0 := by
  rw [crr_eq d h, atPriv_of_le _ hp, if_neg (by simp [hok])]
  exact trap_takes s _ _ _
end

/-- A write of a register that needs no privilege: its fields, then the next word. -/
theorem crw_any (s : State) {n : BitVec 16} {r : CReg} (a : SReg) (hn : crOf n = r) (h : r.level true = 0) :
    exec (.crw a n) s = .next (crWrite s r (s.getS a) State.retire) := by
  have hexec : exec (.crw a n) s = crwReg (crOf n) a s := rfl
  rw [hexec, hn, crwReg, h, atPriv_of_le _ (Nat.zero_le _)]

/-- A write of cr.arith by its access codes: dz is RW, the sticky flags are W1C (R7, R50). -/
def Strand.writeArith (t : Strand) (v : Word) : Strand :=
  { t with dz := v.getLsbD 0, dzf := t.dzf && !v.getLsbD 8, dof := t.dof && !v.getLsbD 9, satf := t.satf && !v.getLsbD 10 }

theorem crWrite_arith (s : State) (v : Word) (go : State → State) : crWrite s .arith v go = go (s.modSt (·.writeArith v)) := rfl
theorem crWrite_trapEntry (s : State) (v : Word) (go : State → State) :
    crWrite s .trapEntry v go = go (s.modSt fun t => { t with entry := v &&& ~~~0xF }) := rfl

theorem retire_writeArith (t : Strand) (v : Word) (n : Nat) :
    (t.writeArith v).retire n = { t.retire n with dz := v.getLsbD 0, dzf := t.dzf && !v.getLsbD 8, dof := t.dof && !v.getLsbD 9,
                                                  satf := t.satf && !v.getLsbD 10 } := by
  rw [retire_of t (t.writeArith v) n (by simp [Strand.writeArith]), retire_eq t n]
  rfl

theorem crw_arith (s : State) (a : SReg) : ∃ t, exec (.crw a 0x000) s = .next t ∧ OnlyStrand s t
    ∧ t.st = { s.st.retire 1 with dz := (s.getS a).getLsbD 0, dzf := s.st.dzf && !(s.getS a).getLsbD 8,
                                  dof := s.st.dof && !(s.getS a).getLsbD 9, satf := s.st.satf && !(s.getS a).getLsbD 10 } := by
  refine ⟨_, crw_any s a (show _ = CReg.arith from rfl) rfl, ?_, ?_⟩ <;> rw [crWrite_arith, State.retire, modSt_modSt]
  · exact onlyStrand_modSt _ _
  · rw [st_modSt, retire_writeArith]

theorem crw_trapEntry (s : State) (a : SReg) : ∃ t, exec (.crw a 0x100) s = .next t ∧ OnlyStrand s t
    ∧ t.st = { s.st.retire 1 with entry := s.getS a &&& ~~~0xF } := by
  refine ⟨_, crw_any s a (show _ = CReg.trapEntry from rfl) rfl, ?_, ?_⟩ <;> rw [crWrite_trapEntry, State.retire, modSt_modSt]
  · exact onlyStrand_modSt _ _
  · rw [st_modSt, retire_of s.st _ 1 (by simp), retire_eq s.st 1]

theorem crw_time (s : State) (a : SReg) : ∃ t, exec (.crw a 0x001) s = .next t ∧ OnlyStrand s t ∧ t.st = s.st.retire 1 :=
  ⟨_, crw_any s a (show _ = CReg.time from rfl) rfl, onlyStrand_modSt _ _, st_modSt _ _⟩

/-- A write that leaves every bit but bit 0 clear changes dz alone. -/
theorem writeArith_and_one (t : Strand) (v : Word) : t.writeArith (v &&& 1) = { t with dz := v.getLsbD 0 } := by
  have hbit : ∀ k, (v &&& 1).getLsbD k = (v.getLsbD k && decide (k = 0)) := fun k => by
    rw [BitVec.getLsbD_and, show (1 : Word) = 1#64 from rfl, BitVec.getLsbD_one]
    simp
  simp only [Strand.writeArith, hbit]
  simp

/-- CRS and CRC of cr.arith change dz, its one RW field, and write the old word to sD (R65). -/
theorem crModify_arith (s : State) (d a : SReg) (f : Word → Word → Word) {b : Bool} (hb : (f (s.st.arith &&& 1) (s.getS a)).getLsbD 0 = b) :
    ∃ t, crModify .arith d a f s = .next t ∧ OnlyStrand s t ∧ t.st = { s.st.retire 1 with s := t.st.s, dz := b }
      ∧ WritesS s.st t.st d s.st.arith := by
  have hexec : crModify .arith d a f s =
      .next (s.modSt fun t => ((t.writeArith (f (s.st.arith &&& 1) (s.getS a) &&& 1)).setS d s.st.arith).retire 1) := by
    rw [← modSt_modSt s (·.writeArith _) fun t => (t.setS d s.st.arith).retire 1]
    rfl
  have hst : ((s.st.writeArith (f (s.st.arith &&& 1) (s.getS a) &&& 1)).setS d s.st.arith).retire 1
      = { s.st.retire 1 with s := (s.st.setS d s.st.arith).s, dz := b } := by
    rw [retire_setS, writeArith_and_one, hb, retire_of s.st { s.st with dz := b } 1 (by simp), retire_eq s.st 1]
    unfold Strand.setS
    split <;> rfl
  refine ⟨_, hexec, onlyStrand_modSt _ _, ?_, writesS_set _ _ _ _ ?_⟩ <;> rw [st_modSt, hst]

/-- Settles O10: CRR by its privilege, the writes of cr.arith as updates of its flags before the next word. -/
theorem controlRegisterAccess : Obligations.ControlRegisterAccess := by
  refine ⟨fun s d n r h => ⟨crr_below d h, crr_reads d h, crr_refused d h, fun k _ => getLsbD_arith s.st k, rfl, rfl, fun i => ⟨rfl, rfl⟩,
    rfl, rfl, rfl, rfl, rfl, rfl, rfl, rfl, rfl⟩, fun s d a => ⟨crw_arith s a, ?_, ?_, crw_trapEntry s a, crw_time s a⟩⟩
  · have hcrs : exec (.crs d a 0x000) s = crModify .arith d a (fun old v => old ||| v) s := rfl
    rw [hcrs]
    refine crModify_arith s d a _ ?_
    rw [BitVec.getLsbD_or, BitVec.getLsbD_and, getLsbD_arith]
    simp
  · have hcrc : exec (.crc d a 0x000) s = crModify .arith d a (fun old v => old &&& ~~~v) s := rfl
    rw [hcrc]
    refine crModify_arith s d a _ ?_
    rw [BitVec.getLsbD_and, BitVec.getLsbD_and, getLsbD_arith]
    simp

end Sys2Proof.Machine

namespace Sys2Proof.Machine

/-! ## Folio accesses (R63, R64, R102-R105) -/

/-! ### What an access meets -/

theorem FolAccess.eq_mk {a : FolAccess} {cells : List FolCell} {oob poison : Option Word} {spill : Option Nat} (hc : a.cells = cells)
    (ho : a.oob = oob) (hs : a.spill = spill) (hp : a.poison = poison) : a = { cells := cells, oob := oob, spill := spill, poison := poison } := by
  subst hc ho hs hp
  rfl

theorem folAccess_spill_none {k : Core} {x : Ctx} {diag : Bool} {offs : List Word} (h : ∀ o ∈ offs, ∀ l, folCell x diag o ≠ .spilled l) :
    (folAccess k x diag offs).spill = none := by
  refine List.findSome?_eq_none_iff.mpr fun c hc => ?_
  obtain ⟨o, ho, rfl⟩ := List.mem_map.mp hc
  split
  next l hl => exact absurd hl (h o ho l)
  next => rfl

theorem folAccess_poison_none {k : Core} {x : Ctx} {diag : Bool} {offs : List Word}
    (h : ∀ o ∈ offs, ∀ b, folCell x diag o = .fol b → k.folioBad (b / 8) = false) : (folAccess k x diag offs).poison = none := by
  refine List.findSome?_eq_none_iff.mpr fun e he => ?_
  obtain ⟨o, ho, hc⟩ := List.mem_map.mp (List.of_mem_zip he).2
  split
  next b hb => simp [h o ho b (hc.trans hb)]
  next => rfl

theorem folAccess_oob_none {k : Core} {x : Ctx} {diag : Bool} {offs : List Word} (h : ∀ o ∈ offs, folCell x diag o ≠ .out) :
    (folAccess k x diag offs).oob = none := by
  have hbad : (offs.zip (offs.map (folCell x diag))).filter (fun e => e.2 = .out) = [] :=
    List.filter_eq_nil_iff.mpr fun e he => by
      obtain ⟨o, ho, hc⟩ := List.mem_map.mp (List.of_mem_zip he).2
      rw [← hc]
      simpa using h o ho
  simp only [folAccess, hbad]
  rfl

/-- All bytes lie in resident leaves, no word of them past correction. -/
theorem folAccess_resident {k : Core} {x : Ctx} {diag : Bool} {offs : List Word} {cs : List Nat} (h : offs.map (folCell x diag) = cs.map .fol)
    (hgood : ∀ c ∈ cs, k.folioBad (c / 8) = false) :
    folAccess k x diag offs = { cells := cs.map .fol, oob := none, spill := none, poison := none } := by
  have hfol : ∀ o ∈ offs, ∃ c ∈ cs, folCell x diag o = .fol c := fun o ho => by
    have hm : folCell x diag o ∈ cs.map FolCell.fol := h ▸ List.mem_map_of_mem ho
    obtain ⟨c, hc, he⟩ := List.mem_map.mp hm
    exact ⟨c, hc, he.symm⟩
  have hspill : (folAccess k x diag offs).spill = none := folAccess_spill_none fun o ho l hl => by
    obtain ⟨c, -, hc⟩ := hfol o ho
    cases hc.symm.trans hl
  have hoob : (folAccess k x diag offs).oob = none := folAccess_oob_none fun o ho hl => by
    obtain ⟨c, -, hc⟩ := hfol o ho
    cases hc.symm.trans hl
  have hpoison : (folAccess k x diag offs).poison = none := folAccess_poison_none fun o ho b hb => by
    obtain ⟨c, hm, hc⟩ := hfol o ho
    have hcb : c = b := FolCell.fol.inj (hc.symm.trans hb)
    exact hcb ▸ hgood c hm
  exact FolAccess.eq_mk h hoob hspill hpoison

/-- Every byte lies past the leaves: the access is recorded. -/
theorem folAccess_out {k : Core} {x : Ctx} {diag : Bool} {offs : List Word} (hne : offs ≠ []) (h : ∀ o ∈ offs, folCell x diag o = .out) :
    ∃ a, folAccess k x diag offs = { cells := offs.map fun _ => .out, oob := some a, spill := none, poison := none } := by
  have hcells : offs.map (folCell x diag) = offs.map fun _ => .out := List.map_congr_left h
  have hspill : (folAccess k x diag offs).spill = none := folAccess_spill_none fun o ho l hl => by cases (h o ho).symm.trans hl
  have hpoison : (folAccess k x diag offs).poison = none := folAccess_poison_none fun o ho b hb => by cases (h o ho).symm.trans hb
  have hbad : (offs.zip (offs.map (folCell x diag))).filter (fun e => e.2 = .out) = offs.zip (offs.map (folCell x diag)) :=
    List.filter_eq_self.mpr fun e he => by
      obtain ⟨o, ho, hc⟩ := List.mem_map.mp (List.of_mem_zip he).2
      simpa [h o ho] using hc.symm
  have hoob : ∃ a, (folAccess k x diag offs).oob = some a := by
    have hn : (offs.zip (offs.map (folCell x diag))).map (fun e => e.1.toNat) ≠ [] := by
      simpa [List.zip_eq_nil_iff] using hne
    obtain ⟨m, hm⟩ := Option.isSome_iff_exists.mp (List.isSome_min?_of_ne_nil hn)
    refine ⟨BitVec.ofNat 64 m, ?_⟩
    simp only [folAccess, hbad, hm]
    rfl
  obtain ⟨a, ha⟩ := hoob
  exact ⟨a, FolAccess.eq_mk hcells ha hspill hpoison⟩

theorem folCell_out {x : Ctx} {diag : Bool} {o : Word} (hd : (diag && x.diag) = false) (h : x.leaves.length * 16384 ≤ o.toNat) :
    folCell x diag o = .out := by
  simp only [folCell, hd, Bool.false_eq_true, if_false, Nat.not_lt.mpr h]

theorem folCell_spilled {x : Ctx} {diag : Bool} {o : Word} (hd : (diag && x.diag) = false) (h : o.toNat < x.leaves.length * 16384)
    (hl : (x.leaves[o.toNat / 16384]?).bind (·.phys) = none) : folCell x diag o = .spilled (o.toNat / 16384) := by
  simp only [folCell, hd, Bool.false_eq_true, if_false, h, if_true, hl]

theorem folCell_leaf {x : Ctx} {diag : Bool} {o : Word} {p : Nat} (hd : (diag && x.diag) = false) (h : o.toNat < x.leaves.length * 16384)
    (hl : (x.leaves[o.toNat / 16384]?).bind (·.phys) = some p) : folCell x diag o = .fol (leafByte p o.toNat) := by
  simp only [folCell, hd, Bool.false_eq_true, if_false, h, if_true, hl]

/-! ### Chunks: the aligned accesses of 1, 2, 4 or 8 bytes -/

/-- An aligned chunk does not wrap, and its bytes lie in one leaf. -/
theorem chunk_toNat {n : Nat} (hn : n ∣ 16384) {o : Word} (ho : o.toNat % n = 0) {i : Nat} (hi : i < n) :
    (o + BitVec.ofNat 64 i).toNat = o.toNat + i ∧ (o.toNat + i) / 16384 = o.toNat / 16384 := by
  have hlt : ∀ m, n ∣ m → o.toNat < m → o.toNat + i < m := fun m hm h => by
    obtain ⟨q, hq⟩ := Nat.dvd_of_mod_eq_zero ho
    obtain ⟨r, rfl⟩ := hm
    rw [hq] at h ⊢
    have hqr : q + 1 ≤ r := Nat.lt_of_mul_lt_mul_left h
    calc n * q + i < n * q + n := by omega
      _ = n * (q + 1) := by ring
      _ ≤ n * r := Nat.mul_le_mul_left n hqr
  have h64 : o.toNat + i < 2 ^ 64 := hlt _ (hn.trans (by decide)) o.isLt
  have hleaf := hlt (16384 * (o.toNat / 16384 + 1)) (hn.mul_right _) (by omega)
  constructor
  · rw [BitVec.toNat_add, BitVec.toNat_ofNat, Nat.add_mod_mod, Nat.mod_eq_of_lt h64]
  · omega

/-- The physical leaf under a folio offset. -/
def Ctx.leafAt (x : Ctx) (o : Word) : Option Nat := (x.leaves[o.toNat / 16384]?).bind (·.phys)

/-- The folio bytes of an aligned chunk at an offset in a resident leaf. -/
def Ctx.chunkCells (x : Ctx) (n : Nat) (o : Word) : List Nat := (List.range n).map fun i => leafByte ((x.leafAt o).getD 0) (o.toNat + i)

/-- An aligned chunk in a resident leaf, no word of it past correction. -/
def State.chunkOk (s : State) (n : Nat) (o : Word) : Prop :=
  o.toNat % n = 0 ∧ o.toNat + n ≤ s.cx.leaves.length * 16384 ∧ s.cx.leafAt o ≠ none
    ∧ ∀ i < n, s.co.folioBad (leafByte ((s.cx.leafAt o).getD 0) (o.toNat + i) / 8) = false

theorem State.chunkOk.sound {s : State} {n : Nat} {o : Word} (h : s.chunkOk n o) : ∀ c ∈ s.cx.chunkCells n o, s.co.folioBad (c / 8) = false := by
  obtain ⟨-, -, -, hgood⟩ := h
  intro c hc
  obtain ⟨i, hi, rfl⟩ := List.mem_map.mp hc
  exact hgood i (List.mem_range.mp hi)

theorem folCell_chunk {s : State} {diag : Bool} {n : Nat} {o : Word} (hn : n ∣ 16384) (hd : (diag && s.cx.diag) = false) (h : s.chunkOk n o) :
    (folOffsets o n).map (folCell s.cx diag) = (s.cx.chunkCells n o).map .fol := by
  obtain ⟨ho, hlen, hleaf, -⟩ := h
  obtain ⟨p, hp⟩ := Option.ne_none_iff_exists'.mp hleaf
  rw [folOffsets, Ctx.chunkCells, List.map_map, List.map_map]
  refine List.map_congr_left fun i hi => ?_
  have hlt := List.mem_range.mp hi
  obtain ⟨hto, hdiv⟩ := chunk_toNat hn ho hlt
  have hpi : (s.cx.leaves[(o + BitVec.ofNat 64 i).toNat / 16384]?).bind (·.phys) = some p := by rw [hto, hdiv]; exact hp
  simp only [Function.comp_apply]
  rw [folCell_leaf hd (by omega) hpi, hto, hp]
  rfl

/-- An access of chunks each in a resident leaf meets their bytes and nothing else. -/
theorem folAccess_chunks {s : State} {diag : Bool} {n : Nat} {as : List Word} (hn : n ∣ 16384) (hd : (diag && s.cx.diag) = false)
    (h : ∀ a ∈ as, s.chunkOk n a) :
    folAccess s.co s.cx diag (as.flatMap (folOffsets · n))
      = { cells := (as.flatMap (s.cx.chunkCells n)).map .fol, oob := none, spill := none, poison := none } := by
  refine folAccess_resident ?_ fun c hc => ?_
  · rw [List.map_flatMap, List.map_flatMap]
    exact List.flatMap_congr fun a ha => folCell_chunk hn hd (h a ha)
  · obtain ⟨a, ha, hca⟩ := List.mem_flatMap.mp hc
    exact (h a ha).sound c hca

theorem folAccess_chunk {s : State} {diag : Bool} {n : Nat} {a : Word} (hn : n ∣ 16384) (hd : (diag && s.cx.diag) = false) (h : s.chunkOk n a) :
    folAccess s.co s.cx diag (folOffsets a n) = { cells := (s.cx.chunkCells n a).map .fol, oob := none, spill := none, poison := none } :=
  folAccess_resident (folCell_chunk hn hd h) h.sound

theorem folSize_dvd (size : Fin 4) : folSize size ∣ 16384 := by
  revert size; decide

theorem folSize_pos (size : Fin 4) : 0 < folSize size := Nat.two_pow_pos _

/-! ### Reads of the folio -/

theorem unmarred {k : Core} (hi : k.inject = 0) (hf : k.flips = []) : k.marred = false := by
  simp [Core.marred, Core.stuckAt, hi, hf]

/-- A read through the ordinary view may count a corrected error at the die, and where no cell may differ from what was written it does not (R105). -/
theorem noteCorrected_eq (s : State) (cells : List FolCell) :
    ∃ ds, s.noteCorrected cells = { s with dies := ds } ∧ (s.co.inject = 0 → s.co.flips = [] → ds = s.dies) := by
  unfold State.noteCorrected
  split
  next h =>
    refine ⟨_, rfl, fun hi hf => ?_⟩
    obtain ⟨c, -, hc⟩ := List.any_eq_true.mp h
    split at hc
    · simp [Core.corrects, unmarred hi hf] at hc
    · cases hc
  next => exact ⟨s.dies, rfl, fun _ _ => rfl⟩

theorem noteCorrected_unmarred {s : State} (cells : List FolCell) (hi : s.co.inject = 0) (hf : s.co.flips = []) : s.noteCorrected cells = s := by
  obtain ⟨ds, h, hds⟩ := noteCorrected_eq s cells
  rw [h, hds hi hf]

theorem withFolRead_spilled {s : State} {diag : Bool} {kind l : Nat} {offs : List Word} (f : State → List Byte → State)
    (h : (folAccess s.co s.cx diag offs).spill = some l) : s.withFolRead diag kind offs f = s.holdLeaves [l] := by
  simp [State.withFolRead, h]

/-- A read of chunks in resident leaves goes on with their bytes, in the order of the chunks. -/
theorem withFolRead_resident {s : State} {diag : Bool} {offs : List Word} {cs : List Nat} (kind : Nat) (f : State → List Byte → State)
    (hd : (diag && s.cx.diag) = false) (h : folAccess s.co s.cx diag offs = { cells := cs.map .fol, oob := none, spill := none, poison := none }) :
    s.withFolRead diag kind offs f = f (s.noteCorrected (cs.map .fol)) (cs.map (SMap.get 0 s.co.folio)) := by
  simp only [State.withFolRead, h, hd, Option.isSome_none, Bool.false_eq_true, if_false, State.noteOob, List.map_map]
  rfl

/-- A read past the leaves is recorded and gives zeros (R103, R104). -/
theorem withFolRead_out {s : State} {diag : Bool} {offs : List Word} {a : Word} (kind : Nat) (f : State → List Byte → State)
    (hd : (diag && s.cx.diag) = false)
    (h : folAccess s.co s.cx diag offs = { cells := offs.map fun _ => .out, oob := some a, spill := none, poison := none }) :
    s.withFolRead diag kind offs f = f (s.noteOob kind (some a)) (List.replicate offs.length 0) := by
  have hnote : s.noteCorrected (offs.map fun _ => .out) = s := if_neg (by simp)
  have hzero : (offs.map fun _ => FolCell.out).map (s.co.readCell false) = List.replicate offs.length 0 := by
    rw [List.map_map]
    exact List.map_const' ..
  simp only [State.withFolRead, h, hd, Option.isSome_none, Bool.false_eq_true, if_false, hnote, hzero]

/-! ### Out-of-range accesses (R104) -/

/-- Recording an access changes cr.folio.oob alone, and its V is set. -/
theorem noteOob_eq (x : Ctx) (now kind strand : Nat) (o : Word) :
    ∃ w at_, x.noteOob now kind strand o = { x with oob := w, oobAt := at_ } ∧ w.getLsbD 63 = true := by
  have hword : (oobWord kind strand o).getLsbD 63 = true := by
    simp only [oobWord, BitVec.getLsbD_or]
    simp
  unfold Ctx.noteOob
  extract_lets place
  split
  · exact ⟨_, _, rfl, hword⟩
  next h =>
    have hv : x.oob.getLsbD 63 = true := by simpa using h
    split
    · exact ⟨_, _, rfl, by rw [BitVec.getLsbD_or, hword, Bool.true_or]⟩
    · exact ⟨_, x.oobAt, rfl, by rw [BitVec.getLsbD_or, hv, Bool.true_or]⟩

/-- What a strand does once its out-of-range access is recorded. -/
theorem noteOob_modSt (s : State) (kind : Nat) (a : Word) (f : Strand → Strand) :
    ∃ t, (s.noteOob kind (some a)).modSt f = t ∧ OnlyCtx s t ∧ t.cx = { s.cx with strands := t.cx.strands, oob := t.cx.oob, oobAt := t.cx.oobAt }
      ∧ t.cx.oob.getLsbD 63 = true ∧ t.st = f s.st := by
  obtain ⟨w, at_, heq, hv⟩ := noteOob_eq s.cx s.time kind (strandIx s.focus).val a
  have hnote : s.noteOob kind (some a) = s.modCx fun x => x.noteOob s.time kind (strandIx s.focus).val a := rfl
  have hmod : (s.noteOob kind (some a)).modSt f = s.modCx fun _ => { s.cx with oob := w, oobAt := at_ }.modStrand (strandIx s.focus) f := by
    rw [hnote, modSt_eq, modCx_modCx, ← heq]
    rfl
  refine ⟨_, hmod, onlyCtx_modCx _ _, ?_, ?_, ?_⟩
  · rw [cx_modCx]; rfl
  · rw [cx_modCx]; exact hv
  · rw [st_modCx]; exact strands_modStrand ..

/-! ### FLD and FLDX -/

theorem extend_zero (bits : Nat) (sx : Bool) : extend bits sx 0 = 0 := by
  have hmsb : (BitVec.ofNat bits 0).msb = false := by simp
  cases sx <;> simp [extend, BitVec.signExtend_eq_setWidth_of_msb_false hmsb]

theorem leNat_replicate_zero (n : Nat) : leNat (List.replicate n 0) = 0 := by
  induction n with
  | zero => rfl
  | succ n ih => rw [List.replicate_succ, leNat, ih]; rfl

theorem folAccess_out_chunk {k : Core} {x : Ctx} {diag : Bool} {o : Word} {n : Nat} (hn : n ∣ 16384) (h0 : 0 < n) (hd : (diag && x.diag) = false)
    (ho : o.toNat % n = 0) (h : x.leaves.length * 16384 ≤ o.toNat) :
    ∃ a, folAccess k x diag (folOffsets o n) = { cells := (folOffsets o n).map fun _ => .out, oob := some a, spill := none, poison := none } := by
  refine folAccess_out (by simp [folOffsets, h0.ne']) fun w hw => ?_
  obtain ⟨i, hi, rfl⟩ := List.mem_map.mp hw
  refine folCell_out hd ?_
  rw [(chunk_toNat hn ho (List.mem_range.mp hi)).1]
  omega

section
variable {s : State} {d : SReg} {o : Word} {size : Fin 4} {sx : Bool}

theorem folLoad_misaligned (h : o.toNat % folSize size ≠ 0) : TakesTrap s (folLoad s d o size sx) 0x08 0 o := by
  rw [folLoad, if_pos (by simp [aligned, h])]
  exact trap_takes s _ _ _

theorem folLoad_aligned (h : o.toNat % folSize size = 0) :
    folLoad s d o size sx = .next (s.withFolRead true 0 (folOffsets o (folSize size)) fun s bs =>
      s.modSt fun t => (t.setS d (extend (8 * folSize size) sx (leNat bs))).retire 1) := by
  rw [folLoad, if_neg (by simp [aligned, h])]

theorem folLoad_resident (hd : s.cx.diag = false) (h : s.chunkOk (folSize size) o) :
    ∃ t, folLoad s d o size sx = .next t ∧ t = { s with dies := t.dies }.modSt (fun _ => t.st)
      ∧ (s.co.inject = 0 → s.co.flips = [] → t.dies = s.dies) ∧ (∀ k, t.rawByte k = s.rawByte k) ∧ t.st = { s.st.retire 1 with s := t.st.s }
      ∧ WritesS s.st t.st d (extend (8 * folSize size) sx (leNat ((s.cx.chunkCells (folSize size) o).map (SMap.get 0 s.co.folio)))) := by
  have hdiag : (true && s.cx.diag) = false := hd
  obtain ⟨ds, hds, hsame⟩ := noteCorrected_eq s ((s.cx.chunkCells (folSize size) o).map .fol)
  rw [folLoad_aligned h.1, withFolRead_resident 0 _ hdiag (folAccess_chunk (folSize_dvd size) hdiag h), hds]
  refine ⟨_, rfl, (modSt_st { s with dies := ds } _).symm, hsame, fun _ => rfl, ?_, writesS_set _ _ _ _ ?_⟩ <;> rw [st_modSt, retire_setS] <;> rfl

theorem folLoad_out (hd : s.cx.diag = false) (ha : o.toNat % folSize size = 0) (h : s.cx.leaves.length * 16384 ≤ o.toNat) :
    ∃ t, folLoad s d o size sx = .next t ∧ OnlyCtx s t
      ∧ t.cx = { s.cx with strands := t.cx.strands, oob := t.cx.oob, oobAt := t.cx.oobAt } ∧ t.cx.oob.getLsbD 63 = true
      ∧ t.st = { s.st.retire 1 with s := t.st.s } ∧ WritesS s.st t.st d 0 := by
  have hdiag : (true && s.cx.diag) = false := hd
  obtain ⟨a, hacc⟩ := folAccess_out_chunk (k := s.co) (folSize_dvd size) (folSize_pos size) hdiag ha h
  obtain ⟨t, ht, honly, hcx, hoob, hst⟩ := noteOob_modSt s 0 a fun t => (t.setS d 0).retire 1
  rw [folLoad_aligned ha, withFolRead_out 0 _ hdiag hacc, leNat_replicate_zero, extend_zero, ht]
  refine ⟨t, rfl, honly, hcx, hoob, ?_, writesS_set _ _ _ _ ?_⟩ <;> rw [hst, retire_setS]

theorem folLoad_spilled (hd : s.cx.diag = false) (ha : o.toNat % folSize size = 0) (h : o.toNat < s.cx.leaves.length * 16384)
    (hl : (s.cx.leaves[o.toNat / 16384]?).bind (·.phys) = none) :
    ∃ t, folLoad s d o size sx = .next t ∧ OnlyStrand s t ∧ t.st = { s.st with wait := some .retry, wants := [o.toNat / 16384] } := by
  have hdiag : (true && s.cx.diag) = false := hd
  have hspill : (folAccess s.co s.cx true (folOffsets o (folSize size))).spill = some (o.toNat / 16384) := by
    obtain ⟨m, hm⟩ := Nat.exists_eq_succ_of_ne_zero (folSize_pos size).ne'
    have hoffs : folOffsets o (folSize size) = o :: ((List.range m).map Nat.succ).map fun i => o + BitVec.ofNat 64 i := by
      rw [folOffsets, hm, List.range_succ_eq_map, List.map_cons, BitVec.add_zero]
    simp only [folAccess, hoffs, List.map_cons, List.findSome?_cons, folCell_spilled hdiag h hl]
  rw [folLoad_aligned ha, withFolRead_spilled _ hspill]
  exact ⟨_, rfl, onlyStrand_modSt _ _, st_modSt _ _⟩

end

/-! ### Writes of the folio (R103, R105, R413) -/

/-- Storing through the ordinary view to a word may settle its errors, and changes nothing else. -/
theorem settleWord_eq (k : Core) (hit : List Nat) (w : Nat) :
    k.settleWord false hit w = { k with folioPoison := (k.settleWord false hit w).folioPoison, flips := (k.settleWord false hit w).flips } := by
  unfold Core.settleWord
  rw [if_neg Bool.false_ne_true]
  split
  · rfl
  · split <;> rfl

theorem foldl_settleWord_eq (hit ws : List Nat) (k : Core) :
    ∃ poison flips, ws.foldl (fun k w => k.settleWord false hit w) k = { k with folioPoison := poison, flips := flips } := by
  induction ws generalizing k with
  | nil => exact ⟨k.folioPoison, k.flips, rfl⟩
  | cons w ws ih =>
    obtain ⟨poison, flips, h⟩ := ih (k.settleWord false hit w)
    exact ⟨poison, flips, by rw [List.foldl_cons, h, settleWord_eq]⟩

/-- Bytes put into a store one after another. -/
def putBytes (m : SMap Byte) (l : List (Nat × Byte)) : SMap Byte := l.foldl (fun m e => SMap.put 0 m e.1 e.2) m

theorem foldl_writeCell_fol (l : List (Nat × Byte)) (k : Core) :
    (l.map fun e => (FolCell.fol e.1, e.2)).foldl (fun k e => k.writeCell e.2 e.1) k = { k with folio := putBytes k.folio l } := by
  induction l generalizing k with
  | nil => rfl
  | cons e l ih => rw [List.map_cons, List.foldl_cons, ih]; rfl

/-- A core whose folio is replaced, and the errors of its words with it. -/
def Core.stored (k : Core) (folio : SMap Byte) (poison : List Nat) (flips : List (Nat × Nat)) : Core :=
  { k with folio := folio, folioPoison := poison, flips := flips }

/-- A store of bytes to leaves changes those bytes, and the errors of their words. -/
theorem writeCells_fol (k : Core) (l : List (Nat × Byte)) :
    ∃ poison flips, k.writeCells false (l.map fun e => .fol e.1) (l.map (·.2)) = k.stored (putBytes k.folio l) poison flips := by
  have hzip : (l.map fun e => FolCell.fol e.1).zip (l.map (·.2)) = l.map fun e => (FolCell.fol e.1, e.2) := List.zip_map' ..
  unfold Core.writeCells
  extract_lets hit k1 k2
  have hk1 : ∃ poison flips, k1 = { k with folioPoison := poison, flips := flips } := by
    by_cases hm : (k.marred || !k.folioPoison.isEmpty) = true
    · obtain ⟨poison, flips, h⟩ := foldl_settleWord_eq hit (hit.map (· / 8)).dedup k
      exact ⟨poison, flips, (if_pos hm).trans h⟩
    · exact ⟨k.folioPoison, k.flips, if_neg hm⟩
  obtain ⟨poison, flips, h⟩ := hk1
  have hk2 : k2 = k1 := if_neg Bool.false_ne_true
  exact ⟨poison, flips, by rw [hzip, hk2, h, foldl_writeCell_fol]; rfl⟩

/-- A store past the leaves is dropped (R103). -/
theorem writeCells_out (k : Core) (offs : List Word) (bs : List Byte) : k.writeCells false (offs.map fun _ => .out) bs = k := by
  have hdrop : ∀ l : List (FolCell × Byte), (∀ e ∈ l, e.1 = .out) → l.foldl (fun k e => k.writeCell e.2 e.1) k = k := fun l h => by
    induction l with
    | nil => rfl
    | cons e l ih =>
      have he : k.writeCell e.2 e.1 = k := by rw [h e List.mem_cons_self]; rfl
      rw [List.foldl_cons, he]
      exact ih fun e' h' => h e' (List.mem_cons_of_mem _ h')
  have hout : ∀ c ∈ offs.map fun _ => FolCell.out, c = .out := fun c hc => by
    obtain ⟨-, -, rfl⟩ := List.mem_map.mp hc
    rfl
  unfold Core.writeCells
  extract_lets hit k1 k2
  have hhit : hit = [] := List.filterMap_eq_nil_iff.mpr fun c hc => by rw [hout c hc]
  have hk1 : k1 = k := by
    simp only [k1, hhit, List.map_nil, List.dedup_nil, List.foldl_nil, ite_self]
  have hk2 : k2 = k1 := if_neg Bool.false_ne_true
  rw [hk2, hk1]
  exact hdrop _ fun e he => hout _ (List.of_mem_zip he).1

theorem get_putBytes_other (m : SMap Byte) (l : List (Nat × Byte)) {c : Nat} (h : ∀ e ∈ l, c ≠ e.1) :
    SMap.get 0 (putBytes m l) c = SMap.get 0 m c := by
  induction l generalizing m with
  | nil => rfl
  | cons e l ih =>
    rw [putBytes, List.foldl_cons]
    exact (ih _ fun f hf => h f (List.mem_cons_of_mem _ hf)).trans (SMap.get_put_other _ _ _ _ _ (h e List.mem_cons_self))

theorem get_putBytes (m : SMap Byte) {l : List (Nat × Byte)} (hn : (l.map (·.1)).Nodup) {e : Nat × Byte} (he : e ∈ l) :
    SMap.get 0 (putBytes m l) e.1 = e.2 := by
  induction l generalizing m with
  | nil => exact absurd he List.not_mem_nil
  | cons f l ih =>
    obtain ⟨hf, hl⟩ := List.nodup_cons.mp hn
    rw [putBytes, List.foldl_cons]
    rcases List.mem_cons.mp he with rfl | he
    · exact (get_putBytes_other _ l fun g hg h => hf (List.mem_map.mpr ⟨g, hg, h.symm⟩)).trans (SMap.get_put_same ..)
    · exact ih _ hl he

theorem leafByte_inj {p o i j n : Nat} (hn : n ≤ 16384) (hi : i < n) (hj : j < n) (h : leafByte p (o + i) = leafByte p (o + j)) : i = j := by
  unfold leafByte at h
  omega


/-! ### FST and FSTX -/

/-- A store to cells of resident leaves writes them and goes on. -/
theorem withFolWrite_resident {s : State} {diag : Bool} {offs : List Word} {cells : List FolCell} (kind : Nat) (bs : List Byte) (f : State → State)
    (hd : (diag && s.cx.diag) = false) (h : folAccess s.co s.cx diag offs = { cells := cells, oob := none, spill := none, poison := none }) :
    s.withFolWrite diag kind offs bs f = f (s.modCo fun k => k.writeCells false cells bs) := by
  simp only [State.withFolWrite, h, hd, Option.isSome_none, Bool.false_eq_true, if_false]
  rfl

theorem modCo_congr {s : State} {f g : Core → Core} (h : f s.co = g s.co) : s.modCo f = s.modCo g := congrArg (s.setCore s.focus.core) h

theorem co_modSt (s : State) (f : Strand → Strand) : ∃ slots, (s.modSt f).co = { s.co with slots := slots } := ⟨_, core_modCore ..⟩

theorem co_stored_retire (s : State) (folio : SMap Byte) (poison : List Nat) (flips : List (Nat × Nat)) :
    (s.modCo fun k => k.stored folio poison flips).retire.co.folio = folio
    ∧ (s.modCo fun k => k.stored folio poison flips).retire.co.folioPoison = poison
    ∧ (s.modCo fun k => k.stored folio poison flips).retire.co.flips = flips := by
  obtain ⟨slots, h⟩ := co_modSt (s.modCo fun k => k.stored folio poison flips) (·.retire 1)
  have hco : (s.modCo fun k => k.stored folio poison flips).co = s.co.stored folio poison flips := core_modCore ..
  rw [State.retire, h, hco]
  exact ⟨rfl, rfl, rfl⟩

theorem modCo_modCx_id (s : State) (f : Ctx → Ctx) : ((s.modCx f).modCo fun k => k) = s.modCx f := by
  simp [State.modCx, State.modCtx, State.setCtx, State.modCo, State.modCore, State.setCore, State.core]

section
variable {s : State} {v o : Word} {size : Fin 4}

theorem folStore_misaligned (h : o.toNat % folSize size ≠ 0) : TakesTrap s (folStore s v o size) 0x08 0 o := by
  rw [folStore, if_pos (by simp [aligned, h])]
  exact trap_takes s _ _ _

theorem folStore_aligned (h : o.toNat % folSize size = 0) :
    folStore s v o size = .next (s.withFolWrite true 1 (folOffsets o (folSize size)) (leBytes (folSize size) v.toNat) fun s => s.retire) := by
  rw [folStore, if_neg (by simp [aligned, h])]

theorem folStore_resident (hd : s.cx.diag = false) (h : s.chunkOk (folSize size) o) :
    ∃ t, folStore s v o size = .next t
      ∧ t = (s.modCo fun k => { k with folio := t.co.folio, folioPoison := t.co.folioPoison, flips := t.co.flips }).retire
      ∧ (∀ k, t.rawByte k = s.rawByte k)
      ∧ (∀ i < folSize size, SMap.get 0 t.co.folio (leafByte ((s.cx.leafAt o).getD 0) (o.toNat + i)) = (v >>> (8 * i)).setWidth 8)
      ∧ ∀ c, (∀ i < folSize size, c ≠ leafByte ((s.cx.leafAt o).getD 0) (o.toNat + i)) → SMap.get 0 t.co.folio c = SMap.get 0 s.co.folio c := by
  have hdiag : (true && s.cx.diag) = false := hd
  obtain ⟨l, hl⟩ : ∃ l : List (Nat × Byte), l = (List.range (folSize size)).map fun i =>
    (leafByte ((s.cx.leafAt o).getD 0) (o.toNat + i), (v >>> (8 * i)).setWidth 8) := ⟨_, rfl⟩
  have hbytes : leBytes (folSize size) v.toNat = l.map (·.2) := by
    rw [hl, List.map_map]
    refine List.map_congr_left fun i _ => ?_
    rw [← BitVec.toNat_ushiftRight, BitVec.ofNat_toNat]
    rfl
  have hcells : (s.cx.chunkCells (folSize size) o).map FolCell.fol = l.map fun e => .fol e.1 := by
    rw [hl, Ctx.chunkCells, List.map_map, List.map_map]
    rfl
  have hnodup : (l.map (·.1)).Nodup := by
    rw [hl, List.map_map]
    exact List.nodup_range.map_on fun i hi j hj hij =>
      leafByte_inj (Nat.le_of_dvd (by decide) (folSize_dvd size)) (List.mem_range.mp hi) (List.mem_range.mp hj) hij
  obtain ⟨poison, flips, hw⟩ := writeCells_fol s.co l
  have hacc := folAccess_chunk (folSize_dvd size) hdiag h
  rw [hcells] at hacc
  have hco : (s.modCo fun k => k.writeCells false (l.map fun e => .fol e.1) (l.map (·.2))) =
      s.modCo fun k => k.stored (putBytes s.co.folio l) poison flips := modCo_congr hw
  have hstore : folStore s v o size = .next (s.modCo fun k => k.stored (putBytes s.co.folio l) poison flips).retire := by
    rw [folStore_aligned h.1, hbytes, withFolWrite_resident 1 _ _ hdiag hacc, hco]
  obtain ⟨hf, hp, hx⟩ := co_stored_retire s (putBytes s.co.folio l) poison flips
  refine ⟨_, hstore, by rw [hf, hp, hx]; rfl, fun _ => rfl, fun i hi => ?_, fun c hc => ?_⟩ <;> rw [hf]
  · exact get_putBytes _ hnodup (hl ▸ List.mem_map_of_mem (List.mem_range.mpr hi))
  · refine get_putBytes_other _ _ fun e he => ?_
    rw [hl] at he
    obtain ⟨i, hi, rfl⟩ := List.mem_map.mp he
    exact hc i (List.mem_range.mp hi)

theorem folStore_out (hd : s.cx.diag = false) (ha : o.toNat % folSize size = 0) (h : s.cx.leaves.length * 16384 ≤ o.toNat) :
    ∃ t, folStore s v o size = .next t ∧ OnlyCtx s t
      ∧ t.cx = { s.cx with strands := t.cx.strands, oob := t.cx.oob, oobAt := t.cx.oobAt } ∧ t.cx.oob.getLsbD 63 = true ∧ t.st = s.st.retire 1 := by
  have hdiag : (true && s.cx.diag) = false := hd
  obtain ⟨a, hacc⟩ := folAccess_out_chunk (k := s.co) (folSize_dvd size) (folSize_pos size) hdiag ha h
  obtain ⟨t, ht, honly, hcx, hoob, hst⟩ := noteOob_modSt s 1 a (·.retire 1)
  refine ⟨t, ?_, honly, hcx, hoob, hst⟩
  rw [folStore_aligned ha]
  simp only [State.withFolWrite, hacc, hdiag, Option.isSome_none, Bool.false_eq_true, if_false, writeCells_out]
  rw [← ht]
  exact congrArg (fun u : State => Host.Outcome.next u.retire) (modCo_modCx_id s _)

end

/-! ### The folio forms of the vector loads and stores (R104, R119-R121) -/

theorem chunkBytes_dvd (t : ETy) : chunkBytes t ∣ 16384 := by
  cases t <;> decide

/-- An aligned chunk whose bytes within the leaves are resident, none in a word past correction. -/
def State.chunkFits (s : State) (n : Nat) (a : Word) : Prop :=
  a.toNat % n = 0 ∧ ∀ i < n, (a + BitVec.ofNat 64 i).toNat < s.cx.leaves.length * 16384 → s.cx.leafAt (a + BitVec.ofNat 64 i) ≠ none
    ∧ s.co.folioBad (leafByte ((s.cx.leafAt (a + BitVec.ofNat 64 i)).getD 0) (a + BitVec.ofNat 64 i).toNat / 8) = false

/-- Chunks that fit meet neither a spilled leaf nor a word past correction. -/
theorem folAccess_fits {s : State} {n : Nat} {as : List Word} (h : ∀ a ∈ as, s.chunkFits n a) :
    (folAccess s.co s.cx false (as.flatMap (folOffsets · n))).spill = none ∧ (folAccess s.co s.cx false (as.flatMap (folOffsets · n))).poison = none := by
  have hcell : ∀ o ∈ as.flatMap (folOffsets · n), folCell s.cx false o = .out ∨ ∃ b, folCell s.cx false o = .fol b ∧ s.co.folioBad (b / 8) = false := by
    intro o ho
    obtain ⟨a, ha, hoa⟩ := List.mem_flatMap.mp ho
    obtain ⟨i, hi, rfl⟩ := List.mem_map.mp hoa
    rcases Nat.lt_or_ge (a + BitVec.ofNat 64 i).toNat (s.cx.leaves.length * 16384) with hlt | hge
    · obtain ⟨hleaf, hgood⟩ := (h a ha).2 i (List.mem_range.mp hi) hlt
      obtain ⟨p, hp⟩ := Option.ne_none_iff_exists'.mp hleaf
      rw [hp] at hgood
      exact .inr ⟨_, folCell_leaf rfl hlt hp, hgood⟩
    · exact .inl (folCell_out rfl hge)
  refine ⟨folAccess_spill_none fun o ho l hl => ?_, folAccess_poison_none fun o ho b hb => ?_⟩
  · rcases hcell o ho with hc | ⟨b, hc, -⟩ <;> cases hc.symm.trans hl
  · rcases hcell o ho with hc | ⟨b', hc, hgood⟩
    · cases hc.symm.trans hb
    · exact FolCell.fol.inj (hc.symm.trans hb) ▸ hgood

/-- A list of chunks of which some are disabled, by its enabled ones. -/
theorem flatMap_option {α β : Type} {f : Option α → List β} (l : List (Option α)) (h : f none = []) :
    l.flatMap f = l.reduceOption.flatMap fun a => f (some a) := by
  induction l with
  | nil => rfl
  | cons e l ih =>
    cases e with
    | none => rw [List.flatMap_cons, h, ih, List.reduceOption_cons_of_none]; rfl
    | some a => rw [List.flatMap_cons, ih, List.reduceOption_cons_of_some, List.flatMap_cons]

/-- The bytes of a load dealt out to its enabled chunks, `n` each. -/
def takeLanes (n : Nat) : List (Option Word) → List Byte → List (Option Nat)
  | [], _ => []
  | some _ :: want, bs => some (leNat (bs.take n)) :: takeLanes n want (bs.drop n)
  | none :: want, bs => none :: takeLanes n want bs

/-- A fold that deals bytes out in front of a list deals them as `takeLanes` does, in reverse. -/
theorem foldl_takeLanes {n : Nat} {F : List (Option Nat) × List Byte → Option Word → List (Option Nat) × List Byte}
    (hs : ∀ acc a, F acc (some a) = (some (leNat (acc.2.take n)) :: acc.1, acc.2.drop n)) (hn : ∀ acc, F acc none = (none :: acc.1, acc.2))
    (want : List (Option Word)) (vals : List (Option Nat)) (bs : List Byte) :
    (want.foldl F (vals, bs)).1.reverse = vals.reverse ++ takeLanes n want bs := by
  induction want generalizing vals bs with
  | nil => simp [takeLanes]
  | cons e want ih =>
    cases e with
    | none => rw [List.foldl_cons, hn, ih, takeLanes]; simp
    | some a => rw [List.foldl_cons, hs, ih, takeLanes]; simp

theorem takeLanes_flatMap {n : Nat} {f : Word → List Byte} (hf : ∀ a, (f a).length = n) (want : List (Option Word)) :
    takeLanes n want (want.reduceOption.flatMap f) = want.map fun e => e.map fun a => leNat (f a) := by
  induction want with
  | nil => rfl
  | cons e want ih =>
    cases e with
    | none => rw [List.reduceOption_cons_of_none, takeLanes, ih]; rfl
    | some a =>
      rw [List.reduceOption_cons_of_some, List.flatMap_cons, takeLanes, List.take_left' (hf a), List.drop_left' (hf a), ih]
      rfl

section
variable {s : State} {t : ETy} {m : Option MNum} {addrs : List Word}

theorem vecLoad_misaligned (d : VNum) (g : Nat) {k : Nat} {a : Word} (hk : (s.chunkAddrs t m addrs)[k]? = some (some a))
    (ha : a.toNat % chunkBytes t ≠ 0) (hfits : ∀ j < k, ∀ e, (s.chunkAddrs t m addrs)[j]? = some (some e) → s.chunkFits (chunkBytes t) e) :
    TakesTrap s (.next (vecLoad s t true m d g addrs)) 0x08 0 a := by
  obtain ⟨hlt, hka⟩ := List.getElem?_eq_some_iff.mp hk
  unfold vecLoad
  simp only [if_true]
  split
  next k' hk' =>
    have hkk : k' = k := by
      refine Option.some.inj (hk'.symm.trans (List.findIdx?_eq_some_iff_getElem.mpr ⟨hlt, ?_, fun j hj => ?_⟩))
      · rw [hka]; simpa [aligned] using ha
      · have hjl : j < (s.chunkAddrs t m addrs).length := hj.trans hlt
        cases he : (s.chunkAddrs t m addrs)[j] with
        | none => simp
        | some e => simpa [aligned] using (hfits j hj e (List.getElem?_eq_some_iff.mpr ⟨hjl, he⟩)).1
    subst hkk
    rw [flatMap_option _ rfl]
    have hmeet := @folAccess_fits s (chunkBytes t) ((s.chunkAddrs t m addrs).take k').reduceOption fun e he => by
      obtain ⟨j, hj, hje⟩ := List.mem_take_iff_getElem.mp (List.reduceOption_mem_iff.mp he)
      exact hfits j (by omega) e (List.getElem?_eq_some_iff.mpr ⟨by omega, hje⟩)
    rw [hmeet.1, hmeet.2, hk]
    exact trap_takes s _ _ _
  next hnone =>
    have := List.findIdx?_eq_none_iff.mp hnone (some a) (hka ▸ List.getElem_mem hlt)
    exact absurd (by simpa [aligned] using this) ha

theorem vecLoad_aligned (d : VNum) (g : Nat) (h : ∀ a, some a ∈ s.chunkAddrs t m addrs → a.toNat % chunkBytes t = 0) :
    vecLoad s t true m d g addrs = s.withFolRead false 2 ((s.chunkAddrs t m addrs).reduceOption.flatMap (folOffsets · (chunkBytes t))) fun u bs =>
      (u.loadLanes t m d g (takeLanes (chunkBytes t) (s.chunkAddrs t m addrs) bs)).retire := by
  unfold vecLoad
  simp only [if_true]
  split
  next k' hk' =>
    obtain ⟨hlt, hp, -⟩ := List.findIdx?_eq_some_iff_getElem.mp hk'
    cases he : (s.chunkAddrs t m addrs)[k'] with
    | none => rw [he] at hp; cases hp
    | some a =>
      rw [he] at hp
      exact absurd (h a (he ▸ List.getElem_mem hlt)) (by simpa [aligned] using hp)
  next =>
    rw [flatMap_option _ rfl]
    congr 1
    funext u bs
    rw [foldl_takeLanes (fun _ _ => rfl) fun _ => rfl]
    rfl

theorem mem_setGroupNat (s : State) (base : VNum) (g x : Nat) : (s.setGroupNat base g x).mem = s.mem := by
  unfold State.setGroupNat
  exact mem_foldl (fun s k => s.setV (vplus base k) (BitVec.ofNat 4096 (x >>> (4096 * k)))) (fun _ _ => rfl) _ _

theorem vecLoad_resident (d : VNum) (g : Nat) (hi : s.co.inject = 0) (hx : s.co.flips = [])
    (h : ∀ a, some a ∈ s.chunkAddrs t m addrs → s.chunkOk (chunkBytes t) a) :
    Completes s (.next (vecLoad s t true m d g addrs)) (s.loadLanes t m d g ((s.chunkAddrs t m addrs).map fun e => e.map fun a =>
      leNat ((s.cx.chunkCells (chunkBytes t) a).map (SMap.get 0 s.co.folio)))).retire := by
  have hacc := @folAccess_chunks s false (chunkBytes t) (s.chunkAddrs t m addrs).reduceOption (chunkBytes_dvd t) rfl fun a ha => h a (List.reduceOption_mem_iff.mp ha)
  refine ⟨?_, rawByte_of_mem (mem_setGroupNat s d g _)⟩
  rw [vecLoad_aligned d g fun a ha => (h a ha).1, withFolRead_resident 2 _ rfl hacc, noteCorrected_unmarred _ hi hx, List.map_flatMap, takeLanes_flatMap]
  intro a
  simp [Ctx.chunkCells]

end

/-- The enabled chunks of a store with the data and the number of each. -/
def storeItems (want : List (Option Word)) (data : List Nat) : List (Word × Nat × Nat) :=
  (want.zip data).zipIdx.filterMap fun e => e.1.1.map fun a => (a, e.1.2, e.2)

theorem mem_storeItems {want : List (Option Word)} {data : List Nat} {e : Word × Nat × Nat} (he : e ∈ storeItems want data) : some e.1 ∈ want := by
  obtain ⟨⟨⟨o, v⟩, i⟩, hm, hea⟩ := List.mem_filterMap.mp he
  obtain ⟨a, rfl, rfl⟩ := Option.map_eq_some_iff.mp hea
  exact (List.of_mem_zip (List.fst_mem_of_mem_zipIdx hm)).1

/-- The bytes of a chunk as it is stored: a 4-bit lane that is not enabled keeps its half of the old byte (R120). -/
def State.storedChunk (s : State) (t : ETy) (m : Option MNum) (old : Byte) (e : Word × Nat × Nat) : List Byte :=
  if t.width = 4 then [blend (s.chunkMask t m e.2.2) old (BitVec.ofNat 8 e.2.1)] else leBytes (chunkBytes t) e.2.1

/-- Taking each item's old byte by its number is taking it by the item. -/
theorem flatMap_zipIdx_getD {α β γ : Type} (l : List α) (old : α → β) (z : β) (f : β → α → List γ) :
    (l.zipIdx.flatMap fun i => f (((l.map old)[i.2]?).getD z) i.1) = l.flatMap fun e => f (old e) e := by
  have hold : (l.zipIdx.flatMap fun i => f (((l.map old)[i.2]?).getD z) i.1) = l.zipIdx.flatMap fun i => f (old i.1) i.1 :=
    List.flatMap_congr fun i hi => by
      have hget : l[i.2]? = some i.1 := List.mem_zipIdx_iff_getElem?.mp hi
      rw [List.getElem?_map, hget]
      rfl
  rw [hold, ← List.flatMap_map Prod.fst fun e => f (old e) e, List.zipIdx_map_fst]

/-- A 4-bit lane's old byte is its one-byte chunk's. -/
theorem storedChunks_eq (s : State) (t : ETy) (m : Option MNum) (items : List (Word × Nat × Nat)) :
    (items.zipIdx.flatMap fun i =>
      if t.width = 4 then [blend (s.chunkMask t m i.1.2.2)
        ((((items.flatMap fun e => (s.cx.chunkCells (chunkBytes t) e.1).map FolCell.fol).map (s.co.readCell false))[i.2]?).getD 0) (BitVec.ofNat 8 i.1.2.1)]
      else leBytes (chunkBytes t) i.1.2.1)
    = items.flatMap fun e => s.storedChunk t m (SMap.get 0 s.co.folio (leafByte ((s.cx.leafAt e.1).getD 0) (e.1.toNat + 0))) e := by
  by_cases h4 : t.width = 4
  · have hone : chunkBytes t = 1 := by rw [chunkBytes, h4]; rfl
    have holds : (items.flatMap fun e => (s.cx.chunkCells (chunkBytes t) e.1).map FolCell.fol).map (s.co.readCell false)
        = items.map fun e => SMap.get 0 s.co.folio (leafByte ((s.cx.leafAt e.1).getD 0) (e.1.toNat + 0)) := by
      rw [hone, List.map_flatMap, List.map_eq_flatMap]
      rfl
    simp only [h4, if_true, holds, State.storedChunk]
    exact flatMap_zipIdx_getD items _ 0 fun old e => [blend (s.chunkMask t m e.2.2) old (BitVec.ofNat 8 e.2.1)]
  · simp only [h4, if_false, State.storedChunk]
    exact flatMap_zipIdx_getD items (fun _ => ()) () fun _ e => leBytes (chunkBytes t) e.2.1

section
variable {s : State} {t : ETy} {m : Option MNum} {addrs : List Word} {data : List Nat}

theorem vecStore_misaligned {a : Word}
    (h : (s.chunkAddrs t m addrs).find? (fun e => e.any fun a => decide (a.toNat % chunkBytes t ≠ 0)) = some (some a)) :
    TakesTrap s (.next (vecStore s t true m addrs data)) 0x08 0 a := by
  have hfind : ∀ p : Option Word → Bool, (∀ e, p e = e.any fun a => decide (a.toNat % chunkBytes t ≠ 0)) →
      (s.chunkAddrs t m addrs).find? p = some (some a) := fun p hp => by rw [funext hp, h]
  unfold vecStore
  simp only [if_true]
  split
  next e he =>
    have heq : e = some a := Option.some.inj (he.symm.trans (hfind _ fun e => by cases e <;> simp [aligned]))
    rw [heq]
    exact trap_takes s _ _ _
  next hnone => cases hnone.symm.trans (hfind _ fun e => by cases e <;> simp [aligned])

theorem vecStore_resident (h : ∀ a, some a ∈ s.chunkAddrs t m addrs → s.chunkOk (chunkBytes t) a) :
    Completes s (.next (vecStore s t true m addrs data)) (s.modCo fun k => k.writeCells false
      ((storeItems (s.chunkAddrs t m addrs) data).flatMap fun e => (s.cx.chunkCells (chunkBytes t) e.1).map .fol)
      ((storeItems (s.chunkAddrs t m addrs) data).flatMap fun e =>
        s.storedChunk t m (SMap.get 0 s.co.folio (leafByte ((s.cx.leafAt e.1).getD 0) (e.1.toNat + 0))) e)).retire := by
  refine ⟨congrArg Host.Outcome.next ?_, fun _ => rfl⟩
  obtain ⟨items, hitems⟩ : ∃ items, items = storeItems (s.chunkAddrs t m addrs) data := ⟨_, rfl⟩
  have hok : ∀ a ∈ items.map (·.1), s.chunkOk (chunkBytes t) a := fun a ha => by
    obtain ⟨e, he, rfl⟩ := List.mem_map.mp ha
    exact h _ (mem_storeItems (hitems ▸ he))
  have hacc := folAccess_chunks (chunkBytes_dvd t) (Bool.false_and s.cx.diag) hok
  rw [List.flatMap_map] at hacc
  have hcells : ((items.map (·.1)).flatMap (s.cx.chunkCells (chunkBytes t))).map FolCell.fol =
      items.flatMap fun e => (s.cx.chunkCells (chunkBytes t) e.1).map .fol := by
    rw [List.map_flatMap, List.flatMap_map]
  rw [hcells] at hacc
  unfold vecStore
  simp only [if_true]
  split
  next e he =>
    have hm := List.mem_of_find?_eq_some he
    have hp := List.find?_some he
    cases e with
    | none => cases hp
    | some a => exact absurd (h a hm).1 (by simpa [aligned] using hp)
  next =>
    have hfold : ((s.chunkAddrs t m addrs).zip data).zipIdx.filterMap (fun e => e.1.1.map fun a => (a, e.1.2, e.2)) = items := hitems.symm
    simp only [hfold]
    rw [withFolWrite_resident 3 _ _ (Bool.false_and _) hacc, hacc, ← hitems, storedChunks_eq s t m items]

end

theorem folIndexed_eq (s : State) (a : AReg) (b : SReg) (disp : BitVec 32) (size : Fin 4) :
    s.folIndexed a b disp size = s.getA a + disp.signExtend 64 + s.getS b * BitVec.ofNat 64 (2 ^ size.val) := by
  have hpow : (2 : Word) ^ size.val = BitVec.ofNat 64 (2 ^ size.val) := by rw [BitVec.ofNat_pow]; rfl
  rw [State.folIndexed, baseDisp, shiftLeft_eq_mul_pow, hpow]

/-- An access in one resident leaf is of a chunk that is there. -/
theorem InLeaf.chunkOk {s : State} {o : Word} {n p : Nat} (ho : o.toNat % n = 0) (h : InLeaf s o n p) :
    s.cx.diag = false ∧ s.chunkOk n o ∧ s.cx.leafAt o = some p := by
  obtain ⟨hd, hlen, hleaf, hgood⟩ := h
  have hat : s.cx.leafAt o = some p := hleaf
  exact ⟨hd, ⟨ho, hlen, by simp [hat], by rw [hat]; exact hgood⟩, hat⟩

/-- Settles O39: aligned accesses as chunks, by what the resolved access meets: bytes of resident leaves, offsets past the leaves, or a spilled leaf. -/
theorem folioAccess : Obligations.FolioAccess := by
  refine ⟨fun s d b a disp oc size sx => ?_, fun s d b a disp oc size => ?_, fun s d b c r ty sz scl m hm => ?_⟩
  · intro n o out hout
    have hload : out = folLoad s d o size sx := by
      rcases hout with ⟨rfl, rfl⟩ | ⟨rfl, rfl⟩
      · rfl
      · rw [← folIndexed_eq]; rfl
    rw [hload]
    refine ⟨folLoad_misaligned, fun ho p hp => ?_, fun ho hd h => folLoad_out hd ho h, fun ho hd h hl => folLoad_spilled hd ho h hl⟩
    obtain ⟨hd, hok, hat⟩ := InLeaf.chunkOk ho hp
    have hres := @folLoad_resident s d o size sx hd hok
    rw [Ctx.chunkCells, hat, List.map_map] at hres
    exact hres
  · intro n o v out hout
    have hstore : out = folStore s v o size := by
      rcases hout with ⟨rfl, rfl, rfl⟩ | ⟨rfl, rfl, rfl⟩
      · rfl
      · rw [← folIndexed_eq]; rfl
    rw [hstore]
    refine ⟨folStore_misaligned, fun ho p hp => ?_, fun ho hd h => folStore_out hd ho h⟩
    obtain ⟨hd, hok, hat⟩ := InLeaf.chunkOk ho hp
    have hres := @folStore_resident s v o size hd hok
    rw [hat] at hres
    exact hres
  · obtain ⟨mem, folio, mask⟩ := m
    obtain rfl : folio = true := hm
    intro g n ea leaf cell good want traps fits loads stores contiguous strided
    have hloads : ∀ g addrs, loads (.next (vecLoad s ty true mask d g addrs)) g addrs := fun g addrs =>
      ⟨fun k a hk ha hfits => vecLoad_misaligned d g hk ha hfits, fun hi hx hgood => by
        have hres := @vecLoad_resident s ty mask addrs d g hi hx hgood
        simp only [Ctx.chunkCells, List.map_map] at hres
        exact hres⟩
    have hstores : ∀ addrs data, stores (.next (vecStore s ty true mask addrs data)) addrs data := fun addrs data =>
      ⟨fun a h => vecStore_misaligned h, fun hgood => by
        have hres := @vecStore_resident s ty mask addrs data hgood
        simp only [Ctx.chunkCells, List.map_map] at hres
        exact hres⟩
    have hone : s.storeData ty c 1 = lanesOf (8 * n) (512 / n) (s.groupNat c 1) := by rw [State.storeData, one_mul]; rfl
    exact ⟨hloads _ _, hloads _ _, hloads _ _, hstores _ _, hone ▸ hstores _ _, hone ▸ hstores _ _⟩

end Sys2Proof.Machine

/-! ## Writes of special registers (R72-R75, R106, R108, R184, R189, R352, R368, R370, R415, R423, R426) -/

namespace Sys2Proof.Machine

/-- A CRW row at its register's level completes as its write does; below the level it raises PRIV_FAULT (R65, R135). -/
theorem crwReg_atLevel {r : CReg} {a : SReg} {s t : State} {n : Nat} (hn : r.level true = n) (ht : crWrite s r (s.getS a) State.retire = t)
    (hm : t.mem = s.mem) : AtLevel s n (crwReg r a s) t := by
  rw [crwReg, hn, ht]
  refine ⟨fun hp => ⟨by rw [atPriv_of_le t hp], rawByte_of_mem hm⟩, fun hp => ?_⟩
  rw [atPriv_of_lt t (Nat.lt_of_not_le hp)]
  exact trap_takes s _ _ _

/-- A row that writes fields of the strand's core; only what the write makes of that core matters. -/
theorem coreWrite_atLevel {r : CReg} {a : SReg} {s : State} {n : Nat} {f g : Core → Core} (hn : r.level true = n)
    (hw : crWrite s r (s.getS a) State.retire = (s.modCo f).retire) (h : f s.co = g s.co) : AtLevel s n (crwReg r a s) (s.modCo g).retire :=
  crwReg_atLevel hn (hw.trans (congrArg State.retire (modCo_congr h))) rfl

/-! ### Clamped fields (R352, R370, R423) -/

theorem fld_eq_toNat {hi lo w : Nat} (v : Word) (h : hi + 1 - lo = w) : fld v hi lo = (v.extractLsb' lo w).toNat := by
  rw [fld, h, BitVec.extractLsb'_toNat]

theorem ofNat_fld {hi lo w : Nat} (v : Word) (h : hi + 1 - lo = w) : BitVec.ofNat w (fld v hi lo) = v.extractLsb' lo w := by
  rw [fld_eq_toNat v h, BitVec.ofNat_toNat, BitVec.setWidth_eq]

theorem atLeast_eq_max {hi lo w : Nat} (v : Word) (k : Nat) (h : hi + 1 - lo = w) :
    (if fld v hi lo < k then BitVec.ofNat w k else v.extractLsb' lo w) = BitVec.ofNat w (max k (fld v hi lo)) := by
  split
  case isTrue hk => rw [Nat.max_eq_left (Nat.le_of_lt hk)]
  case isFalse hk => rw [Nat.max_eq_right (Nat.le_of_not_lt hk), ofNat_fld v h]

theorem atMost_eq_min {hi lo w : Nat} (v : Word) (k : Nat) (h : hi + 1 - lo = w) :
    (if fld v hi lo > k then BitVec.ofNat w k else v.extractLsb' lo w) = BitVec.ofNat w (min k (fld v hi lo)) := by
  split
  case isTrue hk => rw [Nat.min_eq_left (Nat.le_of_lt hk)]
  case isFalse hk => rw [Nat.min_eq_right (Nat.le_of_not_lt hk), ofNat_fld v h]

theorem clampN_eq {lo hi : Nat} (h : lo ≤ hi) (n : Nat) : clampN lo hi n = max lo (min hi n) := by
  unfold clampN
  split
  · omega
  · split <;> omega

/-! ### Registers of a core (R72-R75, R106, R108, R352, R370) -/

theorem writeFolioDiag_eq (s : State) (v : Word) :
    writeFolioDiag s v = if v.getLsbD 0 ∧ ¬(s.co.slots.length = 1 ∧ s.cx.leaves.length = 96 ∧ s.cx.leaves.all (·.phys.isSome)) then s
      else s.modCx fun x => { x with diag := v.getLsbD 0 } := by
  unfold writeFolioDiag
  cases hv : v.getLsbD 0
  case false => rfl
  case true =>
    by_cases hsole : s.co.slots.length = 1 ∧ s.cx.leaves.length = 96 ∧ s.cx.leaves.all (·.phys.isSome)
    · rw [if_pos rfl, if_pos hsole, if_neg fun h => h.2 hsole]
    · rw [if_pos rfl, if_neg hsole, if_pos ⟨rfl, hsole⟩]

theorem offer_refused (k : Core) {v : Word}
    (h : recordOk v = false ∨ (k.repair.any fun r => fld r 63 40 = fld v 63 40) = true) : k.offer v = k := by
  unfold Core.offer
  cases hok : recordOk v
  case false => rfl
  case true => exact if_pos (h.resolve_left (by simp [hok]))

theorem offer_new (k : Core) {v : Word} (hok : recordOk v = true) (hnew : (k.repair.any fun r => fld r 63 40 = fld v 63 40) = false) :
    k.offer v = if k.repair.length < 16 then { k with repair := k.repair ++ [v] } else { k with ovf := true } := by
  simp only [Core.offer, hok, hnew, Bool.not_true, Bool.false_eq_true, if_false]
  by_cases hroom : k.repair.length < 16
  · rw [if_pos hroom, if_neg (Nat.not_le_of_lt hroom)]
  · rw [if_neg hroom, if_pos (Nat.le_of_not_lt hroom)]

theorem writeRepairCtl_table (k : Core) {v : Word} (h8 : v.getLsbD 8 = true) (h9 : v.getLsbD 9 = false) :
    k.writeRepairCtl v = { k with repairSel := v.extractLsb' 0 4, repair := [], ovf := false } := by
  simp only [Core.writeRepairCtl, h8, h9, if_true, Bool.false_eq_true, if_false]

theorem writeRepairCtl_summary (k : Core) {v : Word} (h8 : v.getLsbD 8 = false) (h9 : v.getLsbD 9 = true) :
    k.writeRepairCtl v = { k with repairSel := v.extractLsb' 0 4, done := false, fail := false, semok := false, vecok := false, folok := false } := by
  simp only [Core.writeRepairCtl, h8, h9, if_true, Bool.false_eq_true, if_false]

theorem writeTduCtl_eq (k : Core) (v : Word) : k.writeTduCtl v =
    { k with stall := BitVec.ofNat 16 (max 1 (fld v 63 48)), bcap := BitVec.ofNat 32 (max 256 (fld v 47 16)),
             shlim := BitVec.ofNat 8 (min 224 (fld v 15 8)),
             lanes := if fld v 2 0 = 0 ∨ 4 < fld v 2 0 then k.lanes else BitVec.ofNat 3 (fld v 2 0) } := by
  have hlanes : (if 1 ≤ fld v 2 0 ∧ fld v 2 0 ≤ 4 then v.extractLsb' 0 3 else k.lanes)
      = if fld v 2 0 = 0 ∨ 4 < fld v 2 0 then k.lanes else BitVec.ofNat 3 (fld v 2 0) := by
    rw [ofNat_fld v (show 2 + 1 - 0 = 3 from rfl)]
    by_cases hl : fld v 2 0 = 0 ∨ 4 < fld v 2 0
    · rw [if_pos hl, if_neg (by omega)]
    · rw [if_neg hl, if_pos (by omega)]
  rw [Core.writeTduCtl, hlanes, ← atLeast_eq_max v 1 (show 63 + 1 - 48 = 16 from rfl), ← atLeast_eq_max v 256 (show 47 + 1 - 16 = 32 from rfl),
    ← atMost_eq_min v 224 (show 15 + 1 - 8 = 8 from rfl)]
  simp only [Nat.lt_one_iff]
  rfl

theorem writePreCtl_eq (k : Core) (v : Word) : k.writePreCtl v =
    { k with grace := BitVec.ofNat 32 (max 1 (fld v 63 32)), killt := BitVec.ofNat 32 (max 1 (fld v 31 0)) } := by
  rw [Core.writePreCtl, ← atLeast_eq_max v 1 (show 63 + 1 - 32 = 32 from rfl), ← atLeast_eq_max v 1 (show 31 + 1 - 0 = 32 from rfl)]
  simp only [Nat.lt_one_iff]
  rfl

theorem writePool_set (k : Core) {v : Word} (i : Fin 12) (hi : fld v 63 60 = i.val) (hset : v.getLsbD 58 = true) :
    k.writePool v = if k.pool[i].st = .inuse then k
      else { k with poolSel := v.extractLsb' 60 4, pool := k.pool.set i { st := .free, ma := v &&& 0x000FFFFFFFE00000 } } := by
  simp only [Core.writePool, hi, i.isLt, hset, Bool.not_true, Bool.false_eq_true, if_false, dite_true]
  rfl

/-! ### Invalidation (R184) -/

/-- Where no store is held for a commit, there is no translation to make anew. -/
theorem renewStores_of_empty {s : State} (names : Xl → Bool)
    (h : ∀ c ∈ s.contexts, ∀ t ∈ c.2.tasks, t.2.stores = []) : renewStores s names = s := by
  unfold renewStores
  refine List.foldlRecOn (motive := (· = s)) _ _ rfl fun u hu c hc => ?_
  refine List.foldlRecOn (motive := (· = s)) _ _ hu fun u hu t ht => ?_
  rw [if_pos (by simp [h c hc t ht])]
  exact hu

theorem writeInval_refused {s : State} {v : Word} (go : State → State) (h2 : 2 ≤ fld v 7 6) (hp : s.cx.priv.val = 0) :
    writeInval s v go = s.privFault := by
  rw [writeInval, if_pos (by simp [h2, State.hasPriv, hp])]

theorem writeInval_allowed {s : State} {v : Word} (go : State → State) (hp : fld v 7 6 < 2 ∨ 1 ≤ s.cx.priv.val) :
    writeInval s v go = if fld v 7 6 = 0 then go s
      else go (renewStores s (invalNames (if v.extractLsb' 48 16 = 0xFFFF then s.here else (v.extractLsb' 48 16).toNat)
        (if fld v 7 6 = 1 then s.cx.asid else s.st.xlateTarget) v)) := by
  rw [writeInval, if_neg (by simp only [State.hasPriv, Bool.and_eq_true, Bool.not_eq_true', decide_eq_true_eq, decide_eq_false_iff_not]; omega)]

theorem xlateInval_eq (s : State) (a : SReg) : exec (.xlateInval a) s = .next (writeInval s (s.getS a) State.retire) := by
  have hexec : exec (.xlateInval a) s = crwReg .xlateInval a s := rfl
  rw [hexec, crwReg, show CReg.level .xlateInval true = 0 from rfl, atPriv_of_le _ (Nat.zero_le _)]
  rfl

/-! ### The currency tree (R352) -/

section
variable {s : State} {v : Word} (hn : s.st.curSel.toNat > 1)
include hn

theorem writeCurDef_create (hv : v.getLsbD 63 = true) (hnone : SMap.find s.currencies s.st.curSel.toNat = none) {p : Currency}
    (hp : s.currency (fld v 59 48) = some p) (hl : p.level.val ≤ 2) :
    writeCurDef s v = { s with
      currencies := SMap.set s.currencies s.st.curSel.toNat ⟨Fin.ofNat 4 (p.level.val + 1), v.extractLsb' 48 12, v.extractLsb' 0 32⟩ } := by
  simp only [writeCurDef, if_neg (Nat.not_le_of_lt hn), hv, if_true, hnone, hp, if_pos hl]

theorem writeCurDef_rate (hv : v.getLsbD 63 = true) {c : Currency} (hc : SMap.find s.currencies s.st.curSel.toNat = some c) :
    writeCurDef s v = { s with currencies := SMap.set s.currencies s.st.curSel.toNat { c with rate := v.extractLsb' 0 32 } } := by
  simp only [writeCurDef, if_neg (Nat.not_le_of_lt hn), hv, if_true, hc]

theorem writeCurDef_delete (hv : v.getLsbD 63 = false) (hu : currencyUsed s s.st.curSel.toNat = false) :
    writeCurDef s v = { s with currencies := SMap.erase s.currencies s.st.curSel.toNat } := by
  simp only [writeCurDef, if_neg (Nat.not_le_of_lt hn), hv, hu, Bool.false_eq_true, if_false]

end

/-! ### Pinned leaves (R355, R370) -/

theorem mem_putCtx (s : State) (ref : CtxRef) (x : Ctx) : (s.putCtx ref x).mem = s.mem := by cases ref <;> rfl

section
variable {s : State} {v : Word} {ref : CtxRef} {x : Ctx} {l : Leaf} (go : State → State) (hs : s.selected = some ref) (hx : s.findCtx ref = some x)
  (hl : x.leaves[fld v 6 0]? = some l)
include hs hx hl

theorem writeLeafPin_resident (hv : v.getLsbD 8 = true) (hp : l.phys.isSome = true) :
    writeLeafPin s v go = go (s.putCtx ref (x.setLeaf (fld v 6 0) { l with pinned := true })) := by
  obtain ⟨p, hp⟩ := Option.isSome_iff_exists.mp hp
  simp only [writeLeafPin, hs, hx, hl, hv, hp, if_true]

theorem writeLeafPin_release (hv : v.getLsbD 8 = false) :
    writeLeafPin s v go = go (s.putCtx ref (x.setLeaf (fld v 6 0) { l with pinned := false })) := by
  simp only [writeLeafPin, hs, hx, hl, hv, Bool.false_eq_true, if_false]

end

/-! ### Key loads (R415, R426) -/

/-- What the blob at cr.key.src unwraps to under the wrapping key: the integrity word and the keys. -/
def State.unwrapped (s : State) : List Byte × List Byte :=
  keyUnwrap (keyBytes (Config.wrapKey.setWidth 768) 0) 12 (s.readMa s.pkgOwner (fld s.st.keySrc 51 6 * 64) 104)

/-- The SLOT and PROT fields of a write of cr.key.ctl. -/
def Strand.selectKey (t : Strand) (v : Word) : Strand := { t with keySel := v.extractLsb' 0 11, keyProt := v.getLsbD 62 }

theorem unwrapped_selectKey (s : State) (v : Word) : (s.modSt (·.selectKey v)).unwrapped = s.unwrapped := by
  simp only [State.unwrapped, st_modSt]
  rfl

/-- A write with LOAD judges the unwrapped blob, then fills the slot or reports BAD. -/
theorem writeKeyCtl_of_load (s : State) {v : Word} (hv : v.getLsbD 63 = true) :
    writeKeyCtl s v =
      let t := s.modSt (·.selectKey v)
      let bad := t.unwrapped.1 != List.replicate 8 0xA6 || (SMap.get {} s.keys (fld v 10 0)).st == .live || (v.getLsbD 62 && !t.hasPriv 2)
      let u := t.modSt fun x => { x with keyBad := bad }
      if bad then u
      else { u with keys := SMap.set s.keys (fld v 10 0) { st := .live, prot := v.getLsbD 62, keys := BitVec.ofNat 768 (leNat t.unwrapped.2) } } := by
  simp only [writeKeyCtl, hv, if_true]
  rfl

/-- What a load leaves in the strand: the fields it wrote, and whether the load was BAD. -/
def Strand.noteKey (t : Strand) (v : Word) (bad : Bool) : Strand := { t.selectKey v with keyBad := bad }

theorem retire_noteKey (t : Strand) (v : Word) (bad : Bool) (n : Nat) :
    (t.noteKey v bad).retire n = { t.retire n with keySel := v.extractLsb' 0 11, keyProt := v.getLsbD 62, keyBad := bad } := by
  rw [retire_of t (t.noteKey v bad) n (by simp [Strand.noteKey, Strand.selectKey]), retire_eq t n]
  rfl

/-- The package once a blob without PROT is judged: its slot is filled where the blob is genuine. -/
def State.keyFilled (s : State) (slot : Nat) : State :=
  if s.unwrapped.1 = List.replicate 8 0xA6 then
    { s with keys := SMap.set s.keys slot { st := .live, prot := false, keys := BitVec.ofNat 768 (leNat s.unwrapped.2) } }
  else s

theorem keyFilled_frame (s : State) (slot : Nat) : (s.keyFilled slot).mem = s.mem ∧ (s.keyFilled slot).st = s.st := by
  unfold State.keyFilled
  split <;> exact ⟨rfl, rfl⟩

section
variable {s : State} {v : Word} (hv : v.getLsbD 63 = true) (hp : v.getLsbD 62 = false) (hl : (SMap.get {} s.keys (fld v 10 0)).st ≠ .live)
include hv hp hl

theorem writeKeyCtl_unprotected :
    writeKeyCtl s v = (s.keyFilled (fld v 10 0)).modSt (·.noteKey v (s.unwrapped.1 != List.replicate 8 0xA6)) := by
  have hlive : ((SMap.get {} s.keys (fld v 10 0)).st == KeyState.live) = false := by simpa using hl
  rw [writeKeyCtl_of_load s hv]
  simp only [unwrapped_selectKey, hlive, hp, Bool.false_and, Bool.or_false, modSt_modSt, State.keyFilled, bne_iff_ne]
  by_cases hgood : s.unwrapped.1 = List.replicate 8 0xA6
  · rw [if_neg (not_not.mpr hgood), if_pos hgood]
    rfl
  · rw [if_pos hgood, if_neg hgood]
    rfl

end

theorem keyLoad_completes {s : State} {a : SReg} (hv : (s.getS a).getLsbD 63 = true) (hp : (s.getS a).getLsbD 62 = false)
    (hl : (SMap.get {} s.keys (fld (s.getS a) 10 0)).st ≠ .live) (hpriv : 1 ≤ s.cx.priv.val) :
    ∃ t, exec (.keyLoad a) s = .next t ∧ t = (s.keyFilled (fld (s.getS a) 10 0)).modSt (fun _ => t.st) ∧ (∀ k, t.rawByte k = s.rawByte k)
      ∧ t.st = { s.st.retire 1 with keySel := (s.getS a).extractLsb' 0 11, keyProt := false, keyBad := s.unwrapped.1 != List.replicate 8 0xA6 } := by
  obtain ⟨hmem, hst⟩ := keyFilled_frame s (fld (s.getS a) 10 0)
  have hwrite : crWrite s .keyCtl (s.getS a) State.retire =
      (s.keyFilled (fld (s.getS a) 10 0)).modSt fun t => (t.noteKey (s.getS a) (s.unwrapped.1 != List.replicate 8 0xA6)).retire 1 := by
    have hgo : crWrite s .keyCtl (s.getS a) State.retire = (writeKeyCtl s (s.getS a)).retire := rfl
    rw [hgo, writeKeyCtl_unprotected hv hp hl, State.retire, modSt_modSt]
  obtain ⟨hexec, hraw⟩ := (crwReg_atLevel rfl hwrite ((mem_modStrandAt _ _ _).trans hmem)).1 hpriv
  refine ⟨_, hexec, (modSt_st _ _).symm, hraw, ?_⟩
  rw [st_modSt, hst, retire_noteKey, hp]

/-! ### Plane loads (R368) -/

/-- Updating the cores that a mask names leaves memory, the focus and every other core alone. -/
theorem foldl_modCore_masked (mask : Nat) (f : Core → Core) (l : List Nat) (s : State) :
    let t := l.foldl (fun s c => if mask.testBit c then s.modCore c f else s) s
    t.mem = s.mem ∧ t.focus = s.focus ∧ ∀ c, mask.testBit c = false → t.core c = s.core c := by
  induction l generalizing s with
  | nil => exact ⟨rfl, rfl, fun _ _ => rfl⟩
  | cons d l ih =>
    cases hd : mask.testBit d
    case false => simpa [hd] using ih s
    case true =>
      obtain ⟨hmem, hfocus, hcore⟩ := ih (s.modCore d f)
      simp only [List.foldl_cons, hd, if_true]
      refine ⟨hmem, hfocus, fun c hc => ?_⟩
      rw [hcore c hc, core_modCore_other]
      rintro rfl
      simp [hd] at hc

theorem writePlaneLoad_frame (s : State) (v : Word) :
    (writePlaneLoad s v).mem = s.mem ∧ (writePlaneLoad s v).focus = s.focus
    ∧ ∀ c, (leNat ((s.readMa s.pkgOwner (fld v 51 6 * 64) 64).drop 16)).testBit c = false → (writePlaneLoad s v).core c = s.core c :=
  foldl_modCore_masked _ _ _ _

theorem core_retire_other (s : State) {c : Nat} (h : c ≠ s.focus.core) : s.retire.core c = s.core c := core_modCore_other s _ _ _ h

theorem planeLoad_completes {s : State} (a : SReg) (hp : 2 ≤ s.cx.priv.val) :
    ∃ t, exec (.planeLoad a) s = .next t ∧ (∀ k, t.rawByte k = s.rawByte k)
    ∧ ∀ c, c ≠ s.focus.core → (leNat ((s.readMa s.pkgOwner (fld (s.getS a) 51 6 * 64) 64).drop 16)).testBit c = false → t.core c = s.core c := by
  obtain ⟨hmem, hfocus, hcore⟩ := writePlaneLoad_frame s (s.getS a)
  obtain ⟨hexec, hraw⟩ := (crwReg_atLevel (r := .planeLoad) (a := a) rfl rfl ((mem_modStrandAt (writePlaneLoad s (s.getS a)) _ _).trans hmem)).1 hp
  exact ⟨_, hexec, hraw, fun c hc hm => (core_retire_other _ (hfocus ▸ hc)).trans (hcore c hm)⟩

/-- Settles O11: each row is its register's write at its register's level; what the write does is the lemma of that register. -/
theorem specialRegisterWrites : Obligations.SpecialRegisterWrites := by
  refine ⟨fun s a => ⟨?folioDiag, fun h => ?repairRefused, fun hok hnew => ?repairNew, fun h8 h9 => ?repairTable, fun h9 h8 => ?summary,
      ?folioInject, ?hintMode, ?tduCtl, ?preCtl, fun i hi hset => ?poolBlock⟩,
    fun s a => ⟨?powerLimit, ?thermLimit, ?frameSelect, ?viLog, fun h0 => ?invalNothing, fun hp hnone => ?invalEmpty, fun h0 hp => ?invalRenews,
      fun h2 hp => ?invalRefused, fun hn hv hnone p hp hl => ?currencyCreate, fun hn hv c hc => ?currencyRate, fun hn hv hu => ?currencyDelete⟩,
    fun s a => ⟨fun ref x l hs hx hl => ⟨fun hv hp => ?leafPin, fun hv => ?leafUnpin⟩, fun hv hp hl => ?keyLoad, planeLoad_completes a⟩⟩
  case folioDiag =>
    refine crwReg_atLevel rfl ((congrArg State.retire (writeFolioDiag_eq s _)).trans (apply_ite State.retire _ _ _)) ?_
    split <;> rfl
  case repairRefused => exact coreWrite_atLevel rfl rfl (offer_refused _ h)
  case repairNew => exact coreWrite_atLevel rfl rfl (offer_new _ hok hnew)
  case repairTable => exact coreWrite_atLevel rfl rfl (writeRepairCtl_table _ h8 h9)
  case summary => exact coreWrite_atLevel rfl rfl (writeRepairCtl_summary _ h8 h9)
  case folioInject => exact crwReg_atLevel rfl rfl rfl
  case hintMode => exact crwReg_atLevel rfl rfl rfl
  case tduCtl => exact coreWrite_atLevel rfl rfl (writeTduCtl_eq _ _)
  case preCtl => exact coreWrite_atLevel rfl rfl (writePreCtl_eq _ _)
  case poolBlock => exact coreWrite_atLevel rfl rfl (writePool_set _ i hi hset)
  case powerLimit =>
    rw [← clampN_eq (show 1600 ≤ 3200 by decide)]
    exact crwReg_atLevel rfl rfl rfl
  case thermLimit =>
    rw [← clampN_eq (show 70 ≤ 105 by decide)]
    exact crwReg_atLevel rfl rfl rfl
  case frameSelect => exact crwReg_atLevel rfl rfl rfl
  case viLog => exact crwReg_atLevel rfl rfl rfl
  case invalNothing => exact crwReg_atLevel rfl ((writeInval_allowed _ (.inl (by omega))).trans (if_pos h0)) rfl
  case invalEmpty =>
    refine crwReg_atLevel rfl ((writeInval_allowed _ hp).trans ?_) rfl
    rw [renewStores_of_empty _ hnone, ite_self]
  case invalRenews => rw [xlateInval_eq, writeInval_allowed _ hp, if_neg h0]
  case invalRefused =>
    rw [xlateInval_eq, writeInval_refused _ h2 hp]
    exact trap_takes s _ _ _
  case currencyCreate => exact crwReg_atLevel rfl (congrArg State.retire (writeCurDef_create hn hv hnone hp hl)) rfl
  case currencyRate => exact crwReg_atLevel rfl (congrArg State.retire (writeCurDef_rate hn hv hc)) rfl
  case currencyDelete => exact crwReg_atLevel rfl (congrArg State.retire (writeCurDef_delete hn hv hu)) rfl
  case leafPin => exact crwReg_atLevel rfl (writeLeafPin_resident _ hs hx hl hv hp) (mem_putCtx s ref _)
  case leafUnpin => exact crwReg_atLevel rfl (writeLeafPin_release _ hs hx hl hv) (mem_putCtx s ref _)
  case keyLoad =>
    intro u hpriv
    obtain ⟨t, hexec, ht, hraw, hst⟩ := keyLoad_completes hv hp hl hpriv
    refine ⟨t, hexec, fun hgood => ?_, fun hbad => ?_, hraw, hst⟩
    · rw [State.keyFilled, if_pos (show s.unwrapped.1 = _ from hgood)] at ht
      exact ht
    · rw [State.keyFilled, if_neg (show s.unwrapped.1 ≠ _ from hbad)] at ht
      exact ht

end Sys2Proof.Machine

/-! ## Resets, zeroisation and the boot (R107-R112, R392, R422) -/

namespace Sys2Proof.Machine

/-! ### Stores that are filtered, rewritten or listed afresh -/

/-- A filter by the key alone keeps or drops every entry of a key, also where a key stands twice. -/
theorem SMap.get_filter_kept {α : Type} (d : α) (m : SMap α) {p : Nat → Bool} {i : Nat} (h : p i = true) :
    SMap.get d (m.filter fun e => p e.1) i = SMap.get d m i := by
  induction m with
  | nil => rfl
  | cons e m ih =>
    by_cases he : i = e.1
    · subst he
      simp [SMap.get, h]
    · cases hp : p e.1 <;> simp [SMap.get, hp, he, ih]

theorem SMap.get_filter_dropped {α : Type} (d : α) (m : SMap α) {p : Nat → Bool} {i : Nat} (h : p i = false) :
    SMap.get d (m.filter fun e => p e.1) i = d := by
  induction m with
  | nil => rfl
  | cons e m ih =>
    cases hp : p e.1 with
    | false => simpa [hp] using ih
    | true =>
      have he : i ≠ e.1 := by
        rintro rfl
        simp [h] at hp
      simpa [SMap.get, hp, he] using ih

/-- Rewriting every value by its key reads as rewriting the value read, where the default of that key stays the default. -/
theorem SMap.get_map {α : Type} (d : α) (m : SMap α) (g : Nat → α → α) {i : Nat} (h : g i d = d) :
    SMap.get d (m.map fun e => (e.1, g e.1 e.2)) i = g i (SMap.get d m i) := by
  induction m with
  | nil => exact h.symm
  | cons e m ih =>
    by_cases he : i = e.1
    · subst he
      simp [SMap.get]
    · simpa [SMap.get, he] using ih

theorem SMap.get_listed {α : Type} (d : α) (f : Nat → α) {l : List Nat} {i : Nat} (h : i ∈ l) :
    SMap.get d (l.map fun c => (c, f c)) i = f i := by
  induction l with
  | nil => cases h
  | cons c l ih =>
    by_cases hc : i = c
    · subst hc
      simp [SMap.get]
    · simpa [SMap.get, hc] using ih ((List.mem_cons.mp h).resolve_left hc)

/-! ### Cores and dies after a package or power-on reset (R109, R392, R422) -/

theorem repair_holdProtected (k : Core) (core : Nat) : (k.holdProtected core).repair = k.repair := by
  unfold Core.holdProtected
  induction k.contexts core generalizing k with
  | nil => rfl
  | cons e l ih =>
    rw [List.foldl_cons, ih]
    split <;> rfl

/-- What a package reset gives a core whatever the core held; only its repair table may stay, and is lost at power-on (R107, R109). -/
theorem afterPackage_fields (k : Core) (core : Nat) (d : Die) (power : Bool) :
    let y := k.afterPackage core d power
    y.slots = [] ∧ y.shadows = [] ∧ y.zeroising = true ∧ y.resetCause = (if power then 1 else 2)
    ∧ y.repair = (if power then [] else k.repair) ∧ y.grace = 40000 ∧ y.lanes = 1 := by
  cases power <;> exact ⟨rfl, rfl, rfl, rfl, rfl, rfl, rfl⟩

theorem core_packageReset (s : State) (power : Bool) {c : Nat} (hc : c < 384) :
    (packageReset s power).core c = ((s.core c).holdProtected c).afterPackage c (s.die (s.package * 4 + c / 96)) power :=
  SMap.get_listed {} (fun c => ((s.core c).holdProtected c).afterPackage c (s.die (s.package * 4 + c / 96)) power) (List.mem_range.mpr hc)

theorem afterReset_default (power : Bool) : ({} : Die).afterReset power = {} := by cases power <;> rfl

/-- A die of the package is reset, whether or not it is listed: one that is not stands at its reset values already. -/
theorem die_packageReset (s : State) (power : Bool) {d : Nat} (hd : d < 4) :
    (packageReset s power).die (s.package * 4 + d) = (s.die (s.package * 4 + d)).afterReset power := by
  have hown : (s.package * 4 + d) / 4 = s.package := by omega
  refine (SMap.get_map {} s.dies (fun o d => if o / 4 = s.package then d.afterReset power else { d with waiters := [] }) ?_).trans ?_
  · rw [if_pos hown, afterReset_default]
  · rw [if_pos hown]
    rfl

/-! ### Memory over the resets (log 23) -/

/-- A power-on reset leaves the bytes outside the package's own HBM, and none of those inside. -/
theorem rawByte_powerOn (s : State) (k : Nat) :
    (packageReset s true).rawByte k = if k / 2 ^ 52 = s.package ∧ keyNear k = true then 0 else s.rawByte k := by
  split
  next h =>
    refine SMap.get_filter_dropped (p := fun k => !(decide (k / 2 ^ 52 = s.package) && keyNear k)) _ _ ?_
    rw [decide_eq_true h.1, h.2]
    rfl
  next h =>
    refine SMap.get_filter_kept (p := fun k => !(decide (k / 2 ^ 52 = s.package) && keyNear k)) _ _ ?_
    simpa only [Bool.not_eq_true', Bool.and_eq_false_imp, decide_eq_true_eq, not_and, Bool.not_eq_true] using h

theorem rawByte_packageReset_other (s : State) (power : Bool) {k : Nat} (h : k / 2 ^ 52 ≠ s.package ∨ keyNear k = false) :
    (packageReset s power).rawByte k = s.rawByte k := by
  cases power with
  | false => rfl
  | true =>
    refine (rawByte_powerOn s k).trans (if_neg ?_)
    rintro ⟨hown, hnear⟩
    exact h.elim (· hown) (by simp [hnear])

/-! ### One core's reset and the end of zeroisation (R107-R110) -/

theorem core_resetCore (s : State) (c : Nat) (code : BitVec 3) : ∃ k : Core, (resetCore s c code).core c = k.afterReset code :=
  ⟨_, core_modCore ..⟩

theorem resetCore_empty {s : State} {c : Nat} (code : BitVec 3) (h : (s.core c).contexts c = []) :
    resetCore s c code = s.modCore c (·.afterReset code) := by
  rw [resetCore, h, List.foldl_nil]

theorem coreReset_exec (s : State) {c : Nat} (hc : c < 384) : exec (.coreReset c) s = .next (resetCore s c 4) :=
  congrArg Host.Outcome.next (if_pos hc)

theorem zeroisationComplete_idle {s : State} {c : Nat} (h : (s.core c).zeroising = false) : exec (.zeroisationComplete c) s = .next s :=
  if_pos (by rw [h]; rfl)

theorem zeroisationComplete_ends {s : State} {c : Nat} (h : (s.core c).zeroising = true) :
    exec (.zeroisationComplete c) s = .next (s.modCore c fun k =>
      { k.applyRepair with folio := [], folioPoison := [], flips := [], opfolio := [], opPoison := [], idleV := [], idleSem := [], inject := 0, zeroising := false }) :=
  if_neg (by rw [h]; decide)

/-! ### HBM training ends (R111 steps 2 and 3) -/

theorem hbmTraining_notDue {s : State} (h : s.boot ≠ 2) : exec .hbmTrainingComplete s = .next s := if_pos h

/-- Steps 2 and 3 for one core: after a power-on its table is offered again and it is reset once more, and the pool is filled. -/
def trainCore (power : Bool) (s : State) (c : Nat) : State :=
  (if power then resetCore (s.modCore c fun k => (SMap.get [] s.repairStore c).foldl Core.offer { k with repair := [] }) c 4 else s).modCore c (·.fillPool c)

theorem hbmTraining_due {s : State} (h : s.boot = 2) :
    exec .hbmTrainingComplete s = .next (continueBoot { allCores.foldl (trainCore s.powerUp) s with boot := 4 }) :=
  if_neg (not_not.mpr h)

/-! ### The end of the boot march (R111 step 5, R112) -/

theorem fateOf_fence {k : Core} (known : List Word) (second : Bool) (h : k.done = false ∨ k.ovf = true ∨ k.unrep = true) :
    fateOf k known second = .fence := by
  refine if_pos ?_
  rcases h with h | h | h <;> simp [h]

theorem fateOf_passed {k : Core} (known : List Word) (second : Bool) (hd : k.done = true) (ho : k.ovf = false) (hu : k.unrep = false)
    (hf : k.fail = false) : fateOf k known second = .available := by
  simp [fateOf, hd, ho, hu, hf]

/-- A core that failed runs the march again once, and only for a record that the repair store did not hold. -/
theorem fateOf_failed {k : Core} (known : List Word) (second : Bool) (hd : k.done = true) (ho : k.ovf = false) (hu : k.unrep = false)
    (hf : k.fail = true) : fateOf k known second = if second = false ∧ ∃ r ∈ k.repair, r ∉ known then .retest else .fence := by
  cases second <;> simp [fateOf, hd, ho, hu, hf]

/-- The cores of the march's round, each with its fate decided. -/
def marchDecided (s : State) : State :=
  ((if s.retested = [] then allCores else s.retested).filter fun c => !(s.core c).fenced).foldl applyFate s

theorem bootMarch_waits {s : State} (h : s.boot ≠ 5 ∨ (marchOver s = false ∧ s.time < s.marchAt + 80000000)) :
    exec .bootMarchTimeout s = .next s :=
  if_pos (by rcases h with h | ⟨hm, ht⟩ <;> simp [*])

theorem bootMarch_due {s : State} (hb : s.boot = 5) (h : marchOver s = true ∨ s.marchAt + 80000000 ≤ s.time) :
    exec .bootMarchTimeout s = if (marchDecided s).retested = s.retested then .next { marchDecided s with boot := 7, hypLoaded := Config.imageAccepted 2 }
      else .next { marchDecided s with marchAt := s.time } :=
  if_neg (by rcases h with h | h <;> simp [hb, h])

/-- Settles O51: cores, dies and memory after a reset each read back from what the reset lists; the boot's two events by whether they are due. -/
theorem resetAndBoot : Obligations.ResetAndBoot := by
  refine ⟨⟨fun s power => ⟨packageReset s power, ?powerOn, ?package, rfl, rfl, rfl, rfl, rfl, rfl, rfl, rfl, rfl, rfl, fun c hc => ?cores, fun d hd => ?dies,
        ?kept, ?keys, ?cleared, fun k hk => rawByte_packageReset_other s power hk⟩,
      fun s c => ⟨fun hc => ⟨_, coreReset_exec s hc, ?coreState⟩, fun hc he => ?coreEmpty, zeroisationComplete_idle, zeroisationComplete_ends⟩⟩,
    fun s => ⟨hbmTraining_notDue, fun hb hp => ?trained, fun hb hp => ?trainedPowerOn, bootMarch_waits, fun hb hd => ?march⟩,
    fun k known second => ⟨fateOf_fence known second, fun hd ho hu => ⟨fateOf_passed known second hd ho hu, ?failedTwice, ?failedNew, ?failedKnown⟩⟩⟩
  case powerOn | package => rintro rfl; rfl
  case cores =>
    rw [core_packageReset s power hc, ← repair_holdProtected (s.core c) c]
    exact afterPackage_fields ..
  case dies =>
    rw [die_packageReset s power hd]
    exact ⟨rfl, rfl, rfl⟩
  case kept => rintro rfl; exact ⟨rfl, rfl⟩
  case keys => rintro rfl; rfl
  case cleared => rintro rfl k hown hnear; exact (rawByte_powerOn s k).trans (if_pos ⟨hown, hnear⟩)
  case coreState =>
    obtain ⟨k, hk⟩ := core_resetCore s c 4
    rw [hk]
    exact ⟨rfl, rfl, rfl, rfl⟩
  case coreEmpty => rw [coreReset_exec s hc, resetCore_empty 4 he]
  case trained | trainedPowerOn => rw [hbmTraining_due hb, hp]; rfl
  case march => exact ⟨fun h => (bootMarch_due hb hd).trans (if_pos h), fun h => (bootMarch_due hb hd).trans (if_neg h)⟩
  case failedTwice => exact fun hf => (fateOf_failed known true hd ho hu hf).trans (if_neg (by simp))
  case failedNew => exact fun hf hnew => (fateOf_failed known false hd ho hu hf).trans (if_pos ⟨rfl, hnew⟩)
  case failedKnown => exact fun hf hall => (fateOf_failed known false hd ho hu hf).trans (if_neg fun ⟨_, r, hr, hn⟩ => hn (hall r hr))

/-! ## A part that does not run (R111, R423) -/

theorem alive_off {s : State} (h : s.poweredOff = true ∨ s.boot = 1) : s.alive = false := by
  rcases h with h | h <;> simp [State.alive, h]

theorem wakes_other (s : State) {a : Act} (h : a ≠ .event .powerOnReset ∧ a ≠ .event .packageReset) : wakes s a = false := by
  unfold wakes
  split
  · exact absurd rfl h.1
  · exact absurd rfl h.2
  · rfl

/-- A part that does not run drops the input at the head of its agenda, unless that one wakes it, and makes no move of its own. -/
theorem act_off {s : State} (hoff : s.alive = false) (hw : ∀ a rest, s.agenda = a :: rest → wakes s a = false) :
    act s = .next { s with agenda := s.agenda.tail } := by
  unfold act
  split
  next a rest ha => rw [hoff, hw a rest ha, ha]; rfl
  next ha =>
    rw [hoff, ha, List.tail_nil, ← ha]
    rfl

/-- On a part that does not run nothing comes to rest: a step only lets time pass. -/
theorem afterStep_off {s : State} (h : s.alive = false) : afterStep s = { passTime s (Config.cycles s.tick) with tick := s.tick + 1 } := by
  simp [afterStep, h]

/-- Settles O59: the input is dropped, and what follows a step is time passing. -/
theorem offStaysOff : Obligations.OffStaysOff := by
  intro s hoff hinput
  have hdead := alive_off hoff
  refine ⟨_, step_next (act_off hdead fun a rest ha => wakes_other s (hinput a rest ha)), ?_⟩
  rw [afterStep_off (s := { s with agenda := s.agenda.tail }) hdead]
  exact ⟨rfl, rfl, rfl, rfl, rfl, rfl, Nat.le_add_right _ _, rfl⟩

/-! ## The state after reset (R109, R111, R336, R406, R409, R411) -/

/-- Settles O60: every store is empty at reset, so that each core, group, key slot, partition and interface reads at its reset value. -/
theorem resetState : Obligations.ResetState :=
  ⟨memOk_reset, rfl, rfl, fun _ => ⟨rfl, rfl, rfl, rfl, rfl⟩, fun _ => rfl,
    fun n hn => (if_neg (by omega)).trans (if_neg (by omega)), fun _ => rfl, fun _ => rfl, rfl, fun _ => rfl, rfl, rfl⟩

end Sys2Proof.Machine

/-! ## Memory accesses of a strand (R113-R130, R186, R234, R402, R405) -/

namespace Sys2Proof.Machine

/-! ### What an access counts (R186, R402, R405) -/

/-- Nothing differs but what an access counts or moves beside the bytes: the dies (lines, copies, placement counters), the ports and the budgets of interfaces. -/
def CountsOnly (s t : State) : Prop := t = { s with dies := t.dies, ports := t.ports, vis := t.vis }

theorem CountsOnly.refl (s : State) : CountsOnly s s := rfl

theorem CountsOnly.trans {s t u : State} (hst : CountsOnly s t) (htu : CountsOnly t u) : CountsOnly s u := by
  unfold CountsOnly at *
  rw [htu, hst]

theorem CountsOnly.foldl {α : Type} {f : State → α → State} (hf : ∀ s x, CountsOnly s (f s x)) (l : List α) (s : State) :
    CountsOnly s (l.foldl f s) := by
  induction l generalizing s with
  | nil => exact .refl s
  | cons x l ih => exact (hf s x).trans (ih _)

section
variable {s t : State}

theorem CountsOnly.rawByte (h : CountsOnly s t) (k : Nat) : t.rawByte k = s.rawByte k := by rw [h]; rfl
theorem CountsOnly.cx (h : CountsOnly s t) : t.cx = s.cx := by rw [h]; rfl
theorem CountsOnly.st (h : CountsOnly s t) : t.st = s.st := by rw [h]; rfl
theorem CountsOnly.here (h : CountsOnly s t) : t.here = s.here := by rw [h]; rfl

end

theorem countsOnly_modDie (s : State) (o : Nat) (f : Die → Die) : CountsOnly s (s.modDie o f) := rfl
theorem countsOnly_setPort (s : State) (n : Nat) (p : Port) : CountsOnly s (s.setPort n p) := rfl

theorem countsOnly_crossLinks (s : State) (xs : List Xl) : CountsOnly s (s.crossLinks xs) := .foldl (fun s _ => countsOnly_setPort s _ _) _ s

theorem countsOnly_useLine (s : State) (x : Xl) (wrote : Bool) : CountsOnly s (s.useLine x wrote) := by
  unfold State.useLine
  cases x.part with
  | none => exact .refl s
  | some q =>
    dsimp only
    split
    · exact .refl s
    · exact countsOnly_modDie s _ _

theorem countsOnly_useLines (s : State) (xs : List Xl) : CountsOnly s (s.useLines xs) :=
  (countsOnly_crossLinks s _).trans (.foldl (fun s x => countsOnly_useLine s x false) _ _)

theorem countsOnly_marginTake (s : State) (x : Xl) : CountsOnly s (marginTake s x) := by
  unfold marginTake
  cases x.via with
  | none => exact .refl s
  | some d =>
    dsimp only
    split
    · split
      · exact countsOnly_modDie s _ _
      · exact .refl s
    · exact .refl s

theorem countsOnly_marginFill (s : State) (x : Xl) : CountsOnly s (marginFill s x) := by
  unfold marginFill
  split
  · exact countsOnly_marginTake s x
  · exact .refl s

theorem countsOnly_noteAccess (s : State) (from_ : Nat) (x : Xl) (wrote : Bool) : CountsOnly s (noteAccess s from_ x wrote) := by
  unfold noteAccess
  extract_lets u dd ix bump isIt
  have hu : CountsOnly s u := by
    cases wrote with
    | true => exact .refl s
    | false => exact countsOnly_marginFill s x
  split
  · exact hu
  · split
    · exact hu.trans (countsOnly_modDie u _ _)
    · split
      · exact hu
      · exact hu.trans (countsOnly_modDie u _ _)

theorem countsOnly_noteRead (s : State) (from_ : Nat) (xs : List Xl) : CountsOnly s (noteRead s from_ xs) := by
  cases xs with
  | nil => exact .refl s
  | cons x xs => exact (countsOnly_useLines s _).trans (countsOnly_noteAccess _ _ _ _)

theorem countsOnly_noteAll (s : State) (xs : List Xl) (wrote : Bool) : CountsOnly s (noteAll s xs wrote) := by
  refine .trans ?_ (.foldl (fun s x => countsOnly_noteAccess s s.here x wrote) _ _)
  cases wrote with
  | true => exact countsOnly_crossLinks s xs
  | false => exact countsOnly_useLines s xs

theorem countsOnly_hostChargeN (s : State) (x : Ctx) (xs : List Xl) (write : Bool) (n : Nat) : CountsOnly s (hostChargeN s x xs write n) := by
  unfold hostChargeN
  split
  · rfl
  · exact .refl s

theorem countsOnly_countWrite (s : State) (xs : List Xl) : CountsOnly s (s.countWrite xs) := by
  cases xs with
  | nil => exact .refl s
  | cons x xs => exact (countsOnly_crossLinks s _).trans (countsOnly_noteAccess _ _ _ _)

theorem countsOnly_counted (s : State) (xs : List Xl) (write : Bool) (n : Nat) : CountsOnly s (counted s xs write n) := by
  refine (countsOnly_hostChargeN s s.cx xs write n).trans ?_
  cases write with
  | true => exact countsOnly_countWrite _ xs
  | false => exact countsOnly_noteRead _ _ xs

theorem countsOnly_cleanLine (s : State) (k : Nat) : CountsOnly s (s.cleanLine k) := countsOnly_modDie s _ _
theorem countsOnly_dropLine (s : State) (k : Nat) : CountsOnly s (s.dropLine k) := countsOnly_modDie s _ _
theorem countsOnly_dropCopies (s : State) (die line : Nat) : CountsOnly s (s.dropCopies die line) := by
  unfold State.dropCopies
  split
  · exact countsOnly_modDie s _ _
  · exact .refl s

/-! ### Alignment, performing and failing (R115-R117) -/

theorem not_aligned {a : Word} {n : Nat} (h : a.toNat % n ≠ 0) : (!aligned a n) = true := by simpa [aligned] using h
theorem not_misaligned {a : Word} {n : Nat} (h : a.toNat % n = 0) : ¬(!aligned a n) = true := by simp [aligned, h]

theorem alignedFirst_traps {s : State} {a : Word} {n : Nat} (t : State) (h : a.toNat % n ≠ 0) :
    TakesTrap s (if !aligned a n then .next (s.addrAlign a) else .next t) 0x07 0 a := by
  rw [if_pos (not_aligned h)]
  exact trap_takes s _ _ _

theorem alignedFirst_goes {s : State} {a : Word} {n : Nat} (t : State) (h : a.toNat % n = 0) :
    (if !aligned a n then .next (s.addrAlign a) else .next t : Out) = .next t := if_neg (not_misaligned h)

theorem memFail_cause {s : State} {e : MemErr} {code info : Nat} (va : Word) (h : e.cause false false = some (code, info)) :
    s.memFail e va = (countError s s.agent e va).trap code info va := by
  unfold State.memFail
  rw [h]

section
variable {s : State} {va : Word} {xs : List Xl}

theorem charged_goes {write : Bool} (n : Nat) (f : State → State) (h : hostWaits s s.cx xs write = false) :
    s.charged xs write n f = f (hostChargeN s s.cx xs write n) := if_neg (by simp [h])

theorem withRead_ok {k : Kind} {n : Nat} {bs : List Byte} (f : State → List Byte → State) (h : s.readVa s.agent k va n = .ok (xs, bs))
    (hw : hostWaits s s.cx xs false = false) : s.withRead k va n f = f (counted s xs false n) bs := by
  unfold State.withRead
  rw [h]
  exact charged_goes n _ hw

theorem withRead_error {k : Kind} {n : Nat} {e : MemErr} {a : Word} (f : State → List Byte → State)
    (h : s.readVa s.agent k va n = .error (e, a)) : s.withRead k va n f = s.memFail e a := by
  unfold State.withRead
  rw [h]

theorem withWrite_ok {n : Nat} {bs : List Byte} (f : State → State) (hn : bs.length = n) (h : s.writeVa s.agent va n = .ok xs)
    (hw : hostWaits s s.cx xs true = false) : s.withWrite va bs f = f ((counted s xs true n).perform (xs.zip bs)) := by
  unfold State.withWrite
  rw [hn, h]
  exact charged_goes n _ hw

theorem withWrite_error {n : Nat} {e : MemErr} {a : Word} {bs : List Byte} (f : State → State) (hn : bs.length = n)
    (h : s.writeVa s.agent va n = .error (e, a)) : s.withWrite va bs f = s.memFail e a := by
  unfold State.withWrite
  rw [hn, h]

end

/-! ## LD and ST (R115, R117, R118) -/

theorem length_leBytes (n v : Nat) : (leBytes n v).length = n := by simp [leBytes]

theorem leBytes_toNat (n : Nat) (w : Word) : leBytes n w.toNat = (List.range n).map fun i => (w >>> (8 * i)).setWidth 8 :=
  List.map_congr_left fun i _ => BitVec.eq_of_toNat_eq (by simp)

theorem rawByte_setSA_retire (s : State) (d : SaReg) (v : Word) (k : Nat) : (s.setSA d v).retire.rawByte k = s.rawByte k := by cases d <;> rfl

/-- Settles O18: an aligned access performs or fails as the shared read and write of memory do. -/
theorem memoryAccess : Obligations.MemoryAccess := by
  refine ⟨fun s d ty m _ => ?_, fun s b ty m _ => ?_⟩ <;> intro n ea <;> refine ⟨alignedFirst_traps _, fun ha => ?_⟩
  · have hld : exec (.ld d ty m) s = .next (s.withRead .rd ea n fun u bs => (u.setSA d (extend ty.width ty.isSigned (leNat bs))).retire) :=
      alignedFirst_goes _ ha
    rw [hld]
    refine ⟨fun xs bs h hw => ?_, fun e a code info h hc => ?_, fun a h => ?_⟩
    · rw [withRead_ok _ h hw]
      exact ⟨rfl, fun k => (rawByte_setSA_retire _ d _ k).trans ((countsOnly_counted s xs false n).rawByte k)⟩
    · rw [withRead_error _ h, memFail_cause a hc]
    · rw [withRead_error _ h]
      rfl
  · have hst : exec (.st b ty m) s = .next (s.withWrite ea (leBytes n (s.getSA b).toNat) State.retire) := alignedFirst_goes _ ha
    have hlen := length_leBytes n (s.getSA b).toNat
    rw [hst]
    refine ⟨fun xs h hw => ?_, fun e a code info h hc => ?_⟩
    · rw [withWrite_ok _ hlen h hw, leBytes_toNat]
    · rw [withWrite_error _ hlen h, memFail_cause a hc]

/-! ## Vector stores to memory (R117, R120, R121) -/

section
variable {s : State} {t : ETy} {m : Option MNum} {addrs : List Word}

/-- The bytes that an enabled chunk of a store leaves at its translated bytes (R120): a 4-bit lane keeps its neighbour's half of the byte that stands there. -/
def State.storedBytesAt (s : State) (t : ETy) (m : Option MNum) (x : List Xl) (v i : Nat) : List Byte :=
  if t.width = 4 then [blend (s.chunkMask t m i) ((x.head?.map s.oldByte).getD 0) (BitVec.ofNat 8 v)] else leBytes (chunkBytes t) v

theorem vecStore_memory {xs : List (Option (List Xl))} {items : List (List Xl × Nat × Nat)} {data : List Nat}
    (h : s.writeLanes s.agent (chunkBytes t) (s.chunkAddrs t m addrs) none = .ok xs)
    (hi : items = (xs.zip data).zipIdx.filterMap fun e => e.1.1.map fun x => (x, e.1.2, e.2))
    (hw : hostWaits s s.cx (items.flatMap fun e => e.1) true = false) :
    vecStore s t false m addrs data =
      ((noteAll (hostChargeN s s.cx (items.flatMap fun e => e.1) true (items.flatMap fun e => e.1).length) (items.flatMap fun e => e.1) true).perform
        (items.flatMap fun e => e.1.zip (s.storedBytesAt t m e.1 e.2.1 e.2.2))).retire := by
  subst hi
  unfold vecStore
  dsimp only
  rw [if_neg Bool.false_ne_true, h]
  exact charged_goes _ _ hw

theorem vecStore_memory_misaligned {data : List Nat} {a : Word}
    (h : s.writeLanes s.agent (chunkBytes t) (s.chunkAddrs t m addrs) none = .error (.align, a)) :
    TakesTrap s (.next (vecStore s t false m addrs data)) 0x07 0 a := by
  unfold vecStore
  dsimp only
  rw [if_neg Bool.false_ne_true, h]
  exact trap_takes s _ _ _

end

theorem storeData_one (s : State) (t : ETy) (b : VNum) : s.storeData t b 1 = lanesOf (8 * chunkBytes t) (512 / chunkBytes t) (s.groupNat b 1) := by
  rw [State.storeData, one_mul]
  rfl

/-- Settles O21: the three forms are one store of chunks, at their own addresses. -/
theorem vectorStoreResult : Obligations.VectorStoreResult := by
  intro s b c r ty sz scl m hm g n ea stores
  obtain ⟨mem, folio, mask⟩ := m
  obtain rfl : folio = false := hm
  have hstores : ∀ addrs data, stores (.next (vecStore s ty false mask addrs data)) addrs data := fun addrs data =>
    ⟨fun xs h => by
      intro items bytes all hw
      exact congrArg Host.Outcome.next (vecStore_memory h rfl hw), fun a h => vecStore_memory_misaligned h⟩
  exact ⟨hstores _ _, storeData_one s ty c ▸ hstores _ _, storeData_one s ty c ▸ hstores _ _⟩

/-! ## Fences, prefetches, cache operations (R125-R127) -/

theorem completes_retire {s u : State} (h : CountsOnly s u) : Completes s (.next u.retire) u.retire := ⟨rfl, h.rawByte⟩

theorem pref_present {s : State} {kind : PrefKind} {a : AReg} {disp : BitVec 32} {x : Xl}
    (h : s.xlate s.agent .rd (s.getA a + disp.signExtend 64) = .ok x) :
    Completes s (exec (.pref kind a disp) s)
      (if kind = .near then noteAccess (marginTake (s.useLines [x]) x) s.here x false else marginTake (s.useLines [x]) x).retire := by
  have hu : CountsOnly s (marginTake (s.useLines [x]) x) := (countsOnly_useLines s _).trans (countsOnly_marginTake _ x)
  have hout : exec (.pref kind a disp) s = .next (if kind = .near then noteAccess (marginTake (s.useLines [x]) x) s.here x false
      else marginTake (s.useLines [x]) x).retire := by
    show Host.Outcome.next (match s.xlate s.agent .rd (s.getA a + disp.signExtend 64) with | .ok x => _ | .error _ => _) = _
    rw [h, ← hu.here]
  rw [hout]
  refine completes_retire ?_
  split
  · exact hu.trans (countsOnly_noteAccess _ _ _ _)
  · exact hu

theorem pref_absent {s : State} {kind : PrefKind} {a : AReg} {disp : BitVec 32} {e : MemErr}
    (h : s.xlate s.agent .rd (s.getA a + disp.signExtend 64) = .error e) : Completes s (exec (.pref kind a disp) s) s.retire := by
  have hout : exec (.pref kind a disp) s = .next s.retire := by
    show Host.Outcome.next (match s.xlate s.agent .rd (s.getA a + disp.signExtend 64) with | .ok x => _ | .error _ => _) = _
    rw [h]
  rw [hout]
  exact completes_retire (.refl s)

theorem cmoRead_completes {s : State} {ea : Word} {xs : List Xl} {bs : List Byte} {f : State → Nat → State} (h : s.readVa s.homeAgent .rd ea 1 = .ok (xs, bs))
    (hw : hostWaits s s.cx xs false = false) (hf : ∀ u k, CountsOnly u (f u k)) :
    Completes s (.next (cmoRead s ea f)) (xs.foldl (fun u x => f u x.key) (counted s xs false 1)).retire := by
  have hread : cmoRead s ea f = (xs.foldl (fun u x => f u x.key) (counted s xs false 1)).retire := by
    unfold cmoRead
    rw [h]
    exact charged_goes 1 _ hw
  rw [hread]
  exact completes_retire ((countsOnly_counted s xs false 1).trans (.foldl (fun u x => hf u x.key) xs _))

/-- Settles O23: a fence and a failing prefetch only retire; the cache operations act on the line of a byte that is read, or store a line of zeros. -/
theorem fencePrefetchCmo : Obligations.FencePrefetchCmo := by
  intro s sc fl mask kind a disp oc ea
  refine ⟨completes_retire (.refl s), fun x h => pref_present h, fun e h => pref_absent h, fun xs bs h hw => ⟨?_, ?_⟩, alignedFirst_traps _, fun ha xs h hw => ?_⟩
  · exact cmoRead_completes h hw countsOnly_cleanLine
  · exact cmoRead_completes h hw fun u k => (countsOnly_dropLine u k).trans (.foldl (fun t d => countsOnly_dropCopies t _ _) _ _)
  · have hzero : exec (.cmoZero a disp oc) s = .next (s.withWrite ea (List.replicate 128 0) State.retire) := alignedFirst_goes _ ha
    rw [hzero, withWrite_ok _ List.length_replicate h hw]

/-! ## Atomics (R128-R130) -/

section
variable {s : State} {ty : ETy} {ea : Word}

theorem atomic_misaligned (f : Nat → Option Nat) (k : State → Nat → State) (h : ea.toNat % (ty.width / 8) ≠ 0) :
    TakesTrap s (.next (atomic s ty ea f k)) 0x07 0 ea := by
  unfold atomic
  dsimp only
  rw [tySize, if_pos (not_aligned h)]
  exact trap_takes s _ _ _

variable {xs : List Xl} {bs : List Byte} (ha : ea.toNat % (ty.width / 8) = 0) (h : s.readVa s.agent .rmw ea (ty.width / 8) = .ok (xs, bs))
  (hx : ∀ x ∈ xs, x.enc = none) (hw : hostWaits s s.cx xs true = false)
include ha h hx hw

/-- One access that reads the old value and, where there is a new one, writes it. -/
theorem atomic_plain (f : Nat → Option Nat) (k : State → Nat → State) :
    atomic s ty ea f k = match f (leNat bs) with
      | some v => k ((counted s xs true (ty.width / 8)).perform (xs.zip (leBytes (ty.width / 8) v))) (leNat bs)
      | none => k (counted s xs true (ty.width / 8)) (leNat bs) := by
  unfold atomic
  dsimp only
  rw [tySize, if_neg (not_misaligned ha), h]
  dsimp only
  split
  next x hfind =>
    have hrefused := List.find?_some hfind
    simp [hx x (List.mem_of_find?_eq_some hfind), writeKeys_none] at hrefused
  next => exact charged_goes _ _ hw

theorem atomic_writes {f : Nat → Option Nat} {v : Nat} (k : State → Nat → State) (hf : f (leNat bs) = some v) :
    atomic s ty ea f k = k ((counted s xs true (ty.width / 8)).perform (xs.zip (leBytes (ty.width / 8) v))) (leNat bs) := by
  rw [atomic_plain ha h hx hw, hf]

theorem atomic_keeps {f : Nat → Option Nat} (k : State → Nat → State) (hf : f (leNat bs) = none) :
    atomic s ty ea f k = k (counted s xs true (ty.width / 8)) (leNat bs) := by
  rw [atomic_plain ha h hx hw, hf]

end

/-- Settles O24: the three are one read-modify-write, which CAS makes without a new value where the old one is not as expected. -/
theorem atomicResult : Obligations.AtomicResult := by
  intro s op d b c ty m _ n ea arg
  refine ⟨fun ha => ⟨atomic_misaligned _ _ ha, atomic_misaligned _ _ ha, atomic_misaligned _ _ ha⟩, fun ha xs bs h hx hw => ?_⟩
  intro old s1 put v
  have hv : v = atomNew op ty old (lowBits ty (s.getS b)) := by cases op <;> rfl
  refine ⟨congrArg Host.Outcome.next (hv ▸ atomic_writes ha h hx hw _ rfl), congrArg Host.Outcome.next (hv ▸ atomic_writes ha h hx hw _ rfl),
    fun he => congrArg Host.Outcome.next (atomic_writes ha h hx hw _ (if_pos he)), fun hne => ⟨?_, (countsOnly_counted s xs true n).rawByte⟩⟩
  exact congrArg Host.Outcome.next (atomic_keeps ha h hx hw _ (if_neg hne))

end Sys2Proof.Machine

/-! ## Versioned tiles (R122-R124) -/

namespace Sys2Proof.Machine

/-! ### Lanes of a group of registers (R287) -/

theorem laneOf_zero (w x : Nat) : laneOf w x 0 = x % 2 ^ w := by simp [laneOf]
theorem laneOf_succ (w x i : Nat) : laneOf w x (i + 1) = laneOf w (x >>> w) i := by
  rw [laneOf, laneOf, ← Nat.shiftRight_add, Nat.mul_succ, Nat.add_comm w]

theorem toNat_ofNat_lane (w x k : Nat) : (BitVec.ofNat w (x >>> (w * k))).toNat = laneOf w x k := BitVec.toNat_ofNat _ _

theorem laneOf_packLanes (w : Nat) (l : List Nat) (i : Nat) : laneOf w (packLanes w l) i = (l[i]?.getD 0) % 2 ^ w := by
  induction l generalizing i with
  | nil => simp [packLanes, laneOf]
  | cons x l ih =>
    have hlt : x % 2 ^ w < 2 ^ w := Nat.mod_lt _ (Nat.two_pow_pos w)
    cases i with
    | zero => simp [laneOf_zero, packLanes]
    | succ i =>
      rw [laneOf_succ, packLanes, Nat.shiftRight_eq_div_pow, Nat.add_mul_div_left _ _ (Nat.two_pow_pos w), Nat.div_eq_of_lt hlt, Nat.zero_add, ih]
      rfl

theorem packLanes_lt (w : Nat) (l : List Nat) : packLanes w l < 2 ^ (w * l.length) := by
  induction l with
  | nil => simp [packLanes]
  | cons x l ih =>
    have hlt : x % 2 ^ w < 2 ^ w := Nat.mod_lt _ (Nat.two_pow_pos w)
    rw [packLanes, List.length_cons, Nat.mul_succ, Nat.add_comm (w * _), Nat.pow_add]
    calc x % 2 ^ w + 2 ^ w * packLanes w l < 2 ^ w + 2 ^ w * packLanes w l := Nat.add_lt_add_right hlt _
      _ = 2 ^ w * (packLanes w l + 1) := by ring
      _ ≤ 2 ^ w * 2 ^ (w * l.length) := Nat.mul_le_mul_left _ ih

/-- The lanes of a number packed again are the number's low bits. -/
theorem packLanes_lanesOf (w n x : Nat) : packLanes w (lanesOf w n x) = x % 2 ^ (w * n) := by
  induction n generalizing x with
  | zero => simp [lanesOf, packLanes, Nat.mod_one]
  | succ n ih =>
    have hlanes : lanesOf w (n + 1) x = laneOf w x 0 :: lanesOf w n (x >>> w) := by
      simp only [lanesOf, List.range_succ_eq_map, List.map_cons, List.map_map]
      congr 1
      exact List.map_congr_left fun i _ => laneOf_succ w x i
    rw [hlanes, packLanes, ih, laneOf_zero, Nat.mod_mod, Nat.shiftRight_eq_div_pow, Nat.mul_succ, Nat.add_comm (w * n), Nat.pow_add, Nat.mod_mul]

theorem getElem?_mergeLanes {on : Nat → Bool} {old new : List Nat} {j : Nat} (ho : j < old.length) (hn : j < new.length) :
    (mergeLanes on old new)[j]? = some (if on j then new[j] else old[j]) := by
  simp [mergeLanes, ho, hn]

theorem vplus_ne (d : VNum) {j k : Nat} (hj : j < k) (hk : k < 64) : vplus d j ≠ vplus d k := by
  intro h
  have := congrArg Fin.val h
  simp only [vplus, Fin.ofNat] at this
  omega

theorem setGroupNat_succ (s : State) (d : VNum) (g x : Nat) :
    s.setGroupNat d (g + 1) x = (s.setGroupNat d g x).setV (vplus d g) (BitVec.ofNat 4096 (x >>> (4096 * g))) := by
  rw [State.setGroupNat, List.range_succ, List.foldl_append]
  rfl

theorem getV_setV_state (s : State) (d r : VNum) (v : VecWord) : (s.setV d v).getV r = if r = d then v else s.getV r := by
  rw [State.getV, State.setV, cx_modCx, getV_setV]
  simp only [Fin.ext_iff]
  rfl

theorem getV_setGroupNat (s : State) (d : VNum) {g : Nat} (x : Nat) (hg : g ≤ 64) {k : Nat} (hk : k < g) :
    (s.setGroupNat d g x).getV (vplus d k) = BitVec.ofNat 4096 (x >>> (4096 * k)) := by
  induction g with
  | zero => exact absurd hk (Nat.not_lt_zero k)
  | succ g ih =>
    rw [setGroupNat_succ, getV_setV_state]
    by_cases he : k = g
    · rw [he, if_pos rfl]
    · rw [if_neg (vplus_ne d (by omega) (by omega)), ih (by omega) (by omega)]

/-- A group reads back what was written to it. -/
theorem groupNat_setGroupNat (s : State) (d : VNum) {g x : Nat} (hg : g ≤ 64) (hx : x < 2 ^ (4096 * g)) : (s.setGroupNat d g x).groupNat d g = x := by
  have hregs : (List.range g).map (fun k => ((s.setGroupNat d g x).getV (vplus d k)).toNat) = lanesOf 4096 g x :=
    List.map_congr_left fun k hk => by rw [getV_setGroupNat s d x hg (List.mem_range.mp hk), toNat_ofNat_lane]
  rw [State.groupNat, hregs, packLanes_lanesOf, Nat.mod_eq_of_lt hx]

theorem strands_setGroupNat (s : State) (d : VNum) (g x : Nat) :
    (s.setGroupNat d g x).focus = s.focus ∧ (s.setGroupNat d g x).st = s.st := by
  induction g with
  | zero => exact ⟨rfl, rfl⟩
  | succ g ih =>
    rw [setGroupNat_succ]
    refine ⟨ih.1, ?_⟩
    rw [State.setV, st_modCx, ← ih.2]
    rfl

theorem groupNat_modSt (s : State) (f : Strand → Strand) (d : VNum) (g : Nat) : (s.modSt f).groupNat d g = s.groupNat d g := by
  simp only [State.groupNat, State.getV, cx_modSt]
  rfl

/-! ### TSTA (R123) -/

theorem tsta_misaligned {s : State} {v : VNum} {sz : Fin 3} {m : MemOp} {mask : Option MNum} (h : (s.ea m).toNat % 64 ≠ 0) :
    TakesTrap s (exec (.tsta v sz m mask) s) 0x07 0 (s.ea m) := by
  have hplan : tstaPlan s v sz m mask = .error (s.addrAlign (s.ea m)) := if_pos (not_aligned h)
  show TakesTrap s (execTsta v sz m mask s) _ _ _
  rw [execTsta, hplan]
  exact trap_takes s _ _ _

/-- The byte addresses of a tile's data that its mask enables. -/
def State.tileLanes (s : State) (sz : Fin 3) (t : Word) (mask : Option MNum) : List (Option Word) :=
  (List.range (512 * 2 ^ sz.val)).map fun j => if s.tileOn mask j then some (t + 64 + BitVec.ofNat 64 j) else none

/-- The enabled bytes that a TSTA stores, each at its translated byte. -/
def State.tileBytes (s : State) (v : VNum) (sz : Fin 3) (xs : List (Option (List Xl))) : List (Xl × Byte) :=
  (xs.zip (lanesOf 8 (512 * 2 ^ sz.val) (s.groupNat v (2 ^ sz.val)))).flatMap fun e => match e.1 with | some l => l.zip [BitVec.ofNat 8 e.2] | none => []

theorem tsta_stores {s : State} {v : VNum} {sz : Fin 3} {m : MemOp} {mask : Option MNum} {vx : List Xl} {vb : List Byte} {xs : List (Option (List Xl))}
    (ha : (s.ea m).toNat % 64 = 0) (hv : s.writeVa s.homeAgent (s.ea m) 8 = .ok vx) (hr : s.readXl (s.ea m) vx = .ok vb)
    (hl : s.writeLanes s.agent 1 (s.tileLanes sz (s.ea m) mask) none = .ok xs)
    (hw : hostWaits s s.cx (vx ++ (s.tileBytes v sz xs).map (·.1)) true = false) :
    exec (.tsta v sz m mask) s = .next (((((noteAll (hostChargeN s s.cx (vx ++ (s.tileBytes v sz xs).map (·.1)) true
        (vx ++ (s.tileBytes v sz xs).map (·.1)).length) (vx ++ (s.tileBytes v sz xs).map (·.1)) true).perform
      (vx.zip (leBytes 8 (leNat vb / 2 * 2 + 1)))).perform (s.tileBytes v sz xs)).perform (vx.zip (leBytes 8 (leNat vb / 2 * 2 + 1 + 1)))).retire) := by
  have hplan : tstaPlan s v sz m mask = .ok (vx, leNat vb / 2 * 2 + 1, s.tileBytes v sz xs) := by
    unfold tstaPlan
    dsimp only
    rw [if_neg (not_misaligned ha), hv]
    dsimp only
    rw [hr]
    dsimp only
    rw [State.tileLanes] at hl
    rw [hl]
    rfl
  show execTsta v sz m mask s = _
  rw [execTsta, hplan]
  exact congrArg Host.Outcome.next (charged_goes _ _ hw)

/-! ### TLDV (R124) -/

section
variable {s : State} {d : VNum} {sz : Fin 3} {t : Word} {mask : Option MNum} {attempt : Nat} {vx : List Xl} {vb : List Byte}

theorem tldvAttempt_odd (h : s.readVa s.homeAgent .rd t 8 = .ok (vx, vb)) (hv : leNat vb % 2 = 1) :
    tldvAttempt s d sz t mask attempt = s.modSt fun u => { u with wait := some (.tldv d sz t mask (attempt + 1) (leWord vb) s.time) } := by
  unfold tldvAttempt
  dsimp only
  rw [h]
  exact if_neg (by omega)

/-- The lanes of a tile as they were, the enabled ones taken from the values read. -/
def State.tileMerged (s : State) (d : VNum) (sz : Fin 3) (mask : Option MNum) (vals : List (Option (Xl × Nat))) : Nat :=
  packLanes 8 (mergeLanes (s.tileOn mask) (lanesOf 8 (512 * 2 ^ sz.val) (s.groupNat d (2 ^ sz.val))) (vals.map fun v => (v.map (·.2)).getD 0))

theorem tldvAttempt_even {vals : List (Option (Xl × Nat))} (h : s.readVa s.homeAgent .rd t 8 = .ok (vx, vb)) (hv : leNat vb % 2 = 0)
    (hl : s.readLanes s.homeAgent 1 (s.tileLanes sz t mask) none = .ok vals)
    (hw : hostWaits s s.cx (vx ++ vals.filterMap fun v => v.map (·.1)) false = false) :
    ∃ u, CountsOnly s u ∧ tldvAttempt s d sz t mask attempt = (u.setGroupNat d (2 ^ sz.val) (u.tileMerged d sz mask vals)).modSt (·.finishWait) := by
  obtain ⟨all, hall⟩ : ∃ all, all = vx ++ vals.filterMap fun v => v.map (·.1) := ⟨_, rfl⟩
  refine ⟨noteAll (hostChargeN s s.cx all false all.length) all false, (countsOnly_hostChargeN s _ _ _ _).trans (countsOnly_noteAll _ _ _), ?_⟩
  unfold tldvAttempt
  dsimp only
  rw [h]
  dsimp only
  rw [if_pos hv]
  rw [State.tileLanes] at hl
  rw [hl]
  dsimp only
  rw [← hall] at hw ⊢
  exact charged_goes _ _ hw

end

theorem length_readLanes {s : State} {ag : Agent} {n : Nat} {want : List (Option Word)} {prev : Option (Word × Xl)} {vals : List (Option (Xl × Nat))}
    (h : s.readLanes ag n want prev = .ok vals) : vals.length = want.length := by
  obtain ⟨start, hstart⟩ : ∃ start, start = s.laneStart ag .rd := ⟨_, rfl⟩
  induction want generalizing prev vals with
  | nil => cases h; rfl
  | cons e want ih =>
    have tail : ∀ {p : Option (Word × Xl)} {v : Option (Xl × Nat)}, (s.readLanes ag n want p).map (fun l => v :: l) = .ok vals → vals.length = want.length + 1 := by
      intro p v hm
      cases hr : s.readLanes ag n want p with
      | error e => rw [hr] at hm; cases hm
      | ok l => rw [hr] at hm; cases hm; rw [List.length_cons, ih hr]
    cases e with
    | none => exact tail h
    | some a =>
      rw [State.readLanes, ← hstart] at h
      split at h
      · cases h
      · split at h
        · cases h
        · split at h
          · cases h
          · exact tail h

theorem finishWait_eq (t : Strand) : t.finishWait = { t.retire 1 with wait := none } := by
  rw [Strand.finishWait, retire_of t { t with wait := none } 1 ⟨rfl, rfl, rfl, rfl, rfl⟩, retire_eq t 1]

/-- What a completed TLDV leaves in the byte lanes of its tile registers. -/
theorem laneOf_tileMerged {s : State} {d : VNum} {sz : Fin 3} {mask : Option MNum} {vals : List (Option (Xl × Nat))}
    (hlen : vals.length = 512 * 2 ^ sz.val) {j : Nat} (hj : j < 512 * 2 ^ sz.val) :
    laneOf 8 ((s.setGroupNat d (2 ^ sz.val) (s.tileMerged d sz mask vals)).groupNat d (2 ^ sz.val)) j
      = if s.laneOn mask (j % 512) then ((vals[j]?.bind id).map (·.2)).getD 0 % 256 else laneOf 8 (s.groupNat d (2 ^ sz.val)) j := by
  have hg : 2 ^ sz.val ≤ 64 := (Nat.pow_le_pow_right (by decide) (show sz.val ≤ 6 by omega)).trans (by decide)
  have hold : (lanesOf 8 (512 * 2 ^ sz.val) (s.groupNat d (2 ^ sz.val))).length = 512 * 2 ^ sz.val := by simp [lanesOf]
  have hlt : s.tileMerged d sz mask vals < 2 ^ (4096 * 2 ^ sz.val) := by
    refine (packLanes_lt 8 _).trans_le (Nat.pow_le_pow_right (by decide) ?_)
    simp only [mergeLanes, List.length_map, List.length_zipIdx, List.length_zip, hold, hlen]
    omega
  have hold' : j < (lanesOf 8 (512 * 2 ^ sz.val) (s.groupNat d (2 ^ sz.val))).length := by rw [hold]; exact hj
  have hnew : j < (vals.map fun v => (v.map (·.2)).getD 0).length := by rw [List.length_map, hlen]; exact hj
  have hjv : j < vals.length := by rw [hlen]; exact hj
  rw [groupNat_setGroupNat s d hg hlt, State.tileMerged, laneOf_packLanes, getElem?_mergeLanes hold' hnew, Option.getD_some, State.tileOn,
    List.getElem?_eq_getElem hjv]
  split
  · simp
  · simp [lanesOf, laneOf]

theorem tldv_completes {s : State} {v : VNum} {sz : Fin 3} {m : MemOp} {mask : Option MNum} {vx : List Xl} {vb : List Byte}
    {vals : List (Option (Xl × Nat))} (ha : (s.ea m).toNat % 64 = 0) (h : s.readVa s.homeAgent .rd (s.ea m) 8 = .ok (vx, vb)) (hv : leNat vb % 2 = 0)
    (hl : s.readLanes s.homeAgent 1 (s.tileLanes sz (s.ea m) mask) none = .ok vals)
    (hw : hostWaits s s.cx (vx ++ vals.filterMap fun v => v.map (·.1)) false = false) :
    ∃ u, exec (.tldv v sz m mask) s = .next u ∧ (∀ k, u.rawByte k = s.rawByte k) ∧ u.st = { s.st.retire 1 with wait := none }
      ∧ ∀ j < 512 * 2 ^ sz.val, laneOf 8 (u.groupNat v (2 ^ sz.val)) j =
          if s.laneOn mask (j % 512) then ((vals[j]?.bind id).map (·.2)).getD 0 % 256 else laneOf 8 (s.groupNat v (2 ^ sz.val)) j := by
  obtain ⟨u, hu, hload⟩ := tldvAttempt_even (d := v) (attempt := 0) h hv hl hw
  refine ⟨_, (alignedFirst_goes _ ha).trans (congrArg Host.Outcome.next hload), fun k => ?_, ?_, fun j hj => ?_⟩
  · exact (rawByte_of_mem (mem_setGroupNat u v _ _) k).trans (hu.rawByte k)
  · rw [st_modSt, (strands_setGroupNat u v _ _).2, hu.st, finishWait_eq]
  · have hlen : vals.length = 512 * 2 ^ sz.val := (length_readLanes hl).trans (by simp [State.tileLanes])
    have hon : u.laneOn mask = s.laneOn mask := by
      funext i
      unfold State.laneOn State.getM
      rw [hu.cx]
    have hgroup : u.groupNat v (2 ^ sz.val) = s.groupNat v (2 ^ sz.val) := by
      unfold State.groupNat State.getV
      rw [hu.cx]
    rw [groupNat_modSt, laneOf_tileMerged hlen hj, hon, hgroup]

/-! ### The retry (R124) -/

section
variable {s : State} {f : StrandRef} {d : VNum} {z : Fin 3} {a : Word} {mk : Option MNum} {attempt : Nat} {seen : Word} {since : Nat} {vx : List Xl} {vb : List Byte}
  (hwait : (s.strandAt f).wait = some (.tldv d z a mk attempt seen since))
  (h : ({ s with focus := f } : State).readVa ({ s with focus := f } : State).homeAgent .rd a 8 = .ok (vx, vb))
include hwait h

theorem tldvRetry_eq : exec (.tldvRetry f) s =
    if leWord vb = seen ∧ s.time < since + 256 then .next { s with focus := f }
    else if 64 ≤ attempt then .next (({ s with focus := f } : State).trap 0x0E 0 a)
    else .next (tldvAfter { s with focus := f } (tldvAttempt { s with focus := f } d z a mk attempt) d z mk) := by
  show execTldvRetry f s = _
  unfold execTldvRetry
  rw [hwait]
  dsimp only
  rw [h]
  simp

end

/-- Settles O22: the attempt of a load by the parity of the version, the retry by whether an attempt is due and one is left. -/
theorem versionedTile : Obligations.VersionedTile := by
  intro s v sz m mask f t n lanes
  refine ⟨fun ha => ⟨alignedFirst_traps _ ha, tsta_misaligned ha⟩, fun ha vx vb xs hv hr hl => ?_,
    fun ha vx vb h hv => ?_, fun ha vx vb vals h hv hl hw => tldv_completes ha h hv hl hw, fun d z a mk attempt seen since vx vb hwait h => ?_⟩
  · intro ver bytes all hw
    exact tsta_stores ha hv hr hl hw
  · have hodd : exec (.tldv v sz m mask) s = .next (tldvAttempt s v sz t mask 0) := alignedFirst_goes _ ha
    rw [hodd, tldvAttempt_odd h hv]
    exact ⟨rfl, fun k => rawByte_modSt s _ k⟩
  · rw [tldvRetry_eq hwait h]
    refine ⟨fun he ht => if_pos ⟨he, ht⟩, fun hdue hlast => ?_, fun hdue hleft => ?_⟩
    · rw [if_neg fun hwaits => hdue.elim (· hwaits.1) fun h => by omega, if_pos hlast]
    · rw [if_neg fun hwaits => hdue.elim (· hwaits.1) fun h => by omega, if_neg (Nat.not_le.mpr hleft)]

end Sys2Proof.Machine

/-! ## Ductus chains (R131-R134, R190-R196) -/

namespace Sys2Proof.Machine

/-! ### Bytes of a number (R5) -/

theorem leNat_eq_packLanes (l : List Byte) : leNat l = packLanes 8 (l.map (·.toNat)) := by
  induction l with
  | nil => rfl
  | cons b l ih => simp [leNat, packLanes, ih, Nat.mod_eq_of_lt b.isLt]

theorem laneOf_leNat (l : List Byte) (i : Nat) : laneOf 8 (leNat l) i = (l.getD i 0).toNat := by
  rw [leNat_eq_packLanes, laneOf_packLanes, List.getElem?_map, List.getD_eq_getElem?_getD]
  cases l[i]? with
  | none => rfl
  | some b => exact Nat.mod_eq_of_lt b.isLt

theorem leNat_lt (l : List Byte) : leNat l < 2 ^ (8 * l.length) := by
  have hlt := packLanes_lt 8 (l.map (·.toNat))
  rwa [← leNat_eq_packLanes, List.length_map] at hlt

theorem leNat_append (l r : List Byte) : leNat (l ++ r) = leNat l + 2 ^ (8 * l.length) * leNat r := by
  induction l with
  | nil => simp [leNat]
  | cons b l ih =>
    rw [List.cons_append, leNat, ih, leNat, List.length_cons, Nat.mul_succ, Nat.pow_add]
    ring

theorem leNat_leBytes (n v : Nat) : leNat (leBytes n v) = v % 2 ^ (8 * n) := by
  have hlanes : (leBytes n v).map (·.toNat) = lanesOf 8 n v := by
    rw [leBytes, List.map_map]
    exact List.map_congr_left fun i _ => BitVec.toNat_ofNat _ _
  rw [leNat_eq_packLanes, hlanes, packLanes_lanesOf]

/-- A register that holds the bytes of a list holds their number. -/
theorem toNat_ofNat_leNat {w : Nat} {l : List Byte} (h : 8 * l.length ≤ w) : (BitVec.ofNat w (leNat l)).toNat = leNat l := by
  rw [BitVec.toNat_ofNat, Nat.mod_eq_of_lt ((leNat_lt l).trans_le (Nat.pow_le_pow_right (by decide) h))]

/-- A run of whole bytes read out of a register that holds the bytes of a list. -/
theorem extractLsb'_ofNat_leNat {w start n : Nat} (l m r : List Byte) (hw : 8 * (l ++ m ++ r).length ≤ w) (hs : start = 8 * l.length)
    (hn : n = 8 * m.length) : (BitVec.ofNat w (leNat (l ++ m ++ r))).extractLsb' start n = BitVec.ofNat n (leNat m) := by
  subst hs hn
  apply BitVec.eq_of_toNat_eq
  rw [BitVec.extractLsb'_toNat, toNat_ofNat_leNat hw, BitVec.toNat_ofNat, List.append_assoc, leNat_append, Nat.shiftRight_eq_div_pow,
    Nat.add_mul_div_left _ _ (Nat.two_pow_pos _), Nat.div_eq_of_lt (leNat_lt l), Nat.zero_add, leNat_append, Nat.add_mul_mod_self_left]

/-! ### DUCT (R131) -/

theorem ducts_modDuct (x : Ctx) (tag : Fin 16) (f : DuctSlot → DuctSlot) :
    (x.modDuct tag f).ducts[tag] = f x.ducts[tag] ∧ ∀ g, g ≠ tag → (x.modDuct tag f).ducts[g] = x.ducts[g] :=
  ⟨Vector.getElem_set_self tag.isLt, fun g hg => Vector.getElem_set_ne tag.isLt g.isLt fun h => hg (Fin.ext h.symm)⟩

section
variable {s : State} {tag : Fin 16}

theorem duct_busy {a : AReg} {b : VNum} {n1 h1 : Fin 8} {lc : Fin 5} {oc : Fin 16} (h : s.cx.ducts[tag].busy = true) :
    TakesTrap s (exec (.duct tag a b n1 h1 lc oc) s) 0x0F 0 0 := by
  have hout : exec (.duct tag a b n1 h1 lc oc) s = .next (s.trap 0x0F 0 0) := if_pos h
  rw [hout]
  exact trap_takes s _ _ _

/-- An update of the context, one of its die, and the word retires: what stands in each. -/
theorem issued_parts (f : Ctx → Ctx) (g : Die → Die) (hf : (f s.cx).strands = s.cx.strands) :
    (((s.modCx f).modDi g).retire).st = s.st.retire 1 ∧ (((s.modCx f).modDi g).retire).di = g s.di
      ∧ (((s.modCx f).modDi g).retire).cx.ducts = (f s.cx).ducts := by
  refine ⟨?_, ?_, ?_⟩
  · have hst : ((s.modCx f).modDi g).st = s.st := by
      rw [State.modDi, st_modDie, st_modCx, hf]
      rfl
    rw [State.retire, st_modSt, hst]
  · show ((s.modCx f).modDie (s.modCx f).here g).die (s.modCx f).here = g s.di
    rw [die_modDie]
    rfl
  · rw [State.retire, cx_modSt, State.modDi, cx_modDie, cx_modCx]
    rfl

/-- The slot as a chain is issued from it. -/
def State.launchedSlot (s : State) (tag : Fin 16) (a : AReg) (lc : Fin 5) (oc : Fin 16) : DuctSlot :=
  { busy := true, core := s.focus.core, slot := s.focus.slot, len := ductSize lc, seq := s.cx.ducts[tag].seq + 1, start := s.getA a, at_ := s.time,
    strand := (strandIx s.focus).val, oc := oc }

/-- The packet of a chain as it is issued (R190). -/
def State.launchedPacket (s : State) (tag : Fin 16) (a : AReg) (b : VNum) (n1 h1 : Fin 8) (lc : Fin 5) (oc : Fin 16) : Packet :=
  { part := s.cx.part, rgen := s.partGen s.cx.part, oc := oc, urg := urgency (s.ctxValue s.cx), priv := s.cx.priv, k := 0, n := n1.val + 1, lc := lc,
    h := h1.val + 1, hops := 0, asid := s.cx.asid, rpkg := s.package, rdie := s.focus.core / 96, rcore := s.focus.core, rslot := s.focus.slot,
    uid := s.cx.uid, tag := tag, seq := s.cx.ducts[tag].seq + 1, p := s.getA a, steps := ductSteps (s.getV b) (n1.val + 1) }

theorem duct_free {a : AReg} {b : VNum} {n1 h1 : Fin 8} {lc : Fin 5} {oc : Fin 16} (h : s.cx.ducts[tag].busy = false) :
    exec (.duct tag a b n1 h1 lc oc) s = .next (((s.modCx fun x => x.modDuct tag fun _ => s.launchedSlot tag a lc oc).modDi
      fun d => { d with packets := d.packets ++ [s.launchedPacket tag a b n1 h1 lc oc] }).retire) := if_neg (ne_true_of_eq_false h)

theorem duct_issues (a : AReg) (b : VNum) (n1 h1 : Fin 8) (lc : Fin 5) (oc : Fin 16) (h : s.cx.ducts[tag].busy = false) :
    ∃ u, exec (.duct tag a b n1 h1 lc oc) s = .next u ∧ (∀ k, u.rawByte k = s.rawByte k) ∧ u.st = s.st.retire 1
      ∧ u.di.packets = s.di.packets ++ [s.launchedPacket tag a b n1 h1 lc oc] ∧ u.cx.ducts[tag] = s.launchedSlot tag a lc oc
      ∧ ∀ g, g ≠ tag → u.cx.ducts[g] = s.cx.ducts[g] := by
  obtain ⟨hst, hdi, hducts⟩ := @issued_parts s (fun x => x.modDuct tag fun _ => s.launchedSlot tag a lc oc)
    (fun d => { d with packets := d.packets ++ [s.launchedPacket tag a b n1 h1 lc oc] }) rfl
  refine ⟨_, duct_free h, fun _ => rfl, hst, by rw [hdi], ?_⟩
  rw [hducts]
  exact ducts_modDuct s.cx tag fun _ => s.launchedSlot tag a lc oc

/-! ### DCOL (R133) -/

theorem dcol_free {x : DcolDst} (h : s.cx.ducts[tag].busy = false) : TakesTrap s (exec (.dcol x tag) s) 0x0F 0 0 := by
  have hout : exec (.dcol x tag) s = .next (s.trap 0x0F 0 0) := if_pos (by rw [h]; rfl)
  rw [hout]
  exact trap_takes s _ _ _

theorem dcol_waits {x : DcolDst} (hb : s.cx.ducts[tag].busy = true) (hr : s.cx.ducts[tag].result = false) : exec (.dcol x tag) s = .next s.hold :=
  (if_neg (by rw [hb]; exact Bool.false_ne_true)).trans (if_pos (by rw [hr]; rfl))

/-- The slot of a collected chain is free. -/
def State.ductFreed (s : State) (tag : Fin 16) : State := s.modCx fun x => x.modDuct tag fun t => { t with busy := false, result := false }

theorem dcol_scalar {r : SReg} (hb : s.cx.ducts[tag].busy = true) (hr : s.cx.ducts[tag].result = true) :
    exec (.dcol (.s r) tag) s = .next ((s.ductFreed tag).modSt fun k => (k.setS r (if ductOk s.cx.ducts[tag].status && s.cx.ducts[tag].len != 0
      then leWord (s.cx.ducts[tag].data.take 8) else s.cx.ducts[tag].p)).setS (r + 1) s.cx.ducts[tag].status).retire :=
  (if_neg (by rw [hb]; exact Bool.false_ne_true)).trans (if_neg (by rw [hr]; exact Bool.false_ne_true))

theorem dcol_vector {d : VNum} (hb : s.cx.ducts[tag].busy = true) (hr : s.cx.ducts[tag].result = true) :
    exec (.dcol (.v d) tag) s = .next ((s.ductFreed tag).setV d (ductVector s.cx.ducts[tag])).retire :=
  (if_neg (by rw [hb]; exact Bool.false_ne_true)).trans (if_neg (by rw [hr]; exact Bool.false_ne_true))

end

section
variable {t : DuctSlot} (h : t.data.length ≤ 64)
include h

/-- The 64 data bytes of the vector form. -/
theorem ductData_padded (i : Nat) : (t.data ++ List.replicate (64 - t.data.length) 0).length = 64
    ∧ (t.data ++ List.replicate (64 - t.data.length) 0)[i]?.getD 0 = t.data.getD i 0 := by
  refine ⟨by simp; omega, ?_⟩
  rw [List.getElem?_append, List.getD_eq_getElem?_getD]
  split
  · rfl
  · rw [List.getElem?_replicate, List.getElem?_eq_none (by omega)]
    split <;> rfl

theorem ductVector_words : (ductVector t).extractLsb' 512 64 = t.p ∧ (ductVector t).extractLsb' 576 64 = t.status := by
  obtain ⟨l, hl⟩ : ∃ l, l = t.data ++ List.replicate (64 - t.data.length) 0 := ⟨_, rfl⟩
  have hlen : l.length = 64 := hl ▸ (ductData_padded h 0).1
  have hword : ∀ w : Word, BitVec.ofNat 64 (leNat (leBytes 8 w.toNat)) = w := fun w => by
    rw [leNat_leBytes, Nat.mod_eq_of_lt w.isLt, BitVec.ofNat_toNat, BitVec.setWidth_eq]
  rw [ductVector, ← hl]
  constructor
  · rw [extractLsb'_ofNat_leNat l _ _ (by simp [hlen, length_leBytes]) (by rw [hlen]) (by rw [length_leBytes]), hword]
  · have hend := extractLsb'_ofNat_leNat (w := 4096) (start := 576) (n := 64) (l ++ leBytes 8 t.p.toNat) (leBytes 8 t.status.toNat) []
      (by simp [hlen, length_leBytes]) (by simp [hlen, length_leBytes]) (by rw [length_leBytes])
    rw [List.append_nil] at hend
    rw [hend, hword]

theorem laneOf_ductVector (i : Nat) : (i < 64 → laneOf 8 (ductVector t).toNat i = (t.data.getD i 0).toNat) ∧ (80 ≤ i → laneOf 8 (ductVector t).toNat i = 0) := by
  obtain ⟨hlen, hdata⟩ := ductData_padded h i
  obtain ⟨l, hl⟩ : ∃ l, l = t.data ++ List.replicate (64 - t.data.length) 0 := ⟨_, rfl⟩
  rw [← hl] at hlen hdata
  have htotal : (l ++ leBytes 8 t.p.toNat ++ leBytes 8 t.status.toNat).length = 80 := by simp [hlen, length_leBytes]
  rw [ductVector, ← hl, toNat_ofNat_leNat (by rw [htotal]; decide), laneOf_leNat, List.getD_eq_getElem?_getD]
  refine ⟨fun hi => ?_, fun hi => ?_⟩
  · rw [List.append_assoc, List.getElem?_append_left (by omega), hdata]
  · rw [List.getElem?_eq_none (by omega)]
    rfl

end

/-! ### One step of a chain (R132) -/

/-- The owner that the address of a step names (R172). -/
def stepOwner (here : Nat) (addr : Word) : Nat := if addr.extractLsb' 48 16 = 0xFFFF then here else (addr.extractLsb' 48 16).toNat

/-- The step is the chain's last and loads its data. -/
def Packet.lastLoad (p : Packet) : Bool := decide (p.k + 1 = p.n ∧ p.lc ≠ 0)

/-- Bytes that the step reads. -/
def Packet.stepSize (p : Packet) : Nat := if p.lastLoad = true then 4 * 2 ^ p.lc.val else 8

/-- As whom a die reads for a chain. -/
def State.chainAgent (s : State) (here : Nat) (p : Packet) : Agent :=
  { die := here, part := p.part, asid := p.asid, vi := (s.issuer p).bind (·.vi), home := true }

/-- The state in which a chain's read performs: charged to its issuer, and counted. -/
def State.chainRead (s : State) (here : Nat) (p : Packet) (xs : List Xl) : State :=
  noteRead (match s.issuer p with | some c => hostChargeN s c xs false p.stepSize | none => s) here xs

theorem ductSize_pos (lc : Fin 5) : ductSize lc > 0 ↔ lc ≠ 0 := by
  unfold ductSize
  have hv : lc.val = 0 ↔ lc = 0 := by rw [Fin.ext_iff]; rfl
  split
  · simp [hv.mp ‹_›]
  · simp [mt hv.mpr ‹_›]

theorem lastLoad_iff (p : Packet) : p.lastLoad = true ↔ p.k + 1 = p.n ∧ ductSize p.lc > 0 := by rw [Packet.lastLoad, decide_eq_true_iff, ductSize_pos]

theorem stepSize_eq (p : Packet) : (if p.k + 1 = p.n ∧ ductSize p.lc > 0 then ductSize p.lc else 8) = p.stepSize := by
  unfold Packet.stepSize
  by_cases h : p.lastLoad = true
  · have hlc := ((lastLoad_iff p).mp h).2
    rw [if_pos h, if_pos ((lastLoad_iff p).mp h)]
    unfold ductSize at hlc ⊢
    split at hlc
    · exact absurd hlc (lt_irrefl 0)
    · rw [if_neg ‹_›]
  · rw [if_neg h, if_neg (mt (lastLoad_iff p).mpr h)]

/-- The owner is there for a chain: its package is in the domain and, where it is this one, holds a quad of the chain's partition (R132). -/
def State.ownerThere (s : State) (here owner : Nat) (part : Fin 16) : Prop :=
  owner / 4 ∈ s.domain ∧ (owner / 4 ≠ here / 4 ∨ s.partIn (owner / 4) part = true)

theorem ownerThere_iff (s : State) (here owner : Nat) (part : Fin 16) :
    (s.domain.contains (owner / 4) && (owner / 4 != here / 4 || s.partIn (owner / 4) part)) = true ↔ s.ownerThere here owner part := by
  simp [State.ownerThere]

section
variable {s : State} {here : Nat} {p : Packet} {m : Word} {o : BitVec 32} (hs : p.steps[p.k]? = some (m, o))
include hs

section
variable {owner : Nat} (ho : stepOwner here (p.p + o.signExtend 64) = owner) (hne : owner ≠ here)
include ho hne

theorem serveStep_away : serveStep s here p = if p.hops = p.h then .done s p (ductStatus 2 p.k p.hops 0) [] else
    let q := { p with hops := p.hops + 1 }
    if s.domain.contains (owner / 4) && (owner / 4 != here / 4 || s.partIn (owner / 4) p.part) then .forward q owner
    else if !aligned (p.p + o.signExtend 64) p.stepSize then .done s q (ductStatus 3 p.k q.hops 0) []
    else .done s q (ductStatus 1 p.k q.hops 3) [] := by
  subst ho
  unfold serveStep
  rw [hs, ← stepSize_eq]
  exact if_pos hne

theorem serveStep_forward (hh : p.hops ≠ p.h) (ht : s.ownerThere here owner p.part) : serveStep s here p = .forward { p with hops := p.hops + 1 } owner :=
  (serveStep_away hs ho hne).trans ((if_neg hh).trans (if_pos ((ownerThere_iff ..).mpr ht)))

theorem serveStep_nowhere (hh : p.hops ≠ p.h) (ht : ¬s.ownerThere here owner p.part) :
    serveStep s here p = if (p.p + o.signExtend 64).toNat % p.stepSize = 0 then .done s { p with hops := p.hops + 1 } (ductStatus 1 p.k (p.hops + 1) 3) []
      else .done s { p with hops := p.hops + 1 } (ductStatus 3 p.k (p.hops + 1) 0) [] := by
  refine (serveStep_away hs ho hne).trans ((if_neg hh).trans ((if_neg (mt (ownerThere_iff ..).mp ht)).trans ?_))
  by_cases ha : (p.p + o.signExtend 64).toNat % p.stepSize = 0
  · exact (if_neg (not_misaligned ha)).trans (if_pos ha).symm
  · exact (if_pos (not_aligned ha)).trans (if_neg ha).symm

end

theorem serveStep_misaligned (ho : stepOwner here (p.p + o.signExtend 64) = here) (ha : (p.p + o.signExtend 64).toNat % p.stepSize ≠ 0) :
    serveStep s here p = .done s p (ductStatus 3 p.k p.hops 0) [] := by
  rw [← stepSize_eq] at ha
  unfold serveStep
  rw [hs]
  exact (if_neg (not_not.mpr ho)).trans (if_pos (not_aligned ha))

variable (ho : stepOwner here (p.p + o.signExtend 64) = here) (ha : (p.p + o.signExtend 64).toNat % p.stepSize = 0)
include ho ha

theorem serveStep_here : serveStep s here p = match s.readVa (s.chainAgent here p) .rd (p.p + o.signExtend 64) p.stepSize with
    | .error (e, va) =>
      match ductFail e with
      | some (st, fk) => .done (countError s (s.chainAgent here p) e va) p (ductStatus st p.k p.hops fk) []
      | none => .waits (if e = .absent then askResident s (s.chainAgent here p) va else s)
    | .ok (xs, bs) =>
      if (s.issuer p).any fun c => hostWaits s c xs false then .waits s else
      let w := leWord (bs.take 8) &&& m
      if p.k + 1 = p.n ∧ ductSize p.lc > 0 then .done (s.chainRead here p xs) p (ductStatus 0 p.k p.hops 0) (leBytes 8 w.toNat ++ bs.drop 8)
      else if p.k + 1 = p.n then .done (s.chainRead here p xs) { p with p := w } (ductStatus 0 p.k p.hops 0) []
      else .again (s.chainRead here p xs) { p with p := w, k := p.k + 1 } := by
  unfold State.chainRead
  rw [← stepSize_eq] at ha ⊢
  unfold serveStep
  rw [hs]
  exact (if_neg (not_not.mpr ho)).trans (if_neg (not_misaligned ha))

theorem serveStep_miss {st : BitVec 2} {va : Word}
    (h : s.readVa (s.chainAgent here p) .rd (p.p + o.signExtend 64) p.stepSize = .error (.xlateMiss st, va)) :
    serveStep s here p = .done (countError s (s.chainAgent here p) (.xlateMiss st) va) p (ductStatus 1 p.k p.hops 1) [] := by
  rw [serveStep_here hs ho ha, h]
  rfl

theorem serveStep_reads {xs : List Xl} {bs : List Byte} (h : s.readVa (s.chainAgent here p) .rd (p.p + o.signExtend 64) p.stepSize = .ok (xs, bs))
    (hw : ∀ c, s.issuer p = some c → hostWaits s c xs false = false) :
    serveStep s here p =
      if p.k + 1 = p.n ∧ ductSize p.lc > 0 then
        .done (s.chainRead here p xs) p (ductStatus 0 p.k p.hops 0) (leBytes 8 (leWord (bs.take 8) &&& m).toNat ++ bs.drop 8)
      else if p.k + 1 = p.n then .done (s.chainRead here p xs) { p with p := leWord (bs.take 8) &&& m } (ductStatus 0 p.k p.hops 0) []
      else .again (s.chainRead here p xs) { p with p := leWord (bs.take 8) &&& m, k := p.k + 1 } := by
  have hgoes : ¬(s.issuer p).any (fun c => hostWaits s c xs false) = true := by
    cases hc : s.issuer p with
    | none => exact Bool.false_ne_true
    | some c => exact ne_true_of_eq_false (hw c hc)
  rw [serveStep_here hs ho ha, h]
  exact if_neg hgoes

end

/-! ### Serving the packets of a die (R192, R196) -/

/-- What serving packet p, at place i of a die's packets, leaves. -/
def ServesPacket (s : State) (o : Nat) (out : State) (p : Packet) (i : Nat) : Prop :=
  (∀ t q w bs, serveStep s o p = .done t q w bs → out = sendResult (t.modDie o fun d => { d with packets := d.packets.eraseIdx i }) q w bs)
  ∧ (∀ t q, serveStep s o p = .again t q → out = t.modDie o fun d => { d with packets := d.packets.set i q })
  ∧ ∀ q x, serveStep s o p = .forward q x → out = sendOn (s.modDie o fun d => { d with packets := d.packets.eraseIdx i }) q x

theorem serveFirst_head (s : State) (o : Nat) (p : Packet) (i : Nat) (r : List (Packet × Nat)) : ServesPacket s o (serveFirst o ((p, i) :: r) s) p i := by
  refine ⟨fun t q w bs h => ?_, fun t q h => ?_, fun q x h => ?_⟩ <;> rw [serveFirst, h]

/-- Of two packets the more urgent comes first, the older one on a tie (R192). -/
theorem serveOrder_pair (p q : Packet) : serveOrder [p, q] = if p.urg.toNat < q.urg.toNat then [(q, 1), (p, 0)] else [(p, 0), (q, 1)] := by
  simp only [serveOrder, List.zipIdx_cons, List.zipIdx_nil, List.insertionSort_cons, List.insertionSort_nil, List.orderedInsert]
  by_cases h : p.urg.toNat < q.urg.toNat
  · rw [if_pos h, if_neg (Nat.not_le.mpr h)]
  · rw [if_neg h, if_pos (Nat.not_lt.mp h)]

/-- The state from which a die serves: stale packets are gone (R196). -/
def State.freshPackets (s : State) (o : Nat) : State :=
  s.modDie o fun d => { d with packets := d.packets.filter fun p => !staleGen s p.part p.rgen }

section
variable {s : State} {o : Nat}

theorem stepServe_none (h : ((s.freshPackets o).die o).packets = []) : exec (.ductusStepServe o) s = .next (s.freshPackets o) := by
  show Host.Outcome.next (serveFirst o (serveOrder (((s.freshPackets o).die o).packets.take 256)) (s.freshPackets o)) = _
  rw [h]
  rfl

theorem stepServe_one {p : Packet} (h : ((s.freshPackets o).die o).packets = [p]) :
    ∃ out, exec (.ductusStepServe o) s = .next out ∧ ServesPacket (s.freshPackets o) o out p 0 := by
  refine ⟨serveFirst o (serveOrder (((s.freshPackets o).die o).packets.take 256)) (s.freshPackets o), rfl, ?_⟩
  rw [h]
  exact serveFirst_head _ o p 0 []

theorem stepServe_two {p q : Packet} (h : ((s.freshPackets o).die o).packets = [p, q]) :
    ∃ out, exec (.ductusStepServe o) s = .next out
      ∧ if p.urg.toNat < q.urg.toNat then ServesPacket (s.freshPackets o) o out q 1 else ServesPacket (s.freshPackets o) o out p 0 := by
  refine ⟨serveFirst o (serveOrder (((s.freshPackets o).die o).packets.take 256)) (s.freshPackets o), rfl, ?_⟩
  rw [h, show [p, q].take 256 = [p, q] from rfl, serveOrder_pair]
  split
  · exact serveFirst_head _ o q 1 _
  · exact serveFirst_head _ o p 0 _

end

theorem sendResult_here {s : State} {p : Packet} (w : Word) (bs : List Byte) (h : p.rpkg = s.package) :
    sendResult s p w bs = { s with results := s.results ++ [ductResult p w bs] } := if_pos h

theorem sendOn_split (s : State) (q : Packet) (x : Nat) : sendOn s q x =
    if x / 4 = s.package then s.modDie x fun d => { d with packets := d.packets ++ [q] } else sendOn s q x := by
  split
  · exact if_pos ‹_›
  · rfl

/-! ### Results and loss (R134, R194) -/

theorem lose_late {t : DuctSlot} {now : Nat} (hw : t.busy = true ∧ t.result = false) (h : ¬now < t.at_ + 1048576) :
    t.lose now = { t with result := true, p := t.start, status := 6, data := [] } := by
  have hlate : decide (t.at_ + ductLimit ≤ now) = true := decide_eq_true (by unfold ductLimit; omega)
  exact if_pos (by rw [hw.1, hw.2, hlate]; rfl)

theorem lose_early {t : DuctSlot} {now : Nat} (h : ¬(t.busy = true ∧ t.result = false) ∨ now < t.at_ + 1048576) : t.lose now = t := by
  refine if_neg fun hl => ?_
  simp only [Bool.and_eq_true, Bool.not_eq_true'] at hl
  have hlate : t.at_ + ductLimit ≤ now := of_decide_eq_true hl.2
  unfold ductLimit at hlate
  exact h.elim (· hl.1) fun ht => by omega

theorem modDuct_id {x : Ctx} {tag : Fin 16} {f : DuctSlot → DuctSlot} (h : f x.ducts[tag] = x.ducts[tag]) : x.modDuct tag f = x := by
  unfold Ctx.modDuct
  rw [h]
  simp

/-- The state in which an accepted result has left its way. -/
def State.resultTaken (s : State) (i : Nat) : State := { s with results := s.results.eraseIdx i }

/-- The number of the context that a result is for (R194). -/
def State.resultFor (s : State) (r : DuctResult) : Nat := if r.uid = 0 then s.requester r.rcore r.rslot r.tag r.seq else r.uid

/-- What a result does to the context it is for (R134, R194). -/
def Ctx.takeResult (x : Ctx) (now : Nat) (r : DuctResult) : Ctx :=
  if x.ducts[r.tag].at_ + ductLimit ≤ now then x.modDuct r.tag (·.lose now)
  else if x.ducts[r.tag].busy && !x.ducts[r.tag].result && x.ducts[r.tag].seq == r.seq then
    (x.modDuct r.tag fun t => t.fill r.p r.status r.data).modStrand (Fin.ofNat 4 x.ducts[r.tag].strand) (·.event 2)
  else x

section
variable {s : State} {i : Nat} {r : DuctResult} (h : s.results[i]? = some r)
include h

theorem resultAccept_eq : exec (.ductusResultAccept i) s = .next (if staleGen s r.part r.rgen then s.resultTaken i
    else (s.resultTaken i).modUid ((s.resultTaken i).resultFor r) fun x => x.takeResult s.time r) := by
  show execDuctusResultAccept i s = _
  unfold execDuctusResultAccept
  rw [h]
  rfl

theorem resultAccept_discards (hd : staleGen s r.part r.rgen = true ∨ s.findUid ((s.resultTaken i).resultFor r) = none) :
    exec (.ductusResultAccept i) s = .next (s.resultTaken i) := by
  rw [resultAccept_eq h]
  split
  · rfl
  · have hnone : (s.resultTaken i).findUid ((s.resultTaken i).resultFor r) = none := hd.resolve_left ‹_›
    rw [State.modUid, hnone]

theorem resultAccept_takes {ref : CtxRef} {x : Ctx} (hg : staleGen s r.part r.rgen = false) (hf : s.findUid ((s.resultTaken i).resultFor r) = some (ref, x)) :
    exec (.ductusResultAccept i) s = .next ((s.resultTaken i).putCtx ref (x.takeResult s.time r)) := by
  have hfound : (s.resultTaken i).findUid ((s.resultTaken i).resultFor r) = some (ref, x) := hf
  rw [resultAccept_eq h, if_neg (by simp [hg]), State.modUid, hfound]

end

section
variable {x : Ctx} {now : Nat} {r : DuctResult}

theorem takeResult_fills (hw : x.ducts[r.tag].busy = true ∧ x.ducts[r.tag].result = false) (ht : now < x.ducts[r.tag].at_ + 1048576)
    (hs : x.ducts[r.tag].seq = r.seq) : x.takeResult now r = (x.modDuct r.tag fun t => t.fill r.p r.status r.data).modStrand
      (Fin.ofNat 4 x.ducts[r.tag].strand) (·.event 2) :=
  (if_neg (by unfold ductLimit; omega)).trans (if_pos (by rw [hw.1, hw.2, hs]; simp))

theorem takeResult_late (hw : x.ducts[r.tag].busy = true ∧ x.ducts[r.tag].result = false) (ht : ¬now < x.ducts[r.tag].at_ + 1048576) :
    x.takeResult now r = { x with ducts := x.ducts.set r.tag { x.ducts[r.tag] with result := true, p := x.ducts[r.tag].start, status := 6, data := [] } } := by
  have htake : x.takeResult now r = x.modDuct r.tag (·.lose now) := if_pos (by unfold ductLimit; omega)
  rw [htake, Ctx.modDuct, lose_late hw ht]

theorem takeResult_unmatched (h : ¬(x.ducts[r.tag].busy = true ∧ x.ducts[r.tag].result = false)
    ∨ (now < x.ducts[r.tag].at_ + 1048576 ∧ x.ducts[r.tag].seq ≠ r.seq)) : x.takeResult now r = x := by
  unfold Ctx.takeResult
  split
  · have hlose : x.ducts[r.tag].lose now = x.ducts[r.tag] := lose_early (h.imp_right (·.1))
    exact modDuct_id hlose
  · refine if_neg fun hm => ?_
    simp only [Bool.and_eq_true, Bool.not_eq_true', beq_iff_eq] at hm
    exact h.elim (· hm.1) (·.2 hm.2)

end

theorem ductusLost_eq {s : State} {c : CtxRef} {x : Ctx} (tag : Fin 16) (h : s.findCtx c = some x) :
    exec (.ductusLost c tag) s = .next (s.putCtx c (x.modDuct tag (·.lose s.time))) := by
  show Host.Outcome.next (s.modRef c fun x => x.modDuct tag (·.lose s.time)) = _
  rw [State.modRef, h]

/-- Settles O40: DUCT and DCOL by the state of their slot; a step by its owner, its alignment and what it reads; the events by the packet served first and by whether
the slot still waits in time. -/
theorem ductusChains : Obligations.DuctusChains := by
  refine ⟨fun s tag a b d n1 h1 lc oc r => ?_, fun s here p m o hs => ?_, fun s o => ?_, fun s i r h => ?_, fun s c x tag h => ?_⟩
  · intro t free
    refine ⟨duct_busy, fun hb => ?_, fun hb x => dcol_free hb, fun hb hr x => ⟨dcol_waits hb hr, fun _ => rfl⟩, fun hb hr => ⟨?_, fun hlen => ?_⟩⟩
    · obtain ⟨u, he, hmem, hst, hdi, hown, hother⟩ := duct_issues a b n1 h1 lc oc hb
      refine ⟨u, _, he, hmem, hst, hdi, rfl, rfl, rfl, rfl, rfl, rfl, rfl, rfl, rfl, rfl, rfl, rfl, rfl, ?_⟩
      rw [hown]
      exact ⟨rfl, rfl, rfl, rfl, hother⟩
    · have hv : (ductOk t.status && t.len != 0) = true ↔ t.status.extractLsb' 0 8 = 0 ∧ t.len ≠ 0 := by simp [ductOk]
      simp only [← hv]
      exact ⟨dcol_scalar hb hr, fun _ => rfl⟩
    · obtain ⟨hp, hstatus⟩ := ductVector_words hlen
      exact ⟨ductVector t, ⟨dcol_vector hb hr, fun _ => rfl⟩, fun i => (laneOf_ductVector hlen i).1, hp, hstatus, fun i => (laneOf_ductVector hlen i).2⟩
  · intro addr owner last size by_ ag there q
    refine ⟨fun hne hh => (serveStep_away hs rfl hne).trans (if_pos hh), fun hne hh => ⟨serveStep_forward hs rfl hne hh, serveStep_nowhere hs rfl hne hh⟩,
      serveStep_misaligned hs, fun ho ha => ⟨fun st va => serveStep_miss hs ho ha, fun xs bs h hw => ?_⟩⟩
    intro u w
    have hgo := serveStep_reads hs ho ha h hw
    refine ⟨fun hl => hgo.trans (if_pos ((lastLoad_iff p).mp hl)), fun hk hl => ?_, fun hk => ?_⟩
    · exact hgo.trans ((if_neg fun hlast => (ductSize_pos p.lc).mp hlast.2 hl).trans (if_pos hk))
    · exact hgo.trans ((if_neg fun hlast => hk.ne hlast.1).trans (if_neg hk.ne))
  · intro s1 serves
    have hserves : ∀ {out p i}, exec (.ductusStepServe o) s = .next out → ServesPacket s1 o out p i → serves p i := by
      intro out p i he ⟨hdone, hagain, hforward⟩
      refine ⟨fun t q w bs h => ⟨fun hq ht => ?_, ?_⟩, fun t q h => he.trans (congrArg _ (hagain t q h)), fun q x h => ?_⟩
      · exact he.trans (congrArg _ ((hdone t q w bs h).trans (sendResult_here w bs (hq.trans ht.symm))))
      · exact he.trans (congrArg _ (hdone t q w bs h))
      · exact he.trans (congrArg _ ((hforward q x h).trans (sendOn_split _ q x)))
    refine ⟨stepServe_none, fun p hp => ?_, fun p q hp => ?_⟩
    · obtain ⟨out, he, hout⟩ := stepServe_one hp
      exact hserves he hout
    · obtain ⟨out, he, hout⟩ := stepServe_two hp
      split
      · exact hserves he ((if_pos ‹_›).mp hout)
      · exact hserves he ((if_neg ‹_›).mp hout)
  · intro s1 uid
    refine ⟨resultAccept_discards h, fun ref x hg hf => ?_⟩
    intro t waits inTime
    have hgo := resultAccept_takes h hg hf
    refine ⟨fun hw ht hseq => ?_, fun hw ht => ?_, fun hun => ?_⟩
    · rw [hgo, takeResult_fills hw ht hseq]
      rfl
    · rw [hgo, takeResult_late hw ht]
      rfl
    · rw [hgo, takeResult_unmatched hun]
      rfl
  · intro t
    rw [ductusLost_eq tag h]
    refine ⟨fun hb hr ht => ?_, fun he => ?_⟩
    · rw [Ctx.modDuct, lose_late ⟨hb, hr⟩ (Nat.not_lt.mpr ht)]
    · have hkeep : x.ducts[tag].lose s.time = x.ducts[tag] := lose_early <| he.elim (fun h => .inl fun hw => Bool.false_ne_true (h.symm.trans hw.1))
        fun h => h.imp_left fun h hw => Bool.false_ne_true (hw.2.symm.trans h)
      rw [modDuct_id (f := fun t => t.lose s.time) hkeep]

end Sys2Proof.Machine

namespace Sys2Proof.Machine

/-! ## Traps and banks (R140-R142, R154, R157) -/

/-! ### The phases held for a strand (R162) -/

theorem modStrand_heldFor (x : Ctx) (i : Fin 4) (f : Strand → Strand) (n : Nat) : (x.modStrand i f).heldFor n = x.heldFor n := rfl

theorem strands_setHold (x : Ctx) (id : PhaseId) (h : Option Hold) : (x.setHold id h).strands = x.strands := by cases id <;> rfl

theorem strands_popFormats (x : Ctx) (id : PhaseId) : (x.popFormats id).strands = x.strands := by
  unfold Ctx.popFormats
  refine List.foldlRecOn (motive := fun y : Ctx => y.strands = x.strands) _ _ rfl fun y hy e _ => ?_
  split
  · split <;> exact hy
  · exact hy

/-- What TRET releases are tasks, not strands. -/
theorem strands_unhold (x : Ctx) (i : Fin 4) : (x.unhold i).strands = x.strands :=
  List.foldlRecOn (motive := fun y : Ctx => y.strands = x.strands) _ _ rfl fun y hy id _ => by
    rw [strands_popFormats, Ctx.release, strands_setHold, hy]

theorem unhold_of_none {x : Ctx} {i : Fin 4} (h : x.heldFor i.val = []) : x.unhold i = x := by rw [Ctx.unhold, h]; rfl

/-! ### TRAP and TRET (R140, R141) -/

/-- Only what an update makes of the executing context matters. -/
theorem modCx_congr {s : State} {f g : Ctx → Ctx} (h : f s.cx = g s.cx) : s.modCx f = s.modCx g := congrArg (s.setCtx s.focus.core s.focus.slot) h

section
variable {s : State}

theorem trap_kills {code : BitVec 16} (h : s.st.level = 2) :
    exec (.trap code) s = .next (killCtx s (strandCtx s.focus) 0x30 0x04 (s.st.pc + 16) 0 (some (strandIx s.focus))) := by
  have hexec : exec (.trap code) s = .next (s.trapAt s.focus 0x04 code.toNat (s.st.pc + 16) 0 false false) := rfl
  rw [hexec, State.trapAt, if_pos (show (s.strandAt s.focus).level = 2 from h)]

theorem tret_at_zero (h : s.st.level = 0) : TakesTrap s (exec .tret s) 0x03 0 0 := by
  have hexec : exec .tret s = .next s.trapState := if_pos h
  rw [hexec]
  exact trap_takes s _ _ _

theorem tret_returns (h : s.st.level ≠ 0) : exec .tret s = .next (if s.st.trapReturn.level = 0
    then (s.modSt (·.trapReturn)).modCx (·.unhold (strandIx s.focus)) else s.modSt (·.trapReturn)) := by
  have hexec : exec .tret s = .next (if (s.modSt (·.trapReturn)).st.level = 0
    then (s.modSt (·.trapReturn)).modCx (·.unhold (strandIx s.focus)) else s.modSt (·.trapReturn)) := if_neg h
  rw [hexec, st_modSt]

/-- Return to level 1 changes the strand alone. -/
theorem tret_from_two (h : s.st.level = 2) : ∃ t, exec .tret s = .next t ∧ OnlyStrand s t
    ∧ t.st = { s.st with level := 1, pc := s.st.bank2.ret &&& ~~~0xF, latches := [], tracer := {},
                         forced := if s.st.bank2.force then some s.st.bank2.out else none } := by
  have hret : s.st.trapReturn = { s.st with level := 1, pc := s.st.bank2.ret &&& ~~~0xF, latches := [], tracer := {},
                                            forced := if s.st.bank2.force then some s.st.bank2.out else none } := by
    simp only [Strand.trapReturn, Strand.bank, h, if_true]
  refine ⟨_, (tret_returns (by rw [h]; decide)).trans (congrArg _ (if_neg (by rw [hret]; exact (by decide : (1 : Fin 3) ≠ 0)))), onlyStrand_modSt _ _, ?_⟩
  rw [st_modSt, hret]

/-- Return to level 0 gives back what was held for the strand (R162). -/
theorem tret_from_one (h : s.st.level = 1) : ∃ t, exec .tret s = .next t ∧ OnlyCtx s t
    ∧ t.st = { s.st with level := 0, pc := s.st.bank1.ret &&& ~~~0xF, latches := [], tracer := {},
                         forced := if s.st.bank1.force then some s.st.bank1.out else none }
    ∧ (s.cx.heldFor (strandIx s.focus).val = [] → OnlyStrand s t) := by
  have hne : s.st.level ≠ 2 := by rw [h]; decide
  have hret : s.st.trapReturn = { s.st with level := 0, pc := s.st.bank1.ret &&& ~~~0xF, latches := [], tracer := {},
                                            forced := if s.st.bank1.force then some s.st.bank1.out else none } := by
    simp only [Strand.trapReturn, Strand.bank, hne, if_false]
  have hexec : exec .tret s = .next (s.modCx fun x => (x.modStrand (strandIx s.focus) (·.trapReturn)).unhold (strandIx s.focus)) :=
    (tret_returns (by rw [h]; decide)).trans <| congrArg _ <| (if_pos (by rw [hret])).trans (modCx_modCx ..)
  refine ⟨_, hexec, onlyCtx_modCx _ _, ?_, fun hnone => ?_⟩
  · rw [st_modCx, strands_unhold, ← hret]
    exact strands_modStrand ..
  · rw [modCx_congr (g := fun x => x.modStrand (strandIx s.focus) (·.trapReturn)) (unhold_of_none ((modStrand_heldFor ..).trans hnone))]
    exact onlyStrand_modSt s _

end

/-! ### BKR and BKW (R142) -/

theorem bankField_of_level (t : Strand) :
    let b := if t.level = 2 then t.bank2 else t.bank1
    let at0 := fun v : Word => if t.level = 0 then 0 else v
    t.bankField .cause = at0 b.cause ∧ t.bankField .ret = at0 b.ret ∧ t.bankField .addr = at0 b.addr
    ∧ t.bankField .guard = at0 ((if b.force then 2 else 0) ||| if b.out then 1 else 0) := ⟨rfl, rfl, rfl, rfl⟩

theorem retire_modBank (t : Strand) (i : Fin 2) (f : Bank → Bank) (n : Nat) :
    (t.modBank i f).retire n = { t.retire n with bank1 := if i = 0 then f t.bank1 else t.bank1, bank2 := if i = 0 then t.bank2 else f t.bank2 } := by
  rw [retire_of t (t.modBank i f) n (by unfold Strand.modBank; split <;> simp), retire_eq t n]
  unfold Strand.modBank
  split <;> rfl

section
variable {s : State} {a : SReg} {f : BankField}

theorem bkw_at_zero (h : s.st.level = 0) : TakesTrap s (exec (.bkw a f) s) 0x03 0 0 := by
  have hexec : exec (.bkw a f) s = .next s.trapState := if_pos h
  rw [hexec]
  exact trap_takes s _ _ _

/-- A write of a field changes the bank of the current level. -/
theorem bkw_writes {v : Bank} (h : s.st.level ≠ 0) (hv : (if s.st.level = 2 then s.st.bank2 else s.st.bank1).write f (s.getS a) = v) :
    ∃ t, exec (.bkw a f) s = .next t ∧ OnlyStrand s t
      ∧ t.st = { s.st.retire 1 with bank1 := if s.st.level = 2 then s.st.bank1 else v, bank2 := if s.st.level = 2 then v else s.st.bank2 } := by
  refine ⟨_, if_neg h, onlyStrand_modSt _ _, ?_⟩
  rw [st_modSt, retire_modBank]
  split at hv
  next h2 => simp [h2, hv]
  next h2 => simp [h2, hv]

end

/-- Settles O12: TRAP as every trap is taken, TRET by the level it returns to, BKR and BKW by the bank of the level. -/
theorem trapAndBanks : Obligations.TrapAndBanks := by
  refine ⟨fun s code => ⟨trapAt_takes s _ _ _ _ _ _, trap_kills, tret_at_zero, tret_from_two, tret_from_one⟩, fun s d a => ?_⟩
  intro b at0
  obtain ⟨hcause, hret, haddr, hguard⟩ := bankField_of_level s.st
  have hbkr : ∀ f v, s.st.bankField f = v → ScalarWrite s (exec (.bkr d f) s) d v := fun f v h => h ▸ scalarResult_writes s d (s.st.bankField f)
  refine ⟨hbkr _ _ hcause, hbkr _ _ hret, hbkr _ _ haddr, hbkr _ _ hguard, hbkr _ _ rfl, fun f v hv => ⟨bkw_at_zero, fun h => bkw_writes h ?_⟩⟩
  rcases hv with ⟨rfl, rfl⟩ | ⟨rfl, rfl⟩ <;> rfl

end Sys2Proof.Machine

namespace Sys2Proof.Machine

/-! ## Page service (R143, R181-R183) -/

/-- An instruction completes with a state that has the same memory. -/
theorem completes_next {s t : State} {o : Out} (ho : o = .next t) (hm : t.mem = s.mem) : Completes s o t := ⟨ho, rawByte_of_mem hm⟩

/-- A status changes the strand alone. -/
theorem completes_status {s : State} {o : Out} {d : SReg} {v : Word} (ho : o = .next (s.status d v)) : Completes s o (s.status d v) :=
  completes_next ho rfl

/-! ### Requests on a page (R143, R182) -/

section
variable {s : State} {d : SReg} {va : Word}

theorem pageFail_invalid {e : MemErr} (ha : e ≠ .absent) (hh : e ≠ .held) : s.pageFail d va e = s.status d 3 := by
  cases e with
  | absent => exact absurd rfl ha
  | held => exact absurd rfl hh
  | _ => rfl

theorem withResident_resident {x : Xl} (f : Xl → State) (h : s.page va = .ok x) (hr : x.resident = true) : s.withResident d va f = f x := by
  simp only [State.withResident, h, hr, if_true]

theorem withResident_away {x : Xl} (f : Xl → State) (h : s.page va = .ok x) (hr : x.resident = false) :
    s.withResident d va f = (askResident s s.agent va).hold := by
  simp only [State.withResident, h, hr, Bool.false_eq_true, if_false]

theorem withResident_error {e : MemErr} (f : Xl → State) (h : s.page va = .error e) : s.withResident d va f = s.pageFail d va e := by
  simp only [State.withResident, h]

end

section
variable {s : State} {d : SReg} {a : AReg}

theorem pgsvcTouch_eq : exec (.pgsvcTouch d a) s = .next (s.withResident d (s.getA a) fun _ => s.status d 0) := rfl

theorem pgsvcPin_eq : exec (.pgsvcPin d a) s = .next (s.withResident d (s.getA a) fun x =>
    if (s.frameOf x).pin = BitVec.allOnes 16 then s.status d 4
    else (s.modFrame x fun f => { f with pin := f.pin + 1, size := max f.size (leafSize x.hent) }).status d 0) := rfl

theorem pgsvcUnpin_ok {x : Xl} (h : s.page (s.getA a) = .ok x) : exec (.pgsvcUnpin d a) s = .next (if (s.frameOf x).pin = 0 then s.status d 4
    else (s.modFrame x fun f => { f with pin := f.pin - 1 }.rest).status d 0) := by
  show Host.Outcome.next _ = _
  rw [h]
  rfl

theorem pgsvcUnpin_error {e : MemErr} (h : s.page (s.getA a) = .error e) : exec (.pgsvcUnpin d a) s = .next (s.pageFail d (s.getA a) e) := by
  show Host.Outcome.next _ = _
  rw [h]

theorem pgsvcQuery_ok {x : Xl} (h : s.page (s.getA a) = .ok x) :
    exec (.pgsvcQuery d a) s = .next (s.status d (pageWord (s.getA a) x ((s.frameOf x).pin ≠ 0))) := by
  show Host.Outcome.next _ = _
  rw [h]

theorem pgsvcQuery_absent (h : s.page (s.getA a) = .error .absent) : exec (.pgsvcQuery d a) s = .next (askResident s s.agent (s.getA a)).hold := by
  show Host.Outcome.next _ = _
  rw [h]

theorem pgsvcQuery_error {e : MemErr} (h : s.page (s.getA a) = .error e) (ha : e ≠ .absent) :
    exec (.pgsvcQuery d a) s = .next (s.status d (if s.pageOwner (s.getA a) = none then 3 else 0)) := by
  have hexec : exec (.pgsvcQuery d a) s = .next (s.status d (if (s.pageOwner (s.getA a)).isNone then stNotValid else 0)) := by
    show Host.Outcome.next _ = _
    rw [h]
    cases e with
    | absent => exact absurd rfl ha
    | _ => rfl
  rw [hexec]
  simp only [Option.isNone_iff_eq_none]
  rfl

/-- The four requests on a page that both stages map (R143). -/
theorem pageService_mapped {x : Xl} (h : s.page (s.getA a) = .ok x) :
    (x.resident = true → Completes s (exec (.pgsvcTouch d a) s) (s.status d 0))
    ∧ (x.resident = false → exec (.pgsvcTouch d a) s = .next (askResident s s.agent (s.getA a)).hold)
    ∧ (x.resident = true → (s.frameOf x).pin ≠ BitVec.allOnes 16 →
        Completes s (exec (.pgsvcPin d a) s) ((s.modFrame x fun f => { f with pin := f.pin + 1, size := max f.size (leafSize x.hent) }).status d 0))
    ∧ (x.resident = true → (s.frameOf x).pin = BitVec.allOnes 16 → Completes s (exec (.pgsvcPin d a) s) (s.status d 4))
    ∧ ((s.frameOf x).pin ≠ 0 → Completes s (exec (.pgsvcUnpin d a) s) ((s.modFrame x fun f => { f with pin := f.pin - 1 }.rest).status d 0))
    ∧ ((s.frameOf x).pin = 0 → Completes s (exec (.pgsvcUnpin d a) s) (s.status d 4))
    ∧ Completes s (exec (.pgsvcQuery d a) s) (s.status d (pageWord (s.getA a) x ((s.frameOf x).pin ≠ 0))) := by
  refine ⟨fun hr => completes_status ?_, fun hr => ?_, fun hr hp => completes_next ?_ rfl, fun hr hp => completes_status ?_,
    fun hp => completes_next ?_ rfl, fun hp => completes_status ?_, completes_status (pgsvcQuery_ok h)⟩
  · rw [pgsvcTouch_eq, withResident_resident _ h hr]
  · rw [pgsvcTouch_eq, withResident_away _ h hr]
  · rw [pgsvcPin_eq, withResident_resident _ h hr, if_neg hp]
  · rw [pgsvcPin_eq, withResident_resident _ h hr, if_pos hp]
  · rw [pgsvcUnpin_ok h, if_neg hp]
  · rw [pgsvcUnpin_ok h, if_pos hp]

/-- A page that is not valid (R143, log 77). -/
theorem pageService_invalid {e : MemErr} (h : s.page (s.getA a) = .error e) (ha : e ≠ .absent) (hh : e ≠ .held) :
    Completes s (exec (.pgsvcTouch d a) s) (s.status d 3) ∧ Completes s (exec (.pgsvcPin d a) s) (s.status d 3)
    ∧ Completes s (exec (.pgsvcUnpin d a) s) (s.status d 3)
    ∧ Completes s (exec (.pgsvcQuery d a) s) (s.status d (if s.pageOwner (s.getA a) = none then 3 else 0)) := by
  refine ⟨completes_status ?_, completes_status ?_, completes_status ?_, completes_status (pgsvcQuery_error h ha)⟩
  · rw [pgsvcTouch_eq, withResident_error _ h, pageFail_invalid ha hh]
  · rw [pgsvcPin_eq, withResident_error _ h, pageFail_invalid ha hh]
  · rw [pgsvcUnpin_error h, pageFail_invalid ha hh]

/-- A page of the tables is not resident (R182). -/
theorem pageService_absent (h : s.page (s.getA a) = .error .absent) :
    ∀ o ∈ [exec (.pgsvcTouch d a) s, exec (.pgsvcPin d a) s, exec (.pgsvcUnpin d a) s, exec (.pgsvcQuery d a) s],
      o = .next (askResident s s.agent (s.getA a)).hold := by
  have htouch : exec (.pgsvcTouch d a) s = .next (askResident s s.agent (s.getA a)).hold := by rw [pgsvcTouch_eq, withResident_error _ h]; rfl
  have hpin : exec (.pgsvcPin d a) s = .next (askResident s s.agent (s.getA a)).hold := by rw [pgsvcPin_eq, withResident_error _ h]; rfl
  simpa using ⟨htouch, hpin, pgsvcUnpin_error h, pgsvcQuery_absent h⟩

end

/-! ### Allocation (R143, R183) -/

/-- The scan of a pool whose last frame is usable takes that frame and leaves the others. -/
theorem poolScan_last {bad held : Word → Bool} (f : Nat → Word) {n : Nat} (hb : bad (f n) = false) (hh : held (f n) = false) :
    poolScan bad held (n + 1) ((List.range (n + 1)).map f) = (some (f n), (List.range n).map f) := by
  have hlast : ((List.range (n + 1)).map f)[n]? = some (f n) := by simp
  have hdrop : dropEntry ((List.range (n + 1)).map f) n = (List.range n).map f := by
    simp [dropEntry, List.range_succ, List.set_append_right]
  simp only [poolScan, hlast, hb, hh, Bool.false_eq_true, if_false, hdrop]

/-- Machine address of the record of a size's pool (R183). -/
def State.poolRecord (s : State) (o : Nat) (asid : BitVec 12) (size : Nat) : Nat := fld (s.desc o asid)[2] 51 6 * 64 + 16 * size
/-- Machine address of the pool's list. -/
def State.poolList (s : State) (o : Nat) (asid : BitVec 12) (size : Nat) : Nat := leNat (s.readMa o (s.poolRecord o asid size) 8)
/-- Frame `i` of the pool. -/
def State.poolFrame (s : State) (o : Nat) (asid : BitVec 12) (size i : Nat) : Word := leWord (s.readMa o (s.poolList o asid size + 8 * i) 8)
/-- No transfer holds a piece of a frame (R183, R188). -/
def State.unheld (s : State) (o : Nat) (p : Nat × Word) : Prop :=
  holdCount s (maDie o (fld p.2 51 0)) (fld p.2 51 48 * 2 ^ 48 + fld p.2 47 12 * 4096 + p.1 % 2 ^ (12 + leafSize p.2)) 4096 = 0
/-- What `.alloc` finds in the pool of a size: the frame taken, if any, and the frames left. -/
def State.poolScanned (s : State) (o : Nat) (asid : BitVec 12) (size : Nat) : Option Word × List Word :=
  let count := leNat (s.readMa o (s.poolRecord o asid size + 8) 4)
  poolScan (fun e => (framePieces s o (s.desc o asid) e.toNat size).isNone)
    (fun e => ((framePieces s o (s.desc o asid) e.toNat size).getD []).any fun p =>
      holdCount s (maDie o (fld p.2 51 0)) (fld p.2 51 48 * 2 ^ 48 + fld p.2 47 12 * 4096 + p.1 % 2 ^ (12 + leafSize p.2)) 4096 ≠ 0)
    count ((List.range count).map (s.poolFrame o asid size))
/-- The pool of a size holds the frames that a scan has left. -/
def State.poolLeft (s : State) (o : Nat) (asid : BitVec 12) (size : Nat) (frames : List Word) : State :=
  (s.writeMa o (s.poolList o asid size) (frames.flatMap fun e => leBytes 8 e.toNat)).writeMa o (s.poolRecord o asid size + 8) (leBytes 4 frames.length)
/-- A frame is zeroed and mapped by every entry of a page's group (R183). -/
def State.mapFrame (s : State) (o : Nat) (asid : BitVec 12) (off : Nat) (desc : Vector Word 8) (t e : Word) : State :=
  let z := zeroPieces s o asid ((framePieces s o desc e.toNat (leafSize t)).getD [])
  (tenGroup z o asid off (leafSize t)).foldl
    (fun u k => writeTenant u o asid k (1#64 <<< 62 ||| (t &&& 0x3CF0000000000FFF) ||| (e &&& 0x0000FFFFFFFFF000))) z

theorem poolScanned_last {s : State} {o : Nat} {asid : BitVec 12} {size n : Nat} {pieces : List (Nat × Word)}
    (hcount : leNat (s.readMa o (s.poolRecord o asid size + 8) 4) = n + 1)
    (hp : framePieces s o (s.desc o asid) (s.poolFrame o asid size n).toNat size = some pieces) (hfree : ∀ p ∈ pieces, s.unheld o p) :
    s.poolScanned o asid size = (some (s.poolFrame o asid size n), (List.range n).map (s.poolFrame o asid size)) := by
  rw [State.poolScanned, hcount]
  refine poolScan_last _ (by rw [hp]; rfl) ?_
  rw [hp, Option.getD_some, List.any_eq_false]
  intro p hm
  simpa [State.unheld] using hfree p hm

section
variable {s : State} {o : Nat} {asid : BitVec 12} {off ia : Nat} {t : Word} (hd : descOk (s.desc o asid) = true) (hw : s.tenWalk o asid off = .ok (ia, t))
include hd hw

theorem allocPage_valid (hv : fld t 63 62 = 1) (hz : tenZero t = true) (hb : baseAligned t = true) : allocPage s o asid off = (s, .ok 0) := by
  simp only [allocPage, hd, hw, hv, hz, hb]
  rfl

theorem allocPage_not_demand (hv : fld t 63 62 ≠ 1) (ht : demandOk t = false) : allocPage s o asid off = (s, .ok 1) := by
  simp only [allocPage, hd, hw, hv, ht, decide_false, Bool.false_and, Bool.not_true, Bool.not_false, Bool.false_eq_true, if_false, if_true]
  rfl

/-- R183: what becomes of a demand page is what the scan of its size's pool finds. -/
theorem allocPage_demand (ht : demandOk t = true) (hg : groupAway s o asid off (leafSize t) = none) :
    allocPage s o asid off = match (s.poolScanned o asid (leafSize t)).1 with
      | none => (s.poolLeft o asid (leafSize t) (s.poolScanned o asid (leafSize t)).2, .ok stNoFrame)
      | some e => ((s.poolLeft o asid (leafSize t) (s.poolScanned o asid (leafSize t)).2).mapFrame o asid off (s.desc o asid) t e, .ok stDone) := by
  have hv : fld t 63 62 ≠ 1 := by
    intro hv
    simp [demandOk, hv] at ht
  unfold allocPage
  simp only [hd, hw, hg, ht, hv, decide_false, Bool.false_and, Bool.not_true, Bool.false_eq_true, if_false]
  rfl

theorem allocPage_takes {e : Word} {frames : List Word} (ht : demandOk t = true) (hg : groupAway s o asid off (leafSize t) = none)
    (hscan : s.poolScanned o asid (leafSize t) = (some e, frames)) :
    allocPage s o asid off = ((s.poolLeft o asid (leafSize t) frames).mapFrame o asid off (s.desc o asid) t e, .ok 0) := by
  rw [allocPage_demand hd hw ht hg, hscan]
  rfl

end

section
variable {s : State} {d : SReg} {a : AReg}

theorem pgsvcAlloc_unowned (h : s.pageOwner (s.getA a) = none) : exec (.pgsvcAlloc d a) s = .next (s.status d 3) := by
  show Host.Outcome.next _ = _
  rw [h]
  rfl

theorem pgsvcAlloc_answers {o : Nat} {t : State} {v : Word} (h : s.pageOwner (s.getA a) = some o)
    (ht : allocPage s o s.cx.asid (fld (s.getA a) 47 0) = (t, .ok v)) : exec (.pgsvcAlloc d a) s = .next (t.status d v) := by
  show Host.Outcome.next _ = _
  rw [h]
  dsimp only
  rw [ht]

end

/-- Settles O13: requests by how the page translates, `.alloc` by the entry found and the frame that the scan of the pool takes. -/
theorem pageService : Obligations.PageService := by
  refine ⟨fun s d a => ?_, fun s d a o ia t e n pieces => ?_⟩
  · intro va
    refine ⟨fun x h => pageService_mapped h, fun e h ha hh => pageService_invalid h ha hh, pageService_absent,
      fun h => completes_status (pgsvcAlloc_unowned h), fun o ia t ho hd hw => ⟨fun hv hz hb => ?_, fun hv ht => ?_⟩⟩
    · exact completes_status (pgsvcAlloc_answers ho (allocPage_valid hd hw hv hz hb))
    · exact completes_status (pgsvcAlloc_answers ho (allocPage_not_demand hd hw hv ht))
  · intro desc off size record list ho hd hw ht hg hcount he hp hfree rest s1 s2
    subst he
    have halloc := allocPage_takes hd hw ht hg (poolScanned_last hcount hp hfree)
    rw [State.poolLeft, List.flatMap_map, List.length_map, List.length_range] at halloc
    exact pgsvcAlloc_answers ho halloc

end Sys2Proof.Machine

namespace Sys2Proof.Machine

/-! ## Tickets, currencies, seeds and key slots (R145, R146) -/

theorem fld_upper (v : Word) {k : Nat} (hk : k ≤ 64) : fld v 63 k = v.toNat / 2 ^ k := by
  have hlt : v.toNat / 2 ^ k < 2 ^ (64 - k) := Nat.div_lt_of_lt_mul (by rw [← pow_add, Nat.add_sub_cancel' hk]; exact v.isLt)
  rw [fld, Nat.shiftRight_eq_div_pow]
  exact Nat.mod_eq_of_lt hlt

theorem fld_lower (v : Word) (k : Nat) : fld v k 0 = v.toNat % 2 ^ (k + 1) := rfl

theorem extract_low (v : Word) (w : Nat) : v.extractLsb' 0 w = v.setWidth w := BitVec.eq_of_toNat_eq (by simp)

/-- An instruction of a privilege level completes at it, and below it raises PRIV_FAULT (R135). -/
theorem atLevel_of_atPriv {s t : State} {n : Nat} {o : Out} (ho : o = .next (s.atPriv n t)) (hm : t.mem = s.mem) : AtLevel s n o t := by
  subst ho
  refine ⟨fun hp => completes_next (by rw [atPriv_of_le t hp]) hm, fun hp => ?_⟩
  rw [atPriv_of_lt t (Nat.lt_of_not_le hp)]
  exact trap_takes s _ _ _

theorem hasPriv_iff (s : State) (n : Nat) : s.hasPriv n = true ↔ n ≤ s.cx.priv.val := decide_eq_true_iff

/-- The key slot of a number (R415). -/
def State.keySlot (s : State) (n : Nat) : KeySlot := SMap.get {} s.keys n

section
variable {s : State} {d a b : SReg}

theorem tkset_sets (h1 : 1 ≤ (s.getS a).toNat) (h2 : (s.getS a).toNat < 2 ^ 32) :
    exec (.tkset a) s = .next (s.modCx fun x => { x with tickets := (s.getS a).setWidth 32 }).retire := by
  rw [← extract_low]
  refine if_pos ⟨?_, ?_⟩
  · rw [fld_upper _ (by decide), Nat.div_eq_of_lt h2]
  · rw [fld_lower, Nat.mod_eq_of_lt h2]
    exact Nat.ne_of_gt h1

theorem tkset_range (h : (s.getS a).toNat = 0 ∨ 2 ^ 32 ≤ (s.getS a).toNat) : exec (.tkset a) s = .next (s.trap 0x12 0 0) := by
  refine if_neg fun hok => ?_
  rw [fld_upper _ (by decide), fld_lower] at hok
  omega

theorem curset_eq : exec (.curset a b) s =
    if fld (s.getS a) 63 16 ≠ 0 ∨ fld (s.getS b) 63 32 ≠ 0 then .next (s.trap 0x12 0 0)
    else match s.currency (fld (s.getS a) 15 0) with
    | none => .next (s.trap 0x13 0 0)
    | some c =>
      if !cursetOk s (fld (s.getS a) 15 0) c then .next s.privFault
      else if fld (s.getS a) 15 0 = 1 then .next s.retire
      else .next { s with currencies := SMap.set s.currencies (fld (s.getS a) 15 0) { c with rate := (s.getS b).extractLsb' 0 32 } }.retire := rfl

theorem curset_range (h : 2 ^ 16 ≤ (s.getS a).toNat ∨ 2 ^ 32 ≤ (s.getS b).toNat) : exec (.curset a b) s = .next (s.trap 0x12 0 0) := by
  rw [curset_eq, fld_upper _ (by decide), fld_upper _ (by decide)]
  refine if_pos (h.imp (fun h => ?_) fun h => ?_) <;> exact Nat.ne_of_gt (Nat.div_pos h (by decide))

/-- A CURSET of values in range looks its currency up by the whole operand. -/
theorem curset_in_range (ha : (s.getS a).toNat < 2 ^ 16) (hb : (s.getS b).toNat < 2 ^ 32) : exec (.curset a b) s =
    match s.currency (s.getS a).toNat with
    | none => .next (s.trap 0x13 0 0)
    | some c =>
      if !cursetOk s (s.getS a).toNat c then .next s.privFault
      else if (s.getS a).toNat = 1 then .next s.retire
      else .next { s with currencies := SMap.set s.currencies (s.getS a).toNat { c with rate := (s.getS b).setWidth 32 } }.retire := by
  have hlow : fld (s.getS a) 15 0 = (s.getS a).toNat := (fld_lower ..).trans (Nat.mod_eq_of_lt ha)
  rw [curset_eq, hlow, extract_low, if_neg]
  rw [fld_upper _ (by decide), fld_upper _ (by decide), Nat.div_eq_of_lt ha, Nat.div_eq_of_lt hb]
  decide

theorem curset_unknown (ha : (s.getS a).toNat < 2 ^ 16) (hb : (s.getS b).toNat < 2 ^ 32) (hc : s.currency (s.getS a).toNat = none) :
    exec (.curset a b) s = .next (s.trap 0x13 0 0) := by rw [curset_in_range ha hb, hc]

theorem curset_sets {c : Currency} (ha : (s.getS a).toNat < 2 ^ 16) (hb : (s.getS b).toNat < 2 ^ 32) (hc : s.currency (s.getS a).toNat = some c)
    (hok : cursetOk s (s.getS a).toNat c = true) (hbase : (s.getS a).toNat ≠ 1) : exec (.curset a b) s =
      .next { s with currencies := SMap.set s.currencies (s.getS a).toNat { c with rate := (s.getS b).setWidth 32 } }.retire := by
  rw [curset_in_range ha hb, hc]
  simp only [hok, hbase, Bool.not_true, Bool.false_eq_true, if_false]

theorem rseed_eq : exec (.rseed a) s = if 1 ≤ s.cx.priv.val ∨ s.co.slots.length = 1
    then .next (s.modCo fun k => { k with tdu := Vector.replicate 3 (Tdu.seed (s.getS a)) }).retire else .next s.privFault := by
  have hexec : exec (.rseed a) s = if s.hasPriv 1 ∨ s.co.slots.length = 1
      then .next (s.modCo fun k => { k with tdu := Vector.replicate 3 (Tdu.seed (s.getS a)) }).retire else .next s.privFault := rfl
  simp only [hexec, hasPriv_iff]

theorem kzero_target (h : 2047 < (s.getS a).toNat) : exec (.kzero d a) s = .next (s.atPriv 1 (s.status d 5)) := by
  have hexec : exec (.kzero d a) s = .next (s.atPriv 1 (if (s.getS a).toNat > 2047 then s.status d 5 else _)) := rfl
  rw [hexec, if_pos h]

theorem kzero_zeroises (h : (s.getS a).toNat ≤ 2047) (hp : (s.keySlot (s.getS a).toNat).prot = false ∨ 2 ≤ s.cx.priv.val) :
    exec (.kzero d a) s = .next (s.atPriv 1
      ({ s with keys := SMap.set s.keys (s.getS a).toNat (s.keySlot (s.getS a).toNat).zeroise }.status d 0)) := by
  have hexec : exec (.kzero d a) s = .next (s.atPriv 1 (if (s.getS a).toNat > 2047 then s.status d 5
    else if (s.keySlot (s.getS a).toNat).prot && !s.hasPriv 2 then s.privFault
    else { s with keys := SMap.set s.keys (s.getS a).toNat (s.keySlot (s.getS a).toNat).zeroise }.status d 0)) := rfl
  rw [hexec, if_neg (Nat.not_lt.mpr h), if_neg]
  rw [Bool.and_eq_true, Bool.not_eq_true', ← Bool.not_eq_true, hasPriv_iff]
  rintro ⟨hprot, hpriv⟩
  exact hp.elim (fun h => Bool.false_ne_true (h.symm.trans hprot)) hpriv

end

/-- Settles O14: each instruction by the range, the existence and the privilege of its operands. -/
theorem ticketSeedKeyResult : Obligations.TicketSeedKeyResult := by
  intro s d a b v r k
  refine ⟨fun h1 h2 => completes_next (tkset_sets h1 h2) rfl, fun h => tkset_range h ▸ trap_takes s _ _ _,
    fun h => curset_range h ▸ trap_takes s _ _ _, fun ha hb hc => curset_unknown ha hb hc ▸ trap_takes s _ _ _,
    fun c ha hb hc hok hbase => completes_next (curset_sets ha hb hc hok hbase) rfl,
    fun h => completes_next (rseed_eq.trans (if_pos h)) rfl, fun h => ?_,
    fun h => atLevel_of_atPriv (kzero_target h) rfl, fun h hp => atLevel_of_atPriv (kzero_zeroises h hp) rfl⟩
  rw [rseed_eq, if_neg h]
  exact trap_takes s _ _ _

end Sys2Proof.Machine

namespace Sys2Proof.Machine

/-! ## The blotter's queue and events (R147, R148, R421, R422) -/

theorem getS_status (s : State) (d : SReg) (v : Word) : (s.status d v).getS d = if d = 0 then 0 else v := by
  have hwrites : WritesS s.st (s.status d v).st d v := writesS_set _ _ _ _ (by rw [State.status, st_modSt, retire_setS])
  exact hwrites.1

/-! ### BLOT (R147, R421) -/

theorem blotJobs_startBlot (k : Die) : k.startBlot.blotJobs = k.blotJobs := by
  unfold Die.startBlot
  split <;> rfl

/-- A queue with a free place takes the job, and an idle blotter starts it. -/
theorem queueJob_joins {s : State} {d : SReg} (h : s.di.blotJobs.length < 16) (es : List (Extent × Nat)) :
    ∃ u : State, queueJob s d es = u.status d (s.di.blotNext.setWidth 64) ∧ u.mem = s.mem
      ∧ u.di.blotJobs = s.di.blotJobs ++ [{ num := s.di.blotNext, extents := es.map (·.1) }] := by
  obtain ⟨q, hq⟩ : ∃ q, q = s.modDi fun k => { k with blotNext := s.di.blotNext + 1,
                                                      blotJobs := k.blotJobs ++ [{ num := s.di.blotNext, extents := es.map (·.1) }] } := ⟨_, rfl⟩
  have hjobs : q.di.blotJobs = s.di.blotJobs ++ [{ num := s.di.blotNext, extents := es.map (·.1) }] := by
    rw [hq]
    exact congrArg Die.blotJobs (die_modDie ..)
  have hqueue : queueJob s d es = (if s.di.blotJobs.isEmpty then q.modDi Die.startBlot else q).status d (s.di.blotNext.setWidth 64) := by
    rw [hq]
    exact if_neg (Nat.not_le.mpr h)
  refine ⟨_, hqueue, ?_, ?_⟩
  · rw [hq]
    split <;> rfl
  · split
    next =>
      rw [← hjobs, ← blotJobs_startBlot q.di]
      exact congrArg Die.blotJobs (die_modDie ..)
    next => exact hjobs

section
variable {s : State} {d : SReg} {a : AReg}

theorem blot_eq (hp : 1 ≤ s.cx.priv.val) : exec (.blot d a) s = .next (if !aligned (s.getA a) 64 then s.addrAlign (s.getA a)
    else s.withRead .rd (s.getA a) 16 fun u hb => match blotHeader (leWord (hb.take 8)) (leWord (hb.drop 8)) with
      | none => u.status d blotInvalid
      | some n => u.withRead .rd (s.getA a + 16) (16 * n) fun w bs => match parseExtents (w.here % 4) n (wordsOf bs) with
        | none => w.status d blotInvalid
        | some es => if unitsOf es > 2 ^ 24 - 1 then w.status d blotInvalid else queueJob w d es) :=
  congrArg Host.Outcome.next (atPriv_of_le _ hp)

theorem blot_misaligned (hp : 1 ≤ s.cx.priv.val) (ha : (s.getA a).toNat % 64 ≠ 0) : TakesTrap s (exec (.blot d a) s) 0x07 0 (s.getA a) := by
  rw [blot_eq hp, if_pos (not_aligned ha)]
  exact trap_takes s _ _ _

section
variable {xs : List Xl} {hb : List Byte} (hp : 1 ≤ s.cx.priv.val) (ha : (s.getA a).toNat % 64 = 0)
  (hr : s.readVa s.agent .rd (s.getA a) 16 = .ok (xs, hb)) (hw : hostWaits s s.cx xs false = false)
include hp ha hr hw

theorem blot_bad_header (h : blotHeader (leWord (hb.take 8)) (leWord (hb.drop 8)) = none) :
    exec (.blot d a) s = .next ((counted s xs false 16).status d 0xFFFFFFFFFFFFFFFE) := by
  rw [blot_eq hp, if_neg (not_misaligned ha), withRead_ok _ hr hw, h]
  rfl

theorem blot_queues {n : Nat} {ys : List Xl} {bs : List Byte} {es : List (Extent × Nat)}
    (h : blotHeader (leWord (hb.take 8)) (leWord (hb.drop 8)) = some n)
    (hr2 : (counted s xs false 16).readVa (counted s xs false 16).agent .rd (s.getA a + 16) (16 * n) = .ok (ys, bs))
    (hw2 : hostWaits (counted s xs false 16) (counted s xs false 16).cx ys false = false)
    (hes : parseExtents (s.here % 4) n (wordsOf bs) = some es) (hu : unitsOf es < 2 ^ 24) :
    exec (.blot d a) s = .next (queueJob (counted (counted s xs false 16) ys false (16 * n)) d es) := by
  have hhere : (counted (counted s xs false 16) ys false (16 * n)).here = s.here :=
    ((countsOnly_counted s xs false 16).trans (countsOnly_counted _ ys false _)).here
  rw [blot_eq hp, if_neg (not_misaligned ha), withRead_ok _ hr hw, h]
  dsimp only
  rw [withRead_ok _ hr2 hw2, hhere, hes]
  exact congrArg _ (if_neg (by omega))

end

end

/-! ### BLWAIT and WFE (R147, R148) -/

theorem blwait_eq (s : State) (d b r : SReg) : exec (.blwait d b r) s = .next (s.atPriv 1
    (if s.di.blotJobs.any fun j => decide (j.num.toNat = (s.getS b).toNat) then s.modSt fun t =>
      { t with wait := some (.blot d (s.getS b).toNat (if s.getS r = 0 then none else some (s.time + (s.getS r).toNat))) }
    else s.status d (crRead s .blotProgress))) := rfl

theorem wfe_latched {s : State} (d b : SReg) (h : s.st.latch = true) : ∃ t, exec (.wfe d b) s = .next t ∧ OnlyStrand s t
    ∧ t.st = { s.st.retire 1 with s := t.st.s, latch := false, reasons := 0 } ∧ WritesS s.st t.st d (s.st.reasons.setWidth 64) := by
  obtain ⟨u, hu⟩ : ∃ u : Strand, u = ({ s.st with latch := false, reasons := 0 }.setS d (s.st.reasons.setWidth 64)).retire 1 := ⟨_, rfl⟩
  have hst : u = { s.st.retire 1 with s := (s.st.setS d (s.st.reasons.setWidth 64)).s, latch := false, reasons := 0 } := by
    obtain ⟨lc, pc, hret⟩ : ∃ lc pc, s.st.retire 1 = { s.st with lc := lc, pc := pc, forced := none } := ⟨_, _, retire_eq s.st 1⟩
    rw [hu, retire_setS, retire_of s.st { s.st with latch := false, reasons := 0 } 1 (by simp), hret]
    unfold Strand.setS
    split <;> rfl
  have hs : u.s = (s.st.setS d (s.st.reasons.setWidth 64)).s := by rw [hst]
  have hexec : exec (.wfe d b) s
      = .next (s.modSt fun t => ({ t with latch := false, reasons := 0 }.setS d (t.reasons.setWidth 64)).retire 1) := if_pos h
  refine ⟨_, hexec, onlyStrand_modSt _ _, ?_, ?_⟩ <;> rw [st_modSt, ← hu]
  · rw [hs, hst]
  · exact writesS_set _ _ _ _ hs

theorem wfe_waits {s : State} (d b : SReg) (h : s.st.latch = false) : ∃ t, exec (.wfe d b) s = .next t ∧ OnlyStrand s t
    ∧ t.st = { s.st with wait := some (.event d (if s.getS b = 0 then none else some (s.time + (s.getS b).toNat))) } :=
  ⟨_, if_neg (by simp [h]), onlyStrand_modSt _ _, st_modSt _ _⟩

/-- Settles O15: BLOT by its two reads and the queue it joins, BLWAIT by whether the job is listed, WFE by the latch. -/
theorem blotterEventResult : Obligations.BlotterEventResult := by
  intro s d b a r
  refine ⟨fun hp ha xs hb hr hw => ⟨blot_bad_header hp ha hr hw, fun n ys bs es h hr2 hw2 => blot_queues hp ha hr hw h hr2 hw2⟩,
    blot_misaligned, fun hlen es => ?queue, fun h => ?idle, fun h => ?listed, wfe_latched d b, wfe_waits d b⟩
  case queue =>
    obtain ⟨u, hqueue, hmem, hjobs⟩ := queueJob_joins (d := d) hlen es
    exact ⟨_, hqueue, rawByte_of_mem hmem, getS_status .., hjobs⟩
  case idle => exact atLevel_of_atPriv ((blwait_eq s d b r).trans (by rw [if_neg (by rw [h]; decide)])) rfl
  case listed => exact atLevel_of_atPriv ((blwait_eq s d b r).trans (by rw [if_pos h])) rfl

end Sys2Proof.Machine

namespace Sys2Proof.Machine

/-! ## Requests and kills of a context (R154, R160, R358) -/

/-! ### Handle tables in memory that lists nothing (R144, R160) -/

section
variable {s : State} (hm : s.mem = []) (hs : s.sectors = [])
include hm hs

theorem cipherByte_unlisted (k : Nat) : s.cipherByte k = 0 := by
  simp only [State.cipherByte, State.sector, State.rawByte, hm, hs]
  rfl

theorem handle_unlisted (x : Ctx) (i : Nat) : s.handle x i = 0 := by
  simp only [State.handle, State.readMa, cipherByte_unlisted hm hs]
  decide

/-- Where every entry reads as dead, none retires. -/
theorem retireHandles_unlisted (x : Ctx) : retireHandles s x = s :=
  List.foldlRecOn (motive := (· = s)) _ _ rfl fun u hu i _ => by
    rw [hu, handle_unlisted hm hs, if_neg (by decide)]

end

theorem contextKill_hyp {s : State} {c : CtxRef} {x : Ctx} (h : s.findCtx c = some x) :
    exec (.contextKill c .hyp) s = .next (killCtx s c 0x32 0 x.killPc 0 none) := by
  have hexec : exec (.contextKill c .hyp) s = execContextKill c .hyp s := rfl
  rw [hexec, execContextKill, h]

/-! ### A state that lists a core twice -/

/-- The context in slot 0 of the core listed first: the one unit of launch 2. -/
def firstListed : Ctx := { uid := 1, launch := 2 }

/-- Core 0 stands twice in the list of cores, with a context in slot 0 each time; launch 2 has one unit, and its completion signals the second context. -/
def listedTwice : State := { State.reset with
  cores := [(0, { slots := [(0, firstListed)] }), (0, { slots := [(0, { uid := 3 })] })]
  works := [(workKey 1 2, { level := 1, sealed_ := true, total := 1, notice := some (3, 0, 1) })] }

theorem findCtx_listedTwice : listedTwice.findCtx (.resident 0 0) = some firstListed := rfl

theorem abortPartners_listedTwice :
    firstListed.tasks.foldl (fun s e => dropTransfer s firstListed e.2) (abortPartners listedTwice (.resident 0 0) firstListed) = listedTwice := by
  decide +kernel

/-- The completion of the launch puts the second context where the killed one stood. -/
theorem findCtx_kill_listedTwice :
    ((killCtx listedTwice (.resident 0 0) 0x32 0 firstListed.killPc 0 none).findCtx (.resident 0 0)).isSome = true := by
  simp only [killCtx, findCtx_listedTwice, abortPartners_listedTwice]
  rw [retireHandles_unlisted rfl rfl]
  decide +kernel

/-- Refutes O16: a kill empties the slot in the core listed first, and the completion of the killed unit's launch then signals a context that a second
entry for that core holds in the same slot, which is stored back through the first. The statement ranges over every state, and nothing in it keeps the
list of cores from naming a core twice. -/
theorem not_contextRequests : ¬ Obligations.ContextRequests := by
  rintro ⟨hkill, -, -⟩
  obtain ⟨-, hgone, -⟩ := hkill listedTwice (.resident 0 0) .hyp
  obtain ⟨t, hexec, hnone⟩ := hgone firstListed findCtx_listedTwice fun _ h => nomatch h
  obtain rfl := Host.Outcome.next.inj ((contextKill_hyp findCtx_listedTwice).symm.trans hexec)
  have hsome := findCtx_kill_listedTwice
  rw [hnone] at hsome
  exact Bool.false_ne_true hsome

end Sys2Proof.Machine

namespace Sys2Proof.Machine

/-! ## Names of contexts (R149) -/

section
variable {s : State} {d : SReg} {name : Word} (f : CtxRef → Ctx → State)

theorem withTarget_malformed (h : ctxOfName s name.toNat = none) : withTarget s d name f = s.status d 5 := by
  simp only [withTarget, h]
  rfl

variable {ref : CtxRef} (h : ctxOfName s name.toNat = some ref)
include h

theorem withTarget_self (hself : ref = .resident s.focus.core s.focus.slot) : withTarget s d name f = s.status d 12 := by
  simp only [withTarget, h, if_pos hself]
  rfl

theorem withTarget_empty (hself : ref ≠ .resident s.focus.core s.focus.slot) (hx : s.findCtx ref = none) : withTarget s d name f = s.status d 7 := by
  simp only [withTarget, h, if_neg hself, hx]
  rfl

theorem withTarget_found {x : Ctx} (hself : ref ≠ .resident s.focus.core s.focus.slot) (hx : s.findCtx ref = some x) :
    withTarget s d name f = f ref x := by
  simp only [withTarget, h, if_neg hself, hx]

end

/-! ## CTXSV and CTXLD (R149, R354, R363-R365) -/

/-- A context's image and slots are written as one access and the context leaves its slot (R363-R365). -/
def State.saveImage (s : State) (d : SReg) (ea : Word) (ref : CtxRef) (y : Ctx) : State :=
  let body := imageBody s (refCore ref) y
  let slots := slotBytes (s.core (refCore ref)) y
  let tag := Config.imageTag (body ++ slots)
  s.withWrite ea (body ++ leBytes 32 tag.toNat ++ slots) fun u => (leaveSlot u ref y tag).status d 0

section
variable {s : State} {d b : SReg} {a : AReg} {oc : Fin 16} (hp : 1 ≤ s.cx.priv.val)
include hp

theorem ctxsv_misaligned (ha : (s.getA a).toNat % 4096 ≠ 0) : TakesTrap s (exec (.ctxsv d a b oc) s) 0x07 0 (s.getA a) := by
  have hexec : exec (.ctxsv d a b oc) s = .next (s.atPriv 1 (if !aligned (s.getA a) 4096 then s.addrAlign (s.getA a) else _)) := rfl
  rw [hexec, atPriv_of_le _ hp, if_pos (not_aligned ha)]
  exact trap_takes s _ _ _

theorem ctxld_misaligned (ha : (s.getA a).toNat % 4096 ≠ 0) : TakesTrap s (exec (.ctxld d a b oc) s) 0x07 0 (s.getA a) := by
  have hexec : exec (.ctxld d a b oc) s = .next (s.atPriv 1 (if !aligned (s.getA a) 4096 then s.addrAlign (s.getA a) else _)) := rfl
  rw [hexec, atPriv_of_le _ hp, if_pos (not_aligned ha)]
  exact trap_takes s _ _ _

variable (ha : (s.getA a).toNat % 4096 = 0)
include ha

section
variable {ref : CtxRef} {x : Ctx} (hname : ctxOfName s (s.getS b).toNat = some ref) (hself : ref ≠ .resident s.focus.core s.focus.slot)
  (hx : s.findCtx ref = some x) (hprot : x.prot = false)
include hname hself hx hprot

/-- What CTXSV does with a target that it may save, before it looks at the target's rung. -/
theorem ctxsv_target : exec (.ctxsv d a b oc) s = .next (if x.rung ≠ .halted ∧ x.rung ≠ .shadowed then s.status d stNotHalted
    else if !x.ductsIn || s.maHeld x.block.toNat 0x180000 then s.hold
    else if !x.vPoison.isEmpty || !x.mPoison.isEmpty || !x.semPoison.isEmpty || x.opslots.any (fun p => (s.core (refCore ref)).opPoison.any fun w => w / 1024 == p)
      then fileTrap s
    else match s.writeVa s.agent (s.getA a) (49152 + 8192 * x.opslots.length) with
    | .error (e, va) => s.memFail e va
    | .ok _ => match (countFlips (spillAll s ref) ref x).findCtx ref with
      | none => countFlips (spillAll s ref) ref x
      | some y => (countFlips (spillAll s ref) ref x).saveImage d (s.getA a) ref y) := by
  have hexec : exec (.ctxsv d a b oc) s = .next (s.atPriv 1 (if !aligned (s.getA a) 4096 then s.addrAlign (s.getA a)
    else withTarget s d (s.getS b) fun ref x => if x.prot then s.status d stProtected else _)) := rfl
  rw [hexec, atPriv_of_le _ hp, if_neg (not_misaligned ha), withTarget_found _ hname hself hx, if_neg (by simp [hprot])]
  rfl

theorem ctxsv_running (h1 : x.rung ≠ .halted) (h2 : x.rung ≠ .shadowed) : Completes s (exec (.ctxsv d a b oc) s) (s.status d 6) :=
  completes_status ((ctxsv_target hp ha hname hself hx hprot).trans (congrArg _ (if_pos ⟨h1, h2⟩)))

theorem ctxsv_saves {xs : List Xl} {y : Ctx} (hrung : x.rung = .halted ∨ x.rung = .shadowed) (hducts : x.ductsIn = true)
    (hheld : s.maHeld x.block.toNat 0x180000 = false) (hv : x.vPoison = []) (hm : x.mPoison = []) (hsem : x.semPoison = [])
    (hop : (s.core (refCore ref)).opPoison = []) (hw : s.writeVa s.agent (s.getA a) (49152 + 8192 * x.opslots.length) = .ok xs)
    (hy : (countFlips (spillAll s ref) ref x).findCtx ref = some y) :
    exec (.ctxsv d a b oc) s = .next ((countFlips (spillAll s ref) ref x).saveImage d (s.getA a) ref y) := by
  rw [ctxsv_target hp ha hname hself hx hprot, if_neg (by tauto), if_neg (by simp [hducts, hheld]), if_neg (by simp [hv, hm, hsem, hop]), hw]
  dsimp only
  rw [hy]

end

/-- R149, R364: what CTXLD makes of the two reads of an image. -/
theorem ctxld_installs {ref : CtxRef} (hload : loadTarget s (s.getS b) = .ok ref) : exec (.ctxld d a b oc) s =
    .next (s.withRead .rd (s.getA a) 49152 fun s1 img => s1.withRead .rd (s.getA a + 49152) (8192 * imageSlots img) fun s2 slots =>
      let k := s2.core (refCore ref)
      match s2.images.find? fun e => e.1.toNat == leNat ((img.drop 0xBFE0).take 32) with
      | none => s2.status d 9
      | some (_, x) =>
        if imageOk s2 img slots = false then s2.status d 9
        else match k.loadEntry with
          | none => s2.status d 11
          | some pe =>
            if k.freeSlots.length < imageSlots img then s2.status d 11
            else match gatherLeaves s2 (refCore ref) x.pinnedLeaves.length (.load s2.cx.uid (strandIx s2.focus).val) with
              | (t, none) => t.hold
              | (t, some phys) => (installCtx t ref x pe phys slots).status d 0) := by
  have hexec : exec (.ctxld d a b oc) s = .next (s.atPriv 1 (if !aligned (s.getA a) 4096 then s.addrAlign (s.getA a)
    else match loadTarget s (s.getS b) with
      | .error st => s.status d st
      | .ok ref => s.withRead .rd (s.getA a) 49152 fun s1 img => s1.withRead .rd (s.getA a + 49152) (8192 * imageSlots img) fun s2 slots => _)) := rfl
  rw [hexec, atPriv_of_le _ hp, if_neg (not_misaligned ha), hload]
  refine congrArg Host.Outcome.next <| congrArg (s.withRead .rd (s.getA a) 49152) <| funext fun s1 => funext fun img =>
    congrArg (s1.withRead .rd (s.getA a + 49152) (8192 * imageSlots img)) <| funext fun s2 => funext fun slots => ?_
  dsimp only
  cases s2.images.find? fun e => e.1.toNat == leNat ((img.drop 0xBFE0).take 32) with
  | none => rfl
  | some e =>
    cases hok : imageOk s2 img slots with
    | false => rfl
    | true =>
      cases (s2.core (refCore ref)).loadEntry with
      | none => exact ite_self _
      | some pe => rfl

end

/-- Settles O17: alignment, then the target's rung and the write of its image, or the two reads of an image and what stands in the tables of the core. -/
theorem contextImageResult : Obligations.ContextImageResult := by
  intro s d b a oc hp
  refine ⟨fun ha => ⟨ctxsv_misaligned hp ha, ctxld_misaligned hp ha⟩, fun ref x ha hname hself hx hprot => ⟨ctxsv_running hp ha hname hself hx hprot, ?_⟩,
    fun ref ha hload => ctxld_installs hp ha hload⟩
  intro hrung hducts hheld hv hm hsem hop xs hw s1 y hy
  rw [ctxsv_saves hp ha hname hself hx hprot hrung hducts hheld hv hm hsem hop hw hy, State.saveImage]

end Sys2Proof.Machine

namespace Sys2Proof.Machine

/-! ## Handles (R144, R187, R188, R253) -/

/-! ### An entry's fields (R187) -/

section
variable (drain infl base : Word) (gen : BitVec 8) (live : Bool) (rights : BitVec 2) (len1 : BitVec 48)

@[simp] theorem hDrain_hEntry : hDrain (hEntry drain infl gen live rights len1 base) = drain := by
  simp (disch := omega) only [hEntry, hDrain, extract_append_high]
  exact extract_all drain
@[simp] theorem hInfl_hEntry : hInfl (hEntry drain infl gen live rights len1 base) = infl := by
  simp (disch := omega) only [hEntry, hInfl, extract_append_high, extract_append_low]
  exact extract_all infl
@[simp] theorem hGen_hEntry : hGen (hEntry drain infl gen live rights len1 base) = gen := by
  simp (disch := omega) only [hEntry, hGen, extract_append_high, extract_append_low]
  exact extract_all gen
@[simp] theorem hLive_hEntry : hLive (hEntry drain infl gen live rights len1 base) = live := by
  simp (disch := omega) only [hEntry, hLive, bit_append_high, bit_append_low]
  simp
@[simp] theorem hRights_hEntry : hRights (hEntry drain infl gen live rights len1 base) = rights := by
  simp (disch := omega) only [hEntry, hRights, extract_append_high, extract_append_low]
  exact extract_all rights
@[simp] theorem hLen1_hEntry : hLen1 (hEntry drain infl gen live rights len1 base) = len1 := by
  simp (disch := omega) only [hEntry, hLen1, extract_append_high, extract_append_low]
  exact extract_all len1
@[simp] theorem hBase_hEntry : hBase (hEntry drain infl gen live rights len1 base) = base := by
  simp (disch := omega) only [hEntry, hBase, extract_append_low]
  exact extract_all base

end

/-- Raising a generation: (gen mod 255) + 1, the transfers in flight drain (R144, R188). -/
theorem hRaise_fields (e : HEntry) (live : Bool) (rights : BitVec 2) (len1 : BitVec 48) (base : Word) :
    (hGen (hRaise e live rights len1 base)).toNat = (hGen e).toNat % 255 + 1 ∧ hDrain (hRaise e live rights len1 base) = hDrain e + hInfl e
    ∧ hInfl (hRaise e live rights len1 base) = 0 := by
  refine ⟨?_, hDrain_hEntry .., hInfl_hEntry ..⟩
  rw [hRaise, hGen_hEntry, BitVec.toNat_ofNat]
  omega

/-! ### HSET, HFREE and HQRY (R144) -/

section
variable {s : State} {d b : SReg} {a : AReg} {rights : Fin 4} {idx : BitVec 12}

theorem lengthOk_iff (v : Word) : lengthOk v = true ↔ 1 ≤ v.toNat ∧ v.toNat ≤ 2 ^ 48 := by simp [lengthOk]

theorem hset_raises (h1 : 1 ≤ (s.getS b).toNat) (h2 : (s.getS b).toNat ≤ 2 ^ 48) : ∃ n : HEntry,
    exec (.hset d a b rights idx) s = .next ((s.setHandle s.cx idx.toNat n).status d ((hGen n ++ idx).setWidth 64))
    ∧ (hGen n).toNat = (hGen (s.handle s.cx idx.toNat)).toNat % 255 + 1 ∧ hLive n = true ∧ (hRights n).toNat = rights.val
    ∧ (hLen1 n).toNat = (s.getS b).toNat - 1 ∧ hBase n = s.getA a
    ∧ hDrain n = hDrain (s.handle s.cx idx.toNat) + hInfl (s.handle s.cx idx.toNat) ∧ hInfl n = 0 := by
  obtain ⟨hgen, hdrain, hinfl⟩ := hRaise_fields (s.handle s.cx idx.toNat) true (BitVec.ofNat 2 rights.val) ((s.getS b - 1).setWidth 48) (s.getA a)
  refine ⟨_, if_pos ((lengthOk_iff _).mpr ⟨h1, h2⟩), hgen, hLive_hEntry .., ?_, ?_, hBase_hEntry .., hdrain, hinfl⟩
  · rw [hRaise, hRights_hEntry, BitVec.toNat_ofNat]
    exact Nat.mod_eq_of_lt rights.isLt
  · rw [hRaise, hLen1_hEntry, BitVec.toNat_setWidth, BitVec.toNat_sub_of_le (by simpa [BitVec.le_def] using h1)]
    exact Nat.mod_eq_of_lt (Nat.lt_of_lt_of_le (Nat.sub_lt h1 Nat.one_pos) h2)

theorem hset_range (h : ¬(1 ≤ (s.getS b).toNat ∧ (s.getS b).toNat ≤ 2 ^ 48)) : TakesTrap s (exec (.hset d a b rights idx) s) 0x11 0 0 := by
  have hexec : exec (.hset d a b rights idx) s = .next (s.trap 0x11 0 0) := if_neg (mt (lengthOk_iff _).mp h)
  rw [hexec]
  exact trap_takes s _ _ _

/-- A word is the handle of an entry's present generation (R144). -/
abbrev isPresent (v : Word) (e : HEntry) : Prop := fld v 63 20 = 0 ∧ fld v 19 12 ≠ 0 ∧ fld v 19 12 = (hGen e).toNat

theorem hfree_raises (h : isPresent (s.getS b) (s.handle s.cx (fld (s.getS b) 11 0))) : ∃ n : HEntry,
    exec (.hfree b) s = .next (s.setHandle s.cx (fld (s.getS b) 11 0) n).retire
    ∧ (hGen n).toNat = (hGen (s.handle s.cx (fld (s.getS b) 11 0))).toNat % 255 + 1 ∧ hLive n = false
    ∧ hDrain n = hDrain (s.handle s.cx (fld (s.getS b) 11 0)) + hInfl (s.handle s.cx (fld (s.getS b) 11 0)) ∧ hInfl n = 0 := by
  obtain ⟨hgen, hdrain, hinfl⟩ := hRaise_fields (s.handle s.cx (fld (s.getS b) 11 0)) false (hRights _) (hLen1 _) (hBase _)
  exact ⟨_, if_pos h, hgen, hLive_hEntry .., hdrain, hinfl⟩

theorem hfree_stale (h : ¬isPresent (s.getS b) (s.handle s.cx (fld (s.getS b) 11 0))) : TakesTrap s (exec (.hfree b) s) 0x10 0 0 := by
  have hexec : exec (.hfree b) s = .next (s.trap 0x10 0 0) := if_neg h
  rw [hexec]
  exact trap_takes s _ _ _

theorem handleMatches_iff (v : Word) (e : HEntry) : handleMatches v e = true ↔ isPresent v e ∧ hLive e = true := by
  simp [handleMatches, isPresent, and_assoc]

theorem hqry_answers : ScalarWrite s (exec (.hqry d b) s) d
    (if fld (s.getS b) 63 20 = 0 then (if hDrain (s.handle s.cx (fld (s.getS b) 11 0)) = 0 then 0 else 2)
      ||| (if isPresent (s.getS b) (s.handle s.cx (fld (s.getS b) 11 0)) ∧ hLive (s.handle s.cx (fld (s.getS b) 11 0)) = true then 1 else 0) else 0) := by
  have hdrain : ∀ w : Word, bw (decide (w ≠ 0)) 1 = if w = 0 then 0 else 2 := fun w => by
    by_cases h : w = 0 <;> simp [bw, h]
  have hexec : exec (.hqry d b) s = scalarResult s d (if fld (s.getS b) 63 20 = 0
      then bw (decide (hDrain (s.handle s.cx (fld (s.getS b) 11 0)) ≠ 0)) 1 ||| bw (handleMatches (s.getS b) (s.handle s.cx (fld (s.getS b) 11 0))) 0
      else 0) := rfl
  rw [hexec, hdrain, bw]
  simp only [handleMatches_iff]
  exact scalarResult_writes ..

end

/-! ### A handle operand (R253) -/

/-- A word's low 20 bits name the live present generation of an entry. -/
theorem handleMatches_low (v : Word) (e : HEntry) : handleMatches (v &&& 0xFFFFF) e = true ↔
    (v.extractLsb' 12 8).toNat ≠ 0 ∧ (v.extractLsb' 12 8).toNat = (hGen e).toNat ∧ hLive e = true := by
  have hlow : (v &&& 0xFFFFF).toNat = v.toNat % 2 ^ 20 := by
    rw [BitVec.toNat_and]
    exact Nat.and_two_pow_sub_one_eq_mod v.toNat 20
  have hhigh : fld (v &&& 0xFFFFF) 63 20 = 0 := by
    rw [fld, Nat.shiftRight_eq_div_pow, hlow]
    omega
  have hgen : fld (v &&& 0xFFFFF) 19 12 = (v.extractLsb' 12 8).toNat := by
    rw [fld, BitVec.extractLsb'_toNat, Nat.shiftRight_eq_div_pow, Nat.shiftRight_eq_div_pow, hlow]
    omega
  rw [handleMatches_iff, isPresent, hhigh, hgen]
  simp [and_assoc]

section
variable {s : State} {v : Word} {extent : Nat} {write : Bool}

theorem useHandle_eq : useHandle s v extent write =
    if handleMatches (v &&& 0xFFFFF) (s.handle s.cx (v.toNat % 4096)) = true then
      if (hLen1 (s.handle s.cx (v.toNat % 4096))).toNat + 1 < v.toNat / 2 ^ 20 + extent
          ∨ (hRights (s.handle s.cx (v.toNat % 4096))).getLsbD (if write then 1 else 0) = false then .error 0x11
      else .ok (.mem (hBase (s.handle s.cx (v.toNat % 4096)) + BitVec.ofNat 64 (v.toNat / 2 ^ 20)) (v.toNat % 4096) (hGen (s.handle s.cx (v.toNat % 4096))))
    else .error 0x10 := by
  have hix : fld v 11 0 = v.toNat % 4096 := fld_lower v 11
  have hoff : fld v 63 20 = v.toNat / 2 ^ 20 := fld_upper v (by decide)
  simp only [useHandle, hix, hoff]
  cases handleMatches (v &&& 0xFFFFF) (s.handle s.cx (v.toNat % 4096)) with
  | false => rfl
  | true =>
    simp only [Bool.not_true, Bool.false_eq_true, if_false, if_true, Bool.or_eq_true, decide_eq_true_eq, Bool.not_eq_true', gt_iff_lt]
    rfl

end

/-- Settles O28: HSET and HFREE by what raising a generation leaves in the entry, HQRY and a handle operand by whether the word names the live present one. -/
theorem handles : Obligations.Handles := by
  refine ⟨fun s d b a rights idx => ⟨hset_raises, hset_range, hfree_raises, hfree_stale, hqry_answers⟩, fun s v extent write => ?_⟩
  intro e gen offset live
  have hlive : handleMatches (v &&& 0xFFFFF) e = true ↔ live := handleMatches_low v e
  refine ⟨fun h => ?_, fun h hbad => ?_, fun h hlen hright => ?_⟩
  · rw [useHandle_eq, if_neg (mt hlive.mp h)]
  · rw [useHandle_eq, if_pos (hlive.mpr h), if_pos hbad]
  · rw [useHandle_eq, if_pos (hlive.mpr h), if_neg]
    rintro (hlt | hno)
    · exact absurd hlt (Nat.not_lt.mpr hlen)
    · exact Bool.false_ne_true (hno.symm.trans hright)

end Sys2Proof.Machine

namespace Sys2Proof.Machine

/-! ## Pages made resident, starvation and placement (R170, R182, R186) -/

/-! ### What a starving phase leaves alone -/

theorem dies_putCtx (s : State) (ref : CtxRef) (x : Ctx) : (s.putCtx ref x).dies = s.dies := by cases ref <;> rfl

theorem dies_modRef (s : State) (ref : CtxRef) (f : Ctx → Ctx) : (s.modRef ref f).dies = s.dies := by
  unfold State.modRef
  cases s.findCtx ref with
  | none => rfl
  | some x => exact dies_putCtx s ref _

/-- FRAME_STARVED changes contexts, no die. -/
theorem dies_starveStuck (s : State) (o : Nat) (asid : BitVec 12) (size : Nat) (ws : List Waits) : (starveStuck s o asid size ws).dies = s.dies :=
  List.foldlRecOn (motive := fun u : State => u.dies = s.dies) _ _ rfl fun u hu w _ => (dies_modRef u w.ref _).trans hu

theorem takeFrame_of_dies {s t : State} (h : t.dies = s.dies) (dd size : Nat) : takeFrame t dd size = takeFrame s dd size := by
  have hdie : t.die dd = s.die dd := by rw [State.die, h]; rfl
  unfold takeFrame holdCount blotHolds
  rw [hdie]

/-! ### PAGE_MADE_RESIDENT (R170, R182) -/

/-- The body is taken of the function and not of its value: there the kernel would run the walk of the tables before it compares. -/
theorem missingPage_resident {s : State} {o off : Nat} {asid : BitVec 12} {x : Xl} (h : s.xlateAt o asid none off = .ok x) (hr : x.resident = true) :
    missingPage s o asid off = none := by
  have hbody : missingPage = missingPage := rfl
  conv_rhs at hbody => delta missingPage
  rw [hbody]
  beta_reduce
  rw [h]
  exact if_pos hr

/-- The page of an address as its owner's list of requests names it. -/
def requestOf (asid : BitVec 12) (off : BitVec 48) : BitVec 12 × Word := (asid, off.setWidth 64 &&& ~~~(0xFFF : Word))

/-- A request is struck off, and with it what was noted of the page's starvation. -/
def State.strikeOff (s : State) (o : Nat) (want : BitVec 12 × Word) (page : Word) : State :=
  s.modDie o fun d => { d with fetching := d.fetching.filter (· ≠ want), starved := d.starved.filter fun e => (e.1, e.2.1) ≠ (want.1, page) }

section
variable {s : State} {o : Nat} {asid : BitVec 12} {off : BitVec 48}

theorem requested_of_mem (h : requestOf asid off ∈ (s.die o).fetching) :
    (!(s.die o).fetching.contains (asid, off.setWidth 64 &&& ~~~(0xFFF : Word))) = false :=
  congrArg not (List.contains_iff_mem.mpr h)

theorem pageMadeResident_unasked (h : requestOf asid off ∉ (s.die o).fetching) : exec (.pageMadeResident o asid off) s = .next s :=
  if_pos (by simpa [requestOf] using h)

section
variable (hreq : requestOf asid off ∈ (s.die o).fetching)
include hreq

theorem pageMadeResident_there (h : missingPage s o asid off.toNat = none) :
    exec (.pageMadeResident o asid off) s = .next (s.strikeOff o (requestOf asid off) (starvedPage s o asid off.toNat)) := by
  show execPageMadeResident o asid off s = _
  simp only [execPageMadeResident, requested_of_mem hreq, h, Bool.false_eq_true, if_false]
  rfl

section
variable {ia : Nat} {hent : Word} (hmiss : missingPage s o asid off.toNat = some (ia, hent))
include hmiss

theorem pageMadeResident_late (h : fillLate s o asid hent = true) : exec (.pageMadeResident o asid off) s = .next s := by
  show execPageMadeResident o asid off s = _
  simp only [execPageMadeResident, requested_of_mem hreq, hmiss, h, Bool.false_eq_true, if_false, if_true]

section
variable (hlate : fillLate s o asid hent = false)
include hlate

/-- The page comes in; its request is struck off unless a table page came and the access's own page is still to come. -/
theorem pageMadeResident_fills {f : Word} {rest : List Word} (h : takeFrame s o (leafSize hent) = some (f, rest)) :
    let t := viCharge (fillPage s o asid ia hent f rest) (tierVi s asid (baseOf hent)) false (2 ^ (12 + leafSize hent))
    exec (.pageMadeResident o asid off) s = .next (if (missingPage t o asid off.toNat).isNone = true
      then t.strikeOff o (requestOf asid off) (starvedPage s o asid off.toNat) else t) := by
  show execPageMadeResident o asid off s = _
  simp only [execPageMadeResident, requested_of_mem hreq, hmiss, hlate, h, Bool.false_eq_true, if_false, Option.isSome_some, if_true]
  rfl

/-- With no frame and nothing to evict, the phases that wait starve and the hypervisor is told. -/
theorem pageMadeResident_starves (hframe : takeFrame s o (leafSize hent) = none) (hevict : evictable s o (leafSize hent) = [])
    (hnew : ∀ e ∈ (s.die o).starved, (e.1, e.2.1) ≠ (asid, starvedPage s o asid off.toNat)) :
    exec (.pageMadeResident o asid off) s =
      .next (noticeStarved (starveStuck s o asid (leafSize hent) (pageWaits s o asid (leafSize hent) off.toNat)) o asid
        (starvedPage s o asid off.toNat) (leafSize hent)) := by
  have hvictims : victims s o asid (leafSize hent) (pageWaits s o asid (leafSize hent) off.toNat) = [] := by rw [victims, hevict]; rfl
  have hdies := dies_starveStuck s o asid (leafSize hent) (pageWaits s o asid (leafSize hent) off.toNat)
  have hunsaid : (s.die o).starved.any (fun e => (e.1, e.2.1) == (asid, starvedPage s o asid off.toNat)) = false := by
    rw [List.any_eq_false]
    exact fun e he => by simpa using hnew e he
  have hdie : (starveStuck s o asid (leafSize hent) (pageWaits s o asid (leafSize hent) off.toNat)).die o = s.die o := by rw [State.die, hdies]; rfl
  show execPageMadeResident o asid off s = _
  simp only [execPageMadeResident, requested_of_mem hreq, hmiss, hlate, hvictims, hframe, takeFrame_of_dies hdies, hdie, hunsaid, List.isEmpty_nil, Bool.true_or,
    Bool.not_true, Bool.or_false, Option.isSome_none, Bool.false_eq_true, if_false, if_true]

end
end
end

/-! ### FRAME_STARVATION_NOTICE (R182) -/

section
variable {e : BitVec 12 × Word × Nat}
  (he : (s.die o).starved.find? (fun e => (e.1, e.2.1) == (asid, starvedPage s o asid off.toNat)) = some e)
include he

theorem starvationNotice_repeats {ia : Nat} {hent : Word} (hmiss : missingPage s o asid off.toNat = some (ia, hent))
    (hframe : takeFrame s o (leafSize hent) = none) (hdue : e.2.2 + 2 ^ 20 ≤ s.time) :
    exec (.frameStarvationNotice o asid off) s = .next (noticeStarved s o asid (starvedPage s o asid off.toNat) (leafSize hent)) := by
  show execFrameStarvationNotice o asid off s = _
  simp only [execFrameStarvationNotice, he, hmiss, hframe, hdue, Option.isNone_none, decide_true, Bool.and_self, if_true]

theorem starvationNotice_early (h : s.time < e.2.2 + 2 ^ 20) : exec (.frameStarvationNotice o asid off) s = .next s := by
  show execFrameStarvationNotice o asid off s = _
  simp only [execFrameStarvationNotice, he]
  cases missingPage s o asid off.toNat with
  | none => rfl
  | some p =>
    refine if_neg ?_
    rw [decide_eq_false (Nat.not_le.mpr h), Bool.and_false]
    exact Bool.false_ne_true

end
end

/-! ### PLACEMENT_EPOCH_END (R186) -/

theorem foldl_stays {α β : Type} {f : β → α → β} {b : β} {l : List α} (h : ∀ a ∈ l, f b a = b) : l.foldl f b = b :=
  List.foldlRecOn (motive := (· = b)) _ _ rfl fun _ hc a ha => hc ▸ h a ha

section
variable {s : State} {o : Nat} (hen : (s.die o).placeEn = true) (hep : (s.die o).epoch ≠ 0)

theorem placementEpochEnd_early (h : s.time < (s.die o).epochAt + 1024 * (s.die o).epoch.toNat) : exec (.placementEpochEnd o) s = .next s :=
  if_pos (by simp [h])

include hen hep in
/-- Where every tracked page stays, the end of an epoch clears the tracker and moves nothing. -/
theorem placementEpochEnd_stays (h : (s.die o).epochAt + 1024 * (s.die o).epoch.toNat ≤ s.time)
    (hstay : ∀ t ∈ (s.die o).tracked, ∃ x, s.xlateAt o t.asid none t.off.toNat = .ok x ∧ placeMove s o t x = .stay) :
    exec (.placementEpochEnd o) s = .next (s.modDie o fun d => { d with tracked := [], written := [], epochAt := s.time }) := by
  show execPlacementEpochEnd o s = _
  simp only [execPlacementEpochEnd, hen, decide_eq_false hep, decide_eq_false (Nat.not_lt.mpr h), Bool.not_true, Bool.or_self, Bool.false_eq_true, if_false]
  rw [foldl_stays fun t ht => ?_]
  obtain ⟨x, hx, hmove⟩ := hstay t ht
  simp only [hx, hmove, carryOut, ite_self]

end

section
variable {a w r thresh free reserve x : Nat} {wrote rm : Bool}

theorem decideMove_stays (h : a * w < thresh ∨ free ≤ reserve) : decideMove false a w r thresh free reserve x wrote rm = .stay := by
  rcases h with h | h <;> simp [decideMove, h]

theorem decideMove_replicates (h1 : thresh ≤ a * w) (h2 : reserve < free) : decideMove false a w r thresh free reserve x false true = .replicate x := by
  simp only [decideMove, Nat.not_lt.mpr h1, Nat.not_le.mpr h2, Bool.false_eq_true, if_false, Bool.not_false, Bool.and_self, if_true]

/-- A page that was written, or that may not be replicated, moves for a clear majority of its weighted accesses. -/
theorem decideMove_moves (h1 : thresh ≤ a * w) (h2 : reserve < free) (h : (!wrote && rm) = false) :
    decideMove false a w r thresh free reserve x wrote rm = if 2 * r < a * w then .migrate x else .stay := by
  simp only [decideMove, h, Nat.not_lt.mpr h1, Nat.not_le.mpr h2, Bool.false_eq_true, if_false, gt_iff_lt]

end

/-- Settles O47: a request by whether its page is there and a frame is free, the notice by its 2^20 cycles, the end of an epoch and the decision for a page by their cases. -/
theorem pageEvents : Obligations.PageEvents := by
  refine ⟨fun s o asid off => ⟨pageMadeResident_unasked, fun hreq => ⟨fun x hx hr => pageMadeResident_there hreq (missingPage_resident hx hr),
      fun ia hent hmiss => ⟨pageMadeResident_late hreq hmiss, fun f rest hlate hframe => ?_, pageMadeResident_starves hreq hmiss⟩⟩,
      fun e he => ⟨fun ia hent hmiss => starvationNotice_repeats he hmiss, starvationNotice_early he⟩⟩,
    fun s o hen hep => ⟨placementEpochEnd_stays hen hep, placementEpochEnd_early⟩,
    fun a w r thresh free reserve x wrote rm => ⟨rfl, decideMove_stays, fun h1 h2 =>
      ⟨decideMove_replicates h1 h2, decideMove_moves h1 h2 rfl, decideMove_moves h1 h2 (Bool.and_false _)⟩⟩⟩
  have hexec := pageMadeResident_fills hreq hmiss hlate hframe
  refine ⟨fun hnone => ?_, fun hsome => ?_⟩
  · exact hexec.trans (congrArg _ (if_pos (Option.isNone_iff_eq_none.mpr hnone)))
  · exact hexec.trans (congrArg _ (if_neg (by simpa [Option.isSome_iff_ne_none] using hsome)))

end Sys2Proof.Machine

namespace Sys2Proof.Machine

/-! ## The context at a place (R353) -/

section
variable {s t : State} {ref : CtxRef} {x : Ctx}

@[simp] theorem findCtx_putCtx (s : State) (ref : CtxRef) (x : Ctx) : (s.putCtx ref x).findCtx ref = some x := by
  cases ref with
  | resident c i => exact findCtx_setCtx ..
  | shadow c i => simp [State.putCtx, State.findCtx]

theorem modRef_of_find (f : Ctx → Ctx) (h : s.findCtx ref = some x) : s.modRef ref f = s.putCtx ref (f x) := by rw [State.modRef, h]

theorem findCtx_modRef (f : Ctx → Ctx) (h : s.findCtx ref = some x) : (s.modRef ref f).findCtx ref = some (f x) := by
  rw [modRef_of_find f h, findCtx_putCtx]

@[simp] theorem mem_modRef (s : State) (ref : CtxRef) (f : Ctx → Ctx) : (s.modRef ref f).mem = s.mem := by
  unfold State.modRef
  cases s.findCtx ref with
  | none => rfl
  | some x => exact mem_putCtx s ref _

@[simp] theorem time_modRef (s : State) (ref : CtxRef) (f : Ctx → Ctx) : (s.modRef ref f).time = s.time := by
  unfold State.modRef
  cases s.findCtx ref with
  | none => rfl
  | some x => cases ref <;> rfl

theorem findCtx_of_cores (h : t.cores = s.cores) (ref : CtxRef) : t.findCtx ref = s.findCtx ref := by
  cases ref <;> simp only [State.findCtx, State.core, h]

theorem findCtx_modCore {c : Nat} {f : Core → Core} (hf : (f (s.core c)).slots = (s.core c).slots ∧ (f (s.core c)).shadows = (s.core c).shadows)
    (ref : CtxRef) : (s.modCore c f).findCtx ref = s.findCtx ref := by
  obtain ⟨hslots, hshadows⟩ := hf
  cases ref with
  | resident c' i =>
    by_cases hc : c' = c
    · subst hc
      rw [State.findCtx, core_modCore, hslots]; rfl
    · rw [State.findCtx, core_modCore_other s c c' f hc]; rfl
  | shadow c' i =>
    by_cases hc : c' = c
    · subst hc
      rw [State.findCtx, core_modCore, hshadows]; rfl
    · rw [State.findCtx, core_modCore_other s c c' f hc]; rfl

theorem find_mapVals {α : Type} (f : α → α) (m : SMap α) (i : Nat) : SMap.find (SMap.mapVals f m) i = (SMap.find m i).map f := by
  induction m with
  | nil => rfl
  | cons e m ih =>
    obtain ⟨k, v⟩ := e
    show (if i = k then some (f v) else SMap.find (SMap.mapVals f m) i) = (if i = k then some v else SMap.find m i).map f
    rw [ih]
    split <;> rfl

theorem get_mapVals {α : Type} (f : α → α) {d : α} (hd : f d = d) (m : SMap α) (i : Nat) : SMap.get d (SMap.mapVals f m) i = f (SMap.get d m i) := by
  induction m with
  | nil => exact hd.symm
  | cons e m ih =>
    obtain ⟨k, v⟩ := e
    show (if i = k then f v else SMap.get d (SMap.mapVals f m) i) = f (if i = k then v else SMap.get d m i)
    rw [ih]
    split <;> rfl

end

/-- A context with its bound queues updated. -/
def Ctx.mapBound (f : BoundQ → BoundQ) (x : Ctx) : Ctx := { x with boundQs := SMap.mapVals f x.boundQs }

/-- Updating every bound queue changes no more of a context than its own. -/
theorem findCtx_mapQueues (s : State) (f : BoundQ → BoundQ) (ref : CtxRef) : (mapQueues s f).findCtx ref = (s.findCtx ref).map (Ctx.mapBound f) := by
  have hcore : ∀ c, (mapQueues s f).core c =
      { s.core c with slots := SMap.mapVals (Ctx.mapBound f) (s.core c).slots, shadows := SMap.mapVals (Ctx.mapBound f) (s.core c).shadows } :=
    get_mapVals (fun k : Core => { k with slots := SMap.mapVals (Ctx.mapBound f) k.slots, shadows := SMap.mapVals (Ctx.mapBound f) k.shadows }) rfl s.cores
  cases ref with
  | resident c i => rw [State.findCtx, hcore]; exact find_mapVals ..
  | shadow c i => rw [State.findCtx, hcore]; exact find_mapVals ..

/-- Memory, the time, and the context at a place, stand as they were. -/
structure State.Keeps (s : State) (ref : CtxRef) (t : State) : Prop where
  mem : t.mem = s.mem
  time : t.time = s.time
  ctx : t.findCtx ref = s.findCtx ref

section
variable {s t u : State} {ref : CtxRef}

theorem State.Keeps.refl (s : State) (ref : CtxRef) : s.Keeps ref s := ⟨rfl, rfl, rfl⟩

theorem State.Keeps.trans (hst : s.Keeps ref t) (htu : t.Keeps ref u) : s.Keeps ref u :=
  ⟨htu.mem.trans hst.mem, htu.time.trans hst.time, htu.ctx.trans hst.ctx⟩

theorem State.Keeps.foldl {α : Type} {f : State → α → State} (l : List α) (hf : ∀ u a, s.Keeps ref u → u.Keeps ref (f u a)) : s.Keeps ref (l.foldl f s) :=
  List.foldlRecOn (motive := s.Keeps ref) _ _ (.refl s ref) fun u hu a _ => hu.trans (hf u a hu)

theorem keeps_modDie (s : State) (ref : CtxRef) (o : Nat) (f : Die → Die) : s.Keeps ref (s.modDie o f) := ⟨rfl, rfl, findCtx_of_cores rfl ref⟩

theorem keeps_modCore (ref : CtxRef) {c : Nat} {f : Core → Core} (hf : (f (s.core c)).slots = (s.core c).slots ∧ (f (s.core c)).shadows = (s.core c).shadows) :
    s.Keeps ref (s.modCore c f) := ⟨rfl, rfl, findCtx_modCore hf ref⟩

end

/-! ## Abort of a phase (R162-R171) -/

/-! ### What an abort does beside the tasks of the phase: frame holds, the partners of joints, back leaves -/

theorem keeps_holdAll (s : State) (ref : CtxRef) (fs : List (Nat × Nat × Nat)) (up : Bool) : s.Keeps ref (holdAll s fs up) :=
  .foldl fs fun u _ _ => keeps_modDie u ref _ _

theorem keeps_noteLeaf (s : State) (ref : CtxRef) (core phys : Nat) : s.Keeps ref (noteLeaf s core phys) := by
  unfold noteLeaf
  split
  · exact keeps_modDie s ref _ _
  · exact .refl s ref

theorem keeps_setUpLeaf (s : State) (ref : CtxRef) (core : Nat) (x : Ctx) (p : LeafPair) : s.Keeps ref (setUpLeaf s core x p) := by
  unfold setUpLeaf
  split
  · extract_lets s1
    have hnoted : s.Keeps ref s1 := by
      unfold s1
      split
      · exact keeps_noteLeaf s ref _ _
      · exact .refl s ref
    refine hnoted.trans (keeps_modCore ref ?_)
    split <;> exact ⟨rfl, rfl⟩
  · exact .refl s ref

theorem keeps_setUpLeaves (s : State) (ref : CtxRef) (core : Nat) (x : Ctx) (ps : List LeafPair) : s.Keeps ref (setUpLeaves s core x ps) :=
  .foldl ps fun u p _ => keeps_setUpLeaf u ref core x p

/-- What a hold of a joint makes of a context of a core of the quad (R384). -/
def Ctx.jointHeld (launch uid : Nat) (tag : Fin 16) (now : Nat) (y : Ctx) : Ctx :=
  if y.launch = launch ∧ y.uid ≠ uid then y.mapTasks fun t => if t.inJoint tag then { t.fresh with st := .ready, since := now } else t else y

/-- A hold strikes the other members of a joint, never the context whose abort it is (R384). -/
theorem keeps_holdJoint {s : State} {ref : CtxRef} {x : Ctx} (hx : s.findCtx ref = some x) (core launch : Nat) (tag : Fin 16) :
    s.Keeps ref (holdJoint s core launch x.uid tag) := by
  refine .foldl _ fun u c hu => ⟨rfl, rfl, ?_⟩
  have hfound : u.findCtx ref = some x := hu.ctx.trans hx
  cases ref with
  | shadow c' i =>
    by_cases hc : c' = c
    · subst hc
      rw [State.findCtx, core_modCore]; rfl
    · rw [State.findCtx, core_modCore_other _ _ _ _ hc]; rfl
  | resident c' i =>
    by_cases hc : c' = c
    · subst hc
      rw [State.findCtx, core_modCore]
      have hself : Ctx.jointHeld launch x.uid tag u.time x = x := if_neg fun h => h.2 rfl
      have hmapped := find_mapVals (Ctx.jointHeld launch x.uid tag u.time) (u.core c').slots i
      rw [show SMap.find (u.core c').slots i = some x from hfound, Option.map_some, hself] at hmapped
      exact hmapped.trans hfound.symm
    · rw [State.findCtx, core_modCore_other _ _ _ _ hc]; rfl

theorem keeps_holdJoints {s : State} {ref : CtxRef} {x : Ctx} (hx : s.findCtx ref = some x) (core : Nat) (ts : List (Nat × Task)) :
    s.Keeps ref (holdJoints s core x ts) := by
  refine .foldl ts fun u e hu => ?_
  split
  · split
    · exact keeps_holdJoint (hu.ctx.trans hx) core _ _
    · exact .refl u ref
  · exact .refl u ref

/-! ### What an abort does to the tasks of the phase -/

/-- What cr.phase.limit, the open phase, the aborts counted and the pending events of a context are. -/
def Ctx.standing (x : Ctx) : Option Phase × BitVec 4 × BitVec 16 × List PendD := (x.phase, x.limit, x.aborts, x.pendD)

theorem standing_parts {x : Ctx} {p : Option Phase} {l : BitVec 4} {n : BitVec 16} {ds : List PendD} (h : x.standing = (p, l, n, ds)) :
    x.phase = p ∧ x.limit = l ∧ x.aborts = n ∧ x.pendD = ds := by
  simpa only [Ctx.standing, Prod.mk.injEq] using h

theorem standing_serveList (sem : Nat) (ws : List (Nat × Nat × Nat)) (x : Ctx) : (serveList sem ws x).1.standing = x.standing := by
  induction ws generalizing x with
  | nil => rfl
  | cons w ws ih =>
    unfold serveList
    split
    · split
      · rw [ih]
        unfold Ctx.correctSem
        split <;> rfl
      · rfl
    · exact ih x

theorem standing_addSem (x : Ctx) (sem k : Nat) : (x.addSem sem k).standing = x.standing := by
  have hserved : ∀ y : Ctx, (y.serveSem sem).standing = y.standing := fun y => standing_serveList sem y.semq y
  have hfixed : (x.correctSem sem).standing = x.standing := by
    unfold Ctx.correctSem
    split <;> rfl
  unfold Ctx.addSem Ctx.writeSem
  dsimp only
  split
  · exact (hserved _).trans hfixed
  · exact (hserved _).trans hfixed

/-- The signals of written joint products reach semaphores and no phase (R385). -/
theorem standing_signalWritten (x : Ctx) (id : PhaseId) : (x.signalWritten id).standing = x.standing := by
  unfold Ctx.signalWritten
  refine List.foldlRecOn (motive := fun y : Ctx => y.standing = x.standing) _ _ rfl fun y hy e _ => ?_
  split
  · split
    · exact hy
    · exact (standing_addSem y _ _).trans hy
  · exact hy

theorem tasks_mapTasks (x : Ctx) (f : Task → Task) : (x.mapTasks f).tasks = x.tasks.map fun e => (e.1, f e.2) := by
  simp only [Ctx.tasks, Ctx.mapTasks, Vector.toList_map, List.getElem?_map, List.map_flatMap, List.map_map]
  refine List.flatMap_congr fun q _ => ?_
  cases x.queues.toList[q]? with
  | none => rfl
  | some ts => simp

theorem tasks_of_queues {x y : Ctx} (h : y.queues = x.queues) : y.tasks = x.tasks := by simp only [Ctx.tasks, h]

/-- The tasks of an aborted phase are back at their start, and its held port elements and fetched rows are gone (R167, R322). -/
def Ctx.restarted (x : Ctx) (id : PhaseId) (now : Nat) : Ctx :=
  let y := ((x.signalWritten id).mapTasks fun t => if t.phaseId = id && !t.committed then t.requeue now else t).portsAbort id
  if (x.task x.fetchTask).any fun e => e.2.phaseId == id then { y with fetchV := false, fetchRows := 0, fetchBytes := [] } else y

theorem standing_restarted (x : Ctx) (id : PhaseId) (now : Nat) : (x.restarted id now).standing = x.standing := by
  have hports : ∀ y : Ctx, (y.portsAbort id).standing = y.standing := fun y => by cases id <;> rfl
  unfold Ctx.restarted
  dsimp only
  split
  · exact (hports _).trans (standing_signalWritten x id)
  · exact (hports _).trans (standing_signalWritten x id)

theorem tasks_restarted (x : Ctx) (id : PhaseId) (now : Nat) : (x.restarted id now).tasks =
    (x.signalWritten id).tasks.map fun e => (e.1, if e.2.phaseId = id && !e.2.committed then e.2.requeue now else e.2) := by
  have hports : ∀ y : Ctx, (y.portsAbort id).tasks = y.tasks := fun y => by cases id <;> rfl
  unfold Ctx.restarted
  dsimp only
  split
  · exact (hports _).trans (tasks_mapTasks ..)
  · exact (hports _).trans (tasks_mapTasks ..)

/-- Every task of the phase that has not committed waits in its queue without held stores (R167). -/
theorem restarted_requeues (x : Ctx) (n now : Nat) : ∀ e ∈ (x.restarted (.opened n) now).tasks, e.2.phase = some n → e.2.committed = false →
    e.2.st = .queued ∧ e.2.stores = [] := by
  intro e he hphase hcommitted
  rw [tasks_restarted] at he
  obtain ⟨⟨q, t⟩, -, rfl⟩ := List.mem_map.mp he
  by_cases hmine : (t.phaseId = .opened n && !t.committed) = true
  · simp only [hmine, if_true]
    exact ⟨rfl, rfl⟩
  · simp only [hmine, Bool.false_eq_true, if_false] at hphase hcommitted
    exact absurd (by simp [Task.phaseId, hphase, hcommitted]) hmine

/-! ### The abort of the open phase -/

/-- The context whose open phase an abort has struck: tasks requeued, the abort counted and noted for the cycle (R164, R167, R171). -/
def Ctx.abortedOnce (x : Ctx) (n now : Nat) (a : AbortOf) : Ctx :=
  { ((x.mapBound (·.abort (x.uid, .opened n))).restarted (.opened n) now).countAbort (.opened n) a.code with
    struck := some (now, .opened n, a.code, a.classD) }

theorem abortedOnce_requeues (x : Ctx) (n now : Nat) (a : AbortOf) : ∀ e ∈ (x.abortedOnce n now a).tasks, e.2.phase = some n → e.2.committed = false →
    e.2.st = .queued ∧ e.2.stores = [] := by
  have hrequeued := restarted_requeues (x.mapBound (·.abort (x.uid, .opened n))) n now
  unfold Ctx.abortedOnce
  generalize (x.mapBound (·.abort (x.uid, .opened n))).restarted (.opened n) now = z at hrequeued ⊢
  exact hrequeued

theorem abortedOnce_standing {x : Ctx} {h : Phase} (hp : x.phase = some h) (now : Nat) (a : AbortOf) :
    (x.abortedOnce h.num now a).standing = (some { h with run := h.run + 1 }, x.limit, satInc x.aborts, x.pendD) := by
  have hstand : ((x.mapBound (·.abort (x.uid, .opened h.num))).restarted (.opened h.num) now).standing = x.standing := standing_restarted ..
  unfold Ctx.abortedOnce
  generalize (x.mapBound (·.abort (x.uid, .opened h.num))).restarted (.opened h.num) now = z at hstand ⊢
  obtain ⟨hphase, hlimit, haborts, hpend⟩ := standing_parts hstand
  show (z.phase.map fun p => { p with run := (z.phase.map fun q : Phase => q.run).getD 0 + 1 }, z.limit, satInc z.aborts, z.pendD) = _
  rw [hphase, hlimit, haborts, hpend, hp]
  rfl

/-- The state that an abort of the open phase leaves before it holds or discards the phase (R167, R168). -/
def State.abortedOnce (s : State) (ref : CtxRef) (x : Ctx) (h : Phase) (a : AbortOf) : State :=
  let back := x.tasksOf (.opened h.num)
  let s := back.foldl (fun s e => holdAll s e.2.holds false) s
  let s := holdJoints s (refCore ref) x back
  let s := mapQueues s (·.abort (x.uid, .opened h.num))
  let s := s.modRef ref (·.restarted (.opened h.num) s.time)
  let s := setUpLeaves s (refCore ref) x h.pairs
  s.modRef ref fun y => { y.countAbort (.opened h.num) a.code with struck := some (s.time, .opened h.num, a.code, a.classD) }

/-- A class D event is listed, and the phase held until it has been delivered (R162). -/
def Ctx.heldForEvent (x : Ctx) (n : Nat) (a : AbortOf) : Ctx :=
  { x.setHold (.opened n) (some .pending) with
    pendD := x.pendD ++ [{ strand := a.strand, cause := BitVec.ofNat 64 (a.engine * 2 ^ 24 + a.stage * 2 ^ 18 + 0x100 + a.code), addr := a.addr, phase := .opened n }] }

/-- The end of an abort: at the replay limit the phase is discarded, below it held (R171). -/
def State.endAbort (s : State) (ref : CtxRef) (n : Nat) (a : AbortOf) : State :=
  match s.findCtx ref with
  | none => s
  | some y =>
    if y.limit.toNat ≤ y.runOf (.opened n) then
      (discardPhase s ref (.opened n)).modRef ref fun x =>
        { x with pendD := x.pendD ++ [{ strand := a.strand, cause := BitVec.ofNat 64 (a.engine * 2 ^ 24 + a.code * 2 ^ 16 + 0x125), addr := a.addr, phase := .opened n }] }
    else if a.classD then s.modRef ref (·.heldForEvent n a)
    else s.modRef ref (·.setHold (.opened n) a.hold)

section
variable {s : State} {ref : CtxRef} {x : Ctx} {h : Phase} (hx : s.findCtx ref = some x)
include hx

theorem state_abortedOnce (h : Phase) (a : AbortOf) :
    (s.abortedOnce ref x h a).mem = s.mem ∧ (s.abortedOnce ref x h a).findCtx ref = some (x.abortedOnce h.num s.time a) := by
  unfold State.abortedOnce
  extract_lets back s1 s2 s3 s4 s5
  have h1 : s.Keeps ref s1 := .foldl back fun u e _ => keeps_holdAll u ref e.2.holds false
  have h2 : s.Keeps ref s2 := h1.trans (keeps_holdJoints (h1.ctx.trans hx) (refCore ref) back)
  have h3 : s3.findCtx ref = some (x.mapBound (·.abort (x.uid, .opened h.num))) := by rw [findCtx_mapQueues, h2.ctx, hx]; rfl
  have h4 : s4.findCtx ref = some ((x.mapBound (·.abort (x.uid, .opened h.num))).restarted (.opened h.num) s.time) :=
    (findCtx_modRef _ h3).trans (by rw [show s3.time = s.time from h2.time])
  have h5 : s4.Keeps ref s5 := keeps_setUpLeaves s4 ref (refCore ref) x h.pairs
  have htime : s5.time = s.time := h5.time.trans ((time_modRef s3 ref _).trans h2.time)
  refine ⟨(mem_modRef s5 ref _).trans (h5.mem.trans ((mem_modRef s3 ref _).trans h2.mem)), (findCtx_modRef _ (h5.ctx.trans h4)).trans ?_⟩
  rw [htime]
  rfl

section
variable {a : AbortOf} (hhalt : a.halt = false)
include hhalt

/-- A second event of the cycle joins the abort that has struck the phase (R164). -/
theorem abortPhase_joins {id : PhaseId} {code : Nat} {d : Bool} (hstruck : x.struckNow s.time id = some (code, d)) :
    abortPhase s ref id a = joinAbort s ref id a code d := by
  simp only [abortPhase, hx, hhalt, hstruck, Bool.false_eq_true, if_false]

variable (hp : x.phase = some h)
include hp

/-- An abort of a phase that no event of the cycle has struck and nothing holds. -/
theorem abortPhase_strikes (hstruck : x.struckNow s.time (.opened h.num) = none) (hfree : h.hold = none) :
    abortPhase s ref (.opened h.num) a = (s.abortedOnce ref x h a).endAbort ref h.num a := by
  have hheld : (x.holdOf (.opened h.num)).isSome = false := by simp [Ctx.holdOf, hp, hfree]
  simp only [abortPhase, hx, hp, hhalt, hstruck, hheld, Bool.false_and, Bool.false_eq_true, if_false]
  rfl

/-- Below the replay limit the phase is held, for a class D event until it is delivered (R162, R168, R171). -/
theorem abortPhase_replays (hstruck : x.struckNow s.time (.opened h.num) = none) (hfree : h.hold = none) (hrun : h.run + 1 < x.limit.toNat) :
    abortPhase s ref (.opened h.num) a =
      if a.classD then (s.abortedOnce ref x h a).modRef ref (·.heldForEvent h.num a)
      else (s.abortedOnce ref x h a).modRef ref (·.setHold (.opened h.num) a.hold) := by
  obtain ⟨hphase, hlimit, -, -⟩ := standing_parts (abortedOnce_standing hp s.time a)
  have hbelow : ¬(x.abortedOnce h.num s.time a).limit.toNat ≤ (x.abortedOnce h.num s.time a).runOf (.opened h.num) := by
    rw [hlimit, Ctx.runOf, hphase]
    exact Nat.not_le.mpr hrun
  rw [abortPhase_strikes hx hhalt hp hstruck hfree, State.endAbort, (state_abortedOnce hx h a).2]
  exact if_neg hbelow

/-- Below the replay limit an abort of the open phase writes no byte of memory, whether it strikes the phase or joins (R164, R167). -/
theorem mem_abortPhase (hfree : h.hold = none) (hrun : h.run + 1 < x.limit.toNat) : (abortPhase s ref (.opened h.num) a).mem = s.mem := by
  cases hstruck : x.struckNow s.time (.opened h.num) with
  | some e =>
    obtain ⟨code, d⟩ := e
    rw [abortPhase_joins hx hhalt hstruck, joinAbort]
    split
    · rfl
    · exact mem_modRef ..
  | none =>
    rw [abortPhase_replays hx hhalt hp hstruck hfree hrun]
    split <;> exact (mem_modRef ..).trans (state_abortedOnce hx h a).1

end

/-- Of two class A events of a cycle cr.phase.stat has the lower code, and nothing else differs (R164). -/
theorem abortPhase_lowest {id : PhaseId} {code : Nat} {a : AbortOf} (hhalt : a.halt = false) (hstruck : x.struckNow s.time id = some (code, false))
    (hd : a.classD = false) : (abortPhase s ref id a).mem = s.mem ∧ (abortPhase s ref id a).findCtx ref =
      some { x with last := BitVec.ofNat 8 (min code a.code), struck := some (s.time, id, min code a.code, false) } := by
  have hjoined : abortPhase s ref id a =
      s.modRef ref fun x => { x with last := BitVec.ofNat 8 (min code a.code), struck := some (s.time, id, min code a.code, false) } := by
    rw [abortPhase_joins hx hhalt hstruck, joinAbort, if_neg Bool.false_ne_true, hd]
    rfl
  rw [hjoined]
  exact ⟨mem_modRef .., findCtx_modRef _ hx⟩

end

theorem phase_setHold {x : Ctx} {h : Phase} (hp : x.phase = some h) (k : Option Hold) : (x.setHold (.opened h.num) k).phase = some { h with hold := k } := by
  show x.phase.map _ = _
  rw [hp]
  exact congrArg some (if_pos rfl)

section
variable {x : Ctx} {h : Phase} (hp : x.phase = some h) (now : Nat) (a : AbortOf)

include hp

theorem heldForEvent_parts : ((x.abortedOnce h.num now a).heldForEvent h.num a).phase = some { h with run := h.run + 1, hold := some .pending }
    ∧ ((x.abortedOnce h.num now a).heldForEvent h.num a).aborts = satInc x.aborts
    ∧ ((x.abortedOnce h.num now a).heldForEvent h.num a).pendD =
        x.pendD ++ [{ strand := a.strand, cause := BitVec.ofNat 64 (a.engine * 2 ^ 24 + a.stage * 2 ^ 18 + 0x100 + a.code), addr := a.addr, phase := .opened h.num }] := by
  obtain ⟨hphase, -, haborts, hpend⟩ := standing_parts (abortedOnce_standing hp now a)
  exact ⟨phase_setHold hphase _, haborts, congrArg (· ++ _) hpend⟩

theorem abortedOnce_setHold_parts : ((x.abortedOnce h.num now a).setHold (.opened h.num) a.hold).phase = some { h with run := h.run + 1, hold := a.hold }
    ∧ ((x.abortedOnce h.num now a).setHold (.opened h.num) a.hold).aborts = satInc x.aborts
    ∧ ((x.abortedOnce h.num now a).setHold (.opened h.num) a.hold).pendD = x.pendD := by
  obtain ⟨hphase, -, haborts, hpend⟩ := standing_parts (abortedOnce_standing hp now a)
  exact ⟨phase_setHold hphase _, haborts, hpend⟩

end

/-! ### PHASE_ABORT (R163, R322, R416) -/

theorem findCtx_of_taskAt {s : State} {c : CtxRef} {q pos : Nat} {x : Ctx} {t : Task} (h : taskAt s c q pos = some (x, t)) : s.findCtx c = some x := by
  obtain ⟨y, hy, hrest⟩ := Option.bind_eq_some_iff.mp h
  split at hrest
  · obtain ⟨u, -, hu⟩ := Option.map_eq_some_iff.mp hrest
    rw [hy, (Prod.mk.injEq .. ▸ hu : y = x ∧ u = t).1]
  · exact nomatch hrest

/-- Only MEM_UE and MEM_INTEGRITY are counted at the owner (R413, R426). -/
theorem countEng_other (s : State) (c : CtxRef) (addr : Word) {code : Nat} (h1 : code ≠ 0x0C) (h2 : code ≠ 0x0D) : countEng s c code addr = s := by
  unfold countEng
  cases s.findCtx c with
  | none => rfl
  | some x => exact (if_neg h1).trans (if_neg h2)

/-- The rows of A before a failing one stay with the context (R322). -/
def State.keepFetched (u : State) (c : CtxRef) (t : Task) : Option (Nat × List Byte) → State
  | some (r, bs) => keepRows u c t r bs
  | none => u

section
variable {s : State} {c : CtxRef} {q pos : Nat} {x : Ctx} {t : Task} {cause : EngineCause} {addr : Word}
  (htask : taskAt s c q pos = some (x, t)) (hcause : cause ≠ .frameStarved)
include htask hcause

theorem phaseAbort_unreported (h : mayReport s x q t cause = false) : exec (.phaseAbort c q pos cause addr) s = .next s := by
  show execPhaseAbort c q pos cause addr s = _
  simp only [execPhaseAbort, htask, hcause, h, Bool.not_false, if_false, if_true]

theorem phaseAbort_reported (h : mayReport s x q t cause = true) : exec (.phaseAbort c q pos cause addr) s =
    .next ((askHold (abortFor (countEng (countSdc s (refCore c) cause) c (causeOf cause).1 addr) c q t (causeOf cause).1 (causeOf cause).2.1 addr
      (causeOf cause).2.2 (holdFor cause addr t.num)) c (holdFor cause addr t.num)).keepFetched c t
        (if (causeOf cause).2.2 then fetchedBefore s c x t addr else none)) := by
  show execPhaseAbort c q pos cause addr s = _
  simp only [execPhaseAbort, htask, hcause, h, Bool.not_true, Bool.false_eq_true, if_false]
  cases (if (causeOf cause).2.2 = true then fetchedBefore s c x t addr else none) <;> rfl

section
variable (h : mayReport s x q t cause = true) {u : State} (hcount : countEng (countSdc s (refCore c) cause) c (causeOf cause).1 addr = u)
include h hcount

theorem phaseAbort_classD (hclass : (causeOf cause).2.2 = true) (hhold : holdFor cause addr t.num = none) : exec (.phaseAbort c q pos cause addr) s =
    .next ((abortFor u c q t (causeOf cause).1 (causeOf cause).2.1 addr true none).keepFetched c t (fetchedBefore s c x t addr)) := by
  rw [phaseAbort_reported htask hcause h, hcount, hclass, hhold, if_pos rfl]
  rfl

theorem phaseAbort_classA (hclass : (causeOf cause).2.2 = false) : exec (.phaseAbort c q pos cause addr) s =
    .next (askHold (abortFor u c q t (causeOf cause).1 (causeOf cause).2.1 addr false (holdFor cause addr t.num)) c (holdFor cause addr t.num)) := by
  rw [phaseAbort_reported htask hcause h, hcount, hclass, if_neg Bool.false_ne_true]
  rfl

end
end

/-- Settles O43: a report by its cause's class and count, the abort of the open phase by what it leaves of the context below the replay limit. -/
theorem phaseAborts : Obligations.PhaseAborts := by
  refine ⟨fun s c q pos x t addr htask => ?_, fun s c x h a hx hp hhalt => ?_⟩
  · intro aborts kept
    have hkept : ∀ u, u.keepFetched c t (fetchedBefore s c x t addr) = kept u := fun u => by
      dsimp only [kept]
      cases fetchedBefore s c x t addr <;> rfl
    refine ⟨fun hcommitted hst hwritten => ?_, fun hst hstopped st => phaseAbort_unreported htask nofun (by simp [mayReport, hst, hstopped])⟩
    have hmay : (!t.committed && ((t.st == .running || t.stoppedAt == some s.time) && !t.written)) = true := by simp [hcommitted, hst, hwritten]
    have hnone : ∀ u : State, ∀ code, code ≠ 0x0C → code ≠ 0x0D → countEng u c code addr = u := fun u _ => countEng_other u c addr
    refine ⟨fun st => ?_, fun st => ?_, fun st => ?_, ?_, ?_, ?_, ?_⟩
    · exact (phaseAbort_classD (cause := .xlateMiss st) htask nofun hmay (hnone s 0x0A (by decide) (by decide)) rfl rfl).trans (congrArg _ (hkept _))
    · exact (phaseAbort_classD (cause := .xlatePerm st) htask nofun hmay (hnone s 0x0B (by decide) (by decide)) rfl rfl).trans (congrArg _ (hkept _))
    · exact (phaseAbort_classD (cause := .accessFault st) htask nofun hmay (hnone s 0x09 (by decide) (by decide)) rfl rfl).trans (congrArg _ (hkept _))
    · exact phaseAbort_classA (cause := .memUe) htask nofun hmay rfl rfl
    · exact (phaseAbort_classD (cause := .memIntegrity) htask nofun hmay rfl rfl rfl).trans (congrArg _ (hkept _))
    · exact phaseAbort_classA (cause := .pageAbsent) htask nofun hmay (hnone s _ (by decide) (by decide)) rfl
    · exact phaseAbort_classA (cause := .traceMismatch) htask nofun hmay (hnone _ _ (by decide) (by decide)) rfl
  · intro t
    refine ⟨fun code hstruck hd => ?_, fun hstruck hfree hrun => ⟨mem_abortPhase hx hhalt hp hfree hrun, ?_⟩⟩
    · obtain ⟨hmem, hfound⟩ := abortPhase_lowest hx hhalt hstruck hd
      exact ⟨hmem, _, hfound, rfl, rfl, rfl, rfl, rfl⟩
    · have hafter := abortPhase_replays hx hhalt hp hstruck hfree hrun
      have hfound := (state_abortedOnce hx h a).2
      have hrequeued := abortedOnce_requeues x h.num s.time a
      cases hd : a.classD with
      | true =>
        obtain ⟨hphase, haborts, hpend⟩ := heldForEvent_parts hp s.time a
        rw [hd, if_pos rfl] at hafter
        exact ⟨_, (congrArg (·.findCtx c) hafter).trans (findCtx_modRef _ hfound), rfl, haborts, hrequeued, fun _ => ⟨hphase, hpend⟩, nofun⟩
      | false =>
        obtain ⟨hphase, haborts, hpend⟩ := abortedOnce_setHold_parts hp s.time a
        rw [hd, if_neg Bool.false_ne_true] at hafter
        exact ⟨_, (congrArg (·.findCtx c) hafter).trans (findCtx_modRef _ hfound), rfl, haborts, hrequeued, nofun, fun _ => ⟨hphase, hpend⟩⟩

end Sys2Proof.Machine

namespace Sys2Proof.Machine

/-! ## Buffer phases: BSWAP and PHASE_COMMIT (R165, R166, R259) -/

/-! ### Stores and the ends of transfers leave the cores alone -/

/-- The cores stand as they were. A relation of its own, so that the kernel compares the states of two such facts and not their cores. -/
def State.SameCores (s t : State) : Prop := t.cores = s.cores

section
variable {s t u : State}

theorem State.SameCores.refl (s : State) : s.SameCores s := rfl

theorem State.SameCores.trans (hst : s.SameCores t) (htu : t.SameCores u) : s.SameCores u := Eq.trans htu hst

theorem State.SameCores.foldl {α : Type} {f : State → α → State} (hf : ∀ (s : State) x, s.SameCores (f s x)) (l : List α) (s : State) : s.SameCores (l.foldl f s) :=
  List.foldlRecOn (motive := s.SameCores) l f (.refl s) fun u hu x _ => hu.trans (hf u x)

end

theorem sameCores_modDie (s : State) (o : Nat) (f : Die → Die) : s.SameCores (s.modDie o f) := rfl

theorem sameCores_setRaw (s : State) (k : Nat) (b : Byte) : s.SameCores (s.setRaw k b) := rfl

theorem sameCores_releaseWaiter (s : State) (w : Waiter) (v how : Word) : s.SameCores (releaseWaiter s w v how) := rfl

theorem sameCores_serveAddr (s : State) (o : Nat) (asid : Option (BitVec 12)) (k n : Nat) : s.SameCores (serveAddr s o asid k n) :=
  (sameCores_modDie s o _).trans (.foldl (fun u w => sameCores_releaseWaiter u w _ 1) _ _)

theorem sameCores_serveEvery (s : State) (k n : Nat) : s.SameCores (serveEvery s k n) := .foldl (fun u _ => sameCores_serveAddr u _ _ _ _) _ s

theorem sameCores_clearPoison (s : State) (k n : Nat) : s.SameCores (clearPoison s k n) := by
  unfold clearPoison
  dsimp only
  split
  · exact sameCores_modDie s _ _
  · exact .refl s

theorem sameCores_useLine (s : State) (x : Xl) (wrote : Bool) : s.SameCores (s.useLine x wrote) := by
  unfold State.useLine
  split
  · exact .refl s
  · dsimp only
    split
    · exact .refl s
    · exact sameCores_modDie s _ _

theorem sameCores_dropCopies (s : State) (die line : Nat) : s.SameCores (s.dropCopies die line) := by
  unfold State.dropCopies
  split
  · exact sameCores_modDie s _ _
  · exact .refl s

theorem sameCores_dropReplicas (s : State) (o key size : Nat) : s.SameCores (dropReplicas s o key size) := by
  unfold dropReplicas
  dsimp only
  split
  · exact .refl s
  · exact (sameCores_modDie s _ _).trans (.foldl (fun u _ => sameCores_modDie u _ _) _ _)

theorem sameCores_touchIa (s : State) (o : Nat) (asid : BitVec 12) (ia : Nat) (hent : Word) (key : Nat) (dirty : Bool) :
    s.SameCores (touchIa s o asid ia hent key dirty) := by
  unfold touchIa
  extract_lets size base s1 s2
  have h1 : s.SameCores s1 := by
    unfold s1
    split
    · exact .refl s
    · exact .foldl (fun u _ => sameCores_setRaw u _ _) _ s
  have h2 : s1.SameCores s2 := by
    unfold s2
    split
    · exact sameCores_modDie s1 _ _
    · exact .refl s1
  exact h1.trans (h2.trans (sameCores_dropReplicas s2 ..))

theorem sameCores_touchPage (s : State) (x : Xl) : s.SameCores (touchPage s x) := by
  unfold touchPage
  refine .trans (.trans ?_ (sameCores_useLine _ x true)) (sameCores_touchIa ..)
  split
  · exact sameCores_dropCopies s _ _
  · exact .refl s

theorem sameCores_setRaws (s : State) (k : Nat) (bs : List Byte) : s.SameCores (s.setRaws k bs) := by
  induction bs generalizing s k with
  | nil => exact .refl s
  | cons b bs ih => exact (sameCores_setRaw s k b).trans (ih ..)

theorem sameCores_prepSector (s : State) (k : Nat) (keys : Option (BitVec 768)) : s.SameCores (s.prepSector k keys) := by
  unfold State.prepSector
  extract_lets c base bytes
  clear_value bytes
  split
  · exact .refl s
  · exact sameCores_setRaws s base bytes

theorem sameCores_writeByte (s : State) (k : Nat) (keys : Option (BitVec 768)) (b : Byte) : s.SameCores (s.writeByte k keys b) :=
  (sameCores_prepSector s k keys).trans (sameCores_setRaw _ k b)

theorem sameCores_pokeXl (s : State) (bs : List (Xl × Byte)) : s.SameCores (s.pokeXl bs) := by
  induction bs generalizing s with
  | nil => exact .refl s
  | cons e bs ih => exact (sameCores_touchPage s e.1).trans ((sameCores_writeByte ..).trans (ih _))

theorem sameCores_perform (s : State) (bs : List (Xl × Byte)) : s.SameCores (s.perform bs) := by
  unfold State.perform
  exact (sameCores_pokeXl s bs).trans (.foldl (fun u _ => (sameCores_clearPoison u _ _).trans (sameCores_serveAddr ..)) _ _)

theorem sameCores_writeMa (s : State) (o ma : Nat) (bs : List Byte) : s.SameCores (s.writeMa o ma bs) := by
  unfold State.writeMa
  exact .trans (.foldl (fun u _ => sameCores_prepSector u _ _) _ s) ((sameCores_setRaws ..).trans ((sameCores_clearPoison ..).trans (sameCores_serveEvery ..)))

theorem sameCores_endTransfer (s : State) (x : Ctx) (i : Nat) (gen : BitVec 8) : s.SameCores (endTransfer s x i gen) := by
  unfold endTransfer State.setHandle
  exact sameCores_writeMa ..

theorem sameCores_dropTransfer (s : State) (x : Ctx) (t : Task) : s.SameCores (dropTransfer s x t) := by
  unfold dropTransfer
  split
  · exact .refl s
  · exact .trans (.foldl (fun u _ => sameCores_modDie u _ _) _ s) (.foldl (fun u _ => sameCores_endTransfer u x _ _) _ _)

/-! ### BSWAP (R165, R259, R386) -/

/-- The pairs of an open are refused: a leaf is not there or named twice, or a back leaf holds C bytes of a QMMA. -/
theorem pairs_refused_iff (x : Ctx) (ps : List LeafPair) : (!pairsOk x ps || ps.any fun p => x.jointHolds p.back) = true ↔
    (∃ l ∈ ps.flatMap fun p => [p.front, p.back], x.leaves.length ≤ l) ∨ ¬(ps.flatMap fun p => [p.front, p.back]).Nodup
      ∨ ∃ p ∈ ps, x.jointHolds p.back = true := by
  rw [Bool.or_eq_true, Bool.not_eq_true', pairsOk, Bool.and_eq_false_iff, List.all_eq_false, decide_eq_false_iff_not, List.any_eq_true, or_assoc]
  simp only [decide_eq_true_eq, Nat.not_lt]

section
variable {s : State} {d : SReg}

section
variable {v : VNum} {n : BitVec 6}

theorem bswapOpen_busy (h : s.cx.phase ≠ none) : ScalarWrite s (exec (.bswapOpen d v n) s) d 11 := by
  have hexec : exec (.bswapOpen d v n) s = scalarResult s d 11 := if_pos (Option.isSome_iff_ne_none.mpr h)
  rw [hexec]
  exact scalarResult_writes s d 11

variable (hclosed : s.cx.phase = none)
include hclosed

theorem bswapOpen_closed : exec (.bswapOpen d v n) s =
    if n = 0 ∨ n.toNat > 32 then scalarResult s d 5
    else if (!pairsOk s.cx (pairList (s.getV v) n.toNat) || (pairList (s.getV v) n.toNat).any fun p => s.cx.jointHolds p.back) = true then scalarResult s d 5
    else if (!(pairList (s.getV v) n.toNat).all fun p => s.cx.leafHere p.back) = true then
      .next (s.holdLeaves (((pairList (s.getV v) n.toNat).map (·.back)).filter fun l => !s.cx.leafHere l))
    else .next (((setUpLeaves s s.focus.core s.cx (pairList (s.getV v) n.toNat)).modCx fun x =>
      { x with phase := some { num := x.nextPhase, pairs := pairList (s.getV v) n.toNat }, nextPhase := x.nextPhase + 1 }).status d 0) :=
  if_neg (by simp [hclosed])

theorem bswapOpen_refused (h : (n.toNat = 0 ∨ 32 < n.toNat)
      ∨ (!pairsOk s.cx (pairList (s.getV v) n.toNat) || (pairList (s.getV v) n.toNat).any fun p => s.cx.jointHolds p.back) = true) :
    ScalarWrite s (exec (.bswapOpen d v n) s) d 5 := by
  have hexec : exec (.bswapOpen d v n) s = scalarResult s d 5 := by
    rw [bswapOpen_closed hclosed]
    rcases h with h | h
    · exact if_pos (h.imp_left BitVec.eq_of_toNat_eq)
    · rw [if_pos h, ite_self]
  rw [hexec]
  exact scalarResult_writes s d 5

section
variable (hrange : ¬(n.toNat = 0 ∨ 32 < n.toNat))
  (hgood : ¬(!pairsOk s.cx (pairList (s.getV v) n.toNat) || (pairList (s.getV v) n.toNat).any fun p => s.cx.jointHolds p.back) = true)
include hrange hgood

theorem bswapOpen_waits (h : ∃ p ∈ pairList (s.getV v) n.toNat, s.cx.leafHere p.back = false) : Completes s (exec (.bswapOpen d v n) s)
    (s.holdLeaves (((pairList (s.getV v) n.toNat).map (·.back)).filter fun l => !s.cx.leafHere l)) := by
  refine completes_next ?_ rfl
  rw [bswapOpen_closed hclosed, if_neg (mt (Or.imp_left (congrArg BitVec.toNat)) hrange), if_neg hgood]
  refine if_pos ?_
  rw [Bool.not_eq_true', List.all_eq_false]
  exact h.imp fun p hp => ⟨hp.1, ne_true_of_eq_false hp.2⟩

theorem bswapOpen_opens (h : ∀ p ∈ pairList (s.getV v) n.toNat, s.cx.leafHere p.back = true) : exec (.bswapOpen d v n) s =
    .next (((setUpLeaves s s.focus.core s.cx (pairList (s.getV v) n.toNat)).modCx fun x =>
      { x with phase := some { num := x.nextPhase, pairs := pairList (s.getV v) n.toNat }, nextPhase := x.nextPhase + 1 }).status d 0) := by
  rw [bswapOpen_closed hclosed, if_neg (mt (Or.imp_left (congrArg BitVec.toNat)) hrange), if_neg hgood]
  exact if_neg (by rw [List.all_eq_true.mpr h]; exact Bool.false_ne_true)

end
end

theorem startCommit_closed (hclosed : s.cx.phase = none) (reopen : Bool) : startCommit s d reopen = s.status d 5 := by rw [startCommit, hclosed]; rfl

section
variable {h : Phase} (hp : s.cx.phase = some h)
include hp

/-- The strand waits for the commit, unless a leaf to be set up holds C bytes of a QMMA. -/
theorem startCommit_open (hnone : h.committing = none) (reopen : Bool) : startCommit s d reopen =
    if (reopen && h.pairs.any fun p => s.cx.jointHolds p.front) = true then s.status d 5
    else (s.modCx fun x => { x with phase := some { h with committing := some ((strandIx s.focus).val, reopen) } }).modSt fun t =>
      { t with wait := some (.swap d reopen) } := by
  rw [startCommit, hp]
  exact if_neg (by rw [hnone]; exact Bool.false_ne_true)

end
end

/-! ### PHASE_COMMIT (R165, R166, R259, R389) -/

theorem mem_tasksOf_opened {x : Ctx} {n : Nat} {e : Nat × Task} : e ∈ x.tasksOf (.opened n) ↔ e ∈ x.tasks ∧ e.2.phase = some n ∧ e.2.committed = false := by
  have hid : e.2.phaseId = .opened n ↔ e.2.phase = some n := by
    unfold Task.phaseId
    cases e.2.phase <;> simp
  simp [Ctx.tasksOf, List.mem_filter, hid]

theorem phaseDrained_iff (x : Ctx) (h : Phase) :
    phaseDrained x h = true ↔ ∀ e ∈ x.tasks, e.2.phase = some h.num → e.2.committed = false → e.2.st = .done := by
  simp only [phaseDrained, List.all_eq_true, mem_tasksOf_opened, beq_iff_eq, and_imp]

section
variable {s : State} {c : CtxRef} {x : Ctx} {h : Phase} (hx : s.findCtx c = some x)
include hx

/-- A commit where a held row differs from its CRC is the abort with STORE_SDC. -/
theorem commitPhase_bad {id : PhaseId} {q : Nat} {t : Task} (hbad : rowBadIn x id = some (q, t)) : commitPhase s c id = storeSdc s c id q t := by
  simp only [commitPhase, hx, hbad]

/-- A context whose phase has committed (R166, R171). -/
def Ctx.committedPhase (x : Ctx) (id : PhaseId) : Ctx :=
  let y := x.mapTasks fun t => if t.phaseId = id then { t with committed := true, stores := [], sums := [], holds := [] } else t
  { y.portsCommit id with seqNo := y.seqNo + 1, run := 0, strands := y.strands.map fun k : Strand => { k with mismatchAt := none, tracer := {} } }

/-- The state in which a phase's stores have reached memory and its transfers have ended (R166, log 110). -/
def State.storesDone (s : State) (x : Ctx) (id : PhaseId) : State :=
  (x.tasksOf id).foldl (fun u e => dropTransfer u x e.2) (s.perform (storesOf (x.tasksOf id)))

theorem commitPhase_good {id : PhaseId} (hgood : rowBadIn x id = none) :
    commitPhase s c id = (mapQueues (s.storesDone x id) (·.commit (x.uid, id))).modRef c (·.committedPhase id) := by
  simp only [commitPhase, hx, hgood]
  rfl

theorem findCtx_commitPhase {id : PhaseId} (hgood : rowBadIn x id = none) :
    (commitPhase s c id).findCtx c = some ((x.mapBound (·.commit (x.uid, id))).committedPhase id) := by
  have hcores : s.SameCores (s.storesDone x id) := (sameCores_perform ..).trans (.foldl (fun u (e : Nat × Task) => sameCores_dropTransfer u x e.2) _ _)
  have hfound : (mapQueues (s.storesDone x id) (·.commit (x.uid, id))).findCtx c = some (x.mapBound (·.commit (x.uid, id))) := by
    rw [findCtx_mapQueues, findCtx_of_cores hcores, hx]
    rfl
  rw [commitPhase_good hx hgood, findCtx_modRef _ hfound]

theorem mem_commitPhase {id : PhaseId} (hgood : rowBadIn x id = none) : (commitPhase s c id).mem = (s.storesDone x id).mem := by
  rw [commitPhase_good hx hgood, mem_modRef]
  rfl

section
variable (hp : x.phase = some h)
include hp

theorem phaseCommit_eq : exec (.phaseCommit c) s =
    match h.committing with
    | none => .next s
    | some (i, reopen) =>
      if (!x.moving || h.hold.isSome || !phaseDrained x h || (reopen && !(exchange h.pairs).all fun p => x.leafHere p.back)
          || storesWait s x (.opened h.num)) = true then .next s
      else if (reopen && (exchange h.pairs).any fun p => x.jointHolds p.back) = true then .next (s.modRef c fun x => refuseSwap x h i)
      else if (rowBadIn x (.opened h.num)).isSome = true then .next (commitPhase s c (.opened h.num))
      else if reopen = true then
        .next ((match (commitPhase s c (.opened h.num)).findCtx c with
          | some y => setUpLeaves (commitPhase s c (.opened h.num)) (refCore c) y (exchange h.pairs)
          | none => commitPhase s c (.opened h.num)).modRef c fun x =>
            finishSwap { x with phase := some { num := x.nextPhase, pairs := exchange h.pairs }, nextPhase := x.nextPhase + 1 } i)
      else .next ((commitPhase s c (.opened h.num)).modRef c fun x => finishSwap { x with phase := none } i) := by
  show execPhaseCommit c s = _
  simp only [execPhaseCommit, hx, hp] <;> rfl

/-- A swap that waits for a task, a hold, the blotter, or for one to be asked, changes nothing. -/
theorem phaseCommit_idle (hidle : h.committing = none ∨ h.hold.isSome = true
      ∨ (∃ e ∈ x.tasks, e.2.phase = some h.num ∧ e.2.committed = false ∧ e.2.st ≠ .done) ∨ storesWait s x (.opened h.num) = true) :
    exec (.phaseCommit c) s = .next s := by
  have hundone : (∃ e ∈ x.tasks, e.2.phase = some h.num ∧ e.2.committed = false ∧ e.2.st ≠ .done) → phaseDrained x h = false := fun ⟨e, he, h1, h2, h3⟩ =>
    Bool.eq_false_iff.mpr fun hd => h3 ((phaseDrained_iff x h).mp hd e he h1 h2)
  rw [phaseCommit_eq hx hp]
  cases hc : h.committing with
  | none => rfl
  | some p =>
    refine if_pos ?_
    rcases hidle with hnone | hheld | htask | hstore
    · exact absurd (hc.symm.trans hnone) nofun
    · simp [hheld]
    · simp [hundone htask]
    · simp [hstore]

section
variable (hrung : x.rung = .running) (hfree : h.hold = none) (hstores : storesWait s x (.opened h.num) = false)
  (hdone : ∀ e ∈ x.tasks, e.2.phase = some h.num → e.2.committed = false → e.2.st = .done)
include hrung hfree hstores hdone

theorem phaseCommit_ready {i : Nat} {reopen : Bool} (hc : h.committing = some (i, reopen))
    (hhere : reopen = true → ∀ p ∈ h.pairs, x.leafHere p.front = true) : exec (.phaseCommit c) s =
      if (reopen && h.pairs.any fun p => x.jointHolds p.front) = true then .next (s.modRef c fun x => refuseSwap x h i)
      else if (rowBadIn x (.opened h.num)).isSome = true then .next (commitPhase s c (.opened h.num))
      else if reopen = true then
        .next ((match (commitPhase s c (.opened h.num)).findCtx c with
          | some y => setUpLeaves (commitPhase s c (.opened h.num)) (refCore c) y (exchange h.pairs)
          | none => commitPhase s c (.opened h.num)).modRef c fun x =>
            finishSwap { x with phase := some { num := x.nextPhase, pairs := exchange h.pairs }, nextPhase := x.nextPhase + 1 } i)
      else .next ((commitPhase s c (.opened h.num)).modRef c fun x => finishSwap { x with phase := none } i) := by
  have hmoving : x.moving = true := by simp [Ctx.moving, hrung]
  have hdrained : phaseDrained x h = true := (phaseDrained_iff x h).mpr hdone
  have hleaves : (reopen && !(exchange h.pairs).all fun p => x.leafHere p.back) = false := by
    cases reopen with
    | false => rfl
    | true =>
      have hall : (exchange h.pairs).all (fun p => x.leafHere p.back) = true := by
        rw [exchange, List.all_map]
        exact List.all_eq_true.mpr (hhere rfl)
      rw [hall]
      rfl
  have hjoint : ((exchange h.pairs).any fun p => x.jointHolds p.back) = h.pairs.any fun p => x.jointHolds p.front := by
    rw [exchange, List.any_map]
    rfl
  rw [phaseCommit_eq hx hp, hc]
  dsimp only
  rw [hmoving, hfree, hdrained, hstores, hleaves, hjoint]
  exact if_neg Bool.false_ne_true

theorem phaseCommit_closes {i : Nat} (hc : h.committing = some (i, false)) (hgood : rowBadIn x (.opened h.num) = none) :
    exec (.phaseCommit c) s = .next ((commitPhase s c (.opened h.num)).modRef c fun y => finishSwap { y with phase := none } i) := by
  rw [phaseCommit_ready hx hp hrung hfree hstores hdone hc nofun, hgood]
  rfl

theorem phaseCommit_bad {i q : Nat} {t : Task} (hc : h.committing = some (i, false)) (hbad : rowBadIn x (.opened h.num) = some (q, t)) :
    exec (.phaseCommit c) s = .next (storeSdc s c (.opened h.num) q t) := by
  rw [phaseCommit_ready hx hp hrung hfree hstores hdone hc nofun, hbad, commitPhase_bad hx hbad]
  rfl

section
variable {i : Nat} (hc : h.committing = some (i, true)) (hhere : ∀ p ∈ h.pairs, x.leafHere p.front = true)
include hc hhere

theorem phaseCommit_refused (hjoint : ∃ p ∈ h.pairs, x.jointHolds p.front = true) :
    exec (.phaseCommit c) s = .next (s.modRef c fun y => refuseSwap y h i) := by
  rw [phaseCommit_ready hx hp hrung hfree hstores hdone hc fun _ => hhere]
  exact if_pos (List.any_eq_true.mpr hjoint)

theorem phaseCommit_swaps (hgood : rowBadIn x (.opened h.num) = none) (hjoint : ∀ p ∈ h.pairs, x.jointHolds p.front = false) {y : Ctx}
    (hy : (commitPhase s c (.opened h.num)).findCtx c = some y) : exec (.phaseCommit c) s =
      .next ((setUpLeaves (commitPhase s c (.opened h.num)) (refCore c) y (exchange h.pairs)).modRef c fun y =>
        finishSwap { y with phase := some { num := y.nextPhase, pairs := exchange h.pairs }, nextPhase := y.nextPhase + 1 } i) := by
  have hfree' : (h.pairs.any fun p => x.jointHolds p.front) = false := List.any_eq_false.mpr fun p hm => ne_true_of_eq_false (hjoint p hm)
  rw [phaseCommit_ready hx hp hrung hfree hstores hdone hc fun _ => hhere, hgood, hfree', hy]
  rfl

end
end

theorem mem_storeSdc (hfree : h.hold = none) (hrun : h.run + 1 < x.limit.toNat) (q : Nat) (t : Task) : (storeSdc s c (.opened h.num) q t).mem = s.mem :=
  mem_abortPhase (s := countSdc s (refCore c) .storeSdc) ((findCtx_modCore ⟨rfl, rfl⟩ c).trans hx) rfl hp hfree hrun

end
end

/-- Settles O42: BSWAP by whether a phase is open and what its pairs name, PHASE_COMMIT by what holds it back, the rows it holds and the leaves it sets up. -/
theorem phaseSwapAndCommit : Obligations.PhaseSwapAndCommit := by
  refine ⟨fun s d v n => ?_, fun s c x h hx hp => ?_⟩
  · intro pairs named range bad
    have hrefused : (!pairsOk s.cx pairs || pairs.any fun p => s.cx.jointHolds p.back) = true ↔ bad := pairs_refused_iff s.cx pairs
    refine ⟨bswapOpen_busy, fun hclosed hbad => bswapOpen_refused hclosed (hbad.imp_right hrefused.mpr), fun hclosed hrange hgood =>
        ⟨bswapOpen_waits hclosed hrange (mt hrefused.mp hgood), bswapOpen_opens hclosed hrange (mt hrefused.mp hgood)⟩,
      fun hclosed => ⟨?_, ?_⟩, fun h hp hnone => ?_⟩
    · show ScalarWrite s (.next (startCommit s d true)) d 5
      rw [startCommit_closed hclosed]
      exact scalarResult_writes s d 5
    · show ScalarWrite s (.next (startCommit s d false)) d 5
      rw [startCommit_closed hclosed]
      exact scalarResult_writes s d 5
    · intro waits
      have hopen := startCommit_open (d := d) hp hnone
      refine ⟨completes_next (congrArg _ (hopen false)) rfl, fun hfree => completes_next (congrArg _ ((hopen true).trans (if_neg ?_))) rfl, fun hjoint => ?_⟩
      · rw [Bool.true_and, List.any_eq_true]
        exact fun ⟨p, hm, hj⟩ => ne_true_of_eq_false (hfree p hm) hj
      · have hexec : exec (.bswap d) s = scalarResult s d 5 := congrArg _ ((hopen true).trans (if_pos (List.any_eq_true.mpr hjoint)))
        rw [hexec]
        exact scalarResult_writes s d 5
  · intro done ps
    refine ⟨phaseCommit_idle hx hp, fun hrung hfree hstores hdone => ⟨fun i q t hc hbad => ?_, fun i => phaseCommit_closes hx hp hrung hfree hstores hdone,
        fun i => phaseCommit_refused hx hp hrung hfree hstores hdone, fun i hc hgood hhere hjoint y =>
          phaseCommit_swaps hx hp hrung hfree hstores hdone hc hhere hgood hjoint⟩,
      fun hgood => ⟨⟨_, findCtx_commitPhase hx hgood, ?_, ?_⟩, mem_commitPhase hx hgood⟩⟩
    · exact ⟨phaseCommit_bad hx hp hrung hfree hstores hdone hc hbad, fun hrun => mem_storeSdc hx hp hfree hrun q t⟩
    · rfl
    · rfl

end Sys2Proof.Machine

namespace Sys2Proof.Machine

/-! ## Delivery of class D events, and the tracer's mismatches (R157-R162, R169) -/

/-! ### The strand an event goes to (R162) -/

section
variable {x : Ctx} {p : PendD}

theorem firstLive_of_lowest {i : Fin 4} (hlive : x.strands[i].live = true) (hlow : ∀ j < i, x.strands[j].live = false) : x.firstLive = some i := by
  have hnth : ∀ k : Fin 4, ([0, 1, 2, 3] : List (Fin 4))[k.val] = k := by decide
  rw [Ctx.firstLive, List.find?_eq_some_iff_getElem]
  refine ⟨hlive, i.val, i.isLt, hnth i, fun j hj => ?_⟩
  rw [hnth ⟨j, hj.trans i.isLt⟩, hlow ⟨j, hj.trans i.isLt⟩ hj]
  rfl

theorem targetOf_live {i : Fin 4} (hlive : x.strands[i].live = true) (h : (Fin.ofNat 4 p.strand : Fin 4) = i
    ∨ (x.strands[(Fin.ofNat 4 p.strand : Fin 4)].live = false ∧ ∀ j < i, x.strands[j].live = false)) : targetOf x p = some i := by
  unfold targetOf
  rcases h with rfl | ⟨hstopped, hlow⟩
  · exact if_pos hlive
  · rw [hstopped, firstLive_of_lowest hlive hlow]
    rfl

theorem targetOf_none (h : ∀ i : Fin 4, x.strands[i].live = false) : targetOf x p = none := by
  unfold targetOf
  rw [h]
  refine (if_neg Bool.false_ne_true).trans (List.find?_eq_none.mpr fun i _ => ?_)
  rw [h i]
  exact Bool.false_ne_true

end

/-! ### A strand's waits withdrawn, and its entry to level 1 (R94, R154, R201) -/

theorem strandIx_val (core slot : Nat) (i : Fin 4) : strandIx { core := core, slot := slot, strand := i.val } = i := Fin.ext (Nat.mod_eq_of_lt i.isLt)

theorem ctx_of_findCtx {s : State} {core slot : Nat} {x : Ctx} (h : s.findCtx (.resident core slot) = some x) : s.ctx core slot = x :=
  SMap.get_of_find _ _ _ _ h

theorem findCtx_modCtx {s : State} {core slot : Nat} {x : Ctx} (h : s.findCtx (.resident core slot) = some x) (f : Ctx → Ctx) :
    (s.modCtx core slot f).findCtx (.resident core slot) = some (f x) := by
  rw [State.modCtx, findCtx_setCtx, ctx_of_findCtx h]

theorem findCtx_modStrandAt {s : State} {core slot : Nat} {x : Ctx} (hx : s.findCtx (.resident core slot) = some x) (i : Fin 4) (f : Strand → Strand) :
    (s.modStrandAt { core := core, slot := slot, strand := i.val } f).findCtx (.resident core slot) = some (x.modStrand i f) := by
  rw [State.modStrandAt, strandIx_val]
  exact findCtx_modCtx hx _

theorem strandAt_of_findCtx {s : State} {core slot : Nat} {x : Ctx} (hx : s.findCtx (.resident core slot) = some x) (i : Fin 4) :
    s.strandAt { core := core, slot := slot, strand := i.val } = x.strands[i] := by
  have hstrand : s.strandAt { core := core, slot := slot, strand := i.val } = x.strands[strandIx { core := core, slot := slot, strand := i.val }] :=
    congrArg (fun y : Ctx => y.strands[strandIx { core := core, slot := slot, strand := i.val }]) (ctx_of_findCtx hx)
  exact hstrand.trans (congrArg (fun j : Fin 4 => x.strands[j]) (strandIx_val core slot i))

/-- A strand whose wait has been withdrawn; SBAR keeps its arrival (R201). -/
def Strand.withdrawn (t : Strand) : Strand :=
  match t.wait with
  | some (.sbar _) => t
  | _ => { t with wait := none }.unwind

theorem Strand.withdrawn_parts (t : Strand) : t.withdrawn.s = t.s ∧ t.withdrawn.a = t.a ∧ t.withdrawn.p = t.p ∧ t.withdrawn.pc = t.pc
    ∧ t.withdrawn.entry = t.entry ∧ t.withdrawn.level = t.level := by
  unfold Strand.withdrawn
  split
  · exact ⟨rfl, rfl, rfl, rfl, rfl, rfl⟩
  · rw [unwind_eq]
    exact ⟨rfl, rfl, rfl, rfl, rfl, rfl⟩

/-- A context with every wait of a strand withdrawn (R201). -/
def Ctx.withdrawn (x : Ctx) (i : Fin 4) : Ctx :=
  { (x.dropCommit i.val).reopenQueue i with
    semq := x.semq.filter (fun w => w.2.1 ≠ i.val)
    popq := x.popq.filter (fun w => w.2 ≠ i.val) }.modStrand i (·.withdrawn)

theorem findCtx_withdrawWaits {s : State} {core slot : Nat} {x : Ctx} (hx : s.findCtx (.resident core slot) = some x) (i : Fin 4) :
    (withdrawWaits s { core := core, slot := slot, strand := i.val }).findCtx (.resident core slot) = some (x.withdrawn i) := by
  have hwithdrawn : withdrawWaits s { core := core, slot := slot, strand := i.val } =
      { s with dies := SMap.mapVals (fun d => { d with waiters := d.waiters.filter fun w => w.who ≠ ({ core := core, slot := slot, strand := i.val } : StrandRef) }) s.dies }.modCtx
        core slot (·.withdrawn (strandIx { core := core, slot := slot, strand := i.val })) := rfl
  rw [hwithdrawn, strandIx_val]
  refine findCtx_modCtx ?_ (·.withdrawn i)
  exact (findCtx_of_cores rfl _).trans hx

theorem reopenQueue_parts (x : Ctx) (i : Fin 4) : (x.reopenQueue i).pendD = x.pendD ∧ (x.reopenQueue i).phase = x.phase ∧ (x.reopenQueue i).strands = x.strands := by
  unfold Ctx.reopenQueue
  split
  · split
    · split <;> exact ⟨rfl, rfl, rfl⟩
    · exact ⟨rfl, rfl, rfl⟩
  · exact ⟨rfl, rfl, rfl⟩

/-- Taking back a swap that waits changes no more of the open phase. -/
theorem dropCommit_parts (x : Ctx) (n : Nat) : (x.dropCommit n).pendD = x.pendD ∧ (x.dropCommit n).strands = x.strands
    ∧ ∀ h, x.phase = some h → ∃ w, (x.dropCommit n).phase = some { h with committing := w } := by
  unfold Ctx.dropCommit
  split
  next h hp =>
    split
    · exact ⟨rfl, rfl, fun g hg => ⟨none, by cases hp.symm.trans hg; rfl⟩⟩
    · exact ⟨rfl, rfl, fun g hg => ⟨g.committing, hg⟩⟩
  next hp => exact ⟨rfl, rfl, fun g hg => nomatch hp.symm.trans hg⟩

theorem withdrawn_parts (x : Ctx) (i : Fin 4) : (x.withdrawn i).pendD = x.pendD ∧ (x.withdrawn i).strands[i] = x.strands[i].withdrawn
    ∧ ∀ h, x.phase = some h → ∃ w, (x.withdrawn i).phase = some { h with committing := w } := by
  obtain ⟨hpend, hstrands, hphase⟩ := dropCommit_parts x i.val
  obtain ⟨hpend', hphase', hstrands'⟩ := reopenQueue_parts (x.dropCommit i.val) i
  refine ⟨hpend'.trans hpend, ?_, fun h hp => (hphase h hp).imp fun _ hw => hphase'.trans hw⟩
  refine (strands_modStrand _ i _).trans (congrArg Strand.withdrawn ?_)
  show ((x.dropCommit i.val).reopenQueue i).strands[i] = _
  rw [hstrands', hstrands]

theorem enter_from_zero {t : Strand} (h : t.level = 0) (b : Bank) : (t.enter b).level = 1 ∧ (t.enter b).pc = t.entry &&& ~~~0xF ∧ (t.enter b).bank1 = b
    ∧ (t.enter b).s = t.s ∧ (t.enter b).a = t.a ∧ (t.enter b).p = t.p := by
  rw [Strand.enter, if_pos h, unwind_eq, cancelAhead_eq]
  exact ⟨rfl, rfl, rfl, rfl, rfl, rfl⟩

/-! ### CLASS_D_DELIVERY (R159, R162) -/

/-- The phase of a delivered event, where it waited for the delivery, is held for the TRET of the strand. -/
def Ctx.holdGiven (x : Ctx) (p : PendD) (i : Fin 4) : Ctx := if x.holdOf p.phase = some .pending then x.setHold p.phase (some (.strand i.val)) else x

/-- A context to a strand of which an event has been delivered: the strand enters level 1 with a return to its own pc. -/
def Ctx.delivered (x : Ctx) (p : PendD) (i : Fin 4) : Ctx :=
  (({ x with pendD := x.pendD.erase p }.withdrawn i).modStrand i fun t =>
    t.enter { cause := p.cause, ret := t.pc, addr := p.addr, force := false, out := false }).holdGiven p i

theorem holdGiven_parts (x : Ctx) (p : PendD) (i : Fin 4) : (x.holdGiven p i).pendD = x.pendD ∧ (x.holdGiven p i).strands = x.strands := by
  unfold Ctx.holdGiven
  split
  · exact ⟨by cases p.phase <;> rfl, strands_setHold ..⟩
  · exact ⟨rfl, rfl⟩

theorem delivered_pendD (x : Ctx) (p : PendD) (i : Fin 4) : (x.delivered p i).pendD = x.pendD.erase p :=
  (holdGiven_parts _ p i).1.trans (withdrawn_parts { x with pendD := x.pendD.erase p } i).1

theorem delivered_phase {x : Ctx} {p : PendD} {h : Phase} (i : Fin 4) (hp : x.phase = some h) (hid : p.phase = .opened h.num) (hhold : h.hold = some .pending) :
    ∃ g, (x.delivered p i).phase = some g ∧ g.num = h.num ∧ g.hold = some (.strand i.val) := by
  obtain ⟨w, hw⟩ := (withdrawn_parts { x with pendD := x.pendD.erase p } i).2.2 h hp
  unfold Ctx.delivered Ctx.holdGiven
  generalize hmade : Ctx.modStrand _ i _ = y
  have hy : y.phase = some { h with committing := w } := hmade ▸ hw
  have hpending : y.holdOf p.phase = some .pending := by
    rw [hid, Ctx.holdOf, hy]
    exact (if_pos rfl).trans hhold
  rw [if_pos hpending, hid]
  exact ⟨_, phase_setHold hy _, rfl, rfl⟩

theorem delivered_strand {x : Ctx} (p : PendD) {i : Fin 4} (hlevel : x.strands[i].level = 0) : (x.delivered p i).strands[i].level = 1
    ∧ (x.delivered p i).strands[i].pc = x.strands[i].entry &&& ~~~0xF
    ∧ (x.delivered p i).strands[i].bank1 = { cause := p.cause, ret := x.strands[i].pc, addr := p.addr, force := false, out := false }
    ∧ (x.delivered p i).strands[i].s = x.strands[i].s ∧ (x.delivered p i).strands[i].a = x.strands[i].a ∧ (x.delivered p i).strands[i].p = x.strands[i].p := by
  obtain ⟨-, hstrand, -⟩ := withdrawn_parts { x with pendD := x.pendD.erase p } i
  obtain ⟨hs, ha, hp, hpc, hentry, hsame⟩ := x.strands[i].withdrawn_parts
  have hentered : (x.delivered p i).strands[i] = x.strands[i].withdrawn.enter { cause := p.cause, ret := x.strands[i].pc, addr := p.addr, force := false, out := false } := by
    refine (congrArg (fun v : Vector Strand 4 => v[i]) (holdGiven_parts _ p i).2).trans ((strands_modStrand _ i _).trans ?_)
    refine (congrArg (fun t : Strand => t.enter { cause := p.cause, ret := t.pc, addr := p.addr, force := false, out := false }) hstrand).trans ?_
    simp only [hpc]
  obtain ⟨h1, h2, h3, h4, h5, h6⟩ := enter_from_zero (hsame.trans hlevel) { cause := p.cause, ret := x.strands[i].pc, addr := p.addr, force := false, out := false }
  rw [hentered]
  exact ⟨h1, h2.trans (by rw [hentry]), h3, h4.trans hs, h5.trans ha, h6.trans hp⟩

section
variable {s : State} {core slot : Nat} {x : Ctx} {p : PendD} {rest : List PendD} (hx : s.findCtx (.resident core slot) = some x)
  (hrung : x.rung = .running) (hpend : x.pendD = p :: rest)
include hx hrung hpend

theorem classDDelivery_enters {i : Fin 4} (htarget : targetOf x p = some i) (hlevel : x.strands[i].level = 0) (hahead : x.strands[i].ahead = []) :
    ∃ t, exec (.classDDelivery (.resident core slot)) s = .next t ∧ t.findCtx (.resident core slot) = some (x.delivered p i) ∧ t.mem = s.mem := by
  have hmoving : x.moving = true := by simp [Ctx.moving, hrung]
  have hopen : x.strands[i.val].level = 0 ∧ x.strands[i.val].ahead = [] := ⟨hlevel, hahead⟩
  have hfirst : deliverable x = some p := by
    rw [deliverable, hpend]
    exact List.find?_cons_of_pos (by simp [htarget, hopen])
  have hdropped := findCtx_modRef (fun y => { y with pendD := y.pendD.erase p }) hx
  have hentered := findCtx_modStrandAt (findCtx_withdrawWaits hdropped i) i fun t =>
    t.enter { cause := p.cause, ret := t.pc, addr := p.addr, force := false, out := false }
  refine ⟨_, ?_, findCtx_modRef (·.holdGiven p i) hentered, ?_⟩
  · show execClassDDelivery _ s = _
    simp only [execClassDDelivery, hx, hmoving, if_true, hfirst, htarget]
    rfl
  · exact (mem_modRef ..).trans (mem_modRef ..)

theorem classDDelivery_pending {i : Fin 4} (htarget : targetOf x p = some i) (hlevel : x.strands[i].level ≠ 0) (hlast : rest = []) :
    exec (.classDDelivery (.resident core slot)) s = .next s := by
  have hmoving : x.moving = true := by simp [Ctx.moving, hrung]
  have habove : x.strands[i.val].level ≠ 0 := hlevel
  have hnone : deliverable x = none := by
    rw [deliverable, hpend, hlast]
    exact List.find?_cons_of_neg (by simp [htarget, habove])
  show execClassDDelivery _ s = _
  simp only [execClassDDelivery, hx, hmoving, if_true, hnone]

theorem classDDelivery_orphan (hdead : ∀ i : Fin 4, x.strands[i].live = false) : exec (.classDDelivery (.resident core slot)) s =
    .next (killCtx (s.putCtx (.resident core slot) { x with pendD := rest }) (.resident core slot) 0x33 (p.cause.toNat % 256)
      (x.strands[(Fin.ofNat 4 p.strand : Fin 4)]).pc p.addr (some (Fin.ofNat 4 p.strand))) := by
  have hmoving : x.moving = true := by simp [Ctx.moving, hrung]
  have htarget : targetOf x p = none := targetOf_none hdead
  have hfirst : deliverable x = some p := by
    rw [deliverable, hpend]
    exact List.find?_cons_of_pos (by simp [htarget])
  have hrest : x.pendD.erase p = rest := by rw [hpend, List.erase_cons_head]
  show execClassDDelivery _ s = _
  simp only [execClassDDelivery, hx, hmoving, if_true, hfirst, htarget, orphanKill, modRef_of_find _ hx, hrest, fld_lower]
  rfl

end

/-! ### TRACE_MISMATCH (R99, R157) -/

/-- A mismatch is noted: it counts, and the strand's tracer is loaded anew. -/
def State.mismatchNoted (s : State) (r : StrandRef) : State :=
  (s.modCore r.core fun k => { k with rasSdcTrace := satInc k.rasSdcTrace }).modStrandAt r fun t => { t with tracer := {} }

section
variable {s : State} {r : StrandRef} {x : Ctx} (hx : s.findCtx (strandCtx r) = some x)
include hx

theorem ctx_mismatchNoted : (s.mismatchNoted r).ctx r.core r.slot = x.modStrand (strandIx r) fun t => { t with tracer := {} } := by
  have hcounted : (s.modCore r.core fun k => { k with rasSdcTrace := satInc k.rasSdcTrace }).findCtx (.resident r.core r.slot) = some x :=
    (findCtx_modCore ⟨rfl, rfl⟩ _).trans hx
  exact ctx_of_findCtx (findCtx_modCtx hcounted _)

theorem strandAt_mismatchNoted : (s.mismatchNoted r).strandAt r = { x.strands[strandIx r] with tracer := {} } := by
  unfold State.strandAt
  rw [ctx_mismatchNoted hx]
  exact strands_modStrand x (strandIx r) _

/-- The second mismatch at the same pc traps; the first one aborts the open phase and marks the pc. -/
theorem traceMismatch_eq (i : Instr) (on : Bool) : traceMismatch s r i on =
    if x.strands[strandIx r].mismatchAt = some x.strands[strandIx r].pc then
      (withdrawWaits (s.mismatchNoted r) r).trapAt r 0x21 0 x.strands[strandIx r].pc 0 true on
    else (match x.phase with
      | some h => abortPhase (s.mismatchNoted r) (strandCtx r) (.opened h.num)
          { code := 0x21, engine := commandEngine i, stage := 0, addr := 0, strand := (strandIx r).val, classD := false, hold := none, halt := false }
      | none => s.mismatchNoted r).modStrandAt r fun k => { k with mismatchAt := some x.strands[strandIx r].pc } := by
  have hbody : traceMismatch s r i on =
      if ((s.mismatchNoted r).strandAt r).mismatchAt = some ((s.mismatchNoted r).strandAt r).pc then
        (withdrawWaits (s.mismatchNoted r) r).trapAt r 0x21 0 ((s.mismatchNoted r).strandAt r).pc 0 true on
      else (match ((s.mismatchNoted r).ctx r.core r.slot).phase with
        | some h => abortPhase (s.mismatchNoted r) (strandCtx r) (.opened h.num)
            { code := 0x21, engine := commandEngine i, stage := 0, addr := 0, strand := (strandIx r).val, classD := false, hold := none, halt := false }
        | none => s.mismatchNoted r).modStrandAt r fun k => { k with mismatchAt := some ((s.mismatchNoted r).strandAt r).pc } := rfl
  rw [hbody, strandAt_mismatchNoted hx, ctx_mismatchNoted hx]
  rfl

theorem exec_traceMismatch {u v : State} {sc : Sched} {i : Instr} {on : Bool} (hrung : x.rung = .running) (hready : readyStrand s r = true)
    (hgo : prepare s r = .go u v sc i on) (hupper : upperHalf i = true) : exec (.traceMismatch r) s = .next (traceMismatch s r i on) := by
  have hmoving : x.moving = true := by simp [Ctx.moving, hrung]
  show execTraceMismatch r s = _
  simp only [execTraceMismatch, hx, hready, hmoving, hgo, hupper]
  rfl

end

/-- Settles O44: a class D event enters its strand, waits above level 0 or ends the context, and a mismatch aborts once and traps the second time. -/
theorem eventDelivery : Obligations.EventDelivery := by
  unfold Obligations.EventDelivery
  refine ⟨fun s core slot x p rest hx hrung hpend => ⟨fun i hdest hlevel hahead => ?_, fun i hdest hlevel hlast => ?_, fun hdead => ?_⟩,
    fun s r x u v sc i on hx hrung hready hgo hupper => ⟨fun hsecond => ?_, fun hfirst hp => ?_, fun h hfirst hp => ?_⟩⟩
  · obtain ⟨t, hexec, hctx, hmem⟩ := classDDelivery_enters hx hrung hpend (targetOf_live hdest.1 hdest.2) hlevel hahead
    have hrest : (x.delivered p i).pendD = rest := by rw [delivered_pendD, hpend, List.erase_cons_head]
    obtain ⟨hlev, hpc, hbank, hs, ha, hpred⟩ := delivered_strand p hlevel
    refine ⟨t, hexec, ⟨_, hctx, hrest, fun h hp hid hhold => delivered_phase i hp hid hhold⟩, ?_⟩
    rw [strandAt_of_findCtx hctx i]
    exact ⟨hlev, hpc, hbank, hs, ha, hpred, rawByte_of_mem hmem⟩
  · exact classDDelivery_pending hx hrung hpend (targetOf_live hdest.1 hdest.2) hlevel hlast
  · exact classDDelivery_orphan hx hrung hpend hdead
  · rw [exec_traceMismatch hx hrung hready hgo hupper, traceMismatch_eq hx, if_pos hsecond]
    rfl
  · rw [exec_traceMismatch hx hrung hready hgo hupper, traceMismatch_eq hx, if_neg hfirst, hp]
    rfl
  · rw [exec_traceMismatch hx hrung hready hgo hupper, traceMismatch_eq hx, if_neg hfirst, hp]
    rfl

end Sys2Proof.Machine

namespace Sys2Proof.Machine

/-! ## Semaphores (R202-R204) -/

/-! ### Serving a queue (R203) -/

theorem correctSem_eq (x : Ctx) (k : Nat) : x.correctSem k = { x with flips := (x.correctSem k).flips, fixed := (x.correctSem k).fixed } := by
  unfold Ctx.correctSem
  split <;> rfl

theorem getSem_correctSem (x : Ctx) (k j : Nat) : (x.correctSem k).getSem j = x.getSem j := by rw [correctSem_eq]; rfl

/-- Serving the waiters `ws` on a semaphore from a count `c` makes `y` of a context `x` and leaves the waiters `rest`: what the served took is what the counter
lost, only the oldest waiters on that semaphore go, the one left at the head does not fit, and no other counter changes. -/
structure Serves (sem : Nat) (ws : List (Nat × Nat × Nat)) (c : Nat) (x y : Ctx) (rest : List (Nat × Nat × Nat)) : Prop where
  count : (y.getSem sem).toNat + ((ws.filter fun w => w.1 == sem).map fun w => w.2.2).sum = c + ((rest.filter fun w => w.1 == sem).map fun w => w.2.2).sum
  order : ∃ served, ws.filter (fun w => w.1 == sem) = served ++ rest.filter (fun w => w.1 == sem)
  others : rest.filter (fun w => w.1 != sem) = ws.filter (fun w => w.1 != sem)
  head : ∀ w, rest.find? (fun w => w.1 == sem) = some w → (y.getSem sem).toNat < w.2.2
  frame : ∀ k, k ≠ sem → y.getSem k = x.getSem k

/-- A waiter whose count fits: the counter loses it and the strand goes on. -/
def Ctx.takeSem (x : Ctx) (sem : Nat) (w : Nat × Nat × Nat) : Ctx :=
  ((x.correctSem sem).setSem sem (BitVec.ofNat 32 ((x.getSem sem).toNat - w.2.2))).modStrand (Fin.ofNat 4 w.2.1) (·.finishWait)

theorem getSem_takeSem (x : Ctx) (sem k : Nat) (w : Nat × Nat × Nat) :
    (x.takeSem sem w).getSem k = if k = sem then BitVec.ofNat 32 ((x.getSem sem).toNat - w.2.2) else x.getSem k :=
  (getSem_setSem _ sem k _).trans (by rw [getSem_correctSem])

section
variable (sem : Nat) (x : Ctx) (w : Nat × Nat × Nat) (ws : List (Nat × Nat × Nat))

theorem serveList_fits (hw : w.1 = sem) (hfit : w.2.2 ≤ (x.getSem sem).toNat) : serveList sem (w :: ws) x = serveList sem ws (x.takeSem sem w) := by
  rw [serveList, if_pos hw, if_pos hfit]; rfl

theorem serveList_stops (hw : w.1 = sem) (hfit : (x.getSem sem).toNat < w.2.2) : serveList sem (w :: ws) x = (x, w :: ws) := by
  rw [serveList, if_pos hw, if_neg (by omega)]

theorem serveList_other (hw : w.1 ≠ sem) : serveList sem (w :: ws) x = ((serveList sem ws x).1, w :: (serveList sem ws x).2) := by
  rw [serveList, if_neg hw]

end

theorem serves_serveList (sem : Nat) (ws : List (Nat × Nat × Nat)) (x : Ctx) :
    Serves sem ws (x.getSem sem).toNat x (serveList sem ws x).1 (serveList sem ws x).2 := by
  induction ws generalizing x with
  | nil => exact ⟨rfl, ⟨[], rfl⟩, rfl, by simp [serveList], fun _ _ => rfl⟩
  | cons w ws ih =>
    by_cases hw : w.1 = sem
    · by_cases hfit : w.2.2 ≤ (x.getSem sem).toNat
      · rw [serveList_fits sem x w ws hw hfit]
        obtain ⟨hcount, ⟨served, horder⟩, hothers, hhead, hframe⟩ := ih (x.takeSem sem w)
        have hleft : ((x.takeSem sem w).getSem sem).toNat = (x.getSem sem).toNat - w.2.2 := by
          rw [getSem_takeSem, if_pos rfl, BitVec.toNat_ofNat, Nat.mod_eq_of_lt (by omega)]
        rw [hleft] at hcount
        refine ⟨?_, ⟨w :: served, ?_⟩, ?_, hhead, fun k hk => ?_⟩
        · simp only [List.filter_cons, hw, beq_self_eq_true, if_true, List.map_cons, List.sum_cons]
          omega
        · simp [hw, horder]
        · simp [hw, hothers]
        · rw [hframe k hk, getSem_takeSem, if_neg hk]
      · have hlt : (x.getSem sem).toNat < w.2.2 := by omega
        rw [serveList_stops sem x w ws hw hlt]
        refine ⟨rfl, ⟨[], rfl⟩, rfl, fun v hv => ?_, fun _ _ => rfl⟩
        rw [List.find?_cons_of_pos (by simpa using hw), Option.some.injEq] at hv
        rwa [← hv]
    · rw [serveList_other sem x w ws hw]
      obtain ⟨hcount, ⟨served, horder⟩, hothers, hhead, hframe⟩ := ih x
      refine ⟨?_, ⟨served, ?_⟩, ?_, fun v hv => hhead v ?_, hframe⟩
      · simpa [hw] using hcount
      · simpa [hw] using horder
      · simpa [hw] using hothers
      · rwa [List.find?_cons_of_neg (by simpa using hw)] at hv

/-- A queue whose oldest waiter does not fit, or that has none, is left as it is. -/
theorem serveList_stays {sem : Nat} {ws : List (Nat × Nat × Nat)} {x : Ctx}
    (h : ∀ w, ws.find? (fun w => w.1 == sem) = some w → (x.getSem sem).toNat < w.2.2) : serveList sem ws x = (x, ws) := by
  induction ws with
  | nil => rfl
  | cons w ws ih =>
    by_cases hw : w.1 = sem
    · exact serveList_stops sem x w ws hw (h w (List.find?_cons_of_pos (by simpa using hw)))
    · rw [serveList_other sem x w ws hw, ih fun v hv => h v (by rwa [List.find?_cons_of_neg (by simpa using hw)])]

/-- Where nobody waits, one waiter that fits is served and the others stay. -/
theorem serveList_alone {sem : Nat} {ws : List (Nat × Nat × Nat)} {x : Ctx} {w : Nat × Nat × Nat} (hidle : ∀ v ∈ ws, v.1 ≠ sem) (hw : w.1 = sem)
    (hfit : w.2.2 ≤ (x.getSem sem).toNat) : serveList sem (ws ++ [w]) x = (x.takeSem sem w, ws) := by
  induction ws with
  | nil => exact serveList_fits sem x w [] hw hfit
  | cons v ws ih =>
    obtain ⟨hv, hidle⟩ := List.forall_mem_cons.mp hidle
    rw [List.cons_append, serveList_other sem x v _ hv, ih hidle]

theorem find_idle {sem : Nat} {ws : List (Nat × Nat × Nat)} (hidle : ∀ w ∈ ws, w.1 ≠ sem) : ws.find? (fun w => w.1 == sem) = none := by simpa using hidle

theorem semBusy_iff (x : Ctx) (sem : Nat) : x.semBusy sem = true ↔ ¬∀ w ∈ x.semq, w.1 ≠ sem := by simp [Ctx.semBusy]

/-! ### Events of a counter (R148) -/

theorem event_not_waiting {t : Strand} (h : t.wait = none) (bit : Nat) : t.event bit = { t with latch := true, reasons := t.reasons ||| (1#4 <<< bit) } := by
  unfold Strand.event
  rw [h]

theorem p_event (t : Strand) (bit : Nat) : (t.event bit).p = t.p := by
  unfold Strand.event
  dsimp only
  split
  · rw [finishWait_eq, retire_eq]
    unfold Strand.setS
    split <;> rfl
  · rfl

theorem strands_eventAll (x : Ctx) (bit : Nat) (i : Fin 4) : (x.eventAll bit).strands[i.val] = x.strands[i.val].event bit := by simp [Ctx.eventAll]

/-! ### A counter is written (R203) -/

theorem serveSem_stays {sem : Nat} {x : Ctx} (h : ∀ w, x.semq.find? (fun w => w.1 == sem) = some w → (x.getSem sem).toNat < w.2.2) : x.serveSem sem = x := by
  rw [Ctx.serveSem, serveList_stays h]

/-- A counter with its new value, before its queue is served. -/
def Ctx.withSem (x : Ctx) (sem : Nat) (v : BitVec 32) : Ctx := { x.correctSem sem with quiet := x.quiet.filter (·.1 ≠ sem) }.setSem sem v

theorem getSem_withSem (x : Ctx) (sem k : Nat) (v : BitVec 32) : (x.withSem sem v).getSem k = if k = sem then v else x.getSem k := by
  rw [Ctx.withSem, getSem_setSem]
  exact congrArg (fun u => if k = sem then v else u) (getSem_correctSem x sem k)

theorem semq_withSem (x : Ctx) (sem : Nat) (v : BitVec 32) : (x.withSem sem v).semq = x.semq := by rw [Ctx.withSem, correctSem_eq]; rfl
theorem strands_withSem (x : Ctx) (sem : Nat) (v : BitVec 32) : (x.withSem sem v).strands = x.strands := by rw [Ctx.withSem, correctSem_eq]; rfl

/-- A write serves the queue, and a change is an event for every strand. -/
theorem writeSem_eq (x : Ctx) (sem : Nat) (v : BitVec 32) :
    x.writeSem sem v = ((x.withSem sem v).serveSem sem).eventAll 1 ∨ x.writeSem sem v = (x.withSem sem v).serveSem sem := by
  unfold Ctx.writeSem
  dsimp only
  split
  · exact .inl rfl
  · exact .inr rfl

theorem serves_writeSem (x : Ctx) (sem : Nat) (v : BitVec 32) : Serves sem x.semq v.toNat x (x.writeSem sem v) (x.writeSem sem v).semq := by
  obtain ⟨hcount, horder, hothers, hhead, hframe⟩ := serves_serveList sem x.semq (x.withSem sem v)
  rw [getSem_withSem, if_pos rfl] at hcount
  have hserved : Serves sem x.semq v.toNat x ((x.withSem sem v).serveSem sem) ((x.withSem sem v).serveSem sem).semq := by
    rw [Ctx.serveSem, semq_withSem]
    exact ⟨hcount, horder, hothers, hhead, fun k hk => (hframe k hk).trans (by rw [getSem_withSem, if_neg hk])⟩
  rcases writeSem_eq x sem v with h | h <;> rw [h]
  · obtain ⟨hcount, horder, hothers, hhead, hframe⟩ := hserved
    exact ⟨hcount, horder, hothers, hhead, hframe⟩
  · exact hserved

/-- A write where nobody waits sets the counter, and of a strand it changes no predicate. -/
theorem writeSem_idle {x : Ctx} {sem : Nat} (hidle : ∀ w ∈ x.semq, w.1 ≠ sem) (v : BitVec 32) :
    (x.writeSem sem v).getSem sem = v ∧ (x.writeSem sem v).semq = x.semq ∧ ∀ i : Fin 4, (x.writeSem sem v).strands[i.val].p = x.strands[i.val].p := by
  have hserved : (x.withSem sem v).serveSem sem = x.withSem sem v := serveSem_stays fun w hw => by
    rw [semq_withSem, find_idle hidle] at hw
    cases hw
  have hsem : (x.withSem sem v).getSem sem = v := by rw [getSem_withSem, if_pos rfl]
  rcases writeSem_eq x sem v with h | h <;> rw [h, hserved]
  · refine ⟨hsem, semq_withSem x sem v, fun i => ?_⟩
    rw [strands_eventAll, p_event, strands_withSem]
  · exact ⟨hsem, semq_withSem x sem v, fun i => by rw [strands_withSem]⟩

/-! ### SEMWAIT joins a queue (R202, R203) -/

/-- A strand at the end of a semaphore's queue, waiting. -/
def Ctx.joinSem (x : Ctx) (sem : Nat) (i : Fin 4) (n : Nat) : Ctx :=
  { x with semq := x.semq ++ [(sem, i.val, n)] }.modStrand i fun t => { t with wait := some (.sem sem n) }

theorem queueSem_eq (x : Ctx) (sem : Nat) (i : Fin 4) (n : Nat) : x.queueSem sem i n =
    let z := if x.hushed sem && x.semBusy sem then x.joinSem sem i n else (x.joinSem sem i n).serveSem sem
    if z.getSem sem ≠ x.getSem sem then z.eventAll 1 else z := rfl

/-- The strand waits where the oldest waiter, itself where there is no other, does not fit. -/
theorem queueSem_waits {x : Ctx} {sem n : Nat} (i : Fin 4)
    (h : match x.semq.find? fun w => w.1 == sem with | some w => (x.getSem sem).toNat < w.2.2 | none => (x.getSem sem).toNat < n) :
    x.queueSem sem i n = x.joinSem sem i n := by
  have hserved : (x.joinSem sem i n).serveSem sem = x.joinSem sem i n := by
    refine serveSem_stays fun w hw => ?_
    have hw : (x.semq ++ [(sem, i.val, n)]).find? (fun w => w.1 == sem) = some w := hw
    show (x.getSem sem).toNat < w.2.2
    rw [List.find?_append] at hw
    cases hfirst : x.semq.find? fun w => w.1 == sem with
    | none =>
      rw [hfirst] at h hw
      simp only [Option.none_or, List.find?_singleton, beq_self_eq_true, if_true, Option.some.injEq] at hw
      rw [← hw]
      exact h
    | some v =>
      rw [hfirst] at h hw
      rw [← Option.some.inj hw]
      exact h
  rw [queueSem_eq, hserved, ite_self]
  exact if_neg fun hne => hne rfl

/-- The strand takes its count where nobody waits and it fits. -/
theorem queueSem_takes {x : Ctx} {sem n : Nat} (i : Fin 4) (hn : n ≠ 0) (hidle : ∀ w ∈ x.semq, w.1 ≠ sem) (hfit : n ≤ (x.getSem sem).toNat) :
    ((x.queueSem sem i n).getSem sem).toNat = (x.getSem sem).toNat - n ∧ (x.queueSem sem i n).semq = x.semq
      ∧ (x.queueSem sem i n).strands[i.val] = x.strands[i.val].finishWait.event 1 := by
  obtain ⟨z, hz⟩ : ∃ z, z = { (x.joinSem sem i n).takeSem sem (sem, i.val, n) with semq := x.semq } := ⟨_, rfl⟩
  have hserved : (x.joinSem sem i n).serveSem sem = z := by
    have hlist : serveList sem (x.joinSem sem i n).semq (x.joinSem sem i n) = ((x.joinSem sem i n).takeSem sem (sem, i.val, n), x.semq) :=
      serveList_alone hidle rfl hfit
    rw [Ctx.serveSem, hlist, hz]
  have hsem : (z.getSem sem).toNat = (x.getSem sem).toNat - n := by
    have htaken : z.getSem sem = BitVec.ofNat 32 ((x.getSem sem).toNat - n) := by
      rw [hz]
      exact (getSem_takeSem _ sem sem _).trans (if_pos rfl)
    rw [htaken, BitVec.toNat_ofNat, Nat.mod_eq_of_lt (by omega)]
  have hstrand : z.strands[i.val] = x.strands[i.val].finishWait := by
    rw [hz]
    have hi : Fin.ofNat 4 i.val = i := Fin.ext (Nat.mod_eq_of_lt i.isLt)
    show ((x.joinSem sem i n).takeSem sem (sem, i.val, n)).strands[i.val] = _
    rw [Ctx.takeSem, hi, strands_modStrand, correctSem_eq]
    show ((x.joinSem sem i n).strands[i.val]).finishWait = _
    rw [Ctx.joinSem, strands_modStrand]
    rfl
  have hquiet : x.semBusy sem = false := by rw [← Bool.not_eq_true, semBusy_iff]; exact fun h => h hidle
  have hchanged : z.getSem sem ≠ x.getSem sem := fun h => by rw [h] at hsem; omega
  have hqueue : x.queueSem sem i n = z.eventAll 1 := by
    rw [queueSem_eq, hserved, hquiet, Bool.and_false]
    exact if_pos hchanged
  rw [hqueue]
  exact ⟨hsem, by rw [hz]; rfl, by rw [strands_eventAll, hstrand]⟩

/-! ### The instructions (R202) -/

theorem satCount_eq (n : Nat) : satCount n = BitVec.ofNat 32 (min n (2 ^ 32 - 1)) := by
  unfold satCount
  split
  next h => rw [Nat.min_eq_left (by omega)]
  next h => rw [Nat.min_eq_right (by omega)]; rfl

section
variable {s : State} {sem : BitVec 8} {k : SemCount}

theorem semwait_eq (h : s.semCount k ≠ 0) : exec (.semwait sem k) s = .next (s.modCx fun x => x.queueSem sem.toNat (strandIx s.focus) (s.semCount k)) := if_neg h

theorem semtry_eq (p : PReg) : exec (.semtry p sem k) s =
    if !s.cx.semBusy sem.toNat && s.semCount k ≤ (s.cx.getSem sem.toNat).toNat then
      .next ((s.modCx (·.writeSem sem.toNat (s.cx.getSem sem.toNat - BitVec.ofNat 32 (s.semCount k)))).modSt fun t => (t.setP p true).retire 1)
    else predResult s p false := rfl

theorem semtry_takes {p : PReg} (hidle : ∀ w ∈ s.cx.semq, w.1 ≠ sem.toNat) (hfit : s.semCount k ≤ (s.cx.getSem sem.toNat).toNat) :
    ∃ t, exec (.semtry p sem k) s = .next t ∧ (∀ j, t.rawByte j = s.rawByte j) ∧ (t.cx.getSem sem.toNat).toNat = (s.cx.getSem sem.toNat).toNat - s.semCount k
      ∧ t.cx.semq = s.cx.semq ∧ t.getP p = true ∧ ∀ q, q ≠ p → t.getP q = s.getP q := by
  obtain ⟨v, hv⟩ : ∃ v, v = s.cx.getSem sem.toNat - BitVec.ofNat 32 (s.semCount k) := ⟨_, rfl⟩
  obtain ⟨u, hu⟩ : ∃ u, u = s.modCx (·.writeSem sem.toNat v) := ⟨_, rfl⟩
  have hcx : u.cx = s.cx.writeSem sem.toNat v := by rw [hu, cx_modCx]
  obtain ⟨hsem, hsemq, hp⟩ := writeSem_idle hidle v
  have hfree : s.cx.semBusy sem.toNat = false := by rw [← Bool.not_eq_true, semBusy_iff]; exact fun h => h hidle
  have hexec : exec (.semtry p sem k) s = .next (u.modSt fun t => (t.setP p true).retire 1) := by
    rw [semtry_eq, hu, hv]
    exact if_pos (by simp [hfree, hfit])
  have hwrites : WritesP u.st (u.modSt fun t => (t.setP p true).retire 1).st p true := writesP_set _ _ _ _ (by rw [st_modSt, retire_setP])
  have hkept : ∀ q, u.getP q = s.getP q := fun q => by
    have hstrand : u.st.p = s.st.p := by rw [hu, st_modCx]; exact hp (strandIx s.focus)
    simp only [State.getP, Strand.getP, hstrand]
  refine ⟨_, hexec, fun j => by rw [hu]; rfl, ?_, ?_, hwrites.1.trans (ite_self true), fun q hq => (hwrites.2 q hq).trans (hkept q)⟩
  · rw [cx_modSt]
    show (u.cx.getSem sem.toNat).toNat = _
    have hlt := (s.cx.getSem sem.toNat).isLt
    have hk : (BitVec.ofNat 32 (s.semCount k)).toNat = s.semCount k := by rw [BitVec.toNat_ofNat, Nat.mod_eq_of_lt (by omega)]
    rw [hcx, hsem, hv, BitVec.toNat_sub_of_le (by rw [BitVec.le_def, hk]; exact hfit), hk]
  · rw [cx_modSt]
    exact (congrArg Ctx.semq hcx).trans hsemq

theorem semwait_takes (hn : s.semCount k ≠ 0) (hidle : ∀ w ∈ s.cx.semq, w.1 ≠ sem.toNat) (hfit : s.semCount k ≤ (s.cx.getSem sem.toNat).toNat) :
    ∃ t, exec (.semwait sem k) s = .next t ∧ (∀ j, t.rawByte j = s.rawByte j) ∧ (t.cx.getSem sem.toNat).toNat = (s.cx.getSem sem.toNat).toNat - s.semCount k
      ∧ t.cx.semq = s.cx.semq ∧ t.st.wait = none ∧ t.st.pc = (s.st.retire 1).pc ∧ t.st.s = s.st.s := by
  obtain ⟨hsem, hsemq, hstrand⟩ := queueSem_takes (strandIx s.focus) hn hidle hfit
  obtain ⟨t, ht⟩ : ∃ t, t = s.modCx fun x => x.queueSem sem.toNat (strandIx s.focus) (s.semCount k) := ⟨_, rfl⟩
  have hcx : t.cx = s.cx.queueSem sem.toNat (strandIx s.focus) (s.semCount k) := by rw [ht, cx_modCx]
  have hst : t.st = s.st.finishWait.event 1 := by rw [ht, st_modCx]; exact hstrand
  have hfinished : s.st.finishWait.wait = none := by rw [finishWait_eq]
  rw [event_not_waiting hfinished, finishWait_eq] at hst
  refine ⟨t, (semwait_eq hn).trans (by rw [ht]), fun j => by rw [ht]; rfl, by rw [hcx, hsem], by rw [hcx, hsemq], by rw [hst], by rw [hst], ?_⟩
  rw [hst, retire_eq]

theorem semtry_fails {p : PReg} (h : ¬((∀ w ∈ s.cx.semq, w.1 ≠ sem.toNat) ∧ s.semCount k ≤ (s.cx.getSem sem.toNat).toNat)) :
    PredWrite s (exec (.semtry p sem k) s) p false := by
  rw [semtry_eq, if_neg]
  · exact predResult_writes s p false
  · rw [Bool.and_eq_true, decide_eq_true_eq, Bool.not_eq_true', ← Bool.not_eq_true, semBusy_iff, not_not]
    exact h

end

/-- Settles O25: each instruction by whether somebody waits and whether the count fits, a queue by induction on its waiters. -/
theorem semaphores : Obligations.Semaphores := by
  unfold Obligations.Semaphores
  refine ⟨fun s d b p sem k => ?_, fun x sem v => ?_⟩
  · intro c n idle
    have hcount : n = s.semCount k := by cases k <;> rfl
    clear_value n
    subst hcount
    refine ⟨completes_next ?_ rfl, completes_next rfl rfl, fun hn => completes_next (if_pos hn) rfl, semwait_takes, fun hn h => ?_,
      semtry_takes, semtry_fails⟩
    · rw [← satCount_eq]
      rfl
    · refine completes_next ((semwait_eq hn).trans ?_) rfl
      exact congrArg Host.Outcome.next (modCx_congr (queueSem_waits _ h))
  · obtain ⟨hcount, horder, hothers, hhead, hframe⟩ := serves_writeSem x sem v
    exact ⟨hcount, horder, hothers, hhead, hframe⟩

end Sys2Proof.Machine

namespace Sys2Proof.Machine

/-! ## Waits on memory words (R210, R211, R238, R239) -/

/-! ### What an access counts is no waiter's (R186, R238) -/

/-- Every die keeps its waiters and the stamp of the next one. -/
def WaitsKept (s t : State) : Prop := ∀ o, (t.die o).waiters = (s.die o).waiters ∧ (t.die o).stamp = (s.die o).stamp

theorem WaitsKept.refl (s : State) : WaitsKept s s := fun _ => ⟨rfl, rfl⟩

theorem WaitsKept.trans {s t u : State} (hst : WaitsKept s t) (htu : WaitsKept t u) : WaitsKept s u :=
  fun o => ⟨(htu o).1.trans (hst o).1, (htu o).2.trans (hst o).2⟩

theorem WaitsKept.foldl {α : Type} {f : State → α → State} (hf : ∀ s x, WaitsKept s (f s x)) (l : List α) (s : State) : WaitsKept s (l.foldl f s) :=
  List.foldlRecOn (motive := WaitsKept s) _ _ (.refl s) fun u hu x _ => hu.trans (hf u x)

theorem waitsKept_modDie (s : State) (o : Nat) {f : Die → Die} (hf : ∀ k, (f k).waiters = k.waiters ∧ (f k).stamp = k.stamp) :
    WaitsKept s (s.modDie o f) := by
  intro j
  by_cases hj : j = o
  · rw [hj, die_modDie]
    exact hf _
  · rw [die_modDie_other s o j f hj]
    exact ⟨rfl, rfl⟩

theorem waitsKept_useLine (s : State) (x : Xl) (wrote : Bool) : WaitsKept s (s.useLine x wrote) := by
  unfold State.useLine
  cases x.part with
  | none => exact .refl s
  | some q =>
    dsimp only
    split
    · exact .refl s
    · exact waitsKept_modDie s _ fun _ => ⟨rfl, rfl⟩

theorem waitsKept_setPort (s : State) (n : Nat) (p : Port) : WaitsKept s (s.setPort n p) := fun _ => ⟨rfl, rfl⟩

theorem waitsKept_crossLinks (s : State) (xs : List Xl) : WaitsKept s (s.crossLinks xs) := .foldl (fun s _ => waitsKept_setPort s _ _) _ s

theorem waitsKept_useLines (s : State) (xs : List Xl) : WaitsKept s (s.useLines xs) :=
  (waitsKept_crossLinks s _).trans (.foldl (fun s x => waitsKept_useLine s x false) _ _)

theorem waitsKept_marginFill (s : State) (x : Xl) : WaitsKept s (marginFill s x) := by
  unfold marginFill marginTake
  split
  · split
    · split
      · split
        · exact waitsKept_modDie s _ fun _ => ⟨rfl, rfl⟩
        · exact .refl s
      · exact .refl s
    · exact .refl s
  · exact .refl s

theorem waitsKept_noteAccess (s : State) (from_ : Nat) (x : Xl) (wrote : Bool) : WaitsKept s (noteAccess s from_ x wrote) := by
  unfold noteAccess
  extract_lets u dd ix bump isIt
  have hu : WaitsKept s u := by
    cases wrote with
    | true => exact .refl s
    | false => exact waitsKept_marginFill s x
  split
  · exact hu
  · split
    · exact hu.trans (waitsKept_modDie u _ fun _ => ⟨rfl, rfl⟩)
    · split
      · exact hu
      · exact hu.trans (waitsKept_modDie u _ fun _ => ⟨rfl, rfl⟩)

theorem waitsKept_hostChargeN (s : State) (x : Ctx) (xs : List Xl) (write : Bool) (n : Nat) : WaitsKept s (hostChargeN s x xs write n) := by
  unfold hostChargeN
  split
  · exact fun _ => ⟨rfl, rfl⟩
  · exact .refl s

theorem waitsKept_counted_read (s : State) (x : Xl) (xs : List Xl) (n : Nat) : WaitsKept s (counted s (x :: xs) false n) :=
  (waitsKept_hostChargeN s s.cx (x :: xs) false n).trans ((waitsKept_useLines _ _).trans (waitsKept_noteAccess _ _ _ _))

section
variable {s t : State}

theorem CountsOnly.focus (h : CountsOnly s t) : t.focus = s.focus := by rw [h]
theorem CountsOnly.parts (h : CountsOnly s t) : t.parts = s.parts := by rw [h]
theorem CountsOnly.releases (h : CountsOnly s t) : t.releases = s.releases := by rw [h]

end

/-! ### The word is read (R210) -/

/-- The entry that a WADDR registers on its word. -/
def State.addrWaiter (u : State) (x : Xl) (c : WaitCond) (wide : Bool) (d : SReg) (mask expected ea : Word) : Waiter :=
  { asid := u.cx.asid, ea := resolveOwner u.here ea, owner := x.owner, wide := wide, mask := mask, expected := expected, cond := c
    stamp := (u.die x.owner).stamp, who := u.focus, uid := u.cx.uid, d := d, slot := (u.die x.owner).waitSlot, vi := u.cx.vi, part := u.cx.part }

/-- A waiter joins the list behind the earlier ones and uses up a stamp. -/
def Die.addWaiter (k : Die) (w : Waiter) : Die := { k with waiters := k.waiters ++ [w], stamp := k.stamp + 1 }
/-- Waiters leave the list. -/
def Die.dropWaiters (k : Die) (go : List Waiter) : Die := { k with waiters := k.waiters.filter fun w => !go.any fun g => g.stamp == w.stamp }

/-- A waiter joins its die's list, and its strand waits. -/
def State.register (u : State) (w : Waiter) : State :=
  (u.modDie w.owner (·.addWaiter w)).modSt fun t => { t with wait := some (.addr w.owner w.stamp w.d) }
/-- Waiters leave their die's list, and each is sent its release with the word it waits on. -/
def State.wakeAll (u : State) (o : Nat) (go : List Waiter) : State :=
  go.foldl (fun t w => releaseWaiter t w (u.waitWord w) 2) (u.modDie o (·.dropWaiters go))

section
variable {s : State} {wide : Bool} {m : MemOp} {x : Xl} {xs : List Xl} {bs : List Byte} (ha : (s.ea m).toNat % wordBytes wide = 0)
  (hr : s.readVa s.homeAgent .rd (s.ea m) (wordBytes wide) = .ok (x :: xs, bs)) (hw : hostWaits s s.cx (x :: xs) false = false)
include ha hr hw

theorem waddr_eq (c : WaitCond) (d b e : SReg) : exec (.waddr c wide d b e m) s =
    .next (if waitCond c wide (leWord bs) (s.getS b) (s.getS e) then
        (counted s (x :: xs) false (wordBytes wide)).modSt fun t => ((t.setS d (leWord bs)).setS (d + 1) 0).retire 1
      else (counted s (x :: xs) false (wordBytes wide)).register
        ((counted s (x :: xs) false (wordBytes wide)).addrWaiter x c wide d (s.getS b) (s.getS e) (s.ea m))) := by
  refine (alignedFirst_goes _ ha).trans ?_
  rw [hr]
  exact congrArg Host.Outcome.next (charged_goes _ _ hw)

theorem wake_eq (d b : SReg) : exec (.wake wide d b m) s =
    let u := counted s (x :: xs) false (wordBytes wide)
    let go := ((u.die x.owner).waitersOn u.cx.asid (resolveOwner u.here (s.ea m))).take ((s.getS b).toNat % 2 ^ 32)
    .next ((u.wakeAll x.owner go).status d (BitVec.ofNat 64 go.length)) := by
  refine (alignedFirst_goes _ ha).trans ?_
  rw [hr]
  exact congrArg Host.Outcome.next (charged_goes _ _ hw)

theorem waddr_holds {c : WaitCond} {d b e : SReg} (hc : waitCond c wide (leWord bs) (s.getS b) (s.getS e) = true) :
    Completes s (exec (.waddr c wide d b e m) s)
      ((counted s (x :: xs) false (wordBytes wide)).modSt fun t => (t.setS d (leWord bs)).setS (d + 1) 0).retire := by
  refine ⟨?_, fun k => ?_⟩
  · rw [waddr_eq ha hr hw, if_pos hc, State.retire, modSt_modSt]
  · rw [State.retire, rawByte_modSt, rawByte_modSt]
    exact (countsOnly_counted s (x :: xs) false _).rawByte k

theorem waddr_registers {c : WaitCond} {d b e : SReg} (hc : waitCond c wide (leWord bs) (s.getS b) (s.getS e) = false) :
    ∃ (t : State) (w : Waiter), exec (.waddr c wide d b e m) s = .next t ∧ (∀ j, t.rawByte j = s.rawByte j)
      ∧ (t.die x.owner).waiters = (s.die x.owner).waiters ++ [w] ∧ w.asid = s.cx.asid ∧ w.ea = resolveOwner s.here (s.ea m) ∧ w.who = s.focus
      ∧ w.mask = s.getS b ∧ w.expected = s.getS e ∧ w.cond = c ∧ w.d = d ∧ w.owner = x.owner ∧ w.stamp = (s.die x.owner).stamp
      ∧ (t.die x.owner).stamp = (s.die x.owner).stamp + 1 ∧ t.st = { s.st with wait := some (.addr x.owner (s.die x.owner).stamp d) } := by
  obtain ⟨u, hu⟩ : ∃ u, u = counted s (x :: xs) false (wordBytes wide) := ⟨_, rfl⟩
  have hcounts : CountsOnly s u := hu ▸ countsOnly_counted s (x :: xs) false _
  obtain ⟨hwaiters, hstamp⟩ : _ ∧ _ := hu ▸ waitsKept_counted_read s x xs (wordBytes wide) x.owner
  have hdie : ∀ w : Waiter, w.owner = x.owner → (u.register w).die x.owner = (u.die x.owner).addWaiter w := fun w hown => by
    rw [← hown]
    exact die_modDie u w.owner (·.addWaiter w)
  refine ⟨u.register (u.addrWaiter x c wide d (s.getS b) (s.getS e) (s.ea m)), u.addrWaiter x c wide d (s.getS b) (s.getS e) (s.ea m), ?exec, hcounts.rawByte, ?waiters, congrArg Ctx.asid hcounts.cx,
    congrArg (resolveOwner · (s.ea m)) hcounts.here, hcounts.focus, rfl, rfl, rfl, rfl, rfl, hstamp, ?stamp, ?strand⟩
  case exec => rw [waddr_eq ha hr hw, if_neg (by rw [hc]; decide), hu]
  case waiters => rw [hdie _ rfl, Die.addWaiter, hwaiters]
  case stamp => rw [hdie _ rfl, Die.addWaiter, hstamp]
  case strand =>
    rw [State.register, st_modSt, st_modDie, hcounts.st, ← hstamp]
    rfl

end

/-! ### Waiters are woken (R211, R240) -/

/-- The release that is sent to a waiter's strand. -/
def Waiter.release (w : Waiter) (parts : SMap Part) (v how : Word) : Release :=
  { uid := w.uid, strand := (strandIx w.who).val, owner := w.owner, stamp := w.stamp, d := w.d, val := v, how := how, part := w.part
    rgen := (SMap.get {} parts w.part.val).gen }

theorem releaseAll_eq (go : List Waiter) (v : Waiter → Word) (how : Word) (t : State) :
    go.foldl (fun t w => releaseWaiter t w (v w) how) t = { t with releases := t.releases ++ go.map fun w => w.release t.parts (v w) how } := by
  induction go generalizing t with
  | nil => simp
  | cons w go ih =>
    rw [List.foldl_cons, ih]
    simp [releaseWaiter, Waiter.release]

section
variable (u : State) (o : Nat) (go : List Waiter)

theorem wakeAll_eq : u.wakeAll o go =
    { u.modDie o (·.dropWaiters go) with releases := u.releases ++ go.map fun w => w.release u.parts (u.waitWord w) 2 } := releaseAll_eq ..

theorem st_wakeAll : (u.wakeAll o go).st = u.st := by rw [wakeAll_eq]; rfl
theorem rawByte_wakeAll (k : Nat) : (u.wakeAll o go).rawByte k = u.rawByte k := by rw [wakeAll_eq]; rfl
theorem releases_wakeAll : (u.wakeAll o go).releases = u.releases ++ go.map fun w => w.release u.parts (u.waitWord w) 2 := by rw [wakeAll_eq]

theorem waiters_wakeAll : ((u.wakeAll o go).die o).waiters = (u.die o).waiters.filter fun w => !go.any fun g => g.stamp == w.stamp := by
  rw [wakeAll_eq]
  exact congrArg Die.waiters (die_modDie u o (·.dropWaiters go))

end

theorem waitersOn_of_waiters {k l : Die} (h : k.waiters = l.waiters) (asid : BitVec 12) (ea : Word) : k.waitersOn asid ea = l.waitersOn asid ea := by
  rw [Die.waitersOn, Die.waitersOn, h]

theorem wake_releases {s : State} {wide : Bool} {m : MemOp} {x : Xl} {xs : List Xl} {bs : List Byte} (ha : (s.ea m).toNat % wordBytes wide = 0)
    (hr : s.readVa s.homeAgent .rd (s.ea m) (wordBytes wide) = .ok (x :: xs, bs)) (hw : hostWaits s s.cx (x :: xs) false = false) (d b : SReg) :
    let u := counted s (x :: xs) false (wordBytes wide)
    let go := ((s.die x.owner).waitersOn s.cx.asid (resolveOwner s.here (s.ea m))).take ((s.getS b).toNat % 2 ^ 32)
    ∃ t : State, exec (.wake wide d b m) s = .next t ∧ (∀ j, t.rawByte j = s.rawByte j) ∧ WritesS s.st t.st d (BitVec.ofNat 64 go.length)
      ∧ t.st = { s.st.retire 1 with s := t.st.s }
      ∧ (t.die x.owner).waiters = (s.die x.owner).waiters.filter (fun w => !go.any fun g => g.stamp == w.stamp)
      ∧ t.releases = s.releases ++ go.map fun w => w.release s.parts (u.waitWord w) 2 := by
  intro u go
  have hcounts : CountsOnly s u := countsOnly_counted s (x :: xs) false _
  have hwaiters : (u.die x.owner).waiters = (s.die x.owner).waiters := (waitsKept_counted_read s x xs (wordBytes wide) x.owner).1
  have hgo : ((u.die x.owner).waitersOn u.cx.asid (resolveOwner u.here (s.ea m))).take ((s.getS b).toNat % 2 ^ 32) = go := by
    rw [hcounts.cx, hcounts.here, waitersOn_of_waiters hwaiters]
  have hexec : exec (.wake wide d b m) s = .next ((u.wakeAll x.owner go).status d (BitVec.ofNat 64 go.length)) := hgo ▸ wake_eq ha hr hw d b
  clear_value u go
  have hstrand : ((u.wakeAll x.owner go).status d (BitVec.ofNat 64 go.length)).st = (s.st.setS d (BitVec.ofNat 64 go.length)).retire 1 := by
    rw [State.status, st_modSt, st_wakeAll, hcounts.st]
  refine ⟨_, hexec, fun j => (rawByte_wakeAll u x.owner go j).trans (hcounts.rawByte j), writesS_set _ _ _ _ (by rw [hstrand, retire_setS]),
    by rw [hstrand, retire_setS], ?_, ?_⟩
  · rw [← hwaiters]
    exact waiters_wakeAll u x.owner go
  · rw [← hcounts.releases, ← hcounts.parts]
    exact releases_wakeAll u x.owner go

/-! ## Bound operand queues (R212-R215) -/

theorem status_writes (s : State) (d : SReg) (v : Word) : ScalarWrite s (.next (s.status d v)) d v := scalarResult_writes s d v

section
variable {s : State} {d a b : SReg} {q : Fin 8} {depth1 : Fin 32}

theorem qbind_malformed (h : endpoint (s.focus.core / 96) (s.getS a) = none ∨ endpoint (s.focus.core / 96) (s.getS b) = none) :
    exec (.qbind d a b q depth1) s = .next (s.status d 5) := by
  show execQbind d a b q depth1 s = _
  unfold execQbind
  dsimp only
  rcases h with h | h <;> rw [h]
  · rfl
  · cases endpoint (s.focus.core / 96) (s.getS a) <;> rfl

/-- The queue is bound already, or an endpoint is one of a bound queue's (R212). -/
def endpointBusy (s : State) (q : Fin 8) (p c : EndPt) : Prop :=
  SMap.find s.cx.boundQs q.val ≠ none ∨ ∃ o ∈ allQueues s, o.prod = p ∨ o.prod = c ∨ o.cons = p ∨ o.cons = c

theorem endpointBusy_iff (s : State) (q : Fin 8) (p c : EndPt) :
    ((SMap.find s.cx.boundQs q.val).isSome || (allQueues s).any fun o => [o.prod, o.cons].any fun e => e == p || e == c) = true ↔ endpointBusy s q p c := by
  simp [endpointBusy, Option.isSome_iff_ne_none, or_assoc]

section
variable {p c : EndPt} (hp : endpoint (s.focus.core / 96) (s.getS a) = some p) (hc : endpoint (s.focus.core / 96) (s.getS b) = some c)
include hp hc

theorem qbind_eq : exec (.qbind d a b q depth1) s = .next (
    if !endpointOk s s.cx.launch p || !endpointOk s s.cx.launch c || p == c || p.eng == 0 || c.eng == 2 then s.status d 5
    else if (SMap.find s.cx.boundQs q.val).isSome || (allQueues s).any fun o => [o.prod, o.cons].any fun e => e == p || e == c then s.status d 11
    else (s.modCx fun x => { x with boundQs := SMap.set x.boundQs q.val { prod := p, cons := c, depth := depth1.val + 1 } }).status d 0) := by
  show execQbind d a b q depth1 s = _
  unfold execQbind
  dsimp only
  rw [hp, hc]
  rfl

theorem qbind_refused (h : p = c ∨ p.eng = 0 ∨ c.eng = 2) : exec (.qbind d a b q depth1) s = .next (s.status d 5) := by
  rw [qbind_eq hp hc, if_pos]
  rcases h with h | h | h <;> simp [h]

section
variable (hne : p ≠ c) (hprod : p.eng ≠ 0) (hcons : c.eng ≠ 2) (hpok : endpointOk s s.cx.launch p = true) (hcok : endpointOk s s.cx.launch c = true)
include hne hprod hcons hpok hcok

theorem qbind_busy (h : endpointBusy s q p c) : exec (.qbind d a b q depth1) s = .next (s.status d 11) := by
  rw [qbind_eq hp hc, if_neg (by simp [*]), if_pos ((endpointBusy_iff s q p c).mpr h)]

theorem qbind_binds (h : ¬endpointBusy s q p c) : exec (.qbind d a b q depth1) s =
    .next ((s.modCx fun x => { x with boundQs := SMap.set x.boundQs q.val { prod := p, cons := c, depth := depth1.val + 1 } }).status d 0) := by
  rw [qbind_eq hp hc, if_neg (by simp [*]), if_neg fun hb => h ((endpointBusy_iff s q p c).mp hb)]

end

end

theorem qunbind_unbound (h : SMap.find s.cx.boundQs q.val = none) : exec (.qunbind d q) s = .next (s.status d 5) := by
  show execQunbind d q s = _
  unfold execQunbind
  rw [h]
  rfl

theorem qunbind_bound {o : BoundQ} (h : SMap.find s.cx.boundQs q.val = some o) : exec (.qunbind d q) s = .next (
    if o.entries.isEmpty then (s.modCx fun x => { x with boundQs := SMap.erase x.boundQs q.val }).status d 0
    else (s.modCx fun x => { x with boundQs := SMap.set x.boundQs q.val { o with closing := true } }).modSt fun t => { t with wait := some (.unbind d q) }) := by
  show execQunbind d q s = _
  unfold execQunbind
  rw [h]
  rfl

theorem qdepth_writes {o : Option BoundQ} (h : SMap.find s.cx.boundQs q.val = o) : ScalarWrite s (exec (.qdepth d q) s) d (depthWord o) :=
  h ▸ scalarResult_writes s d _

end

/-- Settles O26: WADDR and WAKE by what the counted read of their word leaves, the queue instructions by their endpoints and the queue found. -/
theorem wordWaitsAndQueues : Obligations.WordWaitsAndQueues := by
  unfold Obligations.WordWaitsAndQueues
  refine ⟨fun s c wide d b e m => ⟨fun ha => ⟨alignedFirst_traps _ ha, alignedFirst_traps _ ha⟩, fun ha x xs bs hr hw =>
      ⟨waddr_holds ha hr hw, waddr_registers ha hr hw, wake_releases ha hr hw d b⟩⟩,
    fun s d a b q depth1 => ⟨fun h => ?malformed, fun p c hp hc => ⟨fun h => ?refused, fun hne hprod hcons hpok hcok => ⟨fun h => ?busy, fun hfree hnone => ?binds⟩⟩,
      fun h => ?unbound, fun o h => ?bound⟩⟩
  case malformed =>
    rw [qbind_malformed h]
    exact status_writes s d 5
  case refused =>
    rw [qbind_refused hp hc h]
    exact status_writes s d 5
  case busy =>
    rw [qbind_busy hp hc hne hprod hcons hpok hcok h]
    exact status_writes s d 11
  case binds =>
    have hb : ¬endpointBusy s q p c := by
      rintro (hq | ⟨o, ho, hname⟩)
      · exact hq hfree
      · obtain ⟨h1, h2, h3, h4⟩ := hnone o ho
        tauto
    exact completes_next (qbind_binds hp hc hne hprod hcons hpok hcok hb) rfl
  case unbound =>
    rw [qunbind_unbound h]
    exact ⟨status_writes s d 5, qdepth_writes h⟩
  case bound =>
    refine ⟨fun hempty => completes_next ?_ rfl, fun hfull => completes_next ?_ rfl, qdepth_writes h⟩
    · rw [qunbind_bound h, if_pos (by simp [hempty])]
    · rw [qunbind_bound h, if_neg (by simp [hfull])]

end Sys2Proof.Machine

namespace Sys2Proof.Machine

/-! ## Barrier groups (R205-R209, R241-R244) -/

/-! ### A completed generation (R207, R208, R244) -/

/-- Every member has arrived in C or leaves, here and as counted from other packages. -/
def Group.Arrived (g : Group) : Prop := (∀ m ∈ g.members, m.inC = true ∨ m.leaving = true) ∧ ∀ r ∈ g.remote, r.2.leaving = true ∨ r.2.members ≤ r.2.inC

/-- A member stays beyond C, here or in another package. -/
def Group.Stays (g : Group) : Prop := (∃ m ∈ g.members, m.leaving = false) ∨ ∃ r ∈ g.remote, r.2.leaving = false ∧ r.2.members ≠ 0

/-- A member that stays has not arrived in C + 1. -/
def Group.Late (g : Group) : Prop :=
  (∃ m ∈ g.members, m.leaving = false ∧ m.inC1 = false) ∨ ∃ r ∈ g.remote, r.2.leaving = false ∧ r.2.inC1 < r.2.members

theorem full_iff (g : Group) : g.full = true ↔ g.vacant = false ∧ g.elsewhere = false ∧ g.Arrived := by
  simp [Group.full, Group.Arrived, and_assoc]

theorem settle_of_not_full {g : Group} (h : g.full = false) : g.settle = g := by simp [Group.settle, h]

theorem settle_of_full {g : Group} (h : g.full = true) : g.settle = if g.turn.full then g.turn.turn else g.turn := by simp [Group.settle, h]

/-- The members of the next generation: those that stay, with their arrivals in the old C + 1, and the pending joins. -/
theorem mem_members_turn {g : Group} {m : Member} : m ∈ g.turn.members ↔
    (∃ k ∈ g.members, k.leaving = false ∧ { k with inC := k.inC1, inC1 := false } = m) ∨ ∃ j ∈ g.joins, { uid := j.1, strand := j.2 } = m := by
  simp only [Group.turn, List.mem_append, List.mem_map, List.mem_filter, Bool.not_eq_true', and_assoc]

theorem mem_remote_turn {g : Group} {r : Nat × Remote} : r ∈ g.turn.remote ↔
    ∃ k ∈ g.remote, k.2.leaving = false ∧ (k.1, { k.2 with inC := k.2.inC1, inC1 := 0 }) = r := by
  simp only [Group.turn, SMap.mapVals, List.mem_map, List.mem_filter, Bool.not_eq_true', and_assoc]

theorem vacant_turn_iff {g : Group} (he : g.elsewhere = false) : g.turn.vacant = true ↔ g.joins = [] ∧ ¬g.Stays := by
  have hempty : g.turn.members = [] ↔ g.joins = [] ∧ ∀ m ∈ g.members, m.leaving = true := by simp [Group.turn, and_comm]
  have hremote : (∀ r ∈ g.turn.remote, r.2.members = 0) ↔ ∀ r ∈ g.remote, r.2.leaving = false → r.2.members = 0 := by
    constructor
    · intro h r hr hl
      exact (h _ (mem_remote_turn.mpr ⟨r, hr, hl, rfl⟩) :)
    · rintro h r hr
      obtain ⟨k, hk, hl, rfl⟩ := mem_remote_turn.mp hr
      exact h k hk hl
  have hhere : g.turn.elsewhere = false := he
  have hvacant : g.turn.vacant = true ↔ g.turn.members = [] ∧ ∀ r ∈ g.turn.remote, r.2.members = 0 := by simp [Group.vacant, hhere]
  rw [hvacant, hempty, hremote, Group.Stays]
  simp only [not_or, not_exists, not_and, Bool.not_eq_false, ne_eq, not_not, and_assoc]

theorem arrived_turn_iff (g : Group) : g.turn.Arrived ↔ g.joins = [] ∧ ¬g.Late := by
  have hremote : (∀ r ∈ g.turn.remote, r.2.leaving = true ∨ r.2.members ≤ r.2.inC) ↔ ∀ r ∈ g.remote, r.2.leaving = false → r.2.members ≤ r.2.inC1 := by
    constructor
    · intro h r hr hl
      exact (h _ (mem_remote_turn.mpr ⟨r, hr, hl, rfl⟩)).resolve_left (by simp [hl])
    · rintro h r hr
      obtain ⟨k, hk, hl, rfl⟩ := mem_remote_turn.mp hr
      exact .inr (h k hk hl)
  have hmembers : (∀ m ∈ g.turn.members, m.inC = true ∨ m.leaving = true) ↔ g.joins = [] ∧ ∀ m ∈ g.members, m.leaving = false → m.inC1 = true := by
    constructor
    · refine fun h => ⟨List.eq_nil_iff_forall_not_mem.mpr fun j hj => ?_, fun m hm hl => ?_⟩
      · simpa using h _ (mem_members_turn.mpr (.inr ⟨j, hj, rfl⟩))
      · exact (h _ (mem_members_turn.mpr (.inl ⟨m, hm, hl, rfl⟩))).resolve_right (by simp [hl])
    · rintro ⟨hjoins, h⟩ m hm
      obtain ⟨k, hk, hl, rfl⟩ | ⟨j, hj, -⟩ := mem_members_turn.mp hm
      · exact .inl (h k hk hl)
      · simp [hjoins] at hj
  rw [Group.Arrived, hmembers, hremote, Group.Late]
  simp only [not_or, not_exists, not_and, Bool.not_eq_false, not_lt, and_assoc]

theorem full_turn_iff {g : Group} (he : g.elsewhere = false) : g.turn.full = true ↔ g.joins = [] ∧ g.Stays ∧ ¬g.Late := by
  have hhere : g.turn.elsewhere = false := he
  rw [full_iff, arrived_turn_iff, ← Bool.not_eq_true, vacant_turn_iff he]
  simp only [hhere, true_and]
  constructor
  · rintro ⟨hv, hj, hl⟩
    exact ⟨hj, not_not.mp fun hs => hv ⟨hj, hs⟩, hl⟩
  · rintro ⟨hj, hs, hl⟩
    exact ⟨fun hv => hv.2 hs, hj, hl⟩

/-- One generation completes, or at most two at once. -/
theorem c_settle (g : Group) : g.settle.c = g.c ∨ g.settle.c = g.c + 1 ∨ g.settle.c = g.c + 2 := by
  cases hfull : g.full with
  | false => exact .inl (by rw [settle_of_not_full hfull])
  | true =>
    rw [settle_of_full hfull]
    split
    · exact .inr (.inr (BitVec.add_assoc g.c 1 1))
    · exact .inr (.inl rfl)

theorem settle_completes {g : Group} (hv : g.vacant = false) (he : g.elsewhere = false) (ha : g.Arrived) :
    (g.Late ∨ g.joins ≠ [] ∨ ¬g.Stays → g.settle = g.turn) ∧ (¬g.Late → g.joins = [] → g.Stays → g.settle.c = g.c + 2) := by
  have hfull : g.full = true := (full_iff g).mpr ⟨hv, he, ha⟩
  refine ⟨fun h => ?_, fun hl hj hs => ?_⟩ <;> rw [settle_of_full hfull]
  · exact if_neg fun hturn => by
      obtain ⟨hj, hs, hl⟩ := (full_turn_iff he).mp hturn
      exact h.elim hl fun h => h.elim (· hj) (· hs)
  · rw [if_pos ((full_turn_iff he).mpr ⟨hj, hs, hl⟩)]
    exact BitVec.add_assoc g.c 1 1

theorem lost_settle (g : Group) : g.settle.lost = g.lost := by
  cases hfull : g.full with
  | false => rw [settle_of_not_full hfull]
  | true =>
    rw [settle_of_full hfull]
    split <;> rfl

/-! ### A group's record is written (R241, R244) -/

theorem mem_queueFlit (s : State) (dst : Nat) (flit : List Byte) : (s.queueFlit dst flit).mem = s.mem := rfl

theorem mem_putGroup (s : State) (n : Nat) (g : Group) : (s.putGroup n g).mem = s.mem := by
  unfold State.putGroup tellGroup
  dsimp only
  split
  · split <;> rfl
  · split
    · rfl
    · exact mem_foldl _ (fun _ _ => mem_queueFlit ..) _ _

/-- An instruction completes with a group's record written and a status. -/
theorem completes_putGroup {s : State} {o : Out} {n : Nat} {g : Group} {d : SReg} {v : Word} (ho : o = .next ((s.putGroup n g).status d v)) :
    Completes s o ((s.putGroup n g).status d v) := completes_next ho (mem_putGroup s n g)

section
variable {s : State} {n : Nat}

theorem atRoot_goes (f : Group → State) (h : (s.group n).owner = some s.cx.part) (hl : (s.group n).lost = false) : s.atRoot n f = f (s.group n) :=
  (if_pos h).trans (if_neg (by simp [hl]))

section
variable {o : Out} {f : Group → State} (ho : o = .next (s.atRoot n f))
include ho

theorem atRoot_refuses (h : (s.group n).owner ≠ some s.cx.part) : TakesTrap s o 0x09 0 0 := by
  have hout : s.atRoot n f = s.trap 0x09 0 0 := if_neg h
  rw [ho, hout]
  exact trap_takes s _ _ _

theorem atRoot_waits (h : (s.group n).owner = some s.cx.part) (hl : (s.group n).lost = true) : Completes s o s.hold :=
  completes_next (ho.trans (congrArg Host.Outcome.next ((if_pos h).trans (if_pos hl)))) rfl

end

end

/-! ### Tokens and statuses (R205, R209) -/

/-- A generation number in the upper half of a word. -/
theorem append_zero_eq (gen : BitVec 32) : gen ++ (0 : BitVec 32) = gen.setWidth 64 <<< 32 := by
  refine BitVec.eq_of_toNat_eq ((BitVec.toNat_append gen 0#32).trans ?_)
  rw [BitVec.toNat_shiftLeft, BitVec.toNat_setWidth, Nat.shiftLeft_eq, Nat.shiftLeft_eq, BitVec.toNat_ofNat, Nat.zero_mod, Nat.or_zero]
  omega

theorem groupNum_lt (v : Word) : groupNum v < 4096 := Nat.mod_lt _ (by decide)

section
variable (gen : BitVec 32) {n : Nat} (hn : n < 4096)
include hn

theorem tokenOf_member : tokenOf gen false n = gen.setWidth 64 <<< 32 ||| BitVec.ofNat 64 n := by
  rw [tokenOf, append_zero_eq, Nat.mod_eq_of_lt hn]
  simp [bw]

theorem tokenOf_stranger : tokenOf gen true n = gen.setWidth 64 <<< 32 ||| 0x2000 ||| BitVec.ofNat 64 n := by
  rw [tokenOf, append_zero_eq, Nat.mod_eq_of_lt hn]
  rfl

end

section
variable (c : BitVec 32)

theorem barrierStatus_done : barrierStatus c true false = (c ++ (0 : BitVec 32)) ||| 2 := by simp [barrierStatus, bw]
theorem barrierStatus_stale : barrierStatus c true true = c.setWidth 64 <<< 32 ||| 3 := by
  rw [barrierStatus, append_zero_eq, BitVec.or_assoc]
  rfl
theorem barrierStatus_pending : barrierStatus c false false = c.setWidth 64 <<< 32 := by
  rw [barrierStatus, append_zero_eq]
  simp [bw]

end

/-! ### A member of a group (R207, R208) -/

/-- The record of a strand of a context among the members. -/
def Group.find (g : Group) (uid strand : Nat) : Option Member := g.members.find? fun m => m.uid == uid && m.strand == strand

/-- The members with the record of one strand changed. -/
def Group.update (g : Group) (uid strand : Nat) (f : Member → Member) : List Member :=
  g.members.map fun m => if m.uid == uid && m.strand == strand then f m else m

theorem isMember_eq (g : Group) (uid strand : Nat) : g.isMember uid strand = (g.find uid strand).isSome := by
  rw [Group.isMember, Group.find, Bool.eq_iff_iff, List.any_eq_true, List.find?_isSome]

section
variable {g : Group} {uid strand : Nat} {m : Member} (hm : g.find uid strand = some m)
include hm

theorem arrive_member : g.arrive uid strand =
    if !m.inC && !m.leaving then some ({ g with members := g.update uid strand fun m => { m with inC := true } }, g.c)
    else if !m.inC1 then some ({ g with members := g.update uid strand fun m => { m with inC1 := true } }, g.c + 1)
    else none := by
  rw [Group.find] at hm
  rw [Group.arrive, hm]
  rfl

theorem arrive_first (hin : m.inC = false) (hstay : m.leaving = false) :
    g.arrive uid strand = some ({ g with members := g.update uid strand fun m => { m with inC := true } }, g.c) := by
  rw [arrive_member hm, if_pos (by simp [hin, hstay])]

theorem arrive_second (hin : m.inC = true) (hin1 : m.inC1 = false) :
    g.arrive uid strand = some ({ g with members := g.update uid strand fun m => { m with inC1 := true } }, g.c + 1) := by
  rw [arrive_member hm, if_neg (by simp [hin]), if_pos (by simp [hin1])]

theorem arrive_third (hin : m.inC = true) (hin1 : m.inC1 = true) : g.arrive uid strand = none := by
  rw [arrive_member hm, if_neg (by simp [hin]), if_neg (by simp [hin1])]

end

theorem leave_eq (g : Group) (uid strand : Nat) : g.leave uid strand =
    if g.joins.contains (uid, strand) then ({ g with joins := g.joins.filter (· ≠ (uid, strand)) }.unlose, true)
    else if g.isMember uid strand then ({ g with members := g.update uid strand fun m => { m with leaving := true, inC1 := false } }.settle.unlose, true)
    else (g, false) := rfl

theorem unlose_of_rooted {g : Group} (hl : g.lost = false) : g.unlose = g := if_neg (by simp [hl])

section
variable {g : Group} {uid strand : Nat}

/-- A pending join is taken back before a membership is left (R207, log 105). -/
theorem leave_pending (hl : g.lost = false) (h : (uid, strand) ∈ g.joins) :
    g.leave uid strand = ({ g with joins := g.joins.filter (· ≠ (uid, strand)) }, true) := by
  rw [leave_eq, if_pos (List.contains_iff_mem.mpr h), unlose_of_rooted]
  exact hl

theorem leave_member {m : Member} (hl : g.lost = false) (h : (uid, strand) ∉ g.joins) (hm : g.find uid strand = some m) :
    g.leave uid strand = ({ g with members := g.update uid strand fun m => { m with leaving := true, inC1 := false } }.settle, true) := by
  rw [leave_eq, if_neg (mt List.contains_iff_mem.mp h), isMember_eq, hm, if_pos Option.isSome_some, unlose_of_rooted]
  rw [lost_settle]
  exact hl

theorem leave_nobody (h : (uid, strand) ∉ g.joins) (hm : g.find uid strand = none) : g.leave uid strand = (g, false) := by
  rw [leave_eq, if_neg (mt List.contains_iff_mem.mp h), isMember_eq, hm]
  rfl

variable {sc : Scope} {agent root total : Nat}

theorem join_vacant (hv : g.vacant = true) (ht : total < 64) : g.join uid strand sc agent root total =
    ({ g with scope := sc, agent := agent, root := root, members := [{ uid := uid, strand := strand }] }, 0) :=
  (if_pos hv).trans (if_neg (by omega))

theorem join_full (hv : g.vacant = true) (ht : 64 ≤ total) : g.join uid strand sc agent root total = (g, 11) := (if_pos hv).trans (if_pos ht)

section
variable (hv : g.vacant = false)
include hv

theorem join_occupied : g.join uid strand sc agent root total =
    if g.scope ≠ sc ∨ g.agent ≠ agent then (g, 5)
    else if g.isMember uid strand || g.joins.contains (uid, strand) then (g, 0)
    else if g.members.length + g.joins.length ≥ 16777215 || total ≥ 64 then (g, 11)
    else ({ g with joins := g.joins ++ [(uid, strand)] }, 0) := if_neg (by simp [hv])

theorem join_elsewhere (h : g.scope ≠ sc ∨ g.agent ≠ agent) : g.join uid strand sc agent root total = (g, 5) := by rw [join_occupied hv, if_pos h]

section
variable (hs : g.scope = sc) (ha : g.agent = agent)
include hs ha

theorem join_again (h : (g.find uid strand).isSome = true ∨ (uid, strand) ∈ g.joins) : g.join uid strand sc agent root total = (g, 0) := by
  rw [join_occupied hv, if_neg (by simp [hs, ha]), isMember_eq, if_pos (by simpa using h)]

theorem join_pends (hm : g.find uid strand = none) (hj : (uid, strand) ∉ g.joins) (hroom : g.members.length + g.joins.length < 16777215) (ht : total < 64) :
    g.join uid strand sc agent root total = ({ g with joins := g.joins ++ [(uid, strand)] }, 0) := by
  rw [join_occupied hv, if_neg (by simp [hs, ha]), isMember_eq, hm, if_neg (by simpa using hj), if_neg]
  rw [Bool.or_eq_true, decide_eq_true_eq, decide_eq_true_eq]
  omega

end

end

end

/-! ### BARR and BMEMB (R205-R208) -/

/-- What an arrival leaves, where the strand may arrive: the group's record and a token; else the strand waits. -/
def State.arrived (s : State) (d : SReg) (n : Nat) : Option (Group × BitVec 32) → State
  | none => s.hold
  | some (g, gen) => (s.putGroup n g.settle).status d (tokenOf gen false n)

section
variable {s : State} {d a : SReg} {sc : Scope}

theorem barr_eq (s : State) (d a : SReg) : exec (.barr d a) s = .next (s.atRoot (groupNum (s.getS a)) fun g =>
    if !g.isMember s.cx.uid (strandIx s.focus).val then s.status d (tokenOf g.c true (groupNum (s.getS a)))
    else s.arrived d (groupNum (s.getS a)) (g.arrive s.cx.uid (strandIx s.focus).val)) := rfl

theorem bmembJoin_eq (s : State) (d a : SReg) (sc : Scope) : exec (.bmembJoin d a sc) s = .next (s.atRoot (groupNum (s.getS a)) fun g =>
    (s.putGroup (groupNum (s.getS a))
      (g.join s.cx.uid (strandIx s.focus).val sc (agentOfScope sc s.focus.core) s.package (memberships s s.cx.uid)).1).status d
      (g.join s.cx.uid (strandIx s.focus).val sc (agentOfScope sc s.focus.core) s.package (memberships s s.cx.uid)).2) := rfl

theorem bmembLeave_eq (s : State) (d a : SReg) : exec (.bmembLeave d a) s = .next (s.atRoot (groupNum (s.getS a)) fun g =>
    (s.putGroup (groupNum (s.getS a)) (g.leave s.cx.uid (strandIx s.focus).val).1).status d
      (if (g.leave s.cx.uid (strandIx s.focus).val).2 then 0 else 5)) := rfl

variable {n : Nat} {g : Group} (hn : groupNum (s.getS a) = n) (hg : s.group n = g) (ho : g.owner = some s.cx.part) (hl : g.lost = false)
include hn hg ho hl

theorem barr_stranger (hm : g.find s.cx.uid (strandIx s.focus).val = none) :
    Completes s (exec (.barr d a) s) (s.status d (g.c.setWidth 64 <<< 32 ||| 0x2000 ||| BitVec.ofNat 64 n)) := by
  subst hn hg
  rw [← tokenOf_stranger _ (groupNum_lt _)]
  refine completes_status ?_
  rw [barr_eq, atRoot_goes _ ho hl, isMember_eq, hm]
  rfl

section
variable {m : Member} (hm : g.find s.cx.uid (strandIx s.focus).val = some m)
include hm

theorem barr_member : exec (.barr d a) s = .next (s.arrived d n (g.arrive s.cx.uid (strandIx s.focus).val)) := by
  subst hn hg
  rw [barr_eq, atRoot_goes _ ho hl, isMember_eq, hm]
  rfl

theorem barr_arrives {x : Group} {gen : BitVec 32} (harrive : g.arrive s.cx.uid (strandIx s.focus).val = some (x, gen)) :
    Completes s (exec (.barr d a) s) ((s.putGroup n x.settle).status d (gen.setWidth 64 <<< 32 ||| BitVec.ofNat 64 n)) := by
  rw [← tokenOf_member gen (hn ▸ groupNum_lt _)]
  refine completes_putGroup ?_
  rw [barr_member hn hg ho hl hm, harrive]
  rfl

theorem barr_waits (harrive : g.arrive s.cx.uid (strandIx s.focus).val = none) : Completes s (exec (.barr d a) s) s.hold := by
  refine completes_next ?_ rfl
  rw [barr_member hn hg ho hl hm, harrive]
  rfl

end

theorem bmembJoin_result {x : Group} {v : Word}
    (hj : g.join s.cx.uid (strandIx s.focus).val sc (agentOfScope sc s.focus.core) s.package (memberships s s.cx.uid) = (x, v)) :
    Completes s (exec (.bmembJoin d a sc) s) ((s.putGroup n x).status d v) := by
  subst hn hg
  refine completes_putGroup ?_
  rw [bmembJoin_eq, atRoot_goes _ ho hl, hj]

theorem bmembLeave_leaves {x : Group} (hleave : g.leave s.cx.uid (strandIx s.focus).val = (x, true)) :
    Completes s (exec (.bmembLeave d a) s) ((s.putGroup n x).status d 0) := by
  subst hn hg
  refine completes_putGroup ?_
  rw [bmembLeave_eq, atRoot_goes _ ho hl, hleave]
  rfl

theorem bmembLeave_refused {x : Group} (hleave : g.leave s.cx.uid (strandIx s.focus).val = (x, false)) :
    Completes s (exec (.bmembLeave d a) s) ((s.putGroup n x).status d 5) := by
  subst hn hg
  refine completes_putGroup ?_
  rw [bmembLeave_eq, atRoot_goes _ ho hl, hleave]
  rfl

end

/-! ### BWAIT and BTRY (R209) -/

/-- What a token's state makes of the strand, where a pending one leaves `pending`. -/
def State.judged (s : State) (d : SReg) (c : BitVec 32) (pending : State) : TokenState → State
  | .stale => s.status d (barrierStatus c true true)
  | .done => s.status d (barrierStatus c true false)
  | .pending => pending
  | .future => s.trap 0x14 0 0

theorem bwait_eq (s : State) (d a : SReg) : exec (.bwait d a) s = .next (s.atRoot (groupNum (s.getS a)) fun g =>
    s.judged d g.c (s.modSt fun t => { t with wait := some (.barrier d (groupNum (s.getS a)) ((s.getS a).extractLsb' 32 32)) })
      (g.judge ((s.getS a).extractLsb' 32 32))) := rfl

theorem btry_eq (s : State) (d a : SReg) : exec (.btry d a) s = .next (s.atRoot (groupNum (s.getS a)) fun g =>
    s.judged d g.c (s.status d (barrierStatus g.c false false)) (g.judge ((s.getS a).extractLsb' 32 32))) := rfl

section
variable {g : Group} {gen : BitVec 32}

theorem judge_stale (h : (gen - g.c).toInt ≤ -2) : g.judge gen = .stale := if_pos h

theorem judge_done (h : (gen - g.c).toInt = -1) : g.judge gen = .done := by simp [Group.judge, h]

theorem judge_ahead (h : 0 ≤ (gen - g.c).toInt) : g.judge gen =
    if (gen - g.c).toInt = 0 ∨ (gen - g.c).toInt = 1 ∧ ∃ m ∈ g.members, m.inC1 = true then .pending else .future := by
  have h1 : ¬(gen - g.c).toInt ≤ -2 := by omega
  have h2 : ¬(gen - g.c).toInt = -1 := by omega
  simp only [Group.judge, h1, h2, if_false, List.any_eq_true]

theorem judge_of_past (h : (gen - g.c).toInt < 0) : g.judge gen = .stale ∨ g.judge gen = .done := by
  by_cases hstale : (gen - g.c).toInt ≤ -2
  · exact .inl (judge_stale hstale)
  · exact .inr (judge_done (by omega))

theorem judge_of_ahead (h : 0 ≤ (gen - g.c).toInt) : g.judge gen = .pending ∨ g.judge gen = .future := by
  rw [judge_ahead h]
  split
  · exact .inl rfl
  · exact .inr rfl

end

section
variable {s : State} {o : Out} {d : SReg} {n : Nat} {gen : BitVec 32} {pend : Group → State} {g : Group}
  (heq : o = .next (s.atRoot n fun g => s.judged d g.c (pend g) (g.judge gen))) (hg : s.group n = g) (ho : g.owner = some s.cx.part) (hl : g.lost = false)
include heq hg ho hl

theorem token_judged : o = .next (s.judged d g.c (pend g) (g.judge gen)) := by
  subst hg
  rw [heq, atRoot_goes _ ho hl]

theorem token_stale (h : (gen - g.c).toInt ≤ -2) : ScalarWrite s o d (g.c.setWidth 64 <<< 32 ||| 3) := by
  rw [token_judged heq hg ho hl, judge_stale h, ← barrierStatus_stale]
  exact scalarResult_writes s d _

theorem token_done (h : (gen - g.c).toInt = -1) : ScalarWrite s o d (g.c.setWidth 64 <<< 32 ||| 2) := by
  rw [token_judged heq hg ho hl, judge_done h, ← append_zero_eq, ← barrierStatus_done]
  exact scalarResult_writes s d _

theorem token_pending (h : (gen - g.c).toInt = 0 ∨ (gen - g.c).toInt = 1 ∧ ∃ m ∈ g.members, m.inC1 = true) : o = .next (pend g) := by
  rw [token_judged heq hg ho hl, judge_ahead (by omega), if_pos h]
  rfl

theorem token_future (h : 2 ≤ (gen - g.c).toInt ∨ (gen - g.c).toInt = 1 ∧ ¬∃ m ∈ g.members, m.inC1 = true) : TakesTrap s o 0x14 0 0 := by
  rw [token_judged heq hg ho hl, judge_ahead (by omega), if_neg]
  · exact trap_takes s _ _ _
  · rintro (h0 | ⟨h1, hearly⟩)
    · omega
    · exact h.elim (by omega) fun h => h.2 hearly

end

/-! ### The ends of waits (R147, R148, R209, R242) -/

section
variable {s : State} {r : StrandRef} {d : SReg} {n : Nat} {gen : BitVec 32} (h : (s.strandAt r).wait = some (.barrier d n gen))
include h

theorem barrierWait_ends (hl : (s.group n).lost = false) (hpast : (gen - (s.group n).c).toInt < 0) : exec (.barrierCompletionArrival r) s =
    .next (s.modStrandAt r fun t => ({ (t.setS d (((gen + 1) ++ (0 : BitVec 32)) ||| 2)) with wait := none }).retire 1) := by
  show execBarrierCompletionArrival r s = _
  unfold execBarrierCompletionArrival
  rw [h, ← barrierStatus_done]
  dsimp only
  rw [hl]
  rcases judge_of_past hpast with hj | hj <;> rw [hj] <;> rfl

theorem barrierWait_goes_on (hwaits : 0 ≤ (gen - (s.group n).c).toInt ∨ (s.group n).lost = true) : exec (.barrierCompletionArrival r) s = .next s := by
  show execBarrierCompletionArrival r s = _
  unfold execBarrierCompletionArrival
  rw [h]
  dsimp only
  split
  · rfl
  next hl =>
    rcases judge_of_ahead (hwaits.resolve_right hl) with hj | hj <;> rw [hj]

end

section
variable {s : State} {r : StrandRef} {d : SReg} {at_ : Nat}

theorem wfeTimeout_eq (h : (s.strandAt r).wait = some (.event d (some at_))) :
    exec (.wfeTimeout r) s = .next (if at_ ≤ s.time then s.modStrandAt r fun t => (t.setS d 0).finishWait else s) := by
  show execWfeTimeout r s = _
  unfold execWfeTimeout
  rw [h]
  simp only [dueAt, decide_eq_true_eq]

theorem blwaitTimeout_eq {job : Nat} (h : (s.strandAt r).wait = some (.blot d job (some at_))) :
    exec (.blwaitTimeout r) s =
      .next (if at_ ≤ s.time then s.modStrandAt r fun t => (t.setS d (s.die (s.package * 4 + r.core / 96)).progress).finishWait else s) := by
  show execBlwaitTimeout r s = _
  unfold execBlwaitTimeout
  rw [h]
  simp only [dueAt, decide_eq_true_eq]
  rfl

end

/-- Settles O41: BARR and BMEMB by the strand's record among the members and the pending joins, BWAIT and BTRY by what the token's distance says,
a generation by who stands in the next one, a wait by its own generation or time. -/
theorem barriers : Obligations.Barriers := by
  unfold Obligations.Barriers
  refine ⟨fun s d a sc => ?members, fun s d a => ?tokens, fun g => ?generations, fun s r d => ?waits⟩
  case members =>
    intro n g me uid agent isMe total at'
    have hagent : agent = agentOfScope sc s.focus.core := by cases sc <;> rfl
    have hn : groupNum (s.getS a) = n := rfl
    have hg : s.group n = g := rfl
    have hbarr := barr_eq s d a
    have hjoin := bmembJoin_eq s d a sc
    have hleave := bmembLeave_eq s d a
    rw [hn] at hbarr hjoin hleave
    clear_value n agent
    subst hagent
    refine ⟨fun ho => ⟨atRoot_refuses hbarr ho, atRoot_refuses hjoin ho, atRoot_refuses hleave ho⟩,
      fun ho hl => ⟨atRoot_waits hbarr ho hl, atRoot_waits hjoin ho hl, atRoot_waits hleave ho hl⟩, ?_⟩
    clear_value g
    exact fun ho hl => ⟨barr_stranger hn hg ho hl, fun m hm hin hstay => barr_arrives hn hg ho hl hm (arrive_first hm hin hstay),
      fun m hm hin hin1 => barr_arrives hn hg ho hl hm (arrive_second hm hin hin1), fun m hm hin hin1 => barr_waits hn hg ho hl hm (arrive_third hm hin hin1),
      fun hv ht => bmembJoin_result hn hg ho hl (join_vacant hv ht), fun hv ht => bmembJoin_result hn hg ho hl (join_full hv ht),
      fun hv hs => bmembJoin_result hn hg ho hl (join_elsewhere hv hs),
      fun hv hs ha hm hj hroom ht => bmembJoin_result hn hg ho hl (join_pends hv hs ha hm hj hroom ht),
      fun hv hs ha h => bmembJoin_result hn hg ho hl (join_again hv hs ha h), fun hm hj => bmembLeave_refused hn hg ho hl (leave_nobody hj hm),
      fun hj => bmembLeave_leaves hn hg ho hl (leave_pending hl hj), fun m hm hj => bmembLeave_leaves hn hg ho hl (leave_member hl hj hm)⟩
  case tokens =>
    intro v n g dist now early both
    have hboth : ∀ o ∈ both, ∃ pend : Group → State, o = .next (s.atRoot n fun g => s.judged d g.c (pend g) (g.judge (v.extractLsb' 32 32))) :=
      List.forall_mem_cons.mpr ⟨⟨_, bwait_eq s d a⟩, List.forall_mem_singleton.mpr ⟨_, btry_eq s d a⟩⟩
    refine ⟨fun ho o hmem => ?refused, fun ho hl o hmem => ?lost, fun ho hl => ⟨fun h o hmem => ?stale, fun h o hmem => ?done,
      fun h => ⟨?pendingTry, ?pendingWait⟩, fun h o hmem => ?future⟩⟩
    case pendingTry =>
      rw [token_pending (btry_eq s d a) rfl ho hl h, barrierStatus_pending]
      exact scalarResult_writes s d _
    case pendingWait => exact completes_next (token_pending (bwait_eq s d a) rfl ho hl h) rfl
    all_goals obtain ⟨pend, heq⟩ := hboth o hmem
    case refused => exact atRoot_refuses heq ho
    case lost => exact atRoot_waits heq ho hl
    case stale => exact token_stale heq rfl ho hl h
    case done => exact token_done heq rfl ho hl h
    case future => exact token_future heq rfl ho hl h
  case generations =>
    refine ⟨fun h => settle_of_not_full ?_, fun hv he ha => settle_completes hv he ha, c_settle g⟩
    rw [← Bool.not_eq_true, full_iff]
    rintro ⟨-, he, ha⟩
    exact h.elim (by simp [he]) fun hnot => hnot ha
  case waits =>
    refine ⟨fun n gen h => ⟨barrierWait_ends h, barrierWait_goes_on h⟩, fun at_ h => ⟨fun hdue => ?_, fun hearly => ?_⟩,
      fun job at_ h => ⟨fun hdue => ?_, fun hearly => ?_⟩⟩
    · rw [wfeTimeout_eq h, if_pos hdue]
      rfl
    · rw [wfeTimeout_eq h, if_neg (by omega)]
    · rw [blwaitTimeout_eq h, if_pos hdue]
      rfl
    · rw [blwaitTimeout_eq h, if_neg (by omega)]

end Sys2Proof.Machine

namespace Sys2Proof.Machine

/-! ## Engine commands join their queues (R247-R258, R305) -/

/-! ### A queue's places and the task that joins (R247, R250, R258) -/

theorem room_iff (x : Ctx) (q : Fin 6) : x.room q = true ↔ x.queued q < 16 := decide_eq_true_iff

theorem room_full {x : Ctx} {q : Fin 6} (h : 16 ≤ x.queued q) : x.room q = false := decide_eq_false (Nat.not_lt.mpr h)

/-- The task that a command becomes when its queue accepts it (R250, R258). -/
def Ctx.newTask (x : Ctx) (strand : Fin 4) (c : Accept) : Task :=
  { num := x.nextTask, strand := strand.val, cmd := c.cmd, op := c.op, vals := c.vals, oc := c.oc, word := c.word, bar := c.bar, phase := x.phaseOfNew
    lead := c.lead.getD x.nextTask, after := c.after, leafs := c.leafs, fmt := if c.cmd.isMatrix then goodFmt x.fwq.head? else none }

theorem accept_eq (x : Ctx) (q : Fin 6) (strand : Fin 4) (c : Accept) : x.accept q strand c =
    { x with queues := x.queues.set q (x.queues[q] ++ [x.newTask strand c]), nextTask := x.nextTask + 1
             fwq := if c.cmd.isMatrix then x.fwq.tail else x.fwq } := rfl

theorem accept_joins (x : Ctx) (q : Fin 6) (strand : Fin 4) (c : Accept) : (x.accept q strand c).queues[q] = x.queues[q] ++ [x.newTask strand c] :=
  Vector.getElem_set_self ..

theorem accept_others (x : Ctx) {q p : Fin 6} (hp : p ≠ q) (strand : Fin 4) (c : Accept) : (x.accept q strand c).queues[p] = x.queues[p] :=
  Vector.getElem_set_ne q.isLt p.isLt fun h => hp (Fin.ext h.symm)

/-- A command without a memory operand changes its context alone. -/
theorem acceptCmd_of_folio {s : State} {c : Accept} (h : cmdHandles c.cmd = []) (q : Fin 6) :
    s.acceptCmd q c = s.modCx fun x => x.accept q (strandIx s.focus) c := by rw [State.acceptCmd, h]; rfl

theorem retireCmds_one (s : State) : s.retireCmds 1 = s.modSt (·.retire 2) := rfl

theorem copyQueue_eq {q : Fin 6} {ch : Fin 4} (h : q.val = 2 + ch.val) : q = copyQueue ch := Fin.ext (h.trans (by simp [copyQueue]; omega))

/-! ### Commands that wait for a place (R247) -/

section
variable {s : State}

theorem issueCopy_waits {ch : Fin 4} (h : 16 ≤ s.cx.queued (copyQueue ch)) (fo : Option FollowOn) (p : Except Nat (Accept × Nat)) :
    issueCopy s ch fo p = s.hold := if_pos (by simp [foRoom, room_full h])

theorem issueMat_waits (h : 16 ≤ s.cx.queued 0) (m : MatCmd) (tag : Option (Fin 16)) : issueMat s m tag = s.hold :=
  if_pos (by rw [matRoom, room_full h]; rfl)

theorem chain_waits (h : 16 ≤ s.cx.queued 1) (c : ChainCmd) : exec (.chain c) s = .next s.hold := if_pos (by rw [room_full h]; rfl)

section
variable {eng : Engine} {ch : Fin 4} {oc : Fin 16} {bar : Bool} {word : TaskWord}

theorem tsem_waits (h : 16 ≤ s.cx.queued (engineQueue eng ch)) : exec (.tsem eng ch oc bar word) s = .next s.hold := if_pos (by rw [room_full h]; rfl)

theorem tsem_accepts (h : s.cx.queued (engineQueue eng ch) < 16) : exec (.tsem eng ch oc bar word) s =
    .next ((s.modCx fun x => x.accept (engineQueue eng ch) (strandIx s.focus) { cmd := .null, op := .tsem eng ch oc bar word, oc := oc, bar := bar, word := word }).modSt
      (·.retire 2)) := if_neg (by rw [(room_iff _ _).mpr h]; decide)

end

end

/-- Settles O27: TSEM by whether its queue has a place, the other commands that wait by the queue they need, the format word by what accepting a command takes. -/
theorem taskAcceptance : Obligations.TaskAcceptance := by
  unfold Obligations.TaskAcceptance
  intro s eng ch oc bar word q hq
  have hqueue : q = engineQueue eng ch := by
    cases eng with
    | le => exact Fin.ext hq
    | ve => exact Fin.ext hq
    | ce => exact copyQueue_eq hq
  refine ⟨fun hroom => ?accepts, fun hfull => ?waits, fun c hc hfull => ?cpy, fun c hc hfull => ?cpyo, fun h0 hfull c tag => ?mat, fun h1 hfull c => ?chain,
    fun x i c => ⟨x.newTask i c, accept_joins x q i c, rfl, rfl, rfl, rfl, rfl⟩⟩
  case accepts =>
    rw [hqueue] at hroom ⊢
    refine ⟨_, s.cx.newTask (strandIx s.focus) { cmd := .null, op := .tsem eng ch oc bar word, oc := oc, bar := bar, word := word }, tsem_accepts hroom, fun k => rfl, ?_, ?_, fun p hp => ?_, ?_, ?_, rfl, rfl, rfl, rfl, rfl, rfl, rfl⟩
    · rw [st_modSt, st_modCx]; rfl
    · rw [cx_modSt, cx_modCx]; exact accept_joins ..
    · rw [cx_modSt, cx_modCx]; exact accept_others s.cx hp _ _
    · rw [cx_modSt, cx_modCx]; rfl
    · rw [cx_modSt, cx_modCx]; rfl
  case waits => exact completes_next (tsem_waits (hqueue ▸ hfull)) rfl
  case cpy => exact completes_next (congrArg Host.Outcome.next (issueCopy_waits (copyQueue_eq hc ▸ hfull) _ _)) rfl
  case cpyo => exact completes_next (congrArg Host.Outcome.next (issueCopy_waits (copyQueue_eq hc ▸ hfull) _ _)) rfl
  case mat =>
    have hle : 16 ≤ s.cx.queued 0 := h0 ▸ hfull
    exact ⟨completes_next (congrArg Host.Outcome.next (issueMat_waits hle c none)) rfl, completes_next (congrArg Host.Outcome.next (issueMat_waits hle c (some tag))) rfl⟩
  case chain => exact completes_next (chain_waits (h1 ▸ hfull) c) rfl

/-! ### CPY and CPYO (R253-R256) -/

/-- A row descriptor that a copy takes: no row length of 0 or above 2^24, no reserved bit (R253). -/
abbrev goodRows (h : Word) : Prop := 1 ≤ h.toNat % 2 ^ 25 ∧ h.toNat % 2 ^ 25 ≤ 2 ^ 24 ∧ h.extractLsb' 25 7 = 0 ∧ h.extractLsb' 48 16 = 0

theorem copyRows_iff (h : Word) : ¬(fld h 24 0 = 0 || fld h 24 0 > 2 ^ 24 || fld h 31 25 ≠ 0 || fld h 63 48 ≠ 0) = true ↔
    goodRows h := by
  rw [fld_lower h 24, fld_eq_toNat (w := 7) h rfl, fld_eq_toNat (w := 16) h rfl]
  simp [goodRows, ← BitVec.toNat_inj, Nat.one_le_iff_ne_zero, and_assoc]

section
variable {s : State} {ch : Fin 4} (hroom : s.cx.queued (copyQueue ch) < 16)
include hroom

theorem issueCopy_refuses (e : Nat) : issueCopy s ch none (.error e) = s.trap e 0 0 :=
  if_neg (by simp [foRoom, (room_iff _ _).mpr hroom])

theorem issueCopy_accepts (a : Accept) (n : Nat) : issueCopy s ch none (.ok (a, n)) =
    ((s.acceptCmd (copyQueue ch) a).modCx fun x => { x with it := x.it.set ch (x.it[ch] + BitVec.ofNat 64 n) }).retireCmds 1 :=
  if_neg (by simp [foRoom, (room_iff _ _).mpr hroom])

end

section
variable {s : State} {c : CpyCmd}

theorem copyEnds_eq (dir : CpyDir) : copyEnds dir = (decide (dir = .f2m ∨ dir = .f2f), decide (dir = .m2f ∨ dir = .f2f)) := by cases dir <;> rfl

theorem planCpy_bad (h : ¬goodRows (s.getS c.c)) : planCpy s c = .error 0x11 := if_pos (by_contra fun hn => h ((copyRows_iff _).mp hn))

/-- A copy between good endpoints: its command, and the bytes it moves. -/
theorem planCpy_good (h : goodRows (s.getS c.c)) {rows ss ds : Nat} (hrows : rows = ((s.getS c.c).extractLsb' 32 16).toNat + 1)
    (hss : ss = (s.getS c.d).toNat % 2 ^ 32) (hds : ds = (s.getS c.d).toNat / 2 ^ 32) {src dst : Place}
    (hsrc : endpointOf s (c.dir = .f2m ∨ c.dir = .f2f) (s.getS c.a) ((rows - 1) * ss + (s.getS c.c).toNat % 2 ^ 25) false = .ok src)
    (hdst : endpointOf s (c.dir = .m2f ∨ c.dir = .f2f) (s.getS c.b) ((rows - 1) * ds + (s.getS c.c).toNat % 2 ^ 25) true = .ok dst) :
    ∃ a : Accept, planCpy s c = .ok (a, rows * ((s.getS c.c).toNat % 2 ^ 25))
      ∧ a.cmd = .copy src dst (s.getS c.b) ((s.getS c.c).toNat % 2 ^ 25) rows ss ds c.crc ∧ a.word = c.task := by
  rw [← fld_eq_toNat (hi := 47) _ rfl] at hrows
  rw [← fld_upper _ (by decide)] at hds
  subst hrows hss hds
  unfold planCpy
  dsimp only
  rw [if_neg ((copyRows_iff _).mpr h)]
  simp only [copyEnds_eq, extentOf, fld_lower]
  rw [hsrc]
  dsimp only
  rw [hdst]
  exact ⟨_, rfl, rfl, rfl⟩

end

section
variable {s : State} {o : CpyoCmd}

theorem planCpyo_bad (h : 512 ≤ (s.getS o.b).toNat ∨ (s.getS o.c).toNat = 0 ∨ 65536 < (s.getS o.c).toNat) : planCpyo s o = .error 0x11 := by
  refine if_pos ?_
  rw [fld_upper _ (by decide)]
  simp
  omega

/-- A copy into an operand-folio slot. -/
theorem planCpyo_good (hslot : (s.getS o.b).toNat < 512) (h1 : 1 ≤ (s.getS o.c).toNat) (h2 : (s.getS o.c).toNat ≤ 65536) {src : Place}
    (hsrc : endpointOf s o.fol (s.getS o.a) (s.getS o.c).toNat false = .ok src) :
    ∃ a : Accept, planCpyo s o = .ok (a, (s.getS o.c).toNat) ∧ a.cmd = .copyO src (s.getS o.b).toNat (s.getS o.c).toNat ∧ a.word = o.task := by
  have hlow : fld (s.getS o.b) 8 0 = (s.getS o.b).toNat := Nat.mod_eq_of_lt hslot
  have hchecks : ¬(fld (s.getS o.b) 63 9 ≠ 0 || (s.getS o.c).toNat = 0 || (s.getS o.c).toNat > 65536) = true := by
    rw [fld_upper _ (by decide)]
    simp
    omega
  unfold planCpyo
  dsimp only
  rw [if_neg hchecks, hsrc, hlow]
  exact ⟨_, rfl, rfl, rfl⟩

end

theorem cpy_eq {s : State} {c : CpyCmd} (hfo : c.fo = none) : exec (.cpy c) s = .next (issueCopy s c.ch none (planCpy s c)) := by
  show Host.Outcome.next (issueCopy s c.ch c.fo (planCpy s c)) = _
  rw [hfo]

theorem cpyo_eq {s : State} {o : CpyoCmd} (hfo : o.fo = none) : exec (.cpyo o) s = .next (issueCopy s o.ch none (planCpyo s o)) := by
  show Host.Outcome.next (issueCopy s o.ch o.fo (planCpyo s o)) = _
  rw [hfo]

/-- A copy from folio to folio names no handle, so that accepting it changes its context alone. -/
theorem accepted_folio {s : State} {a : Accept} (h : cmdHandles a.cmd = []) (ch : Fin 4) (n : Nat) :
    let u := ((s.acceptCmd (copyQueue ch) a).modCx fun x => { x with it := x.it.set ch (x.it[ch] + BitVec.ofNat 64 n) }).retireCmds 1
    (∀ k, u.rawByte k = s.rawByte k) ∧ u.st = s.st.retire 2
      ∧ u.cx.queues[copyQueue ch] = s.cx.queues[copyQueue ch] ++ [s.cx.newTask (strandIx s.focus) a]
      ∧ u.cx.it[ch] = s.cx.it[ch] + BitVec.ofNat 64 n ∧ u.cx.wp = s.cx.wp := by
  intro u
  have hu : u = (s.modCx fun x => { x.accept (copyQueue ch) (strandIx s.focus) a with it := x.it.set ch (x.it[ch] + BitVec.ofNat 64 n) }).modSt (·.retire 2) := by
    simp only [u, acceptCmd_of_folio h, modCx_modCx]
    rfl
  clear_value u
  subst hu
  refine ⟨fun k => rfl, ?_, ?_, ?_, ?_⟩
  · rw [st_modSt, st_modCx]
    rfl
  all_goals rw [cx_modSt, cx_modCx]
  · exact accept_joins ..
  · exact Vector.getElem_set_self ..
  · rfl

/-- Settles O29: the checks at issue decide what a copy is planned as, and a planned copy is accepted with its issued pointer raised. -/
theorem copyCommand : Obligations.CopyCommand := by
  unfold Obligations.CopyCommand
  intro s c o h rowLen rows ss ds good q len
  refine ⟨fun hfo hroom => ⟨fun hbad => ?bad, fun hgood hdir => ?folio, fun hgood src dst hsrc hdst => ?accepts⟩,
    fun hfo hroom => ⟨fun hbad => ?obad, fun hslot h1 h2 src hsrc => ?oaccepts⟩⟩
  case bad =>
    rw [cpy_eq hfo, planCpy_bad hbad, issueCopy_refuses hroom]
    exact trap_takes s _ _ _
  case folio =>
    obtain ⟨a, hplan, hcmd, -⟩ := planCpy_good (c := c) (src := .fol (s.getS c.a)) (dst := .fol (s.getS c.b)) hgood rfl rfl rfl (by simp [hdir, endpointOf]) (by simp [hdir, endpointOf])
    obtain ⟨hbytes, hstrand, hqueue, hit, hwp⟩ := accepted_folio (s := s) (a := a) (by rw [hcmd]; rfl) c.ch (rows * rowLen)
    exact ⟨_, _, by rw [cpy_eq hfo, hplan, issueCopy_accepts hroom], hbytes, hstrand, hqueue, hcmd, hit, hwp⟩
  case accepts =>
    obtain ⟨a, hplan, hcmd, hword⟩ := planCpy_good hgood rfl rfl rfl hsrc hdst
    exact ⟨a, hcmd, hword, by rw [cpy_eq hfo, hplan, issueCopy_accepts hroom]; rfl⟩
  case obad =>
    rw [cpyo_eq hfo, planCpyo_bad hbad, issueCopy_refuses hroom]
    exact trap_takes s _ _ _
  case oaccepts =>
    obtain ⟨a, hplan, hcmd, hword⟩ := planCpyo_good hslot h1 h2 hsrc
    exact ⟨a, hcmd, hword, by rw [cpyo_eq hfo, hplan, issueCopy_accepts hroom]; rfl⟩

/-! ### CWPTR, FWPUT and CHPOP (R256, R258, R305) -/

/-- With nothing held at its head, the oldest element is taken. -/
theorem takeElem_ready (v : Word) (r : List PortElem) : takeElem (⟨v, none⟩ :: r) = some (v, r) := rfl

theorem takeElem_held {l : List PortElem} (h : ∀ e ∈ l, e.held ≠ none) : takeElem l = none := by
  induction l with
  | nil => rfl
  | cons e l ih =>
    obtain ⟨he, hl⟩ := List.forall_mem_cons.mp h
    rw [takeElem, if_neg (by simpa using he), ih hl]
    rfl

section
variable {s : State} {a d : SReg} {port : Fin 4}

theorem fwput_joins (h : s.cx.fwq.length < 16) : exec (.fwput a) s = .next (s.modCx fun x => { x with fwq := x.fwq ++ [s.getS a] }).retire :=
  if_neg (Nat.not_le.mpr h)

theorem fwput_waits (h : 16 ≤ s.cx.fwq.length) : exec (.fwput a) s = .next s.hold := if_pos h

/-- A context whose strand waits for an element of a result port. -/
def Ctx.asksPort (x : Ctx) (i : Fin 4) (d : SReg) (port : Fin 4) : Ctx :=
  { x with popq := x.popq ++ [(port.val, i.val)] }.modStrand i fun t => { t with wait := some (.chpop d port) }

theorem chpop_bound (h : producerQueue s s.focus.core s.focus.slot 1 port.val ≠ none) : exec (.chpop d port) s = .next (s.trap 0x09 0 0) :=
  if_pos (Option.isSome_iff_ne_none.mpr h)

theorem chpop_asks (h : producerQueue s s.focus.core s.focus.slot 1 port.val = none) :
    exec (.chpop d port) s = .next (s.modCx fun x => (x.asksPort (strandIx s.focus) d port).pops) := if_neg (by rw [h]; decide)

end

theorem ofNat_val (i : Fin 4) : (Fin.ofNat 4 i.val : Fin 4) = i := Fin.ext (Nat.mod_eq_of_lt i.isLt)

/-- A wait's end does not depend on what was waited for. -/
theorem finishWait_setS (t : Strand) (w : Option Wait) (d : SReg) (v : Word) :
    ({ t with wait := w }.setS d v).finishWait = { (t.setS d v).retire 1 with wait := none } := by
  have hw : { ({ t with wait := w }.setS d v) with wait := none } = { t.setS d v with wait := none } := by
    unfold Strand.setS
    split <;> rfl
  exact (congrArg (·.retire 1) hw).trans (finishWait_eq _)

section
variable {x : Ctx} {i port : Fin 4} {d : SReg}

theorem servePops_takes {v : Word} {rest : List PortElem} (ht : takeElem x.ports[port] = some (v, rest)) (hw : x.strands[i].wait = some (.chpop d port)) :
    servePops [(port.val, i.val)] [] x = ({ x with ports := x.ports.set port rest }.modStrand i fun t => (t.setS d v).finishWait, []) := by
  unfold servePops
  simp only [ofNat_val]
  rw [ht, hw]
  rfl

theorem servePops_waits (ht : takeElem x.ports[port] = none) : servePops [(port.val, i.val)] [] x = (x, [(port.val, i.val)]) := by
  unfold servePops
  simp only [ofNat_val]
  rw [ht]
  rfl

theorem asksPort_strand : (x.asksPort i d port).strands[i] = { x.strands[i] with wait := some (.chpop d port) } := strands_modStrand ..

theorem asksPort_popq (hq : x.popq = []) : (x.asksPort i d port).popq = [(port.val, i.val)] := by rw [Ctx.asksPort, hq]; rfl

/-- The only strand that asks takes the element at the head of its port. -/
theorem pops_takes (hq : x.popq = []) {v : Word} {r : List PortElem} (hp : x.ports[port] = ⟨v, none⟩ :: r) : (x.asksPort i d port).pops =
    { x.asksPort i d port with ports := x.ports.set port r, popq := [] }.modStrand i fun t => (t.setS d v).finishWait := by
  unfold Ctx.pops
  rw [asksPort_popq hq, servePops_takes (x := x.asksPort i d port) ((congrArg takeElem hp).trans (takeElem_ready v r)) (congrArg Strand.wait asksPort_strand)]
  rfl

/-- Where every element is held, the strand stays in the line of its port. -/
theorem pops_waits (hq : x.popq = []) (hp : ∀ e ∈ x.ports[port], e.held ≠ none) : (x.asksPort i d port).pops = x.asksPort i d port := by
  unfold Ctx.pops
  rw [asksPort_popq hq, servePops_waits (x := x.asksPort i d port) (takeElem_held hp)]
  dsimp only
  rw [← asksPort_popq (i := i) (d := d) (port := port) hq]

end

section
variable {s : State} {d : SReg} {port : Fin 4} (hb : producerQueue s s.focus.core s.focus.slot 1 port.val = none) (hq : s.cx.popq = [])
include hb hq

theorem chpop_takes {v : Word} {r : List PortElem} (hp : s.cx.ports[port] = ⟨v, none⟩ :: r) : ∃ t, exec (.chpop d port) s = .next t ∧ (∀ k, t.rawByte k = s.rawByte k)
    ∧ t.cx.ports[port] = r ∧ t.cx.popq = [] ∧ t.st = { s.st.retire 1 with s := t.st.s, wait := none } ∧ WritesS s.st t.st d v := by
  obtain ⟨t, ht⟩ : ∃ t, t = s.modCx fun x => (x.asksPort (strandIx s.focus) d port).pops := ⟨_, rfl⟩
  have hcx := (congrArg State.cx ht).trans (cx_modCx ..)
  rw [pops_takes hq hp] at hcx
  have hst : t.st = { (s.st.setS d v).retire 1 with wait := none } := by
    rw [ht, st_modCx, pops_takes hq hp]
    refine (strands_modStrand ..).trans ?_
    show ((s.cx.asksPort (strandIx s.focus) d port).strands[strandIx s.focus].setS d v).finishWait = _
    rw [asksPort_strand]
    exact finishWait_setS ..
  refine ⟨t, (chpop_asks hb).trans (by rw [ht]), fun k => by rw [ht]; rfl, ?_, ?_, ?_, writesS_set _ _ _ _ ?_⟩
  · rw [hcx]; exact Vector.getElem_set_self ..
  · rw [hcx]; rfl
  · rw [hst, retire_setS]
  · rw [hst, retire_setS]

theorem chpop_waits (hp : ∀ e ∈ s.cx.ports[port], e.held ≠ none) : ∃ t, exec (.chpop d port) s = .next t ∧ (∀ k, t.rawByte k = s.rawByte k)
    ∧ t.cx.ports = s.cx.ports ∧ t.cx.popq = [(port.val, (strandIx s.focus).val)] ∧ t.st = { s.st with wait := some (.chpop d port) } := by
  refine ⟨_, chpop_asks hb, fun k => rfl, ?_, ?_, ?_⟩
  · rw [cx_modCx, pops_waits hq hp]; rfl
  · rw [cx_modCx, pops_waits hq hp, asksPort_popq hq]
  · rw [st_modCx, pops_waits hq hp]; exact asksPort_strand

end

/-- Settles O31: the pointers are read; FWPUT by the length of its queue; CHPOP by whether its port is bound and what serving its line finds there. -/
theorem engineRegisterResult : Obligations.EngineRegisterResult := by
  unfold Obligations.EngineRegisterResult
  refine fun s d a ch port => ⟨scalarResult_writes s d _, scalarResult_writes s d _, fun h => completes_next (fwput_joins h) rfl,
    fun h => completes_next (fwput_waits h) rfl, fun h => ?_, fun hb hq v r hp => chpop_takes hb hq hp, fun hb hq hp => chpop_waits hb hq hp⟩
  rw [chpop_bound h]
  exact trap_takes s _ _ _

end Sys2Proof.Machine

namespace Sys2Proof.Machine

/-! ## Work objects (R262-R265) -/

theorem mem_modUid (s : State) (uid : Nat) (f : Ctx → Ctx) : (s.modUid uid f).mem = s.mem := by
  unfold State.modUid
  split
  · exact mem_putCtx ..
  · rfl

theorem mem_reportWork (n : Nat) (s : State) (key : Nat) : (reportWork n s key).mem = s.mem := by
  induction n generalizing s key with
  | zero => rfl
  | succ n ih =>
    unfold reportWork
    split
    · rfl
    · split
      · rfl
      · extract_lets s1 s2
        have h2 : s2.mem = s.mem := by
          unfold s2
          split
          · exact mem_modUid ..
          · rfl
        split
        · exact h2
        · refine (ih _ _).trans ?_
          split
          · exact h2
          · exact h2

/-! ### Words of operands and answers (R261, R263) -/

/-- A number of 32 bits has no high half. -/
theorem high_zero_iff (v : Word) : fld v 63 32 = 0 ↔ v.toNat < 2 ^ 32 := by
  rw [fld_upper v (by decide)]
  omega

theorem fld_low_of_lt {v : Word} (h : v.toNat < 2 ^ 32) : fld v 31 0 = v.toNat := Nat.mod_eq_of_lt h

theorem idWord_done (n : Nat) : idWord stDone n = BitVec.ofNat 64 (n % 2 ^ 32) := by simp [idWord, stDone]

theorem idWord_badTarget : idWord stBadTarget 0 = (5 <<< 32 : Nat) := by decide

theorem idWord_busy : idWord stBusy 0 = (11 <<< 32 : Nat) := by decide

/-- The notice that an operand word asks of a new object (R263). -/
def noticeOf (uid : Nat) (v : Word) : Option (Nat × Nat × Nat) :=
  if (v.extractLsb' 8 24).toNat = 0 then none else some (uid, v.toNat % 256, (v.extractLsb' 8 24).toNat)

/-! ### Opening (R263) -/

theorem mem_newWork (s : State) (w : Work) (parent : Nat) : (newWork s w parent).1.mem = s.mem := by
  have hjob : (ensureJob s w.job).mem = s.mem := by
    unfold ensureJob
    split
    · rfl
    · rfl
  show (addChild (ensureJob s w.job) parent).mem = s.mem
  unfold addChild
  split
  · exact hjob
  · exact hjob

section
variable {s : State} {d : SReg} {level parent : Nat} {v : Word} {ok : Bool}

theorem openWork_refuses (h : ¬(v.toNat < 2 ^ 32 ∧ ok = true ∧ jobOpen s s.cx.job = true)) :
    openWork s d level parent v ok = s.status d (idWord stBadTarget 0) := by
  refine if_pos ?_
  rw [← high_zero_iff] at h
  simpa [imp_iff_not_or, or_assoc] using h

variable (hv : v.toNat < 2 ^ 32) (hok : ok = true) (hj : jobOpen s s.cx.job = true)
include hv hok hj

theorem openWork_busy (h : ¬s.works.length + workNeed s s.cx.job ≤ 65536) : openWork s d level parent v ok = s.status d (idWord stBusy 0) :=
  (if_neg (by simp [(high_zero_iff v).mpr hv, hok, hj])).trans (if_pos (Nat.lt_of_not_le h))

theorem openWork_makes (h : s.works.length + workNeed s s.cx.job ≤ 65536) : openWork s d level parent v ok =
    (newWork s { level := level, job := s.cx.job, notice := noticeOf s.cx.uid v } parent).1.status d (BitVec.ofNat 64 (s.fresh % 2 ^ 32)) := by
  have hid : idWord stDone (s.fresh % 2 ^ 32) = BitVec.ofNat 64 (s.fresh % 2 ^ 32) := by rw [idWord_done, Nat.mod_mod]
  have hnotice : (if fld v 31 8 = 0 then none else some (s.cx.uid, fld v 7 0, fld v 31 8)) = noticeOf s.cx.uid v := by
    rw [fld_eq_toNat (w := 24) v rfl]
    rfl
  refine (if_neg (by simp [(high_zero_iff v).mpr hv, hok, hj])).trans ((if_neg (Nat.not_lt.mpr h)).trans ?_)
  rw [hnotice, ← hid]
  rfl

end

/-- The parent that GRAPH.OPEN names: the job itself, or an open work phase of it. -/
abbrev goodParent (s : State) (p : Word) : Prop := p = 0 ∨ (p.toNat < 2 ^ 32 ∧ openOf s 3 p.toNat s.cx.job = true)

section
variable {s : State} {d a b : SReg}

theorem goodParent_iff (p : Word) : (fld p 63 32 == 0 && (fld p 31 0 == 0 || openOf s 3 (fld p 31 0) s.cx.job)) = true ↔ goodParent s p := by
  have hzero : p = 0 ↔ p.toNat = 0 := BitVec.toNat_inj.symm
  simp only [Bool.and_eq_true, Bool.or_eq_true, beq_iff_eq, high_zero_iff, goodParent, hzero]
  by_cases h : p.toNat < 2 ^ 32
  · rw [fld_low_of_lt h]
    tauto
  · have hne : p.toNat ≠ 0 := by omega
    tauto

/-- The key under which GRAPH.OPEN puts the graph. -/
theorem parent_key (h : goodParent s (s.getS b)) :
    (if fld (s.getS b) 31 0 = 0 then jobKey s.cx.job else workKey 3 (fld (s.getS b) 31 0)) = if s.getS b = 0 then jobKey s.cx.job else workKey 3 (s.getS b).toNat := by
  rcases h with h | ⟨h, -⟩
  · rw [h]; rfl
  · rw [fld_low_of_lt h]
    have hzero : (s.getS b).toNat = 0 ↔ s.getS b = 0 := BitVec.toNat_inj (y := 0)
    exact if_congr hzero rfl rfl

end

/-! ### Closing (R263) -/

section
variable {s : State} {d : SReg} {level : Nat} {v : Word}

theorem closeWork_refuses (h : 2 ^ 32 ≤ v.toNat ∨ openOf s level v.toNat s.cx.job = false) : closeWork s d level v = s.status d (idWord stBadTarget 0) := by
  unfold closeWork
  dsimp only
  split
  next w hw =>
    rw [if_pos]
    by_cases hv : v.toNat < 2 ^ 32
    · rw [fld_low_of_lt hv] at hw
      have hclosed := h.resolve_left (Nat.not_le.mpr hv)
      rw [openOf, hw] at hclosed
      simpa [imp_iff_not_or, or_assoc] using Or.inr hclosed
    · simp [mt (high_zero_iff v).mp hv]
  next => rfl

theorem closeWork_seals {w : Work} (hv : v.toNat < 2 ^ 32) (hw : SMap.find s.works (workKey level v.toNat) = some w) (hopen : w.sealed_ = false) (hjob : w.job = s.cx.job) :
    closeWork s d level v =
      pruneWorks (reportWork 4 { s.status d v with works := SMap.set s.works (workKey level v.toNat) { w with sealed_ := true } } (workKey level v.toNat)) := by
  have hid : idWord stDone v.toNat = v := by
    rw [idWord_done, Nat.mod_eq_of_lt hv, BitVec.ofNat_toNat, BitVec.setWidth_eq]
  unfold closeWork
  dsimp only
  rw [fld_low_of_lt hv, hw]
  dsimp only
  rw [if_neg (by simp [(high_zero_iff v).mpr hv, hopen, hjob]), hid]
  rfl

end

/-! ### The counter word (R262, R264) -/

theorem ofBool_shift (p : Prop) {_ : Decidable p} (b : Bool) (h : b = true ↔ p) (k : Nat) :
    (BitVec.ofBool b).setWidth 64 <<< k = ((if p then 1 <<< k else 0 : Nat) : Word) := by
  by_cases hp : p
  · rw [if_pos hp, h.mpr hp]
    exact BitVec.eq_of_toNat_eq (by simp [Nat.shiftLeft_eq])
  · rw [if_neg hp, Bool.eq_false_iff.mpr (mt h.mp hp)]
    exact BitVec.zero_shiftLeft ..

theorem complete_iff (w : Work) : w.complete = true ↔ w.sealed_ = true ∧ w.ndone + w.nfailed = w.total := by simp [Work.complete]

theorem counter_eq (w : Work) : w.counter =
    ((if w.sealed_ = true ∧ w.ndone + w.nfailed = w.total then 1 <<< 63 else 0 : Nat) ||| (if w.cancelled then 1 <<< 62 else 0 : Nat) ||| (if w.sealed_ then 1 <<< 61 else 0 : Nat)
      ||| BitVec.ofNat 64 (w.level % 16) <<< 57 ||| BitVec.ofNat 64 (w.total % 2 ^ 19) <<< 38 ||| BitVec.ofNat 64 (w.ndone % 2 ^ 19) <<< 19
      ||| BitVec.ofNat 64 (w.nfailed % 2 ^ 19) : Word) := by
  rw [Work.counter, ofBool_shift _ _ (complete_iff w), ofBool_shift _ _ Iff.rfl, ofBool_shift _ _ Iff.rfl]

section
variable {s : State} {d a : SReg}

theorem cntr_unnamed (h : namedWork s (s.getS a) = none) : exec (.cntr d a) s = scalarResult s d 0 := by
  show execCntr d a s = _
  unfold execCntr
  rw [h]

theorem cntr_named {key : Nat} {w : Work} (h : namedWork s (s.getS a) = some (key, w)) : exec (.cntr d a) s = scalarResult s d w.counter := by
  show execCntr d a s = _
  unfold execCntr
  rw [h]

theorem cancel_unnamed (h : namedWork s (s.getS a) = none) : exec (.cancel d a) s = .next (s.status d stBadTarget) := by
  show execCancel d a s = _
  unfold execCancel
  rw [h]

theorem cancel_named {key : Nat} {w : Work} (h : namedWork s (s.getS a) = some (key, w)) : exec (.cancel d a) s = .next (cancelWork (s.status d stDone) key) := by
  show execCancel d a s = _
  unfold execCancel
  rw [h]

end

/-- Settles O32: an open by its operands and the room of the table, a close by whether the object named is open, CNTR and CANCEL by whether it is the job's. -/
theorem workObjectResult : Obligations.WorkObjectResult := by
  unfold Obligations.WorkObjectResult
  intro s d a b v p job room notice under graph phase sealed
  have hbad : ∀ u : State, u = s.status d (idWord stBadTarget 0) → ScalarWrite s (.next u) d (5 <<< 32 : Nat) := fun u hu => by
    rw [hu, idWord_badTarget]
    exact status_writes s d _
  have hbusy : ∀ u : State, u = s.status d (idWord stBusy 0) → ScalarWrite s (.next u) d (11 <<< 32 : Nat) := fun u hu => by
    rw [hu, idWord_busy]
    exact status_writes s d _
  have hseal : ∀ level w, (sealed level w).mem = s.mem := fun level w => mem_reportWork ..
  have hgraph : exec (.graphOpen d a b) s = .next (openWork s d 2 _ v _) := rfl
  refine ⟨fun hv hu hj hroom => completes_next (hgraph.trans ?makesGraph) (mem_newWork ..),
    fun hv hu hj hfull => hbusy _ (openWork_busy hv ((goodParent_iff p).mpr hu) hj hfull),
    fun h => hbad _ (openWork_refuses fun ⟨hv, hok, hj⟩ => ?refusesGraph),
    fun hv hj hroom => completes_next (congrArg _ (openWork_makes hv rfl hj hroom)) (mem_newWork ..),
    fun hv hj hfull => hbusy _ (openWork_busy hv rfl hj hfull),
    fun h => hbad _ (openWork_refuses fun ⟨hv, _, hj⟩ => ?refusesPhase),
    fun w hv hw hopen hjob => completes_next (congrArg _ (closeWork_seals hv hw hopen hjob)) (hseal 2 w),
    fun h => hbad _ (closeWork_refuses h),
    fun w hv hw hopen hjob => completes_next (congrArg _ (closeWork_seals hv hw hopen hjob)) (hseal 3 w),
    fun h => hbad _ (closeWork_refuses h),
    fun h => ⟨cntr_unnamed h ▸ scalarResult_writes s d 0, cancel_unnamed h ▸ status_writes s d _⟩,
    fun key w h => ⟨?counter, cancel_named h⟩⟩
  case makesGraph => rw [openWork_makes hv ((goodParent_iff p).mpr hu) hj hroom, parent_key hu]; rfl
  case counter =>
    rw [cntr_named h, ← counter_eq]
    exact scalarResult_writes s d _
  case refusesGraph =>
    rcases h with h | h | h
    · exact absurd hv (Nat.not_lt.mpr h)
    · exact h ((goodParent_iff p).mp hok)
    · exact absurd hj (by rw [h]; decide)
  case refusesPhase =>
    rcases h with h | h
    · exact absurd hv (Nat.not_lt.mpr h)
    · exact absurd hj (by rw [h]; decide)

/-! ## Launches (R260, R261) -/

section
variable {s : State} {m : Maker} {ws : List Word}

theorem createLaunch_badImage (h : parseRecord s m ws = none) : createLaunch s m ws = (s, stBadImage, 0) := by
  unfold createLaunch
  rw [h]

variable {r : Record} (hr : parseRecord s m ws = some r)
include hr

/-- A core named twice, or a graph that is not open, is refused (R261). -/
theorem createLaunch_badTarget (h : ¬r.spec.cores.Nodup ∨ (r.graph ≠ 0 ∧ openOf s 2 r.graph m.job = false)) : createLaunch s m ws = (s, stBadTarget, 0) := by
  unfold createLaunch
  rw [hr]
  refine if_pos ?_
  rcases h with h | ⟨hg, ho⟩
  · simp [h]
  · simp [hg, ho]

variable (hg : r.graph = 0) (hcores : r.spec.cores.Nodup) (hallowed : ∀ c ∈ r.spec.cores, coreAllowed s m c = true) (hj : jobOpen s m.job = true) (hp : r.spec.preds = [])
include hg hcores hallowed hj hp

theorem createLaunch_busy (h : 65536 < s.works.length + workNeed s m.job) : createLaunch s m ws = (s, stBusy, 0) := by
  unfold createLaunch
  rw [hr]
  refine (if_neg ?_).trans (if_pos h)
  simpa [hg, hcores, hj, hp] using hallowed

theorem createLaunch_done (h : s.works.length + workNeed s m.job ≤ 65536) : ∃ t, createLaunch s m ws = (t, stDone, s.fresh % 2 ^ 32) := by
  unfold createLaunch
  rw [hr]
  refine ⟨_, (if_neg ?_).trans ((if_neg (Nat.not_lt.mpr h)).trans rfl)⟩
  simpa [hg, hcores, hj, hp] using hallowed

end

/-- LAUNCH reads its record in two accesses (R261). -/
theorem launch_reads {s : State} {d : SReg} {a : AReg} {disp : BitVec 32} {oc : Fin 16} (ha : (s.getA a + disp.signExtend 64).toNat % 64 = 0)
    {xs ys : List Xl} {hb tb : List Byte} (hread : s.readVa s.agent .rd (s.getA a + disp.signExtend 64) 128 = .ok (xs, hb)) (hwait : hostWaits s s.cx xs false = false) :
    let s1 := counted s xs false 128
    let tail := recordTail (wordsOf hb)
    s1.readVa s1.agent .rd (s.getA a + disp.signExtend 64 + 128) tail = .ok (ys, tb) → hostWaits s1 s1.cx ys false = false →
      let s2 := counted s1 ys false tail
      let r := createLaunch s2 (makerOf s2.cx) (wordsOf (hb ++ tb))
      exec (.launch d a disp oc) s = .next (r.1.status d (idWord r.2.1 r.2.2)) := by
  intro s1 tail htail hwait1 s2 r
  refine (alignedFirst_goes _ ha).trans ?_
  rw [withRead_ok _ hread hwait, withRead_ok _ htail hwait1]

/-! ## Units are placed (R353, R354, R365) -/

/-! ### A structure written in memory leaves the bytes of other sectors alone -/

theorem rawByte_prepSectors_other (s : State) (k j : Nat) (keys : Option (BitVec 768)) {l : List Nat} (h : ∀ i ∈ l, j / 64 ≠ (k + i) / 64) :
    (l.foldl (fun t i => t.prepSector (k + i) keys) s).rawByte j = s.rawByte j := by
  induction l generalizing s with
  | nil => rfl
  | cons i l ih =>
    obtain ⟨hi, hl⟩ := List.forall_mem_cons.mp h
    exact (ih _ hl).trans (rawByte_prepSector_other s (k + i) j keys hi)

theorem rawByte_writeMa_other (s : State) {o ma n j : Nat} {bs : List Byte} (hk : maKey o ma % 64 = 0) (hn : n % 64 = 0) (hlen : bs.length ≤ n)
    (hj : j < maKey o ma ∨ maKey o ma + n ≤ j) : (s.writeMa o ma bs).rawByte j = s.rawByte j := by
  unfold State.writeMa
  rw [rawByte_of_mem (mem_serveEvery ..), rawByte_of_mem (mem_clearPoison ..), rawByte_setRaws, if_neg (by omega)]
  refine rawByte_prepSectors_other s _ j none fun i hi => ?_
  have hlt := List.mem_range.mp hi
  omega

theorem maKey_aligned (o : Nat) {ma : Nat} (h : ma % 64 = 0) : maKey o ma % 64 = 0 := by
  unfold maKey
  omega

theorem length_handleBytes (ws : List Word) (n : Nat) : ((ws.take n).flatMap fun w => leBytes 8 w.toNat).length ≤ 8 * n := by
  rw [List.length_flatMap]
  simp only [length_leBytes, List.map_const', List.sum_replicate, List.length_take, smul_eq_mul]
  omega

/-! ### What a unit's images change (R40, R187) -/

theorem slots_fillLeaves (k : Core) (l : List (Nat × Nat)) (bs : Nat → List Byte) :
    (l.foldl (fun k e => k.fillLeaf e.1 (bs e.2)) k).slots = k.slots ∧ (l.foldl (fun k e => k.fillLeaf e.1 (bs e.2)) k).shadows = k.shadows :=
  List.foldlRecOn (motive := fun u : Core => u.slots = k.slots ∧ u.shadows = k.shadows) l _ ⟨rfl, rfl⟩ fun _ hu _ _ => hu

theorem findCtx_loadSections (s : State) (core : Nat) (x : Ctx) (p : Sections) (ref : CtxRef) : (loadSections s core x p).findCtx ref = s.findCtx ref := by
  unfold loadSections
  extract_lets part s1 s2 k s3
  have h1 : s1.findCtx ref = s.findCtx ref := findCtx_modCore (slots_fillLeaves _ _ fun i => part 16384 i p.folio) ref
  have h2 : s2.findCtx ref = s1.findCtx ref := findCtx_modCore ⟨rfl, rfl⟩ ref
  have h3 : s3.findCtx ref = s2.findCtx ref := findCtx_of_cores rfl ref
  exact (findCtx_of_cores (sameCores_writeMa ..) ref).trans (h3.trans (h2.trans h1))

/-- A unit's handle table takes the 131072 bytes from its base (R187). -/
theorem rawByte_loadSections (s : State) (core : Nat) {x : Ctx} (p : Sections) {j : Nat} (hx : x.handleBase.toNat % 64 = 0)
    (hj : j < maKey s.pkgOwner x.handleBase.toNat ∨ maKey s.pkgOwner x.handleBase.toNat + 131072 ≤ j) : (loadSections s core x p).rawByte j = s.rawByte j := by
  unfold loadSections
  extract_lets part s1 s2 k s3
  have hk : k = maKey s.pkgOwner x.handleBase.toNat := rfl
  refine (rawByte_writeMa_other s3 (n := 131072) (maKey_aligned _ hx) rfl (length_handleBytes _ _) hj).trans ?_
  have hkept : (!(k ≤ j && j < k + 0x20000)) = true := by
    simp
    omega
  exact SMap.get_filter_kept emptyByte s.mem (p := fun i => !(k ≤ i && i < k + 0x20000)) hkept

/-! ### UNIT_PLACEMENT and UNIT_COMPLETE (R261, R262, R353) -/

/-- The context that a unit starts as on a core (R261). -/
def unitCtx (s : State) (core : Nat) (u : WaitUnit) (w : Work) (p : LaunchSpec) (ls : List Nat) (block : Word) : Ctx :=
  startCtx s (s.core core) (u.launch * 1024 + u.unit) u.launch u.unit w.total p ls ((s.core core).freeSlots.take p.opslots) block

theorem unitCtx_handleBase (s : State) (core : Nat) (u : WaitUnit) (w : Work) (p : LaunchSpec) (ls : List Nat) {block : Word} (h : block.toNat % 64 = 0) :
    (unitCtx s core u w p ls block).handleBase.toNat % 64 = 0 := by
  show (block + 0x180000).toNat % 64 = 0
  rw [BitVec.toNat_add]
  simp only [BitVec.reduceToNat]
  omega

theorem findCtx_setCore (s : State) (c i : Nat) (k : Core) : (s.setCore c k).findCtx (.resident c i) = SMap.find k.slots i := by
  rw [State.findCtx, core_setCore]

section
variable {s : State} {core slot : Nat} {u : WaitUnit} {w : Work} {p : LaunchSpec} {pe : Fin 12} {ls : List Nat}
  (hu : u.core = core) (hslot : (s.core core).emptySlot = some slot) (hpe : (s.core core).poolEntry .free = some pe)
  (htakes : (s.core core).admits p.prot = true) (hops : p.opslots ≤ (s.core core).freeSlots.length)
  (hls : gatherLeaves s core p.leaves (.place u.launch u.unit) = (s, some ls))
include hu hslot hpe htakes hops hls

/-- A unit that its core takes in: the core holds its context in the slot, its images are loaded, and it waits no longer. -/
theorem placeUnit_eq : ∃ k sec v, placeUnit s u w p = v
    ∧ v.cores = (loadSections (s.setCore core k) core (unitCtx s core u w p ls (s.core core).pool[pe].ma) sec).cores
    ∧ v.mem = (loadSections (s.setCore core k) core (unitCtx s core u w p ls (s.core core).pool[pe].ma) sec).mem
    ∧ SMap.find k.slots slot = some (unitCtx s core u w p ls (s.core core).pool[pe].ma) ∧ u ∉ v.waitUnits := by
  subst hu
  have hroom : ¬(!(s.core u.core).admits p.prot || (s.core u.core).freeSlots.length < p.opslots) = true := by simp [htakes, hops]
  unfold placeUnit
  dsimp only
  rw [hslot, hpe]
  dsimp only
  rw [if_neg hroom, hls]
  exact ⟨_, _, _, rfl, rfl, rfl, SMap.find_set_same .., by simp⟩

theorem unitPlacement_places (hnext : nextUnit s core = some (u, w, p)) (halign : (s.core core).pool[pe].ma.toNat % 64 = 0) : ∃ t x, exec (.unitPlacement core) s = .next t
    ∧ t.findCtx (.resident core slot) = some x ∧ u ∉ t.waitUnits
    ∧ (∀ k, k < maKey s.pkgOwner x.handleBase.toNat ∨ maKey s.pkgOwner x.handleBase.toNat + 131072 ≤ k → t.rawByte k = s.rawByte k)
    ∧ x = unitCtx s core u w p ls (s.core core).pool[pe].ma := by
  obtain ⟨k, sec, v, hplace, hcores, hmem, hk, hleft⟩ := placeUnit_eq (w := w) hu hslot hpe htakes hops hls
  have hexec : exec (.unitPlacement core) s = .next v := by
    show execUnitPlacement core s = _
    unfold execUnitPlacement
    rw [hnext, ← hplace]
  refine ⟨v, _, hexec, ?_, hleft, fun j hj => ?_, rfl⟩
  · rw [findCtx_of_cores hcores, findCtx_loadSections, findCtx_setCore, hk]
  · exact (rawByte_of_mem hmem j).trans (rawByte_loadSections (s.setCore core k) core sec (unitCtx_handleBase s core u w p ls halign) hj)

end

theorem unitPlacement_none {s : State} {core : Nat} (h : nextUnit s core = none) : exec (.unitPlacement core) s = .next s := by
  show execUnitPlacement core s = _
  unfold execUnitPlacement
  rw [h]

section
variable {s : State} {c : CtxRef} {x : Ctx} (hx : s.findCtx c = some x)
include hx

theorem unitComplete_leaves (hf : x.finished = true) (hr : x.rung ≠ .shadowed) :
    exec (.unitComplete c) s = .next (unitDone ((removeCtx s c x).modCore (refCore c) (·.release x)) x.launch false) := by
  show execUnitComplete c s = _
  unfold execUnitComplete
  rw [hx]
  exact if_neg (by simp [hf, hr])

theorem unitComplete_stays (hf : x.finished = false) : exec (.unitComplete c) s = .next s := by
  show execUnitComplete c s = _
  unfold execUnitComplete
  rw [hx]
  exact if_pos (by simp [hf])

end

/-- Settles O48: LAUNCH by alignment and its two reads, a record by the checks in their order, a unit by what its core has for it and whether it has finished. -/
theorem launchAndUnits : Obligations.LaunchAndUnits := by
  unfold Obligations.LaunchAndUnits
  refine ⟨fun s d a disp oc => ⟨alignedFirst_traps _, fun ha xs hb ys tb hread hwait => launch_reads ha hread hwait, fun m ws => ⟨createLaunch_badImage, fun r hr => ?record⟩⟩,
    fun s core slot u w p pe ls hnext hu hslot hpe halign htakes hops hls => ?places, fun s core => unitPlacement_none,
    fun s c x hx => ⟨unitComplete_leaves hx, unitComplete_stays hx⟩⟩
  case record =>
    exact ⟨fun hdup => createLaunch_badTarget hr (.inl hdup), fun hg ho => createLaunch_badTarget hr (.inr ⟨hg, ho⟩),
      fun hg hcores hallowed hj hp => createLaunch_busy hr hg hcores hallowed hj hp, fun hg hcores hallowed hj hp => createLaunch_done hr hg hcores hallowed hj hp⟩
  case places =>
    obtain ⟨t, x, hexec, hfind, hleft, hbytes, hx⟩ := unitPlacement_places hu hslot hpe htakes hops hls hnext halign
    refine ⟨t, x, hexec, hfind, hleft, hbytes, hx, ?_⟩
    subst hx
    exact ⟨rfl, rfl, rfl, rfl, List.length_map .., rfl, rfl⟩

end Sys2Proof.Machine

namespace Sys2Proof.Machine

/-! ## Draws (R334, R340, R346) -/

section
variable {s : State} {core : Nat} {eng : Engine} {e : Entry} {g : Tdu} {n : Named} {late : Bool}

theorem taskDraw_draws (hm : e.members = [n]) (h : pickEntry s core eng = some (e, g, false)) : exec (.taskDraw core eng) s = .next (markWin (setUnit s core eng g) e) := by
  show execTaskDraw core eng s = _
  unfold execTaskDraw
  rw [h]
  dsimp only
  rw [hm]

theorem taskDraw_overdue (h : pickEntry s core eng = some (e, g, true)) : exec (.taskDraw core eng) s = .next s := by
  show execTaskDraw core eng s = _
  unfold execTaskDraw
  rw [h]

theorem overdueSlot_draws (hm : e.members = [n]) (h : pickEntry s core eng = some (e, g, true)) :
    exec (.overdueSlot core eng) s = .next (markWin (setUnit s core eng g) e) := by
  show execOverdueSlot core eng s = _
  unfold execOverdueSlot
  rw [h]
  dsimp only
  rw [hm]

theorem overdueSlot_ordinary (h : pickEntry s core eng = some (e, g, false)) : exec (.overdueSlot core eng) s = .next s := by
  show execOverdueSlot core eng s = _
  unfold execOverdueSlot
  rw [h]

end

/-! ## Completions (R249, R256, R323, R325) -/

/-- A task that may not complete now: it does not run, its joint or an older product of its C has not written, an older transfer of its channel has
bytes to land, or its interface's budget is spent. -/
def completionWaits (s : State) (core q : Nat) (x : Ctx) (t : Task) : Bool :=
  t.st ≠ .running || (t.cmd.jointTag.isSome && !t.written) || channelBusy x q t || hostLate s core x t || (!t.written && cWaits x t)

/-- A context after its task's completion: the bytes of the transfer have landed, and nothing is kept of the run (R256, R322). -/
def Ctx.afterRun (x : Ctx) (q : Nat) (t : Task) : Ctx :=
  let y := (x.land t.num (q - 2) (landedBytes t.cmd)).modTask t.num fun t => { t with pages := [], acc := [], stage := none }
  if y.fetchTask = t.num && t.cmd.isMatrix then { y with fetchV := false, fetchRows := 0, fetchBytes := [] } else y

/-- What a completion comes to, by what became of the push. -/
def completionAt (s : State) (core : Nat) (ref : CtxRef) (q : Nat) (x : Ctx) (t : Task) : Pushed → State
  | .full => s
  | .closed => abortFor s ref q t 0x09 0 0 true none
  | .ok w => if ownWaits w ref t then s else taskDone ((noteStreams (hostPaid w core x t) core x t).modRef ref (·.afterRun q t)) ref t.num

/-- The state that a completion leaves, by what the command's run has come to. -/
def completionOf (s : State) (core : Nat) (ref : CtxRef) (q : Nat) (x : Ctx) (t : Task) : Except MatErr (State × Option Word) → State
  | .error er => if er.err = .waits then s else matFail s ref q t er
  | .ok (u, v) => completionAt s core ref q x t (pushResult u ref q x t v)

section
variable {s : State} {core slot q pos : Nat} {x : Ctx} {t : Task} (ht : taskAt s (.resident core slot) q pos = some (x, t))
include ht

theorem taskComplete_eq : exec (.taskComplete core slot q pos) s =
    .next (if completionWaits s core q x t then s else completionOf s core (.resident core slot) q x t (runCmd s (.resident core slot) x t)) := by
  show execTaskComplete core slot q pos s = _
  unfold execTaskComplete
  dsimp only
  rw [ht, apply_ite Host.Outcome.next]
  refine if_congr Iff.rfl rfl ?_
  cases runCmd s (.resident core slot) x t with
  | error er =>
    dsimp only [completionOf]
    cases er.err with
    | waits => rfl
    | fault code stage addr d h => rfl
  | ok r =>
    dsimp only [completionOf]
    cases pushResult r.1 (.resident core slot) q x t r.2 with
    | full => rfl
    | closed => rfl
    | ok w => exact (apply_ite Host.Outcome.next _ _ _).symm

end

theorem completionWaits_iff {s : State} {core q : Nat} {x : Ctx} {t : Task} : completionWaits s core q x t = true ↔
    t.st ≠ .running ∨ (channelBusy x q t = true ∨ (t.written = false ∧ (t.cmd.jointTag ≠ none ∨ cWaits x t = true))) ∨ hostLate s core x t = true := by
  simp only [completionWaits, Bool.or_eq_true, Bool.and_eq_true, Bool.not_eq_true', decide_eq_true_eq, Option.isSome_iff_ne_none]
  tauto

/-! ## Releases (R344, R345, R383) -/

/-- A release strikes a running task that is no joint's, or member 0 of a joint before its write instant (R344, R383). -/
theorem releasable_iff (core : Nat) (t : Task) :
    releasable core t = true ↔ t.st = .running ∧ (t.cmd.jointTag = none ∨ (core % 4 = 0 ∧ t.written = false)) := by
  simp [releasable]

/-- A task that a stall release sets aside, with the budget's unused rest as compensation (R344, R345). -/
def Task.setAside (t : Task) (now budget used : Nat) : Task :=
  { t.letGo now with stalled := true, comp := if 1 ≤ used ∧ used < budget then some (budget, used) else none }

/-- A task that is no joint's is released alone. -/
theorem releasedWith_alone {t : Task} (h : t.cmd.jointTag = none) (s : State) (core slot q : Nat) :
    releasedWith s core slot q t = [{ ref := .resident core slot, q := q, task := t }] := by
  unfold releasedWith
  rw [h]

section
variable {s : State} {core slot q pos : Nat} {x : Ctx} {t : Task} (ht : taskAt s (.resident core slot) q pos = some (x, t))
include ht

theorem budgetRelease_eq : exec (.taskBudgetRelease core slot q pos) s = .next (
    if releasable core t = true ∧ t.startAt + budgetOf x t ≤ s.time then
      (releasedWith s core slot q t).foldl (fun s n => s.modRef n.ref fun x => x.modTask n.task.num fun t => t.letGo s.time) s
    else s) := by
  show execTaskBudgetRelease core slot q pos s = _
  unfold execTaskBudgetRelease
  rw [ht]
  dsimp only
  by_cases h : releasable core t = true ∧ t.startAt + budgetOf x t ≤ s.time
  · rw [if_neg (by simp [h]), if_pos h]
  · rw [if_pos (by simpa [imp_iff_not_or] using h), if_neg h]

theorem stallRelease_eq : exec (.taskStallRelease core slot q pos) s = .next (
    if releasable core t = true ∧ max t.startAt t.movedAt + t.lim ≤ s.time ∧ (releasedWith s core slot q t).any (mayStall s) = true then
      (releasedWith s core slot q t).foldl (fun s' n => s'.modRef n.ref fun y => y.modTask n.task.num (·.setAside s'.time (budgetOf x t) (s.time - t.startAt))) s
    else s) := by
  show execTaskStallRelease core slot q pos s = _
  unfold execTaskStallRelease
  rw [ht]
  dsimp only
  by_cases h : releasable core t = true ∧ max t.startAt t.movedAt + t.lim ≤ s.time ∧ (releasedWith s core slot q t).any (mayStall s) = true
  · rw [if_pos h]
    refine if_neg ?_
    obtain ⟨hr, hlate, hstall⟩ := h
    rw [hr, hstall]
    simpa using hlate
  · rw [if_neg h]
    refine if_pos (by_contra fun hn => h ?_)
    simpa [and_assoc] using hn

end

/-! ## Joints (R325, R383) -/

section
variable {s : State} {quad : Nat}

theorem jointStart_differs {e : Entry} (h : (readySet s (4 * quad) .le).find? (fun e => e.members.length = 4 && !formatsAgree e.members) = some e) :
    exec (.jointQmmaStart quad) s = .next (e.members.foldl (fun s n => abortFor s n.ref 0 n.task 0x09 0 0 true none) s) := by
  show execJointQmmaStart quad s = _
  unfold execJointQmmaStart
  dsimp only
  rw [h]

theorem jointStart_wins (hagree : ∀ e ∈ readySet s (4 * quad) .le, formatsAgree e.members = true) {e : Entry} {g : Tdu} {late : Bool}
    (h : pickEntry s (4 * quad) .le = some (e, g, late)) {a b c d : Named} (hm : e.members = [a, b, c, d]) :
    exec (.jointQmmaStart quad) s = .next (markWin (setUnit s (4 * quad) .le g) e) := by
  have hnone : (readySet s (4 * quad) .le).find? (fun e => e.members.length = 4 && !formatsAgree e.members) = none :=
    List.find?_eq_none.mpr fun e he => by simp [hagree e he]
  show execJointQmmaStart quad s = _
  unfold execJointQmmaStart
  dsimp only
  rw [hnone, h]
  dsimp only
  rw [hm]

theorem jointWrite_absent (h : (jointRunning s quad).length ≠ 4) : exec (.jointWriteInstant quad) s = .next s := by
  show execJointWriteInstant quad s = _
  unfold execJointWriteInstant
  split
  next hr => exact absurd (congrArg List.length hr) h
  next => rfl

/-- Some member waits for an older product of its C (R323). -/
def jointWaits (s : State) (ns : List Named) : Prop := ∃ n ∈ ns, ∃ x, s.findCtx n.ref = some x ∧ cWaits x n.task = true

theorem jointWaits_iff (s : State) (ns : List Named) : (ns.any fun n => (s.findCtx n.ref).any fun x => cWaits x n.task) = true ↔ jointWaits s ns := by
  simp [jointWaits, Option.any_eq_true]

/-- What a write instant comes to, by what taking the operands in has come to. -/
def jointWritten (s : State) (a b c d : Named) : Except (Named × MatErr) (State × List (Named × Stage)) → State
  | .error (n, er) => if er.err = .waits then s else matFail s n.ref 0 n.task er
  | .ok (t, gs) =>
    match jointWrites (jointParts gs) [(a, 0), (b, 1), (c, 2), (d, 3)] t with
    | .error (n, er) => engFail s n.ref 0 n.task er
    | .ok u => u

variable {a b c d : Named} (hr : jointRunning s quad = [a, b, c, d])
include hr

theorem jointWrite_waits (h : jointWaits s [a, b, c, d]) : exec (.jointWriteInstant quad) s = .next s := by
  show execJointWriteInstant quad s = _
  unfold execJointWriteInstant
  rw [hr]
  exact if_pos ((jointWaits_iff s _).mpr h)

theorem jointWrite_eq (h : ¬jointWaits s [a, b, c, d]) : exec (.jointWriteInstant quad) s = .next (jointWritten s a b c d (jointStages [a, b, c, d] s)) := by
  show execJointWriteInstant quad s = _
  unfold execJointWriteInstant
  rw [hr]
  dsimp only
  rw [if_neg (mt (jointWaits_iff s _).mp h)]
  cases jointStages [a, b, c, d] s with
  | error f =>
    dsimp only [jointWritten]
    cases f.2.err with
    | waits => rfl
    | fault code stage addr d h => rfl
  | ok r =>
    dsimp only [jointWritten]
    cases jointWrites (jointParts r.2) [(a, 0), (b, 1), (c, 2), (d, 3)] r.1 with
    | error f => rfl
    | ok u => rfl

end

/-! ## The events of tasks (R249, R325, R334, R340, R344-R346, R349, R382-R385) -/

section
variable {s : State} {core slot q pos : Nat} {x : Ctx} {t : Task} (ht : taskAt s (.resident core slot) q pos = some (x, t))
include ht

theorem taskComplete_stays (h : t.st ≠ .running ∨ (channelBusy x q t = true ∨ (t.written = false ∧ (t.cmd.jointTag ≠ none ∨ cWaits x t = true))) ∨ hostLate s core x t = true) :
    exec (.taskComplete core slot q pos) s = .next s := by rw [taskComplete_eq ht, if_pos (completionWaits_iff.mpr h)]

theorem taskComplete_goes (hrun : t.st = .running) (hw : t.written = true ∨ (t.cmd.jointTag = none ∧ cWaits x t = false)) (hbusy : channelBusy x q t = false)
    (hlate : hostLate s core x t = false) {r : Except MatErr (State × Option Word)} (hr : runCmd s (.resident core slot) x t = r) :
    exec (.taskComplete core slot q pos) s = .next (completionOf s core (.resident core slot) q x t r) := by
  rw [taskComplete_eq ht, hr, if_neg]
  rw [completionWaits_iff, hbusy, hlate]
  rcases hw with hw | ⟨hj, hc⟩
  · simp [hrun, hw]
  · simp [hrun, hj, hc]

theorem budgetRelease_strikes (h : releasable core t = true ∧ t.startAt + budgetOf x t ≤ s.time) : exec (.taskBudgetRelease core slot q pos) s =
    .next ((releasedWith s core slot q t).foldl (fun s n => s.modRef n.ref fun x => x.modTask n.task.num fun t => t.letGo s.time) s) := by
  rw [budgetRelease_eq ht, if_pos h]

theorem budgetRelease_stays (h : releasable core t = false ∨ s.time < t.startAt + budgetOf x t) : exec (.taskBudgetRelease core slot q pos) s = .next s := by
  rw [budgetRelease_eq ht, if_neg]
  rintro ⟨hr, hspent⟩
  exact h.elim (by simp [hr]) (Nat.not_lt.mpr hspent)

theorem stallRelease_stays (h : releasable core t = false ∨ s.time < max t.startAt t.movedAt + t.lim ∨ (releasedWith s core slot q t).any (mayStall s) = false) :
    exec (.taskStallRelease core slot q pos) s = .next s := by
  rw [stallRelease_eq ht, if_neg]
  rintro ⟨hr, hlate, hstall⟩
  rcases h with h | h | h
  · simp [hr] at h
  · exact Nat.not_lt.mpr hlate h
  · simp [hstall] at h

theorem stallRelease_sets_aside (hrun : t.st = .running) (hj : t.cmd.jointTag = none) (hstall : mayStall s { ref := .resident core slot, q := q, task := t } = true)
    (hlate : max t.startAt t.movedAt + t.lim ≤ s.time) : exec (.taskStallRelease core slot q pos) s =
      .next (s.modRef (.resident core slot) fun y => y.modTask t.num (·.setAside s.time (budgetOf x t) (s.time - t.startAt))) := by
  have halone := releasedWith_alone hj s core slot q
  rw [stallRelease_eq ht, if_pos ⟨(releasable_iff core t).mpr ⟨hrun, .inl hj⟩, hlate, by rw [halone]; simpa using hstall⟩, halone]
  rfl

end

theorem not_releasable {core : Nat} {t : Task} (h : t.st ≠ .running ∨ (t.cmd.jointTag ≠ none ∧ (core % 4 ≠ 0 ∨ t.written = true))) : releasable core t = false := by
  rw [← Bool.not_eq_true, releasable_iff]
  rintro ⟨hrun, hstrike⟩
  rcases h with h | ⟨hj, h⟩
  · exact h hrun
  · obtain ⟨hcore, hw⟩ := hstrike.resolve_left hj
    exact h.elim (· hcore) (by simp [hw])

/-- Settles O46: a draw by the entry picked, a completion by what holds it back and what its run and push come to, a release by whether the task may be
struck, a joint by its members' formats and what its stages and writes come to. -/
theorem taskEvents : Obligations.TaskEvents := by
  unfold Obligations.TaskEvents
  refine ⟨fun s core eng e g n hm => ?draws, fun s core slot q pos x t ht => ?tasks, fun s quad => ?joints⟩
  case draws => exact ⟨fun h => ⟨taskDraw_draws hm h, overdueSlot_ordinary h⟩, fun h => ⟨overdueSlot_draws hm h, taskDraw_overdue h⟩⟩
  case tasks =>
    intro ref me budget used late ready
    refine ⟨fun hst => ⟨taskComplete_stays ht (.inl hst), budgetRelease_stays ht (.inl (not_releasable (.inl hst))), stallRelease_stays ht (.inl (not_releasable (.inl hst)))⟩,
      fun h => taskComplete_stays ht (.inr (.inl h)),
      fun hrun hw hbusy hlate => ⟨fun u v w hr hp => ?pushed, fun u v hr hp => ?closed, fun u v hr hp => ?full, fun er hr => ⟨fun hwaits => ?waits, fun code stage addr d h hfault => ?fault⟩⟩,
      fun hrun hj hspent => ?budget, fun h => budgetRelease_stays ht (.inr h),
      fun hrun hj hcore hw hspent => budgetRelease_strikes ht ⟨(releasable_iff core t).mpr ⟨hrun, .inr ⟨hcore, hw⟩⟩, hspent⟩,
      fun hj h => ⟨budgetRelease_stays ht (.inl (not_releasable (.inr ⟨hj, h⟩))), stallRelease_stays ht (.inl (not_releasable (.inr ⟨hj, h⟩)))⟩,
      fun hrun hj hstall hlate => stallRelease_sets_aside ht hrun hj hstall hlate, fun h => stallRelease_stays ht ?stays⟩
    case pushed =>
      rw [taskComplete_goes ht hrun hw hbusy hlate hr, completionOf, hp]
      exact ⟨fun hown => congrArg _ (if_pos hown), fun hown => congrArg _ (if_neg (Bool.eq_false_iff.mp hown))⟩
    case closed =>
      rw [taskComplete_goes ht hrun hw hbusy hlate hr, completionOf, hp]
      rfl
    case full =>
      rw [taskComplete_goes ht hrun hw hbusy hlate hr, completionOf, hp]
      rfl
    case waits =>
      rw [taskComplete_goes ht hrun hw hbusy hlate hr]
      exact congrArg _ (if_pos hwaits)
    case fault =>
      rw [taskComplete_goes ht hrun hw hbusy hlate hr]
      exact congrArg _ (if_neg (by simp [hfault]))
    case budget =>
      rw [budgetRelease_strikes ht ⟨(releasable_iff core t).mpr ⟨hrun, .inl hj⟩, hspent⟩, releasedWith_alone hj]
      rfl
    case stays =>
      rcases h with h | ⟨hj, hstall⟩
      · exact .inr (.inl h)
      · exact .inr (.inr (by rw [releasedWith_alone hj]; simpa using hstall))
  case joints =>
    refine ⟨fun e h => jointStart_differs h, fun e g late a b c d hagree h hm => jointStart_wins hagree h hm, fun a b c d hr => ?_, jointWrite_absent⟩
    intro order
    refine ⟨jointWrite_waits hr, fun hgo => ⟨fun t gs u hstages hwrites => ?written, fun n er hstages => ⟨fun hwaits => ?jointWaits, fun code stage addr d h hfault => ?jointFault⟩⟩⟩
    case written => rw [jointWrite_eq hr hgo, hstages, jointWritten, hwrites]
    case jointWaits =>
      rw [jointWrite_eq hr hgo, hstages]
      exact congrArg _ (if_pos hwaits)
    case jointFault =>
      rw [jointWrite_eq hr hgo, hstages]
      exact congrArg _ (if_neg (by simp [hfault]))

end Sys2Proof.Machine

namespace Sys2Proof.Machine

/-! ## Conversions (R271, R272, R277-R280, R287, R296) -/

/-! ### Bytes of a register (R5) -/

theorem laneOf_eq_getByte {n : Nat} (v : BitVec n) (i : Nat) : laneOf 8 v.toNat i = (getByte v i).toNat :=
  (BitVec.extractLsb'_toNat _ _ v).symm

theorem getLsbD_setByte {n : Nat} (v : BitVec n) (k : Nat) (b : Byte) {j : Nat} (hj : j < n) :
    (setByte v k b).getLsbD j = if 8 * k ≤ j ∧ j < 8 * k + 8 then b.getLsbD (j - 8 * k) else v.getLsbD j := by
  have hmask : (0xFF : BitVec n).getLsbD (j - 8 * k) = decide (j - 8 * k < 8) := by
    have hff : (0xFF : BitVec n) = BitVec.ofNat n (2 ^ 8 - 1) := rfl
    rw [hff, BitVec.getLsbD_ofNat, Nat.testBit_two_pow_sub_one, decide_eq_true (show j - 8 * k < n by omega), Bool.true_and]
  unfold setByte
  simp only [BitVec.getLsbD_or, BitVec.getLsbD_and, BitVec.getLsbD_not, BitVec.getLsbD_shiftLeft, BitVec.getLsbD_setWidth, hmask, hj, decide_true, Bool.true_and]
  by_cases hlow : j < 8 * k
  · rw [if_neg (by omega)]
    simp [hlow]
  · by_cases hin : j - 8 * k < 8
    · rw [if_pos (by omega)]
      simp [hlow, hin, show j - 8 * k < n by omega]
    · rw [if_neg (by omega)]
      simp [hin, BitVec.getLsbD_of_ge b (j - 8 * k) (by omega)]

theorem getByte_setByte {n : Nat} (v : BitVec n) (k i : Nat) (b : Byte) (hi : 8 * i + 8 ≤ n) :
    getByte (setByte v k b) i = if i = k then b else getByte v i := by
  refine BitVec.eq_of_getLsbD_eq fun j hj => ?_
  have hread : ∀ w : BitVec n, (getByte w i).getLsbD j = w.getLsbD (8 * i + j) := fun w => by
    rw [getByte, BitVec.getLsbD_extractLsb', decide_eq_true hj, Bool.true_and]
  rw [hread, getLsbD_setByte v k b (by omega)]
  by_cases hik : i = k
  · rw [if_pos hik, if_pos (by omega), hik, Nat.add_sub_cancel_left]
  · rw [if_neg hik, if_neg (by omega), hread]

theorem laneOf_setByte (v : VecWord) (k : Nat) (b : Byte) {i : Nat} (hi : i < 512) :
    laneOf 8 (setByte v k b).toNat i = if i = k then b.toNat else laneOf 8 v.toNat i := by
  rw [laneOf_eq_getByte, laneOf_eq_getByte, getByte_setByte v k i b (by omega), apply_ite BitVec.toNat]

/-- Bytes written one after the other from `start` on. -/
theorem laneOf_foldl_setByte (v : VecWord) (start n : Nat) (f : Nat → Byte) {i : Nat} (hi : i < 512) :
    laneOf 8 ((List.range n).foldl (fun v b => setByte v (start + b) (f b)) v).toNat i
      = if start ≤ i ∧ i < start + n then (f (i - start)).toNat else laneOf 8 v.toNat i := by
  induction n with
  | zero => rw [if_neg (by omega)]; rfl
  | succ n ih =>
    rw [List.range_succ, List.foldl_append, List.foldl_cons, List.foldl_nil, laneOf_setByte _ _ _ hi, ih]
    by_cases hlast : i = start + n
    · rw [if_pos hlast, if_pos (by omega), hlast, Nat.add_sub_cancel_left]
    · rw [if_neg hlast]
      exact if_congr (by omega) rfl rfl

/-! ### Blocks of 32 (R271, R272) -/

theorem blocksOf_map_range {n : Nat} (f : Nat → Num) :
    blocksOf n ((List.range (32 * n)).map f) = (List.range n).map fun b => (List.range 32).map fun i => f (32 * b + i) := by
  induction n generalizing f with
  | zero => rfl
  | succ n ih =>
    have hsplit : (List.range (32 * (n + 1))).map f = (List.range 32).map f ++ (List.range (32 * n)).map fun j => f (32 + j) := by
      rw [Nat.mul_succ, Nat.add_comm, List.range_add, List.map_append, List.map_map]
      rfl
    rw [hsplit, blocksOf, List.take_left' (by simp), List.drop_left' (by simp), ih, List.range_succ_eq_map (n := n), List.map_cons, List.map_map]
    congr 1
    exact List.map_congr_left fun b _ => List.map_congr_left fun i _ => congrArg f (by simp only [Nat.succ_eq_add_one]; omega)

/-- Blocks of 32 set side by side: element j stands in block j div 32. -/
theorem flatMap_blocks (n : Nat) (g : Nat → List Nat) (h : ∀ b, (g b).length = 32) :
    (List.range n).flatMap g = (List.range (32 * n)).map fun j => (g (j / 32)).getD (j % 32) 0 := by
  induction n with
  | zero => rfl
  | succ n ih =>
    have hlast : g n = (List.range 32).map fun i => (g n).getD i 0 := by
      refine List.ext_getElem (by simp [h]) fun i hi _ => ?_
      simp [List.getElem?_eq_getElem hi]
    rw [List.range_succ, List.flatMap_append, ih, List.flatMap_singleton, Nat.mul_succ, List.range_add, List.map_append, List.map_map, hlast]
    congr 1
    refine List.map_congr_left fun i hi => ?_
    have hi := List.mem_range.mp hi
    simp only [Function.comp_apply, show (32 * n + i) / 32 = n by omega, show (32 * n + i) % 32 = i by omega]

theorem zipIdx_map_range {α : Type} (n : Nat) (q : Nat → α) : ((List.range n).map q).zipIdx = (List.range n).map fun b => (q b, b) := by
  refine List.ext_getElem (by simp) fun i _ _ => ?_
  simp

theorem length_mxQuantise (t : ETy) (pol : Pol) (xs : List Num) : (mxQuantise t pol xs).2.1.length = xs.length := by
  unfold mxQuantise
  split <;> simp

/-! ### Overflow events come under policy 3 alone (R279, R280) -/

theorem overflowOf_event {t : ETy} {pol : Pol} {sm neg : Bool} (h : (overflowOf t pol sm neg).2 = true) : pol = .trap := by
  cases pol with
  | trap => rfl
  | sat => cases h
  | inf =>
    unfold overflowOf at h
    dsimp only at h
    split at h
    · cases h
    · split at h <;> cases h
  | nan =>
    unfold overflowOf at h
    dsimp only at h
    split at h <;> cases h

theorem toInteger_event {t : ETy} {pol : Pol} {v : Num} (h : (toInteger t pol v).2 = true) : pol = .trap := by
  cases v with
  | nan => exact of_decide_eq_true h
  | inf neg => exact of_decide_eq_true h
  | fin neg m e =>
    unfold toInteger at h
    dsimp only at h
    split at h
    · exact of_decide_eq_true h
    · split at h
      · exact of_decide_eq_true h
      · cases h

theorem convertTo_event {t : ETy} {pol : Pol} {sm : Bool} {v : Num} (h : (convertTo t pol sm v).2 = true) : pol = .trap := by
  unfold convertTo at h
  split at h
  · split at h
    · split at h
      · cases h
      · exact of_decide_eq_true h
    · split at h
      · cases h
      · exact overflowOf_event h
    · dsimp only at h
      split at h
      · exact overflowOf_event h
      · cases h
  · split at h
    case h_1 | h_2 =>
      split at h
      · cases h
      · exact overflowOf_event h
      · split at h
        · cases h
        · cases h
        · exact overflowOf_event h
    case h_3 => cases h
    case h_4 => exact toInteger_event h

theorem mxQuantise_event {t : ETy} {pol : Pol} {xs : List Num} (h : (mxQuantise t pol xs).2.2 = true) : pol = .trap := by
  unfold mxQuantise at h
  split at h
  · exact of_decide_eq_true h
  · cases h

/-! ### The layout (R285, R287) -/

theorem width_mul_lanes_le (t : ETy) : t.width * t.lanes ≤ 4096 := by cases t <;> decide
theorem dvd_lanes (t : ETy) : 32 ∣ t.lanes := by cases t <;> decide

theorem cvtShape_gd_le (o : VcvtOp) : (cvtShape o).gd ≤ 4 := by
  unfold cvtShape groupSize
  dsimp only
  split
  · split
    · omega
    · exact Nat.min_le_left _ _
  · omega

theorem dvd_cvtShape_lanes (o : VcvtOp) : 32 ∣ (cvtShape o).lanes := by
  unfold cvtShape
  dsimp only
  split <;> exact (dvd_lanes _).mul_left _

/-- The value of operation lane j: its source element, scaled where XS is set (R271, R296). -/
def State.cvtValue (s : State) (o : VcvtOp) (j : Nat) : Num :=
  let x := s.glane o.ts.width o.a (cvtShape o).gs ((cvtShape o).src0 + j)
  if o.xs then scaleBy (decodeMx o.ts x) (laneOf 8 (s.getV o.scale).toNat (((cvtShape o).src0 + j) / 32)) else decodeElem o.ts x

theorem cvtSources_eq (s : State) (o : VcvtOp) : cvtSources s o = (List.range (cvtShape o).lanes).map (s.cvtValue o) := rfl

/-- Operation lane j as a target with X = 0 (R278). -/
def State.cvtLane (s : State) (o : VcvtOp) (j : Nat) : Nat × Bool := convertTo o.td o.pol o.sm (s.cvtValue o j)
/-- Block b of the operation lanes, quantised (R272). -/
def State.cvtBlock (s : State) (o : VcvtOp) (b : Nat) : Nat × List Nat × Bool :=
  mxQuantise o.td o.pol ((List.range 32).map fun i => s.cvtValue o (32 * b + i))

theorem cvtBlocks_eq (s : State) (o : VcvtOp) :
    (blocksOf ((cvtShape o).lanes / 32) (cvtSources s o)).map (mxQuantise o.td o.pol) = (List.range ((cvtShape o).lanes / 32)).map (s.cvtBlock o) := by
  rw [cvtSources_eq]
  conv_lhs => rw [← Nat.mul_div_cancel' (dvd_cvtShape_lanes o), Nat.mul_div_cancel_left _ (by decide : 0 < 32), blocksOf_map_range, List.map_map]
  rfl

theorem flatMap_cvtBlocks (s : State) (o : VcvtOp) :
    ((List.range ((cvtShape o).lanes / 32)).map (s.cvtBlock o)).flatMap (·.2.1)
      = (List.range (cvtShape o).lanes).map fun j => (s.cvtBlock o (j / 32)).2.1.getD (j % 32) 0 := by
  have hlen : ∀ b, (s.cvtBlock o b).2.1.length = 32 := fun b => (length_mxQuantise _ _ _).trans (by simp)
  rw [List.flatMap_map, flatMap_blocks _ _ hlen, Nat.mul_div_cancel' (dvd_cvtShape_lanes o)]

/-! ### The destination elements (R286, R287) -/

theorem getV_setGroupNat_other (s : State) (d : VNum) (g x : Nat) {r : VNum} (h : ∀ k < g, r ≠ vplus d k) : (s.setGroupNat d g x).getV r = s.getV r := by
  induction g with
  | zero => rfl
  | succ g ih => rw [setGroupNat_succ, getV_setV_state, if_neg (h g g.lt_succ_self), ih fun k hk => h k (Nat.lt_succ_of_lt hk)]

theorem groupNat_setV_other (s : State) (d : VNum) (g : Nat) {r : VNum} (v : VecWord) (h : ∀ k < g, r ≠ vplus d k) : (s.setV r v).groupNat d g = s.groupNat d g := by
  unfold State.groupNat
  congr 1
  exact List.map_congr_left fun k hk => by rw [getV_setV_state, if_neg (h k (List.mem_range.mp hk)).symm]

theorem getElem?_spliceLanes {on : Nat → Bool} {start : Nat} {old new : List Nat} {i : Nat} (hfit : start + new.length ≤ old.length) (hi : i < old.length) :
    (spliceLanes on start old new)[i]? = some (if start ≤ i ∧ i < start + new.length ∧ on (i - start) = true then new.getD (i - start) 0 else old[i]) := by
  have hmid : ((old.drop start).take new.length).length = new.length := by simp; omega
  have hmerged : (mergeLanes on ((old.drop start).take new.length) new).length = new.length := by simp [mergeLanes]; omega
  unfold spliceLanes
  rw [List.append_assoc]
  by_cases hlow : i < start
  · rw [if_neg (by omega), List.getElem?_append_left (by simp; omega), List.getElem?_take_of_lt hlow, List.getElem?_eq_getElem hi]
  · have htake : (old.take start).length = start := by simp; omega
    rw [List.getElem?_append_right (by omega), htake]
    by_cases hin : i < start + new.length
    · rw [List.getElem?_append_left (by omega), getElem?_mergeLanes (by omega) (by omega)]
      simp [show start ≤ i by omega, hin, show i - start < new.length by omega, Nat.add_sub_cancel' (show start ≤ i by omega)]
    · rw [if_neg (by omega), List.getElem?_append_right (by omega), hmerged, List.getElem?_drop, show start + new.length + (i - start - new.length) = i by omega,
        List.getElem?_eq_getElem hi]

theorem length_spliceLanes {on : Nat → Bool} {start : Nat} {old new : List Nat} (hfit : start + new.length ≤ old.length) :
    (spliceLanes on start old new).length = old.length := by
  simp [spliceLanes, mergeLanes]; omega

/-- The destination elements a VCVT leaves: what its enabled operation lanes give, and elsewhere the old ones. -/
theorem glane_cvtWrite {s : State} {o : VcvtOp} (f : Nat → Nat) (hfit : (cvtShape o).dst0 + (cvtShape o).lanes ≤ (cvtShape o).gd * o.td.lanes)
    {i : Nat} (hi : i < (cvtShape o).gd * o.td.lanes) :
    (cvtWrite s o ((List.range (cvtShape o).lanes).map f)).glane o.td.width o.d (cvtShape o).gd i =
      if (cvtShape o).dst0 ≤ i ∧ i < (cvtShape o).dst0 + (cvtShape o).lanes ∧ s.laneOn o.mask (i - (cvtShape o).dst0) = true
      then f (i - (cvtShape o).dst0) % 2 ^ o.td.width else s.glane o.td.width o.d (cvtShape o).gd i := by
  obtain ⟨old, hold⟩ : ∃ old, old = lanesOf o.td.width ((cvtShape o).gd * o.td.lanes) (s.groupNat o.d (cvtShape o).gd) := ⟨_, rfl⟩
  obtain ⟨new, hnew⟩ : ∃ new, new = (List.range (cvtShape o).lanes).map f := ⟨_, rfl⟩
  have hlold : old.length = (cvtShape o).gd * o.td.lanes := by simp [hold, lanesOf]
  have hlnew : new.length = (cvtShape o).lanes := by simp [hnew]
  have hfit' : (cvtShape o).dst0 + new.length ≤ old.length := by rw [hlold, hlnew]; exact hfit
  have hbits : o.td.width * ((cvtShape o).gd * o.td.lanes) ≤ 4096 * (cvtShape o).gd := by
    calc o.td.width * ((cvtShape o).gd * o.td.lanes) = o.td.width * o.td.lanes * (cvtShape o).gd := by ring
      _ ≤ 4096 * (cvtShape o).gd := Nat.mul_le_mul_right _ (width_mul_lanes_le o.td)
  have hlt : packLanes o.td.width (spliceLanes (s.laneOn o.mask) (cvtShape o).dst0 old new) < 2 ^ (4096 * (cvtShape o).gd) := by
    refine (packLanes_lt _ _).trans_le (Nat.pow_le_pow_right (by decide) ?_)
    rwa [length_spliceLanes hfit', hlold]
  have hwrite : cvtWrite s o new = s.setGroupNat o.d (cvtShape o).gd (packLanes o.td.width (spliceLanes (s.laneOn o.mask) (cvtShape o).dst0 old new)) := by
    rw [hold]; rfl
  rw [← hnew, hwrite, State.glane, groupNat_setGroupNat s o.d ((cvtShape_gd_le o).trans (by decide)) hlt, laneOf_packLanes,
    getElem?_spliceLanes hfit' (by rwa [hlold]), Option.getD_some, hlnew]
  split
  next h =>
    congr 1
    have hj : i - (cvtShape o).dst0 < (cvtShape o).lanes := by omega
    simp [hnew, hj]
  next h => simp [hold, lanesOf, laneOf, State.glane]

/-! ### The predicate (R280, R296) -/

theorem cvtPred_trap {s : State} {o : VcvtOp} (h : o.pol = .trap) (ev : Bool) : s.cvtPred o ev = s.setP o.pn ev := if_pos h
theorem cvtPred_not_trap {s : State} {o : VcvtOp} (h : o.pol ≠ .trap) (ev : Bool) : s.cvtPred o ev = s := if_neg h

/-- An overflow event completes the instruction with its predicate alone. -/
theorem cvtPred_writes {s : State} {o : VcvtOp} (h : o.pol = .trap) (ev : Bool) : PredWrite s (.next (s.cvtPred o ev).retire) o.pn ev := by
  rw [cvtPred_trap h, State.setP, State.retire, modSt_modSt]
  exact predResult_writes s o.pn ev

theorem getV_modSt (s : State) (f : Strand → Strand) (r : VNum) : (s.modSt f).getV r = s.getV r := by
  rw [State.getV, cx_modSt]
  rfl

section
variable (t : State) (o : VcvtOp) (ev : Bool)

/-- The end of a VCVT is an update of the strand. -/
def cvtEnd (u : Strand) : Strand := (if o.pol = .trap then u.setP o.pn ev else u).retire 1

theorem retire_cvtPred : (t.cvtPred o ev).retire = t.modSt (cvtEnd o ev) := by
  unfold State.cvtPred cvtEnd
  split
  · rw [State.setP, State.retire, modSt_modSt]
  · rfl

theorem cvtEnd_eq (u : Strand) : cvtEnd o ev u = { u.retire 1 with p := (cvtEnd o ev u).p } := by
  unfold cvtEnd
  split
  · rw [retire_setP]
  · rfl

theorem getP_cvtEnd (u : Strand) (q : PReg) : (cvtEnd o ev u).getP q = if o.pol = .trap ∧ q = o.pn ∧ q ≠ 7 then ev else u.getP q := by
  have hretire : ∀ v : Strand, (v.retire 1).getP q = v.getP q := fun v => by rw [retire_eq]; rfl
  rw [cvtEnd, hretire]
  by_cases h : o.pol = .trap
  · rw [if_pos h, getP_setP]
    by_cases hq : q = 7
    · simp [hq]
    · simp [h, hq]
  · simp [h]

end

/-! ### VCVT (R296) -/

/-- What a VCVT that meets no overflow event leaves of memory, strand, predicates and destination elements, `f j` being what operation lane j gives. -/
def CvtDone (s : State) (o : VcvtOp) (f : Nat → Nat) (u : State) : Prop :=
  (∀ k, u.rawByte k = s.rawByte k) ∧ u.st = { s.st.retire 1 with p := u.st.p }
    ∧ (∀ q, u.getP q = if o.pol = .trap ∧ q = o.pn ∧ q ≠ 7 then false else s.getP q)
    ∧ ∀ i < (cvtShape o).gd * o.td.lanes, u.glane o.td.width o.d (cvtShape o).gd i =
        if (cvtShape o).dst0 ≤ i ∧ i < (cvtShape o).dst0 + (cvtShape o).lanes ∧ s.laneOn o.mask (i - (cvtShape o).dst0) = true
        then f (i - (cvtShape o).dst0) % 2 ^ o.td.width else s.glane o.td.width o.d (cvtShape o).gd i

section
variable {s : State} {o : VcvtOp}

theorem cvtDone_of {f : Nat → Nat} {t : State} (hfit : (cvtShape o).dst0 + (cvtShape o).lanes ≤ (cvtShape o).gd * o.td.lanes)
    (hmem : t.mem = s.mem) (hst : t.st = s.st)
    (hgroup : t.groupNat o.d (cvtShape o).gd = (cvtWrite s o ((List.range (cvtShape o).lanes).map f)).groupNat o.d (cvtShape o).gd) :
    CvtDone s o f (t.cvtPred o false).retire := by
  rw [retire_cvtPred]
  refine ⟨rawByte_of_mem hmem, ?_, fun q => ?_, fun i hi => ?_⟩
  · rw [st_modSt, hst]
    exact cvtEnd_eq o false s.st
  · rw [State.getP, st_modSt, hst]
    exact getP_cvtEnd o false s.st q
  · rw [State.glane, groupNat_modSt, hgroup]
    exact glane_cvtWrite f hfit hi

theorem getV_retire_cvtPred (t : State) (r : VNum) (ev : Bool) : (t.cvtPred o ev).retire.getV r = t.getV r := by
  rw [retire_cvtPred, getV_modSt]

/-! #### Targets with X = 0 -/

theorem exec_vcvt_lanes (hx : o.xd = false) : exec (.vcvt o) s =
    if ((List.range (cvtShape o).lanes).any fun j => (s.cvtLane o j).2 && s.laneOn o.mask j) = true then .next (s.cvtPred o true).retire
    else .next ((cvtWrite s o ((List.range (cvtShape o).lanes).map fun j => (s.cvtLane o j).1)).cvtPred o false).retire := by
  show execVcvt o s = _
  unfold execVcvt
  simp only [hx, Bool.false_eq_true, if_false]
  rw [cvtSources_eq, List.map_map, zipIdx_map_range, List.any_map, List.map_map]
  rfl

theorem vcvt_event (hx : o.xd = false) (h : ∃ j < (cvtShape o).lanes, s.laneOn o.mask j = true ∧ (s.cvtLane o j).2 = true) :
    PredWrite s (exec (.vcvt o) s) o.pn true := by
  obtain ⟨j, hj, hon, hev⟩ := h
  rw [exec_vcvt_lanes hx, if_pos (List.any_eq_true.mpr ⟨j, List.mem_range.mpr hj, by rw [hev, hon]; rfl⟩)]
  exact cvtPred_writes (convertTo_event hev) true

theorem vcvt_converts (hx : o.xd = false) (hfit : (cvtShape o).dst0 + (cvtShape o).lanes ≤ (cvtShape o).gd * o.td.lanes)
    (h : ∀ j < (cvtShape o).lanes, s.laneOn o.mask j = true → (s.cvtLane o j).2 = false) :
    ∃ u, exec (.vcvt o) s = .next u ∧ CvtDone s o (fun j => (s.cvtLane o j).1) u ∧ ∀ r, (∀ k < (cvtShape o).gd, r ≠ vplus o.d k) → u.getV r = s.getV r := by
  have hnone : ¬ ((List.range (cvtShape o).lanes).any fun j => (s.cvtLane o j).2 && s.laneOn o.mask j) = true := by
    rw [List.any_eq_true]
    rintro ⟨j, hj, hev⟩
    obtain ⟨hev, hon⟩ := (Bool.and_eq_true _ _).mp hev
    exact absurd hev (by simp [h j (List.mem_range.mp hj) hon])
  rw [exec_vcvt_lanes hx, if_neg hnone]
  refine ⟨_, rfl, cvtDone_of hfit (mem_setGroupNat s o.d _ _) (strands_setGroupNat s o.d _ _).2 rfl, fun r hr => ?_⟩
  rw [getV_retire_cvtPred]
  exact getV_setGroupNat_other s o.d _ _ hr

/-! #### Block-scaled targets (X = 1) -/

/-- The register of scales, with the byte of each quantised block (log 12). -/
def State.cvtScales (s : State) (o : VcvtOp) : VecWord :=
  (List.range ((cvtShape o).lanes / 32)).foldl (fun v b => setByte v ((cvtShape o).dst0 / 32 + b) (BitVec.ofNat 8 (s.cvtBlock o b).1)) (s.getV o.scale)

theorem exec_vcvt_blocks (hx : o.xd = true) : exec (.vcvt o) s =
    if ((List.range ((cvtShape o).lanes / 32)).any fun b => (s.cvtBlock o b).2.2) = true then .next (s.cvtPred o true).retire
    else .next (((cvtWrite s o ((List.range (cvtShape o).lanes).map fun j => (s.cvtBlock o (j / 32)).2.1.getD (j % 32) 0)).setV o.scale (s.cvtScales o)).cvtPred o false).retire := by
  show execVcvt o s = _
  unfold execVcvt
  simp only [hx, if_true]
  rw [cvtBlocks_eq, flatMap_cvtBlocks, zipIdx_map_range, List.any_map, List.foldl_map]
  rfl

theorem vcvt_block_event (hx : o.xd = true) (h : ∃ b < (cvtShape o).lanes / 32, (s.cvtBlock o b).2.2 = true) : PredWrite s (exec (.vcvt o) s) o.pn true := by
  obtain ⟨b, hb, hev⟩ := h
  rw [exec_vcvt_blocks hx, if_pos (List.any_eq_true.mpr ⟨b, List.mem_range.mpr hb, hev⟩)]
  exact cvtPred_writes (mxQuantise_event hev) true

theorem vcvt_quantises (hx : o.xd = true) (hfit : (cvtShape o).dst0 + (cvtShape o).lanes ≤ (cvtShape o).gd * o.td.lanes)
    (h : ∀ b < (cvtShape o).lanes / 32, (s.cvtBlock o b).2.2 = false) (hscale : ∀ k < (cvtShape o).gd, o.scale ≠ vplus o.d k) :
    ∃ u, exec (.vcvt o) s = .next u ∧ CvtDone s o (fun j => (s.cvtBlock o (j / 32)).2.1.getD (j % 32) 0) u
      ∧ (∀ r, r ≠ o.scale → (∀ k < (cvtShape o).gd, r ≠ vplus o.d k) → u.getV r = s.getV r) ∧ u.getV o.scale = s.cvtScales o := by
  have hnone : ¬ ((List.range ((cvtShape o).lanes / 32)).any fun b => (s.cvtBlock o b).2.2) = true := by
    rw [List.any_eq_true]
    rintro ⟨b, hb, hev⟩
    exact absurd hev (by simp [h b (List.mem_range.mp hb)])
  rw [exec_vcvt_blocks hx, if_neg hnone]
  refine ⟨_, rfl, cvtDone_of hfit (mem_setGroupNat s o.d _ _) ?_ (groupNat_setV_other _ o.d _ _ hscale), fun r hr hrest => ?_, ?_⟩
  · exact (st_modCx _ _).trans (strands_setGroupNat s o.d _ _).2
  · rw [getV_retire_cvtPred, getV_setV_state, if_neg hr]
    exact getV_setGroupNat_other s o.d _ _ hrest
  · rw [getV_retire_cvtPred, getV_setV_state, if_pos rfl]

theorem laneOf_cvtScales {i : Nat} (hi : i < 512) : laneOf 8 (s.cvtScales o).toNat i =
    if (cvtShape o).dst0 / 32 ≤ i ∧ i < (cvtShape o).dst0 / 32 + (cvtShape o).lanes / 32 then (s.cvtBlock o (i - (cvtShape o).dst0 / 32)).1 % 256
    else laneOf 8 (s.getV o.scale).toNat i := by
  rw [State.cvtScales, laneOf_foldl_setByte _ _ _ (fun b => BitVec.ofNat 8 (s.cvtBlock o b).1) hi, BitVec.toNat_ofNat]

end

/-- Settles O35: lanes and blocks by whether one meets an event, which only policy 3 knows; without one the lanes are written in place and the scales byte by byte. -/
theorem conversionResult : Obligations.ConversionResult := by
  unfold Obligations.ConversionResult
  intro s o
  refine ⟨vcvt_event, vcvt_converts, vcvt_block_event, fun hx hfit hnone hscale => ?_⟩
  obtain ⟨u, hu, hdone, hrest, hscales⟩ := vcvt_quantises hx hfit hnone hscale
  exact ⟨u, hu, hdone, hrest, fun i hi => by rw [hscales]; exact laneOf_cvtScales hi⟩

end Sys2Proof.Machine

namespace Sys2Proof.Machine

/-! ## Vector registers (R285-R299) -/

/-! ### Lanes as functions of their number -/

theorem getElem?_map_range {α : Type} {n i : Nat} (f : Nat → α) (hi : i < n) : ((List.range n).map f)[i]? = some (f i) := by
  rw [List.getElem?_map, List.getElem?_range hi]
  rfl

theorem zip_map_range {α β : Type} (n : Nat) (f : Nat → α) (g : Nat → β) : ((List.range n).map f).zip ((List.range n).map g) = (List.range n).map fun i => (f i, g i) := List.zip_map' ..

theorem zipWith_map_range {α β γ : Type} (n : Nat) (h : α → β → γ) (f : Nat → α) (g : Nat → β) :
    List.zipWith h ((List.range n).map f) ((List.range n).map g) = (List.range n).map fun i => h (f i) (g i) := by
  rw [← List.map_uncurry_zip_eq_zipWith, zip_map_range, List.map_map]
  rfl

theorem mergeLanes_map_range (on : Nat → Bool) (n : Nat) (f g : Nat → Nat) :
    mergeLanes on ((List.range n).map f) ((List.range n).map g) = (List.range n).map fun i => if on i then g i else f i := by
  rw [mergeLanes, zip_map_range, zipIdx_map_range, List.map_map]
  rfl

theorem elems_eq (s : State) (t : ETy) (v : VNum) : s.elems t v = (List.range t.lanes).map (s.lane t v) := rfl

theorem laneOf_lt (w x i : Nat) : laneOf w x i < 2 ^ w := Nat.mod_lt _ (Nat.two_pow_pos w)
theorem laneOf_mod (w x i : Nat) : laneOf w x i % 2 ^ w = laneOf w x i := Nat.mod_eq_of_lt (laneOf_lt w x i)

theorem laneOf_pack_range {w n i : Nat} (f : Nat → Nat) (hi : i < n) : laneOf w (packLanes w ((List.range n).map f)) i = f i % 2 ^ w := by
  rw [laneOf_packLanes, getElem?_map_range f hi, Option.getD_some]

theorem pack_range_lt {w n b : Nat} (f : Nat → Nat) (h : w * n ≤ b) : packLanes w ((List.range n).map f) < 2 ^ b := by
  refine (packLanes_lt w _).trans_le (Nat.pow_le_pow_right (by decide) ?_)
  rwa [List.length_map, List.length_range]

theorem toNat_pack_range {w n b : Nat} (f : Nat → Nat) (h : w * n ≤ b) :
    (BitVec.ofNat b (packLanes w ((List.range n).map f))).toNat = packLanes w ((List.range n).map f) := by
  rw [BitVec.toNat_ofNat, Nat.mod_eq_of_lt (pack_range_lt f h)]

/-! ### Writing a register, a pair and a mask (R286, R287, R291, R294) -/

theorem getV_retire (s : State) (r : VNum) : s.retire.getV r = s.getV r := getV_modSt s _ r

theorem vecWrite_writes (s : State) (d : VNum) (t : ETy) (m : Option MNum) (f : Nat → Nat) :
    LaneWrite s (vecWrite s d t m ((List.range t.lanes).map f)) d t m f := by
  refine ⟨_, rfl, ?_, fun _ => rfl, fun i hi => ?_⟩
  · rw [getV_retire, getV_setV_state, if_pos rfl]
  · rw [State.lane, getV_retire, getV_setV_state, if_pos rfl, elems_eq, mergeLanes_map_range,
      toNat_pack_range _ (width_mul_lanes_le t), laneOf_pack_range _ hi]
    split
    · rfl
    · exact laneOf_mod _ _ _

/-- What a lane takes matters only in its enabled lanes and up to the element's width. -/
theorem LaneWrite.congr {s : State} {o : Out} {d : VNum} {t : ETy} {m : Option MNum} {f g : Nat → Nat} (h : LaneWrite s o d t m f)
    (hfg : ∀ i < t.lanes, f i % 2 ^ t.width = g i % 2 ^ t.width) : LaneWrite s o d t m g := by
  obtain ⟨u, ho, hu, hmem, hl⟩ := h
  exact ⟨u, ho, hu, hmem, fun i hi => by rw [hl i hi, hfg i hi]⟩

theorem vecWrite_of {s : State} {d : VNum} {t : ETy} {m : Option MNum} {l : List Nat} {f : Nat → Nat} (h : l = (List.range t.lanes).map f) :
    LaneWrite s (vecWrite s d t m l) d t m f := h ▸ vecWrite_writes s d t m f

theorem vecOp1_writes (s : State) (f : Nat → Nat) (d a : VNum) (t : ETy) (m : Option MNum) :
    LaneWrite s (vecOp1 f d a t m s) d t m fun i => f (s.lane t a i) :=
  vecWrite_of (by rw [elems_eq, List.map_map]; rfl)
theorem vecOp2_writes (s : State) (f : Nat → Nat → Nat) (d a b : VNum) (t : ETy) (m : Option MNum) :
    LaneWrite s (vecOp2 f d a b t m s) d t m fun i => f (s.lane t a i) (s.lane t b i) :=
  vecWrite_of (by rw [elems_eq, elems_eq, zipWith_map_range])

/-- A group of registers written in one context. -/
def Ctx.setGroup (x : Ctx) (d : VNum) (g n : Nat) : Ctx := (List.range g).foldl (fun x k => x.setV (vplus d k).val (BitVec.ofNat 4096 (n >>> (4096 * k)))) x

theorem Ctx.setGroup_succ (x : Ctx) (d : VNum) (g n : Nat) :
    x.setGroup d (g + 1) n = (x.setGroup d g n).setV (vplus d g).val (BitVec.ofNat 4096 (n >>> (4096 * g))) := by
  rw [Ctx.setGroup, List.range_succ, List.foldl_append]
  rfl

theorem Ctx.setGroup_eq (x : Ctx) (d : VNum) (g n : Nat) : x.setGroup d g n = { x with v := (x.setGroup d g n).v } := by
  induction g with
  | zero => rfl
  | succ g ih =>
    rw [Ctx.setGroup_succ, ih]
    rfl

theorem modCx_setGroupNat (s : State) (d : VNum) (g x : Nat) (f : Ctx → Ctx) : (s.setGroupNat d g x).modCx f = s.modCx fun y => f (y.setGroup d g x) := by
  induction g generalizing f with
  | zero => rfl
  | succ g ih =>
    rw [setGroupNat_succ, State.setV, modCx_modCx, ih]
    simp only [Ctx.setGroup_succ]

/-- A group written and the instruction done: nothing but the vector file and the strand differs. -/
theorem retire_setGroupNat (s : State) (d : VNum) (g x : Nat) :
    (s.setGroupNat d g x).retire = (s.modCx fun y => { y with v := (s.setGroupNat d g x).retire.cx.v }).retire := by
  have hfocus := (strands_setGroupNat s d g x).1
  have hgroup : (s.setGroupNat d g x).retire = s.modCx fun y => (y.setGroup d g x).modStrand (strandIx s.focus) (·.retire 1) := by
    rw [State.retire, modSt_eq, modCx_setGroupNat, hfocus]
  have hv : (s.setGroupNat d g x).retire.cx.v = (s.cx.setGroup d g x).v := by
    rw [hgroup, cx_modCx]
    rfl
  rw [hv, hgroup, State.retire, modSt_eq, modCx_modCx]
  refine modCx_congr ?_
  conv_lhs => rw [Ctx.setGroup_eq]
  rfl

theorem setGroupNat_writes {s : State} {d : VNum} {g x : Nat} {p : State → Prop} (h : p (s.setGroupNat d g x).retire) :
    GroupWrite s (.next (s.setGroupNat d g x).retire) d g p := by
  refine ⟨_, rfl, retire_setGroupNat s d g x, fun k => rawByte_of_mem (mem_setGroupNat s d g x) k, fun r hr => ?_, h⟩
  rw [getV_retire]
  exact getV_setGroupNat_other s d g x hr

theorem glane_retire (s : State) (w : Nat) (d : VNum) (g i : Nat) : s.retire.glane w d g i = s.glane w d g i := by
  rw [State.glane, State.glane, State.retire, groupNat_modSt]

/-- A lane of a group written lane by lane. -/
theorem glane_setGroup_pack {s : State} {d : VNum} {g w n : Nat} (f : Nat → Nat) (hg : g ≤ 64) (hfit : w * n ≤ 4096 * g) {i : Nat} (hi : i < n) :
    (s.setGroupNat d g (packLanes w ((List.range n).map f))).retire.glane w d g i = f i % 2 ^ w := by
  rw [glane_retire, State.glane, groupNat_setGroupNat s d hg (pack_range_lt f hfit), laneOf_pack_range f hi]

theorem getM_setM_state (s : State) (d r : MNum) (v : MaskWord) : (s.setM d v).getM r = if r = d then v else s.getM r := by
  rw [State.getM, State.setM, cx_modCx, getM_setM]
  simp only [Fin.ext_iff]
  rfl
theorem getM_retire (s : State) (r : MNum) : s.retire.getM r = s.getM r := by
  rw [State.getM, State.retire, cx_modSt]
  rfl

theorem setM_writes {s : State} {d : MNum} {n : Nat} {m : Option MNum} {v : MaskWord} {f : Nat → Prop}
    (h : ∀ i < 1024, v.getLsbD i = true ↔ i < n ∧ (if s.laneOn m i = true then f i else (s.getM d).getLsbD i = true)) :
    MaskWrite s (.next (s.setM d v).retire) d n m f := by
  refine ⟨_, rfl, ?_, fun _ => rfl, fun i hi => ?_⟩
  · rw [getM_retire, getM_setM_state, if_pos rfl]
  · rw [getM_retire, getM_setM_state, if_pos rfl]
    exact h i hi

theorem setM_completes (s : State) (d : MNum) (v : MaskWord) : Completes s (.next (s.setM d v).retire) (s.setM d v).retire := ⟨rfl, fun _ => rfl⟩

/-! ### Elements of a type (R267, R291) -/

theorem intPattern_eq (t : ETy) (v : Int) : intPattern t v = (v % 2 ^ t.width).toNat := by
  rw [intPattern, BitVec.toNat_ofInt]
  push_cast
  rfl

theorem intRange_eq (t : ETy) :
    intRange t = (if t.isSigned then -(2 ^ (t.width - 1)) else 0, if t.isSigned then 2 ^ (t.width - 1) - 1 else 2 ^ t.width - 1) := by
  unfold intRange
  split <;> rfl

/-- An integer result, clamped to the type's range where `.sat` stands, and kept to the width. -/
theorem sumPattern_eq (t : ETy) (sat : Bool) (v : Int) :
    intPattern t (if sat then clampElem t v else v) =
      ((if sat then max (if t.isSigned then -(2 ^ (t.width - 1)) else 0) (min (if t.isSigned then 2 ^ (t.width - 1) - 1 else 2 ^ t.width - 1) v) else v) % 2 ^ t.width).toNat := by
  rw [intPattern_eq, clampElem, intRange_eq]

section
variable {t : ETy}

theorem elem1_int (h : t.inF = false) (sat : Bool) (fi : Int → Int) (ff : Num → Num) (a : Nat) :
    elem1 t sat fi ff a = intPattern t (if sat then clampElem t (fi (elemInt t a)) else fi (elemInt t a)) := if_neg (by simp [h])
theorem elem1_float (h : t.inF = true) (sat : Bool) (fi : Int → Int) (ff : Num → Num) (a : Nat) :
    elem1 t sat fi ff a = floatBits t (ff (decodeElem t a)) := if_pos h
theorem elem2_int (h : t.inF = false) (sat : Bool) (fi : Int → Int → Int) (ff : Num → Num → Num) (a b : Nat) :
    elem2 t sat fi ff a b = intPattern t (if sat then clampElem t (fi (elemInt t a) (elemInt t b)) else fi (elemInt t a) (elemInt t b)) := if_neg (by simp [h])
theorem elem2_float (h : t.inF = true) (sat : Bool) (fi : Int → Int → Int) (ff : Num → Num → Num) (a b : Nat) :
    elem2 t sat fi ff a b = floatBits t (ff (decodeElem t a) (decodeElem t b)) := if_pos h

theorem fmaElem_int (h : t.inF = false) (form : FmaForm) (a b c : Nat) :
    fmaElem form t a b c = intPattern t ((if form = .nma ∨ form = .nms then -(elemInt t a * elemInt t b) else elemInt t a * elemInt t b)
      + (if form = .ms ∨ form = .nms then -elemInt t c else elemInt t c)) := by
  simp [fmaElem, h]
theorem fmaElem_float (h : t.inF = true) (form : FmaForm) (a b c : Nat) :
    fmaElem form t a b c = floatBits t (numAdd (numMul (if form = .nma ∨ form = .nms then numNeg (decodeElem t a) else decodeElem t a) (decodeElem t b))
      (if form = .ms ∨ form = .nms then numNeg (decodeElem t c) else decodeElem t c)) := by
  simp [fmaElem, h]

end

theorem LaneWrite.of_eq {s : State} {o : Out} {d : VNum} {t : ETy} {m : Option MNum} {f g : Nat → Nat} (h : LaneWrite s o d t m f)
    (hfg : ∀ i < t.lanes, f i = g i) : LaneWrite s o d t m g := h.congr fun i hi => by rw [hfg i hi]

theorem vfma_writes (s : State) (form : FmaForm) (d a b c : VNum) (t : ETy) (m : Option MNum) :
    LaneWrite s (exec (.vfma form d a b c t m) s) d t m fun i => fmaElem form t (s.lane t a i) (s.lane t b i) (s.lane t c i) :=
  vecWrite_of (by rw [elems_eq, elems_eq, elems_eq, zip_map_range, zipWith_map_range])

/-! ### Widening (R292) -/

theorem width_wideType {t : ETy} (h : t.inN = true) : (wideType t).width = 2 * t.width := by
  revert h
  cases t <;> decide

theorem vecWiden_writes {s : State} {d a b : VNum} {t : ETy} {m : Option MNum} (h : t.inN = true) (fi : Int → Int → Int) (ff : Num → Num → Num) :
    GroupWrite s (vecWiden fi ff d a b t m s) d 2 fun u => ∀ i < t.lanes, u.glane (2 * t.width) d 2 i =
      if s.laneOn m i then (if t.inF then toF32 (ff (decodeElem t (s.lane t a i)) (decodeElem t (s.lane t b i)))
        else (fi (elemInt t (s.lane t a i)) (elemInt t (s.lane t b i)) % 2 ^ (2 * t.width)).toNat) % 2 ^ (2 * t.width) else s.glane (2 * t.width) d 2 i := by
  have hw := width_wideType h
  have hfit : 2 * t.width * t.lanes ≤ 4096 * 2 := by
    have := width_mul_lanes_le t
    rw [Nat.mul_assoc]
    omega
  unfold vecWiden
  simp only [hw, lanesOf, elems_eq, zipWith_map_range, mergeLanes_map_range]
  refine setGroupNat_writes fun i hi => ?_
  rw [glane_setGroup_pack _ (by decide) hfit hi, intPattern_eq, hw]
  split
  · rfl
  · exact laneOf_mod _ _ _

/-! ### Shifts and counts (R293) -/

theorem vecShift_reg (s : State) (f : Nat → Nat → Nat) (d a b : VNum) (t : ETy) (m : Option MNum) :
    LaneWrite s (vecShift f d a (.reg b) t m s) d t m fun i => f (s.lane t a i) (s.lane t b i % t.width) :=
  vecWrite_of (by rw [State.shiftCounts, elems_eq, elems_eq, List.map_map, zipWith_map_range]; rfl)
theorem vecShift_imm (s : State) (f : Nat → Nat → Nat) (d a : VNum) (k : Fin 64) (t : ETy) (m : Option MNum) :
    LaneWrite s (vecShift f d a (.imm k) t m s) d t m fun i => f (s.lane t a i) k.val :=
  vecWrite_of (by
    have hcounts : s.shiftCounts t (.imm k) = (List.range t.lanes).map fun _ => k.val := (List.map_const' ..).trans (by rw [List.length_range]; rfl) |>.symm
    rw [hcounts, elems_eq, zipWith_map_range])

/-- Trailing zeros: the width for zero, else the place of the lowest set bit. -/
theorem ctzOf_spec {w x : Nat} (hx : x < 2 ^ w) : (x = 0 → ctzOf w x = w) ∧ (x ≠ 0 → ctzOf w x < w ∧ 2 ^ ctzOf w x ∣ x ∧ x.testBit (ctzOf w x) = true) :=
  ⟨fun h0 => h0 ▸ ctzOf_zero w, fun h0 => ctzOf_lowest h0 hx⟩

theorem revOf_spec (w x : Nat) : revOf w x < 2 ^ w ∧ ∀ j < w, (revOf w x).testBit j = x.testBit (w - 1 - j) := ⟨revOf_lt w x, fun _ hj => testBit_revOf hj⟩

theorem sarElem_eq (w x n : Nat) : sarElem w x n = (Int.fdiv (BitVec.ofNat w x).toInt (2 ^ n) % 2 ^ w).toNat := by
  rw [sarElem, sshiftRight_eq_ofInt, BitVec.toNat_ofInt]
  push_cast
  rfl

section
variable (s : State) (d a b c : VNum) {t : ETy} (m : Option MNum)

theorem vecOp1_int (h : t.inF = false) (sat : Bool) (fi : Int → Int) (ff : Num → Num) : LaneWrite s (vecOp1 (elem1 t sat fi ff) d a t m s) d t m fun i =>
    intPattern t (if sat then clampElem t (fi (elemInt t (s.lane t a i))) else fi (elemInt t (s.lane t a i))) :=
  (vecOp1_writes ..).of_eq fun _ _ => elem1_int h ..

theorem vecOp2_int (h : t.inF = false) (sat : Bool) (fi : Int → Int → Int) (ff : Num → Num → Num) : LaneWrite s (vecOp2 (elem2 t sat fi ff) d a b t m s) d t m fun i =>
    intPattern t (if sat then clampElem t (fi (elemInt t (s.lane t a i)) (elemInt t (s.lane t b i))) else fi (elemInt t (s.lane t a i)) (elemInt t (s.lane t b i))) :=
  (vecOp2_writes ..).of_eq fun _ _ => elem2_int h ..

theorem vfma_int (h : t.inF = false) (form : FmaForm) : LaneWrite s (exec (.vfma form d a b c t m) s) d t m fun i =>
    (((if form = .nma ∨ form = .nms then -(elemInt t (s.lane t a i) * elemInt t (s.lane t b i)) else elemInt t (s.lane t a i) * elemInt t (s.lane t b i))
      + (if form = .ms ∨ form = .nms then -elemInt t (s.lane t c i) else elemInt t (s.lane t c i))) % 2 ^ t.width).toNat :=
  (vfma_writes ..).of_eq fun _ _ => (fmaElem_int h ..).trans (intPattern_eq ..)

theorem vecOp1_float (h : t.inF = true) (sat : Bool) (fi : Int → Int) (ff : Num → Num) : LaneWrite s (vecOp1 (elem1 t sat fi ff) d a t m s) d t m fun i =>
    floatBits t (ff (decodeElem t (s.lane t a i))) := (vecOp1_writes ..).of_eq fun _ _ => elem1_float h ..

theorem vecOp2_float (h : t.inF = true) (sat : Bool) (fi : Int → Int → Int) (ff : Num → Num → Num) : LaneWrite s (vecOp2 (elem2 t sat fi ff) d a b t m s) d t m fun i =>
    floatBits t (ff (decodeElem t (s.lane t a i)) (decodeElem t (s.lane t b i))) := (vecOp2_writes ..).of_eq fun _ _ => elem2_float h ..

theorem vfma_float (h : t.inF = true) (form : FmaForm) : LaneWrite s (exec (.vfma form d a b c t m) s) d t m fun i =>
    floatBits t (numAdd (numMul (if form = .nma ∨ form = .nms then numNeg (decodeElem t (s.lane t a i)) else decodeElem t (s.lane t a i)) (decodeElem t (s.lane t b i)))
      (if form = .ms ∨ form = .nms then numNeg (decodeElem t (s.lane t c i)) else decodeElem t (s.lane t c i))) :=
  (vfma_writes ..).of_eq fun _ _ => fmaElem_float h ..

end

/-- Settles O33: every operation writes its lanes by one function of the lanes read; a widening one writes a pair. -/
theorem vectorLaneResult : Obligations.VectorLaneResult := by
  unfold Obligations.VectorLaneResult
  refine ⟨fun s d a b c ty sat m => ⟨fun h => ?ints, fun h => ?floats, fun h => ⟨vecWiden_writes h .., vecWiden_writes h ..⟩⟩, fun s d a b k ty m => ?logic⟩
  case ints =>
    exact ⟨(vecOp2_int (h := h) ..).of_eq fun _ _ => sumPattern_eq .., (vecOp2_int (h := h) ..).of_eq fun _ _ => sumPattern_eq ..,
      (vecOp1_int (h := h) ..).of_eq fun _ _ => sumPattern_eq .., (vecOp1_int (h := h) ..).of_eq fun _ _ => sumPattern_eq ..,
      (vecOp2_int (h := h) ..).of_eq fun _ _ => intPattern_eq .., (vecOp2_writes ..).of_eq fun _ _ => intPattern_eq ..,
      (vecOp2_int (h := h) ..).of_eq fun _ _ => intPattern_eq .., (vecOp2_int (h := h) ..).of_eq fun _ _ => intPattern_eq ..,
      vfma_int (h := h) .., vfma_int (h := h) .., vfma_int (h := h) .., vfma_int (h := h) ..⟩
  case floats =>
    exact ⟨vecOp2_float (h := h) .., vecOp2_float (h := h) .., vecOp1_float (h := h) .., vecOp1_float (h := h) .., vecOp2_float (h := h) .., vecOp2_writes ..,
      vecOp2_float (h := h) .., vecOp2_float (h := h) .., vfma_float (h := h) .., vfma_float (h := h) .., vfma_float (h := h) .., vfma_float (h := h) ..⟩
  case logic =>
    refine ⟨vecOp2_writes .., vecOp2_writes .., vecOp2_writes ..,
      (vecShift_reg ..).of_eq fun i _ => Nat.shiftLeft_eq _ _, (vecShift_reg ..).of_eq fun i _ => Nat.shiftRight_eq_div_pow _ _, (vecShift_reg ..).of_eq fun i _ => sarElem_eq _ _ _,
      (vecShift_imm ..).of_eq fun i _ => Nat.shiftLeft_eq _ _, (vecShift_imm ..).of_eq fun i _ => Nat.shiftRight_eq_div_pow _ _, (vecShift_imm ..).of_eq fun i _ => sarElem_eq _ _ _,
      ⟨_, vecOp1_writes .., fun i _ => popOf_eq_countP _ _⟩, ⟨_, vecOp1_writes .., fun i _ => clzOf_bounds (laneOf_lt ..)⟩,
      ⟨_, vecOp1_writes .., fun i _ => ctzOf_spec (laneOf_lt ..)⟩, ⟨_, vecOp1_writes .., fun i _ => revOf_spec _ _⟩⟩

/-! ### Compares, masks and the select (R294, R295) -/

theorem cmpElem_int {t : ETy} (h : t.inF = false) (c : Cond) (x y : Nat) : cmpElem c t x y = true ↔ ElemHolds c t x y := by
  have hint : cmpElem c t x y = match c with
      | .eq => x == y
      | .ne => x != y
      | .lt => elemInt t x < elemInt t y
      | .le => elemInt t x ≤ elemInt t y
      | .gt => elemInt t y < elemInt t x
      | .ge => elemInt t y ≤ elemInt t x
      | .ltu => x < y
      | .leu => x ≤ y
      | .gtu => y < x
      | .geu => y ≤ x := (if_neg (by simp [h])).trans (by cases c <;> rfl)
  rw [hint]
  cases c with
  | eq => exact beq_iff_eq
  | ne => exact bne_iff_ne
  | lt | le | gt | ge | ltu | leu | gtu | geu => exact decide_eq_true_iff

theorem cmpElem_float {t : ETy} (h : t.inF = true) (c : Cond) (x y : Nat) : cmpElem c t x y = numCond c (decodeElem t x) (decodeElem t y) := if_pos h

theorem laneOf_one (x i : Nat) : laneOf 1 x i = bitNat (x.testBit i) := by
  rw [laneOf, Nat.one_mul, Nat.shiftRight_eq_div_pow, pow_one, ← Nat.toNat_testBit]
  cases x.testBit i <;> rfl

theorem bitNat_eq_one (b : Bool) : bitNat b = 1 ↔ b = true := by cases b <;> decide

/-- A mask packed from n lanes: lane i is set where its entry is odd, and none from n on. -/
theorem getLsbD_pack_range {n : Nat} (f : Nat → Nat) (i : Nat) (hi : i < 1024) :
    (BitVec.ofNat 1024 (packLanes 1 ((List.range n).map f))).getLsbD i = true ↔ i < n ∧ f i % 2 = 1 := by
  rw [BitVec.getLsbD_ofNat, decide_eq_true hi, Bool.true_and, ← bitNat_eq_one, ← laneOf_one]
  by_cases hn : i < n
  · rw [laneOf_pack_range f hn]
    simp [hn]
  · rw [laneOf_packLanes, List.getElem?_eq_none (by simpa using hn)]
    simp [hn]

theorem vcmp_writes (s : State) (c : Cond) (d : MNum) (a b : VNum) (t : ETy) (m : Option MNum) :
    MaskWrite s (exec (.vcmp c d a b t m) s) d t.lanes m fun i => cmpElem c t (s.lane t a i) (s.lane t b i) = true := by
  show MaskWrite s (execVcmp c d a b t m s) d t.lanes m _
  unfold execVcmp
  dsimp only
  rw [elems_eq, elems_eq, zipWith_map_range, lanesOf, mergeLanes_map_range]
  refine setM_writes fun i hi => ?_
  rw [getLsbD_pack_range _ i hi]
  refine and_congr_right fun _ => ?_
  have hodd : ∀ b : Bool, bitNat b % 2 = 1 ↔ b = true := fun b => by cases b <;> decide
  split
  · exact hodd _
  · rw [laneOf_one, hodd]
    rfl

theorem MaskWrite.congr {s : State} {o : Out} {d : MNum} {n : Nat} {m : Option MNum} {f g : Nat → Prop} (h : MaskWrite s o d n m f) (hfg : ∀ i, f i ↔ g i) :
    MaskWrite s o d n m g := (funext fun i => propext (hfg i)) ▸ h

theorem vsel_writes (s : State) (d a b : VNum) (t : ETy) (m : MNum) :
    LaneWrite s (exec (.vsel d a b t m) s) d t none fun i => if (s.getM m).getLsbD i then s.lane t a i else s.lane t b i :=
  vecWrite_of (by rw [elems_eq, elems_eq, mergeLanes_map_range]; rfl)

theorem mset_writes (s : State) (d : MNum) (r : SReg) : MaskWrite s (exec (.mset d r) s) d 1024 none fun i => i < (s.getS r).toNat := by
  refine setM_writes fun i hi => ?_
  rw [BitVec.getLsbD_ofNat, decide_eq_true hi, Bool.true_and, Nat.testBit_two_pow_sub_one, decide_eq_true_iff]
  simp [State.laneOn, hi]

theorem mpop_writes (s : State) (r : SReg) (m : MNum) (t : ETy) :
    ScalarWrite s (exec (.mpop r m t) s) r (BitVec.ofNat 64 ((List.range t.lanes).countP (s.getM m).getLsbD)) :=
  scalarWrite_of_eq (by rw [setLanes, List.countP_eq_length_filter])

/-- No lane of a type is set. -/
theorem setLanes_nil {x : MaskWord} {n : Nat} (h : ∀ i < n, x.getLsbD i = false) : setLanes x n = [] :=
  List.filter_eq_nil_iff.mpr fun i hi => by simp [h i (List.mem_range.mp hi)]

/-- The first lane set. -/
theorem head?_setLanes {x : MaskWord} {n i : Nat} (hi : i < n) (hset : x.getLsbD i = true) (hbelow : ∀ j < i, x.getLsbD j = false) : (setLanes x n).head? = some i := by
  obtain ⟨k, rfl⟩ : ∃ k, n = i + (k + 1) := ⟨n - i - 1, by omega⟩
  have hnone : (List.range i).filter x.getLsbD = [] := setLanes_nil hbelow
  rw [setLanes, List.range_add, List.filter_append, hnone, List.nil_append, List.range_succ_eq_map, List.map_cons, Nat.add_zero, List.filter_cons_of_pos hset]
  rfl

/-- Settles O34: a compare and MSET by the mask they pack, the select as a merge, the counts by the list of the lanes set. -/
theorem vectorMaskResult : Obligations.VectorMaskResult := by
  unfold Obligations.VectorMaskResult
  intro s c d ma mb vd a b r ty m ia ib
  refine ⟨fun hty => (vcmp_writes s c d a b ty m).congr fun i => cmpElem_int hty c _ _,
    fun hty => (vcmp_writes s c d a b ty m).congr fun i => by rw [cmpElem_float hty],
    vsel_writes s vd a b ty ma, setM_completes .., setM_completes .., setM_completes .., mset_writes s d r, mpop_writes s r ma ty,
    fun hnone => scalarWrite_of_eq ?_, fun i hi hset hbelow => scalarWrite_of_eq ?_⟩
  · rw [setLanes_nil hnone]
    rfl
  · rw [head?_setLanes hi hset hbelow]

/-! ### Permutes and moves (R299) -/

section
variable (s : State) (d a b : VNum) (r : SReg) (t : ETy) (m : Option MNum)

theorem vperm_writes : LaneWrite s (exec (.vperm d a b t m) s) d t m
    fun i => s.lane t a (s.glane 16 b (if t.lanes ≤ 256 then 1 else t.lanes / 256) i % t.lanes) :=
  vecWrite_of (by rw [lanesOf, List.map_map]; rfl)

theorem vslide_writes : LaneWrite s (exec (.vslide d a b r t m) s) d t m fun i =>
    if i + min (s.getS r).toNat t.lanes < t.lanes then s.lane t a (i + min (s.getS r).toNat t.lanes) else s.lane t b (i + min (s.getS r).toNat t.lanes - t.lanes) := by
  refine vecWrite_of (List.ext_getElem? fun i => ?_)
  obtain ⟨k, hk⟩ : ∃ k, k = min (s.getS r).toNat t.lanes := ⟨_, rfl⟩
  have hle : k ≤ t.lanes := hk ▸ Nat.min_le_right _ _
  have hmin : Nat.min (s.getS r).toNat t.lanes = k := hk.symm
  rw [hmin, ← hk, elems_eq, elems_eq, List.getElem?_take, List.getElem?_drop, List.getElem?_map]
  by_cases hi : i < t.lanes
  · rw [if_pos hi, List.getElem?_range hi, Option.map_some, Nat.add_comm k]
    by_cases hin : i + k < t.lanes
    · rw [if_pos hin, List.getElem?_append_left (by simpa using hin), getElem?_map_range _ hin]
    · rw [if_neg hin, List.getElem?_append_right (by simpa using hin), List.length_map, List.length_range, getElem?_map_range _ (by omega)]
  · rw [if_neg hi, List.getElem?_eq_none (by simpa using hi)]
    rfl

theorem vbcast_writes : LaneWrite s (exec (.vbcast d r t m) s) d t m fun _ => (s.getS r).toNat :=
  (vecWrite_of (f := fun _ => (s.getS r).toNat % 2 ^ t.width) (by rw [List.map_const', List.length_range])).congr fun _ _ => Nat.mod_mod _ _

theorem vins_writes (k : Fin 1024) : LaneWrite s (exec (.vins d r t k) s) d t none fun i => if i = k.val then (s.getS r).toNat else s.lane t d i := by
  refine (vecWrite_of (f := fun i => if i = k.val then (s.getS r).toNat % 2 ^ t.width else s.lane t d i) (List.ext_getElem? fun i => ?_)).congr fun i _ => ?_
  · rw [elems_eq, List.getElem?_set, List.getElem?_map, List.getElem?_map, List.length_map, List.length_range]
    by_cases hi : i < t.lanes
    · rw [List.getElem?_range hi]
      by_cases hk : k.val = i
      · simp [hk, hi]
      · simp [hk, Ne.symm hk]
    · rw [List.getElem?_eq_none (by simpa using hi)]
      split
      · rw [if_neg (by omega)]
        rfl
      · rfl
  · split
    · exact Nat.mod_mod _ _
    · rfl

theorem vext_writes (k : Fin 1024) : ScalarWrite s (exec (.vext r a t k) s) r
    (if t.isSigned then BitVec.ofInt 64 (elemInt t (s.lane t a k.val)) else BitVec.ofNat 64 (s.lane t a k.val)) := by
  refine scalarWrite_of_eq ?_
  have hlt : s.lane t a k.val < 2 ^ t.width := laneOf_lt _ _ _
  show extend t.width t.isSigned (s.lane t a k.val) = _
  unfold extend elemInt
  split
  · rfl
  · exact BitVec.eq_of_toNat_eq (by simp [Nat.mod_eq_of_lt hlt])

theorem vunzip_writes (odd : Bool) : LaneWrite s (exec (.vunzip d a t odd) s) d t none fun i => s.glane t.width a 2 (2 * i + if odd then 1 else 0) := vecWrite_writes ..

theorem vrev_writes : LaneWrite s (exec (.vrev d a t m) s) d t m fun i => s.lane t a (t.lanes - 1 - i) := by
  refine vecWrite_of (List.ext_getElem? fun i => ?_)
  rw [elems_eq, List.getElem?_map]
  by_cases hi : i < t.lanes
  · rw [List.getElem?_reverse (by simpa using hi), List.length_map, List.length_range, getElem?_map_range _ (by omega), List.getElem?_range hi]
    rfl
  · rw [List.getElem?_eq_none (by simpa using hi), List.getElem?_eq_none (by simpa using hi)]
    rfl

end

/-- The enabled elements are those of the enabled lanes, in lane order. -/
theorem enabled_eq (s : State) (t : ETy) (a : VNum) (m : Option MNum) : s.enabled t a m = ((List.range t.lanes).filter fun i => s.laneOn m i).map (s.lane t a) := by
  rw [State.enabled, elems_eq, zipIdx_map_range, List.filter_map, List.map_map]
  rfl

theorem vcmpr_writes (s : State) (d a : VNum) (t : ETy) (m : MNum) : LaneWrite s (exec (.vcmpr d a t m) s) d t none fun i =>
    match ((List.range t.lanes).filter fun i => (s.getM m).getLsbD i)[i]? with | some j => s.lane t a j | none => 0 := by
  refine vecWrite_of (List.ext_getElem? fun i => ?_)
  obtain ⟨on, hon⟩ : ∃ on, on = (List.range t.lanes).filter fun i => (s.getM m).getLsbD i := ⟨_, rfl⟩
  have henabled : s.enabled t a (some m) = on.map (s.lane t a) := by rw [enabled_eq, hon]; rfl
  have hlen : on.length ≤ t.lanes := by
    rw [hon]
    exact (List.length_filter_le _ _).trans_eq List.length_range
  rw [henabled, ← hon, List.length_map, List.getElem?_map]
  by_cases hi : i < t.lanes
  · rw [List.getElem?_range hi]
    by_cases hin : i < on.length
    · rw [List.getElem?_append_left (by simpa using hin), List.getElem?_map, Option.map_some]
      simp only [List.getElem?_eq_getElem hin, Option.map_some]
    · rw [List.getElem?_append_right (by simpa using hin), List.getElem?_replicate, List.length_map, if_pos (by omega), Option.map_some]
      simp only [List.getElem?_eq_none (Nat.not_lt.mp hin)]
  · rw [List.getElem?_eq_none (by simp; omega), List.getElem?_eq_none (by simpa using hi)]
    rfl

theorem interleave_map_range (n : Nat) (f g : Nat → Nat) :
    interleave ((List.range n).map f) ((List.range n).map g) = (List.range (2 * n)).map fun i => if i % 2 = 0 then f (i / 2) else g (i / 2) := by
  rw [interleave, zip_map_range, List.flatMap_map]
  induction n with
  | zero => rfl
  | succ n ih =>
    rw [List.range_succ, List.flatMap_append, ih, Nat.mul_succ, List.range_succ, List.range_succ, List.map_append, List.map_append, List.append_assoc]
    congr 1
    have heven : 2 * n % 2 = 0 ∧ 2 * n / 2 = n := by omega
    have hodd : (2 * n + 1) % 2 = 1 ∧ (2 * n + 1) / 2 = n := by omega
    simp [heven, hodd]

theorem vzip_writes (s : State) (d a b : VNum) (t : ETy) : GroupWrite s (exec (.vzip d a b t) s) d 2 fun u =>
    ∀ i < t.lanes, u.glane t.width d 2 (2 * i) = s.lane t a i ∧ u.glane t.width d 2 (2 * i + 1) = s.lane t b i := by
  have hfit : t.width * (2 * t.lanes) ≤ 4096 * 2 := by
    have := width_mul_lanes_le t
    rw [Nat.mul_left_comm]
    omega
  show GroupWrite s (execVzip d a b t s) d 2 _
  unfold execVzip
  rw [elems_eq, elems_eq, interleave_map_range]
  refine setGroupNat_writes fun i hi => ⟨?_, ?_⟩
  · rw [glane_setGroup_pack _ (by decide) hfit (by omega), if_pos (by omega), show 2 * i / 2 = i by omega]
    exact laneOf_mod _ _ _
  · rw [glane_setGroup_pack _ (by decide) hfit (by omega), if_neg (by omega), show (2 * i + 1) / 2 = i by omega]
    exact laneOf_mod _ _ _

theorem ofNat_pack_register {w n k : Nat} (f : Nat → BitVec w) (hk : k < n) : BitVec.ofNat w (packLanes w ((List.range n).map fun i => (f i).toNat) >>> (w * k)) = f k := by
  refine BitVec.eq_of_toNat_eq ?_
  rw [toNat_ofNat_lane, laneOf_pack_range _ hk, BitVec.toNat_mod_cancel]

/-- Register k of a group read as one number. -/
theorem groupNat_register (s : State) (a : VNum) {g k : Nat} (hk : k < g) : BitVec.ofNat 4096 (s.groupNat a g >>> (4096 * k)) = s.getV (vplus a k) :=
  ofNat_pack_register (fun k => s.getV (vplus a k)) hk

theorem vmov_writes (s : State) (d a : VNum) (sz : Fin 3) : GroupWrite s (exec (.vmov d a sz) s) d (2 ^ sz.val) fun u =>
    ∀ j < 2 ^ sz.val, u.getV (vplus d j) = s.getV (vplus a j) := by
  have hg : 2 ^ sz.val ≤ 64 := (Nat.pow_le_pow_right (by decide) (show sz.val ≤ 6 by omega)).trans (by decide)
  exact setGroupNat_writes fun j hj => by rw [getV_retire, getV_setGroupNat s d _ hg hj, groupNat_register s a hj]

/-- Settles O37: each move by the list of elements it writes, read lane by lane; a zip and a group move by the group they write. -/
theorem permuteResult : Obligations.PermuteResult := by
  unfold Obligations.PermuteResult
  intro s d a b r ty m mk k odd sz
  exact ⟨vperm_writes .., vslide_writes .., vbcast_writes .., vins_writes .., vext_writes .., vzip_writes .., vunzip_writes .., vrev_writes .., vcmpr_writes .., vmov_writes ..⟩

/-! ### Reductions (R297) -/

/-- A sum over the enabled lanes is one over all lanes in which a disabled one counts nothing. -/
theorem sum_filter_range {n : Nat} (on : Nat → Bool) (f : Nat → Int) :
    (((List.range n).filter on).map f).sum = ((List.range n).map fun i => if on i then f i else 0).sum := by
  rw [List.sum_map_ite (fun i => on i = true) f (fun _ => 0)]
  simp

theorem foldl_max_spec {b : Int} {l : List Int} (hne : l ≠ []) (hb : ∀ x ∈ l, b ≤ x) : l.foldl max b ∈ l ∧ ∀ x ∈ l, x ≤ l.foldl max b := by
  obtain ⟨a, ha⟩ := Option.ne_none_iff_exists'.mp fun h => hne (List.max?_eq_none_iff.mp h)
  obtain ⟨hmem, hmax⟩ := List.max?_eq_some_iff.mp ha
  rw [List.foldl_max, ha, Option.getD_some, max_eq_right (hb a hmem)]
  exact ⟨hmem, hmax⟩
theorem foldl_min_spec {b : Int} {l : List Int} (hne : l ≠ []) (hb : ∀ x ∈ l, x ≤ b) : l.foldl min b ∈ l ∧ ∀ x ∈ l, l.foldl min b ≤ x := by
  obtain ⟨a, ha⟩ := Option.ne_none_iff_exists'.mp fun h => hne (List.min?_eq_none_iff.mp h)
  obtain ⟨hmem, hmin⟩ := List.min?_eq_some_iff.mp ha
  rw [List.foldl_min, ha, Option.getD_some, min_eq_right (hb a hmem)]
  exact ⟨hmem, hmin⟩

/-- An element lies in its type's range (R267). -/
theorem elemInt_range (t : ETy) {x : Nat} (hx : x < 2 ^ t.width) : (intRange t).1 ≤ elemInt t x ∧ elemInt t x ≤ (intRange t).2 := by
  unfold intRange elemInt
  split
  · exact ⟨BitVec.le_toInt _, Int.le_sub_one_of_lt BitVec.toInt_lt⟩
  · have : (x : Int) < 2 ^ t.width := by exact_mod_cast hx
    dsimp only
    omega

section
variable (s : State) (d : SReg) (a : VNum) (t : ETy) (m : Option MNum)

/-- The enabled lanes of a type, in lane order. -/
def State.onLanes (s : State) (t : ETy) (m : Option MNum) : List Nat := (List.range t.lanes).filter fun i => s.laneOn m i

theorem mem_onLanes {s : State} {t : ETy} {m : Option MNum} {i : Nat} : i ∈ s.onLanes t m ↔ i < t.lanes ∧ s.laneOn m i = true := by
  rw [State.onLanes, List.mem_filter, List.mem_range]
theorem onLanes_nil {s : State} {t : ETy} {m : Option MNum} : s.onLanes t m = [] ↔ ∀ i < t.lanes, ¬s.laneOn m i = true := by
  simp only [List.eq_nil_iff_forall_not_mem, mem_onLanes, not_and]

theorem enabled_map {α : Type} (f : Nat → α) : (s.enabled t a m).map f = (s.onLanes t m).map fun i => f (s.lane t a i) := by
  rw [enabled_eq, List.map_map]
  rfl

variable {s d a t m}

section
variable (hty : t.inF = false)
include hty

theorem vrsum_int : ScalarWrite s (exec (.vrsum d a t m) s) d
    (BitVec.ofInt 64 ((List.range t.lanes).map fun i => if s.laneOn m i then elemInt t (s.lane t a i) else 0).sum) := by
  refine scalarWrite_of_eq ?_
  rw [if_neg (by simp [hty]), ← List.sum_eq_foldl, enabled_map, State.onLanes, sum_filter_range]

theorem vrmax_int : ScalarWrite s (exec (.vrmax d a t m) s) d (BitVec.ofInt 64 (((s.onLanes t m).map fun i => elemInt t (s.lane t a i)).foldl max (intRange t).1)) := by
  refine scalarWrite_of_eq ?_
  rw [if_neg (by simp [hty]), enabled_map]
theorem vrmin_int : ScalarWrite s (exec (.vrmin d a t m) s) d (BitVec.ofInt 64 (((s.onLanes t m).map fun i => elemInt t (s.lane t a i)).foldl min (intRange t).2)) := by
  refine scalarWrite_of_eq ?_
  rw [if_neg (by simp [hty]), enabled_map]

end

/-- An element of a list over the enabled lanes belongs to one of them. -/
theorem mem_map_onLanes {f : Nat → Int} {r : Int} (h : r ∈ (s.onLanes t m).map f) : ∃ i < t.lanes, s.laneOn m i = true ∧ r = f i := by
  obtain ⟨i, hi, hr⟩ := List.mem_map.mp h
  obtain ⟨hlt, hon⟩ := mem_onLanes.mp hi
  exact ⟨i, hlt, hon, hr.symm⟩

theorem range_onLanes : ∀ x ∈ (s.onLanes t m).map fun i => elemInt t (s.lane t a i), (intRange t).1 ≤ x ∧ x ≤ (intRange t).2 := fun x hx => by
  obtain ⟨i, -, -, rfl⟩ := mem_map_onLanes hx
  exact elemInt_range t (laneOf_lt ..)

/-- The greatest enabled element. -/
theorem max_onLanes (h : ¬∀ i < t.lanes, ¬s.laneOn m i = true) :
    let r := ((s.onLanes t m).map fun i => elemInt t (s.lane t a i)).foldl max (intRange t).1
    (∃ i < t.lanes, s.laneOn m i = true ∧ r = elemInt t (s.lane t a i)) ∧ ∀ i < t.lanes, s.laneOn m i = true → elemInt t (s.lane t a i) ≤ r := by
  obtain ⟨hmem, hmax⟩ := foldl_max_spec (fun hnil => h (onLanes_nil.mp (List.map_eq_nil_iff.mp hnil))) fun x hx => (range_onLanes (a := a) x hx).1
  exact ⟨mem_map_onLanes hmem, fun i hi hon => hmax _ (List.mem_map_of_mem (mem_onLanes.mpr ⟨hi, hon⟩))⟩
/-- The least enabled element. -/
theorem min_onLanes (h : ¬∀ i < t.lanes, ¬s.laneOn m i = true) :
    let r := ((s.onLanes t m).map fun i => elemInt t (s.lane t a i)).foldl min (intRange t).2
    (∃ i < t.lanes, s.laneOn m i = true ∧ r = elemInt t (s.lane t a i)) ∧ ∀ i < t.lanes, s.laneOn m i = true → r ≤ elemInt t (s.lane t a i) := by
  obtain ⟨hmem, hmin⟩ := foldl_min_spec (fun hnil => h (onLanes_nil.mp (List.map_eq_nil_iff.mp hnil))) fun x hx => (range_onLanes (a := a) x hx).2
  exact ⟨mem_map_onLanes hmem, fun i hi hon => hmin _ (List.mem_map_of_mem (mem_onLanes.mpr ⟨hi, hon⟩))⟩

section
variable (hty : t.inF = true)
include hty

theorem vrsum_float : ScalarWrite s (exec (.vrsum d a t m) s) d (if s.onLanes t m = [] then 0
    else BitVec.ofNat 64 (toF32 ((treeSum (Nat.log2 t.lanes) ((List.range t.lanes).map fun i => if s.laneOn m i then decodeElem t (s.lane t a i) else .fin true 0 0)).headD .nan))) := by
  have henabled : s.enabled t a m = [] ↔ s.onLanes t m = [] := by rw [enabled_eq, List.map_eq_nil_iff, State.onLanes]
  refine scalarWrite_of_eq ?_
  rw [if_pos hty, floatSum, apply_ite (BitVec.ofNat 64)]
  refine if_congr henabled rfl ?_
  rw [elems_eq, zipIdx_map_range, List.map_map]
  rfl

theorem vrmax_float : ScalarWrite s (exec (.vrmax d a t m) s) d (BitVec.ofNat 64 (toF32 (((s.onLanes t m).map fun i => decodeElem t (s.lane t a i)).foldl numMax (.inf true)))) := by
  refine scalarWrite_of_eq ?_
  rw [if_pos hty, enabled_map]
theorem vrmin_float : ScalarWrite s (exec (.vrmin d a t m) s) d (BitVec.ofNat 64 (toF32 (((s.onLanes t m).map fun i => decodeElem t (s.lane t a i)).foldl numMin (.inf false)))) := by
  refine scalarWrite_of_eq ?_
  rw [if_pos hty, enabled_map]

end

end

/-! ### Special functions (R298) -/

theorem specFn32_nan (f : SpecFn) {x : Nat} (h : ofF32 x = .nan) : specFn32 f x = 0x7FC00000 := by
  unfold specFn32
  rw [h]

/-- Roots and the logarithm of a negative value are NaN. -/
theorem specFn32_negative {x k : Nat} {e : Int} (hk : k ≠ 0) (h : ofF32 x = .fin true k e) :
    specFn32 .rsqrt x = 0x7FC00000 ∧ specFn32 .sqrt x = 0x7FC00000 ∧ specFn32 .log2 x = 0x7FC00000 := by
  unfold specFn32
  rw [h]
  refine ⟨?_, ?_, ?_⟩
  · exact (if_neg hk).trans (if_pos rfl)
  · show toF32 (if k = 0 then _ else if true = true then Num.nan else _) = _
    rw [if_neg hk, if_pos rfl]
    rfl
  · exact (if_neg hk).trans (if_pos rfl)

/-- The special values of R298. -/
theorem specFn32_values :
    specFn32 .rcp 0 = 0x7F800000 ∧ specFn32 .rcp 0x80000000 = 0xFF800000 ∧ specFn32 .rcp 0x7F800000 = 0 ∧ specFn32 .rcp 0xFF800000 = 0x80000000
    ∧ specFn32 .rsqrt 0 = 0x7F800000 ∧ specFn32 .rsqrt 0x80000000 = 0xFF800000 ∧ specFn32 .rsqrt 0x7F800000 = 0 ∧ specFn32 .sqrt 0x80000000 = 0x80000000
    ∧ specFn32 .exp2 0xFF800000 = 0 ∧ specFn32 .exp2 0x7F800000 = 0x7F800000 ∧ specFn32 .log2 0 = 0xFF800000 ∧ specFn32 .log2 0x80000000 = 0xFF800000
    ∧ specFn32 .tanh 0x7F800000 = 0x3F800000 ∧ specFn32 .tanh 0xFF800000 = 0xBF800000 ∧ specFn32 .sigm 0xFF800000 = 0 ∧ specFn32 .sigm 0x7F800000 = 0x3F800000 := by
  decide +kernel

/-- Powers of two from 0 to 127 and their logarithms are exact. -/
theorem specFn32_powers : ∀ n < 128, specFn32 .exp2 (toF32 (.fin false n 0)) = (n + 127) * 2 ^ 23 ∧ specFn32 .log2 ((n + 127) * 2 ^ 23) = toF32 (.fin false n 0) := by
  decide +kernel

/-- Settles O36: a reduction as a fold over the enabled lanes, whose extremes lie in the type's range; the function's exact cases by its own branches. -/
theorem reductionSpecialResult : Obligations.ReductionSpecialResult := by
  unfold Obligations.ReductionSpecialResult
  intro s d v a ty m f x on X lo hi idle fin
  have hrange : intRange ty = (lo, hi) := intRange_eq ty
  have hlo : (intRange ty).1 = lo := congrArg Prod.fst hrange
  have hhi : (intRange ty).2 = hi := congrArg Prod.snd hrange
  refine ⟨fun hty => ⟨vrsum_int hty, ⟨_, vrmax_int hty, fun hidle => ?_, max_onLanes⟩, ⟨_, vrmin_int hty, fun hidle => ?_, min_onLanes⟩⟩,
    fun hty => ⟨fun hidle => ⟨?_, ?_, ?_⟩, fun hbusy => ?_, vrmax_float hty, vrmin_float hty⟩,
    vecOp1_writes .., specFn32_nan f, fun k e hk h => specFn32_negative hk h, ?_⟩
  · rw [onLanes_nil.mpr hidle, ← hlo]
    rfl
  · rw [onLanes_nil.mpr hidle, ← hhi]
    rfl
  · have hsum := vrsum_float (s := s) (d := d) (a := a) (m := m) hty
    rwa [if_pos (onLanes_nil.mpr hidle)] at hsum
  · have hmax := vrmax_float (s := s) (d := d) (a := a) (m := m) hty
    rwa [onLanes_nil.mpr hidle] at hmax
  · have hmin := vrmin_float (s := s) (d := d) (a := a) (m := m) hty
    rwa [onLanes_nil.mpr hidle] at hmin
  · have hsum := vrsum_float (s := s) (d := d) (a := a) (m := m) hty
    rwa [if_neg fun hnil => hbusy (onLanes_nil.mp hnil)] at hsum
  · obtain ⟨h1, h2, h3, h4, h5, h6, h7, h8, h9, h10, h11, h12, h13, h14, h15, h16⟩ := specFn32_values
    exact ⟨h1, h2, h3, h4, h5, h6, h7, h8, h9, h10, h11, h12, h13, h14, h15, h16, specFn32_powers⟩

/-! ## Ligature instructions (R308-R314) -/

/-! ### LPACK (R310) -/

/-- Terms that begin at bit b or above do not reach the low b bits of a sum. -/
theorem foldl_slots_emod (b : Nat) (at_ : Nat → Nat) (l : List (Int × Nat)) (x : Int) :
    l.foldl (fun (x : Int) (e : Int × Nat) => if at_ e.2 ≥ b then x else x + e.1 * ((2 ^ at_ e.2 : Nat) : Int)) x % (2 : Int) ^ b = (x + (l.map fun e => e.1 * 2 ^ at_ e.2).sum) % 2 ^ b := by
  induction l generalizing x with
  | nil => simp
  | cons e l ih =>
    rw [List.foldl_cons, ih, List.map_cons, List.sum_cons]
    split
    next h =>
      have hdvd : (2 : Int) ^ b ∣ e.1 * 2 ^ at_ e.2 := Dvd.dvd.mul_left (pow_dvd_pow 2 h) _
      refine Int.modEq_iff_dvd.mpr ?_
      rwa [add_sub_add_left_eq_sub, add_sub_cancel_right]
    next h =>
      push_cast
      rw [Int.add_assoc]

/-- The place of element i in LPACK. -/
def ligPlace (o : LigOp) (rev : Bool) (i : Nat) : Nat := o.first.val + o.stride.val * (if rev then o.count.toNat - 1 - i else i)

theorem packSum_ofInt (w n b : Nat) (hb : b = 4096) (f : Nat → Int) (place : Nat → Nat) :
    BitVec.ofInt b (packSum w ((List.range n).map f) place) = BitVec.ofInt b ((List.range n).map fun i => f i * 2 ^ (w * place i)).sum := by
  refine ofInt_congr ?_
  have hfold := foldl_slots_emod b (fun i => w * place i) ((List.range n).map fun i => (f i, i)) 0
  rw [Int.zero_add, List.map_map] at hfold
  rw [packSum, zipIdx_map_range, ← hb]
  exact hfold

theorem lpack_completes {s : State} {d a : VNum} {t : ETy} {rev : Bool} {o : LigOp} (hc : o.count.toNat ≤ t.lanes) :
    Completes s (exec (.lpack d a t rev o) s)
      (s.setV d (BitVec.ofInt 4096 ((List.range o.count.toNat).map fun i => elemInt t (s.lane t a i) * 2 ^ (s.slotWidth o.sw * ligPlace o rev i)).sum)).retire := by
  have hes : ((s.elems t a).take o.count.toNat).map (elemInt t) = (List.range o.count.toNat).map fun i => elemInt t (s.lane t a i) := by
    rw [elems_eq, ← List.map_take, List.take_range, Nat.min_eq_left hc, List.map_map]
    rfl
  have hplace : (fun i => if rev then o.first.val + o.stride.val * (o.count.toNat - 1 - i) else o.first.val + o.stride.val * i) = ligPlace o rev := by
    funext i
    cases rev <;> rfl
  refine ⟨?_, fun _ => rfl⟩
  show execLpack d a t rev o s = _
  unfold execLpack
  dsimp only
  rw [hes, hplace, packSum_ofInt _ _ 4096 rfl]

/-! ### LMUL (R311, R312) -/

theorem vplus_zero (d : VNum) : vplus d 0 = d := Fin.ext (Nat.mod_eq_of_lt d.isLt)

/-- The two halves of a product land in the pair. -/
theorem setV_halves (s : State) (d : VNum) (p : BitVec 8192) :
    (s.setV d (p.extractLsb' 0 4096)).setV (vplus d 1) (p.extractLsb' 4096 4096) = s.setGroupNat d 2 p.toNat := by
  have hgroup : s.setGroupNat d 2 p.toNat = (s.setV (vplus d 0) (p.extractLsb' 0 4096)).setV (vplus d 1) (p.extractLsb' 4096 4096) := rfl
  rw [hgroup, vplus_zero]

theorem toNat_halves {n m : Nat} (hm : m = n + n) (p : BitVec m) : (p.extractLsb' n n).toNat * 2 ^ n + (p.extractLsb' 0 n).toNat = p.toNat := by
  have hlt : p.toNat / 2 ^ n < 2 ^ n := Nat.div_lt_of_lt_mul (by rw [← pow_add, ← hm]; exact p.isLt)
  rw [BitVec.extractLsb'_toNat, BitVec.extractLsb'_toNat, Nat.shiftRight_eq_div_pow, Nat.shiftRight_zero, Nat.mod_eq_of_lt hlt, Nat.mul_comm]
  exact Nat.div_add_mod ..

theorem ofInt_halves {n m : Nat} (hm : m = n + n) (v : Int) :
    ((((BitVec.ofInt m v).extractLsb' n n).toNat : Int) * 2 ^ n + (((BitVec.ofInt m v).extractLsb' 0 n).toNat : Int)) = v % 2 ^ m := by
  have hnat := toNat_halves hm (BitVec.ofInt m v)
  have hpos : (0 : Int) ≤ v % ((2 ^ m : Nat) : Int) := Int.emod_nonneg _ (by positivity)
  rw [BitVec.toNat_ofInt] at hnat
  have hint := congrArg (Nat.cast : Nat → Int) hnat
  rw [Int.toNat_of_nonneg hpos] at hint
  push_cast at hint
  exact hint

/-- The pair read back is the product's low 8192 bits. -/
theorem product_setGroupNat (s : State) (d : VNum) (v : Int) :
    (((s.setGroupNat d 2 (BitVec.ofInt 8192 v).toNat).retire.getV (vplus d 1)).toNat * 2 ^ 4096 + ((s.setGroupNat d 2 (BitVec.ofInt 8192 v).toNat).retire.getV d).toNat : Int)
      = v % 2 ^ 8192 := by
  have hlow : (s.setGroupNat d 2 (BitVec.ofInt 8192 v).toNat).retire.getV d = (BitVec.ofInt 8192 v).extractLsb' 0 4096 := by
    have hpart := getV_setGroupNat s d (BitVec.ofInt 8192 v).toNat (g := 2) (by decide) (k := 0) (by decide)
    rw [vplus_zero] at hpart
    exact (getV_retire ..).trans hpart
  have hhigh : (s.setGroupNat d 2 (BitVec.ofInt 8192 v).toNat).retire.getV (vplus d 1) = (BitVec.ofInt 8192 v).extractLsb' 4096 4096 := by
    rw [getV_retire]
    exact getV_setGroupNat s d _ (by decide) (by decide)
  rw [hlow, hhigh]
  exact ofInt_halves (by decide) v

section
variable {s : State} {d a b : VNum} {sg : Bool} {sw : BitVec 7}

/-- The product as an integer, its operands read as the instruction says. -/
def State.ligProduct (s : State) (sg : Bool) (a b : VNum) : Int := ligValue sg (s.getV a) * ligValue sg (s.getV b)

theorem lmul_fits (h : ligGuard (s.slotWidth sw) sg (s.getV a) (s.getV b) = false) :
    exec (.lmul d a b sg sw) s = .next (s.setGroupNat d 2 (BitVec.ofInt 8192 (s.ligProduct sg a b)).toNat).retire := by
  show execLmul d a b sg sw s = _
  unfold execLmul
  dsimp only
  rw [h, if_neg (by simp), if_neg (by simp), setV_halves]
  rfl

theorem lmul_traps (h : ligGuard (s.slotWidth sw) sg (s.getV a) (s.getV b) = true) (ht : s.cx.ligTrap = true) :
    exec (.lmul d a b sg sw) s = .next (s.trap 0x15 0 0) := if_pos (by rw [h, ht]; rfl)

theorem lmul_sticks (h : ligGuard (s.slotWidth sw) sg (s.getV a) (s.getV b) = true) (ht : s.cx.ligTrap = false) :
    exec (.lmul d a b sg sw) s = .next ((s.modCx fun x => { x with ligGf := true }).setGroupNat d 2 (BitVec.ofInt 8192 (s.ligProduct sg a b)).toNat).retire := by
  show execLmul d a b sg sw s = _
  unfold execLmul
  dsimp only
  rw [h, ht, if_neg (by simp), if_pos rfl, setV_halves]
  rfl

end

/-- A group written in a context that differs by its sticky flag. -/
theorem flagged_setGroupNat (s : State) (d : VNum) (g x : Nat) :
    let u := ((s.modCx fun y => { y with ligGf := true }).setGroupNat d g x).retire
    (∀ k, u.rawByte k = s.rawByte k) ∧ u.cx = { s.cx with v := u.cx.v, ligGf := true, strands := u.cx.strands } ∧ u.st = s.st.retire 1 := by
  intro u
  have hu : u.cx = (({ s.cx with ligGf := true } : Ctx).setGroup d g x).modStrand (strandIx s.focus) (·.retire 1) := by
    have hgroup : u = (s.modCx fun y => { y with ligGf := true }).modCx fun y => (y.setGroup d g x).modStrand (strandIx s.focus) (·.retire 1) := by
      simp only [u]
      rw [State.retire, modSt_eq, modCx_setGroupNat, (strands_setGroupNat _ d g x).1]
      rfl
    rw [hgroup, cx_modCx, cx_modCx]
  refine ⟨fun k => rawByte_of_mem (mem_setGroupNat _ d g x) k, ?_, ?_⟩
  · rw [hu, Ctx.setGroup_eq]
    rfl
  · show ((s.modCx fun y => { y with ligGf := true }).setGroupNat d g x).retire.st = _
    rw [State.retire, st_modSt, (strands_setGroupNat _ d g x).2, st_modCx]
    rfl

/-! ### LEXT (R309, R313) -/

/-- Every signed digit lies in its slot's range. -/
theorem digits_range {w : Nat} (m : Nat) (y : Int) : ∀ v ∈ (digits w true m y).1, -(2 ^ (w - 1)) ≤ v ∧ v < 2 ^ (w - 1) := by
  induction m generalizing y with
  | zero => exact fun v hv => absurd hv List.not_mem_nil
  | succ m ih =>
    intro v hv
    rcases List.mem_cons.mp hv with h | h
    · subst h
      exact ⟨BitVec.le_toInt _, BitVec.toInt_lt⟩
    · exact ih _ v h

/-- A register written lane by lane without a mask. -/
theorem setV_pack_writes (s : State) (d : VNum) (t : ETy) (f : Nat → Nat) :
    LaneWrite s (.next (s.setV d (BitVec.ofNat 4096 (packLanes t.width ((List.range t.lanes).map f)))).retire) d t none f := by
  have hall : vecWrite s d t none ((List.range t.lanes).map f) = .next (s.setV d (BitVec.ofNat 4096 (packLanes t.width ((List.range t.lanes).map f)))).retire := by
    rw [vecWrite, elems_eq, mergeLanes_map_range]
    rfl
  exact hall ▸ vecWrite_writes s d t none f

theorem lext_writes (s : State) (d a : VNum) (t : ETy) (sat pair : Bool) (o : LigOp) :
    LaneWrite s (exec (.lext d a t sat pair o) s) d t none fun i => if i < o.count.toNat then
      extLane t sat ((digits (s.slotWidth o.sw) true ((if pair then 8192 else 4096) / s.slotWidth o.sw)
        (if pair then (s.getV (vplus a 1) ++ s.getV a).toInt else (s.getV a).toInt)).1.getD (o.first.val + o.stride.val * i) 0) else s.lane t d i := by
  show LaneWrite s (execLext d a t sat pair o s) d t none _
  unfold execLext
  dsimp only
  rw [elems_eq, zipIdx_map_range, List.map_map]
  exact (setV_pack_writes s d t _).of_eq fun i _ => by simp only [Function.comp_apply, List.getD_eq_getElem?_getD]

theorem extLane_eq (t : ETy) (sat : Bool) (v : Int) : extLane t sat v =
    ((if sat then max (if t.isSigned then -(2 ^ (t.width - 1)) else 0) (min (if t.isSigned then 2 ^ (t.width - 1) - 1 else 2 ^ t.width - 1) v) else v) % 2 ^ t.width).toNat :=
  sumPattern_eq t sat v

/-- Settles O38: LPACK as a sum modulo 2^4096, LMUL by its guard, LEXT digit by digit. -/
theorem ligatureResult : Obligations.LigatureResult := by
  unfold Obligations.LigatureResult
  intro s d a b ty rev sub sg sat pair o sw width w c X place va vb guard src ds lo hi product
  refine ⟨⟨rfl, fun _ => rfl⟩, lpack_completes, fun h => ?_, fun h ht => ?_, fun h ht => ?_, (lext_writes s d a ty sat pair o).of_eq fun i _ => ?_, ⟨rfl, fun _ => rfl⟩, fun _ _ j hj => ?_⟩
  · rw [lmul_fits h]
    exact setGroupNat_writes (product_setGroupNat s d _)
  · rw [lmul_traps h ht]
    exact trap_takes s _ _ _
  · obtain ⟨hmem, hcx, hst⟩ := flagged_setGroupNat s d 2 (BitVec.ofInt 8192 (s.ligProduct sg a b)).toNat
    exact ⟨_, lmul_sticks h ht, hmem, hcx, hst, product_setGroupNat _ d _⟩
  · exact if_congr Iff.rfl (extLane_eq ty sat _) rfl
  · rw [List.getD_eq_getElem _ _ hj]
    exact digits_range _ _ _ (List.getElem_mem hj)

end Sys2Proof.Machine

namespace Sys2Proof.Machine

/-! ## Matrix commands and chains (R300-R303, R317, R318) -/

/-- The operands that R318 asks of a matrix command whose A stands in the folio. -/
abbrev goodTiles (s : State) (c : MatCmd) : Prop :=
  (s.getS c.a).toNat % 8 = 0 ∧ (s.getS c.d).toNat < 2 ^ 32 ∧ (s.getS c.d).toNat % 8 = 0 ∧ (s.getS c.b).toNat < 512 ∧ (s.getS c.c).toNat % 512 = 0

theorem quadFenced_iff (s : State) (core : Nat) : quadFenced s core = true ↔ ∃ k < 4, s.fencedCore (core / 4 * 4 + k) = true := by
  simp [quadFenced, quadCores]

section
variable {s : State} {c : MatCmd} (hka : c.ka = false) (hfol : (s.getS c.a).toNat < 2 ^ 60)
include hka hfol

/-- A in the folio: its offset is a multiple of 8. -/
theorem planA_folio (rows : Nat) : planA s c rows = if (s.getS c.a).toNat % 8 ≠ 0 then .error codeRange else .ok (.fol (s.getS c.a), none) := by
  have htop : fld (s.getS c.a) 63 60 ≠ 15 := by
    rw [fld_upper _ (by decide), Nat.div_eq_of_lt hfol]
    decide
  unfold planA
  dsimp only
  rw [if_neg (by simp [hka]), if_neg htop]

theorem planMat_bad (h : ¬goodTiles s c) (tag : Option (Fin 16)) : planMat s c tag = .error codeRange := by
  unfold planMat
  dsimp only
  rw [planA_folio hka hfol]
  by_cases ha : (s.getS c.a).toNat % 8 = 0
  · rw [if_neg (not_not_intro ha)]
    refine if_pos ?_
    rw [fld_upper _ (by decide), fld_upper _ (by decide), fld_lower]
    simp only [goodTiles, ha, true_and] at h
    simp only [Bool.or_eq_true, decide_eq_true_eq]
    omega
  · rw [if_pos ha]

/-- With good operands only a fenced core stands in the way of a QMMA. -/
theorem planMat_good (h : goodTiles s c) (tag : Option (Fin 16)) : ∃ a : Accept,
    a.cmd = .matrix (.fol (s.getS c.a)) none (s.getS c.b).toNat (s.getS c.c) (s.getS c.d).toNat c.chk c.zero tag
      ∧ planMat s c tag = if (tag.isSome && quadFenced s s.focus.core) = true then .error 0x09 else .ok a := by
  obtain ⟨ha, hd, hd8, hb, hc⟩ := h
  have hslot : fld (s.getS c.b) 8 0 = (s.getS c.b).toNat := Nat.mod_eq_of_lt hb
  have hstride : fld (s.getS c.d) 31 0 = (s.getS c.d).toNat := Nat.mod_eq_of_lt hd
  have hchecks : ¬(fld (s.getS c.d) 63 32 ≠ 0 || fld (s.getS c.b) 63 9 ≠ 0 || (s.getS c.c).toNat % 512 ≠ 0 || (s.getS c.d).toNat % 8 ≠ 0) = true := by
    rw [fld_upper _ (by decide), fld_upper _ (by decide)]
    simp only [Bool.or_eq_true, decide_eq_true_eq]
    omega
  unfold planMat
  dsimp only
  rw [planA_folio hka hfol, if_neg (not_not_intro ha), hstride, hslot]
  dsimp only
  rw [if_neg hchecks]
  exact ⟨_, rfl, rfl⟩

end

section
variable {s : State} {c : MatCmd} {tag : Option (Fin 16)} (hepi : c.epi = none) (hroom : s.cx.queued 0 < 16)
include hepi hroom

theorem issueMat_eq : issueMat s c tag = match planPair s c tag with
    | .error e => s.trap e 0 0
    | .ok p => (s.acceptPair p none).retireCmds 1 := by
  rw [issueMat, if_neg (by simp [matRoom, hepi, (room_iff _ _).mpr hroom]), epiCount, hepi]
  rfl

theorem issueMat_refuses {e : Nat} (h : planMat s c tag = .error e) : issueMat s c tag = s.trap e 0 0 := by
  rw [issueMat_eq hepi hroom, planPair, h]

/-- A matrix command from the folio names no handle, so that accepting it changes its context alone; it takes the head of the format-word queue. -/
theorem issueMat_accepts {a : Accept} {slot stride : Nat} {v w : Word} {chk zero : Bool} (h : planMat s c tag = .ok a) (hclear : jointClear s c tag = true)
    (hcmd : a.cmd = .matrix (.fol v) none slot w stride chk zero tag) :
    ∃ t, (∀ k, (issueMat s c tag).rawByte k = s.rawByte k) ∧ (issueMat s c tag).st = s.st.retire 2
      ∧ (issueMat s c tag).cx.queues[(0 : Fin 6)] = s.cx.queues[(0 : Fin 6)] ++ [t] ∧ t.st = .queued ∧ t.fmt = s.cx.fwq.head?.filter (fun w => (fmtOf w).isSome)
      ∧ (issueMat s c tag).cx.fwq = s.cx.fwq.tail ∧ t.cmd = a.cmd := by
  obtain ⟨b, hb⟩ : ∃ b : Accept, b = { a with after := none, lead := none } := ⟨_, rfl⟩
  have hbcmd : b.cmd = .matrix (.fol v) none slot w stride chk zero tag := by rw [hb]; exact hcmd
  have hu : issueMat s c tag = (s.modCx fun x => x.accept 0 (strandIx s.focus) b).modSt (·.retire 2) := by
    rw [issueMat_eq hepi hroom, planPair, h]
    dsimp only
    rw [hepi]
    dsimp only
    rw [if_pos hclear]
    dsimp only
    rw [show s.acceptPair (a, none) none = s.acceptCmd 0 b by rw [hb]; rfl, acceptCmd_of_folio (by rw [hbcmd]; rfl), retireCmds_one]
  rw [hu]
  refine ⟨s.cx.newTask (strandIx s.focus) b, fun k => rfl, ?_, ?_, rfl, ?_, ?_, ?_⟩
  · rw [st_modSt, st_modCx]
    rfl
  · rw [cx_modSt, cx_modCx]
    exact accept_joins ..
  · rw [Ctx.newTask, hbcmd]
    rfl
  · rw [cx_modSt, cx_modCx]
    show (s.cx.accept 0 (strandIx s.focus) b).fwq = _
    rw [accept_eq, hbcmd]
    rfl
  · rw [hcmd, ← hbcmd]
    rfl

end

/-- No back leaf stands in the way of a QMMA outside a phase (R386). -/
theorem jointClear_of_closed {s : State} {c : MatCmd} {tag : Option (Fin 16)} (h : s.cx.phase = none) : jointClear s c tag = true := by
  simp [jointClear, Ctx.backLeaves, h]

section
variable {s : State} {c : ChainCmd}

theorem planChain_bad (h : chainList (s.getV c.list) c.crc = none) : planChain s c = .error codeRange := by
  unfold planChain
  dsimp only
  rw [h]

/-- A chain whose streams lie in the folio. -/
theorem planChain_folio {l : ChainList} (h : chainList (s.getV c.list) c.crc = some l) (ha : l.afol = true) (hb : l.buse = true → l.bfol = true) (hd : l.dfol = true) :
    ∃ a : Accept, planChain s c = .ok a
      ∧ a.cmd = .chain (s.getV c.list) (.fol (s.getS c.a)) (.fol (if l.buse then s.getS c.c else 0)) (.fol (s.getS c.d)) c.crc := by
  have hstream : (if l.buse then endpointOf s l.bfol (s.getS c.c) l.extB false else .ok (.fol 0)) = .ok (.fol (if l.buse then s.getS c.c else 0)) := by
    cases hu : l.buse with
    | false => rfl
    | true => simp [endpointOf, hb hu]
  have hfol : ∀ v n w, endpointOf s true v n w = .ok (.fol v) := fun _ _ _ => rfl
  unfold planChain
  dsimp only
  rw [h]
  dsimp only
  rw [ha, hfol]
  dsimp only
  rw [hstream]
  dsimp only
  rw [hd, hfol]
  exact ⟨_, rfl, rfl⟩

theorem chain_refuses {e : Nat} (hroom : s.cx.queued 1 < 16) (h : planChain s c = .error e) : exec (.chain c) s = .next (s.trap e 0 0) := by
  show execChain c s = _
  rw [execChain, if_neg (by simp [(room_iff _ _).mpr hroom]), h]

theorem chain_accepts {a : Accept} (hroom : s.cx.queued 1 < 16) (h : planChain s c = .ok a) (hcmd : cmdHandles a.cmd = []) :
    exec (.chain c) s = .next ((s.modCx fun x => x.accept 1 (strandIx s.focus) a).modSt (·.retire 2)) := by
  show execChain c s = _
  rw [execChain, if_neg (by simp [(room_iff _ _).mpr hroom]), h]
  dsimp only
  rw [acceptCmd_of_folio hcmd, retireCmds_one]

end

/-- Settles O30: the checks at issue decide what a command is planned as; a planned one names no handle and joins its queue. -/
theorem matrixAndChainCommands : Obligations.MatrixAndChainCommands := by
  unfold Obligations.MatrixAndChainCommands
  refine ⟨fun s c tag hepi hroom hka hfol => ?matrix, fun s c hroom => ⟨fun hnone => ?chainBad, fun l hl ha hb hd => ?chainGood⟩⟩
  case matrix =>
    intro good fenced accepted
    refine ⟨fun hbad => ?bad, fun hgood => ?mma, fun hgood hfenced => ?fenced, fun hgood hfenced hclosed => ?qmma⟩
    case bad =>
      constructor
      · show TakesTrap s (.next (issueMat s c none)) _ _ _
        rw [issueMat_refuses hepi hroom (planMat_bad hka hfol hbad none)]
        exact trap_takes s _ _ _
      · show TakesTrap s (.next (issueMat s c (some tag))) _ _ _
        rw [issueMat_refuses hepi hroom (planMat_bad hka hfol hbad (some tag))]
        exact trap_takes s _ _ _
    case mma =>
      obtain ⟨a, hcmd, hplan⟩ := planMat_good hka hfol hgood none
      obtain ⟨t, hbytes, hst, hjoin, hqueued, hfmt, hpop, htask⟩ := issueMat_accepts hepi hroom hplan rfl hcmd
      exact ⟨_, t, rfl, hbytes, hst, hjoin, hqueued, hfmt, hpop, htask.trans hcmd⟩
    case fenced =>
      obtain ⟨a, -, hplan⟩ := planMat_good hka hfol hgood (some tag)
      rw [if_pos (by simpa using (quadFenced_iff _ _).mpr hfenced)] at hplan
      show TakesTrap s (.next (issueMat s c (some tag))) _ _ _
      rw [issueMat_refuses hepi hroom hplan]
      exact trap_takes s _ _ _
    case qmma =>
      obtain ⟨a, hcmd, hplan⟩ := planMat_good hka hfol hgood (some tag)
      rw [if_neg (by simpa using fun h => hfenced ((quadFenced_iff _ _).mp h))] at hplan
      obtain ⟨t, hbytes, hst, hjoin, hqueued, hfmt, hpop, htask⟩ := issueMat_accepts hepi hroom hplan (jointClear_of_closed hclosed) hcmd
      exact ⟨_, t, rfl, hbytes, hst, hjoin, hqueued, hfmt, hpop, htask.trans hcmd⟩
  case chainBad =>
    rw [chain_refuses hroom (planChain_bad hnone)]
    exact trap_takes s _ _ _
  case chainGood =>
    obtain ⟨a, hplan, hcmd⟩ := planChain_folio hl ha hb hd
    refine ⟨_, s.cx.newTask (strandIx s.focus) a, chain_accepts hroom hplan (by rw [hcmd]; rfl), fun k => rfl, ?_, ?_, rfl, hcmd⟩
    · rw [st_modSt, st_modCx]
      rfl
    · rw [cx_modSt, cx_modCx]
      exact accept_joins ..

end Sys2Proof.Machine

namespace Sys2Proof.Machine

/-! ## The draw of the task unit (R338-R340) -/

/-- The pick falls into the interval of one entry: at or above the sum of those before it, and below that with its own. -/
theorem pickIndex_interval {pick acc i : Nat} {ws : List Nat} (hlo : acc ≤ pick) (hhi : pick < acc + ws.sum) :
    ∃ j < ws.length, pickIndex pick acc i ws = some (i + j) ∧ acc + (ws.take j).sum ≤ pick ∧ pick < acc + (ws.take (j + 1)).sum := by
  induction ws generalizing acc i with
  | nil =>
    rw [List.sum_nil] at hhi
    omega
  | cons w ws ih =>
    rw [List.sum_cons] at hhi
    by_cases hw : pick < acc + w
    · exact ⟨0, Nat.succ_pos _, if_pos hw, by simpa using hlo, by simpa using hw⟩
    · obtain ⟨j, hj, hpick, hbelow, habove⟩ := ih (acc := acc + w) (i := i + 1) (by omega) (by omega)
      refine ⟨j + 1, Nat.succ_lt_succ hj, ?_, ?_, ?_⟩
      · rw [pickIndex, if_neg hw, hpick, Nat.add_assoc, Nat.add_comm 1]
      · rw [List.take_succ_cons, List.sum_cons]
        omega
      · rw [List.take_succ_cons, List.sum_cons]
        omega

theorem draw_eq (g : Tdu) (ws : List Nat) :
    g.draw ws = if ws.sum = 0 then none else (pickIndex (g.next.1.toNat * ws.sum / 2 ^ 64) 0 0 ws).map fun i => (i, g.next.2) := by
  rw [Tdu.draw, ← List.sum_eq_foldl]

theorem pick_lt (x : Word) {w : Nat} (hw : 0 < w) : x.toNat * w / 2 ^ 64 < w :=
  Nat.div_lt_of_lt_mul (Nat.mul_lt_mul_of_pos_right x.isLt hw)

/-- Settles O45: floor(output x W / 2^64) lies below W, so that the running sums find it. -/
theorem drawByValue : Obligations.DrawByValue := by
  unfold Obligations.DrawByValue
  intro g ws
  refine ⟨fun h => by rw [draw_eq, if_pos h], fun hpos => ?_, rfl, rfl, rfl, rfl⟩
  obtain ⟨j, hj, hpick, hlo, hhi⟩ := pickIndex_interval (i := 0) (Nat.zero_le _) ((pick_lt g.next.1 hpos).trans_eq (Nat.zero_add _).symm)
  rw [draw_eq, if_neg hpos.ne', hpick]
  exact ⟨0 + j, rfl, by simpa using hj, by simpa using hlo, by simpa using hhi⟩

end Sys2Proof.Machine

namespace Sys2Proof.Machine

/-! ## Leaves, the ladder and the shadow slots (R355-R362, R427) -/

/-! ### Spills and draws (R356, R357) -/

/-- A copy position is free on a core that works, and the backing is in no blotter job (R357, R389). -/
abbrev copyRoom (s : State) (core ma : Nat) : Prop :=
  s.ttripHold = false ∧ (s.core core).zeroising = false ∧ runningOn s core .ce < (s.core core).lanes.toNat ∧ s.maHeld ma 16384 = false

section
variable {s : State} {core leaf : Nat} {p : Spill} (h : (s.core core).spills.find? (fun p => p.phys == leaf) = some p)
include h

theorem leafSpill_eq : exec (.leafSpill core leaf) s =
    if copyRoom s core (p.block.toNat + 16384 * p.leaf) then .next (finishSpill s core p) else .next s := by
  show execLeafSpill core leaf s = _
  unfold execLeafSpill
  rw [h]
  dsimp only
  by_cases hroom : copyRoom s core (p.block.toNat + 16384 * p.leaf)
  · rw [if_pos hroom, if_neg]
    obtain ⟨hheat, hzero, hlanes, hheld⟩ := hroom
    simp [hheat, hzero, hheld, hlanes]
  · rw [if_neg hroom, if_pos]
    rw [← not_not (a := _ = true)]
    intro hn
    simp only [Bool.or_eq_true, decide_eq_true_eq, not_or, Bool.not_eq_true, not_le] at hn
    exact hroom ⟨hn.1.1.1, hn.1.1.2, hn.1.2, hn.2⟩

end

/-- A leaf without an uncorrectable word reaches its backing as it stands. -/
theorem finishSpill_clean {s : State} {core : Nat} {p : Spill} (h : (s.core core).badSectors p.phys = []) :
    finishSpill s core p = ((noteLeaf s core p.phys).writeMa s.pkgOwner (p.block.toNat + 16384 * p.leaf) ((s.core core).leafBytes p.phys)).modCore core fun k =>
      { k.zeroLeaf p.phys with
        spills := k.spills.filter (· ≠ p)
        given := k.given ++ (p.who.toList.filter (·.live ((noteLeaf s core p.phys).writeMa s.pkgOwner (p.block.toNat + 16384 * p.leaf) ((s.core core).leafBytes p.phys)))).map fun r => (p.phys, r) } := by
  unfold finishSpill
  dsimp only
  rw [h]
  rfl

theorem drawRetry_none {s : State} {core : Nat} (h : (s.core core).drawWaits = []) : exec (.inverseDrawRetry core) s = .next s := by
  show execInverseDrawRetry core s = _
  rw [execInverseDrawRetry, h]

theorem drawRetry_eq {s : State} {core : Nat} {r : LeafReq} {rest : List LeafReq} (h : (s.core core).drawWaits = r :: rest) :
    exec (.inverseDrawRetry core) s = if r.live s = false ∨ (s.core core).leavesFor r ≠ [] then
        .next (s.modCore core fun k => { k with drawWaits := k.drawWaits.filter (· ≠ r) })
      else .next ((inverseDraw s core r).getD s) := by
  show execInverseDrawRetry core s = _
  unfold execInverseDrawRetry
  rw [h]
  exact if_congr (by simp) rfl rfl

/-! ### Reloads (R357) -/

section
variable {s : State} {c : CtxRef} {leaf : Nat} {x : Ctx} (hx : s.findCtx c = some x)
include hx

theorem leafReload_unwanted (h : x.wantsLeaf leaf = false) : exec (.leafReload c leaf) s = .next s := by
  show execLeafReload c leaf s = _
  rw [execLeafReload, hx]
  exact if_neg (by simp [h])

theorem leafReload_wanted (h : x.wantsLeaf leaf = true) : exec (.leafReload c leaf) s = .next (reloadLeaf s c leaf (.reload x.uid leaf)).1 := by
  show execLeafReload c leaf s = _
  rw [execLeafReload, hx]
  exact if_pos h

/-- A request that one leaf is there for takes the lowest. -/
theorem reloadLeaf_takes {req : LeafReq} {pin : Bool} {p : Nat} {r : List Nat} (hleaf : x.leaves[leaf]? = some { phys := none, pinned := pin })
    (hspill : (s.core (refCore c)).spillOf x.block leaf = none) (hheld : s.maHeld (leafBacking x leaf) 16384 = false)
    (hfree : (s.core (refCore c)).leavesFor req = p :: r) :
    (reloadLeaf s c leaf req).1 = (loadLeaf (s.modCore (refCore c) fun k => { k with given := k.given.filter fun g => g.2 ≠ req }) (refCore c) p (leafBacking x leaf)).putCtx c
      { x with leaves := x.leaves.set leaf { phys := some p, pinned := pin } } := by
  have hgather : gatherLeaves s (refCore c) 1 req = (s.modCore (refCore c) fun k => { k with given := k.given.filter fun g => g.2 ≠ req }, some [p]) := by
    unfold gatherLeaves
    dsimp only
    rw [hfree, if_pos (by simp)]
    rfl
  unfold reloadLeaf
  rw [hx]
  dsimp only
  rw [hleaf]
  dsimp only
  rw [hspill, hheld, if_neg (by decide), hgather]
  rfl

end

/-- A backing without an uncorrectable sector fills the leaf with its bytes. -/
theorem loadLeaf_clean {t : State} {core p ma : Nat} (h : ∀ j < 256, t.poisoned (maKey t.pkgOwner ma + 64 * j) = false) :
    loadLeaf t core p ma = t.modCore core fun k => k.fillLeaf p (t.readMa t.pkgOwner ma 16384) := by
  have hnone : ((List.range 256).filter fun j => t.poisoned (maKey t.pkgOwner ma + 64 * j)) = [] :=
    List.filter_eq_nil_iff.mpr fun j hj => by simp [h j (List.mem_range.mp hj)]
  unfold loadLeaf
  dsimp only
  rw [hnone]
  rfl

/-! ### The ladder (R359-R361) -/

section
variable {s : State} {core slot : Nat} {x : Ctx} (hx : s.findCtx (.resident core slot) = some x)
include hx

theorem softBoundary_eq : exec (.softBoundary core slot) s = if x.rung = .soft ∧ x.intent = some .preempt ∧ x.atBoundary ∧ !x.diag then
    .next (holdJoints (s.putCtx (.resident core slot) { x with rung := .halting }) core x x.tasks) else .next s := by
  show execSoftBoundary core slot s = _
  rw [execSoftBoundary, hx]

theorem graceExpiry_eq : exec (.graceExpiry core slot) s = if (x.rung = .soft ∨ x.rung = .halting) ∧ dueAt s.time x.graceAt ∧ !x.diag then
    .next (haltNow s (.resident core slot) x) else .next s := by
  show execGraceExpiry core slot s = _
  rw [execGraceExpiry, hx]

theorem killTimer_eq : exec (.killTimerExpiry core slot) s = if x.rung = .halting ∧ dueAt s.time x.killAt then
    .next (killCtx s (.resident core slot) 0x31 0 x.killPc 0 none) else .next s := by
  show execKillTimerExpiry core slot s = _
  rw [execKillTimerExpiry, hx]

end

/-- The state with a context halted (R95, R360): its started phases aborted, its timers off. -/
def State.haltedAt (s : State) (core slot : Nat) : State :=
  (haltPhases (haltStrands s core slot) core slot).modCtx core slot fun x =>
    { x.mapTasks (fun t : Task => { t with won := none, since := (haltPhases (haltStrands s core slot) core slot).time }) with rung := .halted, graceAt := none, killAt := none }

section
variable {s : State} {core slot : Nat} {x : Ctx} (hx : s.findCtx (.resident core slot) = some x)
include hx

theorem haltComplete_stays (h : x.rung ≠ .halting ∨ x.diag = true) : exec (.haltComplete core slot) s = .next s := by
  show execHaltComplete core slot s = _
  rw [execHaltComplete, hx]
  refine if_pos ?_
  rcases h with h | h <;> simp [h]

theorem haltComplete_halts (hrung : x.rung = .halting) (hstop : ∀ i : Fin 4, x.strands[i].live = true → x.strands[i].ahead = []) (hdiag : x.diag = false) :
    exec (.haltComplete core slot) s = if x.intent = some .cancel then .next (killCtx (s.haltedAt core slot) (.resident core slot) 0x31 0 x.killPc 0 none) else .next (s.haltedAt core slot) := by
  have hnone : x.strands.any (fun t => t.live && !t.ahead.isEmpty) = false := by
    rw [Bool.eq_false_iff, ne_eq, Vector.any_iff_exists]
    rintro ⟨i, hi, hlive⟩
    obtain ⟨hlive, hahead⟩ := (Bool.and_eq_true _ _).mp hlive
    have hempty : x.strands[i].ahead = [] := hstop ⟨i, hi⟩ hlive
    simp [hempty] at hahead
  show execHaltComplete core slot s = _
  rw [execHaltComplete, hx]
  dsimp only
  rw [if_neg (by simp [hrung, hdiag, hnone])]
  rfl

end

/-! ### Swaps (R362, R427) -/

section
variable {s : State} {a b c d : Nat} {ref : CtxRef}

theorem findCtx_freshen : s.freshen.findCtx ref = s.findCtx ref := findCtx_of_cores rfl ref

theorem moveEnds_none (h : s.findCtx ref = none) : (moveEnds s a b c d).findCtx ref = none := (findCtx_mapQueues s _ ref).trans (by rw [h]; rfl)
theorem moveEnds_some {y : Ctx} (h : s.findCtx ref = some y) : ∃ f, (moveEnds s a b c d).findCtx ref = some (y.mapBound f) :=
  ⟨_, (findCtx_mapQueues s _ ref).trans (by rw [h]; rfl)⟩

end

/-- A context that changes places within its core leaves the one and stands in the other. -/
theorem findCtx_swap (s : State) (core i j : Nat) (y : Ctx) :
    ((s.dropCtx (.resident core i)).putCtx (.shadow core j) y).findCtx (.resident core i) = none
      ∧ ((s.dropCtx (.shadow core j)).putCtx (.resident core i) y).findCtx (.shadow core j) = none := by
  constructor <;> simp [State.findCtx, State.putCtx, State.dropCtx, State.setCtx]

section
variable {s : State} {core slot i : Nat} {x : Ctx}

theorem swapOut_eq (hx : s.findCtx (.resident core slot) = some x) (hi : (s.core core).freeShadow = some i) : exec (.swapOut core slot) s =
    if x.rung = .halted ∧ x.intent = some .preempt ∧ !x.diag then
      .next (moveEnds ((s.dropCtx (.resident core slot)).putCtx (.shadow core i)
        { x with rung := .shadowed, swaps := satInc x.swaps, swapOrder := s.fresh, fetchV := false, fetchRows := 0, fetchBytes := [] }).freshen core slot core (4 + i))
    else .next s := by
  show execSwapOut core slot s = _
  rw [execSwapOut, hx, hi]

theorem swapIn_eq (hslot : (s.core core).emptySlot = some slot) (hback : (s.core core).nextBack = some (i, x)) : exec (.swapIn core) s =
    if (nextUnit s core).isSome then .next s
    else .next (moveEnds ((s.dropCtx (.shadow core i)).putCtx (.resident core slot) (x.runAgain.mapTasks fun t => { t with since := s.time })) core (4 + i) core slot) := by
  show execSwapIn core s = _
  unfold execSwapIn
  dsimp only
  rw [hslot, hback]

end

/-- Settles O49: a spill and a draw by what they wait for, a rung of the ladder by whether its boundary or its time has come, a swap by the context that
leaves one place and stands in the other. -/
theorem residency : Obligations.Residency := by
  unfold Obligations.Residency
  refine ⟨⟨fun s core leaf p h => ⟨fun hroom => ?_, fun hroom hclean => ?_, fun hroom => ?_⟩, fun s core => ⟨drawRetry_none, fun r rest h => ⟨fun hdone => ?_, fun hlive hnone => ⟨fun t ht => ?_, fun ht => ?_⟩⟩⟩,
      fun s c leaf x hx => ⟨leafReload_unwanted hx, fun pin p r hwant hleaf hspill hheld hfree => ⟨?_, loadLeaf_clean⟩⟩⟩,
    fun s core slot x hx => ?ladder,
    fun s core slot i x hx hi => ⟨fun hrung hintent hdiag => ?out, fun h => ?_⟩, fun s core slot i x hslot hback => ⟨fun hnone => ?back, fun hsome => ?_⟩⟩
  · rw [leafSpill_eq h, if_pos hroom]
  · rw [leafSpill_eq h, if_pos hroom, finishSpill_clean hclean]
  · rw [leafSpill_eq h, if_neg hroom]
  · rw [drawRetry_eq h, if_pos hdone]
  · rw [drawRetry_eq h, if_neg (by simp [hlive, hnone]), ht]
    rfl
  · rw [drawRetry_eq h, if_neg (by simp [hlive, hnone]), ht]
    rfl
  · rw [leafReload_wanted hx hwant, reloadLeaf_takes hx hleaf hspill hheld hfree]
  case ladder =>
    intro ref halted stopped
    refine ⟨fun hdiag => ⟨?_, ?_, haltComplete_stays hx (.inr hdiag)⟩, fun hrung hintent hbound hdiag => ?_, fun h => ?_, fun d hrung hgrace hdiag => ⟨fun hdue => ?_, fun hearly => ?_⟩,
      fun hrung hstop hdiag hintent => ?_, fun hrung hstop hdiag hintent => ?_, fun hrung => ⟨haltComplete_stays hx (.inl hrung), ?_⟩, fun d hrung hkill => ⟨fun hdue => ?_, fun hearly => ?_⟩⟩
    · rw [softBoundary_eq hx, if_neg (by simp [hdiag])]
    · rw [graceExpiry_eq hx, if_neg (by simp [hdiag])]
    · rw [softBoundary_eq hx, if_pos (by simp [hrung, hintent, hbound, hdiag])]
    · rw [softBoundary_eq hx, if_neg]
      rintro ⟨hr, hi, hb, -⟩
      rcases h with h | h | h
      · exact h hr
      · exact h hi
      · exact absurd (hb.symm.trans h) (by decide)
    · rw [graceExpiry_eq hx, if_pos ⟨hrung, by simpa [hgrace, dueAt] using hdue, by simp [hdiag]⟩]
      rfl
    · rw [graceExpiry_eq hx, if_neg (by simp [hgrace, dueAt, hearly])]
    · rw [haltComplete_halts hx hrung hstop hdiag, if_neg hintent]
      rfl
    · rw [haltComplete_halts hx hrung hstop hdiag, if_pos hintent]
      rfl
    · rw [killTimer_eq hx, if_neg fun h => hrung h.1]
    · rw [killTimer_eq hx, if_pos ⟨hrung, by simpa [hkill, dueAt] using hdue⟩]
    · rw [killTimer_eq hx, if_neg (by simp [hkill, dueAt, hearly])]
  case out =>
    rw [swapOut_eq hx hi, if_pos ⟨hrung, hintent, by simp [hdiag]⟩]
    obtain ⟨f, hf⟩ := moveEnds_some (a := core) (b := slot) (c := core) (d := 4 + i) (findCtx_freshen.trans (findCtx_putCtx (s.dropCtx (.resident core slot)) (.shadow core i)
      { x with rung := .shadowed, swaps := satInc x.swaps, swapOrder := s.fresh, fetchV := false, fetchRows := 0, fetchBytes := [] }))
    exact ⟨_, _, rfl, moveEnds_none (findCtx_swap s core slot i _).1, hf, rfl, rfl, rfl, rfl, rfl, rfl, rfl, rfl, fun k => rfl⟩
  · rw [swapOut_eq hx hi, if_neg]
    rintro ⟨hr, hp, hd⟩
    rcases h with h | h | h
    · exact h hr
    · exact h hp
    · simp [h] at hd
  case back =>
    rw [swapIn_eq hslot hback, if_neg (by simp [hnone])]
    obtain ⟨f, hf⟩ := moveEnds_some (findCtx_putCtx (s.dropCtx (.shadow core i)) (.resident core slot) _)
    exact ⟨_, _, rfl, moveEnds_none (findCtx_swap s core slot i _).2, hf, rfl, rfl, rfl, rfl, rfl, rfl, rfl, rfl, rfl, fun k => rfl⟩
  · rw [swapIn_eq hslot hback, if_pos hsome]

end Sys2Proof.Machine

namespace Sys2Proof.Machine

/-! ## The blotter's events (R389, R392, R411, R422) -/

section
variable {s : State} {o : Nat}

theorem blotterUnit_idle (h : (s.die o).blotRun = false) : exec (.blotterUnitComplete o) s = .next s := if_pos (by simp [h])

/-- The state after one more unit of the running job. -/
def State.unitDone (s : State) (o : Nat) (u : Extent × Nat) : State := (doUnit s o u).modDie o fun d => { d with blotDone := d.blotDone + 1 }

/-- The end of a job (R389, R422). -/
def State.jobDone (s : State) (o : Nat) (j : BlotJob) (rest : List BlotJob) : State :=
  let e := (freeHeld s j rest).modDie o fun d => { d with blotRun := false, blotJobs := rest }
  continueBoot ((wakeBlot e o j.num.toNat (e.die o).progress).modDie o Die.startBlot)

theorem blotterUnit_eq {j : BlotJob} {rest : List BlotJob} {u : Extent × Nat} (hrun : (s.die o).blotRun = true) (hcut : (s.die o).blotCut = false)
    (hjobs : (s.die o).blotJobs = j :: rest) (hunit : unitAt j.extents (s.die o).blotDone.toNat = some u) :
    exec (.blotterUnitComplete o) s =
      if ((s.unitDone o u).die o).blotDone ≠ (s.die o).blotTotal then .next (s.unitDone o u) else .next ((s.unitDone o u).jobDone o j rest) := by
  show execBlotterUnitComplete o s = _
  unfold execBlotterUnitComplete
  simp only [hrun, hcut, hjobs, hunit]
  rfl

theorem blotterResume_trained (hboot : 4 ≤ s.boot) (hcut : (s.die o).blotCut = true) :
    exec (.blotterResume o) s = .next (s.modDie o fun d => { d with blotCut := false }) := congrArg Host.Outcome.next (if_pos ⟨hboot, hcut⟩)

theorem blotterResume_untrained (hboot : s.boot < 4) : exec (.blotterResume o) s = .next s :=
  congrArg Host.Outcome.next (if_neg fun h => Nat.not_le.mpr hboot h.1)

end

/-- Settles O50: a unit by whether it is the job's last, a resumption by whether HBM is trained. -/
theorem blotterEvents : Obligations.BlotterEvents := by
  unfold Obligations.BlotterEvents
  refine ⟨fun s o j rest u hrun hcut hjobs hunit => ⟨fun hmore => ?_, fun hlast => ?_⟩, fun s o => ⟨blotterUnit_idle, blotterResume_trained, blotterResume_untrained, rfl⟩⟩
  · rw [blotterUnit_eq hrun hcut hjobs hunit]
    exact if_pos hmore
  · rw [blotterUnit_eq hrun hcut hjobs hunit]
    exact if_neg (not_not_intro hlast)

end Sys2Proof.Machine

namespace Sys2Proof.Machine

/-! ## The host's events and the PF's writes (R397-R410) -/

theorem vi_of_set {t : State} {m : SMap Vi} {n : Nat} {v : Vi} (h : t.vis = SMap.set m n v) : t.vi n = v := by
  rw [State.vi, h, SMap.get_set_same]

@[simp] theorem vi_setViAt (s : State) (n : Nat) (v : Vi) : (s.setViAt n v).vi n = v := vi_of_set rfl

@[simp] theorem part_setPart (s : State) (q : Nat) (p : Part) : (s.setPart q p).part q = p := SMap.get_set_same ..

theorem Vi.takes_eq_true {v : Vi} : v.takes = true ↔ v.en = true ∧ v.stop = false ∧ v.stopped = false := by
  simp [Vi.takes, and_assoc]

theorem Vi.takes_eq_false {v : Vi} : v.takes = false ↔ v.en = false ∨ v.stop = true ∨ v.stopped = true := by
  rw [← Bool.not_eq_true, Vi.takes_eq_true, not_and_or, not_and_or]
  simp only [Bool.not_eq_true, Bool.not_eq_false]

/-! ### Launch headers and host semaphores (R397, R398) -/

section
variable {s : State} {vi : Nat}

theorem submit_eq (hboot : 7 ≤ s.boot) (hvi : vi < 512) (slot : Fin 8) (record : List Byte) :
    exec (.launchWindowSubmit vi slot.val record) s = if !(s.vi vi).takes || (s.vi vi).window[slot].pend then .next (dropVi s vi)
      else .next (s.setViAt vi { s.vi vi with window := (s.vi vi).window.set slot { (s.vi vi).window[slot] with valid := false, pend := true, bytes := record } }) := by
  show execLaunchWindowSubmit vi slot.val record s = _
  unfold execLaunchWindowSubmit
  rw [if_neg (by simp [hboot, Nat.not_le.mpr hvi, viCount]), dif_pos slot.isLt]
  rfl

theorem submit_dropped (hboot : 7 ≤ s.boot) (hvi : vi < 512) (slot : Fin 8) (record : List Byte)
    (h : (s.vi vi).en = false ∨ (s.vi vi).stop = true ∨ (s.vi vi).stopped = true ∨ (s.vi vi).window[slot].pend = true) :
    exec (.launchWindowSubmit vi slot.val record) s = .next (dropVi s vi) := by
  have hclosed : (s.vi vi).takes = false ∨ (s.vi vi).window[slot].pend = true := by simpa only [Vi.takes_eq_false, or_assoc] using h
  rw [submit_eq hboot hvi]
  refine if_pos (Bool.or_eq_true_iff.mpr ?_)
  exact hclosed.imp_left fun h => by rw [h]; rfl

theorem submit_taken (hboot : 7 ≤ s.boot) (hvi : vi < 512) (slot : Fin 8) (record : List Byte)
    (hen : (s.vi vi).en = true) (hstop : (s.vi vi).stop = false) (hend : (s.vi vi).stopped = false) (hpend : (s.vi vi).window[slot].pend = false) :
    exec (.launchWindowSubmit vi slot.val record) s =
      .next (s.setViAt vi { s.vi vi with window := (s.vi vi).window.set slot { (s.vi vi).window[slot] with valid := false, pend := true, bytes := record } }) := by
  rw [submit_eq hboot hvi, if_neg]
  rw [Vi.takes_eq_true.mpr ⟨hen, hstop, hend⟩, hpend]
  decide

theorem semaphoreAdd_eq (hboot : 7 ≤ s.boot) (hvi : vi < 512) {e : Nat} (he : e < 64) (k : BitVec 32) :
    exec (.hostSemaphoreAdd vi e k) s = if !(s.vi vi).takes then .next (dropVi s vi) else
      match boundUnit s (s.vi vi) (SMap.get 0 (s.vi vi).bind e) with
      | some ref => .next (s.modRef ref fun x => (x.addSem ((SMap.get 0 (s.vi vi).bind e).extractLsb' 48 8).toNat k.toNat).serveSem ((SMap.get 0 (s.vi vi).bind e).extractLsb' 48 8).toNat)
      | none => .next (dropVi s vi) := by
  rw [← fld_eq_toNat (hi := 55) (lo := 48) (w := 8) (SMap.get 0 (s.vi vi).bind e) rfl]
  exact if_neg (by simp [hboot, hvi, he, viCount])

theorem semaphoreAdd_dropped (hboot : 7 ≤ s.boot) (hvi : vi < 512) {e : Nat} (he : e < 64) (k : BitVec 32)
    (h : (s.vi vi).en = false ∨ (s.vi vi).stop = true ∨ (s.vi vi).stopped = true ∨ boundUnit s (s.vi vi) (SMap.get 0 (s.vi vi).bind e) = none) :
    exec (.hostSemaphoreAdd vi e k) s = .next (dropVi s vi) := by
  have hcases : (s.vi vi).takes = false ∨ boundUnit s (s.vi vi) (SMap.get 0 (s.vi vi).bind e) = none := by simpa only [Vi.takes_eq_false, or_assoc] using h
  rw [semaphoreAdd_eq hboot hvi he]
  rcases hcases with h | h
  · exact if_pos (by rw [h]; rfl)
  · rw [h, ite_self]

theorem semaphoreAdd_bound (hboot : 7 ≤ s.boot) (hvi : vi < 512) {e : Nat} (he : e < 64) (k : BitVec 32) {ref : CtxRef}
    (hen : (s.vi vi).en = true) (hstop : (s.vi vi).stop = false) (hend : (s.vi vi).stopped = false)
    (hb : boundUnit s (s.vi vi) (SMap.get 0 (s.vi vi).bind e) = some ref) :
    exec (.hostSemaphoreAdd vi e k) s =
      .next (s.modRef ref fun x => (x.addSem ((SMap.get 0 (s.vi vi).bind e).extractLsb' 48 8).toNat k.toNat).serveSem ((SMap.get 0 (s.vi vi).bind e).extractLsb' 48 8).toNat) := by
  rw [semaphoreAdd_eq hboot hvi he, Vi.takes_eq_true.mpr ⟨hen, hstop, hend⟩, hb]
  rfl

end

/-! ### Stops and enables (R401, R403) -/

/-- The fields that say where a stop stands. -/
def Vi.stopState (v : Vi) : Bool × Bool × Bool × BitVec 32 := (v.stop, v.stopped, v.stopping, v.stopGen)

theorem Vi.stopState_charge (v : Vi) (write ats : Bool) (n : Nat) : (v.charge write ats n).stopState = v.stopState := by
  unfold Vi.charge
  dsimp only
  split <;> split <;> split <;> rfl

theorem stopState_of_set {s t : State} {m : SMap Vi} {n : Nat} {v : Vi} (h : t.vis = SMap.set m n v) (hv : v.stopState = (s.vi n).stopState) :
    (t.vi n).stopState = (s.vi n).stopState := (congrArg Vi.stopState (vi_of_set h)).trans hv

section
variable (s : State) (n : Nat)

theorem stopState_viCharge (write : Bool) (k : Nat) : ((viCharge s (some n) write k).vi n).stopState = (s.vi n).stopState :=
  stopState_of_set rfl (Vi.stopState_charge ..)

theorem stopState_viDeliver (vector : Nat) (bs : List Byte) : ((viDeliver s n vector bs).vi n).stopState = (s.vi n).stopState := by
  unfold viDeliver
  dsimp only
  split
  · exact (stopState_viCharge _ n true 64).trans (stopState_of_set rfl rfl)
  · exact stopState_of_set rfl rfl

theorem stopState_viDrain (k : Nat) : ((viDrain n k s).vi n).stopState = (s.vi n).stopState := by
  induction k generalizing s with
  | zero => rfl
  | succ k ih =>
    rw [viDrain]
    split
    · rfl
    · split
      · rfl
      · exact (ih _).trans ((stopState_viDeliver ..).trans (stopState_of_set rfl rfl))

/-- A record leaves a stop where it stands. -/
theorem stopState_viRecord (vector : Nat) (bs : List Byte) : ((viRecord s n vector bs).vi n).stopState = (s.vi n).stopState := by
  unfold viRecord
  dsimp only
  split
  · exact (stopState_viDrain ..).trans (stopState_of_set rfl rfl)
  · split <;> exact stopState_of_set rfl rfl

theorem viStop_eq {s : State} {vi : Nat} (hvi : vi < 512) (h : (s.vi vi).stopping = false) :
    exec (.viStop vi) s = .next (finishStop (startStop s vi) vi) := by
  show execViStop vi s = _
  unfold execViStop
  rw [if_neg (show ¬vi ≥ viCount from Nat.not_le.mpr hvi), h]
  rfl

theorem startStop_idle {s : State} {vi : Nat} (h : jobContexts s (s.vi vi).job.toNat = []) :
    startStop s vi = s.setViAt vi { s.vi vi with stop := true, stopping := true } := by
  unfold startStop
  dsimp only
  rw [h]
  rfl

/-- A stop that has begun, with every context halted and the budget above 0, ends. -/
theorem stopState_finishStop (hstop : (s.vi n).stopping = true) (hhalt : jobHalted s (s.vi n).job.toNat = true) (hwait : viWaits s (some n) true = false) :
    ((finishStop s n).vi n).stopState = (false, true, false, (s.vi n).stopGen + 1) := by
  unfold finishStop
  dsimp only
  rw [if_pos (by rw [hstop, hhalt, hwait]; rfl)]
  exact (stopState_viRecord ..).trans (congrArg Vi.stopState (vi_setViAt ..))

theorem viStop_ends {s : State} {vi : Nat} (hjob : jobContexts s (s.vi vi).job.toNat = []) (hwait : viWaits (startStop s vi) (some vi) true = false) :
    ((finishStop (startStop s vi) vi).vi vi).stopState = (false, true, false, (s.vi vi).stopGen + 1) := by
  have hvi : (startStop s vi).vi vi = { s.vi vi with stop := true, stopping := true } := by rw [startStop_idle hjob, vi_setViAt]
  have hhalt : jobHalted (startStop s vi) (s.vi vi).job.toNat = true := by
    have hnone : jobContexts (startStop s vi) (s.vi vi).job.toNat = [] := by rw [startStop_idle hjob]; exact hjob
    rw [jobHalted, hnone]
    rfl
  have hend := stopState_finishStop (startStop s vi) vi (by rw [hvi]) (by rw [hvi]; exact hhalt) hwait
  rwa [hvi] at hend

theorem viEnable_eq {s : State} {vi : Nat} {w : Word} (hvi : vi < 512) (h : w.getLsbD 62 = false) :
    exec (.viEnableWrite vi w) s = .next (s.setViAt vi
      { s.vi vi with en := w.getLsbD 63, part := Fin.ofNat 16 (w.extractLsb' 48 4).toNat, job := w.extractLsb' 32 16
                     asid := w.extractLsb' 20 12, pasid := w.extractLsb' 0 20, stopped := false }) := by
  show execViEnableWrite vi w s = _
  unfold execViEnableWrite
  rw [if_neg (show ¬vi ≥ viCount from Nat.not_le.mpr hvi), h, fld_eq_toNat (w := 4) _ rfl]
  rfl

end

/-! ### Windows of the host link (R402) -/

/-- An interface at the start of a port's window. -/
def Vi.refilled (v : Vi) (k : Nat) : Vi :=
  { v with remrd := refill k v.qosrd.toNat v.remrd, remwr := refill k v.qoswr.toNat v.remwr, remxl := refill k v.qosxl.toNat v.remxl }

def State.refilled (s : State) (port : Fin 2) : State :=
  { s with windows := s.windows.set port (s.time / 12800)
           vis := s.vis.map fun e : Nat × Vi => (e.1, if e.1 / 256 = port.val then e.2.refilled (s.time / 12800 - s.windows[port]) else e.2) }

/-- The interfaces of a port with records that wait. -/
def State.backlog (s : State) (port : Fin 2) : List (Nat × Vi) := s.vis.filter fun e => e.1 / 256 = port.val && !e.2.outbox.isEmpty

theorem window_eq (s : State) (port : Fin 2) : exec (.hostLinkWindow port.val) s = if s.time / 12800 ≤ s.windows[port] then .next s
    else .next (((s.refilled port).backlog port).foldl (fun u e => viDrain e.1 e.2.outbox.length u) (s.refilled port)) := dif_pos port.isLt

theorem backlog_refilled {s : State} {port : Fin 2} (h : ∀ e ∈ s.vis, e.1 / 256 = port.val → e.2.outbox = []) : (s.refilled port).backlog port = [] := by
  refine List.filter_eq_nil_iff.mpr fun e he => ?_
  obtain ⟨e, hin, rfl⟩ := List.mem_map.mp he
  by_cases hp : e.1 / 256 = port.val
  · simp [hp, Vi.refilled, h e hin hp]
  · simp [hp]

/-! ### Partitions (R405, R406, R410) -/

section
variable {s : State} {q : Nat} (hq : q < 16)
include hq

theorem quadsWrite_eq (high : Bool) (v : Word) : exec (.partitionQuadsWrite q high v) s =
    if quadsRefused s q (newQuads (s.part q).quads high v) = true then .next (s.setPart q { s.part q with err := true })
    else .next (s.setPart q { s.part q with quads := newQuads (s.part q).quads high v, err := false }) := if_neg (Nat.not_le.mpr hq)

theorem waysWrite_eq (v : Word) : exec (.partitionWaysWrite q v) s = .next (s.setPart q { s.part q with ways := v }) :=
  congrArg Host.Outcome.next (if_pos hq)

omit hq in
theorem resetStart_busy (h : (s.part q).busy = true) : exec (.partitionResetStart q) s = .next s := if_pos (by simp [h])

/-- A partition whose reset begins, with its generation raised. -/
def State.resetting (s : State) (q : Nat) : State := s.setPart q { s.part q with busy := true, gen := (s.part q).gen + 1 }

theorem resetStart_free (h : (s.part q).busy = false) : exec (.partitionResetStart q) s =
    .next { s.resetting q with ports := SMap.mapVals (fun (t : Port) => { t with out := t.out.filter fun f => !staleFlit (s.resetting q) f }) s.ports } :=
  if_neg (by simp [h, hq])

theorem partGen_resetting : (s.resetting q).partGen (Fin.ofNat 16 q) = s.partGen (Fin.ofNat 16 q) + 1 := by
  have hval : (Fin.ofNat 16 q).val = q := Nat.mod_eq_of_lt hq
  rw [State.partGen, State.partGen, hval]
  exact congrArg Part.gen (part_setPart ..)

omit hq in
theorem staleGen_next {u : State} {part : Fin 16} {g : BitVec 8} (h : u.partGen part = g + 1) : staleGen u part g = true ∧ staleGen u part (g + 1) = false := by
  simp [staleGen, h]

omit hq in
theorem resetComplete_waits (h : (s.part q).busy = false ∨ staleLeft s q = true) : exec (.partitionResetComplete q) s = .next s :=
  if_pos (by rcases h with h | h <;> simp [h])

theorem resetComplete_eq (hbusy : (s.part q).busy = true) (hleft : staleLeft s q = false) :
    exec (.partitionResetComplete q) s =
      let t : State := { s with groups := SMap.mapVals (fun g => if g.owner = some (Fin.ofNat 16 q) then { g with members := [], joins := [], elsewhere := false, lost := false, remote := [] } else g) s.groups }
      let u := (quadSetCores (s.part q).quads).foldl (fun s c => resetCore s c 3) t
      .next (u.setPart q { u.part q with busy := false }) := if_neg (by simp [hbusy, hleft, hq])

theorem bgrpAlloc_taken {b : BitVec 12} (h : (s.group b.toNat).owner ≠ none) :
    exec (.bgrpAlloc q b) s = .next (s.setPart q { s.part q with bgrp := b, taken := true, nonempty := false }) := by
  have hsome := Option.isSome_iff_ne_none.mpr h
  show execBgrpAlloc q b s = _
  unfold execBgrpAlloc
  dsimp only
  rw [if_neg (Nat.not_le.mpr hq), if_pos hsome, hsome]

theorem bgrpAlloc_free {b : BitVec 12} (h : (s.group b.toNat).owner = none) :
    exec (.bgrpAlloc q b) s = .next ((s.setPart q { s.part q with bgrp := b, taken := false, nonempty := false }).setGroup b.toNat
      { s.group b.toNat with owner := some (Fin.ofNat 16 q) }) := by
  have hnone : (s.group b.toNat).owner.isSome = false := by rw [h]; rfl
  show execBgrpAlloc q b s = _
  unfold execBgrpAlloc
  dsimp only
  rw [if_neg (Nat.not_le.mpr hq), hnone, if_neg (by decide)]

/-- A group that its partition may release (R406). -/
def Group.releasable (g : Group) (q : Nat) : Bool := g.owner == some (Fin.ofNat 16 q) && g.members.isEmpty

theorem bgrpRelease_eq (b : BitVec 12) : exec (.bgrpRelease q b) s =
    let t := s.setPart q { s.part q with bgrp := b, taken := false, nonempty := !(s.group b.toNat).releasable q }
    if (s.group b.toNat).releasable q then .next (t.setGroup b.toNat { s.group b.toNat with owner := none, elsewhere := false, lost := false, remote := [] })
    else .next t := if_neg (Nat.not_le.mpr hq)

omit hq in
theorem Group.releasable_eq_true {g : Group} : g.releasable q = true ↔ g.owner = some (Fin.ofNat 16 q) ∧ g.members = [] := by
  simp [Group.releasable]

theorem bgrpRelease_freed {b : BitVec 12} (hown : (s.group b.toNat).owner = some (Fin.ofNat 16 q)) (hempty : (s.group b.toNat).members = []) :
    exec (.bgrpRelease q b) s = .next ((s.setPart q { s.part q with bgrp := b, taken := false, nonempty := false }).setGroup b.toNat
      { s.group b.toNat with owner := none, elsewhere := false, lost := false, remote := [] }) := by
  rw [bgrpRelease_eq hq, Group.releasable_eq_true.mpr ⟨hown, hempty⟩]
  rfl

theorem bgrpRelease_refused {b : BitVec 12} (h : (s.group b.toNat).owner ≠ some (Fin.ofNat 16 q) ∨ (s.group b.toNat).members ≠ []) :
    exec (.bgrpRelease q b) s = .next (s.setPart q { s.part q with bgrp := b, taken := false, nonempty := true }) := by
  have hno : (s.group b.toNat).releasable q = false := by rwa [← Bool.not_eq_true, Group.releasable_eq_true, not_and_or]
  rw [bgrpRelease_eq hq, hno]
  rfl

end

/-- A quad of another partition. -/
theorem quadsRefused_of_shared {s : State} {q : Nat} {new : BitVec 96} {e : Nat × Part} (he : e ∈ s.parts) (hnum : e.1 < 16) (hne : e.1 ≠ q)
    (hshare : e.2.quads &&& new ≠ 0) : quadsRefused s q new = true :=
  Bool.or_eq_true_iff.mpr (.inl (List.any_eq_true.mpr ⟨e, he, by simpa [hnum, hne] using hshare⟩))

/-- A quad removed while it holds a context. -/
theorem quadsRefused_of_busy {s : State} {q : Nat} {new : BitVec 96} {i : Nat} (hi : i < 96) (hold : (s.part q).quads.getLsbD i = true)
    (hnew : new.getLsbD i = false) (hbusy : quadBusy s i = true) : quadsRefused s q new = true :=
  Bool.or_eq_true_iff.mpr (.inr (List.any_eq_true.mpr ⟨i, List.mem_range.mpr hi, by simp [hold, hnew, hbusy]⟩))

section
variable {s : State} {job : BitVec 16}

theorem jobrel_named (h : ∃ v ∈ s.vis, v.2.en = true ∧ v.2.job = job) : exec (.jobrel job) s = .next s := by
  obtain ⟨v, hv, hen, hjob⟩ := h
  exact if_pos (List.any_eq_true.mpr ⟨v, hv, by simp [hen, hjob]⟩)

/-- The job sealed and released, and freed once COMPLETE. -/
def State.releaseJob (s : State) (key : Nat) (w : Work) : State :=
  pruneWorks (reportWork 4 { s with works := SMap.set s.works key { w with sealed_ := true, released := true } } key)

theorem jobrel_unnamed (h : ∀ v ∈ s.vis, v.2.en = false ∨ v.2.job ≠ job) : exec (.jobrel job) s =
    match SMap.find s.works (workKey 4 job.toNat) with
    | some w => .next (s.releaseJob (workKey 4 job.toNat) w)
    | none => .next s := by
  have hnone : ¬(s.vis.any fun v => v.2.en && v.2.job == job) = true := by
    simp only [List.any_eq_true, Bool.and_eq_true, beq_iff_eq, not_exists, not_and]
    intro v hv hen hjob
    rcases h v hv with hoff | hother
    · rw [hoff] at hen
      cases hen
    · exact hother hjob
  show execJobrel job s = _
  unfold execJobrel
  rw [if_neg hnone]
  rfl

end

/-- Settles O52: the interface by whether it takes headers, a stop followed through its record, partition writes by their checks. -/
theorem hostAndPartitions : Obligations.HostAndPartitions := by
  unfold Obligations.HostAndPartitions
  refine ⟨⟨?_, fun s vi hvi => ⟨congrArg Host.Outcome.next (if_pos hvi), fun w => if_pos hvi⟩, fun s vi hvi hidle => ⟨viStop_eq hvi hidle, fun hjob hwait => ?_⟩,
    fun s vi w hvi hw => viEnable_eq hvi hw, fun s port => ⟨fun h => ?_, fun h => ?_⟩⟩, fun s q hq => ?_⟩
  · intro s vi slot record hboot hvi v dropped
    refine ⟨submit_dropped hboot hvi slot record, submit_taken hboot hvi slot record, fun h => if_pos (by rw [h]; rfl), fun h => if_neg (by rw [h]; decide), fun e k he => ?_⟩
    exact ⟨semaphoreAdd_dropped hboot hvi he k, fun ref => semaphoreAdd_bound hboot hvi he k⟩
  · have hend := viStop_ends hjob hwait
    simp only [Vi.stopState, Prod.mk.injEq] at hend
    exact ⟨_, viStop_eq hvi hidle, hend⟩
  · rw [window_eq, if_pos h]
  · intro left t
    rw [window_eq, if_neg (Nat.not_le.mpr h)]
    exact ⟨rfl, fun hnone => by rw [backlog_refilled hnone]; rfl⟩
  · intro p
    refine ⟨fun high w => ⟨fun h => ?_, fun h => ?_, fun e => quadsRefused_of_shared, fun i => quadsRefused_of_busy⟩, waysWrite_eq hq, resetStart_busy,
      fun h => ⟨resetStart_free hq h, partGen_resetting hq, ?_⟩, resetComplete_waits, resetComplete_eq hq, fun b job => ?_⟩
    · rw [quadsWrite_eq hq, if_pos h]
    · rw [quadsWrite_eq hq, if_neg (by rw [h]; decide)]
    · rw [← State.resetting, partGen_resetting hq]
      exact staleGen_next (partGen_resetting hq)
    · refine ⟨bgrpAlloc_taken hq, bgrpAlloc_free hq, bgrpRelease_freed hq, bgrpRelease_refused hq, jobrel_named, fun h => ⟨fun hw => ?_, fun w hw => ?_⟩⟩
      · rw [jobrel_unnamed h, hw]
      · rw [jobrel_unnamed h, hw]
        rfl

end Sys2Proof.Machine

namespace Sys2Proof.Machine

/-! ## Ports, the root of trust, heat and power (R407-R409, R419, R420, R423) -/

/-! ### Lanes and retraining (R408) -/

section
variable {s : State} {port lane : Nat}

/-- The port with one more lane failed. -/
def Port.loses (p : Port) (lane : Nat) : Port := { p with failedLanes := p.failedLanes ++ [lane] }

theorem laneFailure_eq (hport : port < 16) (hlane : lane < 8) (hnew : lane ∉ (s.port port).failedLanes) :
    exec (.laneFailure port lane) s = match (s.port port).lanes with
      | .full => .next (portChange s port { (s.port port).loses lane with lanes := .erased })
      | .erased => .next (portChange s port { (s.port port).loses lane with lanes := .half, retraining := true })
      | .half => .next (portChange s port { (s.port port).loses lane with lanes := .down })
      | .down => .next (s.setPort port ((s.port port).loses lane)) := by
  refine if_neg ?_
  simp [portCount, Nat.not_le.mpr hport, Nat.not_le.mpr hlane, hnew]

theorem retrain_eq : exec (.portRetrainComplete port) s =
    if (s.port port).retraining = false then .next s
    else if (s.port port).wide = true then
      .next (portChange s port { s.port port with retraining := false, wide := false, lanes := .full, failedLanes := [], authFails := 0 })
    else .next (s.setPort port { s.port port with retraining := false }) := by
  show execPortRetrainComplete port s = _
  unfold execPortRetrainComplete
  simp only [Bool.not_eq_true']

end

/-! ### Flits (R407-R409) -/

/-- The kind of a flit stands in the low four bits of its first byte (R407). -/
theorem kind_eq (flit : List Byte) : fld (flitHead flit) 3 0 = (flit.headD 0).toNat % 16 := by
  rw [fld_lower, flitHead, leWord, BitVec.toNat_ofNat]
  cases flit with
  | nil => rfl
  | cons b l =>
    rw [List.take_succ_cons, leNat, List.headD_cons]
    omega

theorem open_iff (d : Direction) : d.open_ = true ↔ d.exhausted = false ∧ d.counter.toNat < 2 ^ 48 - 1 := by
  simp [Direction.open_]

section
variable {s : State} {port : Nat} {flit : List Byte} (hport : port < 16) (hup : (s.port port).lanes ≠ .down) (hready : (s.port port).retraining = false)
include hport hup hready

theorem flitReceive_unauthentic : exec (.flitReceive port false flit) s =
    if 16 ≤ (s.port port).authFails + 1 then .next (portChange s port { s.port port with authFails := (s.port port).authFails + 1, lanes := .down })
    else .next (s.setPort port { s.port port with authFails := (s.port port).authFails + 1 }) := by
  show execFlitReceive port false flit s = _
  unfold execFlitReceive
  dsimp only
  rw [if_neg (by simp [portCount, hport, hup, hready])]
  rfl

theorem flitReceive_authentic : exec (.flitReceive port true flit) s =
    if (flit.headD 0).toNat % 16 ≠ 15 ∧ (s.port port).ingress.open_ = false then .next s
    else .next (handOn (s.setPort port { s.port port with
      authFails := 0
      ingress := if (flit.headD 0).toNat % 16 ≠ 15 then (s.port port).ingress.count else (s.port port).ingress.countMgmt }) port flit) := by
  show execFlitReceive port true flit s = _
  unfold execFlitReceive
  dsimp only
  rw [if_neg (by simp [portCount, hport, hup, hready]), kind_eq]
  simp

end

/-! ### Keys (R409) -/

section
variable {s : State} {port : Nat} {ingress : Bool}

theorem keyWarning_eq : exec (.keyCounterWarning port ingress) s =
    if ((s.port port).dir ingress).counter.toNat = 2 ^ 47 then .next { s with hkInterrupts := s.hkInterrupts + 1 } else .next s := by
  show execKeyCounterWarning port ingress s = _
  unfold execKeyCounterWarning
  split <;> rfl

theorem keyExhausted_stops (hlast : ((s.port port).dir ingress).counter.toNat = 2 ^ 48 - 1) (hkey : ((s.port port).dir ingress).newKey = false)
    (hnew : ((s.port port).dir ingress).exhausted = false) :
    exec (.keyExhausted port ingress) s = .next (pfRecord (interruptHk (s.setPort port ((s.port port).setDir ingress { (s.port port).dir ingress with exhausted := true }))) 1
      (recordOf [BitVec.ofNat 64 port, bw ingress 0, BitVec.ofNat 64 s.time])) := if_neg (by simp [hlast, hkey, hnew])

theorem bw_zero (b : Bool) : bw b 0 = if b then 1 else 0 := by cases b <;> rfl

theorem keySwitch_eq : exec (.keySwitchFlit port ingress) s =
    if ((s.port port).dir ingress).newKey = true then
      .next (s.setPort port ((s.port port).setDir ingress { ((s.port port).dir ingress).countMgmt with counter := 0, newKey := false, exhausted := false, keyGen := ((s.port port).dir ingress).keyGen + 1 }))
    else .next s := rfl

end

/-! ### Measurements and the fused minimum (R419, R420) -/

theorem spdm_replies {s : State} {port code : Nat} {vi : Option Nat} {nonce : List Byte} (hport : port < 2)
    (hvi : ∀ n, vi = some n → (s.vi n).tdisp = true ∧ n / 256 = port) :
    exec (.spdmRequest port vi code nonce) s = .next { s with spdmOut := s.spdmOut ++ [(port, Config.spdmReply code nonce (measurements s vi))] } := by
  refine congrArg Host.Outcome.next (if_pos ?_)
  cases vi with
  | none => simp [hport]
  | some n =>
    obtain ⟨ht, hn⟩ := hvi n rfl
    simp [hport, ht, hn]

theorem spdm_unassigned {s : State} {port code n : Nat} {nonce : List Byte} (h : (s.vi n).tdisp = false) :
    exec (.spdmRequest port (some n) code nonce) s = .next s := congrArg Host.Outcome.next (if_neg (by simp [h]))

theorem minimumSvn_raises {s : State} {kind : Fin 4} (h : kind ≠ 0) : ∃ t, exec (.minimumSvnRaise kind) s = .next t
    ∧ (SMap.get 0 t.minSvn kind.val).toNat = max (SMap.get 0 s.minSvn kind.val).toNat (Config.runningSvn (BitVec.ofNat 8 kind.val)).toNat
    ∧ ∀ k, k ≠ kind.val → SMap.get 0 t.minSvn k = SMap.get 0 s.minSvn k := by
  refine ⟨_, if_neg h, ?_, fun k hk => SMap.get_set_other _ _ _ _ _ hk⟩
  dsimp only
  rw [SMap.get_set_same]
  split <;> omega

/-! ### Heat and power (R423) -/

section
variable (d : Die)

theorem throttle_throttleBy (region : Nat) (f : Nat → Nat) (r : Fin 6) :
    (d.throttleBy region f).throttle[r] = if r.val = region then Fin.ofNat 8 (f d.throttle[r].val) else d.throttle[r] := by
  unfold Die.throttleBy
  by_cases hr : region < 6
  · rw [dif_pos hr]
    by_cases he : r.val = region
    · subst he
      rw [if_pos rfl]
      exact Vector.getElem_set_self ..
    · rw [if_neg he]
      exact Vector.getElem_set_ne hr r.isLt fun h => he h.symm
  · rw [dif_neg hr, if_neg (by omega)]

theorem stepUp_fits (h : Fin 8) : (Fin.ofNat 8 (stepUp h.val)).val = min 7 (h.val + 1) := by
  have hle : stepUp h.val = min 7 (h.val + 1) := rfl
  rw [hle]
  exact Nat.mod_eq_of_lt (by omega)
theorem stepDown_fits (h : Fin 8) : (Fin.ofNat 8 (stepDown h.val)).val = h.val - 1 := Nat.mod_eq_of_lt (by unfold stepDown; omega)

/-- The first n regions of a die step up. -/
def Die.warmer (d : Die) (n : Nat) : Die := (List.range n).foldl (fun d r => d.throttleBy r stepUp) d

theorem Die.warmer_succ (n : Nat) : d.warmer (n + 1) = (d.warmer n).throttleBy n stepUp := by
  rw [Die.warmer, List.range_succ, List.foldl_append]
  rfl

theorem throttle_warmer (n : Nat) (r : Fin 6) : (d.warmer n).throttle[r] = if r.val < n then Fin.ofNat 8 (stepUp d.throttle[r].val) else d.throttle[r] := by
  induction n with
  | zero => rfl
  | succ n ih =>
    rw [Die.warmer_succ, throttle_throttleBy, ih]
    by_cases he : r.val = n
    · rw [if_pos he, if_neg (by omega), if_pos (by omega)]
    · rw [if_neg he]
      exact if_congr (by omega) rfl rfl

end

section
variable (s : State)

/-- The first n dies of the package, changed alike. -/
def State.modDies (f : Die → Die) (n : Nat) : State := (List.range n).foldl (fun s die => s.modDie (s.package * 4 + die) f) s

theorem State.modDies_succ (f : Die → Die) (n : Nat) : s.modDies f (n + 1) = (s.modDies f n).modDie ((s.modDies f n).package * 4 + n) f := by
  rw [State.modDies, List.range_succ, List.foldl_append]
  rfl

theorem modDies_frame (f : Die → Die) (n : Nat) : (s.modDies f n).package = s.package ∧ (s.modDies f n).cores = s.cores ∧ (s.modDies f n).mem = s.mem := by
  induction n with
  | zero => exact ⟨rfl, rfl, rfl⟩
  | succ n ih =>
    rw [State.modDies_succ]
    exact ih

theorem die_modDies (f : Die → Die) (n e : Nat) :
    (s.modDies f n).die e = if s.package * 4 ≤ e ∧ e < s.package * 4 + n then f (s.die e) else s.die e := by
  induction n with
  | zero => rw [if_neg (by omega)]; rfl
  | succ n ih =>
    rw [State.modDies_succ, (modDies_frame s f n).1]
    by_cases he : e = s.package * 4 + n
    · rw [← he, die_modDie, ih, if_neg (by omega), if_pos (by omega)]
    · rw [die_modDie_other _ _ _ _ he, ih]
      exact if_congr (by omega) rfl rfl

end

section
variable {s : State} (die : Fin 4) (region : Fin 6)

theorem stepUp_heats : ∃ t, exec (.thermalStepUp die.val region.val) s = .next t
    ∧ (t.die (s.package * 4 + die.val)).throttle[region].val = min 7 ((s.die (s.package * 4 + die.val)).throttle[region].val + 1)
    ∧ (∀ r, r ≠ region → (t.die (s.package * 4 + die.val)).throttle[r] = (s.die (s.package * 4 + die.val)).throttle[r])
    ∧ (∀ e, e ≠ s.package * 4 + die.val → t.die e = s.die e) ∧ t.cores = s.cores ∧ t.mem = s.mem := by
  refine ⟨_, congrArg Host.Outcome.next (if_pos ⟨die.isLt, region.isLt⟩), ?_, fun r hr => ?_, fun e he => die_modDie_other _ _ _ _ he, rfl, rfl⟩
  · rw [die_modDie, throttle_throttleBy, if_pos rfl, stepUp_fits]
  · rw [die_modDie, throttle_throttleBy, if_neg fun h => hr (Fin.ext h)]

theorem stepDown_cools : ∃ t, exec (.thermalStepDown die.val region.val) s = .next t
    ∧ (t.die (s.package * 4 + die.val)).throttle[region].val = (s.die (s.package * 4 + die.val)).throttle[region].val - 1
    ∧ (∀ r, r ≠ region → (t.die (s.package * 4 + die.val)).throttle[r] = (s.die (s.package * 4 + die.val)).throttle[r])
    ∧ ((∀ e ∈ s.ttripIn, e = (die.val, region.val)) → t.ttripHold = false) ∧ ((∃ e ∈ s.ttripIn, e ≠ (die.val, region.val)) → t.ttripHold = true)
    ∧ (∀ e, e ≠ s.package * 4 + die.val → t.die e = s.die e) ∧ t.cores = s.cores ∧ t.mem = s.mem := by
  have hdie : ∀ (e : Nat) (l : List (Nat × Nat)) (b : Bool) (a : Option Nat),
      ({ s.modDie (s.package * 4 + die.val) (·.throttleBy region.val stepDown) with ttripIn := l, ttripHold := b, ttripAt := a } : State).die e
        = (s.modDie (s.package * 4 + die.val) (·.throttleBy region.val stepDown)).die e := fun _ _ _ _ => rfl
  refine ⟨_, if_pos ⟨die.isLt, region.isLt⟩, ?_, fun r hr => ?_, fun h => ?_, fun ⟨e, he, hne⟩ => ?_, fun e he => ?_, rfl, rfl⟩
  · rw [hdie, die_modDie, throttle_throttleBy, if_pos rfl, stepDown_fits]
  · rw [hdie, die_modDie, throttle_throttleBy, if_neg fun hv => hr (Fin.ext hv)]
  · have hleft : s.ttripIn.filter (· ≠ (die.val, region.val)) = [] := List.filter_eq_nil_iff.mpr fun e he => by simp [h e he]
    dsimp only
    rw [hleft]
    rfl
  · have hin : e ∈ s.ttripIn.filter (· ≠ (die.val, region.val)) := List.mem_filter.mpr ⟨he, by simpa using hne⟩
    dsimp only
    rw [List.isEmpty_eq_false_iff_exists_mem.mpr ⟨e, hin⟩]
    rfl
  · rw [hdie, die_modDie_other _ _ _ _ he]

theorem powerLimit_heats : ∃ t, exec .powerLimitExceeded s = .next t
    ∧ (∀ (d : Fin 4) (r : Fin 6), (t.die (s.package * 4 + d.val)).throttle[r].val = min 7 ((s.die (s.package * 4 + d.val)).throttle[r].val + 1))
    ∧ (∀ e, e / 4 ≠ s.package → t.die e = s.die e) ∧ t.cores = s.cores ∧ t.mem = s.mem := by
  refine ⟨s.modDies (·.warmer 6) 4, rfl, fun d r => ?_, fun e he => ?_, (modDies_frame s _ 4).2⟩
  · rw [die_modDies, if_pos (by omega), throttle_warmer, if_pos r.isLt, stepUp_fits]
  · rw [die_modDies, if_neg (by omega)]

theorem ttrip_holds : ∃ t, exec (.ttripReached die.val region.val) s = .next t ∧ t.ttripHold = true ∧ t.hkInterrupts = s.hkInterrupts + 1 ∧ (die.val, region.val) ∈ t.ttripIn
    ∧ t.ttripAt = some (s.ttripAt.getD s.time) ∧ t.cores = s.cores ∧ t.dies = s.dies ∧ t.mem = s.mem := by
  refine ⟨_, if_pos ⟨die.isLt, region.isLt⟩, rfl, rfl, ?_, rfl, rfl, rfl, rfl⟩
  dsimp only
  split
  next h => exact List.contains_iff_mem.mp h
  next => exact List.mem_append_right _ (List.mem_singleton_self _)

end

theorem thermalTrip_due {s : State} {a : Nat} (h : s.ttripAt = some a) :
    exec .thermalTrip s = .next (if a + 16000000 ≤ s.time then { s with poweredOff := true } else s) := by
  show execThermalTrip s = _
  rw [execThermalTrip, h]

/-- Settles O53: a port's events by its lane state, its retraining, the flit's kind and its counter; heat by region and die. -/
theorem portsAndHeat : Obligations.PortsAndHeat := by
  unfold Obligations.PortsAndHeat
  refine ⟨⟨fun s port lane hport hlane hnew => ?ports, fun s port code vi nonce => ⟨spdm_replies, fun n hn ht => hn ▸ spdm_unassigned ht⟩, fun s kind => minimumSvn_raises⟩,
    fun s die region => ⟨stepUp_heats die region, stepDown_cools die region, powerLimit_heats, ttrip_holds die region,
      fun a ha => ⟨fun hdue => ?_, fun hearly => ?_⟩, fun hnone => ?_⟩⟩
  case ports =>
    intro p q change
    refine ⟨fun h => ?_, fun h => ?_, fun h => ?_, fun h => ?_, fun h => ?_, fun h hw => ?_, fun h hw => ?_,
      fun flit hup hready => ⟨fun hfew => ?_, fun hmany => ?_, fun hkind => ?_, fun hkind hused => ?_, fun hkind hfresh hleft => ?_⟩,
      fun ingress => ⟨fun h => ?_, fun h => ?_, fun hlast hkey hgoing => ?_, fun h => ?_, fun h => ?_⟩⟩
    iterate 4 rw [laneFailure_eq hport hlane hnew, h]; rfl
    · rw [retrain_eq, if_pos h]
    · rw [retrain_eq, if_neg (by simp [show (s.port port).retraining = true from h]), if_neg (by simp [show (s.port port).wide = false from hw])]
    · rw [retrain_eq, if_neg (by simp [show (s.port port).retraining = true from h]), if_pos hw]
      rfl
    · rw [flitReceive_unauthentic hport hup hready, if_neg (Nat.not_le.mpr hfew)]
    · rw [flitReceive_unauthentic hport hup hready, if_pos hmany]
      rfl
    · rw [flitReceive_authentic hport hup hready, if_neg fun h => h.1 hkind, if_neg (not_not_intro hkind)]
      rfl
    · have hclosed : (s.port port).ingress.open_ = false := by
        rw [← Bool.not_eq_true, open_iff]
        rintro ⟨hex, hc⟩
        exact hused.elim (fun h => absurd (hex.symm.trans h) (by decide)) fun h => absurd h hc.ne
      rw [flitReceive_authentic hport hup hready, if_pos ⟨hkind, hclosed⟩]
    · rw [flitReceive_authentic hport hup hready, if_neg fun h => ?_, if_pos hkind, Direction.count, if_pos hleft]
      exact absurd ((open_iff _).mpr ⟨hfresh, hleft⟩) (by rw [h.2]; decide)
    · rw [keyWarning_eq]
      exact if_pos h
    · rw [keyWarning_eq]
      exact if_neg h
    · rw [keyExhausted_stops hlast hkey hgoing, bw_zero]
      rfl
    · rw [keySwitch_eq]
      exact if_pos h
    · rw [keySwitch_eq]
      exact if_neg (Bool.eq_false_iff.mp h)
  · rw [thermalTrip_due ha, if_pos hdue]
  · rw [thermalTrip_due ha, if_neg (Nat.not_le.mpr hearly)]
  · show execThermalTrip s = _
    rw [execThermalTrip, hnone]

end Sys2Proof.Machine
